-- ==== Sys2Proof/Word.lean ====
section
/-! DEFINITION. The word types of the port and of exchange memory, the plant's index types, and total
operations on fixed-length tables. -/
namespace Sys2Proof

/-- One byte of exchange memory, of a transfer or of a one-byte setting. -/
abbrev Byte := BitVec 8
/-- A 16-bit value: a sample code, a renewal count, a host address. -/
abbrev Half := BitVec 16
/-- A 32-bit word of exchange memory, a register, or a stamp in part time. -/
abbrev Word := BitVec 32

/-- Outlet `k` of the manual is index `k - 1`. -/
abbrev OutletIx := Fin 48
/-- Branch `Bk` is index `k - 1`. -/
abbrev Branch := Fin 6
/-- Phase `Lk` is index `k - 1`. -/
abbrev Phase := Fin 3
/-- Order slots and order table entries, numbered as in the manual. -/
abbrev SlotNo := Fin 32
/-- Cycle records, numbered as in the manual. -/
abbrev RecNo := Fin 16
/-- Watches, numbered as in the manual. -/
abbrev WatchNo := Fin 24
/-- Coil driver `k` is index `k - 1`. -/
abbrev DriverNo := Fin 4
/-- Close queue classes 0 (first) to 3 (last). -/
abbrev ClassNo := Fin 4

/-- The manual's number of an outlet, branch, phase or driver. -/
abbrev numberOf {n : Nat} (i : Fin n) : Nat := i.val + 1

/-- A fixed-length table with one entry changed. -/
def upd {α : Type} {n : Nat} (v : Vector α n) (i : Fin n) (f : α → α) : Vector α n :=
  v.set i.val (f v[i]) i.isLt

/-- A fixed-length table from its entries. -/
def tab {α : Type} {n : Nat} (f : Fin n → α) : Vector α n :=
  ⟨⟨(List.finRange n).map f⟩, by simp⟩

/-- Every index of a table, ascending. -/
abbrev indices (n : Nat) : List (Fin n) := List.finRange n

end Sys2Proof
end

