-- ==== Sys2Proof/Syntax.lean ====
section
/-! DEFINITION. The commands of the part: one constructor per row of spec/opcode_table.json. -/
namespace Sys2Proof

/-- The polarity of a zero crossing (R5). -/
inductive Polarity where
  | rising | falling
  deriving DecidableEq, Repr

/-- One sample set (R1): 48 current codes and 3 voltage codes, each signed 16-bit. -/
structure SampleSet where
  current : Vector Half 48
  voltage : Vector Half 3
  deriving DecidableEq, Repr

/-- The commands. `t` is the µs time of the event (log entry 2). A take row acts on the head of the
intake FIFO (R171), so it carries no slot. -/
inductive Instr where
  | powerOnReset
  | pinReset
  | softReset (t : Nat) (value : Word)
  | endOfReset
  | sample (t : Nat) (codes : SampleSet)
  | rawSenseChange (t : Nat) (outlet : OutletIx) (level : Bool)
  | senseChange (t : Nat) (outlet : OutletIx)
  | zeroCrossing (t : Nat) (phase : Phase) (polarity : Polarity)
  | phaseDead (t : Nat) (phase : Phase)
  | frameClose (t : Nat)
  | framePublication (t : Nat)
  | frameFlip (t : Nat)
  /-- `none` is the strip's global spacing, `some b` the spacing of branch `b`. -/
  | closeSpacingElapsed (t : Nat) (which : Option Branch)
  | queuePatience (t : Nat) (outlet : OutletIx)
  | pulseStart (t : Nat) (driver : DriverNo)
  | pulseEnd (t : Nat) (driver : DriverNo)
  | verifyDeadline (t : Nat) (outlet : OutletIx)
  | restDeadline (t : Nat) (record : RecNo)
  | post (t : Nat) (value : Word)
  | slotDrop (t : Nat)
  | orderKindRefused (t : Nat)
  | switchOn (t : Nat)
  | switchOff (t : Nat)
  | cycle (t : Nat)
  | cancelCycle (t : Nat)
  | clearFault (t : Nat)
  | clearEnergy (t : Nat)
  | latchEnergy (t : Nat)
  | rearmWatch (t : Nat)
  | read (t : Nat) (addr : Half) (length : Nat)
  | illegalCommand (t : Nat) (command : Byte) (length : Nat)
  /-- A write transfer: the start address and the data bytes that follow it (R183). -/
  | hostWordWrite (t : Nat) (addr : Half) (data : List Byte)
  | slotWordWrite (t : Nat) (slot : SlotNo) (word : Fin 16) (value : Word)
  | latchStateWrite (t : Nat) (value : Word)
  | missedKindsWrite (t : Nat) (value : Word)
  | causeWrite (t : Nat) (value : Word)
  | maskWrite (t : Nat) (value : Word)
  | unmappedWrite (t : Nat) (addr : Half) (value : Word)
  | partTimeRewrite (t : Nat)
  deriving DecidableEq, Repr

end Sys2Proof
end

