-- ==== Sys2Proof/Config.lean ====
section
/-! DEFINITION. The one choice the manual leaves to the part: at a frame close, in which order the close
scheduler's scan, the shed monitor and the watch unit act (R115, R154). -/
namespace Sys2Proof

/-- One turn of the last work of a frame close: the close scheduler's scan (R115 step 4), the shed monitor's work on
its next branch (R119), or the watch unit's examination of its next watch (R154). -/
inductive CloseTurn where
  | scan | shed | watch
  deriving DecidableEq, Repr, Inhabited

/-- The turns of one frame close, the first in front. Each block keeps its own order; the three may interleave. -/
abbrev CloseOrder := List CloseTurn

/-- DESIGN CHOICE, log entry 6: a free value. R115 and R154 let each of these fall before or after the scan at each
close, so nothing fixes what this answers; State counts the closes. -/
opaque Config.closeOrder : Nat → CloseOrder

end Sys2Proof
end

