-- ==== Sys2Proof/Machine/Types.lean ====
section
/-! DEFINITION. The records of the blocks, with the manual's names. Enumerations list their values in the
manual's order, which is also their code order where the manual gives a code by position (11.6). -/
namespace Sys2Proof.Machine

/-- Which reset is in course (R186, R193, R194). -/
inductive ResetKind where
  | powerOn | pin | soft
  deriving DecidableEq, Repr

/-! ### Front end and timebase (chapter 01) -/

/-- One outlet's load sense: the raw input, the debounced level, and the candidate run, the instant at which
the raw input last changed (R4). -/
structure Sense where
  raw : Bool
  level : Bool
  run : Option Nat
  deriving DecidableEq, Repr

/-- The meter engine's window of one outlet: the sums S_ii and S_vi and the clip field (section 2.1). -/
structure Window where
  sii : Nat
  svi : Int
  clip : Bool
  deriving DecidableEq, Repr

/-- The meter engine's window of one phase (section 2.1). -/
structure MeterPhase where
  svv : Nat
  clip : Bool
  deriving DecidableEq, Repr

/-- The latest sample set: its instant, its codes, and the sample count and the windows of the frame in progress as it
found them. A close at its instant gives it to the frame that opens (R1, log entry 44). -/
structure LastSample where
  instant : Nat
  codes : SampleSet
  count : Nat
  windows : Vector Window 48
  windowsV : Vector MeterPhase 3
  deriving DecidableEq, Repr

/-- One phase's status record (section 1.4) with PRESENT of the last closed frame (R13). -/
structure PhaseStatus where
  live : Bool
  run : Nat
  last : Option (Nat × Polarity)
  half : Option Nat
  lastRising : Option Nat
  cyclePeriod : Option Nat
  deadline : Option Nat
  present : Bool
  deriving DecidableEq, Repr

inductive TimebaseState where
  | freeRun | locked
  deriving DecidableEq, Repr

/-- The frame timebase (section 1.5), the L1 cycle that R3 samples, and the latest sample (R1). -/
structure Timebase where
  state : TimebaseState
  openInstant : Nat
  frameState : TimebaseState
  cycles : Nat
  cycleSetting : Nat
  sampleCount : Nat
  lockPending : Bool
  openTaken : Bool
  cycleStart : Nat
  cycleP : Nat
  cycleTaken : Nat
  lastSample : Option LastSample
  deriving DecidableEq, Repr

/-! ### Meter engine and publisher (chapters 02 and 03) -/

/-- The meter engine's state of one outlet (section 2.1). -/
structure MeterOutlet where
  sii : Nat
  svi : Int
  clip : Bool
  pairing : Phase
  energy : Nat
  residue : Nat
  clearReq : Bool
  deriving DecidableEq, Repr

/-- One phase record of a frame (R43). -/
structure PhaseResult where
  vrms : Nat
  present : Bool
  live : Bool
  clipped : Bool
  deriving DecidableEq, Repr

/-- One outlet record of a frame (R44). -/
structure OutletResult where
  irms : Nat
  p : Int
  va : Nat
  pf : Int
  energy : Nat
  clipped : Bool
  creep : Bool
  reverse : Bool
  saturated : Bool
  unverified : Bool
  phaseAbsent : Bool
  deriving DecidableEq, Repr

/-- One branch record of a frame (R45). -/
structure BranchResult where
  measured : Nat
  committed : Nat
  overload : Bool
  shedding : Bool
  restoring : Bool
  deriving DecidableEq, Repr

/-- A closed frame as it is handed to the publisher (R37, R42 to R45). -/
structure FrameResult where
  sequence : Word
  tUs : Nat
  n : Nat
  frequency : Nat
  frameState : TimebaseState
  short : Bool
  phases : Vector PhaseResult 3
  outlets : Vector OutletResult 48
  branches : Vector BranchResult 6
  deriving DecidableEq, Repr

inductive BufferName where
  | bufA | bufB
  deriving DecidableEq, Repr

inductive LatchState where
  | empty | pending | full
  deriving DecidableEq, Repr

/-- The frame publisher and the energy latch (section 3.1). `closedSeq` is the number given to the latest
closed frame (R39); `waiting` holds closed frames whose writing has not begun, `written` the frame whose
buffer is written and not yet flipped (R41). -/
structure Publisher where
  index : BufferName
  sequence : Word
  closedSeq : Word
  waiting : List FrameResult
  written : Option Word
  latch : LatchState
  latchList : List SlotNo
  deriving DecidableEq, Repr

/-! ### Outlets and relays (chapters 04 and 05) -/

inductive OutletState where
  | off | awaitClose | closing | on | opening | resting | fault | unknown
  deriving DecidableEq, Repr

/-- The owner of a request (section 4.2). -/
inductive Owner where
  | order (slot : SlotNo)
  | cycle (record : RecNo)
  | shed (branch : Branch)
  | restore (branch : Branch)
  deriving DecidableEq, Repr

/-- The direction of a request or of a movement; also the target of an UNVERIFIED flag. -/
inductive Dir where
  | toClosed | toOpen
  deriving DecidableEq, Repr

/-- The pending request of an outlet (R54): a CLOSE carries its class. -/
inductive PendingReq where
  | opn (owner : Owner)
  | cls (cls : ClassNo) (owner : Owner)
  deriving DecidableEq, Repr

inductive FaultKind where
  | failToClose | failToOpen | dropped | welded
  deriving DecidableEq, Repr

/-- Member outcomes (R52). -/
inductive MemberOutcome where
  | ok | skipped | superseded | faulted | patience | inCycle | unknownState
  deriving DecidableEq, Repr

/-- The outlet record (section 4.2), with the relay driver's retry count and estimates, the supervision
counts (R92) and the CLAMPED flag of the outlet's settings (R190). -/
structure Outlet where
  state : OutletState
  owner : Option Owner
  pending : Option PendingReq
  unverified : Option Dir
  shedMark : Bool
  cycle : Option RecNo
  faultKind : Option FaultKind
  wholeFrame : Bool
  peakOn : Option Nat
  peakSeen : Bool
  lastChange : Word
  retry : Bool
  closeEst : Nat
  openEst : Nat
  drop : Bool
  weld : Bool
  clamped : Bool
  deriving DecidableEq, Repr

/-- What a coil driver holds from assignment on (R78). -/
structure DriverJob where
  outlet : OutletIx
  dir : Dir
  phase : Phase
  plannedStart : Nat
  timed : Bool
  width : Nat
  margin : Nat
  deriving DecidableEq, Repr

inductive Driver where
  | free
  | aiming (job : DriverJob)
  | driving (job : DriverJob) (pulseEnd : Nat)
  deriving DecidableEq, Repr

/-- How a verification stands (R84). -/
inductive Satisfied where
  | no | atStart | measured (us : Nat)
  deriving DecidableEq, Repr

/-- A pulse that has started (R83). -/
structure Pulse where
  dir : Dir
  phase : Phase
  estimate : Nat
  start : Nat
  windowEnd : Nat
  deadline : Nat
  satisfied : Satisfied
  deriving DecidableEq, Repr

/-- The movement record of an outlet (section 5.1): its stage with what the stage has fixed. -/
inductive Movement where
  | none
  | waiting (dir : Dir)
  | aiming (dir : Dir) (phase : Phase) (estimate : Nat)
  | driving (pulse : Pulse)
  | verifying (pulse : Pulse)
  deriving DecidableEq, Repr

/-- An entry of the relay driver's wait list (R76). -/
structure WaitEntry where
  outlet : OutletIx
  dir : Dir
  retry : Bool
  deriving DecidableEq, Repr

/-! ### Scheduler, shed monitor, cycles, watches (chapters 06 to 09) -/

/-- An entry of the close queue (section 6.3). -/
structure QueueEntry where
  outlet : OutletIx
  cls : ClassNo
  owner : Owner
  stamp : Word
  instant : Nat
  arrival : Nat
  deriving DecidableEq, Repr

/-- A row of the branch load table (section 6.2); committed load is computed (R104). -/
structure BranchLoad where
  measured : Nat
  reservations : List (OutletIx × Nat)
  lastGrant : Option Nat
  deriving DecidableEq, Repr

/-- The shed monitor's record of a branch (section 7.2). -/
structure ShedRec where
  overload : Bool
  overloadCount : Nat
  restoring : Bool
  restoreCount : Nat
  list : List OutletIx
  round : List OutletIx
  thisClose : Bool
  deriving DecidableEq, Repr

inductive CycleState where
  | free | opening | resting | closing | restoring
  deriving DecidableEq, Repr

/-- An origin of a cycle record (section 8.1). -/
inductive Origin where
  | order (slot : SlotNo) (urgent : Bool)
  | watch (watch : WatchNo)
  deriving DecidableEq, Repr

/-- A cycle record (section 8.1); `withdrawn` holds the participants a cancel withdrew (R148). -/
structure CycleRec where
  state : CycleState
  participants : List OutletIx
  skipped : List OutletIx
  restTime : Nat
  restDeadline : Option Nat
  origins : List Origin
  cls : Option ClassNo
  cancelled : Bool
  closed : List OutletIx
  failed : List OutletIx
  faultOutlet : Option OutletIx
  withdrawn : List OutletIx
  deriving DecidableEq, Repr

inductive WatchState where
  | disarmed | grace | watching | lapsed | expiredWait | cycling | gaveUp
  deriving DecidableEq, Repr

inductive Evidence where
  | renewal | activity
  deriving DecidableEq, Repr

/-- A watch's state record (section 9.2) with the CLAMPED flag of its settings (R190). -/
structure WatchRec where
  state : WatchState
  framesLeft : Nat
  consecutive : Nat
  lastRenewal : Half
  reference : Option Nat
  lastEvidence : Option (Evidence × Word)
  record : Option RecNo
  clamped : Bool
  deriving DecidableEq, Repr

/-! ### Orders (chapter 10) -/

/-- The host-written fields of a slot (section 10.1), as the take copies them (R172). -/
structure SlotFields where
  kind : Byte
  notify : Bool
  urgent : Bool
  form : Byte
  count : Byte
  list : List Byte
  matchValue : Byte
  matchMask : Byte
  hostRef : Half
  param : Word
  deriving DecidableEq, Repr

/-- The eight order kinds (section 10.1). -/
inductive OrderKind where
  | switchOn | switchOff | cycle | cancelCycle | clearFault | clearEnergy | latchEnergy | rearmWatch
  deriving DecidableEq, Repr

/-- Order outcomes (section 10.1, codes 1 to 8 of 11.6); `partly` is PARTIAL. -/
inductive OrderOutcome where
  | done | partly | failed | merged | abandoned | canceled | aborted | refused
  deriving DecidableEq, Repr

/-- Reasons of a slot or a notice that are not fault kinds (11.6). -/
inductive Reason where
  | kind | target | noCycle | noWatch | busy | nothingOn | full
  | member (o : MemberOutcome)
  | aborted
  deriving DecidableEq, Repr

/-- An order table entry (R172, R177, R179): the copy, the members in member order with their outcomes, and
the cycle record a CYCLE order waits for. -/
structure OrderEntry where
  fields : SlotFields
  members : List (OutletIx × Option MemberOutcome)
  record : Option RecNo
  deriving DecidableEq, Repr

/-- What a finished order reports in its slot (R180). -/
structure OrderResult where
  outcome : OrderOutcome
  reason : Option Reason
  detail : Option OutletIx
  record : Option RecNo
  doneSet : List OutletIx
  failedSet : List OutletIx
  skippedSet : List OutletIx
  deriving DecidableEq, Repr

/-- The cycle controller's answer to an admission request (section 8.2). -/
inductive AdmitResult where
  | admitted (record : RecNo)
  | attached (record : RecNo)
  | refused (reason : Reason) (detail : Option OutletIx)
  deriving DecidableEq, Repr

/-- A member outcome on its way to the owner of the request it ends (R52). -/
structure Reply where
  owner : Owner
  outlet : OutletIx
  dir : Dir
  outcome : MemberOutcome
  deriving DecidableEq, Repr

/-- The notice kinds 1 to 19 (11.5). -/
inductive NoticeKind where
  | restart | timebaseFree | timebaseLocked | phaseDead | phaseLive | settingsClamped | relayRetry
  | relayFault | faultCleared | orderFinished | queuePatience | branchOverload | outletShed | branchRestore
  | cycleAbandoned | watchExpired | watchCycle | watchGaveUp | watchResumed
  deriving DecidableEq, Repr

/-! ### The working copy of the settings -/

/-- R21, R98, R120, R174. -/
structure OutletSettings where
  branch : Branch
  shedRank : Nat
  groupTag : Byte
  currentOffset : Int
  currentGain : Nat
  expectedLoad : Nat
  deriving DecidableEq, Repr

/-- R97, R118. -/
structure BranchSettings where
  budget : Nat
  closeSpacing : Nat
  shedLevel : Nat
  restoreLevel : Nat
  shedEnable : Bool
  shedFrames : Nat
  restoreFrames : Nat
  deriving DecidableEq, Repr

/-- R21. -/
structure PhaseSettings where
  voltageOffset : Int
  voltageGain : Nat
  deriving DecidableEq, Repr

/-- R15, R21, R91, R98. -/
structure StripSettings where
  frameCycles : Nat
  presentLevel : Nat
  creepLevel : Nat
  pulseWidth : Nat
  verifyMargin : Nat
  leakLevel : Nat
  globalSpacing : Nat
  queuePatience : Nat
  defaultExpected : Nat
  deriving DecidableEq, Repr

inductive WatchAction where
  | note | cycle
  deriving DecidableEq, Repr

/-- R152. -/
structure WatchSettings where
  enable : Bool
  action : WatchAction
  members : List OutletIx
  timeout : Nat
  grace : Nat
  band : Nat
  cycleLimit : Nat
  restTime : Nat
  deriving DecidableEq, Repr

/-- The working copy (R189). -/
structure Settings where
  outlets : Vector OutletSettings 48
  branches : Vector BranchSettings 6
  phases : Vector PhaseSettings 3
  strip : StripSettings
  watches : Vector WatchSettings 24
  deriving DecidableEq, Repr

end Sys2Proof.Machine
end

