-- ==== Sys2Proof/Machine/Mem.lean ====
section
/-! DEFINITION. Exchange memory: bytes in canonical form, little-endian words (chapter 00 section 4, R183). -/
namespace Sys2Proof.Machine

/-- The bytes of exchange memory that are not 0, by rising address. -/
abbrev Mem := List Host.Cell

/-- R193 and R184: a byte that nothing has written reads 0 (log entry 25). -/
def unlistedByte : Byte := 0#8

def readByte : Mem → Nat → Byte
  | [], _ => unlistedByte
  | (b, v) :: rest, a => if b = a then v else readByte rest a

/-- Writing the value an unlisted byte reads as removes the entry, so equal memories are equal lists. -/
def writeByte : Mem → Nat → Byte → Mem
  | [], a, v => if v = unlistedByte then [] else [(a, v)]
  | (b, w) :: rest, a, v =>
    if a < b then (if v = unlistedByte then (b, w) :: rest else (a, v) :: (b, w) :: rest)
    else if a = b then (if v = unlistedByte then rest else (a, v) :: rest)
    else (b, w) :: writeByte rest a v

/-- Canonical form: addresses strictly rising, no entry equal to what an unlisted byte reads as. -/
abbrev MemWf (m : Mem) : Prop :=
  m.Pairwise (fun x y => x.1 < y.1) ∧ ∀ c ∈ m, c.2 ≠ unlistedByte

/-- A 32-bit word, stored little-endian (chapter 00 section 4). -/
def readWord (m : Mem) (a : Nat) : Word :=
  readByte m (a + 3) ++ readByte m (a + 2) ++ readByte m (a + 1) ++ readByte m a

def writeWord (m : Mem) (a : Nat) (w : Word) : Mem :=
  writeByte (writeByte (writeByte (writeByte m a (w.extractLsb' 0 8)) (a + 1) (w.extractLsb' 8 8))
    (a + 2) (w.extractLsb' 16 8)) (a + 3) (w.extractLsb' 24 8)

/-- Consecutive words in ascending address order. -/
def writeWords (m : Mem) (a : Nat) : List Nat → Mem
  | [] => m
  | w :: ws => writeWords (writeWord m a (BitVec.ofNat 32 w)) (a + 4) ws

/-- The 16-bit field at byte address `a`. -/
def readHalf (m : Mem) (a : Nat) : Half := readByte m (a + 1) ++ readByte m a

/-- The value `v` in the field of `width` bits from bit `lo` of a word (11.6). -/
def fld (v lo width : Nat) : Nat := v % 2 ^ width * 2 ^ lo

end Sys2Proof.Machine
end

