-- ==== Sys2Proof/Machine/Operands.lean ====
section
/-! DEFINITION. What the part reads out of transfers and of exchange memory: the words of a write transfer (R183),
the settings records with their checks (R190), and the host-written fields of an order slot (11.6). -/
namespace Sys2Proof.Machine

/-! ### Transfers -/

/-- The complete aligned words of a write transfer whose first data byte is at the aligned address `a` (R183).
A last word that is not complete is discarded. -/
def alignedWords (a : Nat) : List Byte → List (Nat × Word)
  | b0 :: b1 :: b2 :: b3 :: rest => (a, b3 ++ b2 ++ b1 ++ b0) :: alignedWords ((a + 4) % 65536) rest
  | _ => []

/-- The words a write transfer writes (R183): a word whose lower bytes were passed over is discarded. The
address moves up by 1 a byte and wraps from 0xFFFF to 0. -/
def transferWords (addr : Half) (data : List Byte) : List (Nat × Word) :=
  let skip := (4 - addr.toNat % 4) % 4
  alignedWords ((addr.toNat + skip) % 65536) (data.drop skip)

/-! ### Checks of settings values (R190): the value used, and whether the take changed it -/

def clampNat (lo hi v : Nat) : Nat × Bool :=
  if v < lo then (lo, true) else if hi < v then (hi, true) else (v, false)

def clampInt (lo hi v : Int) : Int × Bool :=
  if v < lo then (lo, true) else if hi < v then (hi, true) else (v, false)

/-- An on/off value: an illegal value takes the default, off. -/
def switchOf (v : Nat) : Bool × Bool :=
  if v = 0 then (false, false) else if v = 1 then (true, false) else (false, true)

/-- A watch action: an illegal value takes the default, NOTE (R152). -/
def actionOf (v : Nat) : WatchAction × Bool :=
  if v = 0 then (.note, false) else if v = 1 then (.cycle, false) else (.note, true)

/-- The default branch of an outlet's position, `ceil(k / 8)` for outlet `k` (R21). -/
def defaultBranch (k : OutletIx) : Branch := ⟨k.val / 8, by omega⟩

/-- A branch outside 1..6 is replaced by the branch of the outlet's position (R21, R190). -/
def branchOf (k : OutletIx) (v : Nat) : Branch × Bool :=
  if h : 1 ≤ v ∧ v ≤ 6 then (⟨v - 1, by omega⟩, false) else (defaultBranch k, true)

/-- B1 and B2 are fed from L1, B3 and B4 from L2, B5 and B6 from L3 (chapter 00, R51). -/
def phaseOfBranch (b : Branch) : Phase := ⟨b.val / 2, by omega⟩

/-- An outlet number 1..48 as an index. -/
def outletOf (v : Nat) : Option OutletIx :=
  if h : 1 ≤ v ∧ v ≤ 48 then some ⟨v - 1, by omega⟩ else none

/-- Watch members in the order written: 0 is an empty place, other numbers outside 1..48 and repeats are
dropped (R152). Answers the members and whether one was dropped. -/
def membersOf : List Nat → List OutletIx → List OutletIx × Bool
  | [], kept => (kept, false)
  | v :: vs, kept =>
    if v = 0 then membersOf vs kept
    else match outletOf v with
      | some k => if k ∈ kept then ((membersOf vs kept).1, true) else membersOf vs (kept ++ [k])
      | none => ((membersOf vs kept).1, true)

def byteAt (m : Mem) (a : Nat) : Nat := (readByte m a).toNat
def halfAt (m : Mem) (a : Nat) : Nat := (readHalf m a).toNat
def signedHalfAt (m : Mem) (a : Nat) : Int := (readHalf m a).toInt

def outletSettingsAddr (k : OutletIx) : Nat := 0x0100 + 32 * k.val
def branchSettingsAddr (b : Branch) : Nat := 0x0700 + 16 * b.val
def phaseSettingsAddr (p : Phase) : Nat := 0x0760 + 16 * p.val
def stripSettingsAddr : Nat := 0x0790
def watchSettingsAddr (w : WatchNo) : Nat := 0x0800 + 32 * w.val

/-- R21, R98, R120, R174. -/
def takeOutlet (m : Mem) (k : OutletIx) : OutletSettings × Bool :=
  let a := outletSettingsAddr k
  let branch := branchOf k (byteAt m a)
  let rank := clampNat 0 7 (byteAt m (a + 1))
  let offset := clampInt (-2048) 2047 (signedHalfAt m (a + 4))
  let gain := clampNat 16384 49151 (halfAt m (a + 6))
  let expected := clampNat 0 20000 (halfAt m (a + 8))
  ({ branch := branch.1, shedRank := rank.1, groupTag := readByte m (a + 2), currentOffset := offset.1
     currentGain := gain.1, expectedLoad := expected.1 },
   branch.2 || rank.2 || offset.2 || gain.2 || expected.2)

/-- R97, R118: the restore level is clamped against the shed level after its own clamp. -/
def takeBranch (m : Mem) (b : Branch) : BranchSettings × Bool :=
  let a := branchSettingsAddr b
  let budget := clampNat 1000 32000 (halfAt m a)
  let spacing := clampNat 100 10000 (halfAt m (a + 2))
  let shed := clampNat 1000 40000 (halfAt m (a + 4))
  let restore := clampNat 0 (shed.1 - 1) (halfAt m (a + 6))
  let enable := switchOf (byteAt m (a + 8))
  let shedFrames := clampNat 1 10 (byteAt m (a + 9))
  let restoreFrames := clampNat 1 60 (byteAt m (a + 10))
  ({ budget := budget.1, closeSpacing := spacing.1, shedLevel := shed.1, restoreLevel := restore.1
     shedEnable := enable.1, shedFrames := shedFrames.1, restoreFrames := restoreFrames.1 },
   budget.2 || spacing.2 || shed.2 || restore.2 || enable.2 || shedFrames.2 || restoreFrames.2)

/-- R21. -/
def takePhase (m : Mem) (p : Phase) : PhaseSettings × Bool :=
  let a := phaseSettingsAddr p
  let offset := clampInt (-2048) 2047 (signedHalfAt m a)
  let gain := clampNat 16384 49151 (halfAt m (a + 2))
  ({ voltageOffset := offset.1, voltageGain := gain.1 }, offset.2 || gain.2)

/-- R15, R21, R91, R98. -/
def takeStrip (m : Mem) : StripSettings × Bool :=
  let a := stripSettingsAddr
  let cycles := clampNat 10 120 (halfAt m a)
  let present := clampNat 50000 200000 (readWord m (a + 4)).toNat
  let creep := clampNat 0 500 (halfAt m (a + 8))
  let width := clampNat 5 60 (byteAt m (a + 10))
  let margin := clampNat 5 50 (byteAt m (a + 11))
  let leak := clampNat 20 2000 (halfAt m (a + 12))
  let spacing := clampNat 0 2000 (halfAt m (a + 14))
  let patience := clampNat 1 3600 (halfAt m (a + 16))
  let expected := clampNat 0 20000 (halfAt m (a + 18))
  ({ frameCycles := cycles.1, presentLevel := present.1, creepLevel := creep.1, pulseWidth := width.1
     verifyMargin := margin.1, leakLevel := leak.1, globalSpacing := spacing.1, queuePatience := patience.1
     defaultExpected := expected.1 },
   cycles.2 || present.2 || creep.2 || width.2 || margin.2 || leak.2 || spacing.2 || patience.2 || expected.2)

/-- R152. -/
def takeWatch (m : Mem) (w : WatchNo) : WatchSettings × Bool :=
  let a := watchSettingsAddr w
  let enable := switchOf (byteAt m a)
  let action := actionOf (byteAt m (a + 1))
  let members := membersOf ((List.range 8).map fun i => byteAt m (a + 4 + i)) []
  let timeout := clampNat 10 3600 (halfAt m (a + 12))
  let grace := clampNat 0 3600 (halfAt m (a + 14))
  let band := clampNat 0 10000 (halfAt m (a + 16))
  let limit := clampNat 1 7 (byteAt m (a + 18))
  let rest := clampNat 1000 600000 (readWord m (a + 20)).toNat
  ({ enable := enable.1, action := action.1, members := members.1, timeout := timeout.1, grace := grace.1
     band := band.1, cycleLimit := limit.1, restTime := rest.1 },
   enable.2 || action.2 || members.2 || timeout.2 || grace.2 || band.2 || limit.2 || rest.2)

/-- The renewal count of a watch, read from exchange memory and never copied (R153). -/
def renewalAt (m : Mem) (w : WatchNo) : Half := readHalf m (watchSettingsAddr w + 24)

/-- A watch whose enable is on but that has no member is handled as disabled (R152). -/
def WatchSettings.enabled (w : WatchSettings) : Bool := w.enable && !w.members.isEmpty

/-- The working copy before the first take: the defaults of R15, R21, R91, R97, R98, R118, R120, R152, R174. -/
def Settings.default : Settings where
  outlets := tab fun k =>
    { branch := defaultBranch k, shedRank := 0, groupTag := 0, currentOffset := 0, currentGain := 32768
      expectedLoad := 0 }
  branches := Vector.replicate 6
    { budget := 12800, closeSpacing := 500, shedLevel := 15000, restoreLevel := 11000, shedEnable := false
      shedFrames := 3, restoreFrames := 10 }
  phases := Vector.replicate 3 { voltageOffset := 0, voltageGain := 32768 }
  strip :=
    { frameCycles := 50, presentLevel := 90000, creepLevel := 30, pulseWidth := 20, verifyMargin := 10
      leakLevel := 100, globalSpacing := 100, queuePatience := 300, defaultExpected := 2000 }
  watches := Vector.replicate 24
    { enable := false, action := .note, members := [], timeout := 120, grace := 300, band := 0, cycleLimit := 3
      restTime := 10000 }

/-! ### Order slots (section 10.1, layout 11.6) -/

abbrev slotAddr (e : SlotNo) : Nat := 0x1500 + 64 * e.val

/-- The slot's state word: FREE 0, POSTED 1, TAKEN 2, DONE 3, REFUSED 4. -/
def slotState (m : Mem) (e : SlotNo) : Nat := (readWord m (slotAddr e)).toNat

/-- The host-written fields of a slot (R172). -/
def slotFields (m : Mem) (e : SlotNo) : SlotFields :=
  let a := slotAddr e
  let flags := byteAt m (a + 5)
  { kind := readByte m (a + 4), notify := flags.testBit 0, urgent := flags.testBit 1
    form := readByte m (a + 6), count := readByte m (a + 7)
    list := (List.range 8).map fun i => readByte m (a + 8 + i)
    matchValue := readByte m (a + 16), matchMask := readByte m (a + 17), hostRef := readHalf m (a + 18)
    param := readWord m (a + 20) }

/-- SWITCH_ON 1 to REARM_WATCH 8 (11.6). -/
def orderKindOf (v : Byte) : Option OrderKind :=
  match v.toNat with
  | 1 => some .switchOn | 2 => some .switchOff | 3 => some .cycle | 4 => some .cancelCycle
  | 5 => some .clearFault | 6 => some .clearEnergy | 7 => some .latchEnergy | 8 => some .rearmWatch
  | _ => none

/-- The kinds with targets (section 10.1). -/
def OrderKind.hasTargets : OrderKind → Bool
  | .switchOn | .switchOff | .cycle | .clearFault | .clearEnergy => true
  | .cancelCycle | .latchEnergy | .rearmWatch => false

/-- The outlet of a list that appears again, if one does (R173): that of the first entry, in list order, that repeats an
earlier one (log entry 43). -/
def firstRepeat : List OutletIx → List OutletIx → Option OutletIx
  | _, [] => none
  | seen, k :: ks => if k ∈ seen then some k else firstRepeat (k :: seen) ks

/-- The outlets whose group tag agrees with the match value in every bit of the mask (R174). -/
def matchTargets (work : Settings) (value mask : Byte) : List OutletIx :=
  (indices 48).filter fun k => work.outlets[k].groupTag &&& mask == value &&& mask

/-- The target checks of R173 and the resolution of R174: the members in member order, or the detail outlet
of a TARGET refusal. -/
def resolveTargets (work : Settings) (f : SlotFields) : Except (Option OutletIx) (List OutletIx) :=
  match f.form.toNat with
  | 0 =>
    if f.count.toNat < 1 ∨ 8 < f.count.toNat then .error none
    else
      let entries := (f.list.take f.count.toNat).map fun b => outletOf b.toNat
      if none ∈ entries then .error none
      else
        let ks := entries.filterMap id
        match firstRepeat [] ks with
        | some k => .error (some k)
        | none => .ok ks
  | 1 =>
    let ks := matchTargets work f.matchValue f.matchMask
    if ks.isEmpty then .error none else .ok ks
  | _ => .error none

/-- The rest time of a CYCLE order from its parameter (R133), in ms. -/
def orderRestTime (param : Word) : Nat :=
  if param.toNat = 0 then 10000
  else if param.toNat < 1000 then 1000
  else if 600000 < param.toNat then 600000
  else param.toNat

end Sys2Proof.Machine
end

