-- ==== Sys2Proof/Machine/Views.lean ====
section
/-! DEFINITION. The codes and the layouts of the words the part writes (11.6). A word is formed as a sum of
fields; every body holds 0 in the bits of the two update counts (R185). -/
namespace Sys2Proof.Machine

/-! ### Codes -/

def TimebaseState.code : TimebaseState → Nat
  | .freeRun => 0 | .locked => 1

def LatchState.code : LatchState → Nat
  | .empty => 0 | .pending => 1 | .full => 2

def BufferName.code : BufferName → Nat
  | .bufA => 0 | .bufB => 1

def OutletState.code : OutletState → Nat
  | .off => 0 | .awaitClose => 1 | .closing => 2 | .on => 3 | .opening => 4 | .resting => 5 | .fault => 6
  | .unknown => 7

def CycleState.code : CycleState → Nat
  | .free => 0 | .opening => 1 | .resting => 2 | .closing => 3 | .restoring => 4

def WatchState.code : WatchState → Nat
  | .disarmed => 0 | .grace => 1 | .watching => 2 | .lapsed => 3 | .expiredWait => 4 | .cycling => 5 | .gaveUp => 6

def OrderOutcome.code : OrderOutcome → Nat
  | .done => 1 | .partly => 2 | .failed => 3 | .merged => 4 | .abandoned => 5 | .canceled => 6 | .aborted => 7
  | .refused => 8

def MemberOutcome.code : MemberOutcome → Nat
  | .ok => 16 | .skipped => 17 | .superseded => 18 | .faulted => 19 | .patience => 20 | .inCycle => 21
  | .unknownState => 22

def Reason.code : Reason → Nat
  | .kind => 32 | .target => 33 | .noCycle => 34 | .noWatch => 35 | .busy => 36 | .nothingOn => 37 | .full => 38
  | .member o => o.code
  | .aborted => 7

def FaultKind.code : FaultKind → Nat
  | .failToClose => 48 | .failToOpen => 49 | .dropped => 50 | .welded => 51

def Evidence.code : Evidence → Nat
  | .renewal => 80 | .activity => 81

def NoticeKind.code : NoticeKind → Nat
  | .restart => 1 | .timebaseFree => 2 | .timebaseLocked => 3 | .phaseDead => 4 | .phaseLive => 5
  | .settingsClamped => 6 | .relayRetry => 7 | .relayFault => 8 | .faultCleared => 9 | .orderFinished => 10
  | .queuePatience => 11 | .branchOverload => 12 | .outletShed => 13 | .branchRestore => 14
  | .cycleAbandoned => 15 | .watchExpired => 16 | .watchCycle => 17 | .watchGaveUp => 18 | .watchResumed => 19

def ResetKind.code : ResetKind → Nat
  | .powerOn => 1 | .pin => 2 | .soft => 3

/-- The state word's code of a slot (11.6). -/
def slotPosted : Nat := 1
def slotTaken : Nat := 2
def slotDone : Nat := 3
def slotRefused : Nat := 4

def optCode {α : Type} (f : α → Nat) : Option α → Nat
  | none => 0
  | some x => f x

def Owner.kindCode : Owner → Nat
  | .order _ => 1 | .cycle _ => 2 | .shed _ => 3 | .restore _ => 4

def Owner.number : Owner → Nat
  | .order e => e.val | .cycle c => c.val | .shed b => numberOf b | .restore b => numberOf b

def PendingReq.owner : PendingReq → Owner
  | .opn w => w
  | .cls _ w => w

def PendingReq.code : PendingReq → Nat
  | .opn _ => 1
  | .cls _ _ => 2

/-- An outlet map: bit `k - 1` for outlet `k`. -/
def outletMap (l : List OutletIx) : Nat :=
  (indices 48).foldl (fun a k => if k ∈ l then a + 2 ^ k.val else a) 0

def mapLow (l : List OutletIx) : Nat := outletMap l % 2 ^ 32
def mapHigh (l : List OutletIx) : Nat := outletMap l / 2 ^ 32

/-- An instant of µs time in part time (section 1.1). -/
def partOf (us : Nat) : Word := BitVec.ofNat 32 (us / 1000)

/-! ### Guarded record bodies -/

abbrev outletStateAddr (k : OutletIx) : Nat := 0x0B00 + 32 * k.val
abbrev watchStateAddr (w : WatchNo) : Nat := 0x1100 + 16 * w.val
abbrev cycleViewAddr (c : RecNo) : Nat := 0x1280 + 32 * c.val
abbrev branchStateAddr (b : Branch) : Nat := 0x1480 + 16 * b.val

/-- The outlet state record (R74). The target bit of a clear UNVERIFIED is 0 (log entry 51). -/
def outletBody (o : Outlet) : List Nat :=
  [ fld o.state.code 16 8 + fld (optCode FaultKind.code o.faultKind) 24 8,
    fld (optCode Owner.kindCode o.owner) 0 8 + fld (optCode Owner.number o.owner) 8 8 +
      fld (optCode PendingReq.code o.pending) 16 8 + fld (optCode (·.owner.kindCode) o.pending) 24 8,
    fld (optCode (·.owner.number) o.pending) 0 8 + fld o.unverified.isSome.toNat 8 1 +
      fld (o.unverified == some .toOpen).toNat 9 1 + fld o.shedMark.toNat 10 1 +
      fld (match o.cycle with | none => 255 | some c => c.val) 16 8,
    fld (o.peakOn.getD 0xFFFF) 0 16 + fld o.retry.toNat 16 1,
    fld o.closeEst 0 16 + fld o.openEst 16 16,
    o.lastChange.toNat,
    o.clamped.toNat,
    0 ]

/-- The watch state record (R167). -/
def watchBody (w : WatchRec) : List Nat :=
  [ fld w.state.code 16 3 + fld w.consecutive 19 3 + fld w.clamped.toNat 22 1 +
      fld (match w.record with | none => 31 | some c => c.val) 23 5,
    w.lastRenewal.toNat + fld (optCode (·.1.code) w.lastEvidence) 16 8,
    fld (w.reference.getD 0xFFFFF) 0 20 + fld w.framesLeft 20 12,
    fld (optCode (·.2.toNat) w.lastEvidence) 0 16 ]

def Origin.code : Origin → Nat
  | .order e _ => e.val
  | .watch w => 128 + w.val

def originByte (l : List Origin) (i : Nat) : Nat :=
  match l[i]? with
  | none => 255
  | some o => o.code

/-- The cycle view (R150). A FREE record's view shows 0 for the empty rest time (log entry 51). -/
def cycleBody (c : CycleRec) : List Nat :=
  [ fld c.state.code 16 3 + fld c.cancelled.toNat 19 1 + fld c.restDeadline.isSome.toNat 20 1 +
      fld (match c.cls with | none => 255 | some k => k.val) 24 8,
    fld (originByte c.origins 0) 0 8 + fld (originByte c.origins 1) 8 8 + fld (originByte c.origins 2) 16 8 +
      fld (originByte c.origins 3) 24 8,
    c.restTime,
    (match c.restDeadline with | none => 0 | some d => (partOf d).toNat),
    mapLow c.participants,
    mapHigh c.participants + fld (optCode numberOf c.faultOutlet) 16 8,
    mapLow c.failed,
    mapHigh c.failed ]

/-- R104: measured load plus the amounts on the branch's own list. -/
def BranchLoad.committed (l : BranchLoad) : Nat := l.measured + (l.reservations.map (·.2)).sum

/-- The branch state record (R116, R130). -/
def branchBody (l : BranchLoad) (r : ShedRec) : List Nat :=
  [ fld r.overload.toNat 16 1 + fld r.restoring.toNat 17 1 + fld l.reservations.length 24 8,
    l.committed,
    0,
    0 ]

/-- A guarded record's words: the leading count in the first word's low half, the trailing count in the last
word's high half (R185). -/
def withCounts (count : Nat) (body : List Nat) : List Nat :=
  match body with
  | [] => []
  | w :: ws => (w + fld count 0 16) :: (ws.dropLast ++ (ws.getLast?.toList.map (· + fld count 16 16)))

/-- The leading update count a guarded record shows. -/
def recordCount (m : Mem) (a : Nat) : Nat := (readHalf m a).toNat

/-- R185: the count rises by 1 modulo 65536, and every word of the record is written. -/
def rewriteRecord (m : Mem) (a : Nat) (body : List Nat) : Mem :=
  writeWords m a (withCounts ((recordCount m a + 1) % 65536) body)

/-! ### Notices, slots, frames, the latch area -/

def noticeAddr (seq : Nat) : Nat := 0x2D00 + 16 * (seq % 256)

/-- A notice entry (11.6). The sequence word is written last (R191). -/
def writeNotice (m : Mem) (seq : Word) (kind : NoticeKind) (subject reason : Nat) (stamp value : Word) : Mem :=
  let a := noticeAddr seq.toNat
  writeWord (writeWords m (a + 4)
    [fld kind.code 0 8 + fld reason 8 8 + fld subject 16 16, stamp.toNat, value.toNat]) a seq

/-- The result words of a slot (R180 step 1), then its state word (step 2). -/
def writeResult (m : Mem) (e : SlotNo) (r : OrderResult) (finish : Word) : Mem :=
  let a := slotAddr e
  let m1 := writeWords m (a + 0x18)
    [ fld r.outcome.code 0 8 + fld (optCode Reason.code r.reason) 8 8 + fld (optCode numberOf r.detail) 16 8 +
        fld (match r.record with | none => 255 | some c => c.val) 24 8,
      mapLow r.doneSet, mapHigh r.doneSet, mapLow r.failedSet, mapHigh r.failedSet,
      mapLow r.skippedSet, mapHigh r.skippedSet ]
  let m2 := writeWord m1 (a + 0x38) finish
  writeWord m2 a (BitVec.ofNat 32 (if r.outcome = .refused then slotRefused else slotDone))

/-- The take of a slot (R172): TAKEN, the part-written fields cleared, the take stamp. A finish stamp of none, for which
11.6 gives no code, is written as 0 (log entry 46). -/
def writeTaken (m : Mem) (e : SlotNo) (stamp : Word) : Mem :=
  let a := slotAddr e
  writeWords (writeWord m a (BitVec.ofNat 32 slotTaken)) (a + 0x18)
    [fld 255 24 8, 0, 0, 0, 0, 0, 0, stamp.toNat, 0]

def flag (b : Bool) (i : Nat) : Nat := fld b.toNat i 1

/-- A signed value in `width` bits, as the layouts store it. -/
def signedBits (v : Int) (width : Nat) : Nat := (BitVec.ofInt width v).toNat

def phaseWords (r : PhaseResult) : List Nat :=
  [r.vrms, flag r.present 0 + flag r.live 1 + flag r.clipped 2, 0, 0]

def outletWords (r : OutletResult) : List Nat :=
  [ r.irms, signedBits r.p 32, r.va,
    signedBits r.pf 16 + flag r.clipped 16 + flag r.creep 17 + flag r.reverse 18 + flag r.saturated 19 +
      flag r.unverified 20 + flag r.phaseAbsent 21,
    r.energy % 2 ^ 32, r.energy / 2 ^ 32, 0, 0 ]

def branchWords (r : BranchResult) : List Nat :=
  [r.measured, r.committed, flag r.overload 0 + flag r.shedding 1 + flag r.restoring 2, 0]

/-- The body of a frame buffer, in ascending address order (R40, 11.6). -/
def frameBody (f : FrameResult) : List Nat :=
  [f.tUs, f.n, f.frequency, f.frameState.code + flag f.short 1, 0, 0, 0] ++
    (f.phases.toList.map phaseWords).flatten ++ (f.outlets.toList.map outletWords).flatten ++
    (f.branches.toList.map branchWords).flatten

def bufferAddr : BufferName → Nat
  | .bufA => 0x1D00
  | .bufB => 0x2400

def BufferName.other : BufferName → BufferName
  | .bufA => .bufB
  | .bufB => .bufA

/-- R40: the leading word, the body, the trailing word. -/
def writeFrame (m : Mem) (b : BufferName) (f : FrameResult) : Mem :=
  let a := bufferAddr b
  let m1 := writeWord m a f.sequence
  writeWord (writeWords m1 (a + 4) (frameBody f)) (a + 0x6B0) f.sequence

/-- The energy latch area (R47). -/
def writeLatch (m : Mem) (seq stamp : Word) (counters : List Nat) : Mem :=
  writeWords m 0x2B00 ([seq.toNat, stamp.toNat] ++
    (counters.map fun e => [e % 2 ^ 32, e / 2 ^ 32]).flatten)

/-! ### The header (11.6) -/

abbrev addrIdentity : Nat := 0x00
abbrev addrLayout : Nat := 0x04
abbrev addrPubIndex : Nat := 0x08
abbrev addrPubSequence : Nat := 0x0C
abbrev addrHold : Nat := 0x10
abbrev addrReadMark : Nat := 0x14
abbrev addrWriteCount : Nat := 0x18
abbrev addrMissedKinds : Nat := 0x1C
abbrev addrLatchState : Nat := 0x20
abbrev addrTimebase : Nat := 0x24
abbrev addrSettingsStatus : Nat := 0x28
abbrev addrPartTime : Nat := 0x2C

/-- IDENT: part code 0x4F48 in bits 15..0, revision 1 in bits 23..16 (R186). -/
def identValue : Word := 0x00014F48#32

/-- The host-owned words outside the header and the order slots (11.2, R184). -/
def hostOwnedArea (a : Nat) : Bool :=
  (0x0100 ≤ a && a < 0x0B00) || (0x2C88 ≤ a && a < 0x2D00) || (0x3D00 ≤ a && a < 0x4000)

/-- The order slots, 0x1500 to 0x1CFF. -/
def slotArea (a : Nat) : Bool := 0x1500 ≤ a && a < 0x1D00

end Sys2Proof.Machine
end

