-- ==== Sys2Proof/Machine/ResetState.lean ====
section
/-! DEFINITION. The reset state of each record, and exchange memory at the end of a reset. -/
namespace Sys2Proof.Machine

/-! ### The reset state of each record -/

/-- R4, R16. -/
def Sense.reset (raw : Bool) : Sense := { raw := raw, level := false, run := none }

/-- R16, section 1.4. -/
def PhaseStatus.reset : PhaseStatus where
  live := false
  run := 0
  last := none
  half := none
  lastRising := none
  cyclePeriod := none
  deadline := none
  present := false

/-- R16, section 1.5. The start, the spacing and the samples taken of the L1 cycle in progress are 0, which the spec gives no
value for (log entry 50). DESIGN CHOICE: they decide nothing before a LOCKED frame opens, which sets all three. -/
def Timebase.reset : Timebase where
  state := .freeRun
  openInstant := 0
  frameState := .freeRun
  cycles := 0
  cycleSetting := 50
  sampleCount := 1
  lockPending := false
  openTaken := false
  cycleStart := 0
  cycleP := 0
  cycleTaken := 0
  lastSample := none

/-- R38, section 2.1: the window opens with the pairing of the given assignment. -/
def MeterOutlet.opened (branch : Branch) (energy residue : Nat) : MeterOutlet where
  sii := 0
  svi := 0
  clip := false
  pairing := phaseOfBranch branch
  energy := energy
  residue := residue
  clearReq := false

def MeterPhase.opened : MeterPhase := { svv := 0, clip := false }

/-- R50, section 3.1. -/
def Publisher.reset : Publisher where
  index := .bufA
  sequence := 0
  closedSeq := 0
  waiting := []
  written := none
  latch := .empty
  latchList := []

/-- R75, R92, R95, section 4.2. -/
def Outlet.reset : Outlet where
  state := .unknown
  owner := none
  pending := none
  unverified := none
  shedMark := false
  cycle := none
  faultKind := none
  wholeFrame := false
  peakOn := none
  peakSeen := false
  lastChange := 0
  retry := false
  closeEst := 8000
  openEst := 6000
  drop := false
  weld := false
  clamped := false

/-- R117, section 6.2. -/
def BranchLoad.reset : BranchLoad := { measured := 0, reservations := [], lastGrant := none }

/-- R131, section 7.2. -/
def ShedRec.reset : ShedRec where
  overload := false
  overloadCount := 0
  restoring := false
  restoreCount := 0
  list := []
  round := []
  thisClose := false

/-- R151, section 8.1: a FREE record, every field empty. DESIGN CHOICE: an empty rest time, for which 11.6 gives no code,
is 0 (log entry 51). -/
def CycleRec.free : CycleRec where
  state := .free
  participants := []
  skipped := []
  restTime := 0
  restDeadline := none
  origins := []
  cls := none
  cancelled := false
  closed := []
  failed := []
  faultOutlet := none
  withdrawn := []

/-- R168, section 9.2. -/
def WatchRec.reset : WatchRec where
  state := .disarmed
  framesLeft := 0
  consecutive := 0
  lastRenewal := 0
  reference := none
  lastEvidence := none
  record := none
  clamped := false

/-! ### Exchange memory at the end of a reset (R181, R193, R194) -/

/-- A slot reading TAKEN is finished DONE with outcome and reason ABORTED; its take stamp is left as it
stands (R181, log entry 18). -/
def abortSlot (m : Mem) (e : SlotNo) : Mem :=
  if slotState m e = slotTaken then
    writeResult m e
      { outcome := .aborted, reason := some .aborted, detail := none, record := none
        doneSet := [], failedSet := [], skippedSet := [] } 0
  else m

/-- The bytes a reset keeps: none after power-on (R193); the host-owned words and the order slots otherwise,
with every TAKEN slot finished (R194, R181). -/
def keptMem (kind : ResetKind) (m : Mem) : Mem :=
  match kind with
  | .powerOn => []
  | .pin | .soft => (indices 32).foldl abortSlot (m.filter fun c => hostOwnedArea c.1 || slotArea c.1)

/-- The header words, the guarded records with counts 0 and the RESTART notice (R193, R194). -/
def resetMem (kind : ResetKind) (m : Mem) : Mem :=
  let m0 := writeWords (keptMem kind m) addrIdentity [identValue.toNat, 1]
  let m1 := writeWords m0 addrHold [1, 0, 1]
  let m2 := (indices 48).foldl (fun m k => writeWords m (outletStateAddr k) (outletBody Outlet.reset)) m1
  let m3 := (indices 24).foldl (fun m w => writeWords m (watchStateAddr w) (watchBody WatchRec.reset)) m2
  let m4 := (indices 16).foldl (fun m c => writeWords m (cycleViewAddr c) (cycleBody CycleRec.free)) m3
  writeNotice m4 0 .restart 0 kind.code 0 0

/-- CAUSE bit 5 alone (R193, R194). -/
def causeRestart : Word := 0x20#32

end Sys2Proof.Machine
end

