-- ==== Sys2Proof/Machine/State.lean ====
section
/-! DEFINITION. The state of the part, its reset state, and the ways a step can stop. -/
namespace Sys2Proof.Machine

/-- No event of the manual stops the part, so there is no fault. -/
inductive Fault where
  deriving DecidableEq, Repr

/-- `notModelled` is raised by `exec` for a command that has no meaning yet. It is safe: nothing is proved
about a run past it. Every command has its meaning, so nothing raises it. -/
inductive Refusal where
  | notModelled (mnemonic : String)
  deriving DecidableEq, Repr

/-- Everything the manual gives the part (INVENTORY.md lists each field with its rule and its reset value). -/
structure State where
  /-- The commands that wait, first in, first out (log entry 1). -/
  pending : List Instr
  /-- The reset in course, if any (R186). -/
  resetting : Option ResetKind
  /-- µs time (section 1.1). -/
  now : Nat
  /-- Exchange memory (11.2). -/
  mem : Mem
  /-- CAUSE (R187). -/
  cause : Word
  /-- MASK (R187). -/
  mask : Word
  /-- The bytes the latest transfer shifted out on SDO (R183). -/
  sdo : List Byte
  /-- Load senses, raw and debounced (R4). -/
  sense : Vector Sense 48
  /-- Phase status records (section 1.4). -/
  phases : Vector PhaseStatus 3
  /-- Frame timebase (section 1.5). -/
  tb : Timebase
  /-- Meter engine, per outlet and per phase (section 2.1). -/
  meter : Vector MeterOutlet 48
  meterV : Vector MeterPhase 3
  /-- Frame publisher and energy latch (section 3.1). -/
  pub : Publisher
  /-- Outlet records (section 4.2). -/
  outlets : Vector Outlet 48
  /-- Relay driver (section 5.1). -/
  drivers : Vector Driver 4
  waitList : List WaitEntry
  moves : Vector Movement 48
  /-- Close scheduler (sections 6.2 and 6.3). -/
  loads : Vector BranchLoad 6
  stripGrant : Option Nat
  queue : List QueueEntry
  nextArrival : Nat
  /-- The model's own: an event of R111 has happened in the event in course (log entry 7). -/
  scanDue : Bool
  /-- Shed monitor (section 7.2). -/
  shed : Vector ShedRec 6
  /-- Cycle table (section 8.1). -/
  cycles : Vector CycleRec 16
  /-- Watch table (section 9.2). -/
  watches : Vector WatchRec 24
  /-- Intake FIFO and order table (chapter 10). -/
  fifo : List SlotNo
  orders : Vector (Option OrderEntry) 32
  /-- The working copy of the settings (R189). -/
  work : Settings
  /-- The model's own: how many closes have drawn an order from `Config.closeOrder` (log entry 6). -/
  choices : Nat
  deriving DecidableEq, Repr

/-- The part right after a power-on reset (R193), with no command waiting, every raw sense input low and
nothing shifted out yet (log entries 1, 6, 11, 14). R117 does not say at which number arrival numbers start again: 0 is the
model's choice (log entry 49). -/
def State.reset : State where
  pending := []
  resetting := none
  now := 0
  mem := resetMem .powerOn []
  cause := causeRestart
  mask := 0
  sdo := []
  sense := Vector.replicate 48 (Sense.reset false)
  phases := Vector.replicate 3 PhaseStatus.reset
  tb := Timebase.reset
  meter := tab fun k => MeterOutlet.opened (defaultBranch k) 0 0
  meterV := Vector.replicate 3 MeterPhase.opened
  pub := Publisher.reset
  outlets := Vector.replicate 48 Outlet.reset
  drivers := Vector.replicate 4 Driver.free
  waitList := []
  moves := Vector.replicate 48 Movement.none
  loads := Vector.replicate 6 BranchLoad.reset
  stripGrant := none
  queue := []
  nextArrival := 0
  scanDue := false
  shed := Vector.replicate 6 ShedRec.reset
  cycles := Vector.replicate 16 CycleRec.free
  watches := Vector.replicate 24 WatchRec.reset
  fifo := []
  orders := Vector.replicate 32 none
  work := Settings.default
  choices := 0

end Sys2Proof.Machine
end

