-- ==== Sys2Proof/Machine/Flags.lean ====
section
/-! DEFINITION. The causes and ATTN (R187, R188), and the roundings and quality flags of the meter (chapter 00
section 4, R18 to R36). -/
namespace Sys2Proof.Machine

/-! ### Causes (R187) -/

inductive Cause where
  | frame | notice | order | collide | stray | restart
  deriving DecidableEq, Repr

def Cause.bit : Cause → Nat
  | .frame => 0 | .notice => 1 | .order => 2 | .collide => 3 | .stray => 4 | .restart => 5

def Cause.word (c : Cause) : Word := BitVec.ofNat 32 (2 ^ c.bit)

/-- A bit set while already set stays set (R187). -/
@[simps] def State.raise (s : State) (c : Cause) : State := { s with cause := s.cause ||| c.word }

/-- Bits 6 to 31 of CAUSE and MASK read 0 and are ignored when written (11.3). -/
def causeBits : Word := 0x3F#32

/-- R188: asserted while CAUSE and MASK share a set bit, released during every reset. -/
def State.attn (s : State) : Bool := s.resetting.isNone && (s.cause &&& s.mask != 0)

/-! ### Roundings (chapter 00 section 4); `b` is above 0 -/

/-- Rounded half up. -/
def roundHalfUp (a b : Nat) : Nat := (2 * a + b) / (2 * b)

/-- Rounded half away from zero. -/
def roundHalfAway (a : Int) (b : Nat) : Int :=
  if a < 0 then -((roundHalfUp a.natAbs b : Nat) : Int) else ((roundHalfUp a.natAbs b : Nat) : Int)

/-- The largest integer whose square does not exceed `n`, for `n` below `4 ^ k`: one bit of the root for two of
the number. -/
def rootBits : Nat → Nat → Nat
  | 0, _ => 0
  | k + 1, n =>
    let r := 2 * rootBits k (n / 4)
    if (r + 1) * (r + 1) ≤ n then r + 1 else r

/-- `floor(√n)` (R22). -/
def isqrt (n : Nat) : Nat := rootBits 32 n

/-! ### The meter's values (sections 2.4 to 2.8) -/

/-- A raw code at a converter limit (R18). -/
def codeClips (c : Half) : Bool := c == 0x8000#16 || c == 0x7FFF#16

/-- R17: the offset removed, saturated to the signed 16-bit range. -/
def removeOffset (code : Half) (offset : Int) : Int := (clampInt (-32768) 32767 (code.toInt - offset)).1

/-- R22. -/
def rootMean (sum n : Nat) : Nat := isqrt (sum / n)

/-- R23. -/
def rmsCurrent (root gain : Nat) : Nat := roundHalfUp (root * gain) 32768

/-- R24. -/
def rmsVoltage (root gain : Nat) : Nat := roundHalfUp (root * gain * 25) 65536

/-- R25. -/
def realPower (svi : Int) (gv gi n : Nat) : Int := roundHalfAway (svi * gv * gi) (n * 2 ^ 30 * 80)

/-- R28. -/
def apparentPower (vrms irms : Nat) : Nat := roundHalfUp (vrms * irms) 1000

/-- R29. -/
def powerFactor (p : Int) (va : Nat) : Int :=
  if va = 0 then 0 else (clampInt (-1000) 1000 (roundHalfAway (1000 * p) va)).1

/-- R31. -/
def energyIncrement (p : Int) (tUs : Nat) : Nat := if 0 < p then p.toNat * tUs / 1000 else 0

def energyLimit : Nat := 2 ^ 48 - 1

/-- R32, R33: the counter and the residue after an increment. -/
def addEnergy (energy residue inc : Nat) : Nat × Nat :=
  (min energyLimit (energy + (residue + inc) / 1000000), (residue + inc) % 1000000)

/-- R35. -/
def frequencyOf (cycleCount tUs : Nat) : Nat := if cycleCount = 0 then 0 else roundHalfUp (cycleCount * 10 ^ 9) tUs

/-- R22 to R33 for one outlet: its result for the closed frame, and its counter and residue after it.
`vrms` and `present` are those of the paired phase. -/
def meterOutlet (m : MeterOutlet) (gv gi creepLevel n tUs vrms : Nat) (present : Bool) :
    OutletResult × (Nat × Nat) :=
  let irms := rmsCurrent (rootMean m.sii n) gi
  let creeps := decide (irms < creepLevel)
  let p := if creeps then 0 else realPower m.svi gv gi n
  let va := if creeps then 0 else apparentPower vrms irms
  let start := if m.clearReq then (0, 0) else (m.energy, m.residue)
  let e := addEnergy start.1 start.2 (energyIncrement p tUs)
  ({ irms := if creeps then 0 else irms
     p := p
     va := va
     pf := if creeps then 0 else powerFactor p va
     energy := e.1
     clipped := m.clip
     creep := creeps
     reverse := decide (p < 0)
     saturated := e.1 == energyLimit
     unverified := false
     phaseAbsent := !present }, e)

end Sys2Proof.Machine
end

