-- ==== Sys2Proof/Machine/Ops.lean ====
section
/-! DEFINITION. The operations the blocks share: the clock, changes of one record, USABLE, notices, the guarded
records, the reset state of the part. -/
namespace Sys2Proof.Machine

/-! ### The clock -/

/-- The µs time moves to the instant of the event (log entry 2). -/
@[simps] def State.advance (s : State) (t : Nat) : State := { s with now := max s.now t }

/-- Part time (section 1.1). -/
def State.partTime (s : State) : Word := partOf s.now

/-! ### One record changed -/

@[simps] def State.modOutlet (s : State) (k : OutletIx) (f : Outlet → Outlet) : State :=
  { s with outlets := upd s.outlets k f }

@[simps] def State.setMove (s : State) (k : OutletIx) (m : Movement) : State :=
  { s with moves := upd s.moves k fun _ => m }

@[simps] def State.setDriver (s : State) (d : DriverNo) (x : Driver) : State :=
  { s with drivers := upd s.drivers d fun _ => x }

@[simps] def State.modShed (s : State) (b : Branch) (f : ShedRec → ShedRec) : State := { s with shed := upd s.shed b f }

@[simps] def State.modCycle (s : State) (c : RecNo) (f : CycleRec → CycleRec) : State := { s with cycles := upd s.cycles c f }

@[simps] def State.modWatch (s : State) (w : WatchNo) (f : WatchRec → WatchRec) : State :=
  { s with watches := upd s.watches w f }

@[simps] def State.setOrder (s : State) (e : SlotNo) (x : Option OrderEntry) : State :=
  { s with orders := upd s.orders e fun _ => x }

/-- An outlet changes its state, and its last change stamp is set (section 4.2). -/
def State.enter (s : State) (k : OutletIx) (st : OutletState) : State :=
  s.modOutlet k fun o => { o with state := st, lastChange := s.partTime }

/-! ### Phases and branches -/

/-- The branch of an outlet in the working copy in force (R51). -/
def State.branchOf (s : State) (k : OutletIx) : Branch := s.work.outlets[k].branch

/-- The phase of an outlet in the assignment in force (R51). -/
def State.phaseOf (s : State) (k : OutletIx) : Phase := phaseOfBranch (s.branchOf k)

/-- R14: LIVE now and PRESENT in the last published frame. -/
def State.usable (s : State) (p : Phase) : Bool := s.phases[p].live && s.phases[p].present

/-- R104. -/
def State.committed (s : State) (b : Branch) : Nat := s.loads[b].committed

/-! ### Notices (R191) -/

def State.writeCount (s : State) : Word := readWord s.mem addrWriteCount

/-- R191: the mark as the part uses it. -/
def effectiveReadMark (writeCount readMark : Word) : Word :=
  let d := (writeCount - readMark).toNat
  if d ≤ 256 then readMark else if d < 2 ^ 31 then writeCount - 256#32 else writeCount

/-- R191: the log is full when the difference is 256. -/
def State.logFull (s : State) : Bool :=
  (s.writeCount - effectiveReadMark s.writeCount (readWord s.mem addrReadMark)).toNat ≥ 256

/-- R191: a notice is appended, or its kind's bit is set in the missed-kinds word. -/
def State.notice (s : State) (kind : NoticeKind) (subject reason : Nat) (value : Word) : State :=
  if s.logFull then
    let missed := readWord s.mem addrMissedKinds ||| BitVec.ofNat 32 (2 ^ kind.code)
    { s with mem := writeWord s.mem addrMissedKinds missed }
  else
    let m := writeNotice s.mem s.writeCount kind subject reason s.partTime value
    { s with mem := writeWord m addrWriteCount (s.writeCount + 1) }.raise .notice

/-! ### Guarded records (R185) -/

/-- A record is rewritten in the event that changes a field it shows (R74, R116, R150, R167, log entry 13). -/
def rewriteIf (changed : Bool) (m : Mem) (a : Nat) (body : List Nat) : Mem :=
  if changed then rewriteRecord m a body else m

/-- R116: the branch records are rewritten at every frame close, whatever the measured load. -/
def frameClosedIn (old s : State) : Bool := old.pub.closedSeq != s.pub.closedSeq

/-- R116: a grant or a release has changed the branch's row, even where committed load and count come out equal; or the
shed monitor has changed what the record shows (R130). -/
def branchChanged (old s : State) (b : Branch) : Bool :=
  frameClosedIn old s || old.loads[b] != s.loads[b] ||
    branchBody old.loads[b] old.shed[b] != branchBody s.loads[b] s.shed[b]

/-- The guarded records as the event leaves them; `old` is the state as the event found it. -/
def publishRecords (old s : State) : State :=
  let m0 := (indices 48).foldl (fun m k =>
    rewriteIf (outletBody old.outlets[k] != outletBody s.outlets[k]) m (outletStateAddr k)
      (outletBody s.outlets[k])) s.mem
  let m1 := (indices 24).foldl (fun m w =>
    rewriteIf (watchBody old.watches[w] != watchBody s.watches[w]) m (watchStateAddr w)
      (watchBody s.watches[w])) m0
  let m2 := (indices 16).foldl (fun m c =>
    rewriteIf (cycleBody old.cycles[c] != cycleBody s.cycles[c]) m (cycleViewAddr c)
      (cycleBody s.cycles[c])) m1
  let m3 := (indices 6).foldl (fun m b =>
    rewriteIf (branchChanged old s b)
      m (branchStateAddr b) (branchBody s.loads[b] s.shed[b])) m2
  { s with mem := m3 }

/-! ### Resets -/

/-- The part at the end of a reset: every block as in `State.reset` (R16, R38, R50, R75, R95, R117, R131,
R151, R168, R181), exchange memory as R193 and R194 leave it. The raw sense inputs are pins and keep their
levels; the waiting commands, the bytes last shifted out and the model's counter of choices are kept. -/
def State.afterReset (s : State) (kind : ResetKind) : State :=
  { State.reset with
    pending := s.pending
    mem := resetMem kind s.mem
    sdo := s.sdo
    sense := tab fun k => Sense.reset s.sense[k].raw
    choices := s.choices }

/-- A reset begins: coil drive stops at once (R95), and a power-on reset sets every word of exchange memory to
0 (R193). Nothing else of the part can be seen until the reset ends (R186). -/
def State.beginReset (s : State) (kind : ResetKind) : State :=
  { s with
    resetting := some kind
    drivers := Vector.replicate 4 Driver.free
    mem := match kind with | .powerOn => [] | .pin | .soft => s.mem }

/-- The set or reset coil a driver energises (R83). -/
def State.coil (s : State) (d : DriverNo) : Option (OutletIx × Dir) :=
  match s.drivers[d] with
  | .driving job _ => some (job.outlet, job.dir)
  | .free | .aiming _ => none

end Sys2Proof.Machine
end

