-- ==== Sys2Proof/Machine/Relay.lean ====
section
/-! DEFINITION. The relay driver's drivers, wait list, aim and pulse start (sections 5.2 and 5.3). -/
namespace Sys2Proof.Machine

/-- The FREE driver with the lowest number (R78). -/
def State.freeDriver (s : State) : Option DriverNo :=
  (indices 4).find? fun d => s.drivers[d] == .free

/-- R108 condition 1: a driver is FREE and no entry waits. -/
def State.driverAvailable (s : State) : Bool := s.freeDriver.isSome && s.waitList.isEmpty

/-- The estimate of an outlet for a direction (R81). -/
def Outlet.estimate (o : Outlet) : Dir → Nat
  | .toClosed => o.closeEst
  | .toOpen => o.openEst

/-- R81: the planned start for the last accepted crossing `t0`, half period `h` and estimate `est`, from the
instant `now` of assignment: the earliest `t0 + m * h - est`, `m` at least 1, that lies 1,000 µs ahead. -/
def aimStart (t0 h est now : Nat) : Nat :=
  let m := max 1 ((now + 1000 + est - t0 + (h - 1)) / h)
  t0 + m * h - est

/-- R81, R82: the planned start and whether it is timed. A LIVE phase always has both values (R6). -/
def State.aim (s : State) (p : Phase) (est : Nat) : Nat × Bool :=
  match s.phases[p].live, s.phases[p].last, s.phases[p].half with
  | true, some (t0, _), some h => (aimStart t0 h est s.now, true)
  | _, _, _ => (s.now, false)

/-- The target level of a movement (R84). -/
def Dir.level : Dir → Bool
  | .toClosed => true
  | .toOpen => false

/-- R83, R84: the pulse starts; a sense already at the target satisfies it at once. -/
def State.startPulse (s : State) (d : DriverNo) (job : DriverJob) (estimate : Nat) : State :=
  let windowEnd := s.now + job.width + job.margin
  let pulse : Pulse :=
    { dir := job.dir, phase := job.phase, estimate := estimate, start := s.now, windowEnd := windowEnd
      deadline := windowEnd + 2000
      satisfied := if s.sense[job.outlet].level == job.dir.level then .atStart else .no }
  (s.setDriver d (.driving job (s.now + job.width))).setMove job.outlet (.driving pulse)

/-- R78: driver `d` is assigned to a movement of `k`. An untimed pulse starts in the same event (R82). -/
def State.assign (s : State) (d : DriverNo) (k : OutletIx) (dir : Dir) : State :=
  let p := s.phaseOf k
  let est := s.outlets[k].estimate dir
  let aimed := s.aim p est
  let job : DriverJob :=
    { outlet := k, dir := dir, phase := p, plannedStart := aimed.1, timed := aimed.2
      width := s.work.strip.pulseWidth * 1000, margin := s.work.strip.verifyMargin * 1000 }
  let s1 := ((s.setDriver d (.aiming job)).setMove k (.aiming dir p est)).modOutlet k
    fun o => { o with unverified := none }
  if aimed.2 then s1 else s1.startPulse d job est

/-- R76, R77, R88: a FREE driver at once, or the tail of the wait list. -/
def State.needDriver (s : State) (k : OutletIx) (dir : Dir) (retry : Bool) : State :=
  match s.freeDriver with
  | some d => s.assign d k dir
  | none =>
    let entry : WaitEntry := { outlet := k, dir := dir, retry := retry }
    { s with waitList := s.waitList ++ [entry] }.setMove k (.waiting dir)

/-- R77, R90: an open request from the outlet controller begins a movement. -/
def State.openRequest (s : State) (k : OutletIx) : State :=
  (s.modOutlet k fun o => { o with retry := false }).needDriver k .toOpen false

/-- R80: a freed driver is offered to the head of the wait list; with none waiting, the close scheduler is told.
The scheduler is told as well when the list has become empty. -/
def State.offerDriver (s : State) (d : DriverNo) : State :=
  let s1 := s.setDriver d .free
  match s1.waitList with
  | [] => { s1 with scanDue := true }
  | w :: rest =>
    ({ s1 with waitList := rest, scanDue := s1.scanDue || rest.isEmpty }).assign d w.outlet w.dir

/-- R80: an outlet that enters FAULT while its movement waits leaves the wait list. -/
def State.withdrawWaiting (s : State) (k : OutletIx) : State :=
  match s.moves[k] with
  | .waiting _ =>
    let rest := s.waitList.filter fun w => w.outlet != k
    ({ s with waitList := rest, scanDue := s.scanDue || rest.isEmpty }).setMove k .none
  | _ => s

end Sys2Proof.Machine
end

