-- ==== Sys2Proof/Machine/Outlets.lean ====
section
/-! DEFINITION. The outlet controller: requests by state, ownership, pending requests, the close queue's entries
and the reservations they touch, shed marks, and entry into FAULT (chapter 04, R103, R105 to R107, R128). An
operation that ends requests answers the member outcomes still to be delivered (R52). -/
namespace Sys2Proof.Machine

/-! ### The close queue and the reservations -/

/-- R105: behind every entry of its own or a lower class, before every entry of a higher class. -/
def insertEntry (e : QueueEntry) : List QueueEntry → List QueueEntry
  | [] => [e]
  | x :: xs => if e.cls < x.cls then e :: x :: xs else x :: insertEntry e xs

/-- R56, R105: a close joins the queue, the outlet enters AWAIT_CLOSE, and a scan is due. -/
def State.enqueue (s : State) (k : OutletIx) (cls : ClassNo) (w : Owner) : State :=
  let e : QueueEntry :=
    { outlet := k, cls := cls, owner := w, stamp := s.partTime, instant := s.now, arrival := s.nextArrival }
  ({ s with queue := insertEntry e s.queue, nextArrival := s.nextArrival + 1, scanDue := true }.enter k
    .awaitClose).modOutlet k fun o => { o with owner := some w }

/-- R106: an outlet's entry leaves the queue, and a scan is due. -/
def State.dequeue (s : State) (k : OutletIx) : State :=
  if s.queue.any (·.outlet == k) then
    { s with queue := s.queue.filter (·.outlet != k), scanDue := true }
  else s

/-- R107: a newer request's owner replaces the owner held in the entry. -/
def State.reown (s : State) (k : OutletIx) (w : Owner) : State :=
  { s with queue := s.queue.map fun e => if e.outlet == k then { e with owner := w } else e }

def BranchLoad.holds (l : BranchLoad) (k : OutletIx) : Bool := l.reservations.any (·.1 == k)

/-- R103: an outlet's reservation leaves the list of the branch it was granted on (R104). -/
def State.release (s : State) (k : OutletIx) : State :=
  if (indices 6).any fun b => s.loads[b].holds k then
    { s with
      loads := tab fun b => { s.loads[b] with reservations := s.loads[b].reservations.filter (·.1 != k) }
      scanDue := true }
  else s

/-! ### Shed marks (R128) -/

/-- R126, R128: an outlet leaves the round; the round that becomes empty ends. -/
def ShedRec.leaveRound (r : ShedRec) (k : OutletIx) : ShedRec :=
  if k ∈ r.round then
    let rest := r.round.filter (· != k)
    if rest.isEmpty then { r with round := [], restoring := false, restoreCount := 0 } else { r with round := rest }
  else r

/-- R128: the mark is cleared, and the outlet leaves its shed list and the round. -/
def State.clearMark (s : State) (k : OutletIx) : State :=
  let s1 := s.modOutlet k fun o => { o with shedMark := false }
  { s1 with shed := tab fun b =>
      let r := s.shed[b]
      { r with list := r.list.filter (· != k) }.leaveRound k }

/-! ### Entering ON, OPENING and FAULT -/

/-- The outlet reaches ON: its shed mark goes (R65, R128) and peak-seen is cleared (R73). -/
def State.arriveOn (s : State) (k : OutletIx) : State :=
  ((s.enter k .on).modOutlet k fun o => { o with peakSeen := false }).clearMark k

/-- R59: an ON outlet enters OPENING under an owner and hands an open request to the relay driver; its
reservation is released (R103) and its whole-frame marker cleared (R72). -/
def State.enterOpening (s : State) (k : OutletIx) (w : Owner) : State :=
  (((s.enter k .opening).modOutlet k fun o => { o with owner := some w, wholeFrame := false }).release k).openRequest k

/-- The direction of the request that a state carries out. -/
def OutletState.dir : OutletState → Dir
  | .opening => .toOpen
  | .off | .awaitClose | .closing | .on | .resting | .fault | .unknown => .toClosed

def PendingReq.dir : PendingReq → Dir
  | .opn _ => .toOpen
  | .cls _ _ => .toClosed

/-- The answer to the owner of the request being carried out. -/
def State.ownerReply (s : State) (k : OutletIx) (r : MemberOutcome) : List Reply :=
  match s.outlets[k].owner with
  | none => []
  | some w => [{ owner := w, outlet := k, dir := s.outlets[k].state.dir, outcome := r }]

/-- The answer to the owner of the pending request. -/
def State.pendingReply (s : State) (k : OutletIx) (r : MemberOutcome) : List Reply :=
  match s.outlets[k].pending with
  | none => []
  | some q => [{ owner := q.owner, outlet := k, dir := q.dir, outcome := r }]

/-- R68: entry into FAULT. The last answer tells the cycle record the membership names. -/
def State.enterFault (s : State) (k : OutletIx) (kind : FaultKind) : State × List Reply :=
  let o := s.outlets[k]
  let toRecord : List Reply := match o.cycle with
    | none => []
    | some c => [{ owner := .cycle c, outlet := k, dir := o.state.dir, outcome := .faulted }]
  let s1 := (s.enter k .fault).modOutlet k fun o =>
    { o with faultKind := some kind, unverified := none, wholeFrame := false, owner := none, pending := none }
  ((((s1.dequeue k).release k).withdrawWaiting k),
   s.ownerReply k .faulted ++ s.pendingReply k .faulted ++ toRecord)

/-! ### Requests (section 4.4) -/

/-- R53: the newer request's owner becomes the current owner; another owner receives SUPERSEDED. -/
def State.replaceOwner (s : State) (k : OutletIx) (w : Owner) : State × List Reply :=
  (s.modOutlet k fun o => { o with owner := some w },
   if s.outlets[k].owner == some w then [] else s.ownerReply k .superseded)

/-- R54: the pending request, with SUPERSEDED for the one it replaces or that is dropped. -/
def State.setPending (s : State) (k : OutletIx) (q : Option PendingReq) : State × List Reply :=
  (s.modOutlet k fun o => { o with pending := q }, s.pendingReply k .superseded)

def at1 (w : Owner) (k : OutletIx) (d : Dir) (r : MemberOutcome) : List Reply :=
  [{ owner := w, outlet := k, dir := d, outcome := r }]

/-- R61: the request comes from the cycle record that the membership names. -/
def Outlet.ownedByMember (o : Outlet) (w : Owner) : Bool :=
  match o.cycle with
  | some c => w == .cycle c
  | none => false

/-- A CLOSE request by state (R56 to R58, R60 to R62). -/
def State.closeByState (s : State) (k : OutletIx) (cls : ClassNo) (w : Owner) : State × List Reply :=
  match s.outlets[k].state with
  | .off => (s.enqueue k cls w, [])
  | .awaitClose =>
    let r := s.replaceOwner k w
    (r.1.reown k w, r.2)
  | .closing =>
    let r := s.replaceOwner k w
    let q := r.1.setPending k none
    (q.1, r.2 ++ q.2)
  | .on => (s, at1 w k .toClosed .ok)
  | .opening => s.setPending k (some (.cls cls w))
  | .resting =>
    if s.outlets[k].ownedByMember w then (s.enqueue k cls w, []) else (s, at1 w k .toClosed .inCycle)
  | .fault => (s, at1 w k .toClosed .faulted)
  | .unknown => (s, at1 w k .toClosed .unknownState)

/-- An OPEN request by state (R56 to R62). -/
def State.openByState (s : State) (k : OutletIx) (w : Owner) : State × List Reply :=
  match s.outlets[k].state with
  | .off => (s, at1 w k .toOpen .ok)
  | .awaitClose =>
    (((s.dequeue k).enter k .off).modOutlet k fun o => { o with owner := none },
     s.ownerReply k .superseded ++ at1 w k .toOpen .ok)
  | .closing => s.setPending k (some (.opn w))
  | .on => (s.enterOpening k w, [])
  | .opening =>
    let r := s.replaceOwner k w
    let q := r.1.setPending k none
    (q.1, r.2 ++ q.2)
  | .resting =>
    if s.outlets[k].ownedByMember w then (s, at1 w k .toOpen .ok) else (s, at1 w k .toOpen .inCycle)
  | .fault => (s, at1 w k .toOpen .faulted)
  | .unknown => (s, at1 w k .toOpen .unknownState)

/-- R55: an order's OPEN or CLOSE clears the shed mark, and is answered IN_CYCLE for an outlet with a cycle
membership; other owners' requests are acted on by state at once. -/
def State.requestClose (s : State) (k : OutletIx) (cls : ClassNo) (w : Owner) : State × List Reply :=
  match w with
  | .order _ =>
    let s1 := s.clearMark k
    if s.outlets[k].cycle.isSome then (s1, at1 w k .toClosed .inCycle) else s1.closeByState k cls w
  | .cycle _ | .shed _ | .restore _ => s.closeByState k cls w

def State.requestOpen (s : State) (k : OutletIx) (w : Owner) : State × List Reply :=
  match w with
  | .order _ =>
    let s1 := s.clearMark k
    if s.outlets[k].cycle.isSome then (s1, at1 w k .toOpen .inCycle) else s1.openByState k w
  | .cycle _ | .shed _ | .restore _ => s.openByState k w

/-- R64: an entry leaves the queue by patience or by its record's withdrawal; the outlet returns to OFF. -/
def State.leaveQueue (s : State) (k : OutletIx) (r : MemberOutcome) : State × List Reply :=
  (((s.dequeue k).enter k .off).modOutlet k fun o => { o with owner := none }, s.ownerReply k r)

end Sys2Proof.Machine
end

