-- ==== Sys2Proof/Machine/Orders.lean ====
section
/-! DEFINITION. The order table: member outcomes and the finish of an order (R179, R180); the outcome of a cycle at a
watch (R164) and the shed monitor's answers (R122, R126), which the end of a request reaches as well. -/
namespace Sys2Proof.Machine

/-- R180: the result fields, the state word, the entry free, ORDER, and the notice if NOTIFY is set. -/
def State.finishOrder (s : State) (e : SlotNo) (r : OrderResult) : State :=
  match s.orders[e] with
  | none => s
  | some entry =>
    let s1 := (({ s with mem := writeResult s.mem e r s.partTime }).setOrder e none).raise .order
    if entry.fields.notify then
      s1.notice .orderFinished e.val r.outcome.code (entry.fields.hostRef.setWidth 32)
    else s1

/-- An order that finishes without members (R178, R46, R173). -/
def OrderResult.plain (outcome : OrderOutcome) (reason : Option Reason) (detail : Option OutletIx)
    (record : Option RecNo) : OrderResult where
  outcome := outcome
  reason := reason
  detail := detail
  record := record
  doneSet := []
  failedSet := []
  skippedSet := []

/-- R179: which map a member outcome is written into. -/
def MemberOutcome.inFailed : MemberOutcome → Bool
  | .ok | .skipped => false
  | .superseded | .faulted | .patience | .inCycle | .unknownState => true

/-- R179: the result of an order whose members are all answered. -/
def membersResult (ms : List (OutletIx × Option MemberOutcome)) : OrderResult :=
  let ok := ms.filter fun m => m.2 == some .ok
  let bad := ms.find? fun m => m.2 != some .ok
  { outcome := if bad.isNone then .done else if ok.isEmpty then .failed else .partly
    reason := bad.bind fun m => m.2.map Reason.member
    detail := bad.map (·.1)
    record := none
    doneSet := ok.map (·.1)
    failedSet := (ms.filter fun m => m.2.any MemberOutcome.inFailed).map (·.1)
    skippedSet := (ms.filter fun m => m.2 == some .skipped).map (·.1) }

/-- R179: a member's outcome is kept as given; the order finishes when its last member is answered. -/
def State.orderReply (s : State) (e : SlotNo) (k : OutletIx) (r : MemberOutcome) : State :=
  match s.orders[e] with
  | none => s
  | some entry =>
    let ms := entry.members.map fun m => if m.1 == k && m.2.isNone then (m.1, some r) else m
    let s1 := s.setOrder e (some { entry with members := ms })
    if ms.all (·.2.isSome) then s1.finishOrder e (membersResult ms) else s1

/-- R126: the outcome of a restore close takes the outlet from the round; OK takes it from the list as well. -/
def State.restoreReply (s : State) (b : Branch) (k : OutletIx) (r : MemberOutcome) : State :=
  s.modShed b fun rec =>
    (if r = .ok then { rec with list := rec.list.filter (· != k) } else rec).leaveRound k

/-- GRACE with the grace setting, or WATCHING with the timeout when grace is 0 (R158, R164, R165). -/
def WatchRec.restart (w : WatchRec) (cfg : WatchSettings) : WatchRec :=
  if cfg.grace = 0 then { w with state := .watching, framesLeft := cfg.timeout }
  else { w with state := .grace, framesLeft := cfg.grace }

/-- R164: a CYCLING watch acts on the outcome of its record. -/
def State.watchOutcome (s : State) (w : WatchNo) (r : OrderOutcome) : State :=
  let cfg := s.work.watches[w]
  let gaveUp := (s.modWatch w fun x => { x with state := .gaveUp, framesLeft := 0, record := none }).notice
    .watchGaveUp w.val r.code (BitVec.ofNat 32 s.watches[w].consecutive)
  match r with
  | .done => s.modWatch w fun x => { x.restart cfg with reference := none, record := none }
  | .canceled => s.modWatch w fun x =>
      { x with state := .watching, framesLeft := cfg.timeout, reference := none, record := none }
  | .partly | .abandoned => gaveUp
  | .failed | .merged | .aborted | .refused => s

end Sys2Proof.Machine
end

