-- ==== Sys2Proof/Machine/Cycles.lean ====
section
/-! DEFINITION. The cycle controller (chapter 08), and the delivery of member outcomes to their owners (R52). -/
namespace Sys2Proof.Machine

/-- CLOSE requests of one owner, one after another. -/
def State.sendCloses (s : State) (ks : List OutletIx) (cls : ClassNo) (w : Owner) : State × List Reply :=
  ks.foldl (fun a k => let r := a.1.requestClose k cls w; (r.1, a.2 ++ r.2)) (s, [])

/-- OPEN requests of one owner, one after another. -/
def State.sendOpens (s : State) (ks : List OutletIx) (w : Owner) : State × List Reply :=
  ks.foldl (fun a k => let r := a.1.requestOpen k w; (r.1, a.2 ++ r.2)) (s, [])

/-! ### The end of a record (R144, R145) -/

/-- R141: every participant is in the closed set or the failed set, or was withdrawn. -/
def CycleRec.settled (c : CycleRec) : Bool :=
  c.participants.all fun k => k ∈ c.closed || k ∈ c.failed || k ∈ c.withdrawn

/-- R144. A record in RESTORING that was not cancelled entered it by a fault (R143). -/
def CycleRec.outcome (c : CycleRec) : OrderOutcome :=
  if c.cancelled then .canceled
  else if c.state = .restoring then .abandoned
  else if c.participants.all (· ∈ c.closed) then .done
  else .partly

/-- R144, R177: what an order origin's slot reports. -/
def CycleRec.result (c : CycleRec) (n : RecNo) : OrderResult where
  outcome := c.outcome
  reason := none
  detail := c.faultOutlet
  record := some n
  doneSet := c.closed
  failedSet := c.failed
  skippedSet := c.skipped

/-- R145 step 3: the outcome handed to one origin. -/
def State.tellOrigin (s : State) (c : RecNo) (r : CycleRec) (o : Origin) : State :=
  match o with
  | .order e _ => s.finishOrder e (r.result c)
  | .watch w => s.watchOutcome w r.outcome

/-- R145: memberships cleared, the outcome handed to each origin in order, the record FREE. -/
def State.endRecord (s : State) (c : RecNo) : State :=
  let r := s.cycles[c]
  let s1 := r.participants.foldl (fun s k => s.modOutlet k fun o => { o with cycle := none }) s
  (r.origins.foldl (fun s o => s.tellOrigin c r o) s1).modCycle c fun _ => CycleRec.free

/-- R141, R142, R148: the test for the end, in CLOSING and RESTORING. -/
def State.testEnd (s : State) (c : RecNo) : State :=
  let r := s.cycles[c]
  if (r.state = .closing ∨ r.state = .restoring) ∧ r.settled then s.endRecord c else s

/-! ### Phases (R137 to R143) -/

/-- R140: the class from the origins held at entry to CLOSING. -/
def closingClass (l : List Origin) : ClassNo :=
  if l.any fun o => match o with | .order _ u => u | .watch _ => false then 1
  else if l.any fun o => match o with | .order _ _ => true | .watch _ => false then 2
  else 3

/-- R139, R147: the record enters CLOSING and sends each participant a CLOSE with its class. -/
def State.enterClosing (s : State) (c : RecNo) : State × List Reply :=
  let r := s.cycles[c]
  let cls := closingClass r.origins
  (s.modCycle c fun r => { r with state := .closing, restDeadline := none, cls := some cls }).sendCloses
    r.participants cls (.cycle c)

/-- R142, R147: the record enters RESTORING with class 0 and sends a CLOSE to every participant not in FAULT. -/
def State.enterRestoring (s : State) (c : RecNo) : State × List Reply :=
  let ks := s.cycles[c].participants.filter fun k => s.outlets[k].state != .fault
  (s.modCycle c fun r => { r with state := .restoring, restDeadline := none, cls := some 0 }).sendCloses
    ks 0 (.cycle c)

/-- R141: a participant joins the failed set and leaves the closed set; the first one is the fault outlet. One that a
cancel has withdrawn and that enters FAULT while the record still runs joins it like any other (log entry 47). -/
def CycleRec.fail (r : CycleRec) (k : OutletIx) : CycleRec :=
  if k ∈ r.failed then r
  else { r with
    failed := r.failed ++ [k]
    closed := r.closed.filter (· != k)
    faultOutlet := r.faultOutlet.or (some k) }

/-- R142: a participant's fault in OPENING or RESTING. -/
def State.abandon (s : State) (c : RecNo) (k : OutletIx) : State × List Reply :=
  let s1 := (s.modCycle c fun r => r.fail k).notice .cycleAbandoned c.val
    (optCode FaultKind.code s.outlets[k].faultKind) (BitVec.ofNat 32 (numberOf k))
  let r := s1.enterRestoring c
  (r.1.testEnd c, r.2)

/-- R138: the last participant rests, and the rest deadline is set from this instant. -/
def State.testResting (s : State) (c : RecNo) : State :=
  if s.cycles[c].participants.all fun k => s.outlets[k].state == .resting then
    s.modCycle c fun r => { r with state := .resting, restDeadline := some (s.now + r.restTime * 1000) }
  else s

/-- A member outcome at the record (R137, R138, R141, R142): `d` is the direction of the request answered. FAULTED of a
withdrawn participant follows R141, not what R144 says of withdrawn participants (log entry 47). -/
def State.cycleReply (s : State) (c : RecNo) (k : OutletIx) (d : Dir) (r : MemberOutcome) : State × List Reply :=
  if k ∉ s.cycles[c].participants then (s, [])
  else
    match s.cycles[c].state, r with
    | .opening, .ok => (s.testResting c, [])
    | .opening, .faulted | .resting, .faulted => s.abandon c k
    | .closing, .ok | .restoring, .ok =>
      match d with
      | .toClosed => ((s.modCycle c fun r => { r with closed := r.closed ++ [k] }).testEnd c, [])
      | .toOpen => (s, [])
    | .closing, .faulted | .restoring, .faulted | .closing, .patience | .restoring, .patience =>
      ((s.modCycle c fun r => r.fail k).testEnd c, [])
    | .closing, .skipped => (s.modCycle c fun r => { r with withdrawn := r.withdrawn ++ [k] }, [])
    | _, _ => (s, [])

/-! ### Delivery (R52) -/

/-- One member outcome delivered to its owner. A cycle record may answer with requests of its own, whose
outcomes come back here; `fuel` bounds how often. A record leaves OPENING or RESTING once, so 18 rounds cover
the 16 records. R122 asks nothing of a shed open's outcome: an order that supersedes it has cleared the mark. -/
def deliver : Nat → List Reply → State → State
  | 0, _, s => s
  | fuel + 1, rs, s =>
    rs.foldl (fun s r =>
      match r.owner with
      | .order e => s.orderReply e r.outlet r.outcome
      | .shed _ => s
      | .restore b => s.restoreReply b r.outlet r.outcome
      | .cycle c =>
        let a := s.cycleReply c r.outlet r.dir r.outcome
        deliver fuel a.2 a.1) s

/-- The member outcomes of an operation delivered in its event. -/
def settle (a : State × List Reply) : State := deliver 18 a.2 a.1

/-! ### Admission and retrigger (R133 to R136) -/

/-- Row 1 of R134 for one record: some target is its participant, every other target is OFF with no
membership. -/
def State.retriggers (s : State) (targets : List OutletIx) (c : RecNo) : Bool :=
  let r := s.cycles[c]
  (r.state == .opening || r.state == .resting) &&
  (targets.any fun k => k ∈ r.participants) &&
  targets.all fun k => k ∈ r.participants || (s.outlets[k].state == .off && s.outlets[k].cycle.isNone)

/-- Row 4 of R134. -/
def Outlet.busy (o : Outlet) : Bool :=
  o.cycle.isSome || o.state == .awaitClose || o.state == .closing || o.state == .opening || o.state == .resting

/-- R136. -/
def State.retrigger (s : State) (c : RecNo) (o : Origin) (targets : List OutletIx) (rest : Nat) :
    State × AdmitResult :=
  let r := s.cycles[c]
  if r.origins.length ≥ 4 then
    (s, .refused .busy (targets.find? fun k => k ∈ r.participants))
  else
    (s.modCycle c fun r =>
      { r with
        origins := r.origins ++ [o]
        restTime := rest
        restDeadline := if r.state = .resting then some (s.now + rest * 1000) else r.restDeadline },
     .attached c)

/-- R135: the record filled, the memberships set, the OPEN requests sent in ascending outlet number. -/
def State.startRecord (s : State) (c : RecNo) (o : Origin) (targets : List OutletIx) (rest : Nat) : State :=
  let ons := (indices 48).filter fun k => k ∈ targets && s.outlets[k].state == .on
  let offs := targets.filter fun k => s.outlets[k].state == .off
  let s1 := s.modCycle c fun _ =>
    { CycleRec.free with state := .opening, participants := ons, skipped := offs, restTime := rest, origins := [o] }
  let s2 := ons.foldl (fun s k => s.modOutlet k fun x => { x with cycle := some c }) s1
  settle (s2.sendOpens ons (.cycle c))

/-- The admission table, first row that holds (R134). -/
def State.admission (s : State) (o : Origin) (targets : List OutletIx) (rest : Nat) : State × AdmitResult :=
  match (indices 16).find? (s.retriggers targets) with
  | some c => s.retrigger c o targets rest
  | none =>
    match targets.find? fun k => s.outlets[k].state == .fault with
    | some k => (s, .refused (.member .faulted) (some k))
    | none =>
      match targets.find? fun k => s.outlets[k].state == .unknown with
      | some k => (s, .refused (.member .unknownState) (some k))
      | none =>
        match targets.find? fun k => s.outlets[k].busy with
        | some k => (s, .refused .busy (some k))
        | none =>
          if targets.all fun k => s.outlets[k].state != .on then (s, .refused .nothingOn none)
          else
            match (indices 16).find? fun c => s.cycles[c].state == .free with
            | none => (s, .refused .full none)
            | some c => (s.startRecord c o targets rest, .admitted c)

/-! ### Cancel and detachment (R146 to R149) -/

/-- R148: the closes of the participants still in AWAIT_CLOSE under the record are withdrawn. -/
def State.withdrawCloses (s : State) (c : RecNo) : State :=
  s.cycles[c].participants.foldl (fun s k =>
    if s.outlets[k].state == .awaitClose && s.outlets[k].owner == some (.cycle c) then
      settle (s.leaveQueue k .skipped)
    else s) s

/-- R146 to R148: what a cancel does, and the refusal if it is one. -/
def State.cancel (s : State) (c : RecNo) : State × Option Reason :=
  let r := s.cycles[c]
  let s1 := s.modCycle c fun r => { r with cancelled := true }
  match r.state, r.cancelled with
  | .free, _ => (s, some .noCycle)
  | .restoring, _ => (s, some .busy)
  | .opening, false =>
    let a := s1.enterRestoring c
    (settle (a.1.testEnd c, a.2), none)
  | .resting, false => (settle (s1.enterClosing c), none)
  | .closing, false => ((s1.withdrawCloses c).testEnd c, none)
  | .opening, true | .resting, true | .closing, true => (s, some .busy)

/-- R149: a watch leaves the origins of its record. The later origins move up, and the next one attached stands last (log
entry 42). -/
def State.detach (s : State) (c : RecNo) (w : WatchNo) : State :=
  s.modCycle c fun r => { r with origins := r.origins.filter (· != .watch w) }

end Sys2Proof.Machine
end

