-- ==== Sys2Proof/Machine/Movements.lean ====
section
/-! DEFINITION. The end of a pulse, verification, learning, retry and failure (sections 5.3 and 5.4), and the
completion of a movement (R65 to R67). -/
namespace Sys2Proof.Machine

/-- R65: a close completes. `unverified` is set when verification was skipped (R67). -/
def State.completeClose (s : State) (k : OutletIx) (unverified : Bool) : State :=
  let replies := s.ownerReply k .ok
  let s1 := (s.arriveOn k).modOutlet k fun o =>
    { o with owner := none, unverified := if unverified then some .toClosed else o.unverified }
  let s2 := deliver 18 replies s1
  match s2.outlets[k].pending with
  | some (.opn w) => (s2.modOutlet k fun o => { o with pending := none }).enterOpening k w
  | _ => s2

/-- R66: the state an opened outlet enters when no CLOSE is pending. -/
def State.openedState (s : State) (k : OutletIx) : OutletState :=
  match s.outlets[k].cycle with
  | some c =>
    if s.outlets[k].owner = some (.cycle c) ∧ (s.cycles[c].state = .opening ∨ s.cycles[c].state = .resting) then
      .resting
    else .off
  | none => .off

/-- R66: an open completes. The owner receives OK before a pending CLOSE is enqueued. -/
def State.completeOpen (s : State) (k : OutletIx) (unverified : Bool) : State :=
  let replies := s.ownerReply k .ok
  let mark := fun o : Outlet =>
    { o with owner := none, unverified := if unverified then some .toOpen else o.unverified }
  match s.outlets[k].pending with
  | some (.cls cls w) =>
    let s1 := ((s.enter k .off).modOutlet k mark).modOutlet k fun o => { o with pending := none }
    (deliver 18 replies s1).enqueue k cls w
  | _ => deliver 18 replies ((s.enter k (s.openedState k)).modOutlet k mark)

/-- R67: a completion by the movement's direction. -/
def State.complete (s : State) (k : OutletIx) (d : Dir) (unverified : Bool) : State :=
  match d with
  | .toClosed => s.completeClose k unverified
  | .toOpen => s.completeOpen k unverified

/-- R85, R87, R90: the movement ends, with retry count 0. -/
def State.endMovement (s : State) (k : OutletIx) : State :=
  (s.setMove k .none).modOutlet k fun o => { o with retry := false }

/-- R86: the estimate after a measured operate time. -/
def learned (old measured : Nat) : Nat := (3 * old + (clampNat 2000 30000 measured).1) / 4

/-- R86: only a verification satisfied by a sense report teaches. -/
def State.learn (s : State) (k : OutletIx) (d : Dir) (sat : Satisfied) : State :=
  match sat, d with
  | .measured us, .toClosed => s.modOutlet k fun o => { o with closeEst := learned o.closeEst us }
  | .measured us, .toOpen => s.modOutlet k fun o => { o with openEst := learned o.openEst us }
  | .atStart, _ | .no, _ => s

/-- R85: the result of a satisfied verification is reported. -/
def State.reportVerified (s : State) (k : OutletIx) (p : Pulse) : State :=
  ((s.endMovement k).learn k p.dir p.satisfied).complete k p.dir false

/-- R87: the movement completes unverified. -/
def State.reportUnverified (s : State) (k : OutletIx) (p : Pulse) : State :=
  (s.endMovement k).complete k p.dir true

/-- R83, R80, R85, R87: the pulse of driver `d` ends; the driver is freed and offered to the wait list first. -/
def State.endPulse (s : State) (d : DriverNo) (k : OutletIx) : State :=
  let s1 := s.offerDriver d
  match s1.moves[k] with
  | .driving p =>
    if !s1.usable p.phase then s1.reportUnverified k p
    else match p.satisfied with
      | .no => s1.setMove k (.verifying p)
      | .atStart | .measured _ => s1.reportVerified k p
  | .none | .waiting _ | .aiming _ _ _ | .verifying _ => s1

/-- R84: what a sense report does to the verification of a pulse. -/
def Pulse.report (p : Pulse) (level : Bool) (stamp : Nat) : Pulse :=
  if p.satisfied = .no ∧ level = p.dir.level ∧ p.start ≤ stamp ∧ stamp ≤ p.windowEnd then
    { p with satisfied := .measured (stamp - p.start) }
  else p

/-- R84, R85: a sense change reported to the relay driver. -/
def State.senseReport (s : State) (k : OutletIx) (level : Bool) (stamp : Nat) : State :=
  match s.moves[k] with
  | .driving p => s.setMove k (.driving (p.report level stamp))
  | .verifying p =>
    let p' := p.report level stamp
    if p'.satisfied = .no then s else s.reportVerified k p'
  | .none | .waiting _ | .aiming _ _ _ => s

/-- The fault kind of a failed movement (R88, R89). -/
def Dir.failure : Dir → FaultKind
  | .toClosed => .failToClose
  | .toOpen => .failToOpen

/-- R88: a first failure; the movement needs a driver again. -/
def State.retryPulse (s : State) (k : OutletIx) (p : Pulse) : State :=
  ((s.modOutlet k fun o => { o with retry := true }).notice .relayRetry (numberOf k) p.dir.failure.code
    (BitVec.ofNat 32 p.estimate)).needDriver k p.dir true

/-- R89: a second failure. -/
def State.failMovement (s : State) (k : OutletIx) (p : Pulse) : State :=
  settle (((s.setMove k .none).notice .relayFault (numberOf k) p.dir.failure.code
    (BitVec.ofNat 32 p.estimate)).enterFault k p.dir.failure)

/-- R87 to R89: a movement reaches its verify deadline unsatisfied. -/
def State.verifyFailed (s : State) (k : OutletIx) (p : Pulse) : State :=
  if !s.usable p.phase then s.reportUnverified k p
  else if s.outlets[k].retry then s.failMovement k p
  else s.retryPulse k p

end Sys2Proof.Machine
end

