-- ==== Sys2Proof/Machine/Scheduler.lean ====
section
/-! DEFINITION. The close scheduler: grant conditions, grants, scans and patience (sections 6.4 and 6.5), and the frame of
one event. -/
namespace Sys2Proof.Machine

/-- R101. -/
def State.expectedLoad (s : State) (k : OutletIx) : Nat :=
  if s.work.outlets[k].expectedLoad ≠ 0 then s.work.outlets[k].expectedLoad
  else s.outlets[k].peakOn.getD s.work.strip.defaultExpected

/-- R110: a spacing has elapsed since a last grant instant, or there is none. -/
def spacingElapsed (now : Nat) (last : Option Nat) (ms : Nat) : Bool :=
  match last with
  | none => true
  | some g => g + ms * 1000 ≤ now

/-- R108 condition 3. -/
def State.branchSpaced (s : State) (b : Branch) : Bool :=
  spacingElapsed s.now s.loads[b].lastGrant s.work.branches[b].closeSpacing

/-- R108 condition 4. -/
def State.stripSpaced (s : State) : Bool := spacingElapsed s.now s.stripGrant s.work.strip.globalSpacing

/-- R108 condition 5, with the oversize rule of R109. R109 asks for a committed load of exactly 0 and says that no
reservation is held; a reservation of amount 0 (R100) meets the first and not the second, and the model lets the first
decide (log entry 45). -/
def State.fits (s : State) (b : Branch) (expected : Nat) : Bool :=
  s.committed b + expected ≤ s.work.branches[b].budget ||
    (s.work.branches[b].budget < expected && s.committed b == 0)

/-- R108 condition 2: no entry of the branch stands ahead. -/
def State.firstOfBranch (s : State) (e : QueueEntry) : Bool :=
  (s.queue.takeWhile fun x => x.arrival != e.arrival).all fun x => s.branchOf x.outlet != s.branchOf e.outlet

/-- R108. -/
def State.grantable (s : State) (e : QueueEntry) : Bool :=
  let b := s.branchOf e.outlet
  s.driverAvailable && s.firstOfBranch e && s.branchSpaced b && s.stripSpaced && s.fits b (s.expectedLoad e.outlet)

/-- R112, R63, R79: the entry leaves, the reservation and the stamps are set, the outlet enters CLOSING, and the
lowest FREE driver is assigned. -/
def State.grant (s : State) (e : QueueEntry) : State :=
  let k := e.outlet
  let b := s.branchOf k
  let amount := s.expectedLoad k
  let s1 := { s with
    queue := s.queue.filter fun x => x.arrival != e.arrival
    loads := upd s.loads b fun l => { l with reservations := l.reservations ++ [(k, amount)], lastGrant := some s.now }
    stripGrant := some s.now }
  ((s1.enter k .closing).modOutlet k fun o => { o with retry := false }).needDriver k .toClosed false

/-- R111: the entries in queue order, each tested as things stand when it is reached. -/
def scanEntries : List QueueEntry → State → State
  | [], s => s
  | e :: es, s => scanEntries es (if s.grantable e then s.grant e else s)

def State.scan (s : State) : State := { scanEntries s.queue s with scanDue := false }

/-- R111: the scan of an event, when an event of R111's list has happened in it (log entry 7). -/
def State.scanIfDue (s : State) : State := if s.scanDue then s.scan else s

/-- R113: the patience of an entry has run out. -/
def State.patienceOver (s : State) (e : QueueEntry) : Bool :=
  e.instant + s.work.strip.queuePatience * 1000000 ≤ s.now

/-- R113: the entry removed, its owner answered PATIENCE, the notice filed. -/
def State.expire (s : State) (e : QueueEntry) : State :=
  (settle (s.leaveQueue e.outlet .patience)).notice .queuePatience (numberOf e.outlet) e.cls.val e.stamp

/-! ### One event -/

/-- An event of the part: nothing happens in it while a reset is in course (R186); otherwise its work is done at
its instant, a scan follows when one is due, and the guarded records it changed are rewritten. -/
def State.event (s : State) (t : Nat) (work : State → State) : State :=
  if s.resetting.isSome then s
  else
    let s0 := s.advance t
    publishRecords s0 (work s0).scanIfDue

/-- An event that changes nothing a guarded record shows. -/
def State.quietEvent (s : State) (t : Nat) (work : State → State) : State :=
  if s.resetting.isSome then s else work (s.advance t)

end Sys2Proof.Machine
end

