-- ==== Sys2Proof/Machine/Shed.lean ====
section
/-! DEFINITION. The shed monitor's work at a frame close (chapter 07). `closed` is the working copy that was in force for
the closed frame; levels, counts, ranks and enables come from the copy in force after any take (R118). -/
namespace Sys2Proof.Machine

/-- R120: the candidates of a branch. -/
def State.shedCandidates (s : State) (closed : Settings) (b : Branch) : List OutletIx :=
  (indices 48).filter fun k =>
    closed.outlets[k].branch == b && s.outlets[k].state == .on && s.outlets[k].cycle.isNone &&
      s.work.outlets[k].shedRank != 0

/-- R120: the highest rank; among equals the higher outlet number. -/
def chooseShed (rank : OutletIx → Nat) : List OutletIx → Option OutletIx
  | [] => none
  | k :: ks =>
    match chooseShed rank ks with
    | none => some k
    | some j => if rank j < rank k then some k else some j

/-- R121: one outlet is shed, if there is a candidate. -/
def State.shedOne (s : State) (closed : Settings) (b : Branch) : State :=
  match chooseShed (fun k => s.work.outlets[k].shedRank) (s.shedCandidates closed b) with
  | none => s
  | some k =>
    let s1 := settle (s.requestOpen k (.shed b))
    ((s1.modOutlet k fun o => { o with shedMark := true }).modShed b fun r =>
      { r with list := r.list ++ [k], thisClose := true }).notice .outletShed (numberOf k)
        s.work.outlets[k].shedRank (BitVec.ofNat 32 s.loads[b].measured)

/-- R125: a restorable outlet. -/
def State.restorable (s : State) (k : OutletIx) : Bool :=
  s.outlets[k].state == .off && s.outlets[k].shedMark && s.outlets[k].cycle.isNone

/-- R125: the start of a restore round; the outlet shed last is sent first. -/
def State.startRound (s : State) (b : Branch) (ks : List OutletIx) : State :=
  let s1 := (s.modShed b fun r => { r with restoring := true, round := ks }).notice .branchRestore (numberOf b) 0
    (BitVec.ofNat 32 ks.length)
  settle (s1.sendCloses ks.reverse 2 (.restore b))

/-- R119 steps 1 to 3: the overload count, entry and end. -/
def ShedRec.overloadStep (r : ShedRec) (cfg : BranchSettings) (measured : Nat) : ShedRec :=
  if r.overload then
    if measured ≤ cfg.shedLevel then { r with overload := false, overloadCount := 0 } else r
  else
    let count := if cfg.shedLevel < measured then r.overloadCount + 1 else 0
    if cfg.shedFrames ≤ count then { r with overload := true, overloadCount := 0 } else { r with overloadCount := count }

/-- R123. -/
def ShedRec.restoreStep (r : ShedRec) (cfg : BranchSettings) (measured : Nat) : ShedRec :=
  { r with restoreCount := if measured ≤ cfg.restoreLevel then min (r.restoreCount + 1) cfg.restoreFrames else 0 }

/-- R119 for one branch with shed enabled. A round that earlier work of this close ended leaves the restore count 0, and
this close counts from there (R123, log entry 40). -/
def State.shedEnabledBranch (s : State) (closed : Settings) (b : Branch) : State :=
  let cfg := s.work.branches[b]
  let measured := s.loads[b].measured
  let s1 := s.modShed b fun r => r.overloadStep cfg measured
  let s2 :=
    if !s.shed[b].overload && s1.shed[b].overload then
      s1.notice .branchOverload (numberOf b) 0 (BitVec.ofNat 32 measured)
    else s1
  let s3 := if s2.shed[b].overload then s2.shedOne closed b else s2
  let s4 := s3.modShed b fun r => r.restoreStep cfg measured
  let ks := s4.shed[b].list.filter s4.restorable
  if !s4.shed[b].restoring && s4.shed[b].restoreCount == cfg.restoreFrames && !ks.isEmpty then s4.startRound b ks
  else s4

/-- R119, R121: shed-this-close is cleared at every close; a branch with shed disabled takes no step. -/
def State.shedBranch (s : State) (closed : Settings) (b : Branch) : State :=
  let s1 := s.modShed b fun r => { r with thisClose := false }
  if s1.work.branches[b].shedEnable then s1.shedEnabledBranch closed b else s1

/-- R129: a take that turns shed enable off, or on, at the close of the take; the list and the marks are kept. -/
def State.shedTake (s : State) (closed : Settings) : State :=
  { s with shed := tab fun b =>
      if closed.branches[b].shedEnable = s.work.branches[b].shedEnable then s.shed[b]
      else { ShedRec.reset with list := s.shed[b].list } }

end Sys2Proof.Machine
end

