-- ==== Sys2Proof/Machine/Watches.lean ====
section
/-! DEFINITION. The watch unit (chapter 09): takes, examination at a frame close, expiry, re-arming. -/
namespace Sys2Proof.Machine

/-! ### Settings takes (R158, R166) -/

/-- R158: arming reads the renewal count. -/
def WatchRec.armed (w : WatchRec) (cfg : WatchSettings) (renewal : Half) : WatchRec :=
  { w.restart cfg with
    lastRenewal := renewal, consecutive := 0, reference := none, lastEvidence := none, record := none }

/-- R166: a take that leaves the watch disabled. -/
def WatchRec.disarmed (w : WatchRec) : WatchRec :=
  { w with
    state := .disarmed, framesLeft := 0, consecutive := 0, reference := none, lastEvidence := none, record := none }

/-- R166: what changed settings do to an enabled watch that is not DISARMED. -/
def WatchRec.retaken (w : WatchRec) (before cfg : WatchSettings) : WatchRec :=
  { w with
    reference := if before.members = cfg.members then w.reference else none
    framesLeft := match w.state with
      | .watching => min w.framesLeft cfg.timeout
      | .grace => min w.framesLeft cfg.grace
      | .disarmed | .lapsed | .expiredWait | .cycling | .gaveUp => w.framesLeft
    consecutive := min w.consecutive cfg.cycleLimit }

/-- R166, R149: the take acts on one watch. -/
def State.takeWatchAt (s : State) (closed : Settings) (w : WatchNo) : State :=
  let cfg := s.work.watches[w]
  let x := s.watches[w]
  if !cfg.enabled then
    let s1 := match x.state, x.record with
      | .cycling, some c => s.detach c w
      | _, _ => s
    s1.modWatch w WatchRec.disarmed
  else if x.state = .disarmed then s.modWatch w fun x => x.armed cfg (renewalAt s.mem w)
  else s.modWatch w fun x => x.retaken closed.watches[w] cfg

def State.watchTake (s : State) (closed : Settings) : State :=
  (indices 24).foldl (fun s w => s.takeWatchAt closed w) s

/-! ### Counting frames and evidence (R155 to R157) -/

/-- `seen` holds the outlet states as the outlet controller's work at the close left them (R154). -/
def anyOn (seen : Vector OutletState 48) (ks : List OutletIx) : Bool := ks.any fun k => seen[k] == .on

/-- The member states that freeze a watch (R155). -/
def OutletState.freezes : OutletState → Bool
  | .awaitClose | .closing | .opening | .resting | .fault => true
  | .off | .on | .unknown => false

/-- R155. -/
def countingFrame (seen : Vector OutletState 48) (ks : List OutletIx) : Bool :=
  anyOn seen ks && ks.all fun k => !seen[k].freezes

/-- R157: the member sum. -/
def memberSum (res : Vector OutletResult 48) (ks : List OutletIx) : Nat := (ks.map fun k => res[k].irms).sum

/-- R157: the reference after an activity test, and whether it found activity. -/
def activityTest (reference : Option Nat) (sum band : Nat) : Option Nat × Bool :=
  if band = 0 then (reference, false)
  else match reference with
    | none => (some sum, false)
    | some r => if r + band ≤ sum ∨ sum + band ≤ r then (some sum, true) else (some r, false)

/-- R156, R157: renewal and activity; a frame with both is recorded as RENEWAL. -/
def WatchRec.evidence (x : WatchRec) (renewal : Half) (sum band : Nat) (seq : Word) : WatchRec × Option Evidence :=
  let act := activityTest x.reference sum band
  let ev := if renewal != x.lastRenewal then some Evidence.renewal else if act.2 then some .activity else none
  ({ x with
      lastRenewal := renewal
      reference := act.1
      lastEvidence := (ev.map fun e => (e, seq)).or x.lastEvidence }, ev)

/-! ### States (R159 to R165) -/

/-- R159. -/
def WatchRec.graceFrame (x : WatchRec) (cfg : WatchSettings) (renewal : Half) (sum : Nat) (seq : Word) : WatchRec :=
  let x1 := { x with
    lastRenewal := renewal, reference := if cfg.band = 0 then x.reference else some sum }
  if renewal != x.lastRenewal then
    { x1 with
      state := .watching, framesLeft := cfg.timeout, consecutive := 0, lastEvidence := some (.renewal, seq) }
  else if x.framesLeft - 1 = 0 then { x1 with state := .watching, framesLeft := cfg.timeout }
  else { x1 with framesLeft := x.framesLeft - 1 }

/-- The watch's reload with evidence (R160, R163). -/
def WatchRec.reload (x : WatchRec) (cfg : WatchSettings) : WatchRec :=
  { x with state := .watching, framesLeft := cfg.timeout, consecutive := 0 }

/-- R161, R162: an admission request of a watch. ADMITTED and ATTACHED take it to CYCLING, with the count raised. -/
def State.requestCycle (s : State) (w : WatchNo) : State × AdmitResult :=
  let cfg := s.work.watches[w]
  let a := s.admission (.watch w) cfg.members cfg.restTime
  let cycling := fun (c : RecNo) => a.1.modWatch w fun x =>
    { x with state := .cycling, framesLeft := 0, record := some c, consecutive := x.consecutive + 1 }
  match a.2 with
  | .admitted c | .attached c => (cycling c, a.2)
  | .refused _ _ => (a.1.modWatch w fun x => { x with state := .expiredWait, framesLeft := 0 }, a.2)

/-- The WATCH_CYCLE notice of an admission that was not refused (R161). -/
def State.noticeCycle (s : State) (w : WatchNo) (r : AdmitResult) : State :=
  match r with
  | .admitted c => s.notice .watchCycle w.val 64 (BitVec.ofNat 32 c.val)
  | .attached c => s.notice .watchCycle w.val 65 (BitVec.ofNat 32 c.val)
  | .refused _ _ => s

def AdmitResult.refusal : AdmitResult → Nat
  | .refused r _ => r.code
  | .admitted _ | .attached _ => 0

/-- R161, R162: the watch gives up at its limit. -/
def State.giveUp (s : State) (w : WatchNo) : State :=
  (s.modWatch w fun x => { x with state := .gaveUp, framesLeft := 0 }).notice .watchGaveUp w.val 0
    (BitVec.ofNat 32 s.watches[w].consecutive)

/-- R160, R161: the watch expires. -/
def State.expireWatch (s : State) (w : WatchNo) : State :=
  let cfg := s.work.watches[w]
  let count := s.watches[w].consecutive
  let expired := fun (s : State) (reason : Nat) => s.notice .watchExpired w.val reason (BitVec.ofNat 32 count)
  match cfg.action with
  | .note => expired (s.modWatch w fun x => { x with state := .lapsed, framesLeft := 0 }) 0
  | .cycle =>
    if cfg.cycleLimit ≤ count then (expired s 0).giveUp w
    else
      let a := s.requestCycle w
      (expired a.1 a.2.refusal).noticeCycle w a.2

/-- R162: EXPIRED_WAIT without evidence. -/
def State.retryWatch (s : State) (w : WatchNo) : State :=
  let cfg := s.work.watches[w]
  match cfg.action with
  | .note => s.modWatch w fun x => { x with state := .lapsed }
  | .cycle =>
    if cfg.cycleLimit ≤ s.watches[w].consecutive then s.giveUp w
    else
      let a := s.requestCycle w
      a.1.noticeCycle w a.2

/-- R160: a counting frame in WATCHING. -/
def State.watchingFrame (s : State) (w : WatchNo) (sum : Nat) (seq : Word) : State :=
  let cfg := s.work.watches[w]
  let e := s.watches[w].evidence (renewalAt s.mem w) sum cfg.band seq
  if e.2.isSome then s.modWatch w fun _ => e.1.reload cfg
  else
    let s1 := s.modWatch w fun _ => { e.1 with framesLeft := e.1.framesLeft - 1 }
    if e.1.framesLeft - 1 = 0 then s1.expireWatch w else s1

/-- R163, R162: LAPSED, EXPIRED_WAIT and GAVE_UP; evidence is looked for only with a member ON. -/
def State.waitingFrame (s : State) (seen : Vector OutletState 48) (w : WatchNo) (sum : Nat) (seq : Word) : State :=
  let cfg := s.work.watches[w]
  let x := s.watches[w]
  let e := if anyOn seen cfg.members then x.evidence (renewalAt s.mem w) sum cfg.band seq else (x, none)
  match e.2 with
  | some ev =>
    (s.modWatch w fun _ => e.1.reload cfg).notice .watchResumed w.val ev.code (BitVec.ofNat 32 x.state.code)
  | none =>
    let s1 := s.modWatch w fun _ => e.1
    if x.state = .expiredWait then s1.retryWatch w else s1

/-- R154, R155: the examination of one watch at a frame close. -/
def State.examineWatch (s : State) (seen : Vector OutletState 48) (res : Vector OutletResult 48) (seq : Word)
    (w : WatchNo) : State :=
  let cfg := s.work.watches[w]
  let sum := memberSum res cfg.members
  match s.watches[w].state with
  | .disarmed | .cycling => s
  | .grace =>
    if countingFrame seen cfg.members then
      s.modWatch w fun x => x.graceFrame cfg (renewalAt s.mem w) sum seq
    else s
  | .watching => if countingFrame seen cfg.members then s.watchingFrame w sum seq else s
  | .lapsed | .expiredWait | .gaveUp => s.waitingFrame seen w sum seq

/-- R165: a re-arm, and the refusal if it is one. -/
def State.rearm (s : State) (w : WatchNo) : State × Option Reason :=
  match s.watches[w].state with
  | .disarmed => (s, some .noWatch)
  | .cycling => (s, some .busy)
  | .grace | .watching | .lapsed | .expiredWait | .gaveUp =>
    (s.modWatch w fun x =>
      { x.restart s.work.watches[w] with consecutive := 0, reference := none, record := none }, none)

end Sys2Proof.Machine
end

