-- ==== Sys2Proof/Machine/FrameClose.lean ====
section
/-! DEFINITION. A frame close: every block's work in one event (R8, R13, R20, R37, R47, R115, R154, R189; section 4.7).
The order of the work is that of log entries 6 and 8. -/
namespace Sys2Proof.Machine

/-- R39: the frame after 4,294,967,295 is numbered 1. -/
def nextSequence (q : Word) : Word := if q = 0xFFFFFFFF#32 then 1 else q + 1

/-! ### Samples in the windows (R1, R17 to R19) -/

/-- The sample is counted; the open sample of a frame is counted since the open (R8). -/
def Timebase.counted (tb : Timebase) : Timebase :=
  { tb with
    sampleCount := if tb.openTaken then tb.sampleCount + 1 else tb.sampleCount
    openTaken := true
    cycleTaken := tb.cycleTaken + 1 }

/-- R17 to R19: one sample set is added to the windows. -/
def State.accumulate (s : State) (x : SampleSet) : State :=
  let v := fun (p : Phase) => removeOffset x.voltage[p] s.work.phases[p].voltageOffset
  { s with
    meter := tab fun k =>
      let m := s.meter[k]
      let i := removeOffset x.current[k] s.work.outlets[k].currentOffset
      { m with
        sii := m.sii + (i * i).toNat
        svi := m.svi + v m.pairing * i
        clip := m.clip || codeClips x.current[k] }
    meterV := tab fun p =>
      let m := s.meterV[p]
      { m with svv := m.svv + (v p * v p).toNat, clip := m.clip || codeClips x.voltage[p] } }

/-- A sample set taken now, with what it finds. -/
def State.sampleRecord (s : State) (x : SampleSet) : LastSample where
  instant := s.now
  codes := x
  count := s.tb.sampleCount
  windows := tab fun k => { sii := s.meter[k].sii, svi := s.meter[k].svi, clip := s.meter[k].clip }
  windowsV := s.meterV

/-- A sample set of the frame in progress is added to the windows and counted. -/
def State.countSample (s : State) (x : SampleSet) : State :=
  { s.accumulate x with tb := { s.tb.counted with lastSample := some (s.sampleRecord x) } }

/-- A sample set that the frame in progress has no sample instant for is kept for a frame or an L1 cycle that begins at
this instant (log entry 44). -/
def State.holdSample (s : State) (x : SampleSet) : State :=
  { s with tb := { s.tb with lastSample := some (s.sampleRecord x) } }

/-- The sample set taken at this instant, if there is one. -/
def State.sampleNow (s : State) : Option LastSample := s.tb.lastSample.filter (·.instant == s.now)

/-- A sample set leaves the windows and the count of the frame in progress. -/
def State.giveBack (s : State) (l : LastSample) : State :=
  { s with
    meter := tab fun k =>
      { s.meter[k] with sii := l.windows[k].sii, svi := l.windows[k].svi, clip := l.windows[k].clip }
    meterV := l.windowsV
    tb := { s.tb with sampleCount := l.count, lastSample := none } }

/-- R1, R3: `begin` begins a frame or an L1 cycle now. The sample set taken at this instant, whatever it was to the old
one, is the first of the new one (log entry 44). -/
def State.withOwnSample (s : State) (begin : State → State) : State :=
  match s.sampleNow with
  | none => begin s
  | some l => (begin (s.giveBack l)).countSample l.codes

/-! ### Meter results (R22 to R37) -/

/-- R24 for the frame in progress. -/
def State.frameVrms (s : State) (p : Phase) : Nat :=
  rmsVoltage (rootMean s.meterV[p].svv s.tb.sampleCount) s.work.phases[p].voltageGain

/-- R13: PRESENT in the closed frame. -/
def State.framePresent (s : State) (p : Phase) : Bool := s.work.strip.presentLevel ≤ s.frameVrms p

/-- The result of one outlet for the closed frame, and its energy after it. -/
def State.frameOutlet (s : State) (tUs : Nat) (k : OutletIx) : OutletResult × (Nat × Nat) :=
  let m := s.meter[k]
  meterOutlet m s.work.phases[m.pairing].voltageGain s.work.outlets[k].currentGain s.work.strip.creepLevel
    s.tb.sampleCount tUs (s.frameVrms m.pairing) (s.framePresent m.pairing)

/-- R36: the sum of the Irms of the outlets assigned to a branch. -/
def branchSum (work : Settings) (res : Vector OutletResult 48) (b : Branch) : Nat :=
  (((indices 48).filter fun k => work.outlets[k].branch == b).map fun k => res[k].irms).sum

/-! ### Settings take (R189, R190) -/

/-- The working copy as exchange memory reads now. -/
def takenSettings (m : Mem) : Settings where
  outlets := tab fun k => (takeOutlet m k).1
  branches := tab fun b => (takeBranch m b).1
  phases := tab fun p => (takePhase m p).1
  strip := (takeStrip m).1
  watches := tab fun w => (takeWatch m w).1

def countTrue (l : List Bool) : Nat := (l.filter id).length

/-- R190: the records the take changed a value of. -/
def clampedRecords (m : Mem) : Nat :=
  countTrue ((indices 48).map fun k => (takeOutlet m k).2) + countTrue ((indices 6).map fun b => (takeBranch m b).2) +
    countTrue ((indices 3).map fun p => (takePhase m p).2) + (takeStrip m).2.toNat +
    countTrue ((indices 24).map fun w => (takeWatch m w).2)

/-- R190: bits 0..5 for B1 to B6, 8..10 for L1 to L3, 12 for the strip, the take count above. -/
def settingsStatus (m : Mem) (takeCount : Nat) : Nat :=
  ((indices 6).map fun b => flag (takeBranch m b).2 b.val).sum +
    ((indices 3).map fun p => flag (takePhase m p).2 (8 + p.val)).sum + flag (takeStrip m).2 12 + fld takeCount 16 16

/-- R190: the take count after a take. -/
def nextTakeCount (m : Mem) : Nat := ((readWord m addrSettingsStatus).toNat / 2 ^ 16 + 1) % 65536

/-- R189, R190: the working copy, the CLAMPED flags and the settings status after a take. -/
def State.loadSettings (s : State) : State :=
  { s with
    work := takenSettings s.mem
    outlets := tab fun k => { s.outlets[k] with clamped := (takeOutlet s.mem k).2 }
    watches := tab fun w => { s.watches[w] with clamped := (takeWatch s.mem w).2 }
    mem := writeWord s.mem addrSettingsStatus (BitVec.ofNat 32 (settingsStatus s.mem (nextTakeCount s.mem))) }

/-- R190: the take, with its notice if a record was clamped. -/
def State.take (s : State) : State :=
  if clampedRecords s.mem = 0 then s.loadSettings
  else s.loadSettings.notice .settingsClamped (nextTakeCount s.mem) 0 (BitVec.ofNat 32 (clampedRecords s.mem))

/-- R189: takes are made while HOLD reads 0. -/
def State.takeIfAllowed (s : State) : State := if readWord s.mem addrHold = 0 then s.take else s

/-! ### The publisher's part (R46, R47) and the clears (R34) -/

/-- R47: the snapshot at a close with the latch PENDING. The requester finishes DONE, every other entry MERGED. -/
def State.latchCopy (s : State) (seq : Word) : State :=
  if s.pub.latch = .pending then
    let m := writeLatch s.mem seq s.partTime (s.meter.toList.map (·.energy))
    let s1 := { s with
      mem := writeWord m addrLatchState (BitVec.ofNat 32 LatchState.full.code)
      pub := { s.pub with latch := .full, latchList := [] } }
    match s.pub.latchList with
    | [] => s1
    | e :: es =>
      es.foldl (fun s e => s.finishOrder e (.plain .merged none none none)) (s1.finishOrder e (.plain .done none none none))
  else s

/-- R34, R176: every member of a CLEAR_ENERGY order whose outlet was cleared at this close is answered OK. -/
def State.answerClears (s : State) (cleared : OutletIx → Bool) : State :=
  (indices 32).foldl (fun s e =>
    match s.orders[e] with
    | none => s
    | some entry =>
      if orderKindOf entry.fields.kind = some .clearEnergy then
        entry.members.foldl (fun s m => if cleared m.1 then s.orderReply e m.1 .ok else s) s
      else s) s

/-! ### The outlet controller's work (section 4.7) -/

/-- R70. -/
def State.discover (s : State) (k : OutletIx) : State :=
  let s1 := if s.sense[k].level then s.arriveOn k else s.enter k .off
  s1.modOutlet k fun o => { o with unverified := none, faultKind := none, owner := none, pending := none }

/-- A fault found at a frame close: the entry (R68), then its notice (R69, R93, R94). -/
def State.faultAtClose (s : State) (k : OutletIx) (kind : FaultKind) (seq : Word) : State :=
  (settle (s.enterFault k kind)).notice .relayFault (numberOf k) kind.code seq

/-- R69. -/
def State.resolveUnverified (s : State) (k : OutletIx) (seq : Word) : State :=
  match s.outlets[k].unverified with
  | none => s
  | some target =>
    if s.sense[k].level = target.level then s.modOutlet k fun o => { o with unverified := none }
    else s.faultAtClose k target.failure seq

/-- R92 to R94: `leaks` is whether the outlet's Irms reached the leak level. -/
def State.supervise (s : State) (k : OutletIx) (usable leaks : Bool) (seq : Word) : State :=
  let o := s.outlets[k]
  let clear := fun (o : Outlet) => { o with drop := false, weld := false }
  match o.state, usable with
  | .on, true =>
    if s.sense[k].level then s.modOutlet k clear
    else if o.drop then (s.modOutlet k clear).faultAtClose k .dropped seq
    else s.modOutlet k fun o => { o with drop := true, weld := false }
  | .off, true =>
    if !(s.sense[k].level || leaks) then s.modOutlet k clear
    else if o.weld then (s.modOutlet k clear).faultAtClose k .welded seq
    else s.modOutlet k fun o => { o with drop := false, weld := true }
  | _, _ => s.modOutlet k clear

/-- R72, R73: the marker for the frame that opens, and the peak of a whole ON frame. -/
def Outlet.endFrame (o : Outlet) (irms : Nat) : Outlet :=
  let peak := if o.peakSeen then max (o.peakOn.getD 0) irms else irms
  { o with
    wholeFrame := o.state == .on
    peakOn := if o.wholeFrame then some peak else o.peakOn
    peakSeen := o.peakSeen || o.wholeFrame }

/-- Section 4.7 for one outlet: discovery, UNVERIFIED resolution, supervision, marker, peak. `closed` is the
assignment and the leak level of the closed frame (R51, R91). -/
def State.outletWork (s : State) (closed : Settings) (res : Vector OutletResult 48) (seq : Word) (k : OutletIx) :
    State :=
  let p := phaseOfBranch closed.outlets[k].branch
  let s1 := if s.outlets[k].state = .unknown ∧ s.usable p then s.discover k else s
  let s2 := if s1.usable p then s1.resolveUnverified k seq else s1
  let s3 := s2.supervise k (s2.usable p) (closed.strip.leakLevel ≤ res[k].irms) seq
  s3.modOutlet k fun o => o.endFrame res[k].irms

/-- R72, R102: a reservation goes at the outlet's first whole ON frame. `whole` is the marker as the outlet
controller's step found it. -/
def State.outletsWork (s : State) (closed : Settings) (res : Vector OutletResult 48) (seq : Word) :
    State × List OutletIx :=
  (indices 48).foldl (fun a k =>
    let s1 := a.1.outletWork closed res seq k
    (s1, if a.1.outlets[k].wholeFrame && s1.outlets[k].state != .fault then a.2 ++ [k] else a.2)) (s, [])

/-! ### The close scheduler's work (R115) -/

/-- R114: a taken change of the queue patience moves every deadline; entries past theirs are removed, in queue order (log
entry 39). -/
def State.patienceChange (s : State) (closed : Settings) : State :=
  if closed.strip.queuePatience = s.work.strip.queuePatience then s
  else s.queue.foldl (fun s e =>
    if s.queue.any (·.arrival == e.arrival) && s.patienceOver e then s.expire e else s) s

/-- R115 steps 1 to 3. -/
def State.schedulerWork (s : State) (closed : Settings) (res : Vector OutletResult 48) (whole : List OutletIx) :
    State :=
  let s1 := { s with loads := tab fun b => { s.loads[b] with measured := branchSum closed res b } }
  (whole.foldl (fun s k => s.release k) s1).patienceChange closed

/-! ### The work of the last three, in the free order -/

/-- R115 step 4, once: the scan, and the committed loads it leaves, which are those of the closed frame's branch
records (R45). `handed` holds them if the scan has been made. -/
def State.closeScan (s : State) : Option (Vector Nat 6) → State × Vector Nat 6
  | some c => (s, c)
  | none => (s.scan, tab fun b => s.scan.committed b)

/-- The turns of a close, as the part may choose them (R115, R154, log entry 6). `bs` and `ws` are the branches and
the watches still to come, in ascending number (R119, R154). A turn of a block that has nothing left is passed over;
the work left after the last turn is done then. -/
def State.closeTurns (closed : Settings) (seen : Vector OutletState 48) (res : Vector OutletResult 48) (seq : Word) :
    CloseOrder → List Branch → List WatchNo → Option (Vector Nat 6) → State → State × Vector Nat 6
  | [], bs, ws, handed, s =>
    let a := s.closeScan handed
    (ws.foldl (fun s w => s.examineWatch seen res seq w) (bs.foldl (fun s b => s.shedBranch closed b) a.1), a.2)
  | .scan :: turns, bs, ws, handed, s =>
    let a := s.closeScan handed
    closeTurns closed seen res seq turns bs ws (some a.2) a.1
  | .shed :: turns, [], ws, handed, s => closeTurns closed seen res seq turns [] ws handed s
  | .shed :: turns, b :: bs, ws, handed, s => closeTurns closed seen res seq turns bs ws handed (s.shedBranch closed b)
  | .watch :: turns, bs, [], handed, s => closeTurns closed seen res seq turns bs [] handed s
  | .watch :: turns, bs, w :: ws, handed, s =>
    closeTurns closed seen res seq turns bs ws handed (s.examineWatch seen res seq w)

/-- R115 step 4, R119, R154: all turns of a close, the watches of `skip` passed over; a scan that a later turn makes
due follows (R111). Beside it the committed loads after step 4. -/
def State.closeWork (s : State) (order : CloseOrder) (closed : Settings) (seen : Vector OutletState 48)
    (res : Vector OutletResult 48) (seq : Word) (skip : List WatchNo) : State × Vector Nat 6 :=
  let a := State.closeTurns closed seen res seq order (indices 6) ((indices 24).filter fun w => w ∉ skip) none s
  (a.1.scanIfDue, a.2)

/-- R45: the branch record of the closed frame: the committed load after R115 step 4, the shed monitor's flags once its
work at the close is done. -/
def State.branchResult (s : State) (committed : Vector Nat 6) (b : Branch) : BranchResult where
  measured := s.loads[b].measured
  committed := committed[b]
  overload := s.shed[b].overload
  shedding := s.shed[b].thisClose
  restoring := s.shed[b].restoring

/-! ### The close itself (R8) -/

/-- R8, R20: the next frame opens with the settings now in force, and the meter's window with it. -/
def State.openFrame (s : State) (state : TimebaseState) (energies : OutletIx → Nat × Nat) : State :=
  { s with
    tb := { s.tb with
      state := state
      openInstant := s.now
      frameState := state
      cycles := 0
      cycleSetting := s.work.strip.frameCycles
      sampleCount := 1
      openTaken := false
      cycleStart := s.now
      cycleP := s.phases[(0 : Phase)].cyclePeriod.getD 0
      cycleTaken := 0
      lastSample := none }
    meter := tab fun k => MeterOutlet.opened (s.branchOf k) (energies k).1 (energies k).2
    meterV := Vector.replicate 3 MeterPhase.opened }

/-- R39, R13: the closed frame's number is given, and PRESENT is judged. -/
def State.numberFrame (s : State) : State :=
  { s with
    pub := { s.pub with closedSeq := nextSequence s.pub.closedSeq }
    phases := tab fun p => { s.phases[p] with present := s.framePresent p } }

/-- R11, R12: the timebase notice `note` of a close is filed with the closed frame's number. -/
def State.beginClose (s : State) (note : Option NoticeKind) : State :=
  match note with
  | none => s.numberFrame
  | some n => s.numberFrame.notice n 1 0 (nextSequence s.pub.closedSeq)

/-- R8, R189: then the settings are taken, and the next frame opens. -/
def State.openedAfter (s : State) (state : TimebaseState) (note : Option NoticeKind) : State :=
  (s.beginClose note).takeIfAllowed.openFrame state fun k => (s.frameOutlet (s.now - s.tb.openInstant) k).2

/-- A frame close of the windows and the count as they stand, with the order of its last work given. `short` and
`cycleCount` are handed over by R8; `state` is the timebase state from the close on; `note` is the timebase notice of
R11 or R12. -/
def State.closeFrameIn (s : State) (order : CloseOrder) (short : Bool) (cycleCount : Nat) (state : TimebaseState)
    (note : Option NoticeKind) : State :=
  let closed := s.work
  let seq := nextSequence s.pub.closedSeq
  let tUs := s.now - s.tb.openInstant
  let res := tab fun k => (s.frameOutlet tUs k).1
  let cleared := fun (k : OutletIx) => s.meter[k].clearReq
  let phaseResults : Vector PhaseResult 3 := tab fun p =>
    { vrms := s.frameVrms p, present := s.framePresent p, live := s.phases[p].live, clipped := s.meterV[p].clip }
  let s4 := ((s.openedAfter state note).latchCopy seq).answerClears cleared
  let a := s4.outletsWork closed res seq
  let unverified := fun (k : OutletIx) => a.1.outlets[k].unverified.isSome
  let seen := tab fun (k : OutletIx) => a.1.outlets[k].state
  let s5 := a.1.schedulerWork closed res a.2
  let armed := (indices 24).filter fun w => s5.watches[w].state == .disarmed
  let s6 := (s5.shedTake closed).watchTake closed
  let w := s6.closeWork order closed seen res seq armed
  let frame : FrameResult :=
    { sequence := seq, tUs := tUs, n := s.tb.sampleCount, frequency := frequencyOf cycleCount tUs
      frameState := s.tb.frameState, short := short, phases := phaseResults
      outlets := tab fun k => { res[k] with unverified := unverified k }
      branches := tab fun b => w.1.branchResult w.2 b }
  { w.1 with pub := { w.1.pub with waiting := w.1.pub.waiting ++ [frame] } }

/-- R8: a frame close of the windows and the count as they stand. The order of its last work is free (log entry 6). -/
def State.closeCounted (s : State) (short : Bool) (cycleCount : Nat) (state : TimebaseState)
    (note : Option NoticeKind) : State :=
  ({ s with choices := s.choices + 1 }).closeFrameIn (Config.closeOrder s.choices) short cycleCount state note

/-- R8, R1: a frame close. A sample taken at the instant of the close is the first of the frame that opens. -/
def State.closeFrame (s : State) (short : Bool) (cycleCount : Nat) (state : TimebaseState) (note : Option NoticeKind) :
    State :=
  s.withOwnSample fun s => s.closeCounted short cycleCount state note

end Sys2Proof.Machine
end

