-- ==== Sys2Proof/Machine/FrontEnd.lean ====
section
/-! DEFINITION. The meanings of the front end's commands (chapter 01; accumulation, chapter 02): samples, load senses, zero
crossings, dead phases. -/
namespace Sys2Proof.Machine

/-! ### Samples (R1 to R3, R17 to R19) -/

/-- R2, R3: the instant at which the next sample of the frame in progress is due, if one is to be taken. The
spacing of 312.5 µs is 625 half microseconds. -/
def Timebase.nextSample (tb : Timebase) : Option Nat :=
  match tb.frameState with
  | .freeRun =>
    let k := if tb.openTaken then tb.sampleCount else 0
    if k < 3200 then some (tb.openInstant + k * 625 / 2) else none
  | .locked =>
    if tb.cycleTaken < 64 then some (tb.cycleStart + tb.cycleTaken * tb.cycleP / 64) else none

/-- R2, R3: the next sample of the frame in progress is due by now. -/
def State.sampleDue (s : State) : Bool := s.tb.nextSample.any (· ≤ s.now)

/-- A sample set: one for an instant (R1). It is the next of the frame in progress if that is due, and is kept otherwise
(log entries 15, 44). -/
def State.takeSample (s : State) (x : SampleSet) : State :=
  if s.sampleNow.isSome then s
  else if s.sampleDue then s.countSample x
  else s.holdSample x

/-- SAMPLE (R1). -/
def execSample (t : Nat) (codes : SampleSet) (s : State) : Host.Outcome State Fault Refusal :=
  .next (s.quietEvent t fun s => s.takeSample codes)

/-! ### Load senses (R4) -/

/-- R4: a change of the raw input restarts the candidate run. -/
def Sense.rawChange (x : Sense) (level : Bool) (now : Nat) : Sense :=
  if level = x.raw then x else { x with raw := level, run := some now }

/-- RAW_SENSE_CHANGE (R4). During a reset only the pin itself changes (log entry 19). -/
def execRawSenseChange (t : Nat) (outlet : OutletIx) (level : Bool) (s : State) : Host.Outcome State Fault Refusal :=
  if s.resetting.isSome then .next { s with sense := upd s.sense outlet fun x => { x with raw := level } }
  else
    let s1 := s.advance t
    .next { s1 with sense := upd s1.sense outlet fun x => x.rawChange level s1.now }

/-- The instant at which the raw input began its present level: with no change since the reset, µs 0 (log
entry 14). -/
def Sense.since (x : Sense) : Nat := x.run.getD 0

/-- R4: the raw input has held a level different from the debounced level for 2,000 µs. -/
def Sense.settled (x : Sense) (now : Nat) : Bool := x.raw != x.level && x.since + 2000 ≤ now

/-- R4: the debounced level takes the raw level, and the change is reported with its stamp. -/
def State.acceptSense (s : State) (k : OutletIx) : State :=
  let x := s.sense[k]
  if x.settled s.now then
    { s with sense := upd s.sense k fun x => { x with level := x.raw } }.senseReport k x.raw x.since
  else s

/-- SENSE_CHANGE (R4). -/
def execSenseChange (t : Nat) (outlet : OutletIx) (s : State) : Host.Outcome State Fault Refusal :=
  .next (s.event t fun s => s.acceptSense outlet)

/-! ### Zero crossings (R5, R6) -/

/-- R5: the screen of a crossing. -/
def PhaseStatus.accepts (x : PhaseStatus) (now : Nat) (pol : Polarity) : Bool :=
  match x.last with
  | none => true
  | some (t0, p0) => pol != p0 && t0 + 2000 ≤ now

/-- The range of a plausible half period, in µs (R5, R6). -/
def halfMin : Nat := 7700
def halfMax : Nat := 11100

/-- R6: the run after an accepted crossing of a DEAD phase. -/
def PhaseStatus.nextRun (x : PhaseStatus) (now : Nat) : Nat :=
  match x.last with
  | none => 1
  | some (t0, _) => if x.run ≠ 0 ∧ halfMin ≤ now - t0 ∧ now - t0 ≤ halfMax then x.run + 1 else 1

/-- R5: what every accepted crossing records. -/
def PhaseStatus.record (x : PhaseStatus) (now : Nat) (pol : Polarity) : PhaseStatus :=
  { x with
    last := some (now, pol)
    half := match x.last with
      | none => x.half
      | some (t0, _) => some (clampNat halfMin halfMax (now - t0)).1
    cyclePeriod := match pol, x.lastRising with
      | .rising, some r => some (now - r)
      | .rising, none | .falling, _ => x.cyclePeriod
    lastRising := match pol with
      | .rising => some now
      | .falling => x.lastRising }

/-- R6: the dead deadline from the half period now recorded. -/
def PhaseStatus.deadlineFrom (x : PhaseStatus) (now : Nat) : Option Nat := x.half.map fun h => now + 3 * h

/-- R5, R6: the record after an accepted crossing. -/
def PhaseStatus.accept (x : PhaseStatus) (now : Nat) (pol : Polarity) : PhaseStatus :=
  let y := x.record now pol
  if x.live then { y with deadline := y.deadlineFrom now }
  else if x.nextRun now = 16 then { y with run := 16, live := true, deadline := y.deadlineFrom now }
  else { y with run := x.nextRun now }

/-- R6: PHASE_LIVE is filed, and the timebase told of L1 (R12). -/
def State.phaseLive (s : State) (p : Phase) : State :=
  let s1 := s.notice .phaseLive (numberOf p) 0 (BitVec.ofNat 32 (s.phases[p].half.getD 0))
  if p = 0 ∧ s1.tb.state = .freeRun then { s1 with tb := { s1.tb with lockPending := true } } else s1

/-- The instant at which a FREE_RUN frame closes normally (R9). -/
def Timebase.normalClose (tb : Timebase) : Nat := tb.openInstant + 1000000

/-- R9: the FREE_RUN frame that a normal close opened at this instant becomes a LOCKED frame (log entry 16). -/
def State.lockAtOpen (s : State) : State :=
  { s with tb := { s.tb with
      state := .locked
      frameState := .locked
      lockPending := false
      cycleStart := s.now
      cycleP := s.phases[(0 : Phase)].cyclePeriod.getD 0
      cycleTaken := if s.tb.openTaken then 1 else 0 } }.notice .timebaseLocked 1 0 s.pub.closedSeq

/-- R12: lock is taken at this crossing. Where a normal close has opened the frame at this very instant, that frame
becomes LOCKED and no second close is made, whether the lock was pending before or this crossing makes L1 live (log
entry 16). -/
def State.takeLock (s : State) : State :=
  if s.now = s.tb.openInstant then s.lockAtOpen
  else { s with tb := { s.tb with lockPending := false } }.closeFrame (decide (s.now < s.tb.normalClose)) 0 .locked
    (some .timebaseLocked)

/-- R10, R3: an L1 cycle of a LOCKED frame ends. A sample taken at this instant is sample 0 of the cycle that begins
(log entry 44). -/
def State.endL1Cycle (s : State) : State :=
  let n := s.tb.cycles + 1
  if n = s.tb.cycleSetting then s.closeFrame false n .locked none
  else s.withOwnSample fun s => { s with tb := { s.tb with
      cycles := n
      cycleStart := s.now
      cycleP := s.phases[(0 : Phase)].cyclePeriod.getD 0
      cycleTaken := 0 } }

/-- R10, R12: an accepted rising crossing of L1 at the timebase. -/
def State.risingL1 (s : State) : State :=
  if s.tb.lockPending then s.takeLock
  else match s.tb.frameState with
    | .locked => if s.tb.openInstant < s.now then s.endL1Cycle else s
    | .freeRun => s

/-- R5, R6, R10, R12: a crossing reported by a detector. -/
def State.crossing (s : State) (p : Phase) (pol : Polarity) : State :=
  let x := s.phases[p]
  if x.accepts s.now pol then
    let s1 := { s with phases := upd s.phases p fun x => x.accept s.now pol }
    let s2 := if !x.live && s1.phases[p].live then s1.phaseLive p else s1
    if p = 0 ∧ pol = .rising then s2.risingL1 else s2
  else s

/-- ZERO_CROSSING (R5). -/
def execZeroCrossing (t : Nat) (phase : Phase) (polarity : Polarity) (s : State) : Host.Outcome State Fault Refusal :=
  .next (s.event t fun s => s.crossing phase polarity)

/-! ### Dead phases (R7, R11) -/

/-- R7: a LIVE phase has reached its dead deadline. -/
def PhaseStatus.expired (x : PhaseStatus) (now : Nat) : Bool := x.live && x.deadline.any (· ≤ now)

/-- R7. -/
def PhaseStatus.die (x : PhaseStatus) : PhaseStatus := { x with live := false, run := 0, deadline := none }

/-- R11: L1 has become dead. -/
def State.l1Dead (s : State) : State :=
  match s.tb.state with
  | .locked => s.closeFrame true 0 .freeRun (some .timebaseFree)
  | .freeRun => { s with tb := { s.tb with lockPending := false } }

/-- R7, R11. -/
def State.phaseDies (s : State) (p : Phase) : State :=
  if s.phases[p].expired s.now then
    let s1 := { s with phases := upd s.phases p PhaseStatus.die }.notice .phaseDead (numberOf p) 0
      (BitVec.ofNat 32 (s.phases[p].half.getD 0))
    if p = 0 then s1.l1Dead else s1
  else s

/-- PHASE_DEAD (R7). -/
def execPhaseDead (t : Nat) (phase : Phase) (s : State) : Host.Outcome State Fault Refusal :=
  .next (s.event t fun s => s.phaseDies phase)

end Sys2Proof.Machine
end

