-- ==== Sys2Proof/Machine/FrameFamily.lean ====
section
/-! DEFINITION. The meanings of the frame commands: the normal close of a FREE_RUN frame (R9), publication and flip (R40,
R41), and the part-time word. -/
namespace Sys2Proof.Machine

/-- R9: a FREE_RUN frame has run its full 1,000,000 µs. -/
def State.closeIfRun (s : State) : State :=
  if s.tb.frameState = .freeRun ∧ s.tb.normalClose ≤ s.now then s.closeFrame false 0 .freeRun none else s

/-- FRAME_CLOSE (R8, R9). The other closes belong to ZERO_CROSSING and PHASE_DEAD. -/
def execFrameClose (t : Nat) (s : State) : Host.Outcome State Fault Refusal := .next (s.event t State.closeIfRun)

/-- R39, R40: the oldest closed frame is written into the unpublished buffer, once the flip before it is done. -/
def State.publish (s : State) : State :=
  match s.pub.written, s.pub.waiting with
  | none, f :: rest =>
    { s with
      mem := writeFrame s.mem s.pub.index.other f
      pub := { s.pub with waiting := rest, written := some f.sequence } }
  | some _, _ | none, [] => s

/-- FRAME_PUBLICATION (R40, log entry 10). -/
def execFramePublication (t : Nat) (s : State) : Host.Outcome State Fault Refusal :=
  .next (s.quietEvent t State.publish)

/-- R41: the timebase state word is changed only if it differs. -/
def timebaseWord (m : Mem) (state : TimebaseState) : Mem :=
  if readWord m addrTimebase = BitVec.ofNat 32 state.code then m
  else writeWord m addrTimebase (BitVec.ofNat 32 state.code)

/-- R41: the written frame becomes the published one. -/
def State.flip (s : State) : State :=
  match s.pub.written with
  | none => s
  | some q =>
    let b := s.pub.index.other
    let m := writeWord (timebaseWord s.mem s.tb.state) addrPubIndex (BitVec.ofNat 32 b.code)
    { s with
      mem := writeWord m addrPubSequence q
      pub := { s.pub with index := b, sequence := q, written := none } }.raise .frame

/-- FRAME_FLIP (R41). -/
def execFrameFlip (t : Nat) (s : State) : Host.Outcome State Fault Refusal := .next (s.quietEvent t State.flip)

/-- PART_TIME_REWRITE (11.6): the part-time word of the header shows part time. -/
def execPartTimeRewrite (t : Nat) (s : State) : Host.Outcome State Fault Refusal :=
  .next (s.quietEvent t fun s => { s with mem := writeWord s.mem addrPartTime s.partTime })

end Sys2Proof.Machine
end

