-- ==== Sys2Proof/Machine/OrderFamily.lean ====
section
/-! DEFINITION. The order intake: the take of the FIFO's head, its validation and its dispatch (R171 to R178, R46, R71). A take row
acts when the head is what the row names (log entries 3 and 31). -/
namespace Sys2Proof.Machine

/-! ### The take (R171, R172) -/

/-- R172: the slot becomes held, its words show the take, and its number has left the FIFO. -/
def State.hold (s : State) (e : SlotNo) (rest : List SlotNo) : State :=
  let entry : OrderEntry := { fields := slotFields s.mem e, members := [], record := none }
  { s with fifo := rest, mem := writeTaken s.mem e s.partTime }.setOrder e (some entry)

/-- R173, R180: the order is refused. -/
def State.refuse (s : State) (e : SlotNo) (reason : Reason) (detail : Option OutletIx) (record : Option RecNo) : State :=
  s.finishOrder e (.plain .refused (some reason) detail record)

/-- R172: the take of the head if its slot reads POSTED and holds an order of `kind`; `work` is the rest of the
take event. -/
def State.take1 (s : State) (kind : Option OrderKind) (work : SlotNo → SlotFields → State → State) : State :=
  match s.fifo with
  | [] => s
  | e :: rest =>
    let f := slotFields s.mem e
    if slotState s.mem e = slotPosted ∧ orderKindOf f.kind = kind then work e f (s.hold e rest) else s

/-- R173, R174: the target checks and the resolution of a taken order; `work` goes on with the members. -/
def State.withMembers (s : State) (e : SlotNo) (f : SlotFields)
    (work : SlotNo → SlotFields → List OutletIx → State → State) : State :=
  match resolveTargets s.work f with
  | .error detail => s.refuse e .target detail none
  | .ok ms => work e f ms s

/-- R173, R174: a take of an order with targets. -/
def State.takeMembers (s : State) (kind : OrderKind) (work : SlotNo → SlotFields → List OutletIx → State → State) :
    State :=
  s.take1 (some kind) fun e f s => s.withMembers e f work

/-- R179: the members of an order with member outcomes, none of them answered. -/
def State.enroll (s : State) (e : SlotNo) (f : SlotFields) (ms : List OutletIx) : State :=
  s.setOrder e (some { fields := f, members := ms.map fun k => (k, none), record := none })

/-- SLOT_DROP (R172): the head's slot does not read POSTED. -/
def State.dropHead (s : State) : State :=
  match s.fifo with
  | [] => s
  | e :: rest => if slotState s.mem e = slotPosted then s else { s with fifo := rest }.raise .stray

/-- SLOT_DROP (R172). -/
def execSlotDrop (t : Nat) (s : State) : Host.Outcome State Fault Refusal := .next (s.quietEvent t State.dropHead)

/-- ORDER_KIND_REFUSED (R173). -/
def execOrderKindRefused (t : Nat) (s : State) : Host.Outcome State Fault Refusal :=
  .next (s.event t fun s => s.take1 none fun e _ s => s.refuse e .kind none none)

/-! ### Dispatch (R175 to R178) -/

/-- R175: 1 when URGENT is set, 2 when it is clear. -/
def SlotFields.closeClass (f : SlotFields) : ClassNo := if f.urgent then 1 else 2

/-- R175: the CLOSE requests of a SWITCH_ON order, each with its outcomes, one after another. -/
def State.switchOnMembers (s : State) (e : SlotNo) (f : SlotFields) (ms : List OutletIx) : State :=
  ms.foldl (fun s k => settle (s.requestClose k f.closeClass (.order e))) (s.enroll e f ms)

/-- SWITCH_ON (R175). -/
def execSwitchOn (t : Nat) (s : State) : Host.Outcome State Fault Refusal :=
  .next (s.event t fun s => s.takeMembers .switchOn fun e f ms s => s.switchOnMembers e f ms)

/-- R175: the OPEN requests of a SWITCH_OFF order. -/
def State.switchOffMembers (s : State) (e : SlotNo) (f : SlotFields) (ms : List OutletIx) : State :=
  ms.foldl (fun s k => settle (s.requestOpen k (.order e))) (s.enroll e f ms)

/-- SWITCH_OFF (R175). -/
def execSwitchOff (t : Nat) (s : State) : Host.Outcome State Fault Refusal :=
  .next (s.event t fun s => s.takeMembers .switchOff fun e f ms s => s.switchOffMembers e f ms)

/-- R177: the admission's answer to an order. -/
def State.admissionAnswer (s : State) (e : SlotNo) (r : AdmitResult) : State :=
  match r with
  | .refused reason detail => s.refuse e reason detail none
  | .admitted c | .attached c =>
    match s.orders[e] with
    | none => s
    | some entry => s.setOrder e (some { entry with record := some c })

/-- R177, R133. -/
def State.cycleOrder (s : State) (e : SlotNo) (f : SlotFields) (ms : List OutletIx) : State :=
  let a := s.admission (.order e f.urgent) ms (orderRestTime f.param)
  a.1.admissionAnswer e a.2

/-- CYCLE (R177). -/
def execCycle (t : Nat) (s : State) : Host.Outcome State Fault Refusal :=
  .next (s.event t fun s => s.takeMembers .cycle fun e f ms s => s.cycleOrder e f ms)

/-- R173, R178: CANCEL_CYCLE with its parameter. A record that the cancel ends tells its origins before the cancel's own
order finishes (log entry 41). -/
def State.cancelOrder (s : State) (e : SlotNo) (param : Word) : State :=
  if h : param.toNat < 16 then
    let c : RecNo := ⟨param.toNat, h⟩
    let a := s.cancel c
    match a.2 with
    | some reason => a.1.refuse e reason none (some c)
    | none => a.1.finishOrder e (.plain .done none none (some c))
  else s.refuse e .noCycle none none

/-- CANCEL_CYCLE (R146, R178). -/
def execCancelCycle (t : Nat) (s : State) : Host.Outcome State Fault Refusal :=
  .next (s.event t fun s => s.take1 (some .cancelCycle) fun e f s => s.cancelOrder e f.param)

/-- R71: a faulted outlet on a USABLE phase is resolved from its debounced sense. -/
def State.clearFaultAt (s : State) (k : OutletIx) (kind : Option FaultKind) : State :=
  let target : OutletState := if s.sense[k].level then .on else .off
  let s1 := if s.sense[k].level then s.arriveOn k else s.enter k .off
  (s1.modOutlet k fun o => { o with faultKind := none, drop := false, weld := false }).notice .faultCleared (numberOf k)
    (optCode FaultKind.code kind) (BitVec.ofNat 32 target.code)

/-- R71: a CLEAR_FAULT member, and its outcome. -/
def State.clearFaultMember (s : State) (k : OutletIx) : State × MemberOutcome :=
  let o := s.outlets[k]
  if o.cycle.isSome then (s, .inCycle)
  else match o.state with
    | .fault => if s.usable (s.phaseOf k) then (s.clearFaultAt k o.faultKind, .ok) else (s, .unknownState)
    | .unknown => (s, .unknownState)
    | .off | .awaitClose | .closing | .on | .opening | .resting => (s, .skipped)

/-- R176: every member is answered in the take event. -/
def State.clearFaultMembers (s : State) (e : SlotNo) (f : SlotFields) (ms : List OutletIx) : State :=
  ms.foldl (fun s k => let a := s.clearFaultMember k; a.1.orderReply e k a.2) (s.enroll e f ms)

/-- CLEAR_FAULT (R71, R176). -/
def execClearFault (t : Nat) (s : State) : Host.Outcome State Fault Refusal :=
  .next (s.event t fun s => s.takeMembers .clearFault fun e f ms s => s.clearFaultMembers e f ms)

/-- R34, R176: each member's clear request is set. -/
def State.clearEnergyMembers (s : State) (e : SlotNo) (f : SlotFields) (ms : List OutletIx) : State :=
  let s1 := s.enroll e f ms
  { s1 with meter := tab fun k =>
      if k ∈ ms then { s1.meter[k] with clearReq := true } else s1.meter[k] }

/-- CLEAR_ENERGY (R34, R176). -/
def execClearEnergy (t : Nat) (s : State) : Host.Outcome State Fault Refusal :=
  .next (s.event t fun s => s.takeMembers .clearEnergy fun e f ms s => s.clearEnergyMembers e f ms)

/-- R46: a LATCH_ENERGY order by the latch state. -/
def State.latchOrder (s : State) (e : SlotNo) : State :=
  match s.pub.latch with
  | .empty =>
    { s with
      mem := writeWord s.mem addrLatchState (BitVec.ofNat 32 LatchState.pending.code)
      pub := { s.pub with latch := .pending, latchList := [e] } }
  | .pending => { s with pub := { s.pub with latchList := s.pub.latchList ++ [e] } }
  | .full => s.finishOrder e (.plain .merged none none none)

/-- LATCH_ENERGY (R46). -/
def execLatchEnergy (t : Nat) (s : State) : Host.Outcome State Fault Refusal :=
  .next (s.event t fun s => s.take1 (some .latchEnergy) fun e _ s => s.latchOrder e)

/-- R173, R178: REARM_WATCH with its parameter. -/
def State.rearmOrder (s : State) (e : SlotNo) (param : Word) : State :=
  if h : param.toNat < 24 then
    let a := s.rearm ⟨param.toNat, h⟩
    match a.2 with
    | some reason => a.1.refuse e reason none none
    | none => a.1.finishOrder e (.plain .done none none none)
  else s.refuse e .noWatch none none

/-- REARM_WATCH (R165, R178). -/
def execRearmWatch (t : Nat) (s : State) : Host.Outcome State Fault Refusal :=
  .next (s.event t fun s => s.take1 (some .rearmWatch) fun e f s => s.rearmOrder e f.param)

end Sys2Proof.Machine
end

