-- ==== Sys2Proof/Machine/HostPort.lean ====
section
/-! DEFINITION. The host port: what a host write of one whole word does (R169, R170, R184, R186 to R188, R48, R192), and what
a read shifts out (R183). -/
namespace Sys2Proof.Machine

/-! ### Addresses -/

abbrev addrIdent : Nat := 0x4000
abbrev addrControl : Nat := 0x4004
abbrev addrCause : Nat := 0x4008
abbrev addrMask : Nat := 0x400C
abbrev addrPost : Nat := 0x4010
/-- The first unmapped address. -/
abbrev addrUnmapped : Nat := 0x4014

/-- The slot whose 64 bytes hold address `a`. -/
def slotAt (a : Nat) : SlotNo := ⟨(a - 0x1500) / 64 % 32, Nat.mod_lt _ (by decide)⟩

/-! ### Writes -/

/-- R169: a slot is held while its order is in progress. -/
def State.held (s : State) (e : SlotNo) : Bool := s.orders[e].isSome

/-- R169: a host write of `v` to the word at offset `off` of slot `e`. The state word takes FREE and POSTED. -/
def State.writeSlotWord (s : State) (e : SlotNo) (off : Nat) (v : Word) : State :=
  let put := { s with mem := writeWord s.mem (slotAddr e + off) v }
  if s.held e then s.raise .collide
  else if off = 0 then (if v.toNat ≤ slotPosted then put else s.raise .collide)
  else if off < 0x18 then put
  else s

/-- R48: a host write to the latch state word. -/
def State.writeLatchState (s : State) (v : Word) : State :=
  if v = 0 ∧ s.pub.latch ≠ .pending then
    { s with
      mem := writeWord s.mem addrLatchState (BitVec.ofNat 32 LatchState.empty.code)
      pub := { s.pub with latch := .empty } }
  else s.raise .collide

/-- R192: a host write to the missed-kinds word. -/
def State.writeMissedKinds (s : State) (v : Word) : State :=
  if v = 0 then { s with mem := writeWord s.mem addrMissedKinds 0 } else s

/-- The words of exchange memory that a host write always changes (R184): HOLD, the read mark and the host-owned
areas. -/
def hostOwnedWord (a : Nat) : Bool := a == addrHold || a == addrReadMark || hostOwnedArea a

/-- R184: a host write to an aligned word of exchange memory. -/
def State.writeMemWord (s : State) (a : Nat) (v : Word) : State :=
  if a = addrLatchState then s.writeLatchState v
  else if a = addrMissedKinds then s.writeMissedKinds v
  else if slotArea a then s.writeSlotWord (slotAt a) ((a - 0x1500) % 64) v
  else if hostOwnedWord a then { s with mem := writeWord s.mem a v }
  else s

/-- R186: a host write to CONTROL. -/
def State.writeControl (s : State) (v : Word) : State :=
  if v.getLsbD 0 then s.beginReset .soft else s

/-- R187: a host write to CAUSE clears the bits that are 1 in the value. -/
def State.writeCause (s : State) (v : Word) : State := { s with cause := s.cause &&& ~~~v }

/-- R187: MASK is written whole; bits 6 to 31 are ignored. -/
def State.writeMask (s : State) (v : Word) : State := { s with mask := v &&& causeBits }

/-- R170: a host write to POST. -/
def State.writePost (s : State) (v : Word) : State :=
  if h : v.toNat < 32 then
    let e : SlotNo := ⟨v.toNat, h⟩
    if e ∈ s.fifo ∨ s.held e then s.raise .collide else { s with fifo := s.fifo ++ [e] }
  else s.raise .stray

/-- R184, 11.3: a host write of a whole word at address `a`, taken as the aligned word that holds it. Nothing is
written while a reset is in course (R186). -/
def State.hostWriteWord (s : State) (a : Nat) (v : Word) : State :=
  let a := a / 4 * 4
  if s.resetting.isSome then s
  else if a < addrIdent then s.writeMemWord a v
  else if a < addrControl then s
  else if a < addrCause then s.writeControl v
  else if a < addrMask then s.writeCause v
  else if a < addrPost then s.writeMask v
  else if a < addrUnmapped then s.writePost v
  else s.raise .stray

/-- R183: the complete words of a write transfer, one after another. -/
def State.hostWriteWords (s : State) (ws : List (Nat × Word)) : State :=
  ws.foldl (fun s w => s.hostWriteWord w.1 w.2) s

/-! ### Transfers -/

/-- R183: the command that the bytes shifted in between a fall and the rise of CSN spell. The first is the command byte,
the next two are the start address, most significant first. Of a read only the number of its later bytes counts. A
transfer that ends before its address is complete spells none; one with an illegal command byte needs no address (log
entry 35). -/
def transferCommand (t : Nat) : List Byte → Option Instr
  | [] => none
  | 2#8 :: hi :: lo :: data => some (.hostWordWrite t (hi ++ lo) data)
  | 3#8 :: hi :: lo :: data => some (.read t (hi ++ lo) data.length)
  | command :: rest => if command = 2 ∨ command = 3 then none else some (.illegalCommand t command rest.length)

/-- R183: a transfer that ends at `t` joins the waiting commands (log entries 1, 11, 12). -/
def State.receive (s : State) (t : Nat) (bytes : List Byte) : State :=
  { s with pending := s.pending ++ (transferCommand t bytes).toList }

/-! ### Reads -/

/-- The word that a read at aligned address `a` takes (R183, R184, 11.3). -/
def State.portWord (s : State) (a : Nat) : Word :=
  if s.resetting.isSome then 0
  else if a < addrIdent then readWord s.mem a
  else if a < addrControl then identValue
  else if a < addrCause then 0
  else if a < addrMask then s.cause
  else if a < addrPost then s.mask
  else 0

/-- The byte that a read shifts out at address `a`: bits 8 × (a mod 4) and up of its word. -/
def State.portByte (s : State) (a : Nat) : Byte := (s.portWord (a / 4 * 4)).extractLsb' (8 * (a % 4)) 8

/-- R183: `length` bytes from `addr` upward, the address wrapping from 0xFFFF to 0. -/
def State.shiftOut (s : State) (addr : Half) (length : Nat) : List Byte :=
  (List.range length).map fun i => s.portByte ((addr.toNat + i) % 65536)

end Sys2Proof.Machine
end

