-- ==== Sys2Proof/Machine/PortFamily.lean ====
section
/-! DEFINITION. The meanings of the host port's commands (chapter 11, R48, R169, R170). Each write row is a host write of
one whole word at its address; HOST_WORD_WRITE is a write transfer. -/
namespace Sys2Proof.Machine

/-- POST (R170). -/
def execPost (t : Nat) (value : Word) (s : State) : Host.Outcome State Fault Refusal :=
  .next (s.quietEvent t fun s => s.hostWriteWord addrPost value)

/-- READ (R183). A read during a reset shifts out 0 (R186). -/
def execRead (t : Nat) (addr : Half) (length : Nat) (s : State) : Host.Outcome State Fault Refusal :=
  let s1 := s.quietEvent t id
  .next { s1 with sdo := s1.shiftOut addr length }

/-- ILLEGAL_COMMAND (R183). The bytes 2 and 3 are the legal commands: the transfer then ended before its address
was complete and has no effect (log entry 35). -/
def execIllegalCommand (t : Nat) (command : Byte) (length : Nat) (s : State) : Host.Outcome State Fault Refusal :=
  let s1 := s.quietEvent t fun s => if command = 2 ∨ command = 3 then s else s.raise .stray
  .next { s1 with sdo := List.replicate length 0 }

/-- HOST_WORD_WRITE (R183, R184). -/
def execHostWordWrite (t : Nat) (addr : Half) (data : List Byte) (s : State) : Host.Outcome State Fault Refusal :=
  .next (s.quietEvent t fun s => s.hostWriteWords (transferWords addr data))

/-- SLOT_WORD_WRITE (R169). -/
def execSlotWordWrite (t : Nat) (slot : SlotNo) (word : Fin 16) (value : Word) (s : State) :
    Host.Outcome State Fault Refusal :=
  .next (s.quietEvent t fun s => s.hostWriteWord (slotAddr slot + 4 * word.val) value)

/-- LATCH_STATE_WRITE (R48). -/
def execLatchStateWrite (t : Nat) (value : Word) (s : State) : Host.Outcome State Fault Refusal :=
  .next (s.quietEvent t fun s => s.hostWriteWord addrLatchState value)

/-- MISSED_KINDS_WRITE (R192). -/
def execMissedKindsWrite (t : Nat) (value : Word) (s : State) : Host.Outcome State Fault Refusal :=
  .next (s.quietEvent t fun s => s.hostWriteWord addrMissedKinds value)

/-- CAUSE_WRITE (R187). -/
def execCauseWrite (t : Nat) (value : Word) (s : State) : Host.Outcome State Fault Refusal :=
  .next (s.quietEvent t fun s => s.hostWriteWord addrCause value)

/-- MASK_WRITE (R187, R188). -/
def execMaskWrite (t : Nat) (value : Word) (s : State) : Host.Outcome State Fault Refusal :=
  .next (s.quietEvent t fun s => s.hostWriteWord addrMask value)

/-- UNMAPPED_WRITE (R184). -/
def execUnmappedWrite (t : Nat) (addr : Half) (value : Word) (s : State) : Host.Outcome State Fault Refusal :=
  .next (s.quietEvent t fun s => s.hostWriteWord addr.toNat value)

end Sys2Proof.Machine
end

