-- ==== Sys2Proof/Machine/RelayFamily.lean ====
section
/-! DEFINITION. The meanings of the relay, close queue and cycle deadlines: PULSE_START, PULSE_END, VERIFY_DEADLINE,
CLOSE_SPACING_ELAPSED, QUEUE_PATIENCE, REST_DEADLINE. A command whose instant has not come changes nothing but the
clock (log entry 3). -/
namespace Sys2Proof.Machine

/-- R83: an aimed pulse starts at its planned start. -/
def State.plannedPulse (s : State) (d : DriverNo) : State :=
  match s.drivers[d] with
  | .aiming job =>
    match s.moves[job.outlet] with
    | .aiming _ _ estimate => if job.plannedStart ≤ s.now then s.startPulse d job estimate else s
    | .none | .waiting _ | .driving _ | .verifying _ => s
  | .free | .driving _ _ => s

/-- PULSE_START (R83). -/
def execPulseStart (t : Nat) (driver : DriverNo) (s : State) : Host.Outcome State Fault Refusal :=
  .next (s.quietEvent t fun s => s.plannedPulse driver)

/-- R83: the pulse width has passed. -/
def State.widthPassed (s : State) (d : DriverNo) : State :=
  match s.drivers[d] with
  | .driving job pulseEnd => if pulseEnd ≤ s.now then s.endPulse d job.outlet else s
  | .free | .aiming _ => s

/-- PULSE_END (R83). -/
def execPulseEnd (t : Nat) (driver : DriverNo) (s : State) : Host.Outcome State Fault Refusal :=
  .next (s.event t fun s => s.widthPassed driver)

/-- R84: a movement in verification reaches its deadline. DESIGN CHOICE, unsafe: a sense report stamped at the window end
itself falls due at this very instant; section 5.4 says that it has been reported by the deadline and gives no order, and
the model takes the two in the order of the queue, so a VERIFY_DEADLINE that stands first ends the pulse unsatisfied (log
entry 48). -/
def State.deadlineReached (s : State) (k : OutletIx) : State :=
  match s.moves[k] with
  | .verifying p => if p.deadline ≤ s.now then s.verifyFailed k p else s
  | .none | .waiting _ | .aiming _ _ _ | .driving _ => s

/-- VERIFY_DEADLINE (R84). -/
def execVerifyDeadline (t : Nat) (outlet : OutletIx) (s : State) : Host.Outcome State Fault Refusal :=
  .next (s.event t fun s => s.deadlineReached outlet)

/-- R110: the spacing of a branch, or the strip's, has elapsed since its last grant instant. -/
def State.spacingOver (s : State) (which : Option Branch) : Bool :=
  match which with
  | none => s.stripGrant.isSome && s.stripSpaced
  | some b => s.loads[b].lastGrant.isSome && s.branchSpaced b

/-- R110, R111: the elapse of a spacing while entries wait triggers a scan. -/
def State.spacingScan (s : State) (which : Option Branch) : State :=
  if s.spacingOver which && !s.queue.isEmpty then { s with scanDue := true } else s

/-- CLOSE_SPACING_ELAPSED (R110, R111). -/
def execCloseSpacingElapsed (t : Nat) (which : Option Branch) (s : State) : Host.Outcome State Fault Refusal :=
  .next (s.event t fun s => s.spacingScan which)

/-- R113: the outlet's entry, if its patience has run out, is removed. -/
def State.patienceAt (s : State) (k : OutletIx) : State :=
  match s.queue.find? fun e => e.outlet == k with
  | none => s
  | some e => if s.patienceOver e then s.expire e else s

/-- QUEUE_PATIENCE (R113). -/
def execQueuePatience (t : Nat) (outlet : OutletIx) (s : State) : Host.Outcome State Fault Refusal :=
  .next (s.event t fun s => s.patienceAt outlet)

/-- R139: a record in RESTING has reached its rest deadline. -/
def State.restOver (s : State) (c : RecNo) : State :=
  if s.cycles[c].state = .resting ∧ s.cycles[c].restDeadline.any (· ≤ s.now) then settle (s.enterClosing c) else s

/-- REST_DEADLINE (R139). -/
def execRestDeadline (t : Nat) (record : RecNo) (s : State) : Host.Outcome State Fault Refusal :=
  .next (s.event t fun s => s.restOver record)

end Sys2Proof.Machine
end

