-- ==== Sys2Proof/Machine/ResetFamily.lean ====
section
/-! DEFINITION. The meanings of the reset commands (R186, R193, R194). -/
namespace Sys2Proof.Machine

/-- POWER_ON_RESET (R193). A power-on reset that begins during another reset replaces it (log entry 19). -/
def execPowerOnReset (s : State) : Host.Outcome State Fault Refusal := .next (s.beginReset .powerOn)

/-- PIN_RESET (R194). -/
def execPinReset (s : State) : Host.Outcome State Fault Refusal := .next (s.beginReset .pin)

/-- SOFT_RESET (R186): a host write of a word to CONTROL. -/
def execSoftReset (t : Nat) (value : Word) (s : State) : Host.Outcome State Fault Refusal :=
  .next (s.quietEvent t fun s => s.hostWriteWord addrControl value)

/-- END_OF_RESET (R193, R194): the reset in course ends; with none in course nothing happens (log entry 3). -/
def execEndOfReset (s : State) : Host.Outcome State Fault Refusal :=
  match s.resetting with
  | none => .next s
  | some kind => .next (s.afterReset kind)

end Sys2Proof.Machine
end

