-- ==== Sys2Proof/Machine/Dispatch.lean ====
section
/-! DEFINITION. One arm per command: each calls the meaning of its row. -/
namespace Sys2Proof.Machine

def exec (i : Instr) (s : State) : Host.Outcome State Fault Refusal :=
  match i with
  | .powerOnReset => Sys2Proof.Machine.execPowerOnReset s
  | .pinReset => Sys2Proof.Machine.execPinReset s
  | .softReset t v => Sys2Proof.Machine.execSoftReset t v s
  | .endOfReset => Sys2Proof.Machine.execEndOfReset s
  | .sample t codes => Sys2Proof.Machine.execSample t codes s
  | .rawSenseChange t outlet level => Sys2Proof.Machine.execRawSenseChange t outlet level s
  | .senseChange t outlet => Sys2Proof.Machine.execSenseChange t outlet s
  | .zeroCrossing t phase polarity => Sys2Proof.Machine.execZeroCrossing t phase polarity s
  | .phaseDead t phase => Sys2Proof.Machine.execPhaseDead t phase s
  | .frameClose t => Sys2Proof.Machine.execFrameClose t s
  | .framePublication t => Sys2Proof.Machine.execFramePublication t s
  | .frameFlip t => Sys2Proof.Machine.execFrameFlip t s
  | .closeSpacingElapsed t which => Sys2Proof.Machine.execCloseSpacingElapsed t which s
  | .queuePatience t outlet => Sys2Proof.Machine.execQueuePatience t outlet s
  | .pulseStart t driver => Sys2Proof.Machine.execPulseStart t driver s
  | .pulseEnd t driver => Sys2Proof.Machine.execPulseEnd t driver s
  | .verifyDeadline t outlet => Sys2Proof.Machine.execVerifyDeadline t outlet s
  | .restDeadline t record => Sys2Proof.Machine.execRestDeadline t record s
  | .post t value => Sys2Proof.Machine.execPost t value s
  | .slotDrop t => Sys2Proof.Machine.execSlotDrop t s
  | .orderKindRefused t => Sys2Proof.Machine.execOrderKindRefused t s
  | .switchOn t => Sys2Proof.Machine.execSwitchOn t s
  | .switchOff t => Sys2Proof.Machine.execSwitchOff t s
  | .cycle t => Sys2Proof.Machine.execCycle t s
  | .cancelCycle t => Sys2Proof.Machine.execCancelCycle t s
  | .clearFault t => Sys2Proof.Machine.execClearFault t s
  | .clearEnergy t => Sys2Proof.Machine.execClearEnergy t s
  | .latchEnergy t => Sys2Proof.Machine.execLatchEnergy t s
  | .rearmWatch t => Sys2Proof.Machine.execRearmWatch t s
  | .read t addr length => Sys2Proof.Machine.execRead t addr length s
  | .illegalCommand t command length => Sys2Proof.Machine.execIllegalCommand t command length s
  | .hostWordWrite t addr data => Sys2Proof.Machine.execHostWordWrite t addr data s
  | .slotWordWrite t slot word value => Sys2Proof.Machine.execSlotWordWrite t slot word value s
  | .latchStateWrite t value => Sys2Proof.Machine.execLatchStateWrite t value s
  | .missedKindsWrite t value => Sys2Proof.Machine.execMissedKindsWrite t value s
  | .causeWrite t value => Sys2Proof.Machine.execCauseWrite t value s
  | .maskWrite t value => Sys2Proof.Machine.execMaskWrite t value s
  | .unmappedWrite t addr value => Sys2Proof.Machine.execUnmappedWrite t addr value s
  | .partTimeRewrite t => Sys2Proof.Machine.execPartTimeRewrite t s

end Sys2Proof.Machine
end

