-- ==== Sys2Proof/Safety.lean ====
section
/-! DEFINITION. The terms of the claims: the invariants of a safe run, the areas of exchange memory, and what a command may leave
as it was. -/
namespace Sys2Proof.Safety

open Sys2Proof.Machine

/-! ### Invariants -/

/-- Bits 6 to 31 of CAUSE and MASK read 0 (11.3). -/
def reservedClear (s : State) : Prop := s.cause &&& ~~~causeBits = 0 ∧ s.mask &&& ~~~causeBits = 0

/-- R32, R33: a counter of 48 bits and a residue below one joule. -/
def energyInRange (m : MeterOutlet) : Prop := m.energy ≤ energyLimit ∧ m.residue < 1000000

/-- R86: both estimates lie within 2,000 to 30,000 µs. -/
def estimatesInRange (o : Outlet) : Prop :=
  (2000 ≤ o.closeEst ∧ o.closeEst ≤ 30000) ∧ (2000 ≤ o.openEst ∧ o.openEst ≤ 30000)

/-- R9 to R12: the frame in progress has the timebase's state, and a lock is pending in FREE_RUN alone. -/
def timebaseAgrees (tb : Timebase) : Prop := tb.frameState = tb.state ∧ (tb.lockPending = true → tb.state = .freeRun)

/-- R185: the guarded record at `a` shows `body`, word by word, with one count in the low half of the first word and in
the high half of the last. -/
def recordShown (m : Mem) (a : Nat) (body : List Nat) : Prop :=
  ∃ count : Half, ∀ i, (h : i < body.length) → readWord m (a + 4 * i) = BitVec.ofNat 32
    (body[i] + (if i = 0 then count.toNat else 0) + (if i + 1 = body.length then 65536 * count.toNat else 0))

/-- R74, R116, R150, R167: every guarded record shows the record of its block; what stands for an empty rest time and for
the target of a clear UNVERIFIED is log entry 51. -/
structure RecordsShown (s : State) : Prop where
  outlets : ∀ k : OutletIx, recordShown s.mem (0x0B00 + 32 * k.val) (outletBody s.outlets[k])
  watches : ∀ w : WatchNo, recordShown s.mem (0x1100 + 16 * w.val) (watchBody s.watches[w])
  cycles : ∀ c : RecNo, recordShown s.mem (0x1280 + 32 * c.val) (cycleBody s.cycles[c])
  branches : ∀ b : Branch, recordShown s.mem (0x1480 + 16 * b.val) (branchBody s.loads[b] s.shed[b])

/-- What every step keeps. The records are shown while no reset is in course. -/
structure Inv (s : State) : Prop where
  memory : MemWf s.mem
  registers : reservedClear s
  energies : ∀ k : OutletIx, energyInRange s.meter[k]
  estimates : ∀ k : OutletIx, estimatesInRange s.outlets[k]
  timebase : timebaseAgrees s.tb
  records : s.resetting = none → RecordsShown s
  fifo : s.fifo.Nodup
  noScanDue : s.scanDue = false

/-! ### The control of the outlets (chapters 04 to 08) -/

/-- The direction of the movement that an outlet's state carries out (R52). -/
def movingDir : OutletState → Option Dir
  | .closing => some .toClosed
  | .opening => some .toOpen
  | .off | .awaitClose | .on | .resting | .fault | .unknown => none

/-- The direction of a movement record (section 5.1). -/
def moveDir : Movement → Option Dir
  | .none => none
  | .waiting d | .aiming d _ _ => some d
  | .driving p | .verifying p => some p.dir

/-- The movement has been given a driver (R78). -/
def moveStarted : Movement → Bool
  | .none | .waiting _ => false
  | .aiming _ _ _ | .driving _ | .verifying _ => true

/-- The movement holds a driver (section 5.1). -/
def moveDriven : Movement → Bool
  | .aiming _ _ _ | .driving _ => true
  | .none | .waiting _ | .verifying _ => false

/-- The movement waits for a driver (R76). -/
def moveWaits : Movement → Bool
  | .waiting _ => true
  | .none | .aiming _ _ _ | .driving _ | .verifying _ => false

/-- The outlet that a driver is assigned to. -/
def driverOutlet : Driver → Option OutletIx
  | .free => none
  | .aiming job | .driving job _ => some job.outlet

/-- What a driver holds agrees with the movement record of its outlet (R78, R83). -/
def driverAgrees (x : Driver) (moves : Vector Movement 48) : Prop :=
  match x with
  | .free => True
  | .aiming job => match moves[job.outlet] with
    | .aiming d p _ => d = job.dir ∧ p = job.phase
    | .none | .waiting _ | .driving _ | .verifying _ => False
  | .driving job stop => match moves[job.outlet] with
    | .driving p => p.dir = job.dir ∧ p.phase = job.phase ∧ p.start + job.width = stop
    | .none | .waiting _ | .aiming _ _ _ | .verifying _ => False

/-- A pending request stands in the states that hold one, and is against the movement in course (R54). -/
def pendingAgrees (o : Outlet) : Prop :=
  match o.pending with
  | none => True
  | some (.opn _) => o.state = .closing
  | some (.cls _ _) => o.state = .opening

/-- How the outlets, the relay driver, the close queue, the reservations and the cycle table agree. -/
structure Control (s : State) : Prop where
  /-- An outlet has a movement exactly in CLOSING and OPENING, in that direction (R52, section 5.1). -/
  moving : ∀ k : OutletIx, moveDir s.moves[k] = movingDir s.outlets[k].state
  /-- A request being carried out, and none else, has a current owner (section 4.1). -/
  owned : ∀ k : OutletIx, s.outlets[k].owner ≠ none ↔
    s.outlets[k].state = .awaitClose ∨ s.outlets[k].state = .closing ∨ s.outlets[k].state = .opening
  pending : ∀ k : OutletIx, pendingAgrees s.outlets[k]
  /-- R78: an assignment clears UNVERIFIED. -/
  unverified : ∀ k : OutletIx, moveStarted s.moves[k] = true → s.outlets[k].unverified = none
  /-- R72: the marker stands on ON outlets alone. -/
  wholeFrame : ∀ k : OutletIx, s.outlets[k].wholeFrame = true → s.outlets[k].state = .on
  /-- R68, R70, R71: a fault kind is held in FAULT alone. -/
  faultKind : ∀ k : OutletIx, s.outlets[k].faultKind ≠ none ↔ s.outlets[k].state = .fault
  /-- R105: by class, then by arrival. -/
  queueOrder : s.queue.Pairwise fun x y => x.cls < y.cls ∨ x.cls = y.cls ∧ x.arrival < y.arrival
  queueArrivals : (s.queue.map (·.arrival)).Nodup ∧ ∀ e ∈ s.queue, e.arrival < s.nextArrival
  /-- R105: one entry for each outlet in AWAIT_CLOSE, of its current owner (R107). -/
  queueOutlets : (s.queue.map (·.outlet)).Nodup
  queued : ∀ k : OutletIx, k ∈ s.queue.map (·.outlet) ↔ s.outlets[k].state = .awaitClose
  queueOwners : ∀ e ∈ s.queue, s.outlets[e.outlet].owner = some e.owner
  /-- R78: a driver serves one movement, and a movement one driver. -/
  drivers : ∀ d : DriverNo, driverAgrees s.drivers[d] s.moves
  driven : ∀ k : OutletIx, moveDriven s.moves[k] = true → ∃ d : DriverNo, driverOutlet s.drivers[d] = some k
  oneDriver : ∀ d e : DriverNo, driverOutlet s.drivers[d] = driverOutlet s.drivers[e] → s.drivers[d] ≠ .free → d = e
  /-- R76: one entry for each movement that waits for a driver. -/
  waitOutlets : (s.waitList.map (·.outlet)).Nodup
  waitMoves : ∀ w ∈ s.waitList, s.moves[w.outlet] = .waiting w.dir
  waiting : ∀ k : OutletIx, moveWaits s.moves[k] = true → k ∈ s.waitList.map (·.outlet)
  /-- R77: a FREE driver and a waiting entry never stand together. -/
  noIdleDriver : s.waitList ≠ [] → ∀ d : DriverNo, s.drivers[d] ≠ .free
  /-- R103: a reservation is held from the grant, at the longest while the outlet is ON. -/
  reserved : ∀ b : Branch, ∀ r ∈ s.loads[b].reservations, s.outlets[r.1].state = .closing ∨ s.outlets[r.1].state = .on
  granted : ∀ k : OutletIx, s.outlets[k].state = .closing → ∃ b : Branch, k ∈ s.loads[b].reservations.map (·.1)
  /-- R132: the memberships are the participants of the records. -/
  members : ∀ (k : OutletIx) (c : RecNo), s.outlets[k].cycle = some c ↔ k ∈ s.cycles[c].participants
  participants : ∀ c : RecNo, s.cycles[c].participants.Nodup
  /-- R145: every field of a FREE record is empty. -/
  freeRecords : ∀ c : RecNo, s.cycles[c].state = .free → s.cycles[c] = CycleRec.free
  /-- R55, R132, R137: only the record that its membership names moves a participant. -/
  memberOwners : ∀ (k : OutletIx) (c : RecNo), s.outlets[k].cycle = some c →
    (∀ w, s.outlets[k].owner = some w → w = .cycle c) ∧ ∀ q, s.outlets[k].pending = some q → q.owner = .cycle c
  /-- R66, R139: an outlet rests for a record that opens or rests. -/
  resting : ∀ k : OutletIx, s.outlets[k].state = .resting → ∃ c : RecNo, s.outlets[k].cycle = some c ∧
    (s.cycles[c].state = .opening ∨ s.cycles[c].state = .resting)

/-! ### Areas of exchange memory (11.2, 11.6) -/

/-- The `len` bytes from address `lo`. -/
def within (lo len a : Nat) : Bool := decide (lo ≤ a) && decide (a < lo + len)

/-- The part-written bytes of the order slots: the state word, and the words from 0x18 (R172, R180). -/
def slotPartBytes (a : Nat) : Bool := slotArea a && (decide ((a - 0x1500) % 64 < 4) || decide (0x18 ≤ (a - 0x1500) % 64))

/-- What filing a notice may change: the write count, the missed kinds and the log (R191). -/
def noticeBytes (a : Nat) : Bool := within addrWriteCount 8 a || within 0x2D00 0x1000 a

/-- What the blocks write apart from the guarded records: notices and the results of orders. -/
def blockBytes (a : Nat) : Bool := noticeBytes a || slotPartBytes a

/-- The guarded records (R185). -/
def guardedBytes (a : Nat) : Bool := within 0x0B00 0x9E0 a

/-- The words that belong to the host at every time (R184): HOLD, the read mark, the settings regions, the scratch
area and the host part of the latch area. -/
def hostBytes (a : Nat) : Bool := within addrHold 8 a || hostOwnedArea a

/-- What a close of a frame may write: the blocks' words and records, the latch state and the settings status of the
header, and the part's words of the latch area (R47, R190). -/
def closeBytes (a : Nat) : Bool :=
  blockBytes a || guardedBytes a || within addrLatchState 4 a || within addrSettingsStatus 4 a || within 0x2B00 0x188 a

/-- What a host write may change (R184): the host's bytes, the host-written words of the slots, and the two header words
that the part writes as well. -/
def hostWriteBytes (a : Nat) : Bool :=
  hostBytes a || (slotArea a && decide ((a - 0x1500) % 64 < 0x18)) || within addrMissedKinds 8 a

/-! ### Groups of commands -/

end Sys2Proof.Safety

namespace Sys2Proof

open Sys2Proof.Machine Sys2Proof.Safety

/-- The write rows that carry an address of their own, so that the word may be any. -/
def Instr.anyHostWrite : Instr → Bool
  | .hostWordWrite _ _ _ | .unmappedWrite _ _ _ => true
  | _ => false

/-- The word a write row names. -/
def Instr.namedWord : Instr → Option Nat
  | .softReset _ _ => some 0x4004
  | .causeWrite _ _ => some 0x4008
  | .maskWrite _ _ => some 0x400C
  | .post _ _ => some 0x4010
  | .latchStateWrite _ _ => some addrLatchState
  | .missedKindsWrite _ _ => some addrMissedKinds
  | .slotWordWrite _ slot word _ => some (slotAddr slot + 4 * word.val)
  | _ => none

/-- The rows in which a frame can close (R8). -/
def Instr.closes : Instr → Bool
  | .frameClose _ | .zeroCrossing _ _ _ | .phaseDead _ _ => true
  | _ => false

def Instr.samples : Instr → Bool
  | .sample _ _ => true
  | _ => false

def Instr.senses : Instr → Bool
  | .rawSenseChange _ _ _ | .senseChange _ _ => true
  | _ => false

/-- The rows that take the head of the intake FIFO (R171). -/
def Instr.takes : Instr → Bool
  | .slotDrop _ | .orderKindRefused _ | .switchOn _ | .switchOff _ | .cycle _ | .cancelCycle _ | .clearFault _
  | .clearEnergy _ | .latchEnergy _ | .rearmWatch _ => true
  | _ => false

def Instr.publishes : Instr → Bool
  | .framePublication _ | .frameFlip _ | .latchEnergy _ => true
  | _ => false

/-- The rows whose transfer shifts bytes out (R183). -/
def Instr.shifts : Instr → Bool
  | .read _ _ _ | .illegalCommand _ _ _ => true
  | _ => false

/-- The rows whose event leaves the outlets, the relay driver, the close queue, the shed monitor, the cycles and the watches
as they are: the port's rows but the resets and transfers, samples, raw senses, publication, part time, and the takes that
reach no outlet. -/
def Instr.sparesControl : Instr → Bool
  | .sample _ _ | .rawSenseChange _ _ _ | .framePublication _ | .frameFlip _ | .partTimeRewrite _
  | .post _ _ | .slotDrop _ | .read _ _ _ | .illegalCommand _ _ _ | .slotWordWrite _ _ _ _ | .latchStateWrite _ _
  | .missedKindsWrite _ _ | .causeWrite _ _ | .maskWrite _ _ | .orderKindRefused _ | .clearEnergy _
  | .latchEnergy _ => true
  | _ => false

/-- The rows that may raise no cause. -/
def Instr.raisesNothing : Instr → Bool
  | .sample _ _ | .rawSenseChange _ _ _ | .pulseStart _ _ | .framePublication _ | .partTimeRewrite _ | .read _ _ _
  | .maskWrite _ _ | .missedKindsWrite _ _ | .softReset _ _ | .pinReset | .powerOnReset | .closeSpacingElapsed _ _ => true
  | _ => false

end Sys2Proof

namespace Sys2Proof.Safety

open Sys2Proof.Machine

/-- The bytes of exchange memory that a command may write. -/
def writtenBytes (i : Instr) (a : Nat) : Bool :=
  match i with
  | .powerOnReset | .endOfReset => true
  | .pinReset | .softReset _ _ | .sample _ _ | .rawSenseChange _ _ _ | .pulseStart _ _ | .post _ _ | .slotDrop _
  | .read _ _ _ | .illegalCommand _ _ _ | .causeWrite _ _ | .maskWrite _ _ => false
  | .senseChange _ _ | .closeSpacingElapsed _ _ | .queuePatience _ _ | .pulseEnd _ _ | .verifyDeadline _ _
  | .restDeadline _ _ | .orderKindRefused _ | .switchOn _ | .switchOff _ | .cycle _ | .cancelCycle _ | .clearFault _
  | .clearEnergy _ | .rearmWatch _ => blockBytes a || guardedBytes a
  | .latchEnergy _ => blockBytes a || guardedBytes a || within addrLatchState 4 a
  | .frameClose _ | .zeroCrossing _ _ _ | .phaseDead _ _ => closeBytes a
  | .framePublication _ => within 0x1D00 0x6B4 a || within 0x2400 0x6B4 a
  | .frameFlip _ => within addrPubIndex 8 a || within addrTimebase 4 a
  | .partTimeRewrite _ => within addrPartTime 4 a
  | .hostWordWrite _ _ _ => hostWriteBytes a
  | .unmappedWrite _ addr _ => decide (addr.toNat < 0x4014) && hostWriteBytes a
  | .slotWordWrite _ slot word _ => decide (word.val < 6) && within (slotAddr slot + 4 * word.val) 4 a
  | .latchStateWrite _ _ => within addrLatchState 4 a
  | .missedKindsWrite _ _ => within addrMissedKinds 4 a

/-! ### Frames -/

/-- Every byte outside `p` reads as before. -/
def sameBytesOutside (p : Nat → Bool) (m m' : Mem) : Prop := ∀ a, p a = false → readByte m' a = readByte m a

/-- What no event changes in the queue of commands, the reset, the port's mask and shifted bytes. -/
def samePort (s u : State) : Prop :=
  u.pending = s.pending ∧ u.resetting = s.resetting ∧ u.mask = s.mask ∧ u.sdo = s.sdo

/-- What an event that comes neither from the port nor from the sense inputs leaves as it was. -/
def sameInputs (s u : State) : Prop := samePort s u ∧ u.sense = s.sense ∧ u.fifo = s.fifo

/-- The front end, the timebase, the meter engine, the publisher, the settings in force and the count of free
choices. -/
def sameMeasuring (s u : State) : Prop :=
  u.sense = s.sense ∧ u.phases = s.phases ∧ u.tb = s.tb ∧ u.meter = s.meter ∧ u.meterV = s.meterV ∧ u.pub = s.pub ∧
    u.work = s.work ∧ u.choices = s.choices

/-- The outlets, the relay driver, the close scheduler, the shed monitor, the cycle table, the watch table and the
order table. -/
def sameControl (s u : State) : Prop :=
  u.outlets = s.outlets ∧ u.drivers = s.drivers ∧ u.waitList = s.waitList ∧ u.moves = s.moves ∧ u.loads = s.loads ∧
    u.stripGrant = s.stripGrant ∧ u.queue = s.queue ∧ u.nextArrival = s.nextArrival ∧ u.shed = s.shed ∧
    u.cycles = s.cycles ∧ u.watches = s.watches ∧ u.orders = s.orders

/-- The 64 bytes of slot `e` (section 10.1). -/
def slotBytes (e : SlotNo) (a : Nat) : Bool := within (slotAddr e) 64 a

/-! ### Notices (R191) -/

/-- The notices filed since the read mark, as the host wrote it. -/
def logUsed (m : Mem) : Nat := (readWord m addrWriteCount - readWord m addrReadMark).toNat

/-- The log holds the notice of sequence `q` (11.6). -/
def logEntry (m : Mem) (q : Word) (kind : NoticeKind) (subject reason : Nat) (stamp value : Word) : Prop :=
  let a := 0x2D00 + 16 * (q.toNat % 256)
  readWord m a = q ∧ readWord m (a + 4) = BitVec.ofNat 32 (kind.code + 256 * reason + 65536 * subject) ∧
    readWord m (a + 8) = stamp ∧ readWord m (a + 12) = value

/-! ### Orders (R179, R180) -/

/-- R180: what slot `e` shows once its order has finished with `r` at part time `finish`. -/
def slotShows (m : Mem) (e : SlotNo) (r : OrderResult) (finish : Word) : Prop :=
  slotState m e = (if r.outcome = .refused then 4 else 3) ∧
  readWord m (slotAddr e + 0x18) = BitVec.ofNat 32 (r.outcome.code + 256 * optCode Reason.code r.reason +
    65536 * optCode numberOf r.detail + 2 ^ 24 * (match r.record with | none => 255 | some c => c.val)) ∧
  (∀ i : Fin 3, ∀ set, [r.doneSet, r.failedSet, r.skippedSet][i]? = some set →
    readWord m (slotAddr e + 0x1C + 8 * i.val) = BitVec.ofNat 32 (outletMap set % 2 ^ 32) ∧
    readWord m (slotAddr e + 0x20 + 8 * i.val) = BitVec.ofNat 32 (outletMap set / 2 ^ 32)) ∧
  readWord m (slotAddr e + 0x38) = finish

/-- R180: the order of slot `e` has finished with `r`. -/
def orderFinished (u : State) (e : SlotNo) (r : OrderResult) : Prop :=
  u.orders[e] = none ∧ slotShows u.mem e r (partOf u.now) ∧ u.cause &&& 4#32 = 4#32

/-- R179: the members of an order once member `k`, if it stood open, has been answered `r`. -/
def answered (ms : List (OutletIx × Option MemberOutcome)) (k : OutletIx) (r : MemberOutcome) :
    List (OutletIx × Option MemberOutcome) :=
  ms.map fun m => if m.1 = k ∧ m.2 = none then (k, some r) else m

/-- R179: the order of slot `e` has received `r` for its member `k`, and has finished if that was its last. -/
def orderAnswered (s u : State) (e : SlotNo) (k : OutletIx) (r : MemberOutcome) : Prop :=
  ∀ entry, s.orders[e] = some entry →
    let ms := answered entry.members k r
    ((∃ m ∈ ms, m.2 = none) → u.orders[e] = some { entry with members := ms } ∧
      ∀ a, slotBytes e a = true → readByte u.mem a = readByte s.mem a) ∧
    ((∀ m ∈ ms, m.2 ≠ none) → orderFinished u e (membersResult ms))

/-- R179: the result of an order over `ms`, each member `k` of which was answered `r k`. -/
def resultOf (ms : List OutletIx) (r : OutletIx → MemberOutcome) : OrderResult :=
  let bad := ms.filter fun k => r k ≠ .ok
  { outcome := if bad = [] then .done else if ∃ k ∈ ms, r k = .ok then .partly else .failed
    reason := bad.head?.map fun k => .member (r k)
    detail := bad.head?
    record := none
    doneSet := ms.filter fun k => r k = .ok
    failedSet := ms.filter fun k => r k ≠ .ok ∧ r k ≠ .skipped
    skippedSet := ms.filter fun k => r k = .skipped }

/-- R179: the result of an order whose one member `k` was answered `r`. -/
def loneResult (k : OutletIx) (r : MemberOutcome) : OrderResult := resultOf [k] fun _ => r

/-- R55, R56, R61, R62: the outcome that an order's CLOSE is given at once. -/
def closeAnswer (o : Outlet) : Option MemberOutcome :=
  if o.cycle ≠ none then some .inCycle
  else match o.state with
    | .on => some .ok
    | .resting => some .inCycle
    | .fault => some .faulted
    | .unknown => some .unknownState
    | .off | .awaitClose | .closing | .opening => none

/-- R55, R56, R61, R62: the outcome that an order's OPEN is given at once, where the outlet stays as it is. -/
def openAnswer (o : Outlet) : Option MemberOutcome :=
  if o.cycle ≠ none then some .inCycle
  else match o.state with
    | .off => some .ok
    | .resting => some .inCycle
    | .fault => some .faulted
    | .unknown => some .unknownState
    | .awaitClose | .closing | .on | .opening => none

/-- `w` owns the request being carried out (section 4.1). -/
def ownedBy (o : Outlet) (w : Owner) : Prop := o.owner = some w

/-- `w` owns the pending request (R54). -/
def pendingOf (o : Outlet) (w : Owner) : Prop := ∃ q, o.pending = some q ∧ q.owner = w

/-- R53 to R55, R62: the order of slot `e`, taken from the head of the FIFO at `now`, has asked outlet `k` alone, and the
request has moved nothing: the outlet's record is `o`, the queue `queue`, the shed mark is cleared, the owners in
`dropped` receive SUPERSEDED, and the order has its answer `r` or waits for one. -/
structure Requested (s u : State) (now : Nat) (e : SlotNo) (rest : List SlotNo) (k : OutletIx) (r : Option MemberOutcome)
    (o : Outlet) (queue : List QueueEntry) (dropped : Owner → Prop) : Prop where
  frame : u = { s with
    now := now, fifo := rest, queue := queue, outlets := u.outlets, shed := u.shed, orders := u.orders, mem := u.mem
    cause := u.cause }
  outlet : u.outlets[k] = o
  others : ∀ j : OutletIx, j ≠ k → u.outlets[j] = s.outlets[j]
  unmarked : ∀ b : Branch, u.shed[b].list = s.shed[b].list.filter (· ≠ k) ∧
    u.shed[b].round = s.shed[b].round.filter (· ≠ k)
  answer : match r with
    | some r => orderFinished u e (loneResult k r)
    | none => slotState u.mem e = 2 ∧
        u.orders[e] = some { fields := slotFields s.mem e, members := [(k, none)], record := none }
  toDropped : ∀ x, dropped (.order x) → orderAnswered s u x k .superseded
  orders : ∀ j, j ≠ e → ¬dropped (.order j) → u.orders[j] = s.orders[j]
  memory : sameBytesOutside (fun a => blockBytes a || guardedBytes a) s.mem u.mem

/-- What the take of slot `e` asks: the slot stands at the head of the intake FIFO, reads POSTED and holds `kind` (R171,
R172). -/
structure Taken (s : State) (e : SlotNo) (rest : List SlotNo) (kind : OrderKind) : Prop where
  running : s.resetting = none
  memory : MemWf s.mem
  head : s.fifo = e :: rest
  posted : slotState s.mem e = 1
  kind : orderKindOf (slotFields s.mem e).kind = some kind

/-! ### Cycle records (R141, R145) -/

/-- R141: every participant is settled. -/
def allSettled (r : CycleRec) : Prop := ∀ j ∈ r.participants, j ∈ r.closed ∨ j ∈ r.failed ∨ j ∈ r.withdrawn

/-- R141, R145: the record holds `r`, or has ended because every participant of `r` is settled, and is FREE (its empty rest
time is 0: log entry 51). -/
def recordBecomes (u : State) (c : RecNo) (r : CycleRec) : Prop :=
  (allSettled r → u.cycles[c] = CycleRec.free ∧ ∀ j ∈ r.participants, u.outlets[j].cycle = none) ∧
  (¬allSettled r → u.cycles[c] = r)

/-- R141: a participant joins the failed set once, and leaves the closed set. -/
def withFailed (r : CycleRec) (k : OutletIx) : CycleRec :=
  if k ∈ r.failed then r
  else { r with
    failed := r.failed ++ [k]
    closed := r.closed.filter (· != k)
    faultOutlet := match r.faultOutlet with | none => some k | some j => some j }

/-! ### Assignments of a driver (R77, R78, R81, R82) -/

/-- R81: an outlet's own estimate for a direction. -/
def travelEstimate (o : Outlet) : Dir → Nat
  | .toClosed => o.closeEst
  | .toOpen => o.openEst

/-- R78: what a driver holds for the movement of outlet `k` towards `dir`: the phase of the outlet's branch, and the pulse
width and the verify margin of the strip, in µs. -/
def jobFor (s : State) (k : OutletIx) (dir : Dir) (plannedStart : Nat) (timed : Bool) : DriverJob where
  outlet := k
  dir := dir
  phase := phaseOfBranch s.work.outlets[k].branch
  plannedStart := plannedStart
  timed := timed
  width := s.work.strip.pulseWidth * 1000
  margin := s.work.strip.verifyMargin * 1000

/-- R82 to R84: the pulse of `job`, started now, as the movement record holds it. -/
def pulseNow (s : State) (job : DriverJob) : Pulse where
  dir := job.dir
  phase := job.phase
  estimate := travelEstimate s.outlets[job.outlet] job.dir
  start := s.now
  windowEnd := s.now + job.width + job.margin
  deadline := s.now + job.width + job.margin + 2000
  satisfied := if s.sense[job.outlet].level = (job.dir == .toClosed) then .atStart else .no

/-- R78, R81, R82: driver `d` has been assigned to the movement of outlet `k` towards `dir` in state `s`, and `u` shows
what the assignment recorded. On a LIVE phase the pulse is aimed, by the phase's last accepted crossing and half period and
the outlet's estimate for the direction; on a DEAD phase it starts untimed at once. A LIVE phase without a recorded crossing
or half period, which R6 rules out, is taken as a DEAD one (log entry 20). -/
structure Assigned (s u : State) (d : DriverNo) (k : OutletIx) (dir : Dir) : Prop where
  timed : ∀ t0 pol half, s.phases[phaseOfBranch s.work.outlets[k].branch].live = true →
    s.phases[phaseOfBranch s.work.outlets[k].branch].last = some (t0, pol) →
    s.phases[phaseOfBranch s.work.outlets[k].branch].half = some half →
      u.drivers[d] = .aiming
        (jobFor s k dir (aimStart t0 half (travelEstimate s.outlets[k] dir) s.now) true) ∧
      u.moves[k] = .aiming dir (phaseOfBranch s.work.outlets[k].branch) (travelEstimate s.outlets[k] dir)
  untimed : (s.phases[phaseOfBranch s.work.outlets[k].branch].live = true →
      s.phases[phaseOfBranch s.work.outlets[k].branch].last = none ∨
      s.phases[phaseOfBranch s.work.outlets[k].branch].half = none) →
    u.drivers[d] = .driving (jobFor s k dir s.now false) (s.now + s.work.strip.pulseWidth * 1000) ∧
    u.moves[k] = .driving (pulseNow s (jobFor s k dir s.now false))
  /-- R78: the assignment clears UNVERIFIED. -/
  unverified : u.outlets[k].unverified = none

/-- R77: the movement of outlet `k` that needed a driver in `s` has been given one, or waits in the wait list. -/
def Begun (s u : State) (k : OutletIx) (dir : Dir) (retry : Bool) : Prop :=
  (∃ d : DriverNo, Assigned s u d k dir) ∨
    u.moves[k] = .waiting dir ∧ { outlet := k, dir := dir, retry := retry } ∈ u.waitList

/-! ### Movements (R65 to R67, R86) -/

/-- R86: an estimate after a verification. -/
def estimateAfter (old : Nat) : Satisfied → Nat
  | .measured us => (3 * old + max 2000 (min 30000 us)) / 4
  | .no | .atStart => old

/-- The movement of outlet `k` with pulse `q` has completed; `unverified` when its verification was skipped (R67). -/
structure Completed (s u : State) (k : OutletIx) (q : Pulse) (unverified : Bool) : Prop where
  retry : u.outlets[k].retry = false
  closeEst : u.outlets[k].closeEst =
    if q.dir = .toClosed ∧ unverified = false then estimateAfter s.outlets[k].closeEst q.satisfied else s.outlets[k].closeEst
  openEst : u.outlets[k].openEst =
    if q.dir = .toOpen ∧ unverified = false then estimateAfter s.outlets[k].openEst q.satisfied else s.outlets[k].openEst
  lastChange : u.outlets[k].lastChange = partOf u.now
  pendingDone : u.outlets[k].pending = none
  /-- R65: without an OPEN pending the outlet is ON. -/
  closes : q.dir = .toClosed → s.outlets[k].pending = none →
    u.outlets[k].state = .on ∧ u.outlets[k].owner = none ∧ u.moves[k] = .none ∧ u.outlets[k].peakSeen = false ∧
      u.outlets[k].wholeFrame = false ∧ u.outlets[k].unverified = (if unverified then some .toClosed else none)
  /-- R65: a pending OPEN starts in the same event. -/
  closesThenOpens : q.dir = .toClosed → ∀ w, s.outlets[k].pending = some (.opn w) →
    u.outlets[k].state = .opening ∧ u.outlets[k].owner = some w ∧ moveDir u.moves[k] = some .toOpen ∧
      Begun { s with now := u.now, sense := u.sense } u k .toOpen false ∧
      ∀ b : Branch, ∀ r ∈ u.loads[b].reservations, r.1 ≠ k
  /-- R65, R128: the shed mark goes, and with it the places in lists and rounds. -/
  unmarks : q.dir = .toClosed → u.outlets[k].shedMark = false ∧
    ∀ b : Branch, u.shed[b].list = s.shed[b].list.filter (· ≠ k) ∧ u.shed[b].round = s.shed[b].round.filter (· ≠ k) ∧
      u.shed[b].restoring = (s.shed[b].restoring && !(k ∈ s.shed[b].round && u.shed[b].round = []))
  /-- R66: without a CLOSE pending the outlet rests for its record, or is OFF. -/
  opens : q.dir = .toOpen → s.outlets[k].pending = none →
    u.outlets[k].owner = none ∧ u.moves[k] = .none ∧
      u.outlets[k].unverified = (if unverified then some .toOpen else none) ∧
      u.outlets[k].state =
        (if ∃ c : RecNo, s.outlets[k].cycle = some c ∧ s.outlets[k].owner = some (.cycle c) ∧
          (s.cycles[c].state = .opening ∨ s.cycles[c].state = .resting) then .resting else .off)
  /-- R66: a pending CLOSE joins the queue in the same event, where it may be granted. -/
  opensThenCloses : q.dir = .toOpen → ∀ cl w, s.outlets[k].pending = some (.cls cl w) →
    u.outlets[k].owner = some w ∧ (u.outlets[k].state = .closing ∨ u.outlets[k].state = .awaitClose ∧
      ∃ e ∈ u.queue, e.outlet = k ∧ e.cls = cl ∧ e.owner = w ∧ e.instant = u.now)
  /-- R52, R179: an order that owned the movement receives OK. -/
  toOrder : ∀ e, s.outlets[k].owner = some (.order e) → orderAnswered s u e k .ok
  /-- R122, R126: the shed monitor's records change by the mark alone. -/
  toMonitor : q.dir = .toOpen → (∀ b, s.outlets[k].owner ≠ some (.restore b)) → u.shed = s.shed
  /-- R141: a record on its way back counts the participant closed, and ends with its last. -/
  toRecordClosed : q.dir = .toClosed → ∀ c : RecNo, s.outlets[k].owner = some (.cycle c) → k ∈ s.cycles[c].participants →
    (s.cycles[c].state = .closing ∨ s.cycles[c].state = .restoring) →
      recordBecomes u c { s.cycles[c] with closed := s.cycles[c].closed ++ [k] }
  /-- R137, R138: the last participant to open begins the rest. -/
  toRecordOpened : q.dir = .toOpen → s.outlets[k].pending = none → ∀ c : RecNo, s.outlets[k].owner = some (.cycle c) →
    k ∈ s.cycles[c].participants → s.cycles[c].state = .opening →
      ((∀ j ∈ s.cycles[c].participants, j ≠ k → s.outlets[j].state = .resting) → u.cycles[c] = { s.cycles[c] with
        state := .resting, restDeadline := some (u.now + s.cycles[c].restTime * 1000) }) ∧
      ((∃ j ∈ s.cycles[c].participants, j ≠ k ∧ s.outlets[j].state ≠ .resting) → u.cycles[c] = s.cycles[c])
  /-- What only a record's end reaches. -/
  others : (∀ c, s.outlets[k].owner ≠ some (.cycle c)) → u.cycles = s.cycles ∧ u.watches = s.watches ∧
    ∀ e : SlotNo, s.outlets[k].owner ≠ some (.order e) → u.orders[e] = s.orders[e]

/-! ### Closes of a frame (R1, R8) -/

/-- R5: the screen passes a crossing. -/
def accepted (x : PhaseStatus) (now : Nat) (pol : Polarity) : Prop :=
  ∀ t0 p0, x.last = some (t0, p0) → pol ≠ p0 ∧ t0 + 2000 ≤ now

/-- R6: the run after an accepted crossing of a DEAD phase. -/
def runAfter (x : PhaseStatus) (now : Nat) : Nat :=
  match x.last with
  | none => 1
  | some (t0, _) => if x.run ≠ 0 ∧ 7700 ≤ now - t0 ∧ now - t0 ≤ 11100 then x.run + 1 else 1

/-- R6: an accepted crossing makes a DEAD phase LIVE. -/
abbrev becomesLive (x : PhaseStatus) (now : Nat) : Prop := x.live = false ∧ runAfter x now = 16

/-- R12: a rising crossing of L1 at `now` finds a lock pending, or makes L1 live in FREE_RUN. -/
def takesLock (s : State) (now : Nat) : Prop :=
  s.tb.lockPending = true ∨ becomesLive s.phases[(0 : Phase)] now ∧ s.tb.state = .freeRun

/-- R8: the command closes the frame in progress, at `now`: a FREE_RUN frame that has run its time (R9), the loss of lock
(R11), the gain of lock (R12), or the last cycle of a LOCKED frame (R10). -/
def closesFrame (s : State) (now : Nat) (i : Instr) : Prop :=
  match i with
  | .frameClose t => now = max s.now t ∧ s.tb.frameState = .freeRun ∧ s.tb.openInstant + 1000000 ≤ now
  | .phaseDead t p => now = max s.now t ∧ p = 0 ∧ s.phases[(0 : Phase)].live = true ∧
      (∃ d ≤ now, s.phases[(0 : Phase)].deadline = some d) ∧ s.tb.state = .locked
  | .zeroCrossing t p pol => now = max s.now t ∧ p = 0 ∧ pol = .rising ∧ accepted s.phases[(0 : Phase)] now .rising ∧
      s.tb.openInstant < now ∧
      (takesLock s now ∨ s.tb.frameState = .locked ∧ s.tb.cycles + 1 = s.tb.cycleSetting)
  | _ => False

/-- R1: the sample taken at the instant of a close is the first of the frame that opens. -/
def nextFramesSample (s : State) (now : Nat) : Option LastSample := s.tb.lastSample.filter (·.instant == now)

/-- The sample count of a frame that closes at `now`. -/
def samplesAtClose (s : State) (now : Nat) : Nat :=
  match nextFramesSample s now with
  | none => s.tb.sampleCount
  | some l => l.count

/-- The window of outlet `k` of a frame that closes at `now`. -/
def windowAtClose (s : State) (now : Nat) (k : OutletIx) : Window :=
  match nextFramesSample s now with
  | none => { sii := s.meter[k].sii, svi := s.meter[k].svi, clip := s.meter[k].clip }
  | some l => l.windows[k]

/-- The window of phase `p` of a frame that closes at `now`. -/
def phaseAtClose (s : State) (now : Nat) (p : Phase) : MeterPhase :=
  match nextFramesSample s now with
  | none => s.meterV[p]
  | some l => l.windowsV[p]

/-- R8, R189, R34, R47: `v` is the state in which the blocks begin their work at a close of `s` at `now`: the frame is
numbered, the settings are taken if HOLD allows it, the next frame is open, and the latch and the cleared counters are
answered, before the outlet controller's work (log entry 8). Nothing else of the control has changed. -/
structure Opened (s v : State) (now : Nat) : Prop where
  same : v = { s with
    now := now, work := s.takeIfAllowed.work, outlets := s.takeIfAllowed.outlets, watches := s.takeIfAllowed.watches
    phases := v.phases, tb := v.tb, meter := v.meter, meterV := v.meterV, pub := v.pub, choices := v.choices, mem := v.mem
    cause := v.cause, orders := v.orders }
  orders : ∀ (e : SlotNo) (entry : OrderEntry), s.orders[e] = some entry → e ∉ s.pub.latchList →
    orderKindOf entry.fields.kind ≠ some .clearEnergy → v.orders[e] = some entry
  memory : sameBytesOutside closeBytes s.mem v.mem

/-- R104: committed load is the measured load and the reserved amounts. -/
def committedLoad (s : State) (b : Branch) : Nat := s.loads[b].measured + (s.loads[b].reservations.map (·.2)).sum

/-- R115 step 4, R119, R154: the last work of a close leads from the first state to the second: one scan of the close
queue, the shed monitor's step on every branch of `bs`, and the examination of every watch of `ws`, the branches and the
watches in the order of their list, in any order beside each other and the scan (log entry 6). The vector holds the
committed loads that the scan has left, once it has been made (R45). -/
inductive LastWork (closed : Settings) (seen : Vector OutletState 48) (res : Vector OutletResult 48) (seq : Word) :
    List Branch → List WatchNo → Option (Vector Nat 6) → State → State → Vector Nat 6 → Prop
  | done (s : State) (loads : Vector Nat 6) : LastWork closed seen res seq [] [] (some loads) s s loads
  | scan (bs : List Branch) (ws : List WatchNo) (s u : State) (loads : Vector Nat 6) :
      LastWork closed seen res seq bs ws (some (tab fun b => committedLoad s.scan b)) s.scan u loads →
      LastWork closed seen res seq bs ws none s u loads
  | shed (b : Branch) (bs : List Branch) (ws : List WatchNo) (handed : Option (Vector Nat 6)) (s u : State)
      (loads : Vector Nat 6) : LastWork closed seen res seq bs ws handed (s.shedBranch closed b) u loads →
      LastWork closed seen res seq (b :: bs) ws handed s u loads
  | watch (bs : List Branch) (w : WatchNo) (ws : List WatchNo) (handed : Option (Vector Nat 6)) (s u : State)
      (loads : Vector Nat 6) : LastWork closed seen res seq bs ws handed (s.examineWatch seen res seq w) u loads →
      LastWork closed seen res seq bs (w :: ws) handed s u loads

/-- R115, R119, R154, R166 and section 4.7: the blocks' work of a close leads from `v`, the state after the opening of the
next frame, to `u`, and hands over the frame `f`: the outlet controller's over all outlets, the close scheduler's, what a
settings take does to the shed monitor and the watches (in this place: log entry 33), the last work, and a scan at its end
where one is due (R111, log entry 7). A watch that this take armed is not examined at this close. -/
def WorkDone (closed : Settings) (f : FrameResult) (v u : State) : Prop :=
  let res := tab fun k => { f.outlets[k] with unverified := false }
  let a := v.outletsWork closed res f.sequence
  let v1 := a.1.schedulerWork closed res a.2
  let v2 := (indices 24).foldl (fun x w => x.takeWatchAt closed w) (v1.shedTake closed)
  let examined := (indices 24).filter fun w => v1.watches[w].state ≠ .disarmed
  (∀ k : OutletIx, f.outlets[k].unverified = a.1.outlets[k].unverified.isSome) ∧
  ∃ (x : State) (loads : Vector Nat 6),
    LastWork closed (tab fun k => a.1.outlets[k].state) res f.sequence (indices 6) examined none v2 x loads ∧
    let y := if x.scanDue then x.scan else x
    sameControl y u ∧ u.cause = y.cause ∧ sameBytesOutside guardedBytes y.mem u.mem ∧
    ∀ b : Branch, f.branches[b] = {
      measured := y.loads[b].measured, committed := loads[b], overload := y.shed[b].overload
      shedding := y.shed[b].thisClose, restoring := y.shed[b].restoring }

/-- R17: a code with its offset removed, within the signed 16-bit range. -/
def correctedCode (code : Half) (offset : Int) : Int := max (-32768) (min 32767 (code.toInt - offset))

/-! ### Settings takes (R21, R97, R98, R118, R120, R152, R190)

What a take reads from the settings record at `a`: the values checked, and the CLAMPED flag. -/

/-- A numeric value in its range. -/
def inRange {α : Type} [LE α] (lo hi v : α) : Prop := lo ≤ v ∧ v ≤ hi

def outletTaken (m : Mem) (k : OutletIx) (x : OutletSettings) (clamped : Bool) : Prop :=
  let a := 0x0100 + 32 * k.val
  let branch := byteAt m a
  (inRange 1 6 branch → x.branch.val + 1 = branch) ∧ (¬inRange 1 6 branch → x.branch.val = k.val / 8) ∧
  x.shedRank = min 7 (byteAt m (a + 1)) ∧ x.groupTag = readByte m (a + 2) ∧
  x.currentOffset = max (-2048) (min 2047 (signedHalfAt m (a + 4))) ∧
  x.currentGain = max 16384 (min 49151 (halfAt m (a + 6))) ∧ x.expectedLoad = min 20000 (halfAt m (a + 8)) ∧
  (clamped = false ↔ inRange 1 6 branch ∧ byteAt m (a + 1) ≤ 7 ∧ inRange (-2048) 2047 (signedHalfAt m (a + 4)) ∧
    inRange 16384 49151 (halfAt m (a + 6)) ∧ halfAt m (a + 8) ≤ 20000)

def branchTaken (m : Mem) (b : Branch) (x : BranchSettings) (clamped : Bool) : Prop :=
  let a := 0x0700 + 16 * b.val
  x.budget = max 1000 (min 32000 (halfAt m a)) ∧ x.closeSpacing = max 100 (min 10000 (halfAt m (a + 2))) ∧
  x.shedLevel = max 1000 (min 40000 (halfAt m (a + 4))) ∧ x.restoreLevel = min (x.shedLevel - 1) (halfAt m (a + 6)) ∧
  x.shedEnable = decide (byteAt m (a + 8) = 1) ∧ x.shedFrames = max 1 (min 10 (byteAt m (a + 9))) ∧
  x.restoreFrames = max 1 (min 60 (byteAt m (a + 10))) ∧
  (clamped = false ↔ inRange 1000 32000 (halfAt m a) ∧ inRange 100 10000 (halfAt m (a + 2)) ∧
    inRange 1000 40000 (halfAt m (a + 4)) ∧ halfAt m (a + 6) < x.shedLevel ∧ byteAt m (a + 8) ≤ 1 ∧
    inRange 1 10 (byteAt m (a + 9)) ∧ inRange 1 60 (byteAt m (a + 10)))

def phaseTaken (m : Mem) (p : Phase) (x : PhaseSettings) (clamped : Bool) : Prop :=
  let a := 0x0760 + 16 * p.val
  x.voltageOffset = max (-2048) (min 2047 (signedHalfAt m a)) ∧
  x.voltageGain = max 16384 (min 49151 (halfAt m (a + 2))) ∧
  (clamped = false ↔ inRange (-2048) 2047 (signedHalfAt m a) ∧ inRange 16384 49151 (halfAt m (a + 2)))

def stripTaken (m : Mem) (x : StripSettings) (clamped : Bool) : Prop :=
  x.frameCycles = max 10 (min 120 (halfAt m 0x790)) ∧
  x.presentLevel = max 50000 (min 200000 (readWord m 0x794).toNat) ∧ x.creepLevel = min 500 (halfAt m 0x798) ∧
  x.pulseWidth = max 5 (min 60 (byteAt m 0x79A)) ∧ x.verifyMargin = max 5 (min 50 (byteAt m 0x79B)) ∧
  x.leakLevel = max 20 (min 2000 (halfAt m 0x79C)) ∧ x.globalSpacing = min 2000 (halfAt m 0x79E) ∧
  x.queuePatience = max 1 (min 3600 (halfAt m 0x7A0)) ∧ x.defaultExpected = min 20000 (halfAt m 0x7A2) ∧
  (clamped = false ↔ inRange 10 120 (halfAt m 0x790) ∧ inRange 50000 200000 (readWord m 0x794).toNat ∧
    halfAt m 0x798 ≤ 500 ∧ inRange 5 60 (byteAt m 0x79A) ∧ inRange 5 50 (byteAt m 0x79B) ∧
    inRange 20 2000 (halfAt m 0x79C) ∧ halfAt m 0x79E ≤ 2000 ∧ inRange 1 3600 (halfAt m 0x7A0) ∧
    halfAt m 0x7A2 ≤ 20000)

def watchTaken (m : Mem) (w : WatchNo) (x : WatchSettings) (clamped : Bool) : Prop :=
  let a := 0x0800 + 32 * w.val
  let entries := ((List.range 8).map fun i => byteAt m (a + 4 + i)).filter (· ≠ 0)
  x.enable = decide (byteAt m a = 1) ∧ (x.action = .cycle ↔ byteAt m (a + 1) = 1) ∧
  (x.members.map fun k => k.val + 1) = (entries.filter (· ≤ 48)).eraseDups ∧
  x.timeout = max 10 (min 3600 (halfAt m (a + 12))) ∧ x.grace = min 3600 (halfAt m (a + 14)) ∧
  x.band = min 10000 (halfAt m (a + 16)) ∧ x.cycleLimit = max 1 (min 7 (byteAt m (a + 18))) ∧
  x.restTime = max 1000 (min 600000 (readWord m (a + 20)).toNat) ∧
  (clamped = false ↔ byteAt m a ≤ 1 ∧ byteAt m (a + 1) ≤ 1 ∧ (∀ v ∈ entries, v ≤ 48) ∧ entries.Nodup ∧
    inRange 10 3600 (halfAt m (a + 12)) ∧ halfAt m (a + 14) ≤ 3600 ∧ halfAt m (a + 16) ≤ 10000 ∧
    inRange 1 7 (byteAt m (a + 18)) ∧ inRange 1000 600000 (readWord m (a + 20)).toNat)

/-- The number of CLAMPED flags that are set. -/
def flagsSet {n : Nat} (f : Fin n → Bool) : Nat := ((indices n).filter f).length

/-! ### Watches (R155 to R157) -/

/-- R157: the member sum moved by at least the band from the reference. -/
def moved (x : WatchRec) (sum band : Nat) : Prop :=
  band ≠ 0 ∧ ∃ r, x.reference = some r ∧ (r + band ≤ sum ∨ sum + band ≤ r)

/-- R157: the reference after an activity test. -/
def referenceAfter (x : WatchRec) (sum band : Nat) : Option Nat :=
  if band = 0 then x.reference
  else match x.reference with
    | none => some sum
    | some r => if r + band ≤ sum ∨ sum + band ≤ r then some sum else some r

/-! ### Exchange memory at the end of a reset (R185, R193, R194) -/

/-- The words of the guarded records in their reset state, both counts 0. The empty rest time of a FREE record's view and
the target bit of a clear UNVERIFIED are 0 (log entry 51). -/
def guardedAtReset (m : Mem) : Prop :=
  (∀ k : OutletIx, (List.range 8).map (fun i => readWord m (0x0B00 + 32 * k.val + 4 * i)) =
    [0x00070000#32, 0, 0x00FF0000#32, 0x0000FFFF#32, 0x17701F40#32, 0, 0, 0]) ∧
  (∀ w : WatchNo, (List.range 4).map (fun i => readWord m (0x1100 + 16 * w.val + 4 * i)) =
    [0x0F800000#32, 0, 0x000FFFFF#32, 0]) ∧
  (∀ c : RecNo, (List.range 8).map (fun i => readWord m (0x1280 + 32 * c.val + 4 * i)) =
    [0xFF000000#32, 0xFFFFFFFF#32, 0, 0, 0, 0, 0, 0]) ∧
  ∀ a, within 0x1480 0x80 a = true → readByte m a = 0

/-- The header and the notice log at the end of a reset: identity, layout version 1, HOLD 1, write count 1, every
other header word 0, and the RESTART notice alone. -/
def headerAtReset (m : Mem) (reason : Nat) : Prop :=
  readWord m 0x00 = 0x00014F48#32 ∧ readWord m 0x04 = 1 ∧ readWord m 0x10 = 1 ∧ readWord m 0x18 = 1 ∧
  (∀ a, within 0x08 8 a || within 0x14 4 a || within 0x1C 0xE4 a → readByte m a = 0) ∧
  readWord m 0x2D00 = 0 ∧ readWord m 0x2D04 = BitVec.ofNat 32 (1 + 256 * reason) ∧
  ∀ a, within 0x2D08 0xFF8 a = true → readByte m a = 0

/-- Both frame buffers and the part's own part of the latch area read 0 (R50). -/
def framesAtReset (m : Mem) : Prop := ∀ a, within 0x1D00 0xF88 a = true → readByte m a = 0

end Sys2Proof.Safety
end

