-- ==== Sys2Proof/Certificates/Slice0/Obligations.lean ====
section
/-! DEFINITION. The statements for the provers. A command that carries an instant moves the clock to the later of the two,
in every statement (`max s.now t`, log entry 2). -/

open Sys2Proof Sys2Proof.Machine Sys2Proof.Safety

/-! ### The queue of commands -/

/-- A step runs the command at the front of the queue on the rest of the queue; an empty queue idles (log entry 1). -/
def Obligations.StepRunsFrontCommand : Prop :=
  ∀ s : State, (∀ c rest, s.pending = c :: rest → step s = exec c { s with pending := rest }) ∧
    (s.pending = [] → step s = .next s)

/-! ### Resets -/

/-- R193: a power-on reset sets every word to 0, and at its end exchange memory and the registers are as in `State.reset`.
That the view of a FREE record shows 0 for its empty rest time, and an outlet's record 0 for the target of a clear
UNVERIFIED, is the model's choice (log entry 51). -/
def Obligations.PowerOnResetImage : Prop :=
  (∀ s : State, ∃ u, exec .powerOnReset s = .next u ∧ ∀ a, readByte u.mem a = 0) ∧
  (guardedAtReset State.reset.mem ∧ headerAtReset State.reset.mem 1 ∧ framesAtReset State.reset.mem ∧
    (∀ a, hostOwnedArea a || slotArea a → readByte State.reset.mem a = 0) ∧
    State.reset.cause = 0x20 ∧ State.reset.mask = 0) ∧
  ∀ s : State, s.resetting = some .powerOn → ∃ u, exec .endOfReset s = .next u ∧ u.mem = State.reset.mem ∧
    u.cause = 0x20 ∧ u.mask = 0 ∧ u.resetting = none

/-- R16, R38, R50, R75, R95, R117, R131, R151, R168, R181: every block after reset. -/
def Obligations.ResetStateOfBlocks : Prop :=
  (∀ k : OutletIx, State.reset.outlets[k].state = .unknown ∧ State.reset.outlets[k].owner = none ∧
    State.reset.outlets[k].pending = none ∧ State.reset.outlets[k].unverified = none ∧
    State.reset.outlets[k].shedMark = false ∧ State.reset.outlets[k].cycle = none ∧
    State.reset.outlets[k].peakOn = none ∧ State.reset.outlets[k].closeEst = 8000 ∧
    State.reset.outlets[k].openEst = 6000 ∧ State.reset.outlets[k].retry = false ∧
    State.reset.sense[k].level = false ∧ State.reset.sense[k].run = none ∧ State.reset.moves[k] = .none ∧
    State.reset.meter[k].energy = 0 ∧ State.reset.meter[k].residue = 0 ∧ State.reset.meter[k].clearReq = false) ∧
  (∀ p : Phase, State.reset.phases[p].live = false ∧ State.reset.phases[p].run = 0 ∧
    State.reset.phases[p].last = none ∧ State.reset.phases[p].present = false) ∧
  (∀ b : Branch, State.reset.loads[b].reservations = [] ∧ State.reset.loads[b].measured = 0 ∧
    State.reset.loads[b].lastGrant = none ∧ State.reset.shed[b].overload = false ∧
    State.reset.shed[b].restoring = false ∧ State.reset.shed[b].list = []) ∧
  (∀ c : RecNo, State.reset.cycles[c].state = .free) ∧ (∀ w : WatchNo, State.reset.watches[w].state = .disarmed) ∧
  (∀ d : DriverNo, State.reset.drivers[d] = .free) ∧ (∀ e : SlotNo, State.reset.orders[e] = none) ∧
  State.reset.fifo = [] ∧ State.reset.queue = [] ∧ State.reset.waitList = [] ∧ State.reset.stripGrant = none ∧
  State.reset.tb.state = .freeRun ∧ State.reset.tb.openInstant = 0 ∧ State.reset.tb.cycleSetting = 50 ∧
  State.reset.tb.sampleCount = 1 ∧ State.reset.tb.lockPending = false ∧ State.reset.now = 0 ∧
  State.reset.pub.index = .bufA ∧ State.reset.pub.sequence = 0 ∧ State.reset.pub.latch = .empty

/-- Every reset stops coil drive and releases ATTN at once, and IDENT reads 0 until its end (R95, R186, R188); a power-on
reset clears exchange memory (R193), the others leave it. The power-on and the pin clause range over states in a reset
too, where the later reset replaces the earlier by the model's choice (log entry 19). -/
def Obligations.ResetBeginsAtOnce : Prop :=
  ∀ s : State,
    (∃ u, exec .powerOnReset s = .next u ∧ u.resetting = some .powerOn ∧ u.mem = [] ∧ (∀ d, u.coil d = none) ∧
      u.attn = false ∧ u.portWord 0x4000 = 0) ∧
    (∃ u, exec .pinReset s = .next u ∧ u.resetting = some .pin ∧ u.mem = s.mem ∧ (∀ d, u.coil d = none) ∧
      u.attn = false ∧ u.portWord 0x4000 = 0) ∧
    (∀ t v, s.resetting = none → v.getLsbD 0 = true →
      ∃ u, exec (.softReset t v) s = .next u ∧ u.resetting = some .soft ∧ u.mem = s.mem ∧ (∀ d, u.coil d = none) ∧
        u.attn = false ∧ u.portWord 0x4000 = 0) ∧
    (∀ t v, s.resetting = none → v.getLsbD 0 = false →
      exec (.softReset t v) s = .next { s with now := max s.now t })

/-- The end of a pin or soft reset leaves every block as after power-on; the raw sense pins, the waiting commands, the
bytes shifted out and the model's count of choices are kept (log entries 1, 6, 11, 14). The first arrival number and the
fields of an L1 cycle in progress restart at values the model names (log entries 49, 50). From canonical memory, a pin or a
soft reset ends with exchange memory as R194 and R181 say; a slot is TAKEN by its whole state word (log entry 27). The empty
rest time of a FREE record and the target bit of a clear UNVERIFIED are 0, by the model's choice (log entry 51). -/
def Obligations.EndOfResetRestarts : Prop :=
  (∀ (s : State) (kind : ResetKind), s.resetting = some kind →
    ∃ u, exec .endOfReset s = .next u ∧
      u = { State.reset with pending := s.pending, mem := u.mem, sdo := s.sdo, sense := u.sense, choices := s.choices } ∧
      ∀ k : OutletIx, u.sense[k] = { raw := s.sense[k].raw, level := false, run := none }) ∧
  ∀ (s u : State) (kind : ResetKind), kind ≠ .powerOn → s.resetting = some kind → MemWf s.mem →
    exec .endOfReset s = .next u →
      guardedAtReset u.mem ∧ headerAtReset u.mem (if kind = .pin then 2 else 3) ∧ framesAtReset u.mem ∧
      u.cause = 0x20 ∧ u.mask = 0 ∧
      (∀ a, hostOwnedArea a = true → readByte u.mem a = readByte s.mem a) ∧
      (∀ e : SlotNo, slotState s.mem e ≠ 2 → ∀ a, slotBytes e a = true → readByte u.mem a = readByte s.mem a) ∧
      ∀ e : SlotNo, slotState s.mem e = 2 →
        slotState u.mem e = 3 ∧ readWord u.mem (slotAddr e + 0x18) = 0xFF000707#32 ∧
        (∀ a, within (slotAddr e + 4) 20 a = true → readByte u.mem a = readByte s.mem a) ∧
        (∀ a, within (slotAddr e + 0x1C) 24 a = true → readByte u.mem a = 0) ∧
        readWord u.mem (slotAddr e + 0x38) = 0

/-- R186: while a reset is in course only its end, another reset, the raw sense pins and the bytes a transfer shifts out
change anything, and every byte shifted out is 0. That a raw sense change moves the pin alone, without the clock or a
candidate run, is the model's choice (log entry 19). -/
def Obligations.FrozenWhileResetting : Prop :=
  ∀ (s : State) (i : Instr), s.resetting ≠ none →
    match i with
    | .powerOnReset | .pinReset | .endOfReset => True
    | .rawSenseChange _ k level => ∃ u, exec i s = .next u ∧ u = { s with sense := u.sense } ∧
        u.sense[k] = { s.sense[k] with raw := level } ∧ ∀ j : OutletIx, j ≠ k → u.sense[j] = s.sense[j]
    | .read _ _ n => exec i s = .next { s with sdo := List.replicate n 0 }
    | .illegalCommand _ _ n => exec i s = .next { s with sdo := List.replicate n 0 }
    | .softReset _ _ | .sample _ _ | .senseChange _ _ | .zeroCrossing _ _ _ | .phaseDead _ _ | .frameClose _
    | .framePublication _ | .frameFlip _ | .closeSpacingElapsed _ _ | .queuePatience _ _ | .pulseStart _ _
    | .pulseEnd _ _ | .verifyDeadline _ _ | .restDeadline _ _ | .post _ _ | .slotDrop _ | .orderKindRefused _
    | .switchOn _ | .switchOff _ | .cycle _ | .cancelCycle _ | .clearFault _ | .clearEnergy _ | .latchEnergy _
    | .rearmWatch _ | .hostWordWrite _ _ _ | .slotWordWrite _ _ _ _ | .latchStateWrite _ _ | .missedKindsWrite _ _
    | .causeWrite _ _ | .maskWrite _ _ | .unmappedWrite _ _ _ | .partTimeRewrite _ => exec i s = .next s

/-! ### Samples and load senses -/

/-- R1 to R3, R17 to R19: a due sample is added to the windows of the frame in progress and counted, and nothing else
changes; the timebase keeps it, and the count and the windows it found, as the latest sample (log entry 44). A sample that
the frame has no sample instant for is only kept (log entries 15, 44), and a second sample of one instant changes nothing
but the clock (log entry 3). One that comes after its sample instant counts when it comes (log entry 4). -/
def Obligations.SampleAddsToWindows : Prop :=
  ∀ (s : State) (t : Nat) (x : SampleSet), s.resetting = none →
    let now := max s.now t
    let k := if s.tb.openTaken then s.tb.sampleCount else 0
    let instant := match s.tb.frameState with
      | .freeRun => s.tb.openInstant + k * 625 / 2
      | .locked => s.tb.cycleStart + s.tb.cycleTaken * s.tb.cycleP / 64
    let due : Prop := instant ≤ now ∧ match s.tb.frameState with
      | .freeRun => k < 3200
      | .locked => s.tb.cycleTaken < 64
    let kept := fun (l : LastSample) => l.instant = now ∧ l.codes = x ∧ l.count = s.tb.sampleCount ∧ l.windowsV = s.meterV ∧
      ∀ o : OutletIx, l.windows[o] = { sii := s.meter[o].sii, svi := s.meter[o].svi, clip := s.meter[o].clip }
    let first : Prop := ∀ l, s.tb.lastSample = some l → l.instant ≠ now
    (first → due → ∃ u, exec (.sample t x) s = .next u ∧
      u = { s with now := now, tb := u.tb, meter := u.meter, meterV := u.meterV } ∧
      (∃ l, u.tb = { s.tb with
        sampleCount := if s.tb.openTaken then s.tb.sampleCount + 1 else s.tb.sampleCount
        openTaken := true, cycleTaken := s.tb.cycleTaken + 1, lastSample := some l } ∧ kept l) ∧
      (∀ o : OutletIx,
        let i := correctedCode x.current[o] s.work.outlets[o].currentOffset
        let v := correctedCode x.voltage[s.meter[o].pairing] s.work.phases[s.meter[o].pairing].voltageOffset
        u.meter[o] = { s.meter[o] with
          sii := s.meter[o].sii + (i * i).toNat
          svi := s.meter[o].svi + v * i
          clip := s.meter[o].clip || x.current[o] == 0x8000#16 || x.current[o] == 0x7FFF#16 }) ∧
      ∀ p : Phase,
        let v := correctedCode x.voltage[p] s.work.phases[p].voltageOffset
        u.meterV[p] = { s.meterV[p] with
          svv := s.meterV[p].svv + (v * v).toNat
          clip := s.meterV[p].clip || x.voltage[p] == 0x8000#16 || x.voltage[p] == 0x7FFF#16 }) ∧
    (first → ¬due → ∃ u, exec (.sample t x) s = .next u ∧ u = { s with now := now, tb := u.tb } ∧
      (∃ l, u.tb = { s.tb with lastSample := some l } ∧ kept l)) ∧
    (¬first → exec (.sample t x) s = .next { s with now := now })

/-- R1, R2, R19: a sample taken at the instant of a close, whether or not the frame that closes had a sample instant
there, stays out of that frame, and is the first of the one that opens: counted as its open sample, with the settings that
are in force for it (log entry 44). -/
def Obligations.SampleAtCloseOpensNext : Prop :=
  ∀ (s : State) (now : Nat) (i : Instr) (l : LastSample), s.resetting = none → closesFrame s now i →
    s.tb.lastSample = some l → l.instant = now →
    ∃ u f, exec i s = .next u ∧ u.pub.waiting = s.pub.waiting ++ [f] ∧ f.n = l.count ∧
      (∀ p : Phase, f.phases[p].clipped = l.windowsV[p].clip) ∧
      (∀ k : OutletIx, f.outlets[k].clipped = l.windows[k].clip) ∧
      u.tb.openInstant = now ∧ u.tb.sampleCount = 1 ∧ u.tb.openTaken = true ∧ u.tb.cycleTaken = 1 ∧
      (∀ p : Phase,
        let v := correctedCode l.codes.voltage[p] u.work.phases[p].voltageOffset
        u.meterV[p] = { svv := (v * v).toNat
                        clip := l.codes.voltage[p] == 0x8000#16 || l.codes.voltage[p] == 0x7FFF#16 }) ∧
      ∀ k : OutletIx,
        let c := correctedCode l.codes.current[k] u.work.outlets[k].currentOffset
        let q := phaseOfBranch u.work.outlets[k].branch
        u.meter[k].sii = (c * c).toNat ∧ u.meter[k].pairing = q ∧
        u.meter[k].svi = correctedCode l.codes.voltage[q] u.work.phases[q].voltageOffset * c ∧
        u.meter[k].clip = (l.codes.current[k] == 0x8000#16 || l.codes.current[k] == 0x7FFF#16)

/-- R4, R84: a raw change restarts the candidate run, and a report of the level the input already has changes nothing. A
level that differs from the debounced one and has held for 2,000 µs becomes the debounced level, and its stamp decides
what it does to a pulse in progress; one that has not, changes nothing but the clock (log entry 3). A level with no change
since the end of the reset has held since µs 0, by the model's choice (log entry 14). A report that comes after the 2,000 µs
carries the stamp all the same (log entry 4). -/
def Obligations.SenseInputsDebounce : Prop :=
  ∀ (s : State) (t : Nat) (k : OutletIx), s.resetting = none →
    (∀ level : Bool, ∃ u, exec (.rawSenseChange t k level) s = .next u ∧
      u = { s with now := max s.now t, sense := u.sense } ∧ (∀ j : OutletIx, j ≠ k → u.sense[j] = s.sense[j]) ∧
      (level ≠ s.sense[k].raw →
        u.sense[k] = { raw := level, level := s.sense[k].level, run := some (max s.now t) }) ∧
      (level = s.sense[k].raw → u.sense[k] = s.sense[k])) ∧
    ∀ r, (s.sense[k].run = some r ∨ s.sense[k].run = none ∧ r = 0) → s.scanDue = false →
      (s.sense[k].raw ≠ s.sense[k].level → r + 2000 ≤ max s.now t → (∀ p, s.moves[k] ≠ .verifying p) →
        ∃ u, exec (.senseChange t k) s = .next u ∧
          u = { s with now := max s.now t, sense := u.sense, moves := u.moves } ∧
          u.sense[k] = { s.sense[k] with level := s.sense[k].raw } ∧
          (∀ j : OutletIx, j ≠ k → u.sense[j] = s.sense[j] ∧ u.moves[j] = s.moves[j]) ∧
          u.moves[k] = (match s.moves[k] with
            | .driving p => .driving
                (if p.satisfied = .no ∧ s.sense[k].raw = (p.dir == .toClosed) ∧ p.start ≤ r ∧ r ≤ p.windowEnd then
                  { p with satisfied := .measured (r - p.start) } else p)
            | m => m)) ∧
      (s.sense[k].raw ≠ s.sense[k].level → r + 2000 ≤ max s.now t → ∀ p, s.moves[k] = .verifying p →
        p.satisfied = .no → ¬(s.sense[k].raw = (p.dir == .toClosed) ∧ p.start ≤ r ∧ r ≤ p.windowEnd) →
        ∃ u, exec (.senseChange t k) s = .next u ∧ u = { s with now := max s.now t, sense := u.sense } ∧
          u.sense[k] = { s.sense[k] with level := s.sense[k].raw } ∧
          ∀ j : OutletIx, j ≠ k → u.sense[j] = s.sense[j]) ∧
      (s.sense[k].raw = s.sense[k].level ∨ max s.now t < r + 2000 →
        exec (.senseChange t k) s = .next { s with now := max s.now t })

/-! ### Crossings, phases and frames -/

/-- R5, R6, R12: a crossing of the last one's polarity, or less than 2,000 µs after it, is discarded. Every other one is
recorded on its phase: the run, the sixteenth crossing that makes the phase LIVE, the dead deadline and PHASE_LIVE. One
that neither takes a lock nor falls in a LOCKED frame of L1 changes nothing else, but that L1 becoming live in FREE_RUN
makes a lock pending. -/
def Obligations.CrossingScreenAndRecord : Prop :=
  ∀ (s : State) (t : Nat) (p : Phase) (pol : Polarity), s.resetting = none →
    let now := max s.now t
    let x := s.phases[p]
    (s.scanDue = false → ¬accepted x now pol → exec (.zeroCrossing t p pol) s = .next { s with now := now }) ∧
    (accepted x now pol → ∃ u, exec (.zeroCrossing t p pol) s = .next u ∧
      (∀ q : Phase, q ≠ p → u.phases[q] = { s.phases[q] with present := u.phases[q].present }) ∧
      u.phases[p].last = some (now, pol) ∧
      (∀ t0 p0, x.last = some (t0, p0) → u.phases[p].half = some (max 7700 (min 11100 (now - t0)))) ∧
      (x.last = none → u.phases[p].half = x.half) ∧
      (pol = .rising → u.phases[p].lastRising = some now ∧
        (∀ r, x.lastRising = some r → u.phases[p].cyclePeriod = some (now - r)) ∧
        (x.lastRising = none → u.phases[p].cyclePeriod = x.cyclePeriod)) ∧
      (pol = .falling → u.phases[p].lastRising = x.lastRising ∧ u.phases[p].cyclePeriod = x.cyclePeriod) ∧
      (x.live = true → u.phases[p].live = true ∧ u.phases[p].run = x.run) ∧
      (x.live = false → u.phases[p].run = runAfter x now ∧ u.phases[p].live = decide (runAfter x now = 16)) ∧
      (u.phases[p].live = true → ∀ h, u.phases[p].half = some h → u.phases[p].deadline = some (now + 3 * h)) ∧
      (u.phases[p].live = false → u.phases[p].deadline = x.deadline) ∧
      (s.scanDue = false → ¬(p = 0 ∧ pol = .rising ∧ (takesLock s now ∨ s.tb.frameState = .locked)) →
        u = { s with now := now, phases := u.phases, tb := u.tb, mem := u.mem, cause := u.cause } ∧
        u.tb = (if p = 0 ∧ x.live = false ∧ u.phases[p].live = true ∧ s.tb.state = .freeRun then
          { s.tb with lockPending := true } else s.tb) ∧
        (∀ q : Phase, u.phases[q].present = s.phases[q].present) ∧
        (¬becomesLive x now → u.mem = s.mem ∧ u.cause = s.cause) ∧
        (becomesLive x now → sameBytesOutside noticeBytes s.mem u.mem ∧
          (MemWf s.mem → s.logFull = false →
            logEntry u.mem s.writeCount .phaseLive (p.val + 1) 0 (BitVec.ofNat 32 (now / 1000))
              (BitVec.ofNat 32 (u.phases[p].half.getD 0)) ∧
            u.writeCount = s.writeCount + 1 ∧ u.cause = s.cause ||| 2#32))))

/-- R7, R11, R8: a LIVE phase at its dead deadline becomes DEAD, keeps its record and files PHASE_DEAD with its half
period; L1 in FREE_RUN loses its pending lock, L2 and L3 do not touch the timebase. L1 while LOCKED closes the frame SHORT
with cycle count 0, files TIMEBASE_FREE with the closed frame's number, and the next frame opens FREE_RUN. PHASE_DEAD
stands before TIMEBASE_FREE (log entry 8). A sample taken at the instant of the close is no sample of the closed frame,
whichever of the two commands comes first (log entry 44). A phase that is not due changes nothing but the clock (log entry 3); one that is
past its deadline dies when the command comes (log entry 4). -/
def Obligations.PhaseDiesAtDeadline : Prop :=
  ∀ (s : State) (t : Nat) (p : Phase) (d : Nat), s.resetting = none → MemWf s.mem → s.phases[p].live = true →
    s.phases[p].deadline = some d →
    let now := max s.now t
    let stamp := BitVec.ofNat 32 (now / 1000)
    (d ≤ now → (p = 0 → s.tb.state = .freeRun) → s.scanDue = false →
      ∃ u, exec (.phaseDead t p) s = .next u ∧
        u = { s with now := now, phases := u.phases, tb := u.tb, mem := u.mem, cause := u.cause } ∧
        u.phases[p] = { s.phases[p] with live := false, run := 0, deadline := none } ∧
        (∀ q : Phase, q ≠ p → u.phases[q] = s.phases[q]) ∧
        u.tb = (if p = 0 then { s.tb with lockPending := false } else s.tb) ∧
        sameBytesOutside noticeBytes s.mem u.mem ∧
        (s.logFull = false → logEntry u.mem s.writeCount .phaseDead (p.val + 1) 0 stamp
          (BitVec.ofNat 32 (s.phases[p].half.getD 0)) ∧ u.writeCount = s.writeCount + 1 ∧ u.cause = s.cause ||| 2#32)) ∧
    (d ≤ now → p = 0 → s.tb.state = .locked →
      ∃ u f, exec (.phaseDead t p) s = .next u ∧ u.pub.waiting = s.pub.waiting ++ [f] ∧
        f.sequence = nextSequence s.pub.closedSeq ∧ u.pub.closedSeq = f.sequence ∧
        f.tUs = now - s.tb.openInstant ∧ f.n = samplesAtClose s now ∧ f.frameState = s.tb.frameState ∧
        f.short = true ∧ f.frequency = 0 ∧
        u.tb.state = .freeRun ∧ u.tb.frameState = .freeRun ∧ u.tb.openInstant = now ∧ u.tb.cycles = 0 ∧
        u.tb.sampleCount = 1 ∧ u.tb.cycleSetting = u.work.strip.frameCycles ∧
        u.phases[p].live = false ∧ u.phases[p].run = 0 ∧ u.phases[p].deadline = none ∧
        u.phases[p].half = s.phases[p].half ∧ u.phases[p].last = s.phases[p].last ∧ sameInputs s u ∧
        (logUsed s.mem + 2 ≤ 256 →
          logEntry u.mem s.writeCount .phaseDead 1 0 stamp (BitVec.ofNat 32 (s.phases[p].half.getD 0)) ∧
          logEntry u.mem (s.writeCount + 1) .timebaseFree 1 0 stamp f.sequence)) ∧
    (s.scanDue = false → now < d → exec (.phaseDead t p) s = .next { s with now := now })

/-- R10, R8, R3: in a LOCKED frame an L1 rising crossing counts a cycle; the one that brings the count to N closes the
frame, which is not SHORT, and opens the next one LOCKED. A sample taken at the crossing is sample 0 of the cycle that
begins, whether or not the cycle that ends had a sample instant there (log entry 44). -/
def Obligations.L1CrossingCountsCycles : Prop :=
  ∀ (s : State) (t r : Nat), s.resetting = none → s.phases[(0 : Phase)].live = true →
    accepted s.phases[(0 : Phase)] (max s.now t) .rising → s.phases[(0 : Phase)].lastRising = some r →
    s.tb.frameState = .locked → s.tb.lockPending = false → s.tb.openInstant < max s.now t →
    let now := max s.now t
    ∃ u, exec (.zeroCrossing t 0 .rising) s = .next u ∧ u.tb.frameState = .locked ∧
      u.tb.cycleStart = now ∧ u.tb.cycleP = now - r ∧
      u.tb.cycleTaken = (if nextFramesSample s now = none then 0 else 1) ∧ sameInputs s u ∧
      (s.scanDue = false → s.tb.cycles + 1 ≠ s.tb.cycleSetting →
        u.tb.cycles = s.tb.cycles + 1 ∧ u.tb.openInstant = s.tb.openInstant ∧ u.pub = s.pub ∧ sameControl s u ∧
        u.mem = s.mem ∧ u.cause = s.cause ∧
        (nextFramesSample s now = none →
          u.tb.sampleCount = s.tb.sampleCount ∧ u.meter = s.meter ∧ u.meterV = s.meterV) ∧
        ∀ l, nextFramesSample s now = some l →
          u.tb.sampleCount = (if s.tb.openTaken then l.count + 1 else l.count) ∧
          (∀ p : Phase,
            let v := correctedCode l.codes.voltage[p] s.work.phases[p].voltageOffset
            u.meterV[p] = { svv := l.windowsV[p].svv + (v * v).toNat
                            clip := l.windowsV[p].clip || l.codes.voltage[p] == 0x8000#16 ||
                              l.codes.voltage[p] == 0x7FFF#16 }) ∧
          ∀ k : OutletIx,
            let c := correctedCode l.codes.current[k] s.work.outlets[k].currentOffset
            let v := correctedCode l.codes.voltage[s.meter[k].pairing] s.work.phases[s.meter[k].pairing].voltageOffset
            u.meter[k] = { s.meter[k] with
              sii := l.windows[k].sii + (c * c).toNat
              svi := l.windows[k].svi + v * c
              clip := l.windows[k].clip || l.codes.current[k] == 0x8000#16 || l.codes.current[k] == 0x7FFF#16 }) ∧
      (s.tb.cycles + 1 = s.tb.cycleSetting →
        u.tb.state = .locked ∧ u.tb.cycles = 0 ∧ u.tb.openInstant = now ∧ u.tb.sampleCount = 1 ∧
        u.tb.cycleSetting = u.work.strip.frameCycles ∧
        ∃ f, u.pub.waiting = s.pub.waiting ++ [f] ∧ f.sequence = nextSequence s.pub.closedSeq ∧
          f.tUs = now - s.tb.openInstant ∧ f.n = samplesAtClose s now ∧ f.short = false ∧ f.frameState = .locked ∧
          f.frequency = (if s.tb.cycleSetting = 0 then 0 else roundHalfUp (s.tb.cycleSetting * 10 ^ 9) f.tUs))

/-- R12, R9: a rising crossing of L1 that finds a lock pending, or makes L1 live in FREE_RUN, closes the frame, SHORT if
before its normal close, and the next one opens LOCKED; TIMEBASE_LOCKED carries the closed frame's number and stands
behind a PHASE_LIVE of the same crossing (log entry 8). Where a close has opened the frame at this very instant, that
frame becomes LOCKED and no other frame closes; for a lock that was pending R9 says so, for one that this crossing makes
it is the model's choice (log entry 16). A sample taken at the instant of the close is no sample of the closed frame,
whichever of the two commands comes first (log entry 44). -/
def Obligations.LockTakenAtRisingCrossing : Prop :=
  ∀ (s : State) (t r : Nat), s.resetting = none → MemWf s.mem →
    let now := max s.now t
    accepted s.phases[(0 : Phase)] now .rising → s.phases[(0 : Phase)].lastRising = some r → takesLock s now →
    let stamp := BitVec.ofNat 32 (now / 1000)
    let lockedAt := if becomesLive s.phases[(0 : Phase)] now then s.writeCount + 1 else s.writeCount
    ∃ u, exec (.zeroCrossing t 0 .rising) s = .next u ∧ u.tb.state = .locked ∧ u.tb.frameState = .locked ∧
      u.tb.lockPending = false ∧ u.tb.cycleStart = now ∧ u.tb.cycleP = now - r ∧ u.tb.openInstant = now ∧ sameInputs s u ∧
      (logUsed s.mem + 2 ≤ 256 →
        logEntry u.mem lockedAt .timebaseLocked 1 0 stamp u.pub.closedSeq ∧
        (becomesLive s.phases[(0 : Phase)] now →
          logEntry u.mem s.writeCount .phaseLive 1 0 stamp (BitVec.ofNat 32 (u.phases[(0 : Phase)].half.getD 0)))) ∧
      (s.tb.openInstant < now →
        u.tb.sampleCount = 1 ∧ u.tb.cycles = 0 ∧ u.tb.cycleSetting = u.work.strip.frameCycles ∧
        ∃ f, u.pub.waiting = s.pub.waiting ++ [f] ∧ f.sequence = nextSequence s.pub.closedSeq ∧
          u.pub.closedSeq = f.sequence ∧ f.tUs = now - s.tb.openInstant ∧ f.n = samplesAtClose s now ∧
          f.short = decide (now < s.tb.openInstant + 1000000) ∧ f.frequency = 0 ∧ f.frameState = s.tb.frameState) ∧
      (s.tb.openInstant = now → s.scanDue = false →
        u = { s with now := now, phases := u.phases, tb := u.tb, mem := u.mem, cause := u.cause } ∧
        u.tb = { s.tb with
          state := .locked, frameState := .locked, lockPending := false, cycleStart := now, cycleP := now - r
          cycleTaken := if s.tb.openTaken then 1 else 0 } ∧
        sameBytesOutside noticeBytes s.mem u.mem)

/-- R8, R9: FRAME_CLOSE closes a FREE_RUN frame that has run its 1,000,000 µs and opens the next; a close that comes later
has the length it came at (log entry 4). Before that instant, or in a LOCKED frame, it changes nothing but the clock (log
entry 3). A sample taken at the instant of the close is no sample of the closed frame, whichever of the two commands comes
first (log entry 44). -/
def Obligations.FreeRunFrameCloses : Prop :=
  ∀ (s : State) (t : Nat), s.resetting = none →
    (s.tb.frameState = .freeRun ∧ s.tb.openInstant + 1000000 ≤ max s.now t →
      ∃ u f, exec (.frameClose t) s = .next u ∧ u.pub.waiting = s.pub.waiting ++ [f] ∧
        f.sequence = nextSequence s.pub.closedSeq ∧ u.pub.closedSeq = f.sequence ∧
        f.tUs = max s.now t - s.tb.openInstant ∧ f.n = samplesAtClose s (max s.now t) ∧ f.short = false ∧
        f.frequency = 0 ∧ f.frameState = .freeRun ∧
        u.tb.state = .freeRun ∧ u.tb.frameState = .freeRun ∧ u.tb.openInstant = max s.now t ∧ u.tb.cycles = 0 ∧
        u.tb.sampleCount = 1 ∧ u.tb.lockPending = s.tb.lockPending ∧
        u.tb.cycleSetting = u.work.strip.frameCycles ∧ sameInputs s u ∧
        ∀ p : Phase, u.phases[p] = { s.phases[p] with present := f.phases[p].present }) ∧
    (s.scanDue = false → s.tb.frameState = .locked ∨ max s.now t < s.tb.openInstant + 1000000 →
      exec (.frameClose t) s = .next { s with now := max s.now t })

/-- R20, R31 to R34, R189, R13: at every close of a frame, normal, by loss or gain of lock, or at the N-th cycle, the
settings are taken as exchange memory holds them while HOLD reads 0, every counter takes the whole joules of the frame,
after the clear if one was requested, PRESENT and the measured loads follow the frame (R99), and every window restarts at 0
unless a sample was taken at the close: that one belongs to the frame that opens, whichever command comes first (log entry
44). -/
def Obligations.CloseUpdatesEnergy : Prop :=
  ∀ (s : State) (now : Nat) (i : Instr), s.resetting = none → closesFrame s now i →
    ∃ u f, exec i s = .next u ∧ u.pub.waiting = s.pub.waiting ++ [f] ∧ u.tb.openInstant = now ∧
      f.tUs = now - s.tb.openInstant ∧ f.n = samplesAtClose s now ∧
      u.work = (if readWord s.mem 0x10 = 0 then takenSettings s.mem else s.work) ∧
      u.tb.cycleSetting = u.work.strip.frameCycles ∧
      (∀ p : Phase, u.phases[p].present = f.phases[p].present) ∧
      (∀ b : Branch, u.loads[b].measured = f.branches[b].measured) ∧
      (∀ k : OutletIx,
        let inc := if 0 < f.outlets[k].p then f.outlets[k].p.toNat * f.tUs / 1000 else 0
        let e0 := if s.meter[k].clearReq then 0 else s.meter[k].energy
        let r0 := if s.meter[k].clearReq then 0 else s.meter[k].residue
        u.meter[k].energy = min (2 ^ 48 - 1) (e0 + (r0 + inc) / 1000000) ∧
        u.meter[k].residue = (r0 + inc) % 1000000 ∧ f.outlets[k].energy = u.meter[k].energy ∧
        f.outlets[k].saturated = decide (u.meter[k].energy = 2 ^ 48 - 1) ∧
        u.meter[k].clearReq = false ∧ u.meter[k].pairing = phaseOfBranch u.work.outlets[k].branch) ∧
      (nextFramesSample s now = none → u.tb.openTaken = false ∧ (∀ p : Phase, u.meterV[p] = { svv := 0, clip := false }) ∧
        ∀ k : OutletIx, u.meter[k].sii = 0 ∧ u.meter[k].svi = 0 ∧ u.meter[k].clip = false)

/-- R22 to R30, R36, R13, R18: the values of every closed frame, formed from the sums of its window with the gains in
force for it (log entry 9) and rounded as the rules say; sums are held in 48 bits (section 2.1). A sample taken at the
instant of the close stays out of the window, whichever command comes first (log entry 44). -/
def Obligations.FrameValuesFromSums : Prop :=
  ∀ (s : State) (now : Nat) (i : Instr), s.resetting = none → closesFrame s now i → 0 < samplesAtClose s now →
    (∀ k : OutletIx, (windowAtClose s now k).sii < 2 ^ 48) → (∀ p : Phase, (phaseAtClose s now p).svv < 2 ^ 48) →
    let n := samplesAtClose s now
    ∃ u f, exec i s = .next u ∧ u.pub.waiting = s.pub.waiting ++ [f] ∧
      (∀ p : Phase,
        let mean := (phaseAtClose s now p).svv / n
        ∃ root : Nat, root * root ≤ mean ∧ mean < (root + 1) * (root + 1) ∧
          f.phases[p].vrms = roundHalfUp (root * s.work.phases[p].voltageGain * 25) 65536 ∧
          f.phases[p].present = decide (s.work.strip.presentLevel ≤ f.phases[p].vrms) ∧
          f.phases[p].live = u.phases[p].live ∧ f.phases[p].clipped = (phaseAtClose s now p).clip) ∧
      (∀ b : Branch, f.branches[b].measured =
        (((indices 48).filter fun k => s.work.outlets[k].branch = b).map fun k => f.outlets[k].irms).sum) ∧
      ∀ k : OutletIx,
        let mean := (windowAtClose s now k).sii / n
        ∃ root : Nat, root * root ≤ mean ∧ mean < (root + 1) * (root + 1) ∧
          let q := s.meter[k].pairing
          let gv := s.work.phases[q].voltageGain
          let gi := s.work.outlets[k].currentGain
          let irms := roundHalfUp (root * gi) 32768
          let r := f.outlets[k]
          (irms < s.work.strip.creepLevel →
            r.creep = true ∧ r.irms = 0 ∧ r.p = 0 ∧ r.va = 0 ∧ r.pf = 0 ∧ r.reverse = false) ∧
          (s.work.strip.creepLevel ≤ irms → r.creep = false ∧ r.irms = irms ∧
            r.p = roundHalfAway ((windowAtClose s now k).svi * gv * gi) (n * 2 ^ 30 * 80) ∧
            r.va = roundHalfUp (f.phases[q].vrms * irms) 1000 ∧
            r.pf = (if r.va = 0 then 0 else max (-1000) (min 1000 (roundHalfAway (1000 * r.p) r.va))) ∧
            r.reverse = decide (r.p < 0)) ∧
          r.clipped = (windowAtClose s now k).clip ∧ r.phaseAbsent = !f.phases[q].present

/-! ### Publication -/

/-- R39, R40, R42 to R45: the oldest closed frame is written into the buffer the published index does not name, between
equal leading and trailing words: header, phase records, outlet records and branch records, word by word. The published
buffer and everything else stay as they are. The whole buffer is written in one step (log entry 10), which may come at any
time after the close (log entry 38). -/
def Obligations.PublicationFillsOtherBuffer : Prop :=
  ∀ (s : State) (t : Nat) (f : FrameResult) (rest : List FrameResult), s.resetting = none → MemWf s.mem →
    s.pub.written = none → s.pub.waiting = f :: rest →
    let base := if s.pub.index = .bufA then 0x2400 else 0x1D00
    ∃ u, exec (.framePublication t) s = .next u ∧
      u = { s with now := max s.now t, mem := u.mem, pub := { s.pub with waiting := rest, written := some f.sequence } } ∧
      readWord u.mem base = f.sequence ∧ readWord u.mem (base + 0x6B0) = f.sequence ∧
      readWord u.mem (base + 4) = BitVec.ofNat 32 f.tUs ∧ readWord u.mem (base + 8) = BitVec.ofNat 32 f.n ∧
      readWord u.mem (base + 0xC) = BitVec.ofNat 32 f.frequency ∧
      readWord u.mem (base + 0x10) = BitVec.ofNat 32 ((if f.frameState = .locked then 1 else 0) + 2 * f.short.toNat) ∧
      (∀ p : Phase, let a := base + 0x20 + 16 * p.val
        readWord u.mem a = BitVec.ofNat 32 f.phases[p].vrms ∧
        readWord u.mem (a + 4) = BitVec.ofNat 32
          (f.phases[p].present.toNat + 2 * f.phases[p].live.toNat + 4 * f.phases[p].clipped.toNat)) ∧
      (∀ k : OutletIx, let a := base + 0x50 + 32 * k.val
        let r := f.outlets[k]
        readWord u.mem a = BitVec.ofNat 32 r.irms ∧ readWord u.mem (a + 4) = BitVec.ofInt 32 r.p ∧
        readWord u.mem (a + 8) = BitVec.ofNat 32 r.va ∧
        readWord u.mem (a + 0xC) = BitVec.ofNat 32 ((BitVec.ofInt 16 r.pf).toNat + 2 ^ 16 * r.clipped.toNat +
          2 ^ 17 * r.creep.toNat + 2 ^ 18 * r.reverse.toNat + 2 ^ 19 * r.saturated.toNat + 2 ^ 20 * r.unverified.toNat +
          2 ^ 21 * r.phaseAbsent.toNat) ∧
        readWord u.mem (a + 0x10) = BitVec.ofNat 32 (r.energy % 2 ^ 32) ∧
        readWord u.mem (a + 0x14) = BitVec.ofNat 32 (r.energy / 2 ^ 32)) ∧
      (∀ b : Branch, let a := base + 0x650 + 16 * b.val
        let r := f.branches[b]
        readWord u.mem a = BitVec.ofNat 32 r.measured ∧ readWord u.mem (a + 4) = BitVec.ofNat 32 r.committed ∧
        readWord u.mem (a + 8) =
          BitVec.ofNat 32 (r.overload.toNat + 2 * r.shedding.toNat + 4 * r.restoring.toNat)) ∧
      sameBytesOutside (within base 0x6B4) s.mem u.mem

/-- R41: once its buffer is written, a frame is published by the index and the sequence word; CAUSE bit 0 is raised, and
the timebase word gives the lock state, all in one step (log entry 10), which may come at any time after the writing (log
entry 38). The part-time word takes the whole milliseconds of the clock when it is rewritten (section 11.6), by
PART_TIME_REWRITE alone (log entry 37). -/
def Obligations.FlipAndPartTime : Prop :=
  (∀ (s : State) (t : Nat) (q : Word), s.resetting = none → MemWf s.mem → s.pub.written = some q →
    ∃ u, exec (.frameFlip t) s = .next u ∧
      u = { s with now := max s.now t, mem := u.mem, cause := s.cause ||| 1#32, pub := u.pub } ∧
      u.pub = { s.pub with index := if s.pub.index = .bufA then .bufB else .bufA, sequence := q, written := none } ∧
      readWord u.mem 0x08 = (if s.pub.index = .bufA then 1 else 0) ∧ readWord u.mem 0x0C = q ∧
      readWord u.mem 0x24 = (if s.tb.state = .locked then 1 else 0) ∧
      sameBytesOutside (fun a => within 0x08 8 a || within 0x24 4 a) s.mem u.mem) ∧
  ∀ (s : State) (t : Nat), s.resetting = none → MemWf s.mem →
    ∃ u, exec (.partTimeRewrite t) s = .next u ∧ u = { s with now := max s.now t, mem := u.mem } ∧
      readWord u.mem 0x2C = BitVec.ofNat 32 (max s.now t / 1000) ∧ sameBytesOutside (within 0x2C 4) s.mem u.mem

/-! ### The close queue -/

/-- R108, R110 to R112: a spacing deadline scans the queue in its order. An entry that is the first of its branch, fits
the budget and the spacings, and behind entries none of which can go, is granted: it leaves the queue, its load is
reserved on its branch, and the lowest free driver takes its close. The entries passed over stay in their places. An
oversized entry fits where the committed load is exactly 0 (R109); that a reservation of amount 0 on the branch does not
stand in its way is the model's choice (log entry 45). R101: the load is the outlet's setting where that is not 0, else its
peak-on load where one is known, else the strip's default. R104: the committed load is the measured load with the reserved
amounts. R78 to R82: the assignment records the job and the movement (`Assigned`). A command that comes after the spacing
has elapsed scans when it comes (log entry 4). -/
def Obligations.ElapsedSpacingGrants : Prop :=
  ∀ (s : State) (t : Nat) (which : Option Branch) (front back : List QueueEntry) (e : QueueEntry) (d : DriverNo),
    s.resetting = none → Control s → s.queue = front ++ e :: back → s.drivers[d] = .free →
    (∀ x : DriverNo, x < d → s.drivers[x] ≠ .free) →
    let now := max s.now t
    let branch := fun (x : QueueEntry) => s.work.outlets[x.outlet].branch
    let spaced := fun (c : Branch) => ∀ g, s.loads[c].lastGrant = some g → g + s.work.branches[c].closeSpacing * 1000 ≤ now
    let expected := fun (x : QueueEntry) =>
      if s.work.outlets[x.outlet].expectedLoad ≠ 0 then s.work.outlets[x.outlet].expectedLoad
      else match s.outlets[x.outlet].peakOn with
        | some peak => peak
        | none => s.work.strip.defaultExpected
    let fits := fun (x : QueueEntry) =>
      committedLoad s (branch x) + expected x ≤ s.work.branches[branch x].budget ∨
        s.work.branches[branch x].budget < expected x ∧ committedLoad s (branch x) = 0
    (match which with
      | none => s.stripGrant ≠ none
      | some c => s.loads[c].lastGrant ≠ none ∧ spaced c) →
    (∀ g, s.stripGrant = some g → g + s.work.strip.globalSpacing * 1000 ≤ now) →
    (∀ x ∈ front, branch x ≠ branch e ∧ (¬spaced (branch x) ∨ ¬fits x ∨
      ∃ l y m r, front = l ++ y :: m ++ x :: r ∧ branch y = branch x)) →
    spaced (branch e) → fits e →
    let b := branch e
    let load := expected e
    ∃ u, exec (.closeSpacingElapsed t which) s = .next u ∧ u.outlets[e.outlet].state = .closing ∧
      u.outlets[e.outlet].owner = s.outlets[e.outlet].owner ∧ u.outlets[e.outlet].retry = false ∧
      Assigned { s with now := now } u d e.outlet .toClosed ∧ (e.outlet, load) ∈ u.loads[b].reservations ∧
      u.loads[b].lastGrant = some now ∧ u.stripGrant = some now ∧ u.waitList = [] ∧ (∃ rest, u.queue = front ++ rest) ∧
      sameMeasuring s u ∧ sameInputs s u ∧ u.shed = s.shed ∧ u.cycles = s.cycles ∧ u.watches = s.watches ∧
      u.orders = s.orders ∧ u.cause = s.cause ∧ sameBytesOutside guardedBytes s.mem u.mem ∧
      (0 < s.work.strip.globalSpacing → u.queue = front ++ back ∧
        u.loads[b].reservations = s.loads[b].reservations ++ [(e.outlet, load)] ∧ committedLoad u b = committedLoad s b + load ∧
        (∀ c : Branch, c ≠ b → u.loads[c] = s.loads[c]) ∧ (∀ x : DriverNo, x ≠ d → u.drivers[x] = s.drivers[x]) ∧
        ∀ k : OutletIx, k ≠ e.outlet → u.outlets[k] = s.outlets[k] ∧ u.moves[k] = s.moves[k])

/-- R113, R64, R126, R141: an entry whose patience has run out leaves the close queue, its outlet returns to OFF with its
shed mark as it was, its owner receives PATIENCE, and QUEUE_PATIENCE is filed with its class and its stamp, behind what
its removal files (log entry 23). One whose patience has not run out changes nothing but the clock (log entry 3); one past
its deadline goes when the command comes (log entry 4). A record that ends by it is FREE, its empty rest time 0 (log entry
51). -/
def Obligations.PatienceRemovesEntry : Prop :=
  ∀ (s : State) (t : Nat) (k : OutletIx) (e : QueueEntry), s.resetting = none → Control s → MemWf s.mem → e ∈ s.queue →
    e.outlet = k →
    (e.instant + s.work.strip.queuePatience * 1000000 ≤ max s.now t →
      ∃ u, exec (.queuePatience t k) s = .next u ∧ (∀ x ∈ u.queue, x.outlet ≠ k) ∧ u.outlets[k].state = .off ∧
        u.outlets[k].owner = none ∧ u.outlets[k].shedMark = s.outlets[k].shedMark ∧
        u.outlets[k].lastChange = BitVec.ofNat 32 (max s.now t / 1000) ∧
        (∀ o, e.owner = .order o → orderAnswered s u o k .patience) ∧
        (∀ b, e.owner = .restore b → k ∉ u.shed[b].round ∧ u.shed[b].list = s.shed[b].list) ∧
        (∀ c : RecNo, e.owner = .cycle c → k ∈ s.cycles[c].participants →
          (s.cycles[c].state = .closing ∨ s.cycles[c].state = .restoring) →
            recordBecomes u c (withFailed s.cycles[c] k)) ∧
        (u.logFull = false → logEntry u.mem (u.writeCount - 1) .queuePatience (k.val + 1) e.cls.val
          (BitVec.ofNat 32 (max s.now t / 1000)) e.stamp) ∧
        sameMeasuring s u ∧ sameInputs s u ∧
        sameBytesOutside (fun a => blockBytes a || guardedBytes a) s.mem u.mem) ∧
    (s.scanDue = false → max s.now t < e.instant + s.work.strip.queuePatience * 1000000 →
      exec (.queuePatience t k) s = .next { s with now := max s.now t })

/-! ### Pulses and movements -/

/-- R83, R84: an aimed pulse starts at its planned instant and drives the outlet's coil; a sense already at the commanded
level satisfies it at its start. One that comes late starts when it comes (log entry 4); one before its planned start
changes nothing but the clock (log entry 3). -/
def Obligations.PulseStartsAsPlanned : Prop :=
  ∀ (s : State) (t : Nat) (d : DriverNo) (job : DriverJob) (dir : Dir) (p : Phase) (est : Nat), s.resetting = none →
    s.drivers[d] = .aiming job → s.moves[job.outlet] = .aiming dir p est →
    let now := max s.now t
    (job.plannedStart ≤ now →
      ∃ u, exec (.pulseStart t d) s = .next u ∧
        u = { s with now := now, drivers := u.drivers, moves := u.moves } ∧ u.coil d = some (job.outlet, job.dir) ∧
        u.drivers[d] = .driving job (now + job.width) ∧
        (∀ x : DriverNo, x ≠ d → u.drivers[x] = s.drivers[x]) ∧
        (∀ k : OutletIx, k ≠ job.outlet → u.moves[k] = s.moves[k]) ∧
        ∃ q, u.moves[job.outlet] = .driving q ∧ q.dir = job.dir ∧ q.phase = job.phase ∧ q.start = now ∧
          q.windowEnd = now + job.width + job.margin ∧ q.deadline = now + job.width + job.margin + 2000 ∧
          q.estimate = est ∧
          q.satisfied = (if s.sense[job.outlet].level = (job.dir == .toClosed) then .atStart else .no)) ∧
    (now < job.plannedStart → exec (.pulseStart t d) s = .next { s with now := now })

/-- R83, R80: at its stop a pulse releases its coil and frees its driver, which is offered to the head of the wait list;
its job and movement are those of that assignment (R78, R81, R82: `Assigned`); with none waiting it stays free, unless a scan
grants a close. A movement on a usable phase that the sense has not yet shown waits for its verify deadline. Before the
stop nothing changes but the clock (log entry 3); a PULSE_END that comes after it acts when it comes (log entry 4). -/
def Obligations.PulseEndFreesDriver : Prop :=
  ∀ (s : State) (t : Nat) (d : DriverNo) (job : DriverJob) (stop : Nat) (q : Pulse), s.resetting = none → Control s →
    s.drivers[d] = .driving job stop → s.moves[job.outlet] = .driving q →
    (stop ≤ max s.now t → q.satisfied = .no → s.usable q.phase = true →
      ∃ u, exec (.pulseEnd t d) s = .next u ∧ u.moves[job.outlet] = .verifying q ∧
        u.outlets[job.outlet] = s.outlets[job.outlet] ∧ sameMeasuring s u ∧ sameInputs s u ∧ u.shed = s.shed ∧
        u.cycles = s.cycles ∧ u.watches = s.watches ∧ u.orders = s.orders ∧ u.cause = s.cause ∧
        (s.waitList = [] → s.queue = [] →
          u = { s with now := max s.now t, scanDue := false, drivers := u.drivers, moves := u.moves } ∧
          u.drivers[d] = .free ∧ u.coil d = none ∧ (∀ x : DriverNo, x ≠ d → u.drivers[x] = s.drivers[x]) ∧
          ∀ k : OutletIx, k ≠ job.outlet → u.moves[k] = s.moves[k]) ∧
        (∀ w rest, s.waitList = w :: rest →
          u.waitList = rest ∧ Assigned { s with now := max s.now t } u d w.outlet w.dir ∧
          u.outlets[w.outlet] = { s.outlets[w.outlet] with unverified := none } ∧ u.queue = s.queue ∧
          u.loads = s.loads ∧ (∀ x : DriverNo, x ≠ d → u.drivers[x] = s.drivers[x]) ∧
          ∀ k : OutletIx, k ≠ job.outlet → k ≠ w.outlet → u.moves[k] = s.moves[k] ∧ u.outlets[k] = s.outlets[k])) ∧
    (s.scanDue = false → max s.now t < stop → exec (.pulseEnd t d) s = .next { s with now := max s.now t })

/-- R85, R87, R65 to R67, R86: a movement completes when its pulse ends, already shown by the sense or on a phase that is
not usable; when the sense shows it before its verify deadline; or at that deadline on a phase that is not usable. Its
outlet, its owner and its estimate follow (`Completed`). A sense with no change since the end of the reset reports the stamp
0 (log entry 14). A report of a run that began exactly at the window end falls due at the instant of the deadline: that
whichever of the two commands comes first decides there is the model's choice (log entry 48). A command that comes later
than its event's instant acts when it comes (log entry 4). A record that ends by it is FREE, its empty rest time 0 (log
entry 51). -/
def Obligations.MovementCompletes : Prop :=
  ∀ (s : State) (t : Nat) (k : OutletIx) (q : Pulse), s.resetting = none → Control s → MemWf s.mem →
    (∀ (d : DriverNo) (job : DriverJob) (stop : Nat), s.drivers[d] = .driving job stop → job.outlet = k →
      s.moves[k] = .driving q → stop ≤ max s.now t → (s.usable q.phase = true → q.satisfied ≠ .no) →
      ∃ u, exec (.pulseEnd t d) s = .next u ∧ Completed s u k q (!s.usable q.phase) ∧ u.now = max s.now t ∧
        sameMeasuring s u ∧ sameInputs s u) ∧
    (s.moves[k] = .verifying q → q.deadline ≤ max s.now t → s.usable q.phase = false →
      ∃ u, exec (.verifyDeadline t k) s = .next u ∧ Completed s u k q true ∧ u.now = max s.now t ∧ sameMeasuring s u ∧
        sameInputs s u) ∧
    ∀ r, (s.sense[k].run = some r ∨ s.sense[k].run = none ∧ r = 0) → s.moves[k] = .verifying q → q.satisfied = .no → s.sense[k].raw ≠ s.sense[k].level →
      r + 2000 ≤ max s.now t → s.sense[k].raw = (q.dir == .toClosed) → q.start ≤ r → r ≤ q.windowEnd →
      ∃ u, exec (.senseChange t k) s = .next u ∧ Completed s u k { q with satisfied := .measured (r - q.start) } false ∧
        u.now = max s.now t ∧ u.sense[k] = { s.sense[k] with level := s.sense[k].raw } ∧ samePort s u ∧ u.fifo = s.fifo

/-- R88, R77, R78, R81, R82: the first failed verification files RELAY_RETRY and needs one more pulse of the same
direction: the lowest FREE driver takes it at once, aimed afresh (`Assigned`), else it waits at the end of the list.
Before the deadline nothing changes but the clock (log entry 3); a VERIFY_DEADLINE that comes after it acts when it comes
(log entry 4). Where a sense run that began exactly at the window end would be reported at the instant of the deadline,
that a VERIFY_DEADLINE which stands before the report retries is the model's choice (log entry 48). -/
def Obligations.FirstFailureRetries : Prop :=
  ∀ (s : State) (t : Nat) (k : OutletIx) (q : Pulse), s.resetting = none → s.scanDue = false → MemWf s.mem →
    s.moves[k] = .verifying q → s.usable q.phase = true → s.outlets[k].retry = false →
    (q.deadline ≤ max s.now t →
      ∃ u, exec (.verifyDeadline t k) s = .next u ∧ u.outlets[k].retry = true ∧
        u.outlets[k].state = s.outlets[k].state ∧ u.outlets[k].owner = s.outlets[k].owner ∧
        u.outlets[k].pending = s.outlets[k].pending ∧ moveDir u.moves[k] = some q.dir ∧
        (s.logFull = false → logEntry u.mem s.writeCount .relayRetry (k.val + 1) (if q.dir = .toClosed then 48 else 49)
          (BitVec.ofNat 32 (max s.now t / 1000)) (BitVec.ofNat 32 q.estimate) ∧ u.writeCount = s.writeCount + 1) ∧
        ((∀ d : DriverNo, s.drivers[d] ≠ .free) → u.moves[k] = .waiting q.dir ∧ u.drivers = s.drivers ∧
          u.outlets[k] = { s.outlets[k] with retry := true } ∧
          u.waitList = s.waitList ++ [{ outlet := k, dir := q.dir, retry := true }]) ∧
        (∀ d : DriverNo, s.drivers[d] = .free → (∀ x : DriverNo, x < d → s.drivers[x] ≠ .free) →
          Assigned { s with now := max s.now t } u d k q.dir ∧
          u.outlets[k] = { s.outlets[k] with retry := true, unverified := none } ∧ u.waitList = s.waitList ∧ ∀ x : DriverNo, x ≠ d → u.drivers[x] = s.drivers[x]) ∧
        (∀ j : OutletIx, j ≠ k → u.outlets[j] = s.outlets[j] ∧ u.moves[j] = s.moves[j]) ∧
        u.queue = s.queue ∧ u.loads = s.loads ∧ u.stripGrant = s.stripGrant ∧ u.shed = s.shed ∧
        sameMeasuring s u ∧ sameInputs s u ∧ u.cycles = s.cycles ∧ u.watches = s.watches ∧ u.orders = s.orders ∧
        sameBytesOutside (fun a => noticeBytes a || guardedBytes a) s.mem u.mem) ∧
    (max s.now t < q.deadline → exec (.verifyDeadline t k) s = .next { s with now := max s.now t })

/-- R89, R68, R126, R141, R142: the second failure of a movement puts its outlet into FAULT with the fault kind of its
direction, files RELAY_FAULT, ends its reservation, and tells FAULTED to its owner and to the owner of a pending request.
A record on its way back counts it failed, a withdrawn participant too (log entry 47); a record that opens or rests is
abandoned: class 0, every other participant is closed again, and CYCLE_ABANDONED is filed, behind RELAY_FAULT (log entry
23). A VERIFY_DEADLINE that comes after the deadline acts when it comes (log entry 4). Where a sense run that began exactly
at the window end would be reported at the instant of the deadline, that a VERIFY_DEADLINE which stands before the report
puts the outlet into FAULT is the model's choice (log entry 48). A record that ends by it is FREE, its empty rest time 0
(log entry 51). -/
def Obligations.SecondFailureFaults : Prop :=
  ∀ (s : State) (t : Nat) (k : OutletIx) (q : Pulse), s.resetting = none → Control s → MemWf s.mem →
    s.moves[k] = .verifying q → q.deadline ≤ max s.now t → s.usable q.phase = true → s.outlets[k].retry = true →
    let stamp := BitVec.ofNat 32 (max s.now t / 1000)
    let reason := if q.dir = .toClosed then 48 else 49
    ∃ u, exec (.verifyDeadline t k) s = .next u ∧ u.moves[k] = .none ∧ u.outlets[k].state = .fault ∧
      u.outlets[k].faultKind = some (if q.dir = .toClosed then .failToClose else .failToOpen) ∧
      u.outlets[k].owner = none ∧ u.outlets[k].pending = none ∧ u.outlets[k].retry = true ∧
      u.outlets[k].unverified = none ∧ u.outlets[k].wholeFrame = false ∧
      u.outlets[k].shedMark = s.outlets[k].shedMark ∧
      (∀ b : Branch, ∀ r ∈ u.loads[b].reservations, r.1 ≠ k) ∧
      (logUsed s.mem < 256 → logEntry u.mem s.writeCount .relayFault (k.val + 1) reason stamp (BitVec.ofNat 32 q.estimate)) ∧
      (s.outlets[k].cycle = none → u.cycles = s.cycles ∧ u.watches = s.watches ∧
        (∀ e, s.outlets[k].owner = some (.order e) → orderAnswered s u e k .faulted) ∧
        (∀ e, (s.outlets[k].pending = some (.opn (.order e)) ∨
            ∃ cl, s.outlets[k].pending = some (.cls cl (.order e))) → orderAnswered s u e k .faulted) ∧
        (∀ b, s.outlets[k].owner = some (.restore b) → k ∉ u.shed[b].round ∧ u.shed[b].list = s.shed[b].list) ∧
        ((∃ b, s.outlets[k].owner = some (.shed b)) → s.outlets[k].pending = none → u.shed = s.shed)) ∧
      (∀ c : RecNo, s.outlets[k].cycle = some c →
        ((s.cycles[c].state = .closing ∨ s.cycles[c].state = .restoring) → recordBecomes u c (withFailed s.cycles[c] k)) ∧
        ((s.cycles[c].state = .opening ∨ s.cycles[c].state = .resting) → s.cycles[c].closed = [] →
          s.cycles[c].failed = [] → s.cycles[c].withdrawn = [] →
          (∀ j ∈ s.cycles[c].participants, j ≠ k → s.outlets[j].pending = none ∧
            (s.outlets[j].state = .opening ∨ s.outlets[j].state = .resting)) →
          recordBecomes u c { withFailed s.cycles[c] k with state := .restoring, restDeadline := none, cls := some 0 } ∧
          (∀ j ∈ s.cycles[c].participants, j ≠ k →
            (s.outlets[j].state = .resting → u.outlets[j].owner = some (.cycle c) ∧
              (u.outlets[j].state = .closing ∨ u.outlets[j].state = .awaitClose)) ∧
            (s.outlets[j].state = .opening → u.outlets[j].state = .opening ∧
              u.outlets[j].pending = some (.cls 0 (.cycle c)))) ∧
          (logUsed s.mem + 2 ≤ 256 →
            logEntry u.mem (s.writeCount + 1) .cycleAbandoned c.val reason stamp (BitVec.ofNat 32 (k.val + 1))))) ∧
      sameMeasuring s u ∧ sameInputs s u ∧ sameBytesOutside (fun a => blockBytes a || guardedBytes a) s.mem u.mem

/-! ### Cycles -/

/-- R139, R140, R61: at the end of its rest a cycle closes, in class 1 if an urgent order is among its origins, else in
class 2 if an order is, else in class 3; every resting participant joins the close queue or starts to close on the cycle's
behalf. Before that instant nothing changes but the clock (log entry 3); a REST_DEADLINE that comes after it acts when it
comes (log entry 4). -/
def Obligations.RestDeadlineClosesParticipants : Prop :=
  ∀ (s : State) (t : Nat) (c : RecNo) (d : Nat), s.resetting = none → s.scanDue = false →
    s.cycles[c].state = .resting → s.cycles[c].restDeadline = some d → s.cycles[c].participants.Nodup →
    (∀ k ∈ s.cycles[c].participants, s.outlets[k].state = .resting ∧ s.outlets[k].cycle = some c) →
    (d ≤ max s.now t →
      ∃ u cl, exec (.restDeadline t c) s = .next u ∧
        u.cycles[c] = { s.cycles[c] with state := .closing, restDeadline := none, cls := some cl } ∧
        ((∃ e, Origin.order e true ∈ s.cycles[c].origins) → cl = 1) ∧
        ((∃ e, Origin.order e false ∈ s.cycles[c].origins) → (∀ e, Origin.order e true ∉ s.cycles[c].origins) →
          cl = 2) ∧
        ((∀ e v, Origin.order e v ∉ s.cycles[c].origins) → cl = 3) ∧
        (∀ x : RecNo, x ≠ c → u.cycles[x] = s.cycles[x]) ∧
        (∀ k ∈ s.cycles[c].participants, (u.outlets[k].state = .awaitClose ∨ u.outlets[k].state = .closing) ∧
          u.outlets[k].owner = some (.cycle c)) ∧
        u.shed = s.shed ∧ u.watches = s.watches ∧ u.orders = s.orders ∧ sameMeasuring s u ∧ sameInputs s u ∧
        u.cause = s.cause ∧ sameBytesOutside guardedBytes s.mem u.mem) ∧
    (max s.now t < d → exec (.restDeadline t c) s = .next { s with now := max s.now t })

/-- R133 to R136: an admission is settled by the first row of the table of R134 whose condition holds. Row 1 attaches the
origin to a record that opens or rests, or refuses a fifth; rows 2 to 6 refuse with their reason and outlet and change
nothing; row 7 starts the lowest FREE record with the ON targets as participants, each of which opens, and the OFF targets
skipped. An attached origin stands last in the list, also after a detachment, by the model's choice (log entry 42). -/
def Obligations.AdmissionTable : Prop :=
  ∀ (s : State) (o : Origin) (targets : List OutletIx) (rest : Nat),
    let a := s.admission o targets rest
    let retriggers := fun (c : RecNo) => (s.cycles[c].state = .opening ∨ s.cycles[c].state = .resting) ∧
      (∃ k ∈ targets, k ∈ s.cycles[c].participants) ∧
      ∀ k ∈ targets, k ∈ s.cycles[c].participants ∨ s.outlets[k].state = .off ∧ s.outlets[k].cycle = none
    let firstWith := fun (p : OutletIx → Prop) (k : OutletIx) =>
      ∃ front back, targets = front ++ k :: back ∧ p k ∧ ∀ j ∈ front, ¬p j
    let faulty := fun (k : OutletIx) => s.outlets[k].state = .fault
    let unknown := fun (k : OutletIx) => s.outlets[k].state = .unknown
    let busy := fun (k : OutletIx) => s.outlets[k].cycle ≠ none ∨ s.outlets[k].state = .awaitClose ∨
      s.outlets[k].state = .closing ∨ s.outlets[k].state = .opening ∨ s.outlets[k].state = .resting
    (∀ c : RecNo, retriggers c → (∀ x : RecNo, x < c → ¬retriggers x) →
      (∀ k, 4 ≤ s.cycles[c].origins.length → firstWith (· ∈ s.cycles[c].participants) k →
        a = (s, .refused .busy (some k))) ∧
      (s.cycles[c].origins.length < 4 → a.2 = .attached c ∧ a.1 = { s with cycles := a.1.cycles } ∧
        (∀ x : RecNo, x ≠ c → a.1.cycles[x] = s.cycles[x]) ∧
        a.1.cycles[c] = { s.cycles[c] with
          origins := s.cycles[c].origins ++ [o], restTime := rest
          restDeadline := if s.cycles[c].state = .resting then some (s.now + rest * 1000)
            else s.cycles[c].restDeadline })) ∧
    ((∀ c, ¬retriggers c) →
      (∀ k, firstWith faulty k → a = (s, .refused (.member .faulted) (some k))) ∧
      ((∀ k ∈ targets, ¬faulty k) → ∀ k, firstWith unknown k → a = (s, .refused (.member .unknownState) (some k))) ∧
      ((∀ k ∈ targets, ¬faulty k ∧ ¬unknown k) →
        (∀ k, firstWith busy k → a = (s, .refused .busy (some k))) ∧
        ((∀ k ∈ targets, ¬busy k) →
          ((∀ k ∈ targets, s.outlets[k].state ≠ .on) → a = (s, .refused .nothingOn none)) ∧
          ((∃ k ∈ targets, s.outlets[k].state = .on) →
            ((∀ c : RecNo, s.cycles[c].state ≠ .free) → a = (s, .refused .full none)) ∧
            ∀ c : RecNo, s.cycles[c].state = .free → (∀ x : RecNo, x < c → s.cycles[x].state ≠ .free) →
              a.2 = .admitted c ∧ (∀ x : RecNo, x ≠ c → a.1.cycles[x] = s.cycles[x]) ∧
              (∃ ps : List OutletIx, ps.Pairwise (· < ·) ∧ (∀ k, k ∈ ps ↔ k ∈ targets ∧ s.outlets[k].state = .on) ∧
                a.1.cycles[c] =
                  { CycleRec.free with
                    state := .opening, participants := ps, restTime := rest, origins := [o]
                    skipped := targets.filter fun k => s.outlets[k].state = .off }) ∧
              (∀ k ∈ targets, s.outlets[k].state = .on → a.1.outlets[k].state = .opening ∧
                a.1.outlets[k].cycle = some c ∧ a.1.outlets[k].owner = some (.cycle c)) ∧
              (∀ k ∈ targets, s.outlets[k].state = .off → a.1.outlets[k] = s.outlets[k]) ∧
              a.1.shed = s.shed ∧ a.1.watches = s.watches ∧ a.1.orders = s.orders ∧ a.1.mem = s.mem ∧
              a.1.queue = s.queue))))

/-- R144, R145, R164: a record that ends clears its memberships, hands one outcome to its origins in order, and is FREE,
every field empty: the rest time as 0, by the model's choice (log entry 51).
An order origin's slot shows the outcome with the record's number and sets; a CYCLING watch goes to GRACE or WATCHING, or
gives up with WATCH_GAVE_UP. -/
def Obligations.RecordEndTellsOrigins : Prop :=
  ∀ (s : State) (c : RecNo), MemWf s.mem → s.cycles[c].origins.Nodup →
    let r := s.cycles[c]
    let u := s.endRecord c
    let outcome : OrderOutcome := if r.cancelled then .canceled else if r.state = .restoring then .abandoned
      else if ∀ k ∈ r.participants, k ∈ r.closed then .done else .partly
    u.cycles[c] = CycleRec.free ∧ (∀ x : RecNo, x ≠ c → u.cycles[x] = s.cycles[x]) ∧
    (∀ k ∈ r.participants, u.outlets[k] = { s.outlets[k] with cycle := none }) ∧
    (∀ k, k ∉ r.participants → u.outlets[k] = s.outlets[k]) ∧
    u.drivers = s.drivers ∧ u.moves = s.moves ∧ u.loads = s.loads ∧ u.queue = s.queue ∧ u.shed = s.shed ∧
    (∀ e v, Origin.order e v ∈ r.origins → s.orders[e] ≠ none → orderFinished u e
      { outcome := outcome, reason := none, detail := r.faultOutlet, record := some c, doneSet := r.closed
        failedSet := r.failed, skippedSet := r.skipped }) ∧
    (∀ e : SlotNo, (∀ v, Origin.order e v ∉ r.origins) → u.orders[e] = s.orders[e]) ∧
    (∀ w : WatchNo, .watch w ∉ r.origins → u.watches[w] = s.watches[w]) ∧
    (∀ w : WatchNo, .watch w ∈ r.origins →
      let x := s.watches[w]
      let cfg := s.work.watches[w]
      (outcome = .done → u.watches[w] = { x with
        state := if cfg.grace = 0 then .watching else .grace
        framesLeft := if cfg.grace = 0 then cfg.timeout else cfg.grace
        reference := none, record := none }) ∧
      (outcome = .canceled → u.watches[w] = { x with
        state := .watching, framesLeft := cfg.timeout, reference := none, record := none }) ∧
      (outcome = .partly ∨ outcome = .abandoned →
        u.watches[w] = { x with state := .gaveUp, framesLeft := 0, record := none } ∧
        (r.origins = [.watch w] → s.logFull = false →
          logEntry u.mem s.writeCount .watchGaveUp w.val outcome.code s.partTime (BitVec.ofNat 32 x.consecutive))))


/-! ### Orders -/

/-- R170: what a post does, by its value and the slot it names. -/
def Obligations.PostTable : Prop :=
  ∀ (s : State) (t : Nat) (v : Word), s.resetting = none →
    (s.fifo.Nodup → s.fifo.length ≤ 32) ∧
    (32 ≤ v.toNat → exec (.post t v) s = .next { s with now := max s.now t, cause := s.cause ||| 16#32 }) ∧
    ∀ e : SlotNo, v = BitVec.ofNat 32 e.val →
      (e ∈ s.fifo ∨ s.orders[e] ≠ none → exec (.post t v) s = .next { s with now := max s.now t, cause := s.cause ||| 8#32 }) ∧
      (e ∉ s.fifo ∧ s.orders[e] = none → exec (.post t v) s = .next { s with now := max s.now t, fifo := s.fifo ++ [e] })

/-- R171 to R173, R180: a slot number taken from the intake FIFO whose slot is not POSTED is dropped as a stray. A posted
slot of an unknown kind, and one whose target does not resolve, are refused: result words, stamps, state REFUSED, the
order cause bit, and ORDER_FINISHED where the slot asks for it; the order's own words stay as written. R173, R174: a LIST
names its first count entries in list order, a MATCH every outlet whose tag agrees with the match value under the mask, in
ascending order; which outlet a list with two repeats names as detail is the model's choice (log entry 43). A take row acts
on the head of the FIFO (log entry 31), and a slot is POSTED by its whole state word (log entry 27). -/
def Obligations.TakeDropsOrRefuses : Prop :=
  (∀ (m : Mem) (e : SlotNo),
    let f := slotFields m e
    let byte := fun (i : Nat) => readByte m (slotAddr e + i)
    f.kind = byte 4 ∧ f.notify = (byte 5).getLsbD 0 ∧ f.urgent = (byte 5).getLsbD 1 ∧ f.form = byte 6 ∧ f.count = byte 7 ∧
    f.list = [byte 8, byte 9, byte 10, byte 11, byte 12, byte 13, byte 14, byte 15] ∧ f.matchValue = byte 16 ∧
    f.matchMask = byte 17 ∧ f.hostRef = byte 19 ++ byte 18 ∧ f.param = byte 23 ++ byte 22 ++ byte 21 ++ byte 20) ∧
  (∀ (work : Settings) (f : SlotFields),
    let entries := f.list.take f.count.toNat
    let members := resolveTargets work f
    (1 < f.form.toNat → members = .error none) ∧
    (f.form = 0 → (f.count = 0 ∨ 8 < f.count.toNat) → members = .error none) ∧
    (f.form = 0 → 1 ≤ f.count.toNat → f.count.toNat ≤ 8 →
      ((∃ v ∈ entries, v = 0 ∨ 48 < v.toNat) → members = .error none) ∧
      ((∀ v ∈ entries, 1 ≤ v.toNat ∧ v.toNat ≤ 48) →
        (entries.Nodup → ∃ ms, members = .ok ms ∧ ms.map (fun k => k.val + 1) = entries.map (·.toNat)) ∧
        ∀ front v back, entries = front ++ v :: back → front.Nodup → v ∈ front →
          ∃ k, members = .error (some k) ∧ k.val + 1 = v.toNat)) ∧
    (f.form = 1 →
      let hit := fun (k : OutletIx) => ∀ i, i < 8 → f.matchMask.getLsbD i = true →
        work.outlets[k].groupTag.getLsbD i = f.matchValue.getLsbD i
      ((∀ k, ¬hit k) → members = .error none) ∧
      ((∃ k, hit k) → ∃ ms, members = .ok ms ∧ ms.Pairwise (· < ·) ∧ ∀ k, k ∈ ms ↔ hit k))) ∧
  ∀ (s : State) (t : Nat) (e : SlotNo) (rest : List SlotNo), s.resetting = none → s.fifo = e :: rest →
    let refused := fun (u : State) (word : Word) =>
      u = { s with now := max s.now t, fifo := rest, mem := u.mem, cause := u.cause, orders := u.orders } ∧
      u.orders[e] = none ∧ slotState u.mem e = 4 ∧
      readWord u.mem (slotAddr e + 0x18) = word ∧
      (∀ a, within (slotAddr e + 0x1C) 24 a = true → readByte u.mem a = 0) ∧
      readWord u.mem (slotAddr e + 0x34) = BitVec.ofNat 32 (max s.now t / 1000) ∧
      readWord u.mem (slotAddr e + 0x38) = BitVec.ofNat 32 (max s.now t / 1000) ∧
      (∀ a, within (slotAddr e + 4) 20 a = true → readByte u.mem a = readByte s.mem a) ∧
      u.cause &&& 4#32 = 4#32 ∧ (∀ j : SlotNo, j ≠ e → u.orders[j] = s.orders[j]) ∧
      ((slotFields s.mem e).notify = true → s.logFull = false →
        logEntry u.mem s.writeCount .orderFinished e.val 8 (BitVec.ofNat 32 (max s.now t / 1000))
          ((readHalf s.mem (slotAddr e + 18)).setWidth 32)) ∧
      ((slotFields s.mem e).notify = false → sameBytesOutside (slotBytes e) s.mem u.mem) ∧
      sameBytesOutside (fun a => slotBytes e a || noticeBytes a) s.mem u.mem
    (slotState s.mem e ≠ 1 →
      exec (.slotDrop t) s = .next { s with now := max s.now t, fifo := rest, cause := s.cause ||| 16#32 }) ∧
    (s.scanDue = false → MemWf s.mem → slotState s.mem e = 1 →
      ((readByte s.mem (slotAddr e + 4)).toNat = 0 ∨ 8 < (readByte s.mem (slotAddr e + 4)).toNat) →
      ∃ u, exec (.orderKindRefused t) s = .next u ∧ refused u 0xFF002008#32) ∧
    ∀ (i : Instr) (kind : OrderKind) (detail : Option OutletIx),
      (i, kind) ∈ [(.switchOn t, .switchOn), (.switchOff t, .switchOff), (.cycle t, .cycle),
        (.clearFault t, .clearFault), (.clearEnergy t, OrderKind.clearEnergy)] →
      s.scanDue = false → Taken s e rest kind → resolveTargets s.work (slotFields s.mem e) = .error detail →
      ∃ u, exec i s = .next u ∧
        refused u (BitVec.ofNat 32 (0xFF002108 + 65536 * match detail with | none => 0 | some k => k.val + 1))

/-- R172, R175, R55, R56, R105, R179, R180: a SWITCH_ON order over OFF outlets is taken, and each target starts to close
for that order, with a driver that was FREE and the job and movement of its assignment (R78, R81, R82), or waits in the
close queue with the class that URGENT gives, stamped with the instant of the take. One
over outlets that are all ON finishes at once, DONE with result DONE and its map of targets, and moves nothing. R53 to R58,
R60 to R62: one over a single outlet in any other state, or in a cycle, is answered at once, or replaces the owner, or is
held against the movement in course, with SUPERSEDED for the owner it replaces or drops (`Requested`). -/
def Obligations.SwitchOnMembers : Prop :=
  ∀ (s : State) (t : Nat) (e : SlotNo) (rest : List SlotNo) (ms : List OutletIx), Taken s e rest .switchOn →
    resolveTargets s.work (slotFields s.mem e) = .ok ms →
    (Control s → (∀ k ∈ ms, s.outlets[k].state = .off ∧ s.outlets[k].cycle = none) →
      ∃ u, exec (.switchOn t) s = .next u ∧ u.fifo = rest ∧ slotState u.mem e = 2 ∧
        u.orders[e] = some { fields := slotFields s.mem e, members := ms.map fun k => (k, none), record := none } ∧
        (∀ k ∈ ms, u.outlets[k].owner = some (.order e) ∧ u.outlets[k].shedMark = false ∧
          (u.outlets[k].state = .closing ∧ (∃ d : DriverNo, s.drivers[d] = .free ∧
              Assigned { s with now := max s.now t } u d k .toClosed) ∨ u.outlets[k].state = .awaitClose ∧
            ∃ x ∈ u.queue, x.outlet = k ∧ x.owner = .order e ∧ x.cls = (if (slotFields s.mem e).urgent then 1 else 2) ∧
              x.instant = max s.now t ∧ x.stamp = BitVec.ofNat 32 (max s.now t / 1000))) ∧
        (∀ j : SlotNo, j ≠ e → u.orders[j] = s.orders[j]) ∧ u.cycles = s.cycles ∧ u.watches = s.watches ∧
        sameMeasuring s u ∧ samePort s u ∧ u.cause = s.cause ∧
        sameBytesOutside (fun a => slotBytes e a || guardedBytes a) s.mem u.mem) ∧
    (s.scanDue = false → (∀ k ∈ ms, s.outlets[k].state = .on ∧ s.outlets[k].cycle = none) →
      ∃ u, exec (.switchOn t) s = .next u ∧
        u = { s with now := max s.now t, fifo := rest, mem := u.mem, cause := u.cause, orders := u.orders
                     outlets := u.outlets, shed := u.shed } ∧
        slotState u.mem e = 3 ∧ u.orders[e] = none ∧ (∀ j : SlotNo, j ≠ e → u.orders[j] = s.orders[j]) ∧
        readWord u.mem (slotAddr e + 0x18) = 0xFF000001#32 ∧
        readWord u.mem (slotAddr e + 0x1C) = BitVec.ofNat 32 (outletMap ms % 2 ^ 32) ∧
        readWord u.mem (slotAddr e + 0x20) = BitVec.ofNat 32 (outletMap ms / 2 ^ 32) ∧ u.cause &&& 4#32 = 4#32 ∧
        (∀ k ∈ ms, u.outlets[k] = { s.outlets[k] with shedMark := false }) ∧
        (∀ k, k ∉ ms → u.outlets[k] = s.outlets[k]) ∧
        sameBytesOutside (fun a => slotBytes e a || noticeBytes a || guardedBytes a) s.mem u.mem) ∧
    (Control s → s.scanDue = false → ∀ k, ms = [k] → (∀ w, s.outlets[k].owner = some w → w ≠ .order e) →
      (∀ q, s.outlets[k].pending = some q → q.owner ≠ .order e) →
      let o := s.outlets[k]
      let clear := { o with shedMark := false }
      let mine := Owner.order e
      let asked := fun (r : Option MemberOutcome) (o : Outlet) (queue : List QueueEntry) (dropped : Owner → Prop) =>
        ∃ u, exec (.switchOn t) s = .next u ∧ Requested s u (max s.now t) e rest k r o queue dropped
      (∀ r, closeAnswer o = some r → asked (some r) clear s.queue fun _ => False) ∧
      (o.cycle = none → o.state = .awaitClose → asked none { clear with owner := some mine }
        (s.queue.map fun x => if x.outlet = k then { x with owner := mine } else x) (ownedBy o)) ∧
      (o.cycle = none → o.state = .closing → asked none { clear with owner := some mine, pending := none } s.queue
        fun w => ownedBy o w ∨ pendingOf o w) ∧
      (o.cycle = none → o.state = .opening → asked none
        { clear with pending := some (.cls (if (slotFields s.mem e).urgent then 1 else 2) mine) } s.queue (pendingOf o)))

/-- R175, R59, R77, R103: a SWITCH_OFF order over ON outlets is taken: each target starts to open for that order, its
reservation ends, and its open request has a coil driver that was FREE or stands in the wait list, with retry count 0; the
first takes the lowest FREE driver, and with none FREE all of them wait in member order. R78, R81, R82: an assignment records
the job and the movement (`Assigned`). R53 to R57, R60
to R62: one over a single outlet in any other state, or in a cycle, is answered at once, replaces the owner, or is held
against the movement in course (`Requested`); in AWAIT_CLOSE the close leaves the queue, and both are answered. -/
def Obligations.SwitchOffOpensMembers : Prop :=
  ∀ (s : State) (t : Nat) (e : SlotNo) (rest : List SlotNo) (ms : List OutletIx), Taken s e rest .switchOff →
    resolveTargets s.work (slotFields s.mem e) = .ok ms →
    ((∀ k ∈ ms, s.outlets[k].state = .on ∧ s.outlets[k].cycle = none ∧ ∀ x ∈ s.queue, x.outlet ≠ k) →
    ∃ u, exec (.switchOff t) s = .next u ∧ u.fifo = rest ∧ slotState u.mem e = 2 ∧
      u.orders[e] = some { fields := slotFields s.mem e, members := ms.map fun k => (k, none), record := none } ∧
      (∀ k ∈ ms, u.outlets[k].state = .opening ∧ u.outlets[k].owner = some (.order e) ∧
        u.outlets[k].wholeFrame = false ∧ u.outlets[k].shedMark = false ∧ u.outlets[k].retry = false ∧
        u.outlets[k].lastChange = BitVec.ofNat 32 (max s.now t / 1000) ∧
        (u.moves[k] = .waiting .toOpen ∧ { outlet := k, dir := .toOpen, retry := false } ∈ u.waitList ∨
          ∃ d : DriverNo, s.drivers[d] = .free ∧ Assigned { s with now := max s.now t } u d k .toOpen) ∧
        ∀ b : Branch, ∀ r ∈ u.loads[b].reservations, r.1 ≠ k) ∧
      (∀ k more, ms = k :: more →
        (∀ d : DriverNo, s.drivers[d] = .free → (∀ x : DriverNo, x < d → s.drivers[x] ≠ .free) →
          Assigned { s with now := max s.now t } u d k .toOpen) ∧
        ((∀ d : DriverNo, s.drivers[d] ≠ .free) → u.moves[k] = .waiting .toOpen ∧ u.waitList = s.waitList ++
          ms.map fun j => { outlet := j, dir := .toOpen, retry := false })) ∧
      (∃ more, u.waitList = s.waitList ++ more) ∧
      (∀ j : SlotNo, j ≠ e → u.orders[j] = s.orders[j]) ∧ u.cycles = s.cycles ∧ u.watches = s.watches ∧
      sameMeasuring s u ∧ samePort s u ∧ u.cause = s.cause ∧
      sameBytesOutside (fun a => slotBytes e a || guardedBytes a) s.mem u.mem) ∧
    (Control s → s.scanDue = false → ∀ k, ms = [k] → (∀ w, s.outlets[k].owner = some w → w ≠ .order e) →
      (∀ q, s.outlets[k].pending = some q → q.owner ≠ .order e) →
      let o := s.outlets[k]
      let clear := { o with shedMark := false }
      let mine := Owner.order e
      let asked := fun (r : Option MemberOutcome) (o : Outlet) (dropped : Owner → Prop) =>
        ∃ u, exec (.switchOff t) s = .next u ∧ Requested s u (max s.now t) e rest k r o s.queue dropped
      (∀ r, openAnswer o = some r → asked (some r) clear fun _ => False) ∧
      (o.cycle = none → o.state = .closing → asked none { clear with pending := some (.opn mine) } (pendingOf o)) ∧
      (o.cycle = none → o.state = .opening → asked none { clear with owner := some mine, pending := none }
        fun w => ownedBy o w ∨ pendingOf o w) ∧
      (o.cycle = none → o.state = .awaitClose → ∃ u, exec (.switchOff t) s = .next u ∧ u.fifo = rest ∧
        u.outlets[k] = { clear with state := .off, owner := none, lastChange := partOf (max s.now t) } ∧
        orderFinished u e (loneResult k .ok) ∧ (∀ x, o.owner = some (.order x) → orderAnswered s u x k .superseded) ∧
        (∀ j : SlotNo, j ≠ e → o.owner ≠ some (.order j) → u.orders[j] = s.orders[j]) ∧
        (∀ x ∈ u.queue, x ∈ s.queue ∧ x.outlet ≠ k) ∧
        (∀ j : OutletIx, j ≠ k → u.outlets[j] = s.outlets[j] ∨
          s.outlets[j].state = .awaitClose ∧ u.outlets[j].state = .closing ∧ u.outlets[j].owner = s.outlets[j].owner) ∧
        (∀ b : Branch, u.shed[b].list = s.shed[b].list.filter (· ≠ k) ∧
          u.shed[b].round = s.shed[b].round.filter (· ≠ k)) ∧
        u.cycles = s.cycles ∧ u.watches = s.watches ∧ sameMeasuring s u ∧ samePort s u ∧
        sameBytesOutside (fun a => blockBytes a || guardedBytes a) s.mem u.mem))

/-- R133 to R136, R177, R180: what a CYCLE order does, by the answer of its admission. Over targets that are ON or OFF it takes
the lowest FREE record: the ON ones open as its participants, the OFF ones are skipped. Refused, it finishes REFUSED with
the reason and the outlet; attached to a running record, it waits as the last of that record's origins, also after a
detachment, by the model's choice (log entry 42). -/
def Obligations.CycleOrderAdmitted : Prop :=
  ∀ (s : State) (t : Nat) (e : SlotNo) (rest : List SlotNo) (ms : List OutletIx), Taken s e rest .cycle →
    resolveTargets s.work (slotFields s.mem e) = .ok ms →
    let now := max s.now t
    let f := slotFields s.mem e
    let time := if f.param = 0 then 10000 else max 1000 (min 600000 f.param.toNat)
    let answer := (s.admission (.order e f.urgent) ms time).2
    (∀ c : RecNo, (∀ k ∈ ms, (s.outlets[k].state = .on ∨ s.outlets[k].state = .off) ∧ s.outlets[k].cycle = none ∧
        (∀ x ∈ s.queue, x.outlet ≠ k) ∧ ∀ r : RecNo, k ∉ s.cycles[r].participants) →
      (∃ k ∈ ms, s.outlets[k].state = .on) →
      s.cycles[c].state = .free → (∀ r : RecNo, r < c → s.cycles[r].state ≠ .free) →
      ∃ u, exec (.cycle t) s = .next u ∧ u.fifo = rest ∧ slotState u.mem e = 2 ∧
        u.orders[e] = some { fields := f, members := [], record := some c } ∧
        u.cycles[c] = { CycleRec.free with
          state := .opening, participants := u.cycles[c].participants, restTime := time
          origins := [.order e f.urgent], skipped := ms.filter fun k => s.outlets[k].state = .off } ∧
        (∀ k, k ∈ u.cycles[c].participants ↔ k ∈ ms ∧ s.outlets[k].state = .on) ∧
        u.cycles[c].participants.Pairwise (· < ·) ∧
        (∀ r : RecNo, r ≠ c → u.cycles[r] = s.cycles[r]) ∧
        (∀ k ∈ ms, s.outlets[k].state = .on → u.outlets[k].state = .opening ∧ u.outlets[k].cycle = some c ∧
          u.outlets[k].owner = some (.cycle c)) ∧
        (∀ k ∈ ms, s.outlets[k].state = .off → u.outlets[k] = s.outlets[k]) ∧
        (∀ j : SlotNo, j ≠ e → u.orders[j] = s.orders[j]) ∧ u.shed = s.shed ∧ u.watches = s.watches ∧
        sameMeasuring s u ∧ samePort s u ∧ u.cause = s.cause ∧
        sameBytesOutside (fun a => slotBytes e a || guardedBytes a) s.mem u.mem) ∧
    (s.scanDue = false → ∀ reason detail, answer = .refused reason detail →
      ∃ u, exec (.cycle t) s = .next u ∧
        u = { s with now := now, fifo := rest, mem := u.mem, cause := u.cause, orders := u.orders } ∧
        orderFinished u e { outcome := .refused, reason := some reason, detail := detail, record := none
                            doneSet := [], failedSet := [], skippedSet := [] } ∧
        (∀ j : SlotNo, j ≠ e → u.orders[j] = s.orders[j]) ∧
        sameBytesOutside (fun a => slotBytes e a || noticeBytes a) s.mem u.mem) ∧
    (s.scanDue = false → ∀ c, answer = .attached c →
      ∃ u, exec (.cycle t) s = .next u ∧
        u = { s with now := now, fifo := rest, mem := u.mem, orders := u.orders, cycles := u.cycles } ∧
        slotState u.mem e = 2 ∧ u.orders[e] = some { fields := f, members := [], record := some c } ∧
        (∀ j : SlotNo, j ≠ e → u.orders[j] = s.orders[j]) ∧ (∀ r : RecNo, r ≠ c → u.cycles[r] = s.cycles[r]) ∧
        u.cycles[c] = { s.cycles[c] with
          origins := s.cycles[c].origins ++ [.order e f.urgent], restTime := time
          restDeadline := if s.cycles[c].state = .resting then some (now + time * 1000) else s.cycles[c].restDeadline } ∧
        sameBytesOutside (fun a => slotBytes e a || guardedBytes a) s.mem u.mem)

/-- R146 to R148, R64, R173, R178: what a CANCEL_CYCLE order does, by its parameter and the state of the record it names.
An accepted cancel finishes the order DONE at once. A record that opens turns back with class 0, one that rests closes
now, and one that closes withdraws the closes that still wait; a record with nothing left to wait for ends CANCELED and is
FREE, its empty rest time 0 (log entry 51). -/
def Obligations.CancelByState : Prop :=
  ∀ (s : State) (t : Nat) (e : SlotNo) (rest : List SlotNo), Taken s e rest .cancelCycle → Control s →
    (∀ (c : RecNo) (v : Bool), Origin.order e v ∉ s.cycles[c].origins) →
    let p := (slotFields s.mem e).param.toNat
    let turnedAway := fun (u : State) (reason : Reason) (n : Option RecNo) =>
      orderFinished u e { outcome := .refused, reason := some reason, detail := none, record := n
                          doneSet := [], failedSet := [], skippedSet := [] } ∧
      u.cycles = s.cycles ∧ u.watches = s.watches ∧ ∀ j : SlotNo, j ≠ e → u.orders[j] = s.orders[j]
    let accepted := fun (u : State) (c : RecNo) =>
      orderFinished u e { outcome := .done, reason := none, detail := none, record := some c
                          doneSet := [], failedSet := [], skippedSet := [] } ∧
      ∀ x : RecNo, x ≠ c → u.cycles[x] = s.cycles[x]
    ∃ u, exec (.cancelCycle t) s = .next u ∧ u.fifo = rest ∧ sameMeasuring s u ∧ samePort s u ∧
      sameBytesOutside (fun a => blockBytes a || guardedBytes a) s.mem u.mem ∧
      (16 ≤ p → turnedAway u .noCycle none) ∧
      ∀ c : RecNo, p = c.val →
        let r := s.cycles[c]
        (r.state = .free → turnedAway u .noCycle (some c)) ∧
        (r.state = .restoring ∨ r.state = .closing ∧ r.cancelled = true → turnedAway u .busy (some c)) ∧
        (r.state = .resting → r.cancelled = false → (∀ k ∈ r.participants, s.outlets[k].state = .resting) →
          accepted u c ∧
          u.cycles[c] = { r with
            state := .closing, restDeadline := none, cancelled := true
            cls := some (if ∃ x, Origin.order x true ∈ r.origins then 1
              else if ∃ x, Origin.order x false ∈ r.origins then 2 else 3) } ∧
          ∀ k ∈ r.participants, (u.outlets[k].state = .awaitClose ∨ u.outlets[k].state = .closing) ∧
            u.outlets[k].owner = some (.cycle c)) ∧
        (r.state = .opening → r.cancelled = false →
          (∀ k ∈ r.participants, s.outlets[k].pending = none ∧
            (s.outlets[k].state = .opening ∨ s.outlets[k].state = .resting)) →
          accepted u c ∧
          recordBecomes u c { r with state := .restoring, restDeadline := none, cls := some 0, cancelled := true } ∧
          ∀ k ∈ r.participants,
            (s.outlets[k].state = .opening → u.outlets[k].state = .opening ∧
              u.outlets[k].pending = some (.cls 0 (.cycle c))) ∧
            (s.outlets[k].state = .resting → u.outlets[k].owner = some (.cycle c) ∧
              (u.outlets[k].state = .closing ∨ u.outlets[k].state = .awaitClose ∧
                ∃ x ∈ u.queue, x.outlet = k ∧ x.cls = 0))) ∧
        (r.state = .closing → r.cancelled = false →
          let waits := fun (k : OutletIx) => s.outlets[k].state = .awaitClose ∧ s.outlets[k].owner = some (.cycle c)
          let after := { r with cancelled := true, withdrawn := r.withdrawn ++ r.participants.filter waits }
          accepted u c ∧ recordBecomes u c after ∧
          (∀ k ∈ r.participants, waits k → u.outlets[k].state = .off ∧ u.outlets[k].owner = none ∧
            ∀ x ∈ u.queue, x.outlet ≠ k) ∧
          (∀ k ∈ r.participants, ¬waits k → s.outlets[k].state ≠ .awaitClose →
            u.outlets[k].state = s.outlets[k].state ∧ u.outlets[k].owner = s.outlets[k].owner) ∧
          (allSettled after → ∀ o v, Origin.order o v ∈ r.origins → s.orders[o] ≠ none → orderFinished u o
            { outcome := .canceled, reason := none, detail := r.faultOutlet, record := some c, doneSet := r.closed
              failedSet := r.failed, skippedSet := r.skipped }))

/-- R71, R176, R179, R128: a CLEAR_FAULT order finishes in its take event with the answers of all its members. A FAULT
outlet of a usable phase goes where its debounced sense says, without fault kind and supervision counts, and FAULT_CLEARED
is filed, in member order; every other outlet stays as it is, and is answered IN_CYCLE, UNKNOWN_STATE or SKIPPED. An outlet
that is found ON loses its shed mark and its places in lists and rounds, and a round that this empties ends. -/
def Obligations.ClearFaultFollowsSense : Prop :=
  ∀ (s : State) (t : Nat) (e : SlotNo) (rest : List SlotNo) (ms : List OutletIx), Taken s e rest .clearFault →
    s.scanDue = false → resolveTargets s.work (slotFields s.mem e) = .ok ms →
    let now := max s.now t
    let level := fun (k : OutletIx) => s.sense[k].level
    let answer := fun (k : OutletIx) => if s.outlets[k].cycle ≠ none then .inCycle
      else match s.outlets[k].state with
        | .fault => if s.usable (phaseOfBranch s.work.outlets[k].branch) then .ok else .unknownState
        | .unknown => .unknownState
        | .off | .awaitClose | .closing | .on | .opening | .resting => MemberOutcome.skipped
    let cleared := fun (k : OutletIx) => k ∈ ms ∧ answer k = .ok
    let foundOn := fun (k : OutletIx) => cleared k ∧ level k = true
    ∃ u, exec (.clearFault t) s = .next u ∧
      u = { s with now := now, fifo := rest, mem := u.mem, cause := u.cause, orders := u.orders
                   outlets := u.outlets, shed := u.shed } ∧
      orderFinished u e (resultOf ms answer) ∧ (∀ j : SlotNo, j ≠ e → u.orders[j] = s.orders[j]) ∧
      (∀ k : OutletIx, ¬cleared k → u.outlets[k] = s.outlets[k]) ∧
      (∀ k : OutletIx, cleared k → u.outlets[k] = { s.outlets[k] with
        state := if level k then .on else .off, faultKind := none, drop := false, weld := false
        lastChange := partOf now, shedMark := s.outlets[k].shedMark && !level k
        peakSeen := s.outlets[k].peakSeen && !level k }) ∧
      (∀ b : Branch,
        let round := s.shed[b].round
        let ends := (∃ k ∈ round, foundOn k) ∧ ∀ k ∈ round, foundOn k
        u.shed[b] = { s.shed[b] with
          list := s.shed[b].list.filter fun k => ¬foundOn k
          round := round.filter fun k => ¬foundOn k
          restoring := s.shed[b].restoring && !decide ends
          restoreCount := if ends then 0 else s.shed[b].restoreCount }) ∧
      (∀ front k back kind, ms = front ++ k :: back → answer k = .ok → s.outlets[k].faultKind = some kind →
        logUsed s.mem + ms.length ≤ 256 ∨ ms = [k] ∧ s.logFull = false →
        logEntry u.mem (s.writeCount + BitVec.ofNat 32 (front.filter fun j => answer j = .ok).length) .faultCleared
          (k.val + 1) kind.code (partOf now) (if level k then 3 else 0)) ∧
      ((∀ k, ¬cleared k) → sameBytesOutside (fun a => slotBytes e a || noticeBytes a) s.mem u.mem) ∧
      sameBytesOutside (fun a => slotBytes e a || noticeBytes a || guardedBytes a) s.mem u.mem

/-- R176, R34: a CLEAR_ENERGY order is taken, and every target's counter is marked to be cleared at the next close. -/
def Obligations.ClearEnergySetsRequests : Prop :=
  ∀ (s : State) (t : Nat) (e : SlotNo) (rest : List SlotNo) (ms : List OutletIx), s.resetting = none →
    s.scanDue = false → MemWf s.mem → s.fifo = e :: rest → slotState s.mem e = 1 →
    orderKindOf (slotFields s.mem e).kind = some .clearEnergy → resolveTargets s.work (slotFields s.mem e) = .ok ms →
    ∃ u, exec (.clearEnergy t) s = .next u ∧
      u = { s with now := max s.now t, fifo := rest, mem := u.mem, orders := u.orders, meter := u.meter } ∧
      slotState u.mem e = 2 ∧ readWord u.mem (slotAddr e + 0x34) = BitVec.ofNat 32 (max s.now t / 1000) ∧
      u.orders[e] = some { fields := slotFields s.mem e, members := ms.map fun k => (k, none), record := none } ∧
      (∀ j : SlotNo, j ≠ e → u.orders[j] = s.orders[j]) ∧
      (∀ k : OutletIx, u.meter[k] = { s.meter[k] with clearReq := s.meter[k].clearReq || decide (k ∈ ms) }) ∧
      sameBytesOutside (slotBytes e) s.mem u.mem

/-- R46: what a LATCH_ENERGY order does, by the state of the latch. -/
def Obligations.LatchOrderByState : Prop :=
  ∀ (s : State) (t : Nat) (e : SlotNo) (rest : List SlotNo), s.resetting = none → s.scanDue = false → MemWf s.mem →
    s.fifo = e :: rest → slotState s.mem e = 1 → orderKindOf (slotFields s.mem e).kind = some .latchEnergy →
    ∃ u, exec (.latchEnergy t) s = .next u ∧
      u = { s with now := max s.now t, fifo := rest, mem := u.mem, cause := u.cause, orders := u.orders, pub := u.pub } ∧
      (s.pub.latch = .empty → u.pub = { s.pub with latch := .pending, latchList := [e] } ∧
        readWord u.mem 0x20 = 1 ∧ slotState u.mem e = 2 ∧ u.orders[e] ≠ none ∧ u.cause = s.cause) ∧
      (s.pub.latch = .pending → u.pub = { s.pub with latchList := s.pub.latchList ++ [e] } ∧
        slotState u.mem e = 2 ∧ u.orders[e] ≠ none ∧ u.cause = s.cause ∧ readWord u.mem 0x20 = readWord s.mem 0x20) ∧
      (s.pub.latch = .full → u.pub = s.pub ∧ readWord u.mem 0x20 = readWord s.mem 0x20 ∧ slotState u.mem e = 3 ∧
        u.orders[e] = none ∧ readWord u.mem (slotAddr e + 0x18) = 0xFF000004#32 ∧ u.cause &&& 4#32 = 4#32) ∧
      (∀ j : SlotNo, j ≠ e → u.orders[j] = s.orders[j]) ∧
      sameBytesOutside (fun a => slotBytes e a || noticeBytes a || within 0x20 4 a) s.mem u.mem

/-- R165, R173, R178: what a REARM_WATCH order does: one whose parameter names no watch is refused NO_WATCH and changes no
watch; else the state of the watch it names decides. -/
def Obligations.RearmByWatchState : Prop :=
  ∀ (s : State) (t : Nat) (e : SlotNo) (rest : List SlotNo), Taken s e rest .rearmWatch → s.scanDue = false →
    let p := (slotFields s.mem e).param.toNat
    ∃ u, exec (.rearmWatch t) s = .next u ∧
      u = { s with now := max s.now t, fifo := rest, mem := u.mem, cause := u.cause, orders := u.orders
                   watches := u.watches } ∧
      u.orders[e] = none ∧ (∀ j : SlotNo, j ≠ e → u.orders[j] = s.orders[j]) ∧ u.cause &&& 4#32 = 4#32 ∧
      (24 ≤ p → u.watches = s.watches ∧ slotState u.mem e = 4 ∧ readWord u.mem (slotAddr e + 0x18) = 0xFF002308#32 ∧
        sameBytesOutside (fun a => slotBytes e a || noticeBytes a) s.mem u.mem) ∧
      (∀ w : WatchNo, p = w.val →
        (s.watches[w].state = .disarmed → u.watches[w] = s.watches[w] ∧ slotState u.mem e = 4 ∧
          readWord u.mem (slotAddr e + 0x18) = 0xFF002308#32) ∧
        (s.watches[w].state = .cycling → u.watches[w] = s.watches[w] ∧ slotState u.mem e = 4 ∧
          readWord u.mem (slotAddr e + 0x18) = 0xFF002408#32) ∧
        (s.watches[w].state ≠ .disarmed ∧ s.watches[w].state ≠ .cycling →
          slotState u.mem e = 3 ∧ readWord u.mem (slotAddr e + 0x18) = 0xFF000001#32 ∧
          u.watches[w] = { s.watches[w] with
            state := if s.work.watches[w].grace = 0 then .watching else .grace
            framesLeft := if s.work.watches[w].grace = 0 then s.work.watches[w].timeout else s.work.watches[w].grace
            consecutive := 0, reference := none, record := none }) ∧
        ∀ x : WatchNo, x ≠ w → u.watches[x] = s.watches[x]) ∧
      sameBytesOutside (fun a => slotBytes e a || noticeBytes a || guardedBytes a) s.mem u.mem

/-- R179, R180: an order keeps the first answer of each member, and finishes with its last: DONE if all were OK, PARTIAL
if some were, else FAILED, with the outcome and the outlet of the first member that was not OK, and the maps of its
members. Its slot shows the result, ORDER is raised, and ORDER_FINISHED is filed where the slot asks for it. -/
def Obligations.MemberAnswersFinishOrder : Prop :=
  ∀ (s : State) (e : SlotNo) (k : OutletIx) (r : MemberOutcome) (entry : OrderEntry), MemWf s.mem →
    s.orders[e] = some entry →
    let u := s.orderReply e k r
    let ms := answered entry.members k r
    (∀ j : SlotNo, j ≠ e → u.orders[j] = s.orders[j]) ∧
    ((∃ m ∈ ms, m.2 = none) → u = { s with orders := u.orders } ∧ u.orders[e] = some { entry with members := ms }) ∧
    ((∀ m ∈ ms, m.2 ≠ none) → ∃ result : OrderResult,
      u = { s with mem := u.mem, cause := u.cause, orders := u.orders } ∧ orderFinished u e result ∧
      result.outcome = (if ∀ m ∈ ms, m.2 = some .ok then .done else if ∃ m ∈ ms, m.2 = some .ok then .partly
        else .failed) ∧
      ((∀ m ∈ ms, m.2 = some .ok) → result.reason = none ∧ result.detail = none) ∧
      (∀ front m back, ms = front ++ m :: back → (∀ x ∈ front, x.2 = some .ok) → m.2 ≠ some .ok →
        result.reason = m.2.map Reason.member ∧ result.detail = some m.1) ∧
      result.record = none ∧
      (∀ j, (j ∈ result.doneSet ↔ (j, some .ok) ∈ ms) ∧ (j ∈ result.skippedSet ↔ (j, some .skipped) ∈ ms) ∧
        (j ∈ result.failedSet ↔ ∃ o, (j, some o) ∈ ms ∧ o ≠ .ok ∧ o ≠ .skipped)) ∧
      (entry.fields.notify = true → s.logFull = false →
        logEntry u.mem s.writeCount .orderFinished e.val result.outcome.code s.partTime
          (entry.fields.hostRef.setWidth 32) ∧ u.writeCount = s.writeCount + 1) ∧
      (entry.fields.notify = false → sameBytesOutside (slotBytes e) s.mem u.mem) ∧
      sameBytesOutside (fun a => slotBytes e a || noticeBytes a) s.mem u.mem)

/-! ### The host port -/

/-- R183, R184 and section 11.3: a read shifts out byte after byte from the address, which wraps at 65,536; exchange
memory, IDENT, CAUSE and MASK read as they stand, every other word as 0. R183 takes each word when its first byte is shifted
out; that a whole READ is one instant, so that all its bytes come from one state, is the model's choice (log entry 11). -/
def Obligations.ReadShiftsOutWords : Prop :=
  ∀ (s : State) (t : Nat) (addr : Half) (n : Nat), s.resetting = none →
    ∃ u, exec (.read t addr n) s = .next u ∧ u = { s with now := max s.now t, sdo := u.sdo } ∧ u.sdo.length = n ∧
      ∀ i, (h : i < u.sdo.length) →
        let a := (addr.toNat + i) % 65536
        let w : Word :=
          if a < 0x4000 then readWord s.mem (a / 4 * 4) else if a / 4 = 0x1000 then 0x00014F48#32
          else if a / 4 = 0x1002 then s.cause else if a / 4 = 0x1003 then s.mask else 0
        u.sdo[i] = w.extractLsb' (8 * (a % 4)) 8

/-- R183, R184, R187, R188, R192: a transfer whose command byte is neither of the two, and a write above the registers,
raise the stray cause and store nothing; the illegal transfer shifts out zeros. Writing 0 to the missed-kinds word clears
it, any other value is ignored. A 1 written to a CAUSE bit clears it, MASK takes its six bits, and ATTN is driven exactly
while a masked cause is set. That an illegal command byte raises the stray cause in a transfer that ends before an address
too is the model's choice (log entry 35). -/
def Obligations.RegisterAndStrayAccesses : Prop :=
  ∀ (s : State) (t : Nat), s.resetting = none →
    (∀ (c : Byte) (n : Nat), c ≠ 2 → c ≠ 3 → exec (.illegalCommand t c n) s =
      .next { s with now := max s.now t, cause := s.cause ||| 16#32, sdo := List.replicate n 0 }) ∧
    (∀ (addr : Half) (v : Word), 0x4014 ≤ addr.toNat → exec (.unmappedWrite t addr v) s =
      .next { s with now := max s.now t, cause := s.cause ||| 16#32 }) ∧
    ∀ v : Word,
      (v = 0 → MemWf s.mem → ∃ u, exec (.missedKindsWrite t v) s = .next u ∧
        u = { s with now := max s.now t, mem := u.mem } ∧
        readWord u.mem 0x1C = 0 ∧ sameBytesOutside (within 0x1C 4) s.mem u.mem) ∧
      (v ≠ 0 → exec (.missedKindsWrite t v) s = .next { s with now := max s.now t }) ∧
      (∃ u, exec (.causeWrite t v) s = .next u ∧ u = { s with now := max s.now t, cause := s.cause &&& ~~~v } ∧
        (u.attn = true ↔ ∃ i, i < 32 ∧ s.cause.getLsbD i = true ∧ v.getLsbD i = false ∧ s.mask.getLsbD i = true)) ∧
      (∃ u, exec (.maskWrite t v) s = .next u ∧ u = { s with now := max s.now t, mask := v &&& 0x3F#32 } ∧
        (u.attn = true ↔ ∃ i, i < 6 ∧ s.cause.getLsbD i = true ∧ v.getLsbD i = true))

/-- R183: a write transfer writes its complete aligned words one after another, the address wrapping at 65,536; the bytes
before the first aligned word and after the last complete one are discarded. The first byte of a transfer is its command, the
next two are its address, most significant first; one that ends before its address does nothing. That a transfer joins the
waiting commands whole, that its words are written at one instant, and that an illegal command byte needs no address, are
the model's choices (log entries 1, 12, 35). -/
def Obligations.TransferWritesItsWordsInOrder : Prop :=
  (∀ (s : State) (t : Nat) (c hi lo : Byte) (addr : Half) (data : List Byte),
    let spells := fun (bytes : List Byte) (i : Instr) => s.receive t bytes = { s with pending := s.pending ++ [i] }
    addr.toNat = 256 * hi.toNat + lo.toNat →
      spells (2 :: hi :: lo :: data) (.hostWordWrite t addr data) ∧
      spells (3 :: hi :: lo :: data) (.read t addr data.length) ∧
      (c ≠ 2 → c ≠ 3 → spells (c :: data) (.illegalCommand t c data.length)) ∧
      (c = 2 ∨ c = 3 → data.length < 2 → s.receive t (c :: data) = s) ∧ s.receive t [] = s) ∧
  ∀ (s : State) (t : Nat) (addr : Half) (data : List Byte),
    (s.resetting = none → data.length < 4 + (4 - addr.toNat % 4) % 4 →
      exec (.hostWordWrite t addr data) s = .next { s with now := max s.now t }) ∧
    (∀ lead : List Byte, lead.length = (4 - addr.toNat % 4) % 4 → exec (.hostWordWrite t addr (lead ++ data)) s =
      exec (.hostWordWrite t (addr + BitVec.ofNat 16 lead.length) data) s) ∧
    ∀ word : List Byte, word.length = 4 → addr.toNat % 4 = 0 →
      ∃ u, exec (.hostWordWrite t addr word) s = .next u ∧
        exec (.hostWordWrite t addr (word ++ data)) s = exec (.hostWordWrite t (addr + 4) data) u

/-- R183, R184: a word write into the host's areas is stored, least byte first; one into the part's areas is ignored. -/
def Obligations.HostWordOwnership : Prop :=
  ∀ (s : State) (t : Nat) (addr : Half) (b0 b1 b2 b3 : Byte), s.resetting = none → MemWf s.mem → addr.toNat % 4 = 0 →
    (hostBytes addr.toNat = true →
      ∃ u, exec (.hostWordWrite t addr [b0, b1, b2, b3]) s = .next u ∧ u = { s with now := max s.now t, mem := u.mem } ∧
        readWord u.mem addr.toNat = b3 ++ b2 ++ b1 ++ b0 ∧
        sameBytesOutside (within addr.toNat 4) s.mem u.mem) ∧
    (addr.toNat < 0x4000 → hostBytes addr.toNat = false → slotArea addr.toNat = false → addr.toNat ≠ 0x1C →
      addr.toNat ≠ 0x20 → exec (.hostWordWrite t addr [b0, b1, b2, b3]) s = .next { s with now := max s.now t })

/-- R169: what a write to a slot's word does, by the slot's owner, the word and, for the state word, the value. -/
def Obligations.SlotWordOwnership : Prop :=
  ∀ (s : State) (t : Nat) (e : SlotNo) (w : Fin 16) (v : Word), s.resetting = none → MemWf s.mem →
    (s.orders[e] ≠ none →
      exec (.slotWordWrite t e w v) s = .next { s with now := max s.now t, cause := s.cause ||| 8#32 }) ∧
    (s.orders[e] = none → w = 0 → 1 < v.toNat →
      exec (.slotWordWrite t e w v) s = .next { s with now := max s.now t, cause := s.cause ||| 8#32 }) ∧
    (s.orders[e] = none → (w = 0 ∧ v.toNat ≤ 1 ∨ 0 < w.val ∧ w.val < 6) →
      ∃ u, exec (.slotWordWrite t e w v) s = .next u ∧ u = { s with now := max s.now t, mem := u.mem } ∧
        readWord u.mem (slotAddr e + 4 * w.val) = v ∧
        sameBytesOutside (within (slotAddr e + 4 * w.val) 4) s.mem u.mem) ∧
    (s.orders[e] = none → 6 ≤ w.val → exec (.slotWordWrite t e w v) s = .next { s with now := max s.now t })

/-- R48: 0 empties a latch that is not PENDING; every other write of the latch word is discarded and raises COLLIDE. -/
def Obligations.LatchStateWriteTable : Prop :=
  ∀ (s : State) (t : Nat) (v : Word), s.resetting = none → MemWf s.mem →
    (v = 0 → s.pub.latch ≠ .pending →
      ∃ u, exec (.latchStateWrite t v) s = .next u ∧
        u = { s with now := max s.now t, mem := u.mem, pub := { s.pub with latch := .empty } } ∧
        readWord u.mem 0x20 = 0 ∧ sameBytesOutside (within 0x20 4) s.mem u.mem) ∧
    (v ≠ 0 ∨ s.pub.latch = .pending →
      exec (.latchStateWrite t v) s = .next { s with now := max s.now t, cause := s.cause ||| 8#32 })

/-- R191: a notice is appended with its sequence word, or, when the log is full, only its kind is marked missed. -/
def Obligations.NoticeAppendOrMiss : Prop :=
  ∀ (s : State) (kind : NoticeKind) (subject reason : Nat) (value : Word), MemWf s.mem → subject < 65536 → reason < 256 →
    let u := s.notice kind subject reason value
    let a := 0x2D00 + 16 * (s.writeCount.toNat % 256)
    let d := (s.writeCount - readWord s.mem 0x14).toNat
    ((256 ≤ d ∧ d < 2 ^ 31) →
      u = { s with mem := u.mem } ∧ readWord u.mem 0x1C = readWord s.mem 0x1C ||| BitVec.ofNat 32 (2 ^ kind.code) ∧
        sameBytesOutside (within 0x1C 4) s.mem u.mem) ∧
    ((d < 256 ∨ 2 ^ 31 ≤ d) →
      u = { s with mem := u.mem, cause := s.cause ||| 2#32 } ∧ u.writeCount = s.writeCount + 1 ∧
        readWord u.mem a = s.writeCount ∧
        readWord u.mem (a + 4) = BitVec.ofNat 32 (kind.code + 256 * reason + 65536 * subject) ∧
        readWord u.mem (a + 8) = s.partTime ∧ readWord u.mem (a + 12) = value ∧
        sameBytesOutside (fun x => within 0x18 4 x || within a 16 x) s.mem u.mem)

/-! ### Computations of the rules -/

/-- R81: the planned start aims the contacts at the earliest crossing that leaves 1,000 µs before the pulse. R105: an
entry joins the close queue behind every entry of its class or a more urgent one, ahead of the rest. R78, R81, R82: an
assignment records the driver's job and the movement (`Assigned`): phase, width and margin in force, the planned start by
the phase's last crossing and half period and the outlet's estimate for the direction, or on a DEAD phase the untimed start
at once; UNVERIFIED is cleared, and no other driver, movement or outlet changes. -/
def Obligations.AimAndQueuePlace : Prop :=
  (∀ t0 h est now : Nat, t0 ≤ now → 7700 ≤ h → h ≤ 11100 → 2000 ≤ est → est ≤ 30000 →
    ∃ m, 1 ≤ m ∧ aimStart t0 h est now = t0 + m * h - est ∧ now + 1000 + est ≤ t0 + m * h ∧
      (∀ j, 1 ≤ j → now + 1000 + est ≤ t0 + j * h → m ≤ j) ∧ aimStart t0 h est now < now + 1000 + h) ∧
  (∀ (e : QueueEntry) (q : List QueueEntry), q.Pairwise (fun x y => x.cls ≤ y.cls) →
    ∃ front back, q = front ++ back ∧ insertEntry e q = front ++ e :: back ∧ (∀ x ∈ front, x.cls ≤ e.cls) ∧
      ∀ x ∈ back, e.cls < x.cls) ∧
  ∀ (s : State) (d : DriverNo) (k : OutletIx) (dir : Dir),
    let u := s.assign d k dir
    Assigned s u d k dir ∧ u = { s with drivers := u.drivers, moves := u.moves, outlets := u.outlets } ∧
      u.outlets[k] = { s.outlets[k] with unverified := none } ∧ (∀ x : DriverNo, x ≠ d → u.drivers[x] = s.drivers[x]) ∧
      ∀ j : OutletIx, j ≠ k → u.moves[j] = s.moves[j] ∧ u.outlets[j] = s.outlets[j]

/-! ### The work of a close -/

/-- R69, R70, R72, R73, R92 to R94, R68: the outlet controller's work on one outlet at a close, with the phase and the
leak level of the closed frame (log entry 9). An UNKNOWN outlet on a usable phase is found where its sense shows it; an
UNVERIFIED mark is cleared or leads to FAULT; an outlet at rest is supervised, and faults at the second frame that
contradicts its state; the whole-frame marker and the peak-on load follow. RELAY_FAULT stands behind what the fault files
(log entry 23). R72, R99, R102, R114, R115: then the close scheduler takes up the measured loads, over the assignment of the
closed frame (log entry 9), ends the reservation of every outlet whose closed frame was a whole ON frame, and, where the
take changed the queue patience, removes every entry that has waited longer, in queue order (log entry 39); without such a
change it removes none (log entry 36). R115, R119, R154, R166 and section 4.7: every command that closes the frame does the
work of all of these (`WorkDone`), from the state in which the next frame has opened (`Opened`), with the settings and the
results of the closed frame: over all 48 outlets, the close scheduler, the take at the shed monitor and at all 24 watches,
then the scan, all 6 branches and every watch in one of the orders the rules leave open (log entry 6). The settings status
word is that of the take (R190).

Three places in this order are read from the spec by inference: the answers of the latch and of the cleared counters come
before the outlet controller's work (log entry 8), the take's effect on the shed monitor and the watches after the outlet
controller's and the scheduler's work (log entry 33), and one more scan at the end of the event where a later part of it
made one due (log entry 7). That the shed monitor counts a close inside which a restore round ended earlier is the model's
choice (log entry 40). -/
def Obligations.OutletWorkAtClose : Prop :=
  (∀ (s : State) (now : Nat) (i : Instr), s.resetting = none → MemWf s.mem → closesFrame s now i →
    ∃ u f v, exec i s = .next u ∧ u.pub.waiting = s.pub.waiting ++ [f] ∧ Opened s v now ∧ v.phases = u.phases ∧
      u.work = v.work ∧ WorkDone s.work f v u ∧ readWord u.mem 0x28 = readWord s.takeIfAllowed.mem 0x28) ∧
  (∀ (s : State) (closed : Settings) (res : Vector OutletResult 48) (seq : Word),
    (s.outletsWork closed res seq).1 = (indices 48).foldl (fun x k => x.outletWork closed res seq k) s) ∧
  (∀ (s : State) (closed : Settings) (res : Vector OutletResult 48) (seq : Word) (k : OutletIx),
    let a := s.outletsWork closed res seq
    k ∈ a.2 ↔ s.outlets[k].wholeFrame = true ∧ a.1.outlets[k].state ≠ .fault) ∧
  (∀ (s : State) (closed : Settings) (res : Vector OutletResult 48) (whole : List OutletIx), Control s → MemWf s.mem →
    let u := s.schedulerWork closed res whole
    let expired := fun (x : QueueEntry) => x.instant + s.work.strip.queuePatience * 1000000 ≤ s.now
    let removed := fun (k : OutletIx) => ∃ x ∈ s.queue, x.outlet = k ∧ expired x
    (∀ b : Branch, u.loads[b] = { s.loads[b] with
      measured := (((indices 48).filter fun k => closed.outlets[k].branch = b).map fun k => res[k].irms).sum
      reservations := s.loads[b].reservations.filter fun r => r.1 ∉ whole }) ∧
    (closed.strip.queuePatience = s.work.strip.queuePatience → u = { s with loads := u.loads, scanDue := u.scanDue }) ∧
    (closed.strip.queuePatience ≠ s.work.strip.queuePatience →
      u.queue = s.queue.filter (fun x => ¬expired x) ∧
      (∀ k : OutletIx, removed k → u.outlets[k] = { s.outlets[k] with
        state := .off, owner := none, lastChange := s.partTime, cycle := u.outlets[k].cycle }) ∧
      (∀ k : OutletIx, ¬removed k → u.outlets[k] = { s.outlets[k] with cycle := u.outlets[k].cycle }) ∧
      (∀ x ∈ s.queue, expired x → ∀ e, x.owner = .order e → ∀ entry, s.orders[e] = some entry →
        (x.outlet, none) ∈ entry.members →
        u.orders[e] = none ∨ ∃ y, u.orders[e] = some y ∧ (x.outlet, some .patience) ∈ y.members) ∧
      (∀ x ∈ s.queue, (∀ y ∈ s.queue, expired y → y = x) → expired x → s.logFull = false →
        (∀ e, x.owner = .order e → orderAnswered s u e x.outlet .patience) ∧
        ((∀ e, x.owner ≠ .order e) → (∀ c, x.owner ≠ .cycle c) →
          logEntry u.mem s.writeCount .queuePatience (x.outlet.val + 1) x.cls.val s.partTime x.stamp)) ∧
      u.drivers = s.drivers ∧ u.moves = s.moves ∧ u.waitList = s.waitList ∧ sameMeasuring s u ∧ sameInputs s u ∧
      sameBytesOutside blockBytes s.mem u.mem)) ∧
  ∀ (s : State) (closed : Settings) (res : Vector OutletResult 48) (seq : Word) (k : OutletIx), MemWf s.mem →
    let u := s.outletWork closed res seq k
    let o := s.outlets[k]
    let x := u.outlets[k]
    let usable := s.usable (phaseOfBranch closed.outlets[k].branch)
    let sense := s.sense[k].level
    let irms := res[k].irms
    let passes : Prop := sense = true ∨ closed.strip.leakLevel ≤ irms
    let quiet : Prop := u = { s with outlets := u.outlets, shed := u.shed } ∧
      ∀ j : OutletIx, j ≠ k → u.outlets[j] = s.outlets[j]
    let faults := fun (kind : FaultKind) =>
      x.state = .fault ∧ x.faultKind = some kind ∧ x.owner = none ∧ x.pending = none ∧ x.unverified = none ∧
      x.drop = false ∧ x.weld = false ∧ x.shedMark = o.shedMark ∧ x.lastChange = s.partTime ∧
      (∀ e ∈ u.queue, e.outlet ≠ k) ∧ (∀ b : Branch, ∀ r ∈ u.loads[b].reservations, r.1 ≠ k) ∧
      (u.logFull = false → logEntry u.mem (u.writeCount - 1) .relayFault (k.val + 1) kind.code s.partTime seq) ∧
      ((∀ c : RecNo, k ∉ s.cycles[c].participants) → u.cycles = s.cycles ∧
        (∀ j : OutletIx, j ≠ k → u.outlets[j] = s.outlets[j]) ∧
        ∀ e, o.owner = some (.order e) → orderAnswered s u e k .faulted)
    -- R70
    (o.state = .unknown → o.drop = false → o.weld = false → o.wholeFrame = false →
      (usable = true → quiet ∧ x.state = (if sense then .on else .off) ∧ x.lastChange = s.partTime ∧
        x.unverified = none ∧ x.faultKind = none ∧ x.owner = none ∧ x.pending = none ∧
        x.shedMark = (o.shedMark && !sense)) ∧
      (usable = false → u = { s with outlets := u.outlets } ∧ x = o)) ∧
    -- R69
    (∀ d, o.unverified = some d → o.state ≠ .unknown →
      (usable = false → x.unverified = some d ∧ x.state = o.state ∧ quiet) ∧
      (usable = true → sense = (d == .toClosed) → x.unverified = none ∧
        (o.state ≠ .on → o.state ≠ .off → x.state = o.state ∧ quiet)) ∧
      (usable = true → sense ≠ (d == .toClosed) → faults (if d = .toClosed then .failToClose else .failToOpen))) ∧
    -- R92 to R94
    (o.unverified = none ∨ usable = false →
      (usable = true → o.state = .on →
        (sense = true → x.state = .on ∧ x.drop = false ∧ x.weld = false ∧ quiet) ∧
        (sense = false → o.drop = false → x.state = .on ∧ x.drop = true ∧ x.weld = false ∧ quiet) ∧
        (sense = false → o.drop = true → faults .dropped)) ∧
      (usable = true → o.state = .off →
        (¬passes → x.state = .off ∧ x.drop = false ∧ x.weld = false ∧ quiet) ∧
        (passes → o.weld = false → x.state = .off ∧ x.drop = false ∧ x.weld = true ∧ quiet) ∧
        (passes → o.weld = true → faults .welded)) ∧
      (usable = false ∨ o.state ≠ .on ∧ o.state ≠ .off ∧ o.state ≠ .unknown →
        x.state = o.state ∧ x.drop = false ∧ x.weld = false ∧ quiet)) ∧
    -- R72, R73
    (x.wholeFrame = true ↔ x.state = .on) ∧
    (o.state = .on → o.wholeFrame = true → x.state = .on → x.peakSeen = true ∧
      x.peakOn = some (if o.peakSeen then max (o.peakOn.getD 0) irms else irms)) ∧
    (o.wholeFrame = false → x.peakOn = o.peakOn)

/-- R119 to R121, R124: the shed monitor's work at a close on a branch whose measured load is above the restore level. The
load is counted, and enters or ends an overload; while it lasts, one outlet is shed at each close: of the ON outlets of
the branch with a rank and outside cycles the one of the highest rank, the higher number among equals. A branch with shed
disabled takes no step. Levels, counts and ranks are those after the take, the branches of the outlets those of the closed
frame (log entry 9). -/
def Obligations.ShedMonitorAtClose : Prop :=
  ∀ (s : State) (closed : Settings) (b : Branch), MemWf s.mem →
    let u := s.shedBranch closed b
    let cfg := s.work.branches[b]
    let r := s.shed[b]
    let load := s.loads[b].measured
    let rank := fun (k : OutletIx) => s.work.outlets[k].shedRank
    let candidate := fun (k : OutletIx) => closed.outlets[k].branch = b ∧ s.outlets[k].state = .on ∧
      s.outlets[k].cycle = none ∧ rank k ≠ 0
    let stamp := s.partTime
    (∀ x : Branch, x ≠ b → u.shed[x] = s.shed[x]) ∧ u.cycles = s.cycles ∧ u.watches = s.watches ∧
    u.orders = s.orders ∧ sameBytesOutside noticeBytes s.mem u.mem ∧
    (cfg.shedEnable = false → u = { s with shed := u.shed } ∧ u.shed[b] = { r with thisClose := false }) ∧
    (cfg.shedEnable = true → cfg.restoreLevel < load → 1 ≤ cfg.shedFrames → 1 ≤ cfg.restoreFrames →
      let above : Prop := cfg.shedLevel < load
      let enters : Prop := above ∧ r.overload = false ∧ cfg.shedFrames ≤ r.overloadCount + 1
      let inOverload : Prop := above ∧ (r.overload = true ∨ cfg.shedFrames ≤ r.overloadCount + 1)
      u.shed[b].restoreCount = 0 ∧ u.shed[b].restoring = r.restoring ∧ u.shed[b].round = r.round ∧
      (u.shed[b].overload = true ↔ inOverload) ∧
      (above → r.overload = false → u.shed[b].overloadCount = if enters then 0 else r.overloadCount + 1) ∧
      (¬above → u.shed[b].overloadCount = 0) ∧
      (enters → logUsed s.mem < 256 →
        logEntry u.mem s.writeCount .branchOverload (b.val + 1) 0 stamp (BitVec.ofNat 32 load)) ∧
      ((¬inOverload ∨ ∀ k, ¬candidate k) → u.outlets = s.outlets ∧ u.moves = s.moves ∧ u.shed[b].list = r.list ∧
        u.shed[b].thisClose = false) ∧
      ∀ k, inOverload → candidate k → (∀ j, candidate j → rank j < rank k ∨ rank j = rank k ∧ j ≤ k) →
        u.outlets[k].state = .opening ∧ u.outlets[k].owner = some (.shed b) ∧ u.outlets[k].shedMark = true ∧
        u.outlets[k].wholeFrame = false ∧ moveDir u.moves[k] = some .toOpen ∧ Begun s u k .toOpen false ∧
        (∀ x : Branch, ∀ y ∈ u.loads[x].reservations, y.1 ≠ k) ∧
        (∀ j : OutletIx, j ≠ k → u.outlets[j] = s.outlets[j] ∧ u.moves[j] = s.moves[j]) ∧
        u.shed[b].list = r.list ++ [k] ∧ u.shed[b].thisClose = true ∧ u.queue = s.queue ∧
        (logUsed s.mem + 2 ≤ 256 → logEntry u.mem (if cfg.shedFrames ≤ r.overloadCount + 1 ∧ r.overload = false
          then s.writeCount + 1 else s.writeCount) .outletShed (k.val + 1) (rank k) stamp (BitVec.ofNat 32 load)))

/-- R123, R125, R126, R129: the shed monitor's work at a close on a branch at or below its restore level: the restore
count rises to its setting, where a round starts if none is in course and the list holds an outlet that is OFF, marked and
outside cycles: each joins the close queue with class 2, the last shed first. An answer takes an outlet out of the round,
and the last one ends it. A take that turns shed enable on or off restarts the record and keeps the list. The levels and
counts are those after the take (log entry 9). That a close inside which a round has ended before this work counts 1 is the
model's choice (log entry 40). -/
def Obligations.RestoreAtClose : Prop :=
  (∀ (s : State) (closed : Settings) (b : Branch), MemWf s.mem →
    let u := s.shedBranch closed b
    let cfg := s.work.branches[b]
    let r := s.shed[b]
    let restorable := fun (k : OutletIx) => s.outlets[k].state = .off ∧ s.outlets[k].shedMark = true ∧
      s.outlets[k].cycle = none
    let count := min (r.restoreCount + 1) cfg.restoreFrames
    cfg.shedEnable = true → s.loads[b].measured ≤ cfg.restoreLevel → cfg.restoreLevel < cfg.shedLevel →
      1 ≤ cfg.shedFrames → r.list.Nodup →
      u.shed[b].overload = false ∧ u.shed[b].overloadCount = 0 ∧ u.shed[b].thisClose = false ∧
      u.shed[b].restoreCount = count ∧ u.shed[b].list = r.list ∧ (∀ x : Branch, x ≠ b → u.shed[x] = s.shed[x]) ∧
      ((r.restoring = true ∨ count ≠ cfg.restoreFrames ∨ ∀ k ∈ r.list, ¬restorable k) →
        u = { s with shed := u.shed } ∧ u.shed[b].restoring = r.restoring ∧ u.shed[b].round = r.round) ∧
      (r.restoring = false → count = cfg.restoreFrames → (∃ k ∈ r.list, restorable k) →
        u.shed[b].restoring = true ∧ u.shed[b].round = r.list.filter restorable ∧
        (∀ front k back, r.list = front ++ k :: back → restorable k →
          u.outlets[k].state = .awaitClose ∧ u.outlets[k].owner = some (.restore b) ∧ u.outlets[k].shedMark = true ∧
          ∃ x ∈ u.queue, x.outlet = k ∧ x.cls = 2 ∧ x.owner = .restore b ∧ x.instant = s.now ∧
            x.arrival = s.nextArrival + (back.filter restorable).length) ∧
        (∀ k, (k ∉ r.list ∨ ¬restorable k) → u.outlets[k] = s.outlets[k]) ∧ u.scanDue = true ∧
        (s.logFull = false → logEntry u.mem s.writeCount .branchRestore (b.val + 1) 0 s.partTime
          (BitVec.ofNat 32 (r.list.filter restorable).length)) ∧
        sameBytesOutside noticeBytes s.mem u.mem)) ∧
  (∀ (s : State) (b : Branch) (k : OutletIx) (o : MemberOutcome),
    let u := s.restoreReply b k o
    let r := s.shed[b]
    u = { s with shed := u.shed } ∧ (∀ x : Branch, x ≠ b → u.shed[x] = s.shed[x]) ∧
    u.shed[b].list = (if o = .ok then r.list.filter (· ≠ k) else r.list) ∧
    (k ∉ r.round → u.shed[b] = { r with list := u.shed[b].list }) ∧
    (k ∈ r.round → (∃ j ∈ r.round, j ≠ k) →
      u.shed[b] = { r with list := u.shed[b].list, round := r.round.filter (· ≠ k) }) ∧
    (k ∈ r.round → (∀ j ∈ r.round, j = k) →
      u.shed[b] = { r with list := u.shed[b].list, round := [], restoring := false, restoreCount := 0 })) ∧
  ∀ (s : State) (closed : Settings),
    let u := s.shedTake closed
    u = { s with shed := u.shed } ∧ ∀ b : Branch,
      (closed.branches[b].shedEnable = s.work.branches[b].shedEnable → u.shed[b] = s.shed[b]) ∧
      (closed.branches[b].shedEnable ≠ s.work.branches[b].shedEnable → u.shed[b] =
        { overload := false, overloadCount := 0, restoring := false, restoreCount := 0, list := s.shed[b].list
          round := [], thisClose := false })

/-- R189, R190, R21, R97, R98, R118, R120, R152: a take reads every settings record of exchange memory with the ranges and
the defaults of the rules, sets each record's CLAMPED flag, and counts itself; one that clamped a record files
SETTINGS_CLAMPED with the count of takes and of records. While HOLD does not read 0 nothing is taken. -/
def Obligations.SettingsTakeChecks : Prop :=
  ∀ s : State, MemWf s.mem →
    (readWord s.mem 0x10 ≠ 0 → s.takeIfAllowed = s) ∧
    (readWord s.mem 0x10 = 0 →
      let u := s.takeIfAllowed
      ∃ (branch : Branch → Bool) (phase : Phase → Bool) (strip : Bool),
        u = { s with work := u.work, outlets := u.outlets, watches := u.watches, mem := u.mem, cause := u.cause } ∧
        (∀ k : OutletIx, outletTaken s.mem k u.work.outlets[k] u.outlets[k].clamped ∧
          u.outlets[k] = { s.outlets[k] with clamped := u.outlets[k].clamped }) ∧
        (∀ b : Branch, branchTaken s.mem b u.work.branches[b] (branch b)) ∧
        (∀ p : Phase, phaseTaken s.mem p u.work.phases[p] (phase p)) ∧ stripTaken s.mem u.work.strip strip ∧
        (∀ w : WatchNo, watchTaken s.mem w u.work.watches[w] u.watches[w].clamped ∧
          u.watches[w] = { s.watches[w] with clamped := u.watches[w].clamped }) ∧
        let word := readWord u.mem 0x28
        let takes := word.extractLsb' 16 16
        takes = (readWord s.mem 0x28).extractLsb' 16 16 + 1 ∧
        (∀ b : Branch, word.getLsbD b.val = branch b) ∧ (∀ p : Phase, word.getLsbD (8 + p.val) = phase p) ∧
        word.getLsbD 12 = strip ∧ (∀ i ∈ [6, 7, 11, 13, 14, 15], word.getLsbD i = false) ∧
        let clamped := flagsSet (fun k : OutletIx => u.outlets[k].clamped) + flagsSet branch + flagsSet phase +
          strip.toNat + flagsSet fun w : WatchNo => u.watches[w].clamped
        (clamped = 0 → u.cause = s.cause ∧ sameBytesOutside (within 0x28 4) s.mem u.mem) ∧
        (0 < clamped → s.logFull = false →
          logEntry u.mem s.writeCount .settingsClamped takes.toNat 0 s.partTime (BitVec.ofNat 32 clamped) ∧
            u.writeCount = s.writeCount + 1 ∧ u.cause = s.cause ||| 2#32) ∧
        sameBytesOutside (fun a => within 0x28 4 a || noticeBytes a) s.mem u.mem)

/-- R47, R34, R176: at every close of a frame a PENDING latch takes its copy: the closed frame's number, the part time,
the 48 counters of that frame, then FULL; the requester finishes DONE, every other order that waited MERGED. Without one
the latch area stays as it is. A CLEAR_ENERGY order all of whose members are cleared at the close finishes DONE with all
of them. That the copy falls in the event of the close is read from R47 (log entry 32). -/
def Obligations.LatchCopyAtClose : Prop :=
  ∀ (s : State) (now : Nat) (i : Instr), s.resetting = none → MemWf s.mem → closesFrame s now i →
    let plain := fun (o : OrderOutcome) => { outcome := o, reason := none, detail := none, record := none
                                             doneSet := [], failedSet := [], skippedSet := [] : OrderResult }
    ∃ u f, exec i s = .next u ∧ u.pub.waiting = s.pub.waiting ++ [f] ∧
      (s.pub.latch = .pending → s.pub.latchList.Nodup →
        u.pub.latch = .full ∧ u.pub.latchList = [] ∧ readWord u.mem 0x20 = 2 ∧
        readWord u.mem 0x2B00 = f.sequence ∧ readWord u.mem 0x2B04 = BitVec.ofNat 32 (now / 1000) ∧
        (∀ k : OutletIx, readWord u.mem (0x2B08 + 8 * k.val) = BitVec.ofNat 32 (f.outlets[k].energy % 2 ^ 32) ∧
          readWord u.mem (0x2B0C + 8 * k.val) = BitVec.ofNat 32 (f.outlets[k].energy / 2 ^ 32)) ∧
        ∀ e more, s.pub.latchList = e :: more →
          (s.orders[e] ≠ none → orderFinished u e (plain .done)) ∧
          ∀ x ∈ more, s.orders[x] ≠ none → orderFinished u x (plain .merged)) ∧
      (s.pub.latch ≠ .pending → u.pub.latch = s.pub.latch ∧ u.pub.latchList = s.pub.latchList ∧
        ∀ a, within 0x20 4 a = true ∨ within 0x2B00 0x188 a = true → readByte u.mem a = readByte s.mem a) ∧
      ∀ (e : SlotNo) (entry : OrderEntry), s.orders[e] = some entry →
        orderKindOf entry.fields.kind = some .clearEnergy → entry.members ≠ [] → e ∉ s.pub.latchList →
        (∀ m ∈ entry.members, m.2 = none ∧ s.meter[m.1].clearReq = true) →
        orderFinished u e { plain .done with doneSet := entry.members.map (·.1) }

/-- R155 to R157, R159, R160: what the examination of one watch does to a watch in GRACE or WATCHING: a frame that does
not count freezes it, evidence restores its timeout, and a frame without evidence counts down to the end of the grace or,
for the action NOTE, to LAPSED. In each of them the first sum with a band becomes the reference. The watch settings are
those after the take (log entry 9). A watch that a lowered grace has left in GRACE with 0 frames left enters WATCHING at its
next counting frame: R159 speaks of a count that reaches 0 by decreasing, and this case is read by inference (log entry
22). -/
def Obligations.WatchExaminedAtClose : Prop :=
  ∀ (s : State) (seen : Vector OutletState 48) (res : Vector OutletResult 48) (seq : Word) (w : WatchNo),
    let u := s.examineWatch seen res seq w
    let x := s.watches[w]
    let cfg := s.work.watches[w]
    let renewal := readHalf s.mem (0x0800 + 32 * w.val + 24)
    let sum := (cfg.members.map fun k => res[k].irms).sum
    let counts : Prop := (∃ k ∈ cfg.members, seen[k] = .on) ∧
      ∀ k ∈ cfg.members, seen[k] = .on ∨ seen[k] = .off ∨ seen[k] = .unknown
    let quiet : Prop := renewal = x.lastRenewal ∧ ¬moved x sum cfg.band
    let y := { x with reference := referenceAfter x sum cfg.band }
    (x.state = .disarmed ∨ x.state = .cycling ∨ ((x.state = .grace ∨ x.state = .watching) ∧ ¬counts) → u = s) ∧
    (x.state = .grace ∨ x.state = .watching ∧ (cfg.action = .note ∨ 1 < x.framesLeft ∨ ¬quiet) →
      ∀ v : WatchNo, v ≠ w → u.watches[v] = s.watches[v]) ∧
    (x.state = .grace → counts → renewal = x.lastRenewal →
      u = { s with watches := u.watches } ∧ u.watches[w] = { x with
        reference := if cfg.band = 0 then x.reference else some sum
        state := if x.framesLeft ≤ 1 then .watching else .grace
        framesLeft := if x.framesLeft ≤ 1 then cfg.timeout else x.framesLeft - 1 }) ∧
    (x.state = .grace → counts → renewal ≠ x.lastRenewal →
      u = { s with watches := u.watches } ∧ u.watches[w] = { x with
        reference := if cfg.band = 0 then x.reference else some sum
        state := .watching, framesLeft := cfg.timeout, consecutive := 0, lastRenewal := renewal
        lastEvidence := some (.renewal, seq) }) ∧
    (x.state = .watching → counts → quiet → 1 < x.framesLeft →
      u = { s with watches := u.watches } ∧ u.watches[w] = { y with framesLeft := x.framesLeft - 1 }) ∧
    (x.state = .watching → counts → quiet → x.framesLeft ≤ 1 → cfg.action = .note →
      u = { s with watches := u.watches, mem := u.mem, cause := u.cause } ∧
        u.watches[w] = { y with state := .lapsed, framesLeft := 0 } ∧ sameBytesOutside noticeBytes s.mem u.mem) ∧
    (x.state = .watching → counts → renewal ≠ x.lastRenewal →
      u = { s with watches := u.watches } ∧ u.watches[w] = { y with
        framesLeft := cfg.timeout, consecutive := 0, lastRenewal := renewal, lastEvidence := some (.renewal, seq) }) ∧
    (x.state = .watching → counts → renewal = x.lastRenewal → moved x sum cfg.band →
      u = { s with watches := u.watches } ∧ u.watches[w] = { x with
        framesLeft := cfg.timeout, consecutive := 0, reference := some sum, lastEvidence := some (.activity, seq) })

/-- R160 to R163: a watch that expires with action CYCLE gives up at its limit, else asks for a cycle: admitted or
attached it is CYCLING with its count raised, refused it waits and asks again at every close. A watch in LAPSED,
EXPIRED_WAIT or GAVE_UP resumes on evidence, which is looked for only with a member ON. Each files the notices of its
rule. The watch settings are those after the take (log entry 9). -/
def Obligations.WatchExpiryAndResumption : Prop :=
  ∀ (s : State) (seen : Vector OutletState 48) (res : Vector OutletResult 48) (seq : Word) (w : WatchNo), MemWf s.mem →
    let u := s.examineWatch seen res seq w
    let x := s.watches[w]
    let cfg := s.work.watches[w]
    let renewal := readHalf s.mem (0x0800 + 32 * w.val + 24)
    let sum := (cfg.members.map fun k => res[k].irms).sum
    let someOn : Prop := ∃ k ∈ cfg.members, seen[k] = .on
    let counts : Prop := someOn ∧ ∀ k ∈ cfg.members, seen[k] = .on ∨ seen[k] = .off ∨ seen[k] = .unknown
    let evidence : Prop := renewal ≠ x.lastRenewal ∨ moved x sum cfg.band
    let expires : Prop := x.state = .watching ∧ counts ∧ ¬evidence ∧ x.framesLeft ≤ 1
    let waits : Prop := x.state = .expiredWait ∧ (¬someOn ∨ ¬evidence)
    let y := { x with reference := if x.state = .watching ∨ ∃ k ∈ cfg.members, seen[k] = .on
                                     then referenceAfter x sum cfg.band else x.reference }
    let a := s.admission (.watch w) cfg.members cfg.restTime
    let count := BitVec.ofNat 32 x.consecutive
    let filed := fun (i : Nat) (kind : NoticeKind) (reason : Nat) (value : Word) =>
      logUsed s.mem + 2 ≤ 256 → logEntry u.mem (s.writeCount + BitVec.ofNat 32 i) kind w.val reason s.partTime value
    let settled := fun (z : WatchRec) =>
      u = { s with watches := u.watches, mem := u.mem, cause := u.cause } ∧ u.watches[w] = z ∧
      (∀ v : WatchNo, v ≠ w → u.watches[v] = s.watches[v]) ∧ sameBytesOutside noticeBytes s.mem u.mem
    let asks := fun (before : Nat) =>
      u = { a.1 with watches := u.watches, mem := u.mem, cause := u.cause } ∧
      (∀ v : WatchNo, v ≠ w → u.watches[v] = s.watches[v]) ∧ sameBytesOutside noticeBytes s.mem u.mem ∧
      (∀ c, (a.2 = .admitted c ∨ a.2 = .attached c) → u.watches[w] = { y with
        state := .cycling, framesLeft := 0, record := some c, consecutive := x.consecutive + 1 } ∧
        filed before .watchCycle (if a.2 = .admitted c then 64 else 65) (BitVec.ofNat 32 c.val)) ∧
      ((∃ reason detail, a.2 = .refused reason detail) → u.watches[w] = { y with state := .expiredWait, framesLeft := 0 })
    (expires → cfg.action = .cycle →
      (cfg.cycleLimit ≤ x.consecutive → settled { y with state := .gaveUp, framesLeft := 0 } ∧
        filed 0 .watchExpired 0 count ∧ filed 1 .watchGaveUp 0 count) ∧
      (x.consecutive < cfg.cycleLimit → asks 1 ∧
        filed 0 .watchExpired (match a.2 with | .refused reason _ => reason.code | _ => 0) count)) ∧
    (expires → cfg.action = .note → settled { y with state := .lapsed, framesLeft := 0 } ∧ filed 0 .watchExpired 0 count) ∧
    (waits →
      (cfg.action = .note → settled { y with state := .lapsed } ∧ u.mem = s.mem) ∧
      (cfg.action = .cycle → cfg.cycleLimit ≤ x.consecutive →
        settled { y with state := .gaveUp, framesLeft := 0 } ∧ filed 0 .watchGaveUp 0 count) ∧
      (cfg.action = .cycle → x.consecutive < cfg.cycleLimit → asks 0)) ∧
    (x.state = .lapsed ∨ x.state = .gaveUp → ¬someOn ∨ ¬evidence → settled y ∧ u.mem = s.mem) ∧
    (x.state = .lapsed ∨ x.state = .expiredWait ∨ x.state = .gaveUp → someOn → evidence →
      let kind := if renewal ≠ x.lastRenewal then Evidence.renewal else .activity
      settled { y with
        state := .watching, framesLeft := cfg.timeout, consecutive := 0, lastRenewal := renewal
        lastEvidence := some (kind, seq) } ∧
      filed 0 .watchResumed kind.code (BitVec.ofNat 32 x.state.code))

/-- R158, R166, R149: what a settings take does to a watch. One left disabled is DISARMED, and detached from its record if
it was CYCLING: the later origins keep their order (log entry 42). A DISARMED one left enabled is armed with the renewal
count as it reads. In every other state a new member list drops the reference, and a lowered timeout, grace or limit
lowers what stands above it, a grace to 0 too (log entry 22). -/
def Obligations.WatchTakeActs : Prop :=
  ∀ (s : State) (closed : Settings) (w : WatchNo),
    let u := s.takeWatchAt closed w
    let x := s.watches[w]
    let cfg := s.work.watches[w]
    let disabled : Prop := cfg.enable = false ∨ cfg.members = []
    u = { s with watches := u.watches, cycles := u.cycles } ∧ (∀ v : WatchNo, v ≠ w → u.watches[v] = s.watches[v]) ∧
    (disabled → u.watches[w] = { x with
      state := .disarmed, framesLeft := 0, consecutive := 0, reference := none, lastEvidence := none, record := none }) ∧
    (∀ c, disabled → x.state = .cycling → x.record = some c →
      (∀ r : RecNo, r ≠ c → u.cycles[r] = s.cycles[r]) ∧
      u.cycles[c] = { s.cycles[c] with origins := s.cycles[c].origins.filter (· ≠ .watch w) }) ∧
    (¬disabled ∨ x.state ≠ .cycling ∨ x.record = none → u.cycles = s.cycles) ∧
    (¬disabled → x.state = .disarmed → u.watches[w] = { x with
      state := if cfg.grace = 0 then .watching else .grace
      framesLeft := if cfg.grace = 0 then cfg.timeout else cfg.grace
      lastRenewal := readHalf s.mem (0x0800 + 32 * w.val + 24)
      consecutive := 0, reference := none, lastEvidence := none, record := none }) ∧
    (¬disabled → x.state ≠ .disarmed → u.watches[w] = { x with
      reference := if closed.watches[w].members = cfg.members then x.reference else none
      framesLeft := if x.state = .watching then min x.framesLeft cfg.timeout
        else if x.state = .grace then min x.framesLeft cfg.grace else x.framesLeft
      consecutive := min x.consecutive cfg.cycleLimit })

/-! ### Every step -/

/-- Both invariants hold in the reset state. -/
def Obligations.InvariantAtReset : Prop := Inv State.reset ∧ Control State.reset

/-- Every step keeps the invariant: memory in its canonical form, the reserved bits of CAUSE and MASK clear (R187), energy
counters below 2^48 (R33), travel estimates within their limits (R86), the frame's state that of the timebase, with a lock
pending in FREE_RUN alone (R9 to R12), every guarded record showing its block's record between equal counts (R74, R116,
R150, R167, R185), no slot twice in the intake FIFO (R170) and no queue scan left over (R111; one scan at an event's end: log entry 7). The
records show 0 for an empty rest time and for the target of a clear UNVERIFIED (log entry 51). -/
def Obligations.InvariantKeptByStep : Prop := ∀ s u : State, Inv s → step s = .next u → Inv u

/-- Every step keeps the agreement of the outlets with the relay driver, the close queue, the reservations and the cycles:
a movement exactly in CLOSING and OPENING (R52), with an owner (section 4.1), a driver for each and no FREE driver while
one waits (R76 to R78), one queue entry for each outlet in AWAIT_CLOSE, by class and arrival (R105), reservations from the
grant to the end of ON (R103), memberships that are the participants (R132), and a participant moved by its record alone
(R55, R137). -/
def Obligations.ControlKeptByStep : Prop :=
  ∀ s u : State, (s.resetting = none → Control s) → step s = .next u → u.resetting = none → Control u

/-- R184 and section 11.2: every command leaves every byte of exchange memory as it was outside the bytes that it may
write; and the bytes of the host are written by host writes alone, but for a power-on reset and the end of a reset. -/
def Obligations.CommandsWriteOnlyTheirBytes : Prop :=
  (∀ (s u : State) (i : Instr), exec i s = .next u → sameBytesOutside (writtenBytes i) s.mem u.mem) ∧
  ∀ (i : Instr) (a : Nat), hostBytes a = true → writtenBytes i a = true →
    i.anyHostWrite = true ∨ i = .powerOnReset ∨ i = .endOfReset

/-- Which commands change what: MASK by host writes (R187), the settings in force and the counters at a close of a frame
(R189, R31), the sense inputs by their own commands (R4), the phases at crossings, deadlines and closes (R5 to R7, R13),
the intake FIFO by posts and takes (R170 to R172), the publisher by closes, publications, latch orders and the latch word
(R39 to R48), the bytes shifted out by transfers that read or are illegal (R183). The outlets, the relay driver, the close
queue, the shed monitor, the cycles and the watches stay as they are in samples, raw senses, publications, posts, reads,
word writes and the takes that reach no outlet, and the order table in those that are no take; and some rows raise no
cause. No command touches the waiting commands, and the clock never runs back (log entries 1, 2). That write transfers and
the beginning of a reset leave the bytes shifted out (log entry 11), and the count of choices, a field of the model that
moves at closes alone (log entry 6), are the model's choices. The end of a reset, which restarts every block, is left out
here. -/
def Obligations.StateChangedOnlyByItsCommands : Prop :=
  ∀ (s u : State) (i : Instr), exec i s = .next u → i ≠ .endOfReset →
    u.pending = s.pending ∧ s.now ≤ u.now ∧
    (i.anyHostWrite = false → i.namedWord ≠ some 0x400C → u.mask = s.mask) ∧
    (i.closes = false → u.work = s.work ∧ u.choices = s.choices ∧
      ∀ k : OutletIx, u.meter[k].energy = s.meter[k].energy ∧ u.meter[k].residue = s.meter[k].residue) ∧
    (i.closes = false → i.samples = false → u.tb = s.tb ∧ u.meterV = s.meterV) ∧
    (i.senses = false → u.sense = s.sense) ∧ (i.closes = false → u.phases = s.phases) ∧
    (i.takes = false → i.anyHostWrite = false → i.namedWord ≠ some 0x4010 → u.fifo = s.fifo) ∧
    (i.closes = false → i.publishes = false → i.anyHostWrite = false → i.namedWord ≠ some 0x20 → u.pub = s.pub) ∧
    (i.shifts = false → u.sdo = s.sdo) ∧
    (i.sparesControl = true → s.scanDue = false → sameControl s { u with orders := s.orders } ∧
      (i.takes = false → u.orders = s.orders)) ∧
    (i.raisesNothing = true → u.cause = s.cause)
end

