-- ==== Sys2Proof/Laws/Mem.lean ====
section
/-! SUPPORT. The laws of exchange memory: read after write, writes elsewhere, and the canonical form. -/
namespace Sys2Proof.Machine

theorem readByte_writeByte_other (m : Mem) (a b : Nat) (v : Byte) (h : b ≠ a) :
    readByte (writeByte m a v) b = readByte m b := by
  induction m with
  | nil => simp only [writeByte]; split <;> simp [readByte, Ne.symm h]
  | cons c rest ih =>
    obtain ⟨x, w⟩ := c
    simp only [writeByte]
    split
    · split <;> simp [readByte, Ne.symm h]
    · split
      · rename_i hx
        subst hx
        split <;> simp [readByte, Ne.symm h]
      · simp [readByte, ih]

theorem readByte_of_lt (m : Mem) (a : Nat) (h : ∀ c ∈ m, a < c.1) : readByte m a = unlistedByte := by
  induction m with
  | nil => rfl
  | cons c rest ih =>
    obtain ⟨x, w⟩ := c
    have h1 : a < x := h (x, w) (by simp)
    rw [readByte, if_neg (by omega)]
    exact ih fun c hc => h c (by simp [hc])

theorem readByte_writeByte_same (m : Mem) (a : Nat) (v : Byte) (h : MemWf m) :
    readByte (writeByte m a v) a = v := by
  induction m with
  | nil => simp only [writeByte]; split <;> simp_all [readByte]
  | cons c rest ih =>
    obtain ⟨x, w⟩ := c
    obtain ⟨hp, hz⟩ := h
    rw [List.pairwise_cons] at hp
    have ih := ih ⟨hp.2, fun c hc => hz c (by simp [hc])⟩
    simp only [writeByte]
    split
    · rename_i hx
      split
      · subst_vars
        rw [readByte, if_neg (by omega)]
        exact readByte_of_lt rest a fun c hc => Nat.lt_trans hx (hp.1 c hc)
      · simp [readByte]
    · split
      · rename_i hx
        subst hx
        split
        · subst_vars; exact readByte_of_lt rest a fun c hc => hp.1 c hc
        · simp [readByte]
      · rename_i hx
        simp [readByte, ih, Ne.symm hx]

theorem mem_writeByte {m : Mem} {a : Nat} {v : Byte} {c : Host.Cell} (h : c ∈ writeByte m a v) :
    c ∈ m ∨ (c.1 = a ∧ c.2 ≠ unlistedByte) := by
  induction m with
  | nil => simp only [writeByte] at h; split at h <;> simp_all
  | cons d rest ih =>
    obtain ⟨x, w⟩ := d
    simp only [writeByte] at h
    split at h
    · split at h <;> simp_all
      aesop
    · split at h
      · split at h <;> simp_all
        aesop
      · simp only [List.mem_cons] at h
        rcases h with h | h
        · simp [h]
        · rcases ih h with h | h <;> simp [h]

theorem memWf_writeByte {m : Mem} (a : Nat) (v : Byte) (h : MemWf m) : MemWf (writeByte m a v) := by
  refine ⟨?_, fun c hc => (mem_writeByte hc).elim (h.2 c) And.right⟩
  obtain ⟨hp, hz⟩ := h
  induction m with
  | nil => simp only [writeByte]; split <;> simp
  | cons c rest ih =>
    obtain ⟨x, w⟩ := c
    have hp' := List.pairwise_cons.mp hp
    simp only [writeByte]
    split
    · rename_i hx
      split
      · exact hp
      · refine List.pairwise_cons.mpr ⟨fun c hc => ?_, hp⟩
        rcases List.mem_cons.mp hc with rfl | hc
        · exact hx
        · exact Nat.lt_trans hx (hp'.1 c hc)
    · split
      · rename_i hx
        subst hx
        split
        · exact hp'.2
        · exact List.pairwise_cons.mpr ⟨fun c hc => hp'.1 c hc, hp'.2⟩
      · refine List.pairwise_cons.mpr ⟨fun c hc => ?_, ih hp'.2 fun c hc => hz c (by simp [hc])⟩
        rcases mem_writeByte hc with hc | hc
        · exact hp'.1 c hc
        · show x < c.1
          omega

theorem memWf_writeWord {m : Mem} (a : Nat) (w : Word) (h : MemWf m) : MemWf (writeWord m a w) :=
  memWf_writeByte _ _ (memWf_writeByte _ _ (memWf_writeByte _ _ (memWf_writeByte _ _ h)))

theorem memWf_writeWords {m : Mem} (a : Nat) (ws : List Nat) (h : MemWf m) : MemWf (writeWords m a ws) := by
  induction ws generalizing m a with
  | nil => exact h
  | cons w ws ih => exact ih _ (memWf_writeWord _ _ h)

theorem memWf_nil : MemWf [] := ⟨List.Pairwise.nil, by simp⟩

theorem memWf_filter {m : Mem} (p : Host.Cell → Bool) (h : MemWf m) : MemWf (m.filter p) :=
  ⟨h.1.filter p, fun c hc => h.2 c (List.mem_filter.mp hc).1⟩

/-- A byte of a word just written. -/
theorem readByte_writeWord (m : Mem) (a b : Nat) (w : Word) (h : MemWf m) :
    readByte (writeWord m a w) b =
      if b = a then w.extractLsb' 0 8 else if b = a + 1 then w.extractLsb' 8 8
      else if b = a + 2 then w.extractLsb' 16 8 else if b = a + 3 then w.extractLsb' 24 8 else readByte m b := by
  have h1 := memWf_writeByte a (w.extractLsb' 0 8) h
  have h2 := memWf_writeByte (a + 1) (w.extractLsb' 8 8) h1
  have h3 := memWf_writeByte (a + 2) (w.extractLsb' 16 8) h2
  simp only [writeWord]
  split
  · subst_vars
    rw [readByte_writeByte_other _ _ _ _ (by omega), readByte_writeByte_other _ _ _ _ (by omega),
      readByte_writeByte_other _ _ _ _ (by omega), readByte_writeByte_same _ _ _ h]
  · split
    · subst_vars
      rw [readByte_writeByte_other _ _ _ _ (by omega), readByte_writeByte_other _ _ _ _ (by omega),
        readByte_writeByte_same _ _ _ h1]
    · split
      · subst_vars
        rw [readByte_writeByte_other _ _ _ _ (by omega), readByte_writeByte_same _ _ _ h2]
      · split
        · subst_vars
          rw [readByte_writeByte_same _ _ _ h3]
        · rw [readByte_writeByte_other _ _ _ _ (by omega), readByte_writeByte_other _ _ _ _ (by omega),
            readByte_writeByte_other _ _ _ _ (by omega), readByte_writeByte_other _ _ _ _ (by omega)]

theorem readByte_writeWord_other (m : Mem) (a b : Nat) (w : Word) (h : b < a ∨ a + 4 ≤ b) :
    readByte (writeWord m a w) b = readByte m b := by
  simp only [writeWord]
  rw [readByte_writeByte_other _ _ _ _ (by omega), readByte_writeByte_other _ _ _ _ (by omega),
    readByte_writeByte_other _ _ _ _ (by omega), readByte_writeByte_other _ _ _ _ (by omega)]

theorem readByte_writeWords_other (m : Mem) (a b : Nat) (ws : List Nat) (h : b < a ∨ a + 4 * ws.length ≤ b) :
    readByte (writeWords m a ws) b = readByte m b := by
  induction ws generalizing m a with
  | nil => rfl
  | cons w ws ih =>
    simp only [List.length_cons] at h
    rw [writeWords, ih _ _ (by omega), readByte_writeWord_other _ _ _ _ (by omega)]

theorem wordBytes (w : Word) :
    w.extractLsb' 24 8 ++ w.extractLsb' 16 8 ++ w.extractLsb' 8 8 ++ w.extractLsb' 0 8 = w := by
  apply BitVec.eq_of_getElem_eq
  intro i hi
  simp only [BitVec.getElem_append, BitVec.getElem_extractLsb']
  repeat' split
  all_goals (rw [BitVec.getLsbD_eq_getElem (by omega)]; congr 1; omega)

/-- A word just written reads back whole. -/
theorem readWord_writeWord_same (m : Mem) (a : Nat) (w : Word) (h : MemWf m) : readWord (writeWord m a w) a = w := by
  simp only [readWord, readByte_writeWord _ _ _ _ h]
  simpa using wordBytes w

theorem readWord_writeWord_other (m : Mem) (a b : Nat) (w : Word) (h : b + 4 ≤ a ∨ a + 4 ≤ b) :
    readWord (writeWord m a w) b = readWord m b := by
  simp only [readWord]
  rw [readByte_writeWord_other _ _ _ _ (by omega), readByte_writeWord_other _ _ _ _ (by omega),
    readByte_writeWord_other _ _ _ _ (by omega), readByte_writeWord_other _ _ _ _ (by omega)]

theorem readWord_writeWords_other (m : Mem) (a b : Nat) (ws : List Nat) (h : b + 4 ≤ a ∨ a + 4 * ws.length ≤ b) :
    readWord (writeWords m a ws) b = readWord m b := by
  simp only [readWord]
  rw [readByte_writeWords_other _ _ _ _ (by omega), readByte_writeWords_other _ _ _ _ (by omega),
    readByte_writeWords_other _ _ _ _ (by omega), readByte_writeWords_other _ _ _ _ (by omega)]

/-- The `i`-th of consecutive words just written. -/
theorem readWord_writeWords (m : Mem) (a : Nat) (ws : List Nat) (i : Nat) (hi : i < ws.length) (h : MemWf m) :
    readWord (writeWords m a ws) (a + 4 * i) = BitVec.ofNat 32 ws[i] := by
  induction ws generalizing m a i with
  | nil => simp at hi
  | cons w ws ih =>
    rw [writeWords]
    cases i with
    | zero =>
      rw [readWord_writeWords_other _ _ _ _ (by omega)]
      exact readWord_writeWord_same _ _ _ h
    | succ i =>
      have := ih (writeWord m a (BitVec.ofNat 32 w)) (a + 4) i (by simpa using hi) (memWf_writeWord _ _ h)
      rw [show a + 4 + 4 * i = a + 4 * (i + 1) by omega] at this
      simpa using this

theorem readWord_congr {m m' : Mem} (a : Nat) (h : ∀ i, i < 4 → readByte m' (a + i) = readByte m (a + i)) :
    readWord m' a = readWord m a := by
  have h0 := h 0 (by omega)
  simp only [Nat.add_zero] at h0
  simp only [readWord, h0, h 1 (by omega), h 2 (by omega), h 3 (by omega)]

end Sys2Proof.Machine
end

