-- ==== Sys2Proof/Laws/State.lean ====
section
/-! SUPPORT. Reading a table after an update, and what entering a state does to an outlet. The field lemmas of the updates
themselves (`State.modOutlet_mem` and the like) are made by `@[simps]` where the updates are defined. Entries are
written with the index as a number, the form simp brings them to. -/
namespace Sys2Proof.Machine

@[simp] theorem getElem_upd_same {α : Type} {n : Nat} (v : Vector α n) (i : Fin n) (f : α → α) :
    (upd v i f)[i.val] = f v[i.val] := by simp [upd]

theorem getElem_upd_other {α : Type} {n : Nat} (v : Vector α n) (i j : Fin n) (f : α → α) (h : j ≠ i) :
    (upd v i f)[j.val] = v[j.val] :=
  Vector.getElem_set_ne i.isLt j.isLt fun e => h (Fin.ext e.symm)

theorem getElem_upd {α : Type} {n : Nat} (v : Vector α n) (i j : Fin n) (f : α → α) :
    (upd v i f)[j.val] = if j = i then f v[j.val] else v[j.val] := by
  by_cases h : j = i
  · subst h; simp
  · rw [if_neg h, getElem_upd_other _ _ _ _ h]

@[simp] theorem getElem_tab {α : Type} {n : Nat} (f : Fin n → α) (i : Fin n) : (tab f)[i.val] = f i := by
  simp [tab]

/-- Equal tables have equal entries. -/
theorem vector_ext {α : Type} {n : Nat} (u v : Vector α n) (h : ∀ i : Fin n, u[i] = v[i]) : u = v :=
  Vector.ext fun i hi => h ⟨i, hi⟩

@[simp] theorem enter_state (s : State) (k : OutletIx) (st : OutletState) :
    (s.enter k st).outlets[k.val].state = st := by
  simp [State.enter]

@[simp] theorem enter_lastChange (s : State) (k : OutletIx) (st : OutletState) :
    (s.enter k st).outlets[k.val].lastChange = s.partTime := by
  simp [State.enter]

theorem enter_other (s : State) (k j : OutletIx) (st : OutletState) (h : j ≠ k) :
    (s.enter k st).outlets[j.val] = s.outlets[j.val] := by
  simp only [State.enter, State.modOutlet_outlets]
  exact getElem_upd_other _ _ _ _ h

end Sys2Proof.Machine
end

