-- ==== Sys2Proof/Laws/BlockStep.lean ====
section
/-! SUPPORT. What the blocks' own work can do (`BlockStep`), one lemma for each operation of the outlet controller, the relay driver,
the close scheduler, the order table, the cycle controller, the shed monitor and the watch unit. -/
namespace Sys2Proof.Machine

open Sys2Proof.Safety

/-- The work of the blocks leaves the port, the clock, the front end, the timebase, the meter, the publisher, the
settings in force and the intake FIFO as they are; it keeps memory canonical, changes no byte outside notices and
slot results, and keeps the reserved cause bits clear and the estimates in range. -/
structure BlockStep (s u : State) : Prop where
  pending : u.pending = s.pending
  resetting : u.resetting = s.resetting
  now : u.now = s.now
  mask : u.mask = s.mask
  sdo : u.sdo = s.sdo
  sense : u.sense = s.sense
  phases : u.phases = s.phases
  tb : u.tb = s.tb
  meter : u.meter = s.meter
  meterV : u.meterV = s.meterV
  pub : u.pub = s.pub
  fifo : u.fifo = s.fifo
  work : u.work = s.work
  choices : u.choices = s.choices
  wf : MemWf s.mem → MemWf u.mem
  bytes : sameBytesOutside blockBytes s.mem u.mem
  cause : s.cause &&& ~~~causeBits = 0 → u.cause &&& ~~~causeBits = 0
  est : (∀ k : OutletIx, estimatesInRange s.outlets[k]) → ∀ k : OutletIx, estimatesInRange u.outlets[k]

namespace BlockStep

theorem refl (s : State) : BlockStep s s :=
  ⟨rfl, rfl, rfl, rfl, rfl, rfl, rfl, rfl, rfl, rfl, rfl, rfl, rfl, rfl, id, fun _ _ => rfl, id, id⟩

theorem trans {s u v : State} (h : BlockStep s u) (g : BlockStep u v) : BlockStep s v where
  pending := g.pending.trans h.pending
  resetting := g.resetting.trans h.resetting
  now := g.now.trans h.now
  mask := g.mask.trans h.mask
  sdo := g.sdo.trans h.sdo
  sense := g.sense.trans h.sense
  phases := g.phases.trans h.phases
  tb := g.tb.trans h.tb
  meter := g.meter.trans h.meter
  meterV := g.meterV.trans h.meterV
  pub := g.pub.trans h.pub
  fifo := g.fifo.trans h.fifo
  work := g.work.trans h.work
  choices := g.choices.trans h.choices
  wf := g.wf ∘ h.wf
  bytes := fun a ha => (g.bytes a ha).trans (h.bytes a ha)
  cause := g.cause ∘ h.cause
  est := g.est ∘ h.est

/-- `trans` with the later step first: the later state is known from the goal. -/
theorem after {s u v : State} (g : BlockStep u v) (h : BlockStep s u) : BlockStep s v := h.trans g

theorem foldl {α : Type} {f : State → α → State} (h : ∀ s x, BlockStep s (f s x)) (l : List α) (s : State) :
    BlockStep s (l.foldl f s) := by
  induction l generalizing s with
  | nil => exact refl s
  | cons x l ih => exact (h s x).trans (ih _)

/-- A fold that carries a second result beside the state. -/
theorem foldlPair {α β : Type} {f : State × β → α → State × β} (h : ∀ a x, BlockStep a.1 (f a x).1) (l : List α)
    (a : State × β) : BlockStep a.1 (l.foldl f a).1 := by
  induction l generalizing a with
  | nil => exact refl _
  | cons x l ih => exact (h a x).trans (ih _)

/-- A change of records that the port, memory and the outlets do not show. -/
theorem records {s u : State} (h : u = { s with
      drivers := u.drivers, waitList := u.waitList, moves := u.moves, loads := u.loads, stripGrant := u.stripGrant
      queue := u.queue, nextArrival := u.nextArrival, scanDue := u.scanDue, shed := u.shed, cycles := u.cycles
      watches := u.watches, orders := u.orders }) : BlockStep s u := by
  rw [h]
  exact ⟨rfl, rfl, rfl, rfl, rfl, rfl, rfl, rfl, rfl, rfl, rfl, rfl, rfl, rfl, id, fun _ _ => rfl, id, id⟩

/-- The blocks' work does not depend on what the meter engine, the publisher or the timebase hold. -/
theorem withMeter {s u : State} (h : BlockStep s u) (m : Vector MeterOutlet 48) :
    BlockStep { s with meter := m } { u with meter := m } :=
  ⟨h.pending, h.resetting, h.now, h.mask, h.sdo, h.sense, h.phases, h.tb, rfl, h.meterV, h.pub, h.fifo, h.work,
    h.choices, h.wf, h.bytes, h.cause, h.est⟩

theorem withPub {s u : State} (h : BlockStep s u) (p : Publisher) : BlockStep { s with pub := p } { u with pub := p } :=
  ⟨h.pending, h.resetting, h.now, h.mask, h.sdo, h.sense, h.phases, h.tb, h.meter, h.meterV, rfl, h.fifo, h.work,
    h.choices, h.wf, h.bytes, h.cause, h.est⟩

theorem withTb {s u : State} (h : BlockStep s u) (x : Timebase) : BlockStep { s with tb := x } { u with tb := x } :=
  ⟨h.pending, h.resetting, h.now, h.mask, h.sdo, h.sense, h.phases, rfl, h.meter, h.meterV, h.pub, h.fifo, h.work,
    h.choices, h.wf, h.bytes, h.cause, h.est⟩

end BlockStep

/-! ### One record changed -/

theorem modOutlet_block (s : State) (k : OutletIx) (f : Outlet → Outlet)
    (h : ∀ o, estimatesInRange o → estimatesInRange (f o)) : BlockStep s (s.modOutlet k f) where
  pending := rfl
  resetting := rfl
  now := rfl
  mask := rfl
  sdo := rfl
  sense := rfl
  phases := rfl
  tb := rfl
  meter := rfl
  meterV := rfl
  pub := rfl
  fifo := rfl
  work := rfl
  choices := rfl
  wf := id
  bytes := fun _ _ => rfl
  cause := id
  est := by
    intro hs j
    simp only [State.modOutlet_outlets, Fin.getElem_fin, getElem_upd]
    split
    · exact h _ (hs j)
    · exact hs j

theorem setMove_block (s : State) (k : OutletIx) (m : Movement) : BlockStep s (s.setMove k m) := .records rfl
theorem setDriver_block (s : State) (d : DriverNo) (x : Driver) : BlockStep s (s.setDriver d x) := .records rfl
theorem modShed_block (s : State) (b : Branch) (f : ShedRec → ShedRec) : BlockStep s (s.modShed b f) := .records rfl
theorem modCycle_block (s : State) (c : RecNo) (f : CycleRec → CycleRec) : BlockStep s (s.modCycle c f) := .records rfl
theorem modWatch_block (s : State) (w : WatchNo) (f : WatchRec → WatchRec) : BlockStep s (s.modWatch w f) :=
  .records rfl
theorem setOrder_block (s : State) (e : SlotNo) (x : Option OrderEntry) : BlockStep s (s.setOrder e x) := .records rfl

theorem enter_block (s : State) (k : OutletIx) (st : OutletState) : BlockStep s (s.enter k st) :=
  modOutlet_block s k _ fun _ h => h

theorem causeWord_reserved (c : Cause) : c.word &&& ~~~causeBits = 0 := by cases c <;> decide

theorem reserved_or {x y : Word} (hx : x &&& ~~~causeBits = 0) (hy : y &&& ~~~causeBits = 0) :
    (x ||| y) &&& ~~~causeBits = 0 := by
  have h : (x ||| y) &&& ~~~causeBits = (x &&& ~~~causeBits) ||| (y &&& ~~~causeBits) := by
    ext i hi
    simp [Bool.and_or_distrib_right]
  rw [h, hx, hy]
  rfl

/-- A write of memory within the blocks' bytes. -/
theorem memory_block (s : State) (m : Mem) (wf : MemWf s.mem → MemWf m) (bytes : sameBytesOutside blockBytes s.mem m) :
    BlockStep s { s with mem := m } :=
  ⟨rfl, rfl, rfl, rfl, rfl, rfl, rfl, rfl, rfl, rfl, rfl, rfl, rfl, rfl, wf, bytes, id, id⟩

theorem raise_block (s : State) (c : Cause) : BlockStep s (s.raise c) :=
  ⟨rfl, rfl, rfl, rfl, rfl, rfl, rfl, rfl, rfl, rfl, rfl, rfl, rfl, rfl, id, fun _ _ => rfl,
    fun h => reserved_or h (causeWord_reserved c), id⟩

/-! ### Notices and order results -/

theorem memWf_writeNotice {m : Mem} (seq : Word) (kind : NoticeKind) (subject reason : Nat) (stamp value : Word)
    (h : MemWf m) : MemWf (writeNotice m seq kind subject reason stamp value) :=
  memWf_writeWord _ _ (memWf_writeWords _ _ h)

/-- A notice entry lies within the log. -/
theorem readByte_writeNotice_other (m : Mem) (seq : Word) (kind : NoticeKind) (subject reason : Nat)
    (stamp value : Word) (a : Nat) (h : within 0x2D00 0x1000 a = false) :
    readByte (writeNotice m seq kind subject reason stamp value) a = readByte m a := by
  have hs : seq.toNat % 256 < 256 := Nat.mod_lt _ (by decide)
  simp only [within, Bool.and_eq_false_iff, decide_eq_false_iff_not] at h
  simp only [writeNotice, noticeAddr]
  rw [readByte_writeWord_other _ _ _ _ (by omega), readByte_writeWords_other _ _ _ _ (by simp; omega)]

theorem outside_within {lo len a : Nat} (h : within lo len a = false) : a < lo ∨ lo + len ≤ a := by
  by_cases h1 : lo ≤ a
  · simp only [within, h1, decide_true, Bool.true_and, decide_eq_false_iff_not] at h
    omega
  · omega

/-- The missed-kinds word and the write count are notice bytes. -/
theorem outside_header {a : Nat} (h : blockBytes a = false) :
    (a < addrMissedKinds ∨ addrMissedKinds + 4 ≤ a) ∧ (a < addrWriteCount ∨ addrWriteCount + 4 ≤ a) ∧
      within 0x2D00 0x1000 a = false := by
  simp only [blockBytes, noticeBytes, Bool.or_eq_false_iff] at h
  have := outside_within h.1.1
  simp only [addrWriteCount, addrMissedKinds] at this ⊢
  exact ⟨by omega, by omega, h.1.2⟩

theorem notice_block (s : State) (kind : NoticeKind) (subject reason : Nat) (value : Word) :
    BlockStep s (s.notice kind subject reason value) := by
  unfold State.notice
  split
  · exact memory_block s _ (memWf_writeWord _ _) fun a ha =>
      readByte_writeWord_other s.mem addrMissedKinds a _ (outside_header ha).1
  · dsimp only
    refine BlockStep.trans (memory_block s _
      (fun h => memWf_writeWord _ _ (memWf_writeNotice _ _ _ _ _ _ h)) fun a ha => ?_) (raise_block _ _)
    rw [readByte_writeWord_other _ _ _ _ (outside_header ha).2.1,
      readByte_writeNotice_other _ _ _ _ _ _ _ _ (outside_header ha).2.2]

theorem memWf_writeResult {m : Mem} (e : SlotNo) (r : OrderResult) (finish : Word) (h : MemWf m) :
    MemWf (writeResult m e r finish) :=
  memWf_writeWord _ _ (memWf_writeWord _ _ (memWf_writeWords _ _ h))

/-- The result of an order lies in the part-written bytes of its slot. -/
theorem readByte_writeResult_other (m : Mem) (e : SlotNo) (r : OrderResult) (finish : Word) (a : Nat)
    (h : slotPartBytes a = false) : readByte (writeResult m e r finish) a = readByte m a := by
  have he := e.isLt
  simp only [slotPartBytes, slotArea, Bool.and_eq_false_iff, Bool.or_eq_false_iff, decide_eq_false_iff_not] at h
  simp only [writeResult, slotAddr]
  rw [readByte_writeWord_other _ _ _ _ (by omega), readByte_writeWord_other _ _ _ _ (by omega),
    readByte_writeWords_other _ _ _ _ (by simp only [List.length_cons, List.length_nil]; omega)]

theorem finishOrder_block (s : State) (e : SlotNo) (r : OrderResult) : BlockStep s (s.finishOrder e r) := by
  unfold State.finishOrder
  split
  · exact .refl s
  · rename_i entry _
    have h : BlockStep s ((({ s with mem := writeResult s.mem e r s.partTime }).setOrder e none).raise .order) := by
      refine .after (raise_block _ _) (.after (setOrder_block _ _ _)
        (memory_block s _ (memWf_writeResult e r _) fun a ha => ?_))
      simp only [blockBytes, Bool.or_eq_false_iff] at ha
      exact readByte_writeResult_other _ _ _ _ _ ha.2
    dsimp only
    split
    · exact .after (notice_block _ _ _ _ _) (h)
    · exact h

theorem orderReply_block (s : State) (e : SlotNo) (k : OutletIx) (r : MemberOutcome) :
    BlockStep s (s.orderReply e k r) := by
  unfold State.orderReply
  split
  · exact .refl s
  · dsimp only
    split
    · exact .after (finishOrder_block _ _ _) (setOrder_block _ _ _)
    · exact setOrder_block _ _ _

/-! ### The relay driver -/

theorem startPulse_block (s : State) (d : DriverNo) (job : DriverJob) (estimate : Nat) :
    BlockStep s (s.startPulse d job estimate) := .after (setMove_block _ _ _) (setDriver_block _ _ _)

theorem assign_block (s : State) (d : DriverNo) (k : OutletIx) (dir : Dir) : BlockStep s (s.assign d k dir) := by
  unfold State.assign
  dsimp only
  have h : ∀ job m, BlockStep s (((s.setDriver d job).setMove k m).modOutlet k fun o => { o with unverified := none }) :=
    fun job m => .after (modOutlet_block _ _ _ fun _ h => h) (.after (setMove_block _ _ _) (setDriver_block _ _ _))
  split
  · exact h _ _
  · exact .after (startPulse_block _ _ _ _) (h _ _)

theorem needDriver_block (s : State) (k : OutletIx) (dir : Dir) (retry : Bool) : BlockStep s (s.needDriver k dir retry) := by
  unfold State.needDriver
  split
  · exact assign_block _ _ _ _
  · exact .after (setMove_block _ _ _) (.records rfl)

theorem openRequest_block (s : State) (k : OutletIx) : BlockStep s (s.openRequest k) :=
  .after (needDriver_block _ _ _ _) (modOutlet_block s k _ fun _ h => h)

theorem offerDriver_block (s : State) (d : DriverNo) : BlockStep s (s.offerDriver d) := by
  unfold State.offerDriver
  dsimp only
  split
  · exact .after (.records rfl) (setDriver_block s d _)
  · exact .after (assign_block _ _ _ _) (.after (.records rfl) (setDriver_block s d _))

theorem withdrawWaiting_block (s : State) (k : OutletIx) : BlockStep s (s.withdrawWaiting k) := by
  unfold State.withdrawWaiting
  split
  · exact .after (setMove_block _ _ _) (.records rfl)
  · exact .refl s

/-! ### The outlet controller -/

theorem enqueue_block (s : State) (k : OutletIx) (cls : ClassNo) (w : Owner) : BlockStep s (s.enqueue k cls w) :=
  .after (modOutlet_block _ _ _ fun _ h => h) (.after (enter_block _ _ _) (.records rfl))

theorem dequeue_block (s : State) (k : OutletIx) : BlockStep s (s.dequeue k) := by
  unfold State.dequeue
  split
  · exact .records rfl
  · exact .refl s

theorem reown_block (s : State) (k : OutletIx) (w : Owner) : BlockStep s (s.reown k w) := .records rfl

theorem release_block (s : State) (k : OutletIx) : BlockStep s (s.release k) := by
  unfold State.release
  split
  · exact .records rfl
  · exact .refl s

theorem clearMark_block (s : State) (k : OutletIx) : BlockStep s (s.clearMark k) :=
  .after (.records rfl) (modOutlet_block s k _ fun _ h => h)

theorem arriveOn_block (s : State) (k : OutletIx) : BlockStep s (s.arriveOn k) :=
  .after (clearMark_block _ k) (.after (modOutlet_block _ k _ fun _ h => h) (enter_block s k _))

theorem enterOpening_block (s : State) (k : OutletIx) (w : Owner) : BlockStep s (s.enterOpening k w) :=
  .after (openRequest_block _ k) (.after (release_block _ k)
      (.after (modOutlet_block _ k _ fun _ h => h) (enter_block s k _)))

theorem enterFault_block (s : State) (k : OutletIx) (kind : FaultKind) : BlockStep s (s.enterFault k kind).1 :=
  .after (withdrawWaiting_block _ k) (.after (release_block _ k) (.after (dequeue_block _ k)
      (.after (modOutlet_block _ k _ fun _ h => h) (enter_block s k _))))

theorem replaceOwner_block (s : State) (k : OutletIx) (w : Owner) : BlockStep s (s.replaceOwner k w).1 :=
  modOutlet_block s k _ fun _ h => h

theorem setPending_block (s : State) (k : OutletIx) (q : Option PendingReq) : BlockStep s (s.setPending k q).1 :=
  modOutlet_block s k _ fun _ h => h

theorem closeByState_block (s : State) (k : OutletIx) (cls : ClassNo) (w : Owner) :
    BlockStep s (s.closeByState k cls w).1 := by
  unfold State.closeByState
  split
  · exact enqueue_block _ _ _ _
  · exact .after (reown_block _ _ _) (replaceOwner_block _ _ _)
  · exact .after (setPending_block _ _ _) (replaceOwner_block _ _ _)
  · exact .refl s
  · exact setPending_block _ _ _
  · split
    · exact enqueue_block _ _ _ _
    · exact .refl s
  · exact .refl s
  · exact .refl s

theorem openByState_block (s : State) (k : OutletIx) (w : Owner) : BlockStep s (s.openByState k w).1 := by
  unfold State.openByState
  split
  · exact .refl s
  · exact .after (modOutlet_block _ _ _ fun _ h => h) (.after (enter_block _ _ _) (dequeue_block _ _))
  · exact setPending_block _ _ _
  · exact enterOpening_block _ _ _
  · exact .after (setPending_block _ _ _) (replaceOwner_block _ _ _)
  · split <;> exact .refl s
  · exact .refl s
  · exact .refl s

theorem requestClose_block (s : State) (k : OutletIx) (cls : ClassNo) (w : Owner) :
    BlockStep s (s.requestClose k cls w).1 := by
  unfold State.requestClose
  split
  · dsimp only
    split
    · exact clearMark_block _ _
    · exact .after (closeByState_block _ _ _ _) (clearMark_block _ _)
  all_goals exact closeByState_block _ _ _ _

theorem requestOpen_block (s : State) (k : OutletIx) (w : Owner) : BlockStep s (s.requestOpen k w).1 := by
  unfold State.requestOpen
  split
  · dsimp only
    split
    · exact clearMark_block _ _
    · exact .after (openByState_block _ _ _) (clearMark_block _ _)
  all_goals exact openByState_block _ _ _

theorem leaveQueue_block (s : State) (k : OutletIx) (r : MemberOutcome) : BlockStep s (s.leaveQueue k r).1 :=
  .after (modOutlet_block _ _ _ fun _ h => h) (.after (enter_block _ _ _) (dequeue_block _ _))

/-! ### Answers and the cycle controller -/

theorem restoreReply_block (s : State) (b : Branch) (k : OutletIx) (r : MemberOutcome) :
    BlockStep s (s.restoreReply b k r) := modShed_block _ _ _

theorem watchOutcome_block (s : State) (w : WatchNo) (r : OrderOutcome) : BlockStep s (s.watchOutcome w r) := by
  unfold State.watchOutcome
  cases r
  case done => exact modWatch_block _ _ _
  case canceled => exact modWatch_block _ _ _
  case partly => exact .after (notice_block _ _ _ _ _) (modWatch_block _ _ _)
  case abandoned => exact .after (notice_block _ _ _ _ _) (modWatch_block _ _ _)
  all_goals exact .refl s

theorem sendCloses_block (s : State) (ks : List OutletIx) (cls : ClassNo) (w : Owner) :
    BlockStep s (s.sendCloses ks cls w).1 :=
  BlockStep.foldlPair (f := fun a k => ((a.1.requestClose k cls w).1, a.2 ++ (a.1.requestClose k cls w).2))
    (fun a k => requestClose_block a.1 k cls w) ks (s, [])

theorem sendOpens_block (s : State) (ks : List OutletIx) (w : Owner) : BlockStep s (s.sendOpens ks w).1 :=
  BlockStep.foldlPair (f := fun a k => ((a.1.requestOpen k w).1, a.2 ++ (a.1.requestOpen k w).2))
    (fun a k => requestOpen_block a.1 k w) ks (s, [])

theorem tellOrigin_block (s : State) (c : RecNo) (r : CycleRec) (o : Origin) : BlockStep s (s.tellOrigin c r o) := by
  cases o
  · exact finishOrder_block _ _ _
  · exact watchOutcome_block _ _ _

theorem endRecord_block (s : State) (c : RecNo) : BlockStep s (s.endRecord c) :=
  .after (modCycle_block _ _ _)
      (.after (BlockStep.foldl (fun _ _ => tellOrigin_block _ _ _ _) _ _) (BlockStep.foldl (by exact fun s k => modOutlet_block s k _ fun _ h => h) _ _))

theorem testEnd_block (s : State) (c : RecNo) : BlockStep s (s.testEnd c) := by
  unfold State.testEnd
  dsimp only
  split
  · exact endRecord_block _ _
  · exact .refl s

theorem enterClosing_block (s : State) (c : RecNo) : BlockStep s (s.enterClosing c).1 :=
  .after (sendCloses_block _ _ _ _) (modCycle_block _ _ _)

theorem enterRestoring_block (s : State) (c : RecNo) : BlockStep s (s.enterRestoring c).1 :=
  .after (sendCloses_block _ _ _ _) (modCycle_block _ _ _)

theorem abandon_block (s : State) (c : RecNo) (k : OutletIx) : BlockStep s (s.abandon c k).1 :=
  .after (testEnd_block _ _) (.after (enterRestoring_block _ _)
      (.after (notice_block _ _ _ _ _) (modCycle_block _ _ _)))

theorem testResting_block (s : State) (c : RecNo) : BlockStep s (s.testResting c) := by
  unfold State.testResting
  split
  · exact modCycle_block _ _ _
  · exact .refl s

theorem cycleReply_block (s : State) (c : RecNo) (k : OutletIx) (d : Dir) (r : MemberOutcome) :
    BlockStep s (s.cycleReply c k d r).1 := by
  unfold State.cycleReply
  split
  · exact .refl s
  · split
    · exact testResting_block _ _
    · exact abandon_block _ _ _
    · exact abandon_block _ _ _
    · split
      · exact .after (testEnd_block _ _) (modCycle_block _ _ _)
      · exact .refl s
    · split
      · exact .after (testEnd_block _ _) (modCycle_block _ _ _)
      · exact .refl s
    all_goals first
      | exact .after (testEnd_block _ _) (modCycle_block _ _ _)
      | exact modCycle_block _ _ _
      | exact .refl s

theorem deliver_block (fuel : Nat) (rs : List Reply) (s : State) : BlockStep s (deliver fuel rs s) := by
  induction fuel generalizing rs s with
  | zero => exact .refl s
  | succ fuel ih =>
    refine BlockStep.foldl (fun s r => ?_) rs s
    split
    · exact orderReply_block _ _ _ _
    · exact .refl s
    · exact restoreReply_block _ _ _ _
    · exact .after (ih _ _) (cycleReply_block _ _ _ _ _)

theorem settle_block {s : State} {a : State × List Reply} (h : BlockStep s a.1) : BlockStep s (settle a) :=
  .after (deliver_block _ _ _) (h)

theorem retrigger_block (s : State) (c : RecNo) (o : Origin) (ks : List OutletIx) (rest : Nat) :
    BlockStep s (s.retrigger c o ks rest).1 := by
  unfold State.retrigger
  dsimp only
  split
  · exact .refl s
  · exact modCycle_block _ _ _

theorem startRecord_block (s : State) (c : RecNo) (o : Origin) (ks : List OutletIx) (rest : Nat) :
    BlockStep s (s.startRecord c o ks rest) :=
  settle_block (.after (sendOpens_block _ _ _) (.after
    (BlockStep.foldl (by exact fun s k => modOutlet_block s k _ fun _ h => h) _ _) (modCycle_block _ _ _)))

theorem admission_block (s : State) (o : Origin) (ks : List OutletIx) (rest : Nat) :
    BlockStep s (s.admission o ks rest).1 := by
  unfold State.admission
  repeat' split
  all_goals first
    | exact retrigger_block _ _ _ _ _
    | exact startRecord_block _ _ _ _ _
    | exact .refl s

theorem withdrawCloses_block (s : State) (c : RecNo) : BlockStep s (s.withdrawCloses c) := by
  refine BlockStep.foldl (fun s k => ?_) _ s
  split
  · exact settle_block (leaveQueue_block _ _ _)
  · exact .refl s

theorem cancel_block (s : State) (c : RecNo) : BlockStep s (s.cancel c).1 := by
  unfold State.cancel
  dsimp only
  split
  · exact .refl s
  · exact .refl s
  · exact settle_block (.after (testEnd_block _ _) (.after (enterRestoring_block _ _) (modCycle_block _ _ _)))
  · exact settle_block (.after (enterClosing_block _ _) (modCycle_block _ _ _))
  · exact .after (testEnd_block _ _) (.after (withdrawCloses_block _ _) (modCycle_block _ _ _))
  all_goals exact .refl s

theorem detach_block (s : State) (c : RecNo) (w : WatchNo) : BlockStep s (s.detach c w) := modCycle_block _ _ _

/-! ### Movements -/

theorem completeClose_block (s : State) (k : OutletIx) (unverified : Bool) : BlockStep s (s.completeClose k unverified) := by
  unfold State.completeClose
  dsimp only
  have h := (arriveOn_block s k).trans ((modOutlet_block _ k (fun o =>
    { o with owner := none, unverified := if unverified then some .toClosed else o.unverified }) fun _ h => h).trans
      (deliver_block 18 (s.ownerReply k .ok) _))
  split
  · exact .after (.after (enterOpening_block _ _ _) (modOutlet_block _ _ _ fun _ h => h)) (h)
  · exact h

theorem completeOpen_block (s : State) (k : OutletIx) (unverified : Bool) : BlockStep s (s.completeOpen k unverified) := by
  unfold State.completeOpen
  dsimp only
  split
  · exact .after (enqueue_block _ _ _ _) (.after (deliver_block _ _ _)
      (.after (modOutlet_block _ _ _ fun _ h => h) (.after (modOutlet_block _ _ _ fun _ h => h) (enter_block _ _ _))))
  · exact .after (deliver_block _ _ _) (.after (modOutlet_block _ _ _ fun _ h => h) (enter_block _ _ _))

theorem complete_block (s : State) (k : OutletIx) (d : Dir) (unverified : Bool) : BlockStep s (s.complete k d unverified) := by
  cases d
  · exact completeClose_block _ _ _
  · exact completeOpen_block _ _ _

theorem endMovement_block (s : State) (k : OutletIx) : BlockStep s (s.endMovement k) :=
  .after (modOutlet_block _ _ _ fun _ h => h) (setMove_block _ _ _)

/-- R86: the estimates stay within 2,000 to 30,000 µs. -/
theorem learned_inRange (old measured : Nat) (h : 2000 ≤ old ∧ old ≤ 30000) :
    2000 ≤ learned old measured ∧ learned old measured ≤ 30000 := by
  have hc : 2000 ≤ (clampNat 2000 30000 measured).1 ∧ (clampNat 2000 30000 measured).1 ≤ 30000 := by
    unfold clampNat
    split
    · simp
    · split
      · simp
      · dsimp only; omega
  unfold learned
  omega

theorem learn_block (s : State) (k : OutletIx) (d : Dir) (sat : Satisfied) : BlockStep s (s.learn k d sat) := by
  unfold State.learn
  split
  · exact modOutlet_block _ _ _ fun _ h => ⟨learned_inRange _ _ h.1, h.2⟩
  · exact modOutlet_block _ _ _ fun _ h => ⟨h.1, learned_inRange _ _ h.2⟩
  · exact .refl s
  · exact .refl s

theorem reportVerified_block (s : State) (k : OutletIx) (p : Pulse) : BlockStep s (s.reportVerified k p) :=
  .after (complete_block _ _ _ _) (.after (learn_block _ _ _ _) (endMovement_block _ _))

theorem reportUnverified_block (s : State) (k : OutletIx) (p : Pulse) : BlockStep s (s.reportUnverified k p) :=
  .after (complete_block _ _ _ _) (endMovement_block _ _)

theorem endPulse_block (s : State) (d : DriverNo) (k : OutletIx) : BlockStep s (s.endPulse d k) := by
  unfold State.endPulse
  dsimp only
  have h := offerDriver_block s d
  split
  · split
    · exact .after (reportUnverified_block _ _ _) (h)
    · split
      · exact .after (setMove_block _ _ _) (h)
      · exact .after (reportVerified_block _ _ _) (h)
      · exact .after (reportVerified_block _ _ _) (h)
  all_goals exact h

theorem senseReport_block (s : State) (k : OutletIx) (level : Bool) (stamp : Nat) :
    BlockStep s (s.senseReport k level stamp) := by
  unfold State.senseReport
  split
  · exact setMove_block _ _ _
  · dsimp only
    split
    · exact .refl s
    · exact reportVerified_block _ _ _
  all_goals exact .refl s

theorem retryPulse_block (s : State) (k : OutletIx) (p : Pulse) : BlockStep s (s.retryPulse k p) :=
  .after (needDriver_block _ _ _ _) (.after (notice_block _ _ _ _ _) (modOutlet_block _ _ _ fun _ h => h))

theorem failMovement_block (s : State) (k : OutletIx) (p : Pulse) : BlockStep s (s.failMovement k p) :=
  settle_block (.after (enterFault_block _ _ _) (.after (notice_block _ _ _ _ _) (setMove_block _ _ _)))

theorem verifyFailed_block (s : State) (k : OutletIx) (p : Pulse) : BlockStep s (s.verifyFailed k p) := by
  unfold State.verifyFailed
  repeat' split
  · exact reportUnverified_block _ _ _
  · exact failMovement_block _ _ _
  · exact retryPulse_block _ _ _

/-! ### The close scheduler -/

theorem grant_block (s : State) (e : QueueEntry) : BlockStep s (s.grant e) :=
  .after (needDriver_block _ _ _ _) (.after (modOutlet_block _ _ _ fun _ h => h)
      (.after (enter_block _ _ _) (.records rfl)))

theorem scanEntries_block (es : List QueueEntry) (s : State) : BlockStep s (scanEntries es s) := by
  induction es generalizing s with
  | nil => exact .refl s
  | cons e es ih =>
    rw [scanEntries]
    refine BlockStep.trans ?_ (ih _)
    split
    · exact grant_block _ _
    · exact .refl s

theorem scan_block (s : State) : BlockStep s s.scan := .after (.records rfl) (scanEntries_block _ s)

theorem scanIfDue_block (s : State) : BlockStep s s.scanIfDue := by
  unfold State.scanIfDue
  split
  · exact scan_block s
  · exact .refl s

theorem expire_block (s : State) (e : QueueEntry) : BlockStep s (s.expire e) :=
  .after (notice_block _ _ _ _ _) (settle_block (leaveQueue_block _ _ _))

/-- After the scan of an event none is due. -/
theorem scanIfDue_scanDue (s : State) : s.scanIfDue.scanDue = false := by
  unfold State.scanIfDue
  split
  · rfl
  · rename_i h
    exact Bool.eq_false_iff.mpr h

/-! ### The shed monitor -/

theorem shedOne_block (s : State) (closed : Settings) (b : Branch) : BlockStep s (s.shedOne closed b) := by
  unfold State.shedOne
  split
  · exact .refl s
  · exact .after (notice_block _ _ _ _ _) (.after (modShed_block _ _ _)
      (.after (modOutlet_block _ _ _ fun _ h => h) (settle_block (requestOpen_block _ _ _))))

theorem startRound_block (s : State) (b : Branch) (ks : List OutletIx) : BlockStep s (s.startRound b ks) :=
  settle_block (.after (sendCloses_block _ _ _ _) (.after (notice_block _ _ _ _ _) (modShed_block _ _ _)))

theorem shedEnabledBranch_block (s : State) (closed : Settings) (b : Branch) :
    BlockStep s (s.shedEnabledBranch closed b) := by
  have h (p : Bool) (s u : State) (h : BlockStep s u) : BlockStep s (if p then u else s) := by
    cases p
    · exact .refl s
    · exact h
  unfold State.shedEnabledBranch
  dsimp only
  have hs : ∀ (p : Bool) (u : State) (ks : List OutletIx), BlockStep u (if p then u.startRound b ks else u) :=
    fun p u ks => h p u _ (startRound_block u b ks)
  exact .after (hs _ _ _) (.after (modShed_block _ _ _) (.after (h _ _ _ (shedOne_block _ _ _))
    (.after (h _ _ _ (notice_block _ _ _ _ _)) (modShed_block _ _ _))))

theorem shedBranch_block (s : State) (closed : Settings) (b : Branch) : BlockStep s (s.shedBranch closed b) := by
  unfold State.shedBranch
  dsimp only
  split
  · exact .after (shedEnabledBranch_block _ _ _) (modShed_block _ _ _)
  · exact modShed_block _ _ _

theorem shedTake_block (s : State) (closed : Settings) : BlockStep s (s.shedTake closed) := .records rfl

/-! ### The watch unit -/

theorem takeWatchAt_block (s : State) (closed : Settings) (w : WatchNo) : BlockStep s (s.takeWatchAt closed w) := by
  unfold State.takeWatchAt
  dsimp only
  split
  · split
    · exact .after (modWatch_block _ _ _) (detach_block _ _ _)
    · exact modWatch_block _ _ _
  · split <;> exact modWatch_block _ _ _

theorem watchTake_block (s : State) (closed : Settings) : BlockStep s (s.watchTake closed) :=
  BlockStep.foldl (fun _ _ => takeWatchAt_block _ _ _) _ s

theorem requestCycle_block (s : State) (w : WatchNo) : BlockStep s (s.requestCycle w).1 := by
  unfold State.requestCycle
  dsimp only
  split <;> exact .after (modWatch_block _ _ _) (admission_block _ _ _ _)

theorem noticeCycle_block (s : State) (w : WatchNo) (r : AdmitResult) : BlockStep s (s.noticeCycle w r) := by
  cases r
  · exact notice_block _ _ _ _ _
  · exact notice_block _ _ _ _ _
  · exact .refl s

theorem giveUp_block (s : State) (w : WatchNo) : BlockStep s (s.giveUp w) :=
  .after (notice_block _ _ _ _ _) (modWatch_block _ _ _)

theorem expireWatch_block (s : State) (w : WatchNo) : BlockStep s (s.expireWatch w) := by
  unfold State.expireWatch
  dsimp only
  split
  · exact .after (notice_block _ _ _ _ _) (modWatch_block _ _ _)
  · split
    · exact .after (giveUp_block _ _) (notice_block _ _ _ _ _)
    · exact .after (noticeCycle_block _ _ _) (.after (notice_block _ _ _ _ _) (requestCycle_block _ _))

theorem retryWatch_block (s : State) (w : WatchNo) : BlockStep s (s.retryWatch w) := by
  unfold State.retryWatch
  dsimp only
  repeat' split
  · exact modWatch_block _ _ _
  · exact giveUp_block _ _
  · exact .after (noticeCycle_block _ _ _) (requestCycle_block _ _)

theorem watchingFrame_block (s : State) (w : WatchNo) (sum : Nat) (seq : Word) :
    BlockStep s (s.watchingFrame w sum seq) := by
  unfold State.watchingFrame
  dsimp only
  repeat' split
  · exact modWatch_block _ _ _
  · exact .after (expireWatch_block _ _) (modWatch_block _ _ _)
  · exact modWatch_block _ _ _

theorem waitingFrame_block (s : State) (seen : Vector OutletState 48) (w : WatchNo) (sum : Nat) (seq : Word) :
    BlockStep s (s.waitingFrame seen w sum seq) := by
  unfold State.waitingFrame
  dsimp only
  generalize (if anyOn seen s.work.watches[w].members then _ else _ : WatchRec × Option Evidence) = e
  split
  · exact .after (notice_block _ _ _ _ _) (modWatch_block _ _ _)
  · split
    · exact .after (retryWatch_block _ _) (modWatch_block _ _ _)
    · exact modWatch_block _ _ _

theorem examineWatch_block (s : State) (seen : Vector OutletState 48) (res : Vector OutletResult 48) (seq : Word)
    (w : WatchNo) : BlockStep s (s.examineWatch seen res seq w) := by
  unfold State.examineWatch
  dsimp only
  split
  · exact .refl s
  · exact .refl s
  · split
    · exact modWatch_block _ _ _
    · exact .refl s
  · split
    · exact watchingFrame_block _ _ _ _
    · exact .refl s
  all_goals exact waitingFrame_block _ _ _ _ _

theorem rearm_block (s : State) (w : WatchNo) : BlockStep s (s.rearm w).1 := by
  unfold State.rearm
  split
  · exact .refl s
  · exact .refl s
  all_goals exact modWatch_block _ _ _

/-! ### The blocks' work at a frame close -/

theorem answerClears_block (s : State) (cleared : OutletIx → Bool) : BlockStep s (s.answerClears cleared) := by
  refine BlockStep.foldl (fun s e => ?_) _ s
  split
  · exact .refl s
  · split
    · refine BlockStep.foldl (fun s m => ?_) _ s
      split
      · exact orderReply_block _ _ _ _
      · exact .refl s
    · exact .refl s

theorem discover_block (s : State) (k : OutletIx) : BlockStep s (s.discover k) := by
  unfold State.discover
  dsimp only
  refine BlockStep.trans ?_ (modOutlet_block _ _ _ fun _ h => h)
  split
  · exact arriveOn_block _ _
  · exact enter_block _ _ _

theorem faultAtClose_block (s : State) (k : OutletIx) (kind : FaultKind) (seq : Word) :
    BlockStep s (s.faultAtClose k kind seq) :=
  .after (notice_block _ _ _ _ _) (settle_block (enterFault_block _ _ _))

theorem resolveUnverified_block (s : State) (k : OutletIx) (seq : Word) : BlockStep s (s.resolveUnverified k seq) := by
  unfold State.resolveUnverified
  split
  · exact .refl s
  · split
    · exact modOutlet_block _ _ _ fun _ h => h
    · exact faultAtClose_block _ _ _ _

theorem supervise_block (s : State) (k : OutletIx) (usable leaks : Bool) (seq : Word) :
    BlockStep s (s.supervise k usable leaks seq) := by
  unfold State.supervise
  dsimp only
  repeat' split
  all_goals first
    | exact modOutlet_block _ _ _ fun _ h => h
    | exact .after (faultAtClose_block _ _ _ _) (modOutlet_block _ _ _ fun _ h => h)

theorem outletWork_block (s : State) (closed : Settings) (res : Vector OutletResult 48) (seq : Word) (k : OutletIx) :
    BlockStep s (s.outletWork closed res seq k) := by
  unfold State.outletWork
  dsimp only
  have h1 : BlockStep s (if s.outlets[k].state = .unknown ∧ s.usable (phaseOfBranch closed.outlets[k].branch) = true then
      s.discover k else s) := by
    split
    · exact discover_block _ _
    · exact .refl s
  refine BlockStep.trans h1 ?_
  generalize (if s.outlets[k].state = .unknown ∧ s.usable (phaseOfBranch closed.outlets[k].branch) = true then
    s.discover k else s) = s1
  have h2 : BlockStep s1 (if s1.usable (phaseOfBranch closed.outlets[k].branch) = true then s1.resolveUnverified k seq
      else s1) := by
    split
    · exact resolveUnverified_block _ _ _
    · exact .refl s1
  refine BlockStep.trans h2 ?_
  exact .after (modOutlet_block _ _ _ fun _ h => h) (supervise_block _ _ _ _ _)

theorem outletsWork_block (s : State) (closed : Settings) (res : Vector OutletResult 48) (seq : Word) :
    BlockStep s (s.outletsWork closed res seq).1 :=
  BlockStep.foldlPair (fun _ _ => outletWork_block _ _ _ _ _) _ (s, [])

theorem patienceChange_block (s : State) (closed : Settings) : BlockStep s (s.patienceChange closed) := by
  unfold State.patienceChange
  split
  · exact .refl s
  · refine BlockStep.foldl (fun s e => ?_) _ s
    split
    · exact expire_block _ _
    · exact .refl s

theorem schedulerWork_block (s : State) (closed : Settings) (res : Vector OutletResult 48) (whole : List OutletIx) :
    BlockStep s (s.schedulerWork closed res whole) :=
  .after (patienceChange_block _ _) (.after (BlockStep.foldl (fun _ _ => release_block _ _) whole _) (.records rfl))

theorem closeScan_block (s : State) (handed : Option (Vector Nat 6)) : BlockStep s (s.closeScan handed).1 := by
  cases handed with
  | none => exact scan_block s
  | some c => exact .refl s

theorem closeTurns_block (closed : Settings) (seen : Vector OutletState 48) (res : Vector OutletResult 48) (seq : Word)
    (order : CloseOrder) (bs : List Branch) (ws : List WatchNo) (handed : Option (Vector Nat 6)) (s : State) :
    BlockStep s (State.closeTurns closed seen res seq order bs ws handed s).1 := by
  induction order, bs, ws, handed, s using
    State.closeTurns.induct (closed := closed) (seen := seen) (res := res) (seq := seq) with
  | case1 bs ws handed s =>
    exact .after (BlockStep.foldl (fun _ _ => examineWatch_block _ _ _ _ _) _ _)
      (.after (BlockStep.foldl (fun _ _ => shedBranch_block _ _ _) _ _) (closeScan_block s handed))
  | case2 turns bs ws handed s a ih => exact .after ih (closeScan_block s handed)
  | case3 turns ws handed s ih => exact ih
  | case4 turns ws handed s b bs ih => exact .after ih (shedBranch_block _ _ _)
  | case5 turns bs handed s ih => exact ih
  | case6 turns bs handed s w ws ih => exact .after ih (examineWatch_block _ _ _ _ _)

theorem closeWork_block (s : State) (order : CloseOrder) (closed : Settings) (seen : Vector OutletState 48)
    (res : Vector OutletResult 48) (seq : Word) (skip : List WatchNo) :
    BlockStep s (s.closeWork order closed seen res seq skip).1 :=
  .after (scanIfDue_block _) (closeTurns_block _ _ _ _ _ _ _ _ _)

end Sys2Proof.Machine
end

