-- ==== Sys2Proof/Laws/Event.lean ====
section
/-! SUPPORT. What rewriting the guarded records can do, and an event from its work. -/
namespace Sys2Proof.Machine

open Sys2Proof.Safety

/-! ### Guarded records -/

/-- A change of memory that keeps the canonical form and every byte outside `p`. -/
structure MemStep (p : Nat → Bool) (m m' : Mem) : Prop where
  wf : MemWf m → MemWf m'
  bytes : sameBytesOutside p m m'

namespace MemStep

variable {p q : Nat → Bool} {m m' m'' : Mem}

theorem refl (p : Nat → Bool) (m : Mem) : MemStep p m m := ⟨id, fun _ _ => rfl⟩

theorem trans (h : MemStep p m m') (g : MemStep p m' m'') : MemStep p m m'' :=
  ⟨g.wf ∘ h.wf, fun a ha => (g.bytes a ha).trans (h.bytes a ha)⟩

theorem mono (h : MemStep p m m') (hpq : ∀ a, p a = true → q a = true) : MemStep q m m' :=
  ⟨h.wf, fun a ha => h.bytes a (by
    cases hp : p a with
    | false => rfl
    | true => rw [hpq a hp] at ha; exact ha)⟩

theorem foldl {α : Type} {f : Mem → α → Mem} (h : ∀ m x, MemStep p m (f m x)) (l : List α) (m : Mem) :
    MemStep p m (l.foldl f m) := by
  induction l generalizing m with
  | nil => exact refl p m
  | cons x l ih => exact (h m x).trans (ih _)

end MemStep

theorem memStep_writeWord (m : Mem) (a : Nat) (w : Word) : MemStep (within a 4) m (writeWord m a w) :=
  ⟨memWf_writeWord a w, fun _ hb => readByte_writeWord_other _ _ _ _ (outside_within hb)⟩

theorem memStep_writeWords (m : Mem) (a : Nat) (ws : List Nat) :
    MemStep (within a (4 * ws.length)) m (writeWords m a ws) :=
  ⟨memWf_writeWords a ws, fun _ hb => readByte_writeWords_other _ _ _ _ (outside_within hb)⟩

theorem length_withCounts (count : Nat) (body : List Nat) : (withCounts count body).length = body.length := by
  cases body with
  | nil => rfl
  | cons w ws =>
    cases ws with
    | nil => simp [withCounts]
    | cons x xs => simp [withCounts, List.getLast?_cons]

theorem memStep_rewriteIf (changed : Bool) (m : Mem) (a n : Nat) (body : List Nat) (hn : body.length = n) :
    MemStep (within a (4 * n)) m (rewriteIf changed m a body) := by
  unfold rewriteIf
  split
  · have h := memStep_writeWords m a (withCounts ((recordCount m a + 1) % 65536) body)
    rw [length_withCounts, hn] at h
    exact h
  · exact .refl _ _

theorem within_guarded {a n b : Nat} (ha : 0x0B00 ≤ a) (hn : a + n ≤ 0x14E0) (h : within a n b = true) :
    guardedBytes b = true := by
  simp only [within, Bool.and_eq_true, decide_eq_true_eq] at h
  simp only [guardedBytes, within, Bool.and_eq_true, decide_eq_true_eq]
  omega

/-- R185: an event rewrites guarded records and nothing else. -/
theorem memStep_publishRecords (old s : State) : MemStep guardedBytes s.mem (publishRecords old s).mem := by
  unfold publishRecords
  refine (((MemStep.foldl (fun m k => ?_) _ _).trans (MemStep.foldl (fun m w => ?_) _ _)).trans
    (MemStep.foldl (fun m c => ?_) _ _)).trans (MemStep.foldl (fun m b => ?_) _ _)
  · exact (memStep_rewriteIf _ m _ 8 _ rfl).mono fun a =>
      within_guarded (by simp [outletStateAddr]) (by simp only [outletStateAddr]; omega)
  · exact (memStep_rewriteIf _ m _ 4 _ rfl).mono fun a =>
      within_guarded (by simp only [watchStateAddr]; omega) (by simp only [watchStateAddr]; omega)
  · exact (memStep_rewriteIf _ m _ 8 _ rfl).mono fun a =>
      within_guarded (by simp only [cycleViewAddr]; omega) (by simp only [cycleViewAddr]; omega)
  · exact (memStep_rewriteIf _ m _ 4 _ rfl).mono fun a =>
      within_guarded (by simp only [branchStateAddr]; omega) (by simp only [branchStateAddr]; omega)

theorem publishRecords_eq (old s : State) : publishRecords old s = { s with mem := (publishRecords old s).mem } := rfl

theorem foldl_id {α β : Type} (f : β → α → β) (h : ∀ b x, f b x = b) (l : List α) (b : β) : l.foldl f b = b := by
  induction l with
  | nil => rfl
  | cons x l ih => rw [List.foldl_cons, h, ih]

/-- An event that changes no record a guarded record shows, and closes no frame, rewrites none. -/
theorem publishRecords_of_same (old s : State) (outlets : s.outlets = old.outlets) (watches : s.watches = old.watches)
    (cycles : s.cycles = old.cycles) (loads : s.loads = old.loads) (shed : s.shed = old.shed)
    (closedSeq : s.pub.closedSeq = old.pub.closedSeq) : publishRecords old s = s := by
  unfold publishRecords branchChanged frameClosedIn rewriteIf
  simp [← outlets, ← watches, ← cycles, ← loads, ← shed, ← closedSeq]

/-! ### Events -/

theorem event_resetting {s : State} (h : s.resetting ≠ none) (t : Nat) (work : State → State) : s.event t work = s := by
  rw [State.event, if_pos (Option.isSome_iff_ne_none.mpr h)]

theorem quietEvent_resetting {s : State} (h : s.resetting ≠ none) (t : Nat) (work : State → State) :
    s.quietEvent t work = s := by
  rw [State.quietEvent, if_pos (Option.isSome_iff_ne_none.mpr h)]

theorem event_running {s : State} (h : s.resetting = none) (t : Nat) (work : State → State) :
    s.event t work = publishRecords (s.advance t) (work (s.advance t)).scanIfDue := by
  simp [State.event, h]

theorem quietEvent_running {s : State} (h : s.resetting = none) (t : Nat) (work : State → State) :
    s.quietEvent t work = work (s.advance t) := by
  simp [State.quietEvent, h]

theorem scanIfDue_of_not_due {s : State} (h : s.scanDue = false) : s.scanIfDue = s := by simp [State.scanIfDue, h]

/-- An event whose work changes no record that a guarded record shows, with no scan due. -/
theorem event_running_same {s : State} (h : s.resetting = none) (t : Nat) (work : State → State)
    (due : (work (s.advance t)).scanDue = false) (outlets : (work (s.advance t)).outlets = s.outlets)
    (watches : (work (s.advance t)).watches = s.watches) (cycles : (work (s.advance t)).cycles = s.cycles)
    (loads : (work (s.advance t)).loads = s.loads) (shed : (work (s.advance t)).shed = s.shed)
    (closedSeq : (work (s.advance t)).pub.closedSeq = s.pub.closedSeq) : s.event t work = work (s.advance t) := by
  rw [event_running h, scanIfDue_of_not_due due]
  exact publishRecords_of_same _ _ outlets watches cycles loads shed closedSeq

/-- An event whose work leaves the state alone. -/
theorem event_running_id {s : State} (h : s.resetting = none) (t : Nat) (work : State → State)
    (due : s.scanDue = false) (hw : work (s.advance t) = s.advance t) : s.event t work = { s with now := max s.now t } := by
  rw [event_running_same h t work (by rw [hw]; exact due) (by rw [hw]; rfl) (by rw [hw]; rfl) (by rw [hw]; rfl)
    (by rw [hw]; rfl) (by rw [hw]; rfl) (by rw [hw]; rfl), hw]
  rfl

/-- An event of the blocks' own work, records rewritten: everything `BlockStep` says but the clock and the bytes. -/
structure EventStep (s u : State) : Prop where
  pending : u.pending = s.pending
  resetting : u.resetting = s.resetting
  mask : u.mask = s.mask
  sdo : u.sdo = s.sdo
  scanDue : u.scanDue = false
  sense : u.sense = s.sense
  phases : u.phases = s.phases
  tb : u.tb = s.tb
  meter : u.meter = s.meter
  meterV : u.meterV = s.meterV
  pub : u.pub = s.pub
  fifo : u.fifo = s.fifo
  work : u.work = s.work
  choices : u.choices = s.choices
  mem : MemStep (fun a => blockBytes a || guardedBytes a) s.mem u.mem
  cause : s.cause &&& ~~~causeBits = 0 → u.cause &&& ~~~causeBits = 0
  est : (∀ k : OutletIx, estimatesInRange s.outlets[k]) → ∀ k : OutletIx, estimatesInRange u.outlets[k]

/-- An event whose work is the blocks' own from `v` on: `v` is the state of the event after the work that is not. -/
theorem event_after {s v : State} (h : s.resetting = none) (t : Nat) {work : State → State}
    (hw : BlockStep v (work (s.advance t))) : EventStep v (s.event t work) ∧ (s.event t work).now = v.now := by
  rw [event_running h]
  have g := hw.trans (scanIfDue_block _)
  have m := memStep_publishRecords (s.advance t) (work (s.advance t)).scanIfDue
  exact ⟨
    { pending := g.pending, resetting := g.resetting, mask := g.mask, sdo := g.sdo
      scanDue := scanIfDue_scanDue _, sense := g.sense, phases := g.phases, tb := g.tb, meter := g.meter
      meterV := g.meterV, pub := g.pub, fifo := g.fifo, work := g.work, choices := g.choices
      mem := MemStep.trans (m' := (work (s.advance t)).scanIfDue.mem)
        ⟨g.wf, fun a ha => g.bytes a (Bool.or_eq_false_iff.mp ha).1⟩ (m.mono fun a ha => by simp [ha])
      cause := g.cause, est := g.est }, g.now⟩

end Sys2Proof.Machine
end

