-- ==== Sys2Proof/Laws/Close.lean ====
section
/-! SUPPORT. What a close of a frame can do: the settings take, the latch copy, the opening of the next frame, and the
close as a whole (`CloseStep`), with the blocks' work in it (`WorkDone`). -/
namespace Sys2Proof.Machine

open Sys2Proof.Safety

/-! ### The settings take (R189, R190) -/

theorem memStep_notice (s : State) (kind : NoticeKind) (subject reason : Nat) (value : Word) :
    MemStep closeBytes s.mem (s.notice kind subject reason value).mem := by
  have h := notice_block s kind subject reason value
  exact ⟨h.wf, fun a ha => h.bytes a (by simp [closeBytes] at ha; exact ha.1.1.1.1)⟩

theorem within_close {a n b : Nat} (h : within a n b = true)
    (hc : ∀ x, within a n x = true → closeBytes x = true) : closeBytes b = true := hc b h

/-- A take changes the settings in force, the CLAMPED flags, the settings status and notices. -/
structure TakeStep (s u : State) : Prop where
  same : u = { s with work := u.work, outlets := u.outlets, watches := u.watches, mem := u.mem, cause := u.cause }
  work : u.work = s.work ∨ u.work = takenSettings s.mem
  outlets : ∀ k : OutletIx, ∃ c, u.outlets[k] = { s.outlets[k] with clamped := c }
  watches : ∀ w : WatchNo, ∃ c, u.watches[w] = { s.watches[w] with clamped := c }
  mem : MemStep closeBytes s.mem u.mem
  cause : s.cause &&& ~~~causeBits = 0 → u.cause &&& ~~~causeBits = 0

theorem notice_same (s : State) (kind : NoticeKind) (subject reason : Nat) (value : Word) :
    s.notice kind subject reason value =
      { s with mem := (s.notice kind subject reason value).mem, cause := (s.notice kind subject reason value).cause } := by
  cases h : s.logFull <;> simp [State.notice, h, State.raise]

theorem loadSettings_takeStep (s : State) : TakeStep s s.loadSettings where
  same := rfl
  work := .inr rfl
  outlets k := ⟨(takeOutlet s.mem k).2, by simp [State.loadSettings]⟩
  watches w := ⟨(takeWatch s.mem w).2, by simp [State.loadSettings]⟩
  mem := (memStep_writeWord _ _ _).mono fun a ha => by simp [closeBytes, ha]
  cause := id

theorem TakeStep.noticed {s u : State} (h : TakeStep s u) (kind : NoticeKind) (subject reason : Nat) (value : Word) :
    TakeStep s (u.notice kind subject reason value) := by
  have e := notice_same u kind subject reason value
  refine ⟨?_, ?_, fun k => ?_, fun w => ?_, h.mem.trans (memStep_notice _ _ _ _ _),
    fun hs => (notice_block _ _ _ _ _).cause (h.cause hs)⟩
  · rw [e, h.same]
  · rw [e]; exact h.work
  · rw [e]; exact h.outlets k
  · rw [e]; exact h.watches w

theorem take_takeStep (s : State) : TakeStep s s.takeIfAllowed := by
  unfold State.takeIfAllowed
  split
  · unfold State.take
    split
    · exact loadSettings_takeStep s
    · exact (loadSettings_takeStep s).noticed _ _ _ _
  · exact ⟨rfl, .inl rfl, fun k => ⟨_, rfl⟩, fun w => ⟨_, rfl⟩, .refl _ _, id⟩

/-! ### The latch copy (R47) -/

theorem finishOrders_block (es : List SlotNo) (r : OrderResult) (s : State) :
    BlockStep s (es.foldl (fun s e => s.finishOrder e r) s) :=
  BlockStep.foldl (fun s e => finishOrder_block s e r) es s

/-- What the latch copy changes before the orders that wait for it finish. -/
def State.latched (s : State) (seq : Word) : State :=
  if s.pub.latch = .pending then
    { s with
      mem := writeWord (writeLatch s.mem seq s.partTime (s.meter.toList.map (·.energy))) addrLatchState 2
      pub := { s.pub with latch := .full, latchList := [] } }
  else s

theorem latchCopy_block (s : State) (seq : Word) : BlockStep (s.latched seq) (s.latchCopy seq) := by
  unfold State.latchCopy State.latched
  split
  · dsimp only
    split
    · exact .refl _
    · exact .after (finishOrders_block _ _ _) (finishOrder_block _ _ _)
  · exact .refl _

theorem length_counters (l : List Nat) : (l.map fun e => [e % 2 ^ 32, e / 2 ^ 32]).flatten.length = 2 * l.length := by
  induction l with
  | nil => rfl
  | cons x l ih => simp only [List.map_cons, List.flatten_cons, List.length_append, ih, List.length_cons, List.length_nil]; omega

theorem memStep_latched (s : State) (seq : Word) : MemStep closeBytes s.mem (s.latched seq).mem := by
  unfold State.latched
  split
  · refine (MemStep.mono (memStep_writeWords _ _ _) fun a ha => ?_).trans
      ((memStep_writeWord _ _ _).mono fun a ha => by simp [closeBytes, ha])
    have hl : 4 * ([seq.toNat, s.partTime.toNat] ++
        ((s.meter.toList.map MeterOutlet.energy).map fun e => [e % 2 ^ 32, e / 2 ^ 32]).flatten).length = 0x188 := by
      simp only [List.length_append, length_counters, List.length_map, Vector.length_toList, List.length_cons,
        List.length_nil]
    rw [hl] at ha
    simp [closeBytes, ha]
  · exact .refl _ _

/-! ### The close (R8) -/

theorem blockStep_memStep {s u : State} (h : BlockStep s u) : MemStep closeBytes s.mem u.mem :=
  ⟨h.wf, fun a ha => h.bytes a (by simp [closeBytes] at ha; exact ha.1.1.1.1)⟩

/-- A close hands over the frame `f`, opens the next frame under the settings `w`, and does the blocks' work. -/
structure CloseStep (s u : State) (state : TimebaseState) (short : Bool) (cycleCount : Nat) (f : FrameResult)
    (w : Settings) : Prop where
  pending : u.pending = s.pending
  resetting : u.resetting = s.resetting
  now : u.now = s.now
  mask : u.mask = s.mask
  sdo : u.sdo = s.sdo
  sense : u.sense = s.sense
  fifo : u.fifo = s.fifo
  choices : u.choices = s.choices
  work : u.work = w
  settings : w = s.work ∨ ∃ m, w = takenSettings m
  tb : u.tb = { s.tb with
    state := state, openInstant := s.now, frameState := state, cycles := 0, cycleSetting := w.strip.frameCycles
    sampleCount := 1, openTaken := false, cycleStart := s.now, cycleP := s.phases[(0 : Phase)].cyclePeriod.getD 0
    cycleTaken := 0, lastSample := none }
  phases : ∀ p : Phase, u.phases[p] = { s.phases[p] with present := f.phases[p].present }
  meter : ∀ k : OutletIx, u.meter[k] = MeterOutlet.opened w.outlets[k].branch
    (s.frameOutlet (s.now - s.tb.openInstant) k).2.1 (s.frameOutlet (s.now - s.tb.openInstant) k).2.2
  meterV : u.meterV = Vector.replicate 3 MeterPhase.opened
  waiting : u.pub.waiting = s.pub.waiting ++ [f]
  closedSeq : u.pub.closedSeq = nextSequence s.pub.closedSeq
  published : u.pub.index = s.pub.index ∧ u.pub.sequence = s.pub.sequence ∧ u.pub.written = s.pub.written
  sequence : f.sequence = nextSequence s.pub.closedSeq
  length : f.tUs = s.now - s.tb.openInstant
  samples : f.n = s.tb.sampleCount
  frequency : f.frequency = frequencyOf cycleCount f.tUs
  frameState : f.frameState = s.tb.frameState
  short : f.short = short
  phase : ∀ p : Phase, f.phases[p] =
    { vrms := s.frameVrms p, present := s.framePresent p, live := s.phases[p].live, clipped := s.meterV[p].clip }
  outlet : ∀ k : OutletIx, ∃ v, f.outlets[k] =
    { (s.frameOutlet (s.now - s.tb.openInstant) k).1 with unverified := v }
  mem : MemStep closeBytes s.mem u.mem
  cause : s.cause &&& ~~~causeBits = 0 → u.cause &&& ~~~causeBits = 0
  est : (∀ k : OutletIx, estimatesInRange s.outlets[k]) → ∀ k : OutletIx, estimatesInRange u.outlets[k]

/-- Everything the close does after the opening of the next frame and the latch copy is the blocks' own work, and the
frame is handed to the publisher. -/
theorem closeFrameIn_eq (s : State) (order : CloseOrder) (short : Bool) (cycleCount : Nat) (state : TimebaseState)
    (note : Option NoticeKind) :
    let seq := nextSequence s.pub.closedSeq
    let tUs := s.now - s.tb.openInstant
    ∃ s7 f, BlockStep ((s.openedAfter state note).latched seq) s7 ∧
      s.closeFrameIn order short cycleCount state note = { s7 with pub := { s7.pub with waiting := s7.pub.waiting ++ [f] } } ∧
      f.sequence = seq ∧ f.tUs = tUs ∧ f.n = s.tb.sampleCount ∧ f.frequency = frequencyOf cycleCount tUs ∧
      f.frameState = s.tb.frameState ∧ f.short = short ∧
      (∀ p : Phase, f.phases[p] =
        { vrms := s.frameVrms p, present := s.framePresent p, live := s.phases[p].live, clipped := s.meterV[p].clip }) ∧
      ∀ k : OutletIx, ∃ v, f.outlets[k] = { (s.frameOutlet tUs k).1 with unverified := v } := by
  intro seq tUs
  refine ⟨_, _, ?_, rfl, rfl, rfl, rfl, rfl, rfl, rfl, fun p => ?_, fun k => ?_⟩
  · exact .after (closeWork_block _ _ _ _ _ _ _) (.after (watchTake_block _ _) (.after (shedTake_block _ _)
      (.after (schedulerWork_block _ _ _ _) (.after (outletsWork_block _ _ _ _) (.after (answerClears_block _ _)
        (latchCopy_block _ _))))))
  · simp only [Fin.getElem_fin, getElem_tab]
  · simp only [Fin.getElem_fin, getElem_tab]
    exact ⟨_, rfl⟩

/-- Numbering the closed frame and filing its notice, in the fields. -/
structure BeginStep (s v : State) : Prop where
  same : v = { s with phases := v.phases, mem := v.mem, cause := v.cause
                      pub := { s.pub with closedSeq := nextSequence s.pub.closedSeq } }
  phases : ∀ p : Phase, v.phases[p] = { s.phases[p] with present := s.framePresent p }
  mem : MemStep closeBytes s.mem v.mem
  cause : s.cause &&& ~~~causeBits = 0 → v.cause &&& ~~~causeBits = 0

theorem numberFrame_step (s : State) : BeginStep s s.numberFrame :=
  ⟨rfl, fun p => by simp [State.numberFrame], .refl _ _, id⟩

theorem BeginStep.noticed {s v : State} (h : BeginStep s v) (kind : NoticeKind) (subject reason : Nat) (value : Word) :
    BeginStep s (v.notice kind subject reason value) where
  same := by rw [notice_same, h.same]
  phases p := by rw [notice_same]; exact h.phases p
  mem := h.mem.trans (memStep_notice _ _ _ _ _)
  cause hs := (notice_block _ _ _ _ _).cause (h.cause hs)

theorem beginClose_step (s : State) (note : Option NoticeKind) : BeginStep s (s.beginClose note) := by
  cases note with
  | none => exact numberFrame_step s
  | some n => exact (numberFrame_step s).noticed _ _ _ _

/-- The opening of the next frame, in its fields. -/
theorem openedAfter_same (s : State) (state : TimebaseState) (note : Option NoticeKind) :
    let v := s.openedAfter state note
    v = { s with
      tb := v.tb, phases := v.phases, meter := v.meter, meterV := v.meterV, mem := v.mem, cause := v.cause, work := v.work
      outlets := v.outlets, watches := v.watches, pub := { s.pub with closedSeq := nextSequence s.pub.closedSeq } } ∧
      v.phases = (s.beginClose note).phases ∧ (v.work = s.work ∨ ∃ m, v.work = takenSettings m) ∧
      (∀ k : OutletIx, ∃ c, v.outlets[k] = { s.outlets[k] with clamped := c }) ∧
      MemStep closeBytes s.mem v.mem ∧ (s.cause &&& ~~~causeBits = 0 → v.cause &&& ~~~causeBits = 0) := by
  intro v
  have h := take_takeStep (s.beginClose note)
  obtain ⟨g, -, gm, gc⟩ := beginClose_step s note
  have gw : (s.beginClose note).work = s.work := by rw [g]
  have go : (s.beginClose note).outlets = s.outlets := by rw [g]
  refine ⟨?_, ?_, ?_, ?_, gm.trans h.mem, h.cause ∘ gc⟩
  · simp only [v, State.openedAfter, State.openFrame]
    rw [h.same, g]
  · simp only [v, State.openedAfter, State.openFrame]
    rw [h.same]
  · rcases h.work with e | e
    · exact .inl (e.trans gw)
    · exact .inr ⟨_, e⟩
  · rw [← go]
    exact h.outlets

theorem openedAfter_tb (s : State) (state : TimebaseState) (note : Option NoticeKind) :
    (s.openedAfter state note).tb = { s.tb with
      state := state, openInstant := s.now, frameState := state, cycles := 0
      cycleSetting := (s.openedAfter state note).work.strip.frameCycles
      sampleCount := 1, openTaken := false, cycleStart := s.now, cycleP := s.phases[(0 : Phase)].cyclePeriod.getD 0
      cycleTaken := 0, lastSample := none } := by
  obtain ⟨g, gp, -, -⟩ := beginClose_step s note
  have h := (take_takeStep (s.beginClose note)).same
  have ht : (s.beginClose note).takeIfAllowed.tb = s.tb := by rw [h, g]
  have hn : (s.beginClose note).takeIfAllowed.now = s.now := by rw [h, g]
  have hp : (s.beginClose note).takeIfAllowed.phases[(0 : Phase)].cyclePeriod = s.phases[(0 : Phase)].cyclePeriod := by
    have e : (s.beginClose note).takeIfAllowed.phases = (s.beginClose note).phases := by rw [h]
    rw [e, gp]
  simp only [State.openedAfter, State.openFrame, ht, hn, hp]

theorem openedAfter_meter (s : State) (state : TimebaseState) (note : Option NoticeKind) (k : OutletIx) :
    (s.openedAfter state note).meter[k] = MeterOutlet.opened (s.openedAfter state note).work.outlets[k].branch
      (s.frameOutlet (s.now - s.tb.openInstant) k).2.1 (s.frameOutlet (s.now - s.tb.openInstant) k).2.2 := by
  simp [State.openedAfter, State.openFrame, State.branchOf]

theorem latched_same (s : State) (seq : Word) :
    s.latched seq = { s with mem := (s.latched seq).mem
                             pub := { s.pub with latch := (s.latched seq).pub.latch
                                                 latchList := (s.latched seq).pub.latchList } } := by
  by_cases h : s.pub.latch = .pending <;> simp [State.latched, h]

/-! ### The blocks' work (R115, R119, R154) -/

/-- The work left after the last turn. -/
theorem lastWork_rest (closed : Settings) (seen : Vector OutletState 48) (res : Vector OutletResult 48) (seq : Word)
    (loads : Vector Nat 6) (bs : List Branch) (ws : List WatchNo) (s : State) :
    LastWork closed seen res seq bs ws (some loads) s
      (ws.foldl (fun s w => s.examineWatch seen res seq w) (bs.foldl (fun s b => s.shedBranch closed b) s)) loads := by
  induction bs generalizing s with
  | cons b bs ih => exact .shed _ _ _ _ _ _ _ (ih _)
  | nil =>
    induction ws generalizing s with
    | nil => exact .done _ _
    | cons w ws ih => exact .watch _ _ _ _ _ _ _ (ih _)

/-- Whatever the order drawn, the turns of a close are its last work. -/
theorem closeTurns_lastWork (closed : Settings) (seen : Vector OutletState 48) (res : Vector OutletResult 48) (seq : Word)
    (order : CloseOrder) (bs : List Branch) (ws : List WatchNo) (handed : Option (Vector Nat 6)) (s : State) :
    LastWork closed seen res seq bs ws handed s (State.closeTurns closed seen res seq order bs ws handed s).1
      (State.closeTurns closed seen res seq order bs ws handed s).2 := by
  fun_induction State.closeTurns closed seen res seq order bs ws handed s with
  | case1 bs ws handed s a =>
    cases handed with
    | none => exact .scan _ _ _ _ _ (lastWork_rest _ _ _ _ _ _ _ _)
    | some loads => exact lastWork_rest _ _ _ _ _ _ _ _
  | case2 turns bs ws handed s a ih =>
    cases handed with
    | none => exact .scan _ _ _ _ _ ih
    | some loads => exact ih
  | case3 turns ws handed s ih => exact ih
  | case4 turns b bs ws handed s ih => exact .shed _ _ _ _ _ _ _ ih
  | case5 turns bs handed s ih => exact ih
  | case6 turns bs w ws handed s ih => exact .watch _ _ _ _ _ _ _ ih

/-- The meter's result carries no UNVERIFIED flag; the close fills it in (R37). -/
theorem frameOutlet_unverified (s : State) (tUs : Nat) (k : OutletIx) :
    { (s.frameOutlet tUs k).1 with unverified := false } = (s.frameOutlet tUs k).1 := rfl

/-- The state in which the blocks begin their work at a close. -/
def State.beforeWork (s : State) (state : TimebaseState) (note : Option NoticeKind) : State :=
  ((s.openedAfter state note).latchCopy (nextSequence s.pub.closedSeq)).answerClears fun k => s.meter[k].clearReq

/-- The watches that a take armed, or left DISARMED, are passed over (R154). -/
theorem examined_eq (s : State) :
    ((indices 24).filter fun w => w ∉ (indices 24).filter fun w => s.watches[w].state == .disarmed) =
      (indices 24).filter fun w => s.watches[w].state ≠ .disarmed :=
  List.filter_congr fun w hw => by simp [hw]

/-- What the blocks' work of a close makes of the state `v` with the next frame open. -/
def State.workAtClose (v : State) (order : CloseOrder) (closed : Settings) (res : Vector OutletResult 48) (seq : Word) :
    State × Vector Nat 6 :=
  let a := v.outletsWork closed res seq
  let v1 := a.1.schedulerWork closed res a.2
  ((v1.shedTake closed).watchTake closed).closeWork order closed (tab fun k => a.1.outlets[k].state) res seq
    ((indices 24).filter fun w => v1.watches[w].state == .disarmed)

/-- R45: with the frame's records as the work leaves them, the work is done. -/
theorem workDone_of {v u : State} {order : CloseOrder} {closed : Settings} {res : Vector OutletResult 48} {f : FrameResult}
    (hres : ∀ k : OutletIx, { f.outlets[k] with unverified := false } = res[k])
    (hunv : ∀ k : OutletIx, f.outlets[k].unverified =
      (v.outletsWork closed res f.sequence).1.outlets[k].unverified.isSome)
    (hbranch : ∀ b : Branch, f.branches[b] = (v.workAtClose order closed res f.sequence).1.branchResult
      (v.workAtClose order closed res f.sequence).2 b)
    (hctl : sameControl (v.workAtClose order closed res f.sequence).1 u)
    (hcause : u.cause = (v.workAtClose order closed res f.sequence).1.cause)
    (hmem : sameBytesOutside guardedBytes (v.workAtClose order closed res f.sequence).1.mem u.mem) :
    WorkDone closed f v u := by
  have e : (tab fun k => { f.outlets[k] with unverified := false }) = res :=
    vector_ext _ _ fun k => (getElem_tab _ k).trans (hres k)
  unfold WorkDone
  rw [e]
  refine ⟨hunv, _, _, ?_, hctl, hcause, hmem, hbranch⟩
  rw [← examined_eq]
  exact closeTurns_lastWork _ _ _ _ order _ _ _ _

/-- A close does the blocks' work from the state in which the next frame has opened. -/
theorem closeFrameIn_workDone (s : State) (order : CloseOrder) (short : Bool) (cycleCount : Nat) (state : TimebaseState)
    (note : Option NoticeKind) :
    ∃ (r : State) (f : FrameResult), s.closeFrameIn order short cycleCount state note =
        { r with pub := { r.pub with waiting := r.pub.waiting ++ [f] } } ∧
      BlockStep (s.beforeWork state note) r ∧
      WorkDone s.work f (s.beforeWork state note) (s.closeFrameIn order short cycleCount state note) := by
  refine ⟨_, _, rfl, ?_, ?_⟩
  · exact .after (closeWork_block _ _ _ _ _ _ _) (.after (watchTake_block _ _) (.after (shedTake_block _ _)
      (.after (schedulerWork_block _ _ _ _) (outletsWork_block _ _ _ _))))
  · refine workDone_of (order := order) (res := tab fun k => (s.frameOutlet (s.now - s.tb.openInstant) k).1)
      (fun k => ?_) (fun k => ?_) (fun b => ?_) ⟨rfl, rfl, rfl, rfl, rfl, rfl, rfl, rfl, rfl, rfl, rfl, rfl⟩ rfl
      fun _ _ => rfl
    · rw [Fin.getElem_fin, Fin.getElem_fin, getElem_tab]
      simp only [Fin.getElem_fin, getElem_tab]
      rfl
    · refine (congrArg OutletResult.unverified (getElem_tab _ k)).trans ?_
      simp only [Fin.getElem_fin]
      rfl
    · exact getElem_tab _ b

/-- R8: a close of the windows and the count as they stand, as a whole. -/
theorem closeCounted_step (s : State) (short : Bool) (cycleCount : Nat) (state : TimebaseState)
    (note : Option NoticeKind) :
    ∃ f w, CloseStep { s with choices := s.choices + 1 } (s.closeCounted short cycleCount state note) state short
      cycleCount f w := by
  unfold State.closeCounted
  generalize Config.closeOrder s.choices = order
  generalize { s with choices := s.choices + 1 } = v
  obtain ⟨s7, f, hb, he, h1, h2, h3, h4, h5, h6, h7, h8⟩ := closeFrameIn_eq v order short cycleCount state note
  obtain ⟨os, op, ow, oo, om, oc⟩ := openedAfter_same v state note
  have ot := openedAfter_tb v state note
  have omt := openedAfter_meter v state note
  have omv : (v.openedAfter state note).meterV = Vector.replicate 3 MeterPhase.opened := rfl
  have bp := (beginClose_step v note).phases
  refine ⟨f, (v.openedAfter state note).work, ?_⟩
  rw [he]
  generalize v.openedAfter state note = o at *
  have l := latched_same o (nextSequence v.pub.closedSeq)
  have lm := memStep_latched o (nextSequence v.pub.closedSeq)
  generalize hl : o.latched (nextSequence v.pub.closedSeq) = q at *
  have opub : o.pub = { v.pub with closedSeq := nextSequence v.pub.closedSeq } := by rw [os]
  have qpub : q.pub.waiting = v.pub.waiting ∧ q.pub.closedSeq = nextSequence v.pub.closedSeq ∧
      q.pub.index = v.pub.index ∧ q.pub.sequence = v.pub.sequence ∧ q.pub.written = v.pub.written := by
    rw [l, opub]
    exact ⟨rfl, rfl, rfl, rfl, rfl⟩
  exact
    { pending := hb.pending.trans (by rw [l, os])
      resetting := hb.resetting.trans (by rw [l, os])
      now := hb.now.trans (by rw [l, os])
      mask := hb.mask.trans (by rw [l, os])
      sdo := hb.sdo.trans (by rw [l, os])
      sense := hb.sense.trans (by rw [l, os])
      fifo := hb.fifo.trans (by rw [l, os])
      choices := hb.choices.trans (by rw [l, os])
      work := hb.work.trans (by rw [l])
      settings := ow
      tb := hb.tb.trans (by rw [l]; exact ot)
      phases := fun p => by
        have e : s7.phases = (v.beginClose note).phases := hb.phases.trans (by rw [l]; exact op)
        show s7.phases[p] = _
        rw [e, bp, h7]
      meter := fun k => by
        have e : s7.meter = o.meter := hb.meter.trans (by rw [l])
        show s7.meter[k] = _
        rw [e]
        exact omt k
      meterV := hb.meterV.trans (by rw [l]; exact omv)
      waiting := by show s7.pub.waiting ++ [f] = _; rw [hb.pub, qpub.1]
      closedSeq := by show s7.pub.closedSeq = _; rw [hb.pub, qpub.2.1]
      published := by
        show s7.pub.index = _ ∧ s7.pub.sequence = _ ∧ s7.pub.written = _
        rw [hb.pub]
        exact qpub.2.2
      sequence := h1
      length := h2
      samples := h3
      frequency := h4.trans (by rw [h2])
      frameState := h5
      short := h6
      phase := h7
      outlet := h8
      mem := by
        have e := om.trans (lm.trans (blockStep_memStep hb))
        exact e
      cause := fun hc => hb.cause (by rw [l]; exact oc hc)
      est := fun he => hb.est (fun k => by
        have e : q.outlets = o.outlets := by rw [l]
        rw [e]
        obtain ⟨c, hk⟩ := oo k
        rw [hk]
        exact he k) }

/-- R1: without a sample at the instant of the close, the close is that of the windows as they stand. -/
theorem closeFrame_of_none (s : State) (short : Bool) (cycleCount : Nat) (state : TimebaseState)
    (note : Option NoticeKind) (h : ∀ l, s.tb.lastSample = some l → l.instant ≠ s.now) :
    s.closeFrame short cycleCount state note = s.closeCounted short cycleCount state note := by
  have hn : s.sampleNow = none := by
    unfold State.sampleNow
    cases hl : s.tb.lastSample with
    | none => rfl
    | some l => simp [Option.filter, h l hl]
  unfold State.closeFrame State.withOwnSample
  rw [hn]

end Sys2Proof.Machine
end

