-- ==== Sys2Proof/Laws/Commands.lean ====
section
/-! SUPPORT. What the work of each command can do beside the blocks' own: deadlines, takes, host writes, publication,
crossings, resets. -/
namespace Sys2Proof.Machine

open Sys2Proof.Safety

/-! ### Deadlines -/

theorem widthPassed_block (s : State) (d : DriverNo) : BlockStep s (s.widthPassed d) := by
  unfold State.widthPassed
  split
  · split
    · exact endPulse_block _ _ _
    · exact .refl s
  · exact .refl s
  · exact .refl s

theorem deadlineReached_block (s : State) (k : OutletIx) : BlockStep s (s.deadlineReached k) := by
  unfold State.deadlineReached
  split
  · split
    · exact verifyFailed_block _ _ _
    · exact .refl s
  all_goals exact .refl s

theorem spacingScan_block (s : State) (which : Option Branch) : BlockStep s (s.spacingScan which) := by
  unfold State.spacingScan
  split
  · exact .records rfl
  · exact .refl s

theorem patienceAt_block (s : State) (k : OutletIx) : BlockStep s (s.patienceAt k) := by
  unfold State.patienceAt
  split
  · exact .refl s
  · split
    · exact expire_block _ _
    · exact .refl s

theorem restOver_block (s : State) (c : RecNo) : BlockStep s (s.restOver c) := by
  unfold State.restOver
  split
  · exact settle_block (enterClosing_block _ _)
  · exact .refl s

theorem plannedPulse_block (s : State) (d : DriverNo) : BlockStep s (s.plannedPulse d) := by
  unfold State.plannedPulse
  split
  · split
    · split
      · exact startPulse_block _ _ _ _
      · exact .refl s
    all_goals exact .refl s
  all_goals exact .refl s

/-- R4: the debounced level changes, and the relay driver acts on the report. -/
theorem acceptSense_after (s : State) (k : OutletIx) :
    ∃ x, BlockStep { s with sense := x } (s.acceptSense k) := by
  unfold State.acceptSense
  dsimp only
  split
  · exact ⟨_, senseReport_block _ _ _ _⟩
  · exact ⟨s.sense, .refl s⟩

/-! ### Takes (R171 to R178) -/

/-- The part-written words of a slot at its take. -/
theorem memStep_writeTaken (m : Mem) (e : SlotNo) (stamp : Word) : MemStep blockBytes m (writeTaken m e stamp) := by
  have he := e.isLt
  have hs : ∀ a, slotArea a = true → (a - 0x1500) % 64 < 4 ∨ 0x18 ≤ (a - 0x1500) % 64 → blockBytes a = true := by
    intro a h1 h2
    simp only [blockBytes, slotPartBytes, h1, Bool.true_and, Bool.or_eq_true, decide_eq_true_eq]
    exact .inr h2
  have h1 := memStep_writeWord m (slotAddr e) (BitVec.ofNat 32 slotTaken)
  have h2 := memStep_writeWords (writeWord m (slotAddr e) (BitVec.ofNat 32 slotTaken)) (slotAddr e + 0x18)
    [fld 255 24 8, 0, 0, 0, 0, 0, 0, stamp.toNat, 0]
  refine (h1.mono fun a ha => ?_).trans (h2.mono fun a ha => ?_)
  · simp only [within, Bool.and_eq_true, decide_eq_true_eq] at ha
    simp only [slotAddr] at ha
    refine hs a ?_ (.inl (by omega))
    simp only [slotArea, Bool.and_eq_true, decide_eq_true_eq]
    omega
  · simp only [within, Bool.and_eq_true, decide_eq_true_eq] at ha
    simp only [slotAddr, List.length_cons, List.length_nil] at ha
    refine hs a ?_ (.inr (by omega))
    simp only [slotArea, Bool.and_eq_true, decide_eq_true_eq]
    omega

theorem hold_after (s : State) (e : SlotNo) (rest : List SlotNo) : BlockStep { s with fifo := rest } (s.hold e rest) :=
  .after (setOrder_block _ _ _)
    (memory_block _ _ (memStep_writeTaken _ _ _).wf (memStep_writeTaken _ _ _).bytes)

theorem enroll_block (s : State) (e : SlotNo) (f : SlotFields) (ms : List OutletIx) : BlockStep s (s.enroll e f ms) :=
  setOrder_block _ _ _

theorem refuse_block (s : State) (e : SlotNo) (reason : Reason) (detail : Option OutletIx) (record : Option RecNo) :
    BlockStep s (s.refuse e reason detail record) :=
  finishOrder_block _ _ _

/-- A take leaves the head of the FIFO where it is, or takes it and does the work. -/
theorem take1_cases (s : State) (kind : Option OrderKind) (work : SlotNo → SlotFields → State → State) :
    s.take1 kind work = s ∨ ∃ e rest, s.fifo = e :: rest ∧ slotState s.mem e = 1 ∧
      orderKindOf (slotFields s.mem e).kind = kind ∧
      s.take1 kind work = work e (slotFields s.mem e) (s.hold e rest) := by
  unfold State.take1
  split
  · exact .inl rfl
  · rename_i e rest h
    dsimp only
    split
    · rename_i hc
      exact .inr ⟨e, rest, h, hc.1, hc.2, rfl⟩
    · exact .inl rfl

/-- A take whose work is the blocks' own. -/
theorem take1_after (s : State) (kind : Option OrderKind) (work : SlotNo → SlotFields → State → State)
    (hw : ∀ e f u, BlockStep u (work e f u)) :
    ∃ q, (q = s.fifo ∨ ∃ e, s.fifo = e :: q) ∧ BlockStep { s with fifo := q } (s.take1 kind work) := by
  rcases take1_cases s kind work with h | ⟨e, rest, hf, -, -, h⟩
  · exact ⟨s.fifo, .inl rfl, by rw [h]; exact .refl s⟩
  · exact ⟨rest, .inr ⟨e, hf⟩, by rw [h]; exact (hold_after s e rest).trans (hw _ _ _)⟩

theorem withMembers_block (work : SlotNo → SlotFields → List OutletIx → State → State)
    (hw : ∀ e f ms u, BlockStep u (work e f ms u)) (e : SlotNo) (f : SlotFields) (s : State) :
    BlockStep s (s.withMembers e f work) := by
  unfold State.withMembers
  split
  · exact refuse_block _ _ _ _ _
  · exact hw _ _ _ _

theorem takeMembers_after (s : State) (kind : OrderKind) (work : SlotNo → SlotFields → List OutletIx → State → State)
    (hw : ∀ e f ms u, BlockStep u (work e f ms u)) :
    ∃ q, (q = s.fifo ∨ ∃ e, s.fifo = e :: q) ∧ BlockStep { s with fifo := q } (s.takeMembers kind work) :=
  take1_after s _ _ (withMembers_block work hw)

/-- A take of an order with targets leaves the state alone, refuses the targets, or does the work with the members. -/
theorem takeMembers_cases (s : State) (kind : OrderKind) (work : SlotNo → SlotFields → List OutletIx → State → State) :
    s.takeMembers kind work = s ∨ ∃ e rest, s.fifo = e :: rest ∧
      ((∃ detail, s.takeMembers kind work = (s.hold e rest).refuse e .target detail none) ∨
        ∃ ms, resolveTargets s.work (slotFields s.mem e) = .ok ms ∧
          s.takeMembers kind work = work e (slotFields s.mem e) ms (s.hold e rest)) := by
  rcases take1_cases s (some kind) fun e f s => s.withMembers e f work with h | ⟨e, rest, hf, -, -, h⟩
  · exact .inl h
  · refine .inr ⟨e, rest, hf, ?_⟩
    unfold State.takeMembers
    rw [h]
    unfold State.withMembers
    have hw : (s.hold e rest).work = s.work := (hold_after s e rest).work
    split
    · rename_i d _
      exact .inl ⟨d, rfl⟩
    · rename_i ms hm
      rw [hw] at hm
      exact .inr ⟨ms, hm, rfl⟩

theorem switchOnMembers_block (e : SlotNo) (f : SlotFields) (ms : List OutletIx) (s : State) :
    BlockStep s (s.switchOnMembers e f ms) :=
  .after (BlockStep.foldl (fun _ _ => settle_block (requestClose_block _ _ _ _)) ms _) (enroll_block _ _ _ _)

theorem switchOffMembers_block (e : SlotNo) (f : SlotFields) (ms : List OutletIx) (s : State) :
    BlockStep s (s.switchOffMembers e f ms) :=
  .after (BlockStep.foldl (fun _ _ => settle_block (requestOpen_block _ _ _)) ms _) (enroll_block _ _ _ _)

theorem admissionAnswer_block (s : State) (e : SlotNo) (r : AdmitResult) : BlockStep s (s.admissionAnswer e r) := by
  unfold State.admissionAnswer
  split
  · exact refuse_block _ _ _ _ _
  all_goals
    split
    · exact .refl s
    · exact setOrder_block _ _ _

theorem cycleOrder_block (e : SlotNo) (f : SlotFields) (ms : List OutletIx) (s : State) :
    BlockStep s (s.cycleOrder e f ms) :=
  .after (admissionAnswer_block _ _ _) (admission_block _ _ _ _)

theorem cancelOrder_block (e : SlotNo) (param : Word) (s : State) : BlockStep s (s.cancelOrder e param) := by
  unfold State.cancelOrder
  split
  · dsimp only
    split
    · exact .after (refuse_block _ _ _ _ _) (cancel_block _ _)
    · exact .after (finishOrder_block _ _ _) (cancel_block _ _)
  · exact refuse_block _ _ _ _ _

theorem clearFaultAt_block (s : State) (k : OutletIx) (kind : Option FaultKind) : BlockStep s (s.clearFaultAt k kind) := by
  unfold State.clearFaultAt
  dsimp only
  refine .after (notice_block _ _ _ _ _) (.after (modOutlet_block _ _ _ fun _ h => h) ?_)
  split
  · exact arriveOn_block _ _
  · exact enter_block _ _ _

theorem clearFaultMember_block (s : State) (k : OutletIx) : BlockStep s (s.clearFaultMember k).1 := by
  unfold State.clearFaultMember
  dsimp only
  split
  · exact .refl s
  · split
    · split
      · exact clearFaultAt_block _ _ _
      · exact .refl s
    all_goals exact .refl s

theorem clearFaultMembers_block (e : SlotNo) (f : SlotFields) (ms : List OutletIx) (s : State) :
    BlockStep s (s.clearFaultMembers e f ms) :=
  .after (BlockStep.foldl (fun _ _ => .after (orderReply_block _ _ _ _) (clearFaultMember_block _ _)) ms _)
    (enroll_block _ _ _ _)

theorem rearmOrder_block (e : SlotNo) (param : Word) (s : State) : BlockStep s (s.rearmOrder e param) := by
  unfold State.rearmOrder
  split
  · dsimp only
    split
    · exact .after (refuse_block _ _ _ _ _) (rearm_block _ _)
    · exact .after (finishOrder_block _ _ _) (rearm_block _ _)
  · exact refuse_block _ _ _ _ _

/-- R176: a CLEAR_ENERGY order changes the clear requests, and its entry. -/
theorem clearEnergyMembers_after (s : State) (e : SlotNo) (f : SlotFields) (ms : List OutletIx) :
    ∃ m : Vector MeterOutlet 48, BlockStep { s with meter := m } (s.clearEnergyMembers e f ms) ∧
      ∀ k : OutletIx, m[k] = { s.meter[k] with clearReq := s.meter[k].clearReq || decide (k ∈ ms) } := by
  have hm : (s.enroll e f ms).meter = s.meter := (enroll_block s e f ms).meter
  refine ⟨tab fun k => if k ∈ ms then { s.meter[k] with clearReq := true } else s.meter[k], ?_, fun k => ?_⟩
  · unfold State.clearEnergyMembers
    simp only [hm]
    exact setOrder_block { s with meter := _ } e _
  · simp only [Fin.getElem_fin, getElem_tab]
    split <;> simp_all

/-- R46: a LATCH_ENERGY order changes the latch and its word, then its slot if it merges. -/
theorem latchOrder_after (s : State) (e : SlotNo) :
    ∃ p m, BlockStep { s with mem := m, pub := p } (s.latchOrder e) ∧ MemStep (within addrLatchState 4) s.mem m := by
  unfold State.latchOrder
  split
  · exact ⟨_, _, .refl _, memStep_writeWord _ _ _⟩
  · exact ⟨_, s.mem, .refl _, .refl _ _⟩
  · exact ⟨s.pub, s.mem, finishOrder_block _ _ _, .refl _ _⟩

/-! ### Crossings and dead phases -/

theorem phaseLive_after (s : State) (p : Phase) :
    ∃ b, BlockStep { s with tb := { s.tb with lockPending := b } } (s.phaseLive p) := by
  have h := notice_block s .phaseLive (numberOf p) 0 (BitVec.ofNat 32 (s.phases[p].half.getD 0))
  unfold State.phaseLive
  dsimp only
  split
  · refine ⟨true, ?_⟩
    rw [notice_same]
    rw [notice_same] at h
    exact ⟨rfl, rfl, rfl, rfl, rfl, rfl, rfl, rfl, rfl, rfl, rfl, rfl, rfl, rfl, h.wf, h.bytes, h.cause, h.est⟩
  · exact ⟨s.tb.lockPending, h⟩

/-! ### Publication (R40, R41) -/

theorem length_flatten_of {α : Type} {f : α → List Nat} {n : Nat} (l : List α) (h : ∀ x, (f x).length = n) :
    (l.map f).flatten.length = n * l.length := by
  induction l with
  | nil => rfl
  | cons x l ih => simp only [List.map_cons, List.flatten_cons, List.length_append, ih, h, List.length_cons]; rw [Nat.mul_succ]; omega

theorem length_frameBody (f : FrameResult) : (frameBody f).length = 427 := by
  simp only [frameBody, List.length_append, List.length_cons, List.length_nil]
  rw [length_flatten_of (n := 4) _ fun _ => rfl, length_flatten_of (n := 8) _ fun _ => rfl,
    length_flatten_of (n := 4) _ fun _ => rfl]
  simp

/-- R40: a frame is written within its buffer. -/
theorem memStep_writeFrame (m : Mem) (b : BufferName) (f : FrameResult) :
    MemStep (within (bufferAddr b) 0x6B4) m (writeFrame m b f) := by
  unfold writeFrame
  refine ((memStep_writeWord _ _ _).mono fun a ha => ?_).trans
    (((memStep_writeWords _ _ _).mono fun a ha => ?_).trans ((memStep_writeWord _ _ _).mono fun a ha => ?_))
  all_goals
    simp only [within, Bool.and_eq_true, decide_eq_true_eq] at ha ⊢
    try rw [length_frameBody] at ha
    omega

/-! ### Resets -/

theorem memStep_abortSlot (m : Mem) (e : SlotNo) : MemStep slotPartBytes m (abortSlot m e) := by
  unfold abortSlot
  split
  · exact ⟨memWf_writeResult _ _ _, fun a ha => readByte_writeResult_other _ _ _ _ _ ha⟩
  · exact .refl _ _

theorem memWf_keptMem (kind : ResetKind) {m : Mem} (h : MemWf m) : MemWf (keptMem kind m) := by
  cases kind with
  | powerOn => exact memWf_nil
  | pin => exact (MemStep.foldl (fun m e => memStep_abortSlot m e) _ _).wf (memWf_filter _ h)
  | soft => exact (MemStep.foldl (fun m e => memStep_abortSlot m e) _ _).wf (memWf_filter _ h)

theorem memWf_foldl {α : Type} {f : Mem → α → Mem} (h : ∀ m x, MemWf m → MemWf (f m x)) (l : List α) {m : Mem}
    (hm : MemWf m) : MemWf (l.foldl f m) := by
  induction l generalizing m with
  | nil => exact hm
  | cons x l ih => exact ih (h m x hm)

/-- R193, R194: exchange memory at the end of a reset is in canonical form. -/
theorem memWf_resetMem (kind : ResetKind) {m : Mem} (h : MemWf m) : MemWf (resetMem kind m) :=
  memWf_writeNotice _ _ _ _ _ _ (memWf_foldl (fun _ _ => memWf_writeWords _ _) _
    (memWf_foldl (fun _ _ => memWf_writeWords _ _) _ (memWf_foldl (fun _ _ => memWf_writeWords _ _) _
      (memWf_writeWords _ _ (memWf_writeWords _ _ (memWf_keptMem kind h))))))

theorem memWf_reset : MemWf State.reset.mem := by
  dsimp only [State.reset]
  exact memWf_resetMem .powerOn memWf_nil

end Sys2Proof.Machine
end

