-- ==== Sys2Proof/Laws/OwnSample.lean ====
section
/-! SUPPORT. A sample set at the instant of a frame close, or of the end of an L1 cycle, is the first of what begins there,
whichever of the two commands comes first (R1, R3, log entry 44). -/
namespace Sys2Proof.Machine

/-- The sampling bookkeeping of the frame in progress, as a close does not read it. -/
def State.withSampling (s : State) (openTaken : Bool) (cycleTaken : Nat) (last : Option LastSample) : State :=
  { s with tb := { s.tb with openTaken := openTaken, cycleTaken := cycleTaken, lastSample := last } }

theorem numberFrame_withSampling (s : State) (a : Bool) (b : Nat) (c : Option LastSample) :
    (s.withSampling a b c).numberFrame = s.numberFrame.withSampling a b c := rfl

theorem notice_withSampling (s : State) (a : Bool) (b : Nat) (c : Option LastSample) (kind : NoticeKind)
    (subject reason : Nat) (value : Word) :
    (s.withSampling a b c).notice kind subject reason value = (s.notice kind subject reason value).withSampling a b c := by
  have e : (s.withSampling a b c).logFull = s.logFull := rfl
  have em : (s.withSampling a b c).mem = s.mem := rfl
  have ew : (s.withSampling a b c).writeCount = s.writeCount := rfl
  have ep : (s.withSampling a b c).partTime = s.partTime := rfl
  cases h : s.logFull <;> simp only [State.notice, e, em, ew, ep, h] <;> simp [State.withSampling, State.raise]

theorem beginClose_withSampling (s : State) (a : Bool) (b : Nat) (c : Option LastSample) (note : Option NoticeKind) :
    (s.withSampling a b c).beginClose note = (s.beginClose note).withSampling a b c := by
  cases note with
  | none => rfl
  | some n => exact notice_withSampling s.numberFrame a b c n 1 0 _

theorem takeIfAllowed_withSampling (s : State) (a : Bool) (b : Nat) (c : Option LastSample) :
    (s.withSampling a b c).takeIfAllowed = s.takeIfAllowed.withSampling a b c := by
  have e : (s.withSampling a b c).mem = s.mem := rfl
  unfold State.takeIfAllowed State.take
  rw [e]
  split
  · split
    · rfl
    · exact notice_withSampling s.loadSettings a b c _ _ _ _
  · rfl

theorem openedAfter_withSampling (s : State) (a : Bool) (b : Nat) (c : Option LastSample) (state : TimebaseState)
    (note : Option NoticeKind) : (s.withSampling a b c).openedAfter state note = s.openedAfter state note := by
  unfold State.openedAfter
  rw [beginClose_withSampling, takeIfAllowed_withSampling]
  rfl

theorem closeCounted_withSampling (s : State) (a : Bool) (b : Nat) (c : Option LastSample) (short : Bool)
    (cycleCount : Nat) (state : TimebaseState) (note : Option NoticeKind) :
    (s.withSampling a b c).closeCounted short cycleCount state note = s.closeCounted short cycleCount state note := by
  have e := openedAfter_withSampling { s with choices := s.choices + 1 } a b c state note
  have f : { s.withSampling a b c with choices := (s.withSampling a b c).choices + 1 } =
    ({ s with choices := s.choices + 1 } : State).withSampling a b c := rfl
  have g : (s.withSampling a b c).choices = s.choices := rfl
  unfold State.closeCounted
  rw [f, g]
  unfold State.closeFrameIn
  rw [e]
  rfl

/-- A sample, due or not, is the sample set of its instant, and to give it back leaves what it found. -/
theorem takeSample_giveBack (s : State) (x : SampleSet) (h : s.sampleNow = none) :
    ∃ l a b, (s.takeSample x).sampleNow = some l ∧ l.codes = x ∧
      (s.takeSample x).giveBack l = s.withSampling a b none ∧ (s.tb.openTaken = true → a = true) := by
  have hm : ∀ m : Vector MeterOutlet 48, (∀ k : OutletIx, { m[k] with
      sii := s.meter[k].sii, svi := s.meter[k].svi, clip := s.meter[k].clip } = s.meter[k]) →
      (tab fun k : OutletIx => { m[k] with
        sii := (s.sampleRecord x).windows[k].sii, svi := (s.sampleRecord x).windows[k].svi
        clip := (s.sampleRecord x).windows[k].clip }) = s.meter := by
    intro m hk
    apply Vector.ext
    intro i hi
    have e := hk ⟨i, hi⟩
    simp [State.sampleRecord, tab] at e ⊢
    exact e
  have hn : ∀ u : State, u.now = s.now → u.tb.lastSample = some (s.sampleRecord x) →
      u.sampleNow = some (s.sampleRecord x) := by
    intro u h1 h2
    simp [State.sampleNow, h1, h2, State.sampleRecord]
  unfold State.takeSample
  rw [h]
  split
  · simp at *
  split
  · refine ⟨s.sampleRecord x, true, s.tb.cycleTaken + 1, hn _ rfl rfl, rfl, ?_, fun _ => rfl⟩
    unfold State.giveBack
    rw [hm]
    · rfl
    · intro k
      simp [State.countSample, State.accumulate, tab]
  · refine ⟨s.sampleRecord x, s.tb.openTaken, s.tb.cycleTaken, hn _ rfl rfl, rfl, ?_, id⟩
    unfold State.giveBack
    rw [hm]
    · rfl
    · intro k; rfl

/-- R1: a sample taken at the instant of a close is the first of the frame that opens, whichever of the two comes
first. -/
theorem closeFrame_takeSample (s : State) (x : SampleSet) (short : Bool) (cycleCount : Nat) (state : TimebaseState)
    (note : Option NoticeKind) (h : s.sampleNow = none) :
    (s.takeSample x).closeFrame short cycleCount state note = (s.closeFrame short cycleCount state note).takeSample x := by
  obtain ⟨l, a, b, h1, h2, h3, -⟩ := takeSample_giveBack s x h
  obtain ⟨f, w, hc⟩ := closeCounted_step s short cycleCount state note
  unfold State.closeFrame State.withOwnSample
  rw [h1, h]
  simp only [h3, closeCounted_withSampling, h2]
  have e1 : (s.closeCounted short cycleCount state note).sampleNow = none := by
    simp [State.sampleNow, hc.tb]
  have e2 : (s.closeCounted short cycleCount state note).sampleDue = true := by
    have := hc.now
    cases state <;> simp_all [State.sampleDue, Timebase.nextSample, hc.tb]
  unfold State.takeSample
  simp [e1, e2]

/-- R3: a sample taken at the instant at which an L1 cycle ends is sample 0 of the cycle that begins, whichever of the two
comes first. -/
theorem endL1Cycle_takeSample (s : State) (x : SampleSet) (h : s.sampleNow = none) (ho : s.tb.openTaken = true)
    (hf : s.tb.frameState = .locked) : (s.takeSample x).endL1Cycle = s.endL1Cycle.takeSample x := by
  have ec : (s.takeSample x).tb.cycles = s.tb.cycles ∧ (s.takeSample x).tb.cycleSetting = s.tb.cycleSetting := by
    unfold State.takeSample
    split
    · exact ⟨rfl, rfl⟩
    split <;> exact ⟨rfl, rfl⟩
  obtain ⟨l, a, b, h1, h2, h3, h4⟩ := takeSample_giveBack s x h
  unfold State.endL1Cycle
  simp only [ec.1, ec.2]
  split
  · exact closeFrame_takeSample s x _ _ _ _ h
  unfold State.withOwnSample
  rw [h1, h]
  simp only [h3, h2, h4 ho]
  generalize hu : ({ s with tb := _ } : State) = u
  have hl : u.tb.lastSample = s.tb.lastSample := by rw [← hu]
  have hn : u.now = s.now := by rw [← hu]
  have e1 : u.sampleNow = none := by rw [← h]; unfold State.sampleNow; rw [hl, hn]
  have e2 : u.sampleDue = true := by rw [← hu]; simp [State.sampleDue, Timebase.nextSample, hf]
  unfold State.takeSample
  simp only [e1, e2]
  rw [← hu]
  simp [State.withSampling, State.countSample, State.accumulate, State.sampleRecord, Timebase.counted, ho]

end Sys2Proof.Machine
end

