-- ==== Sys2Proof/WellFormed.lean ====
section
/-! DEFINITION. Which commands can arise: an instant lies in 64-bit µs time (section 1.1), an illegal command byte is not one of
the two commands (R183), an unmapped write lies in the unmapped range (R184). -/
namespace Sys2Proof

/-- The instant a command carries; a reset that comes from outside and the end of a reset carry none. -/
def Instr.instant : Instr → Option Nat
  | .powerOnReset | .pinReset | .endOfReset => none
  | .softReset t _ | .sample t _ | .rawSenseChange t _ _ | .senseChange t _ | .zeroCrossing t _ _ | .phaseDead t _
  | .frameClose t | .framePublication t | .frameFlip t | .closeSpacingElapsed t _ | .queuePatience t _
  | .pulseStart t _ | .pulseEnd t _ | .verifyDeadline t _ | .restDeadline t _ | .post t _ | .slotDrop t
  | .orderKindRefused t | .switchOn t | .switchOff t | .cycle t | .cancelCycle t | .clearFault t | .clearEnergy t
  | .latchEnergy t | .rearmWatch t | .read t _ _ | .illegalCommand t _ _ | .hostWordWrite t _ _
  | .slotWordWrite t _ _ _ | .latchStateWrite t _ | .missedKindsWrite t _ | .causeWrite t _ | .maskWrite t _
  | .unmappedWrite t _ _ | .partTimeRewrite t => some t

/-- What a row says of its own operands. -/
def Instr.operandsOk : Instr → Bool
  | .illegalCommand _ command _ => command != 2 && command != 3
  | .unmappedWrite _ addr _ => decide (0x4014 ≤ addr.toNat)
  | .powerOnReset | .pinReset | .softReset _ _ | .endOfReset | .sample _ _ | .rawSenseChange _ _ _ | .senseChange _ _
  | .zeroCrossing _ _ _ | .phaseDead _ _ | .frameClose _ | .framePublication _ | .frameFlip _
  | .closeSpacingElapsed _ _ | .queuePatience _ _ | .pulseStart _ _ | .pulseEnd _ _ | .verifyDeadline _ _
  | .restDeadline _ _ | .post _ _ | .slotDrop _ | .orderKindRefused _ | .switchOn _ | .switchOff _ | .cycle _
  | .cancelCycle _ | .clearFault _ | .clearEnergy _ | .latchEnergy _ | .rearmWatch _ | .read _ _ _
  | .hostWordWrite _ _ _ | .slotWordWrite _ _ _ _ | .latchStateWrite _ _ | .missedKindsWrite _ _ | .causeWrite _ _
  | .maskWrite _ _ | .partTimeRewrite _ => true

def Instr.wellFormed (i : Instr) : Bool := i.operandsOk && i.instant.all (· < 2 ^ 64)

end Sys2Proof
end

