-- ==== Sys2Proof/Laws/PerInstr.lean ====
section
/-! SUPPORT. The family of lemmas that host statements over all commands are made from: the instant of a well-formed command
lies in 64-bit µs time (section 1.1). -/
namespace Sys2Proof.Laws.InstantInRange

def Statement (i : Instr) : Prop := i.wellFormed = true → ∀ t, i.instant = some t → t < 2 ^ 64

theorem of_wellFormed (i : Instr) : Statement i := by
  intro h t ht
  simp only [Instr.wellFormed, Bool.and_eq_true, ht, Option.all_some, decide_eq_true_eq] at h
  exact h.2

theorem powerOnReset : Statement (.powerOnReset) := of_wellFormed _
theorem pinReset : Statement (.pinReset) := of_wellFormed _
theorem softReset (t : Nat) (value : Word) : Statement (.softReset t value) := of_wellFormed _
theorem endOfReset : Statement (.endOfReset) := of_wellFormed _
theorem sample (t : Nat) (codes : SampleSet) : Statement (.sample t codes) := of_wellFormed _
theorem rawSenseChange (t : Nat) (outlet : OutletIx) (level : Bool) :
    Statement (.rawSenseChange t outlet level) := of_wellFormed _
theorem senseChange (t : Nat) (outlet : OutletIx) : Statement (.senseChange t outlet) := of_wellFormed _
theorem zeroCrossing (t : Nat) (phase : Phase) (polarity : Polarity) :
    Statement (.zeroCrossing t phase polarity) := of_wellFormed _
theorem phaseDead (t : Nat) (phase : Phase) : Statement (.phaseDead t phase) := of_wellFormed _
theorem frameClose (t : Nat) : Statement (.frameClose t) := of_wellFormed _
theorem framePublication (t : Nat) : Statement (.framePublication t) := of_wellFormed _
theorem frameFlip (t : Nat) : Statement (.frameFlip t) := of_wellFormed _
theorem closeSpacingElapsed (t : Nat) (which : Option Branch) :
    Statement (.closeSpacingElapsed t which) := of_wellFormed _
theorem queuePatience (t : Nat) (outlet : OutletIx) : Statement (.queuePatience t outlet) := of_wellFormed _
theorem pulseStart (t : Nat) (driver : DriverNo) : Statement (.pulseStart t driver) := of_wellFormed _
theorem pulseEnd (t : Nat) (driver : DriverNo) : Statement (.pulseEnd t driver) := of_wellFormed _
theorem verifyDeadline (t : Nat) (outlet : OutletIx) : Statement (.verifyDeadline t outlet) := of_wellFormed _
theorem restDeadline (t : Nat) (record : RecNo) : Statement (.restDeadline t record) := of_wellFormed _
theorem post (t : Nat) (value : Word) : Statement (.post t value) := of_wellFormed _
theorem slotDrop (t : Nat) : Statement (.slotDrop t) := of_wellFormed _
theorem orderKindRefused (t : Nat) : Statement (.orderKindRefused t) := of_wellFormed _
theorem switchOn (t : Nat) : Statement (.switchOn t) := of_wellFormed _
theorem switchOff (t : Nat) : Statement (.switchOff t) := of_wellFormed _
theorem cycle (t : Nat) : Statement (.cycle t) := of_wellFormed _
theorem cancelCycle (t : Nat) : Statement (.cancelCycle t) := of_wellFormed _
theorem clearFault (t : Nat) : Statement (.clearFault t) := of_wellFormed _
theorem clearEnergy (t : Nat) : Statement (.clearEnergy t) := of_wellFormed _
theorem latchEnergy (t : Nat) : Statement (.latchEnergy t) := of_wellFormed _
theorem rearmWatch (t : Nat) : Statement (.rearmWatch t) := of_wellFormed _
theorem read (t : Nat) (addr : Half) (length : Nat) : Statement (.read t addr length) := of_wellFormed _
theorem illegalCommand (t : Nat) (command : Byte) (length : Nat) :
    Statement (.illegalCommand t command length) := of_wellFormed _
theorem hostWordWrite (t : Nat) (addr : Half) (data : List Byte) :
    Statement (.hostWordWrite t addr data) := of_wellFormed _
theorem slotWordWrite (t : Nat) (slot : SlotNo) (word : Fin 16) (value : Word) :
    Statement (.slotWordWrite t slot word value) := of_wellFormed _
theorem latchStateWrite (t : Nat) (value : Word) : Statement (.latchStateWrite t value) := of_wellFormed _
theorem missedKindsWrite (t : Nat) (value : Word) : Statement (.missedKindsWrite t value) := of_wellFormed _
theorem causeWrite (t : Nat) (value : Word) : Statement (.causeWrite t value) := of_wellFormed _
theorem maskWrite (t : Nat) (value : Word) : Statement (.maskWrite t value) := of_wellFormed _
theorem unmappedWrite (t : Nat) (addr : Half) (value : Word) :
    Statement (.unmappedWrite t addr value) := of_wellFormed _
theorem partTimeRewrite (t : Nat) : Statement (.partTimeRewrite t) := of_wellFormed _

end Sys2Proof.Laws.InstantInRange
end

