-- ==== Sys2Proof/Laws/Port.lean ====
section
/-! SUPPORT. What a host write can do (R169, R170, R183 to R188). -/
namespace Sys2Proof.Machine

open Sys2Proof.Safety

/-- What a host write can change: memory within `p`, the registers, the publisher's latch, the intake FIFO, and, by CONTROL,
the reset and the coil drivers. -/
structure PortStep (p : Nat → Bool) (s u : State) : Prop where
  mem : MemStep p s.mem u.mem
  same : u = { s with
    mem := u.mem, cause := u.cause, mask := u.mask, pub := u.pub, fifo := u.fifo, resetting := u.resetting
    drivers := u.drivers }
  cause : s.cause &&& ~~~causeBits = 0 → u.cause &&& ~~~causeBits = 0
  maskr : s.mask &&& ~~~causeBits = 0 → u.mask &&& ~~~causeBits = 0
  fifoN : s.fifo.Nodup → u.fifo.Nodup

theorem portStep_refl (p : Nat → Bool) (s : State) : PortStep p s s := ⟨.refl _ _, rfl, id, id, id⟩

theorem PortStep.trans {p : Nat → Bool} {s u v : State} (h : PortStep p s u) (g : PortStep p u v) :
    PortStep p s v :=
  ⟨h.mem.trans g.mem, by rw [g.same, h.same], g.cause ∘ h.cause, g.maskr ∘ h.maskr, g.fifoN ∘ h.fifoN⟩

theorem raise_port (p : Nat → Bool) (s : State) (c : Cause) : PortStep p s (s.raise c) :=
  ⟨.refl _ _, rfl, fun h => reserved_or h (causeWord_reserved c), id, id⟩

theorem portStep_mem {p : Nat → Bool} (s : State) (m : Mem) (h : MemStep p s.mem m) :
    PortStep p s { s with mem := m } :=
  ⟨h, rfl, id, id, id⟩

theorem writeSlotWord_port (s : State) (e : SlotNo) (off : Nat) (v : Word) :
    PortStep (fun a => decide (off < 0x18) && within (slotAddr e + off) 4 a) s (s.writeSlotWord e off v) := by
  unfold State.writeSlotWord
  dsimp only
  split
  · exact raise_port _ _ _
  · split
    · split
      · exact portStep_mem _ _ ((memStep_writeWord _ _ _).mono fun a ha => by subst_vars; simpa using ha)
      · exact raise_port _ _ _
    · split
      · exact portStep_mem _ _ ((memStep_writeWord _ _ _).mono fun a ha => by simp_all)
      · exact portStep_refl _ _

theorem writeLatchState_port (s : State) (v : Word) : PortStep (within addrLatchState 4) s (s.writeLatchState v) := by
  unfold State.writeLatchState
  split
  · exact ⟨memStep_writeWord _ _ _, rfl, id, id, id⟩
  · exact raise_port _ _ _

theorem writeMissedKinds_port (s : State) (v : Word) : PortStep (within addrMissedKinds 4) s (s.writeMissedKinds v) := by
  unfold State.writeMissedKinds
  split
  · exact portStep_mem _ _ (memStep_writeWord _ _ _)
  · exact portStep_refl _ _

theorem PortStep.mono {p q : Nat → Bool} {s u : State} (h : PortStep p s u) (hpq : ∀ a, p a = true → q a = true) :
    PortStep q s u :=
  ⟨h.mem.mono hpq, h.same, h.cause, h.maskr, h.fifoN⟩

theorem writeMemWord_port (s : State) (a : Nat) (v : Word) (h4 : a % 4 = 0) :
    PortStep hostWriteBytes s (s.writeMemWord a v) := by
  unfold State.writeMemWord
  split
  · exact PortStep.mono (writeLatchState_port s v) fun b hb => by
      simp only [within, Bool.and_eq_true, decide_eq_true_eq, addrLatchState] at hb
      simp only [hostWriteBytes, within, addrMissedKinds, Bool.or_eq_true, Bool.and_eq_true, decide_eq_true_eq]
      omega
  · split
    · exact PortStep.mono (writeMissedKinds_port s v) fun b hb => by
        simp only [within, Bool.and_eq_true, decide_eq_true_eq, addrMissedKinds] at hb
        simp only [hostWriteBytes, within, addrMissedKinds, Bool.or_eq_true, Bool.and_eq_true, decide_eq_true_eq]
        omega
    · split
      · rename_i hs
        exact PortStep.mono (writeSlotWord_port s _ _ v) fun b hb => by
          simp only [slotArea, Bool.and_eq_true, decide_eq_true_eq] at hs
          simp only [within, Bool.and_eq_true, decide_eq_true_eq] at hb
          simp only [slotAddr, slotAt] at hb
          simp only [hostWriteBytes, slotArea, Bool.or_eq_true, Bool.and_eq_true, decide_eq_true_eq]
          omega
      · split
        · rename_i h
          exact portStep_mem _ _ ((memStep_writeWord _ _ _).mono fun b hb => by
            simp only [within, Bool.and_eq_true, decide_eq_true_eq] at hb
            simp only [hostOwnedWord, hostOwnedArea, Bool.or_eq_true, Bool.and_eq_true, decide_eq_true_eq, beq_iff_eq,
              addrHold, addrReadMark] at h
            simp only [hostWriteBytes, hostBytes, hostOwnedArea, within, addrHold, Bool.or_eq_true, Bool.and_eq_true,
              decide_eq_true_eq]
            omega)
        · exact portStep_refl _ _

theorem writeControl_port (s : State) (v : Word) (p : Nat → Bool) : PortStep p s (s.writeControl v) := by
  unfold State.writeControl
  split
  · exact ⟨.refl _ _, rfl, id, id, id⟩
  · exact portStep_refl _ _

theorem reserved_and (x y : Word) (h : x &&& ~~~causeBits = 0) : x &&& y &&& ~~~causeBits = 0 := by
  rw [BitVec.and_assoc, BitVec.and_comm y, ← BitVec.and_assoc, h]; simp

theorem writePost_port (s : State) (v : Word) (p : Nat → Bool) : PortStep p s (s.writePost v) := by
  unfold State.writePost
  split
  · dsimp only
    split
    · exact raise_port _ _ _
    · rename_i h
      exact ⟨.refl _ _, rfl, id, id, fun hn => by
        rw [not_or] at h
        exact List.nodup_append.mpr ⟨hn, by simp, by simp; intro a ha e; subst e; exact h.1 ha⟩⟩
  · exact raise_port _ _ _

/-- R184: a write above the registers stores nothing. -/
theorem hostWriteWord_port (s : State) (a : Nat) (v : Word) :
    PortStep (fun b => decide (a < 0x4014) && hostWriteBytes b) s (s.hostWriteWord a v) := by
  unfold State.hostWriteWord
  dsimp only
  split
  · exact portStep_refl _ _
  · split
    · rename_i h
      have h : a / 4 * 4 < 0x4000 := h
      have h : a < 0x4014 := by omega
      exact PortStep.mono (writeMemWord_port s _ v (by omega)) fun b hb => by simp [h, hb]
    · split
      · exact portStep_refl _ _
      · split
        · exact writeControl_port _ _ _
        · split
          · exact ⟨.refl _ _, rfl, fun h => reserved_and _ _ h, id, id⟩
          · split
            · refine ⟨.refl _ _, rfl, id, fun _ => ?_, id⟩
              show v &&& causeBits &&& ~~~causeBits = 0
              rw [BitVec.and_assoc]; simp
            · split
              · exact writePost_port _ _ _
              · exact raise_port _ _ _

theorem hostWriteWords_port (s : State) (ws : List (Nat × Word)) :
    PortStep hostWriteBytes s (s.hostWriteWords ws) := by
  unfold State.hostWriteWords
  induction ws generalizing s with
  | nil => exact portStep_refl _ _
  | cons w ws ih =>
    exact PortStep.trans (PortStep.mono (hostWriteWord_port s _ _) fun b hb => (Bool.and_eq_true_iff.mp hb).2) (ih _)

/-! ### Transfers (R183) -/

/-- What the bytes of a transfer can spell. -/
theorem transferCommand_cases {t : Nat} {bytes : List Byte} {i : Instr} (h : transferCommand t bytes = some i) :
    (∃ hi lo data, bytes = 2#8 :: hi :: lo :: data ∧ i = .hostWordWrite t (hi ++ lo) data) ∨
    (∃ hi lo data, bytes = 3#8 :: hi :: lo :: data ∧ i = .read t (hi ++ lo) data.length) ∨
    ∃ c data, bytes = c :: data ∧ c ≠ 2 ∧ c ≠ 3 ∧ i = .illegalCommand t c data.length := by
  unfold transferCommand at h
  split at h
  · cases h
  · exact .inl ⟨_, _, _, rfl, by simpa using h.symm⟩
  · exact .inr (.inl ⟨_, _, _, rfl, by simpa using h.symm⟩)
  · split at h
    · cases h
    · rename_i hc
      rw [not_or] at hc
      exact .inr (.inr ⟨_, _, rfl, hc.1, hc.2, by simpa using h.symm⟩)

theorem transferCommand_wellFormed {t : Nat} {bytes : List Byte} {i : Instr} (h : transferCommand t bytes = some i)
    (ht : t < 2 ^ 64) : i.wellFormed = true := by
  obtain ⟨_, _, _, _, rfl⟩ | ⟨_, _, _, _, rfl⟩ | ⟨c, _, _, h2, h3, rfl⟩ := transferCommand_cases h
  · simpa [Instr.wellFormed, Instr.operandsOk, Instr.instant] using ht
  · simpa [Instr.wellFormed, Instr.operandsOk, Instr.instant] using ht
  · simpa [Instr.wellFormed, Instr.operandsOk, Instr.instant] using ⟨⟨h2, h3⟩, ht⟩

end Sys2Proof.Machine
end

