-- ==== Sys2Proof/Tests/Slice0.lean ====
section
/-! SUPPORT. Tests: the well-formedness smoke, the spec's worked examples, and for every statement with hypotheses a state and
operands that meet them (`witness_<statement>`). -/
namespace Sys2Proof.Tests

open Sys2Proof.Machine Sys2Proof.Safety

-- One test at a time: with all of them waiting at once the compiler runs out of threads.
set_option Elab.async false

/-! ### Small states -/

/-- The reset state with empty exchange memory. -/
def s0 : State := { State.reset with mem := [] }

/-- Every outlet in one state. -/
def inState (st : OutletState) : State := { s0 with outlets := Vector.replicate 48 { Outlet.reset with state := st } }

/-- What a command leaves, read off by `f`. -/
def after {α : Type} (i : Instr) (s : State) (f : State → α) : Option α :=
  match exec i s with
  | .next u => some (f u)
  | .fault _ | .refused _ => none

/-- Slot 0 POSTED with an order of `kind` whose list names outlet 1, and the parameter `param`. -/
@[irreducible] def posted (kind param : Nat) : Mem :=
  writeWords [] 0x1500 [1, kind + 0x01000000, 1, 0, 0, param]

/-- Slot 0 at the head of the intake FIFO, with such an order. -/
def intake (kind param : Nat) (s : State) : State := { s with mem := posted kind param, fifo := [0] }

/-- Samples with every code `c`. -/
def codes (c : Half) : SampleSet := { current := Vector.replicate 48 c, voltage := Vector.replicate 3 c }

/-! ### Well-formedness -/

theorem test_wellFormed_accepts : (Instr.unmappedWrite 0 0x4014 0).wellFormed = true ∧
    (Instr.illegalCommand 0 4 1).wellFormed = true ∧ (Instr.frameClose (2 ^ 64 - 1)).wellFormed = true := by decide +kernel

theorem test_wellFormed_refuses_legal_command_byte : (Instr.illegalCommand 0 2 1).wellFormed = false ∧
    (Instr.illegalCommand 0 3 1).wellFormed = false := by decide +kernel

theorem test_wellFormed_refuses_mapped_address : (Instr.unmappedWrite 0 0x4013 0).wellFormed = false := by decide +kernel

theorem test_wellFormed_refuses_late_instant : (Instr.frameClose (2 ^ 64)).wellFormed = false := by decide +kernel

/-! ### Worked examples of the spec -/

/-- Section 2.11, with the second frame's energy. -/
theorem test_meter_loaded_outlet :
    let m : MeterOutlet :=
      { sii := 320000000000, svi := 529920000000, clip := false, pairing := 0, energy := 0, residue := 0, clearReq := false }
    let v := rmsVoltage (rootMean 1083392000000 3200) 32768
    let r := meterOutlet m 32768 32768 30 3200 999960 v (decide (90000 ≤ v))
    v = 230000 ∧ (r.1.irms, r.1.va, r.1.energy) = (10000, 2300000, 2069) ∧ (r.1.p, r.1.pf) = (2070000, 900) ∧
      r.2 = (2069, 917200) ∧ addEnergy 2069 917200 2069917200 = (4139, 834400) ∧ frequencyOf 50 999960 = 50002 ∧
      r.1.creep = false ∧ r.1.reverse = false ∧ r.1.phaseAbsent = false := by decide +kernel

/-- Section 2.12. -/
theorem test_meter_gain : rmsCurrent 10000 33096 = 10100 ∧ realPower 529920000000 32768 33096 3200 = 2090720 ∧
    apparentPower 230000 10100 = 2323000 ∧ powerFactor 2090720 2323000 = 900 := by decide +kernel

/-- Section 2.13: an idle outlet and one that feeds back. -/
theorem test_meter_creep_and_reverse :
    let idle : MeterOutlet :=
      { sii := 2000000, svi := 1075200000, clip := false, pairing := 0, energy := 5, residue := 7, clearReq := false }
    let back : MeterOutlet :=
      { sii := 1152000000, svi := -25600000000, clip := true, pairing := 0, energy := 5, residue := 7, clearReq := false }
    let r := meterOutlet idle 32768 32768 30 3200 1000000 230000 true
    let q := meterOutlet back 32768 32768 30 3200 1000000 230000 true
    (r.1.irms, r.1.va, r.1.creep, r.2) = (0, 0, true, (5, 7)) ∧ (r.1.p, r.1.pf) = (0, 0) ∧
      (q.1.irms, q.1.va, q.1.reverse, q.1.clipped, q.2) = (600, 138000, true, true, (5, 7)) ∧
      (q.1.p, q.1.pf) = (-100000, -725) := by decide +kernel

/-- Section 2.14. -/
theorem test_meter_roundings : rmsCurrent 3 16384 = 2 ∧ rmsVoltage 1 32768 = 13 ∧
    realPower (-800) 32768 32768 4 = -3 ∧ realPower 800 32768 32768 4 = 3 ∧ apparentPower 1500 1 = 2 ∧
    powerFactor 1 2000 = 1 ∧ powerFactor (-1) 2000 = -1 ∧ powerFactor 2310 2300 = 1000 ∧ powerFactor 5 0 = 0 ∧
    energyIncrement 1 999 = 0 ∧ rootMean 16000000 1 = 4000 := by decide +kernel

/-- Section 2.15. -/
theorem test_energy_saturates_and_clears :
    addEnergy 281474976709656 500000 2069917200 = (281474976710655, 417200) ∧
      addEnergy 281474976710655 417200 2069917200 = (281474976710655, 334400) ∧
      addEnergy 0 0 2069917200 = (2069, 917200) := by decide +kernel

/-- Sections 5.8 and 5.9: planned starts and the learned estimate. -/
theorem test_aim_and_learn : aimStart 500000 10000 8000 512300 = 522000 ∧ learned 8000 7400 = 7850 := by decide +kernel

/-- Section 10.3: match value 0x30 and mask 0xF0 name outlets 9 to 12 and 20. -/
theorem test_match_targets :
    let tag := fun (k : OutletIx) => if 8 ≤ k.val ∧ k.val ≤ 11 then 0x31#8 else if k.val = 19 then 0x3A#8 else 0#8
    let work := { Settings.default with
      outlets := tab fun k => { Settings.default.outlets[k] with groupTag := tag k } }
    (matchTargets work 0x30 0xF0).map numberOf = [9, 10, 11, 12, 20] := by decide +kernel

/-! ### One step of a command -/

/-- R170. -/
theorem test_post : after (.post 5 31) s0 (fun u => (u.fifo, u.cause, u.now)) = some ([31], 0x20#32, 5) ∧
    after (.post 5 32) s0 (fun u => (u.fifo, u.cause)) = some ([], 0x30#32) := by decide +kernel

/-- R183, R186: IDENT, least byte first, across the end of the address space. -/
theorem test_read : after (.read 5 0x4000 5) s0 (·.sdo) = some [0x48, 0x4F, 1, 0, 0] ∧
    after (.read 5 0xFFFF 2) { s0 with mem := [(0, 7)] } (·.sdo) = some [0, 7] := by decide +kernel

/-- R183: the bytes before the first aligned word are passed over, and the last word that is not complete is discarded. -/
theorem test_hostWordWrite :
    after (.hostWordWrite 5 0x3CFF [9, 1, 2, 3, 4, 5, 6]) s0 (·.mem) =
      some [(0x3D00, 1), (0x3D01, 2), (0x3D02, 3), (0x3D03, 4)] ∧
    after (.hostWordWrite 5 0x08 [1, 0, 0, 0]) s0 (·.mem) = some [] := by decide +kernel

/-- R169. -/
theorem test_slotWordWrite : after (.slotWordWrite 5 31 5 0x01020304) s0 (·.mem) =
      some [(0x1CD4, 4), (0x1CD5, 3), (0x1CD6, 2), (0x1CD7, 1)] ∧
    after (.slotWordWrite 5 0 0 2) s0 (fun u => (u.mem, u.cause)) = some ([], 0x28#32) := by decide +kernel

/-- R187, R188. -/
theorem test_causeAndMask : after (.causeWrite 5 0xFFFFFFFF) s0 (·.cause) = some 0 ∧
    after (.maskWrite 5 0xFFFFFFFF) s0 (fun u => (u.mask, u.attn)) = some (0x3F, true) := by decide +kernel

/-- R17 to R19: a sample of −32768 counts its square and clips. -/
theorem test_sample : after (.sample 0 (codes 0x8000)) s0 (fun u =>
    (u.meter[(47 : OutletIx)].sii, u.meter[(47 : OutletIx)].clip, u.meterV[(2 : Phase)].svv, u.tb.sampleCount)) =
    some (2 ^ 30, true, 2 ^ 30, 1) := by decide +kernel

/-- R175, R56, R112: a posted SWITCH_ON of an OFF outlet takes a driver at once. -/
theorem test_switchOn : after (.switchOn 5000) (intake 1 0 (inState .off)) (fun u =>
    (u.outlets[(0 : OutletIx)].state, u.drivers[(0 : DriverNo)] != .free, slotState u.mem 0)) =
    some (.closing, true, 2) := by decide +kernel

/-! ### States that meet `Control` -/

/-- `pendingAgrees` as a decision. -/
def pendingOk (o : Outlet) : Bool :=
  match o.pending with
  | none => true
  | some (.opn _) => o.state == .closing
  | some (.cls _ _) => o.state == .opening

/-- `driverAgrees` as a decision, for drivers that are FREE or drive. -/
def driverOk (x : Driver) (m : Vector Movement 48) : Bool :=
  match x with
  | .free => true
  | .aiming _ => false
  | .driving job stop => match m[job.outlet] with
    | .driving p => p.dir == job.dir && p.phase == job.phase && p.start + job.width == stop
    | .none | .waiting _ | .aiming _ _ _ | .verifying _ => false

theorem pendingAgrees_of {s : State} (h : ∀ k : OutletIx, pendingOk s.outlets[k] = true) (k : OutletIx) :
    pendingAgrees s.outlets[k] := by
  have hk := h k
  unfold pendingOk at hk
  unfold pendingAgrees
  split at hk <;> simp_all

theorem driverAgrees_of {s : State} (h : ∀ d : DriverNo, driverOk s.drivers[d] s.moves = true) (d : DriverNo) :
    driverAgrees s.drivers[d] s.moves := by
  have hd := h d
  cases hx : s.drivers[d] with
  | free => trivial
  | aiming job => simp [hx, driverOk] at hd
  | driving job stop =>
    rw [hx] at hd
    simp only [driverOk] at hd
    simp only [driverAgrees]
    cases hm : s.moves[job.outlet] <;> simp_all

/-- `Control` asks nothing of exchange memory or the intake FIFO. -/
theorem control_at {s : State} (m : Mem) (q : List SlotNo) (h : Control s) : Control { s with mem := m, fifo := q } :=
  ⟨h.moving, h.owned, h.pending, h.unverified, h.wholeFrame, h.faultKind, h.queueOrder, h.queueArrivals,
    h.queueOutlets, h.queued, h.queueOwners, h.drivers, h.driven, h.oneDriver, h.waitOutlets, h.waitMoves,
    h.waiting, h.noIdleDriver, h.reserved, h.granted, h.members, h.participants, h.freeRecords, h.memberOwners, h.resting⟩

theorem control_intake {s : State} (kind param : Nat) (h : Control s) : Control (intake kind param s) := control_at _ _ h

/-- Every outlet at rest: OFF, ON, UNKNOWN, or in FAULT. -/
def atRest (st : OutletState) : State :=
  { s0 with
    outlets := Vector.replicate 48
      { Outlet.reset with state := st, faultKind := if st = .fault then some .welded else none } }

theorem control_atRest : Control (atRest .off) ∧ Control (atRest .on) ∧ Control (atRest .fault) ∧ Control (atRest .unknown) := by
  refine ⟨?_, ?_, ?_, ?_⟩
  all_goals constructor
  all_goals first
    | decide +kernel
    | exact pendingAgrees_of (by decide +kernel)
    | exact driverAgrees_of (by decide +kernel)

theorem control_off : Control (inState .off) := control_atRest.1

/-! ### Witnesses: the close queue and the pulses -/

/-- An order entry that waits for member `k`. -/
def awaiting (k : OutletIx) : OrderEntry := { fields := slotFields [] 0, members := [(k, none)], record := none }

def entryOf (k : OutletIx) (cls : ClassNo) (owner : Owner) : QueueEntry :=
  { outlet := k, cls := cls, owner := owner, stamp := 0, instant := 0, arrival := k.val }

/-- Outlets 1 to 3 wait in the close queue since 0, for an order, a cycle and a restore. Outlet 1 stands alone on branch 6,
whose last grant was at 400,000 µs. -/
def waiting : State :=
  { s0 with
    outlets := tab fun k => match k.val with
      | 0 => { Outlet.reset with state := .awaitClose, owner := some (.order 0) }
      | 1 => { Outlet.reset with state := .awaitClose, owner := some (.cycle 0), cycle := some 0 }
      | 2 => { Outlet.reset with state := .awaitClose, owner := some (.restore 0) }
      | _ => Outlet.reset
    queue := [entryOf 0 1 (.order 0), entryOf 1 2 (.cycle 0), entryOf 2 3 (.restore 0)]
    nextArrival := 3
    cycles := upd s0.cycles 0 fun _ => { CycleRec.free with state := .closing, participants := [1] }
    orders := upd s0.orders 0 fun _ => some (awaiting 0)
    stripGrant := some 0
    loads := tab fun b => { BranchLoad.reset with lastGrant := some (if b = 5 then 400000 else 0) }
    work := { Settings.default with
      outlets := tab fun k => { Settings.default.outlets[k] with branch := if k = 0 then 5 else 0 } } }

theorem control_waiting : Control waiting := by
  constructor
  all_goals first
    | decide +kernel
    | exact pendingAgrees_of (by decide +kernel)
    | exact driverAgrees_of (by decide +kernel)

theorem witness_ElapsedSpacingGrants :
    (waiting.resetting = none ∧ waiting.queue = [entryOf 0 1 (.order 0)] ++ entryOf 1 2 (.cycle 0) :: [entryOf 2 3 (.restore 0)] ∧
      waiting.drivers[(0 : DriverNo)] = .free) ∧ Control waiting ∧
    (waiting.stripGrant = some 0 ∧ 0 + waiting.work.strip.globalSpacing * 1000 ≤ max waiting.now 500000) ∧
    (waiting.loads[(0 : Branch)].lastGrant = some 0 ∧
      0 + waiting.work.branches[(0 : Branch)].closeSpacing * 1000 ≤ max waiting.now 500000) ∧
    (waiting.work.outlets[(0 : OutletIx)].branch = 5 ∧ waiting.loads[(5 : Branch)].lastGrant = some 400000 ∧
      max waiting.now 500000 < 400000 + waiting.work.branches[(5 : Branch)].closeSpacing * 1000) ∧
    waiting.work.outlets[(1 : OutletIx)].branch = 0 ∧ waiting.work.outlets[(1 : OutletIx)].expectedLoad = 0 ∧
      waiting.outlets[(1 : OutletIx)].peakOn = none ∧
      committedLoad waiting 0 + waiting.work.strip.defaultExpected ≤ waiting.work.branches[(0 : Branch)].budget ∧
      0 < waiting.work.strip.globalSpacing :=
  ⟨by decide +kernel, control_waiting, by decide +kernel⟩

/-- R101: outlet 2 has a peak-on load of 1,500 mA, and a setting of 700 mA if `set`. -/
def loaded (set : Bool) : State :=
  { waiting with
    outlets := upd waiting.outlets 1 fun o => { o with peakOn := some 1500 }
    work := { waiting.work with
      outlets := upd waiting.work.outlets 1 fun o => { o with expectedLoad := if set then 700 else 0 } } }

/-- R101, R112: the amount reserved for outlet 2 is its setting, else its peak-on load, else the default. -/
theorem test_reserved_amount : (∀ set : Bool, after (.closeSpacingElapsed 500000 (some 0)) (loaded set) (fun u =>
      u.loads[(0 : Branch)].reservations) = some [(1, if set then 700 else 1500)]) ∧
    after (.closeSpacingElapsed 500000 (some 0)) waiting (fun u => u.loads[(0 : Branch)].reservations) =
      some [(1, 2000)] := by decide +kernel

theorem witness_PatienceRemovesEntry :
    Control waiting ∧ MemWf waiting.mem ∧ waiting.resetting = none ∧ waiting.scanDue = false ∧
      (entryOf 0 1 (.order 0) ∈ waiting.queue ∧ waiting.orders[(0 : SlotNo)] ≠ none) ∧
      entryOf 2 3 (.restore 0) ∈ waiting.queue ∧
      (entryOf 1 2 (.cycle 0) ∈ waiting.queue ∧ (1 : OutletIx) ∈ waiting.cycles[(0 : RecNo)].participants ∧
        waiting.cycles[(0 : RecNo)].state = .closing) ∧
      0 + waiting.work.strip.queuePatience * 1000000 ≤ max waiting.now 300000000 ∧
      max waiting.now 299999999 < 0 + waiting.work.strip.queuePatience * 1000000 :=
  ⟨control_waiting, by decide +kernel⟩

/-- The direction of the movements below: outlets 1 and 2 close, 3 and 4 open. -/
def dirOf (n : Nat) : Dir := if n < 2 then .toClosed else .toOpen

/-- Driver `d` works for outlet `d`: a pulse planned for 5,000 µs. -/
def job (d : DriverNo) : DriverJob :=
  { outlet := Fin.ofNat 48 d.val, dir := dirOf d.val, phase := 0, plannedStart := 5000, timed := true, width := 20000
    margin := 10000 }

def pulse (n : Nat) (sat : Satisfied) : Pulse :=
  { dir := dirOf n, phase := 0, estimate := 8000, start := 5000, windowEnd := 35000, deadline := 37000, satisfied := sat }

/-- Four outlets in movement, on phases that are USABLE or not: outlet 1 closes for an order with an OPEN pending, 2 for a
record that closes, 3 opens for a record that opens, where outlet 6 rests, and 4 for an order with a CLOSE pending. -/
def roles (usable retry : Bool) : State :=
  { s0 with
    phases := Vector.replicate 3 { PhaseStatus.reset with live := usable, present := usable }
    outlets := tab fun k =>
      let o := { Outlet.reset with retry := retry }
      match k.val with
      | 0 => { o with state := .closing, owner := some (.order 0), pending := some (.opn (.order 1)) }
      | 1 => { o with state := .closing, owner := some (.cycle 1), cycle := some 1 }
      | 2 => { o with state := .opening, owner := some (.cycle 0), cycle := some 0 }
      | 3 => { o with state := .opening, owner := some (.order 2), pending := some (.cls 2 (.order 3)) }
      | 5 => { o with state := .resting, cycle := some 0 }
      | _ => Outlet.reset
    cycles := upd (upd s0.cycles 0 fun _ => { CycleRec.free with state := .opening, participants := [2, 5] }) 1
      fun _ => { CycleRec.free with state := .closing, participants := [1] }
    orders := tab fun e => if e.val < 4 then some (awaiting (if e.val < 2 then 0 else 3)) else none
    loads := upd s0.loads 0 fun x => { x with reservations := [(0, 0), (1, 0)] } }

/-- Each of the four driven until 25,000 µs. -/
def driven (sat : Satisfied) (usable : Bool) : State :=
  { roles usable false with
    drivers := tab fun d => .driving (job d) 25000
    moves := tab fun k => if k.val < 4 then .driving (pulse k.val sat) else .none }

/-- And outlet 5 waits for a driver, to open for the shed monitor. -/
def drivenAndWaiting : State :=
  let s := driven .no true
  { s with
    outlets := upd s.outlets 4 fun o => { o with state := .opening, owner := some (.shed 0) }
    moves := upd s.moves 4 fun _ => .waiting .toOpen
    waitList := [{ outlet := 4, dir := .toOpen, retry := false }] }

/-- Each of the four in verification, its sense changed at 35,000 µs. -/
def verifying (usable retry : Bool) : State :=
  { roles usable retry with
    moves := tab fun k => if k.val < 4 then .verifying (pulse k.val .no) else .none
    sense := tab fun k => { raw := k.val < 2, level := !decide (k.val < 2), run := some 35000 } }

theorem control_driven (usable : Bool) : Control (driven .no usable) ∧ Control (driven (.measured 7400) usable) ∧
    Control drivenAndWaiting := by
  refine ⟨?_, ?_, ?_⟩
  all_goals constructor
  all_goals first
    | (cases usable <;> decide +kernel)
    | exact pendingAgrees_of (by cases usable <;> decide +kernel)
    | exact driverAgrees_of (by cases usable <;> decide +kernel)

theorem control_verifying (usable retry : Bool) : Control (verifying usable retry) := by
  constructor
  all_goals first
    | (cases usable <;> cases retry <;> decide +kernel)
    | exact pendingAgrees_of (by cases usable <;> cases retry <;> decide +kernel)
    | exact driverAgrees_of (by cases usable <;> cases retry <;> decide +kernel)

/-- Each of the four in verification on a USABLE phase, its sense changed only after its window: no report of it falls at
the deadline (log entry 48). -/
def failing (retry : Bool) : State :=
  { verifying true retry with sense := tab fun k => { (verifying true retry).sense[k] with run := some 36000 } }

/-- `Control` does not speak of the sense inputs. -/
theorem control_failing (retry : Bool) : Control (failing retry) := { control_verifying true retry with }

/-- Of the three that wait, only outlet 1 (`first`) or only outlet 3 has waited for the queue patience. -/
def late (first : Bool) : State :=
  { waiting with
    now := 300000000
    queue := [{ entryOf 0 1 (.order 0) with instant := if first then 0 else 1 }, { entryOf 1 2 (.cycle 0) with instant := 1 },
      { entryOf 2 3 (.restore 0) with instant := if first then 1 else 0 }] }

theorem control_late (first : Bool) : Control (late first) := by
  constructor
  all_goals first
    | (cases first <;> decide +kernel)
    | exact pendingAgrees_of (by cases first <;> decide +kernel)
    | exact driverAgrees_of (by cases first <;> decide +kernel)

/-! ### Witnesses: the queue and the resets -/

theorem witness_StepRunsFrontCommand :
    ({ s0 with pending := [.frameClose 1] } : State).pending = .frameClose 1 :: [] ∧ s0.pending = [] := ⟨rfl, rfl⟩

theorem witness_PowerOnResetImage : ({ s0 with resetting := some .powerOn } : State).resetting = some .powerOn := rfl

theorem witness_ResetBeginsAtOnce : s0.resetting = none ∧ (1 : Word).getLsbD 0 = true ∧ (0xFFFFFFFE : Word).getLsbD 0 = false := by
  decide +kernel

/-- A reset in course, slot 0 TAKEN and slot 31 DONE. -/
def warm (kind : ResetKind) : State :=
  { s0 with resetting := some kind, mem := writeWord (writeWord [] 0x1500 2) 0x1CC0 3 }

theorem witness_EndOfResetRestarts (kind : ResetKind) : (warm kind).resetting = some kind ∧ MemWf (warm kind).mem ∧
    slotState (warm kind).mem 0 = 2 ∧ slotState (warm kind).mem 31 ≠ 2 ∧
    exec .endOfReset (warm kind) = .next ((warm kind).afterReset kind) := by
  refine ⟨rfl, ?_, ?_, ?_, rfl⟩
  all_goals cases kind <;> decide +kernel

theorem witness_FrozenWhileResetting : ({ s0 with resetting := some .soft } : State).resetting ≠ none := by
  decide +kernel

/-- A raw sense change during a reset moves the pin alone (log entry 19). -/
theorem test_raw_sense_in_reset : after (.rawSenseChange 5 47 true) { s0 with resetting := some .soft } (fun u =>
    (u.sense[(47 : OutletIx)], u.now)) = some ({ raw := true, level := false, run := none }, 0) := by decide +kernel

/-! ### Witnesses: samples and load senses -/

/-- A FREE_RUN frame opened at 0 with its open sample and `n - 1` more taken. -/
def sampled (n : Nat) : State := { s0 with tb := { Timebase.reset with openTaken := true, sampleCount := n } }

/-- A LOCKED cycle that began at 0 and lasts 20,000 µs, with `n` samples taken. -/
def lockedCycle (n : Nat) : State :=
  { s0 with tb := { Timebase.reset with frameState := .locked, openTaken := true, cycleP := 20000, cycleTaken := n } }

/-- A sample of silence at `t`, the second of its frame. -/
def silence (t : Nat) : LastSample where
  instant := t
  codes := codes 0
  count := 1
  windows := Vector.replicate 48 { sii := 0, svi := 0, clip := false }
  windowsV := Vector.replicate 3 { svv := 0, clip := false }

/-- A FREE_RUN frame opened at 0 whose latest sample was taken at `t`. -/
def sampledAt (t : Nat) : State := { s0 with tb := { (sampled 2).tb with lastSample := some (silence t) } }

theorem witness_SampleAddsToWindows :
    (s0.resetting = none ∧ s0.tb.frameState = .freeRun ∧ s0.tb.openTaken = false ∧
      s0.tb.openInstant + 0 * 625 / 2 ≤ max s0.now 0) ∧
    ((sampled 3199).resetting = none ∧ (sampled 3199).tb.sampleCount < 3200 ∧
      0 + (sampled 3199).tb.sampleCount * 625 / 2 ≤ max (sampled 3199).now 999687 ∧
      ¬0 + (sampled 3199).tb.sampleCount * 625 / 2 ≤ max (sampled 3199).now 999686) ∧
    ¬(sampled 3200).tb.sampleCount < 3200 ∧
    ((lockedCycle 63).tb.cycleTaken < 64 ∧ 0 + (lockedCycle 63).tb.cycleTaken * 20000 / 64 ≤ max (lockedCycle 63).now 19687) ∧
    ¬(lockedCycle 64).tb.cycleTaken < 64 ∧
    (s0.tb.lastSample = none ∧ (sampled 3199).tb.lastSample = none ∧ (sampled 3200).tb.lastSample = none ∧
      (lockedCycle 64).tb.lastSample = none) ∧
    ∃ l, (sampledAt 1000000).tb.lastSample = some l ∧ l.instant = max (sampledAt 1000000).now 1000000 :=
  ⟨by decide +kernel, by decide +kernel, by decide +kernel, by decide +kernel, by decide +kernel, by decide +kernel,
    silence 1000000, rfl, rfl⟩

theorem witness_SampleAtCloseOpensNext :
    closesFrame (sampledAt 1000000) 1000000 (.frameClose 1000000) ∧ (sampledAt 1000000).resetting = none ∧
      (sampledAt 1000000).tb.lastSample = some (silence 1000000) ∧ (silence 1000000).instant = 1000000 :=
  ⟨⟨rfl, rfl, by decide⟩, by decide +kernel, rfl, rfl⟩

/-- A sample at the close of a whole FREE_RUN frame, queued before FRAME_CLOSE, is not counted in that frame, and neither is
a second one (R1, R2). -/
theorem test_sample_at_close_is_kept :
    ((sampled 3200).advance 1000000).sampleDue = false ∧
    (((sampled 3200).advance 1000000).takeSample (codes 7)).tb.sampleCount = 3200 ∧
    (((sampled 3200).advance 1000000).takeSample (codes 7)).sampleNow.map (·.count) = some 3200 ∧
    ((((sampled 3200).advance 1000000).takeSample (codes 7)).takeSample (codes 8)).tb =
      (((sampled 3200).advance 1000000).takeSample (codes 7)).tb := by decide +kernel

/-- Every raw input rose at 1,000 µs. -/
def rising : State := { s0 with sense := Vector.replicate 48 { raw := true, level := false, run := some 1000 } }
/-- Every raw input and level has been true since 1,000 µs. -/
def settled : State := { s0 with sense := Vector.replicate 48 { raw := true, level := true, run := some 1000 } }

/-- Every raw input has been true since the reset, with no change of it. -/
def highSinceReset : State := { s0 with sense := Vector.replicate 48 { raw := true, level := false, run := none } }

theorem witness_SenseInputsDebounce :
    (true ≠ s0.sense[(0 : OutletIx)].raw ∧ false = s0.sense[(0 : OutletIx)].raw) ∧
    (rising.resetting = none ∧ rising.scanDue = false ∧ rising.sense[(47 : OutletIx)].run = some 1000 ∧
      rising.moves[(47 : OutletIx)] = .none) ∧
    (rising.sense[(47 : OutletIx)].raw ≠ rising.sense[(47 : OutletIx)].level ∧ 1000 + 2000 ≤ max rising.now 3000) ∧
    -- a verification that the report came too early for
    (({ rising with moves := Vector.replicate 48 (.verifying (pulse 0 .no)) } : State).moves[(47 : OutletIx)] =
      .verifying (pulse 0 .no) ∧ ¬(pulse 0 .no).start ≤ 1000) ∧
    max rising.now 2999 < 1000 + 2000 ∧ settled.sense[(47 : OutletIx)].run = some 1000 ∧
    settled.sense[(47 : OutletIx)].raw = settled.sense[(47 : OutletIx)].level ∧
    -- an input with no change since the reset
    (highSinceReset.resetting = none ∧ highSinceReset.scanDue = false ∧ highSinceReset.sense[(47 : OutletIx)].run = none ∧
      highSinceReset.sense[(47 : OutletIx)].raw ≠ highSinceReset.sense[(47 : OutletIx)].level ∧
      0 + 2000 ≤ max highSinceReset.now 2000 ∧ max highSinceReset.now 1999 < 0 + 2000 ∧
      s0.sense[(47 : OutletIx)].run = none ∧ s0.sense[(47 : OutletIx)].raw = s0.sense[(47 : OutletIx)].level) := by decide +kernel

/-! ### Witnesses: crossings, phases and closes -/

/-- Every phase with its last crossing at 10,000 µs, falling, after one rising at 0. -/
def crossed (live : Bool) (run : Nat) : State :=
  { s0 with
    phases := Vector.replicate 3
      { PhaseStatus.reset with
        live := live, run := run, last := some (10000, .falling), half := some 10000, lastRising := some 0
        deadline := if live then some 40000 else none } }

theorem accepted_crossed (live : Bool) (run now : Nat) (p : Phase) (h : 12000 ≤ now) :
    accepted (crossed live run).phases[p] now .rising := by
  have hl : (crossed live run).phases[p].last = some (10000, .falling) := by simp [crossed]
  intro t0 p0 ht
  rw [hl] at ht
  cases ht
  exact ⟨by decide, h⟩

theorem witness_CrossingScreenAndRecord :
    (¬accepted (crossed true 16).phases[(0 : Phase)] 11999 .rising ∧ accepted (crossed true 16).phases[(0 : Phase)] 12000 .rising ∧
      ¬accepted (crossed true 16).phases[(0 : Phase)] 12000 .falling) ∧
    ((crossed true 16).resetting = none ∧ (crossed true 16).scanDue = false ∧ MemWf (crossed true 16).mem ∧
      (crossed true 16).logFull = false ∧ max (crossed true 16).now 12000 = 12000) ∧
    (becomesLive (crossed false 15).phases[(1 : Phase)] 17700 ∧ becomesLive (crossed false 15).phases[(1 : Phase)] 21100 ∧
      ¬becomesLive (crossed false 14).phases[(1 : Phase)] 17700 ∧ ¬becomesLive (crossed false 15).phases[(1 : Phase)] 17699 ∧
      ¬becomesLive (crossed false 15).phases[(1 : Phase)] 21101) ∧
    s0.phases[(0 : Phase)].last = none := by
  refine ⟨⟨fun h => ?_, accepted_crossed true 16 12000 0 (by decide), fun h => ?_⟩, ?_⟩
  · exact absurd (h 10000 .falling rfl).2 (by decide)
  · exact (h 10000 .falling rfl).1 rfl
  · decide +kernel

/-- L1 LIVE in a LOCKED frame with `n` cycles counted. -/
def locked (n : Nat) : State :=
  { crossed true 16 with tb := { Timebase.reset with state := .locked, frameState := .locked, cycles := n } }

theorem witness_PhaseDiesAtDeadline :
    ((crossed true 16).resetting = none ∧ (crossed true 16).scanDue = false ∧ MemWf (crossed true 16).mem ∧
      (crossed true 16).phases[(0 : Phase)].live = true ∧ (crossed true 16).phases[(0 : Phase)].deadline = some 40000 ∧
      (crossed true 16).tb.state = .freeRun ∧ (crossed true 16).logFull = false ∧ 40000 ≤ max (crossed true 16).now 40000 ∧
      max (crossed true 16).now 39999 < 40000) ∧
    (locked 0).phases[(0 : Phase)].live = true ∧ (locked 0).phases[(0 : Phase)].deadline = some 40000 ∧
      (locked 0).tb.state = .locked ∧ logUsed (locked 0).mem + 2 ≤ 256 := by decide +kernel

theorem witness_L1CrossingCountsCycles :
    accepted (locked 48).phases[(0 : Phase)] (max (locked 48).now 12000) .rising ∧
    ((locked 48).resetting = none ∧ (locked 48).scanDue = false ∧ (locked 48).phases[(0 : Phase)].live = true ∧
      (locked 48).phases[(0 : Phase)].lastRising = some 0 ∧ (locked 48).tb.frameState = .locked ∧
      (locked 48).tb.lockPending = false ∧ (locked 48).tb.openInstant < max (locked 48).now 12000) ∧
    ((locked 48).tb.cycles + 1 ≠ (locked 48).tb.cycleSetting ∧ (locked 49).tb.cycles + 1 = (locked 49).tb.cycleSetting) ∧
    nextFramesSample (locked 48) 12000 = none ∧
    ∃ l, nextFramesSample { locked 48 with tb := { (locked 48).tb with lastSample := some (silence 12000) } } 12000 = some l :=
  ⟨accepted_crossed true 16 12000 0 (by decide), by decide +kernel, by decide +kernel, rfl, silence 12000, rfl⟩

/-- A lock pending in the frame opened at `t`. -/
def lockDue (t : Nat) : State := { crossed true 16 with tb := { Timebase.reset with lockPending := true, openInstant := t } }

theorem witness_LockTakenAtRisingCrossing :
    (accepted (lockDue 0).phases[(0 : Phase)] (max (lockDue 0).now 12000) .rising ∧
      accepted (crossed false 15).phases[(0 : Phase)] (max (crossed false 15).now 17700) .rising) ∧
    (takesLock (lockDue 0) 12000 ∧ takesLock (crossed false 15) 17700) ∧
    ((lockDue 0).resetting = none ∧ MemWf (lockDue 0).mem ∧ (lockDue 0).phases[(0 : Phase)].lastRising = some 0 ∧
      logUsed (lockDue 0).mem + 2 ≤ 256) ∧
    becomesLive (crossed false 15).phases[(0 : Phase)] 17700 ∧ (lockDue 11999).tb.openInstant < max (lockDue 11999).now 12000 ∧
    (lockDue 12000).tb.openInstant = max (lockDue 12000).now 12000 ∧ (lockDue 12000).scanDue = false :=
  ⟨⟨accepted_crossed true 16 12000 0 (by decide), accepted_crossed false 15 17700 0 (by decide)⟩,
    ⟨.inl rfl, .inr (by decide +kernel)⟩, by decide +kernel⟩

theorem witness_FreeRunFrameCloses : s0.resetting = none ∧ s0.scanDue = false ∧ s0.tb.frameState = .freeRun ∧
    s0.tb.openInstant + 1000000 ≤ max s0.now 1000000 ∧ max s0.now 999999 < s0.tb.openInstant + 1000000 ∧
    (locked 0).tb.frameState = .locked := by decide +kernel

/-- One close of each kind. -/
theorem closes_each_kind : closesFrame s0 1000000 (.frameClose 1000000) ∧ closesFrame (locked 0) 40000 (.phaseDead 40000 0) ∧
    closesFrame (lockDue 0) 12000 (.zeroCrossing 12000 0 .rising) ∧ closesFrame (locked 49) 12000 (.zeroCrossing 12000 0 .rising) :=
  ⟨⟨rfl, rfl, by decide⟩, ⟨rfl, rfl, rfl, ⟨40000, by decide, rfl⟩, rfl⟩,
    ⟨rfl, rfl, rfl, accepted_crossed true 16 12000 0 (by decide), by decide, .inl (.inl rfl)⟩,
    ⟨rfl, rfl, rfl, accepted_crossed true 16 12000 0 (by decide), by decide, .inr ⟨rfl, rfl⟩⟩⟩

theorem witness_CloseUpdatesEnergy : closesFrame (lockDue 0) 12000 (.zeroCrossing 12000 0 .rising) ∧ (lockDue 0).resetting = none ∧
    nextFramesSample (lockDue 0) 12000 = none := ⟨closes_each_kind.2.2.1, rfl, rfl⟩

/-- One sample of a current of `i` mA in every outlet. -/
def metered (i : Nat) : State :=
  { s0 with meter := Vector.replicate 48 { MeterOutlet.opened 0 0 0 with sii := i * i, svi := -i } }

theorem witness_FrameValuesFromSums :
    (closesFrame (metered 29) 1000000 (.frameClose 1000000) ∧ closesFrame (metered 30) 1000000 (.frameClose 1000000)) ∧
    ((metered 29).resetting = none ∧ 0 < samplesAtClose (metered 29) 1000000 ∧
      (∀ k : OutletIx, (windowAtClose (metered 29) 1000000 k).sii < 2 ^ 48) ∧
      ∀ p : Phase, (phaseAtClose (metered 29) 1000000 p).svv < 2 ^ 48) ∧
    (29 * 29 ≤ (windowAtClose (metered 29) 1000000 0).sii / 1 ∧
      roundHalfUp (29 * 32768) 32768 < (metered 29).work.strip.creepLevel) ∧
    30 * 30 ≤ (windowAtClose (metered 30) 1000000 0).sii / 1 ∧
      (metered 30).work.strip.creepLevel ≤ roundHalfUp (30 * 32768) 32768 :=
  ⟨⟨⟨rfl, rfl, by decide⟩, ⟨rfl, rfl, by decide⟩⟩, by decide +kernel⟩

/-! ### Witnesses: publication -/

/-- A frame of zeros. -/
def frame0 : FrameResult where
  sequence := 1
  tUs := 1000000
  n := 3200
  frequency := 0
  frameState := .freeRun
  short := false
  phases := Vector.replicate 3 { vrms := 0, present := false, live := false, clipped := false }
  outlets := Vector.replicate 48
    { irms := 0, p := 0, va := 0, pf := 0, energy := 0, clipped := false, creep := false, reverse := false
      saturated := false, unverified := false, phaseAbsent := true }
  branches := Vector.replicate 6 { measured := 0, committed := 0, overload := false, shedding := false, restoring := false }

theorem witness_PublicationFillsOtherBuffer :
    let s := fun (b : BufferName) => ({ s0 with pub := { Publisher.reset with waiting := [frame0], index := b } } : State)
    (s .bufA).resetting = none ∧ MemWf (s .bufA).mem ∧ (s .bufA).pub.written = none ∧
      (s .bufA).pub.waiting = frame0 :: [] ∧ (s .bufA).pub.index = .bufA ∧ (s .bufB).pub.waiting = frame0 :: [] ∧
      (s .bufB).pub.index ≠ .bufA := by decide +kernel

theorem witness_FlipAndPartTime :
    let s : State := { s0 with pub := { Publisher.reset with written := some 1 } }
    s.resetting = none ∧ MemWf s.mem ∧ s.pub.written = some 1 := by decide +kernel

theorem witness_PulseStartsAsPlanned :
    let s : State := { s0 with
      drivers := upd s0.drivers 3 fun _ => .aiming (job 3), moves := upd s0.moves 3 fun _ => .aiming .toOpen 0 8000 }
    s.resetting = none ∧ s.drivers[(3 : DriverNo)] = .aiming (job 3) ∧ s.moves[(job 3).outlet] = .aiming .toOpen 0 8000 ∧
      (job 3).plannedStart ≤ max s.now 5000 ∧ max s.now 4999 < (job 3).plannedStart := by decide +kernel

theorem witness_PulseEndFreesDriver :
    (Control (driven .no true) ∧ Control drivenAndWaiting) ∧
    ((driven .no true).resetting = none ∧ (driven .no true).drivers[(3 : DriverNo)] = .driving (job 3) 25000 ∧
      (driven .no true).moves[(job 3).outlet] = .driving (pulse 3 .no) ∧ (driven .no true).usable (pulse 3 .no).phase = true ∧
      25000 ≤ max (driven .no true).now 25000 ∧ (driven .no true).waitList = [] ∧ (driven .no true).queue = []) ∧
    (drivenAndWaiting.drivers[(0 : DriverNo)] = .driving (job 0) 25000 ∧
      drivenAndWaiting.waitList = { outlet := 4, dir := .toOpen, retry := false } :: []) ∧
    (driven .no true).scanDue = false ∧ max (driven .no true).now 24999 < 25000 :=
  ⟨⟨(control_driven true).1, (control_driven true).2.2⟩, by decide +kernel⟩

/-- R78, R81: the freed driver is aimed for outlet 5's open, 1,000 µs ahead of 25,000 µs by the earliest crossing: 10,000 µs
after the one at 24,000 µs, less the open estimate of 6,000 µs. -/
theorem test_pulseEnd_aims_waiting : after (.pulseEnd 25000 0)
      { drivenAndWaiting with phases := Vector.replicate 3 { PhaseStatus.reset with
          live := true, present := true, last := some (24000, .rising), half := some 10000 } }
      (fun u => (u.drivers[(0 : DriverNo)], u.moves[(4 : OutletIx)])) =
    some (.aiming { outlet := 4, dir := .toOpen, phase := 0, plannedStart := 28000, timed := true, width := 20000
                    margin := 10000 }, .aiming .toOpen 0 6000) := by decide +kernel

theorem witness_MovementCompletes :
    (Control (driven (.measured 7400) true) ∧ Control (driven .no false) ∧ Control (verifying false false) ∧
      Control (verifying true false)) ∧
    ((driven (.measured 7400) true).moves[(1 : OutletIx)] = .driving (pulse 1 (.measured 7400)) ∧
      (pulse 1 (.measured 7400)).satisfied ≠ .no) ∧
    ((driven .no false).usable 0 = false ∧ (driven .no false).resetting = none ∧ MemWf (driven .no false).mem ∧
      ∀ d : DriverNo, (driven .no false).drivers[d] = .driving (job d) 25000 ∧
        (driven .no false).moves[(job d).outlet] = .driving (pulse d.val .no)) ∧
    (verifying false false).moves[(2 : OutletIx)] = .verifying (pulse 2 .no) ∧
      (pulse 2 .no).deadline ≤ max (verifying false false).now 37000 ∧
    ∀ k : OutletIx, k.val < 4 → (verifying true false).moves[k] = .verifying (pulse k.val .no) ∧
      (verifying true false).sense[k].raw ≠ (verifying true false).sense[k].level ∧
      (verifying true false).sense[k].run = some 35000 ∧ 35000 + 2000 ≤ max (verifying true false).now 37000 ∧
      (verifying true false).sense[k].raw = ((pulse k.val .no).dir == .toClosed) ∧ (pulse k.val .no).start ≤ 35000 ∧
      35000 ≤ (pulse k.val .no).windowEnd :=
  ⟨⟨(control_driven true).2.1, (control_driven false).1, control_verifying false false, control_verifying true false⟩,
    by decide +kernel⟩

/-- Outlet 1 in verification of a pulse that started at 0, its sense high since the reset with no change of it. -/
def verifyingSinceReset : State :=
  { verifying true false with
    moves := upd (verifying true false).moves 0 fun _ => .verifying { pulse 0 .no with start := 0 }
    sense := highSinceReset.sense }

theorem witness_MovementCompletes_since_reset :
    Control verifyingSinceReset ∧ verifyingSinceReset.resetting = none ∧ MemWf verifyingSinceReset.mem ∧
      verifyingSinceReset.sense[(0 : OutletIx)].run = none ∧
      verifyingSinceReset.moves[(0 : OutletIx)] = .verifying { pulse 0 .no with start := 0 } ∧
      verifyingSinceReset.sense[(0 : OutletIx)].raw ≠ verifyingSinceReset.sense[(0 : OutletIx)].level ∧
      0 + 2000 ≤ max verifyingSinceReset.now 2000 ∧
      verifyingSinceReset.sense[(0 : OutletIx)].raw = ((pulse 0 .no).dir == .toClosed) ∧ 0 ≤ (pulse 0 .no).windowEnd := by
  refine ⟨?_, by decide +kernel⟩
  constructor
  all_goals first
    | decide +kernel
    | exact pendingAgrees_of (by decide +kernel)
    | exact driverAgrees_of (by decide +kernel)

theorem witness_FirstFailureRetries :
    let s := failing false
    let busy : State := { s with drivers := tab fun d => .driving (job d) 40000 }
    (s.resetting = none ∧ s.scanDue = false ∧ MemWf s.mem ∧ s.moves[(3 : OutletIx)] = .verifying (pulse 3 .no) ∧
      s.usable (pulse 3 .no).phase = true ∧ s.outlets[(3 : OutletIx)].retry = false) ∧
    ((pulse 3 .no).deadline ≤ max s.now 37000 ∧ max s.now 36999 < (pulse 3 .no).deadline) ∧ s.logFull = false ∧
    s.drivers[(0 : DriverNo)] = .free ∧ busy.moves[(3 : OutletIx)] = .verifying (pulse 3 .no) ∧
      ∀ d : DriverNo, busy.drivers[d] ≠ .free := by decide +kernel

theorem witness_SecondFailureFaults :
    let s := failing true
    Control s ∧ (s.resetting = none ∧ MemWf s.mem ∧ logUsed s.mem + 2 ≤ 256 ∧
      ∀ k : OutletIx, k.val < 4 → s.moves[k] = .verifying (pulse k.val .no) ∧ (pulse k.val .no).deadline ≤ max s.now 37000 ∧
        s.usable (pulse k.val .no).phase = true ∧ s.outlets[k].retry = true) ∧
    (s.outlets[(0 : OutletIx)].cycle = none ∧ s.outlets[(0 : OutletIx)].owner = some (.order 0) ∧
      s.outlets[(0 : OutletIx)].pending = some (.opn (.order 1))) ∧
    (s.outlets[(1 : OutletIx)].cycle = some 1 ∧ s.cycles[(1 : RecNo)].state = .closing) ∧
    s.outlets[(2 : OutletIx)].cycle = some 0 ∧ s.cycles[(0 : RecNo)].state = .opening ∧
      (s.cycles[(0 : RecNo)].closed = [] ∧ s.cycles[(0 : RecNo)].failed = [] ∧ s.cycles[(0 : RecNo)].withdrawn = []) ∧
      ∀ j ∈ s.cycles[(0 : RecNo)].participants, j ≠ 2 → s.outlets[j].pending = none ∧
        (s.outlets[j].state = .opening ∨ s.outlets[j].state = .resting) :=
  ⟨control_failing true, by decide +kernel⟩

/-! ### Witnesses: cycles -/

/-- Every record rests until 10,000 µs with outlets 1 and 48, whose membership is record 15. -/
def resting (o : Origin) : State :=
  { s0 with
    outlets := Vector.replicate 48 { Outlet.reset with state := .resting, cycle := some 15 }
    cycles := Vector.replicate 16
      { CycleRec.free with state := .resting, participants := [0, 47], restDeadline := some 10000, origins := [o] } }

theorem witness_RestDeadlineClosesParticipants :
    let s := resting (.order 0 true)
    (s.resetting = none ∧ s.scanDue = false ∧ s.cycles[(15 : RecNo)].state = .resting ∧
      s.cycles[(15 : RecNo)].restDeadline = some 10000 ∧ s.cycles[(15 : RecNo)].participants.Nodup ∧
      (∀ k ∈ s.cycles[(15 : RecNo)].participants, s.outlets[k].state = .resting ∧ s.outlets[k].cycle = some 15)) ∧
    (10000 ≤ max s.now 10000 ∧ max s.now 9999 < 10000) ∧ Origin.order 0 true ∈ s.cycles[(15 : RecNo)].origins ∧
    Origin.order 0 false ∈ (resting (.order 0 false)).cycles[(15 : RecNo)].origins ∧
    (resting (.watch 0)).cycles[(15 : RecNo)].origins = [.watch 0] := by decide +kernel

theorem witness_AdmissionTable :
    -- row 1: the lowest record that opens or rests, over targets that take part in it or are OFF
    ((resting (.watch 0)).cycles[(0 : RecNo)].state = .resting ∧
      (0 : OutletIx) ∈ (resting (.watch 0)).cycles[(0 : RecNo)].participants ∧
      (resting (.watch 0)).cycles[(0 : RecNo)].origins.length < 4) ∧
    4 ≤ (List.replicate 4 (Origin.watch 0)).length ∧
    -- rows 2 to 7: no record has a participant
    (∀ st : OutletState, ∀ c : RecNo, (inState st).cycles[c].participants = []) ∧
    (inState .fault).outlets[(0 : OutletIx)].state = .fault ∧ (inState .unknown).outlets[(0 : OutletIx)].state = .unknown ∧
    (inState .resting).outlets[(0 : OutletIx)].state = .resting ∧
    ((inState .off).outlets[(0 : OutletIx)].state = .off ∧ (inState .off).outlets[(0 : OutletIx)].cycle = none) ∧
    ((inState .on).outlets[(0 : OutletIx)].state = .on ∧ (inState .on).outlets[(0 : OutletIx)].cycle = none) ∧
    (inState .on).cycles[(0 : RecNo)].state = .free ∧
      ∀ c : RecNo, ({ inState .on with
        cycles := Vector.replicate 16 { CycleRec.free with state := .closing } } : State).cycles[c].state ≠ .free := by
  refine ⟨by decide +kernel, by decide, ?_, by decide +kernel⟩
  intro st
  cases st <;> decide +kernel

theorem witness_RecordEndTellsOrigins :
    let s := fun (st : CycleState) (o : Origin) (closed : List OutletIx) (cancelled : Bool) =>
      ({ resting o with
        cycles := Vector.replicate 16
          { CycleRec.free with state := st, participants := [0, 47], origins := [o], closed := closed, cancelled := cancelled }
        orders := Vector.replicate 32 (some (awaiting 0)) } : State)
    MemWf (s .closing (.order 31 true) [] false).mem ∧ (s .closing (.order 31 true) [] false).cycles[(15 : RecNo)].origins.Nodup ∧
    (s .closing (.order 31 true) [] false).orders[(31 : SlotNo)] ≠ none ∧
    (∀ k ∈ (s .closing (.watch 23) [0, 47] false).cycles[(15 : RecNo)].participants,
      k ∈ (s .closing (.watch 23) [0, 47] false).cycles[(15 : RecNo)].closed) ∧
    (47 : OutletIx) ∉ (s .closing (.watch 23) [0] false).cycles[(15 : RecNo)].closed ∧
    (s .restoring (.watch 23) [0] false).cycles[(15 : RecNo)].state = .restoring ∧
    (s .closing (.watch 23) [] true).cycles[(15 : RecNo)].cancelled = true ∧
    (s .closing (.watch 23) [] false).logFull = false := by decide +kernel

/-! ### Witnesses: orders -/

theorem witness_PostTable : s0.resetting = none ∧ 32 ≤ (32 : Word).toNat ∧ (31 : Word) = BitVec.ofNat 32 (31 : SlotNo).val ∧
    ((31 : SlotNo) ∉ s0.fifo ∧ s0.orders[(31 : SlotNo)] = none) ∧ (0 : SlotNo) ∈ (intake 1 0 s0).fifo := by decide +kernel

/-- What every take of slot 0 asks. -/
abbrev taken (s : State) : Prop :=
  s.resetting = none ∧ s.scanDue = false ∧ MemWf s.mem ∧ s.fifo = [0] ∧ slotState s.mem 0 = 1

theorem taken_of {s : State} {kind : OrderKind} (h : taken s ∧ orderKindOf (slotFields s.mem 0).kind = some kind) :
    Taken s 0 [] kind := ⟨h.1.1, h.1.2.2.1, h.1.2.2.2.1, h.1.2.2.2.2, h.2⟩

/-- Slot 0 POSTED with an order of `kind` over a list that names no outlet, one outlet twice, or number 49. -/
def unresolved (kind : Nat) (list : Nat × Nat) : State :=
  { s0 with mem := writeWords [] 0x1500 [1, kind + list.1 * 2 ^ 24, list.2], fifo := [0] }

/-- An order's fields with `count` of the list read, and the match mask 0xF0. -/
def fields (form count : Byte) (list : List Byte) (value : Byte) : SlotFields :=
  { slotFields [] 0 with form := form, count := count, list := list, matchValue := value, matchMask := 0xF0 }

/-- Outlet 48 has the group tag 0x31. -/
def tagged : Settings :=
  { Settings.default with
    outlets := upd (Vector.replicate 48 { Settings.default.outlets[(0 : OutletIx)] with groupTag := 0 }) 47
      fun o => { o with groupTag := 0x31 } }

theorem witness_TakeDropsOrRefuses_targets :
    1 < (fields 2 1 [1] 0).form.toNat ∧ (fields 0 0 [1] 0).count = 0 ∧ 8 < (fields 0 9 [1] 0).count.toNat ∧
    (∀ l ∈ [[0, 1], [1, 49]], let f := fields 0 2 l 0
      1 ≤ f.count.toNat ∧ f.count.toNat ≤ 8 ∧ ∃ v ∈ f.list.take f.count.toNat, v = 0 ∨ 48 < v.toNat) ∧
    (∀ n ∈ [1, 2, 3], let f := fields 0 (BitVec.ofNat 8 n) [48, 1, 48, 0, 0, 0, 0, 255] 0
      f.form = 0 ∧ 1 ≤ f.count.toNat ∧ f.count.toNat ≤ 8 ∧
        (∀ v ∈ f.list.take f.count.toNat, 1 ≤ v.toNat ∧ v.toNat ≤ 48) ∧ (n < 3 → (f.list.take f.count.toNat).Nodup)) ∧
    ((fields 0 3 [48, 1, 48, 0] 0).list.take 3 = [48, 1] ++ 48 :: [] ∧ ([48, 1] : List Byte).Nodup) ∧
    (∀ i, i < 8 → (fields 1 0 [] 0x30).matchMask.getLsbD i = true →
      tagged.outlets[(47 : OutletIx)].groupTag.getLsbD i = (fields 1 0 [] 0x30).matchValue.getLsbD i) ∧
    ∀ k : OutletIx, ¬∀ i, i < 8 → (fields 1 0 [] 0x40).matchMask.getLsbD i = true →
      tagged.outlets[k].groupTag.getLsbD i = (fields 1 0 [] 0x40).matchValue.getLsbD i := by decide +kernel

theorem witness_TakeDropsOrRefuses :
    (({ s0 with fifo := [31] } : State).fifo = 31 :: [] ∧ slotState ({ s0 with fifo := [31] } : State).mem 31 ≠ 1) ∧
    ((taken (intake 0 0 s0) ∧ (readByte (intake 0 0 s0).mem (slotAddr 0 + 4)).toNat = 0) ∧
      taken (intake 9 0 s0) ∧ 8 < (readByte (intake 9 0 s0).mem (slotAddr 0 + 4)).toNat) ∧
    (∀ k ∈ [1, 2, 3, 5, 6], Taken (unresolved k (0, 0)) 0 [] ((orderKindOf (BitVec.ofNat 8 k)).getD .latchEnergy)) ∧
    (∀ k ∈ [1, 2, 3, 5, 6], resolveTargets (unresolved k (0, 0)).work (slotFields (unresolved k (0, 0)).mem 0) = .error none ∧
      resolveTargets (unresolved k (2, 0x3030)).work (slotFields (unresolved k (2, 0x3030)).mem 0) = .error (some 47)) ∧
    (intake 0 0 s0).logFull = false := by
  refine ⟨by decide +kernel, by decide +kernel, fun k hk => taken_of ?_, by decide +kernel, by decide +kernel⟩
  revert k
  decide +kernel

theorem witness_SwitchOnMembers :
    Taken (intake 1 0 (inState .off)) 0 [] .switchOn ∧ Control (intake 1 0 (inState .off)) ∧
    Taken (intake 1 0 (inState .on)) 0 [] .switchOn ∧
    (resolveTargets (intake 1 0 (inState .off)).work (slotFields (intake 1 0 (inState .off)).mem 0) = .ok [0] ∧
      ∀ k ∈ [(0 : OutletIx)], (inState .off).outlets[k].state = .off ∧ (inState .off).outlets[k].cycle = none) ∧
    resolveTargets (intake 1 0 (inState .on)).work (slotFields (intake 1 0 (inState .on)).mem 0) = .ok [0] ∧
      (intake 1 0 (inState .on)).scanDue = false ∧
      ∀ k ∈ [(0 : OutletIx)], (inState .on).outlets[k].state = .on ∧ (inState .on).outlets[k].cycle = none :=
  ⟨taken_of (by decide +kernel), control_intake 1 0 control_off, taken_of (by decide +kernel), by decide +kernel⟩

/-- Slot 5 POSTED at the head of the intake FIFO, with an order of `kind` over outlet `k` alone. -/
def lone (kind : Nat) (k : OutletIx) (s : State) : State :=
  { s with mem := writeWords [] 0x1640 [1, kind + 0x01000000, k.val + 1], fifo := [5] }

/-- What a request for outlet `k` alone asks. -/
abbrev asks (kind : Nat) (s : State) (k : OutletIx) : Prop :=
  let u := lone kind k s
  (u.resetting = none ∧ u.scanDue = false ∧ MemWf u.mem ∧ slotState u.mem 5 = 1) ∧
    (slotFields u.mem 5).kind = BitVec.ofNat 8 kind ∧ resolveTargets u.work (slotFields u.mem 5) = .ok [k] ∧
    s.outlets[k].owner ≠ some (.order 5) ∧ s.outlets[k].pending ≠ some (.opn (.order 5)) ∧
    s.outlets[k].pending ≠ some (.cls 1 (.order 5)) ∧ s.outlets[k].pending ≠ some (.cls 2 (.order 5))

/-- A request over one outlet in each state (R56), and over a member of a cycle (R55). -/
theorem witness_Requested : ∀ kind ∈ [1, 2],
    (∀ st ∈ [OutletState.off, .on, .fault, .unknown], Control (lone kind 47 (atRest st)) ∧ asks kind (atRest st) 47 ∧
      (atRest st).outlets[(47 : OutletIx)].state = st ∧ (atRest st).outlets[(47 : OutletIx)].cycle = none) ∧
    (Control (lone kind 1 waiting) ∧ asks kind waiting 1 ∧ waiting.outlets[(1 : OutletIx)].cycle ≠ none) ∧
    (Control (lone kind 0 waiting) ∧ asks kind waiting 0 ∧ waiting.outlets[(0 : OutletIx)].state = .awaitClose ∧
      waiting.outlets[(0 : OutletIx)].cycle = none ∧ ownedBy waiting.outlets[(0 : OutletIx)] (.order 0)) ∧
    (Control (lone kind 0 (driven .no true)) ∧ asks kind (driven .no true) 0 ∧
      (driven .no true).outlets[(0 : OutletIx)].state = .closing ∧ (driven .no true).outlets[(0 : OutletIx)].cycle = none ∧
      pendingOf (driven .no true).outlets[(0 : OutletIx)] (.order 1)) ∧
    (Control (lone kind 3 (driven .no true)) ∧ asks kind (driven .no true) 3 ∧
      (driven .no true).outlets[(3 : OutletIx)].state = .opening ∧ (driven .no true).outlets[(3 : OutletIx)].cycle = none ∧
      pendingOf (driven .no true).outlets[(3 : OutletIx)] (.order 3)) := by
  intro kind hk
  refine ⟨fun st hs => ⟨?_, ?_⟩, ⟨control_at _ _ control_waiting, ?_⟩, ⟨control_at _ _ control_waiting, ?_⟩,
    ⟨control_at _ _ (control_driven true).1, ?_, rfl, rfl, _, rfl, rfl⟩,
    ⟨control_at _ _ (control_driven true).1, ?_, rfl, rfl, _, rfl, rfl⟩⟩
  · apply control_at
    obtain ⟨a, b, c, d⟩ := control_atRest
    simp only [List.mem_cons, List.not_mem_nil, or_false] at hs
    rcases hs with rfl | rfl | rfl | rfl <;> assumption
  · revert st kind
    decide +kernel
  · revert kind
    decide +kernel
  · unfold ownedBy
    revert kind
    decide +kernel
  all_goals
    revert kind
    decide +kernel

/-- R53: an order that asks an outlet in AWAIT_CLOSE to close takes over its entry; its former order finishes. -/
theorem test_superseded : after (.switchOn 5000) (lone 1 0 waiting) (fun u =>
      (u.outlets[(0 : OutletIx)].owner, u.queue.map (·.owner), u.orders[(0 : SlotNo)], slotState u.mem 0)) =
    some (some (.order 5), [.order 5, .cycle 0, .restore 0], none, 3) := by decide +kernel

theorem witness_SwitchOffOpensMembers :
    Taken (intake 2 0 (inState .on)) 0 [] .switchOff ∧
    resolveTargets (intake 2 0 (inState .on)).work (slotFields (intake 2 0 (inState .on)).mem 0) = .ok [0] ∧
    (∀ k ∈ [(0 : OutletIx)], (inState .on).outlets[k].state = .on ∧ (inState .on).outlets[k].cycle = none ∧
      ∀ x ∈ (inState .on).queue, x.outlet ≠ k) ∧ (inState .on).drivers[(0 : DriverNo)] = .free ∧
    -- and with no driver FREE
    Taken (intake 2 0 { inState .on with drivers := tab fun d => .driving (job d) 40000 }) 0 [] .switchOff ∧
      ∀ d : DriverNo, ({ inState .on with drivers := tab fun d => .driving (job d) 40000 } : State).drivers[d] ≠ .free :=
  ⟨taken_of (by decide +kernel), by decide +kernel, by decide +kernel, by decide +kernel, taken_of (by decide +kernel),
    by decide +kernel⟩

theorem witness_CycleOrderAdmitted :
    let order := fun (s : State) => { s with mem := writeWords [] 0x1500 [1, 0x02000003, 0x3001], fifo := [0] }
    let s := order { s0 with outlets := tab fun k => { Outlet.reset with state := if k.val = 0 then .on else .off } }
    let running := order (resting (.watch 0))
    let f := slotFields s.mem 0
    (Taken s 0 [] .cycle ∧ Taken running 0 [] .cycle) ∧ resolveTargets s.work f = .ok [0, 47] ∧
      ((∀ k ∈ [(0 : OutletIx), 47], (s.outlets[k].state = .on ∨ s.outlets[k].state = .off) ∧ s.outlets[k].cycle = none ∧
        (∀ x ∈ s.queue, x.outlet ≠ k) ∧ ∀ r : RecNo, k ∉ s.cycles[r].participants) ∧
        s.outlets[(0 : OutletIx)].state = .on ∧ s.outlets[(47 : OutletIx)].state = .off) ∧
      (s.cycles[(0 : RecNo)].state = .free ∧ ∀ r : RecNo, r < 0 → s.cycles[r].state ≠ .free) ∧
      (running.scanDue = false ∧ resolveTargets running.work (slotFields running.mem 0) = .ok [0, 47] ∧
        (running.admission (.order 0 f.urgent) [0, 47] 10000).2 = .attached 0) ∧
      ((order (inState .off)).scanDue = false ∧
        ((order (inState .off)).admission (.order 0 f.urgent) [0, 47] 10000).2 = .refused .nothingOn none) :=
  ⟨⟨taken_of (by decide +kernel), taken_of (by decide +kernel)⟩, by decide +kernel⟩

/-- A record in each state: 0 opens, 1 rests, 2 closes with one close still waiting, 3 closes and is cancelled, 4 restores, 6
closes with no other participant than one that waits, 5 is FREE. -/
def recorded : State :=
  let part := fun (st : OutletState) (c : RecNo) => { Outlet.reset with state := st, cycle := some c }
  let own := fun (st : OutletState) (c : RecNo) => { part st c with owner := some (.cycle c) }
  { s0 with
    outlets := tab fun k => match k.val with
      | 0 => own .opening 0 | 1 => part .resting 0 | 2 => part .resting 1 | 3 => own .awaitClose 2 | 4 => own .closing 2
      | 5 => part .on 3 | 6 => part .on 4 | 7 => own .awaitClose 6 | _ => Outlet.reset
    moves := upd (upd s0.moves 0 fun _ => .verifying (pulse 2 .no)) 4 fun _ => .verifying (pulse 0 .no)
    loads := upd s0.loads 0 fun x => { x with reservations := [(4, 0)] }
    queue := [entryOf 3 2 (.cycle 2), entryOf 7 2 (.cycle 6)]
    nextArrival := 8
    orders := upd s0.orders 1 fun _ => some (awaiting 0)
    cycles := tab fun c => match c.val with
      | 0 => { CycleRec.free with state := .opening, participants := [0, 1] }
      | 1 => { CycleRec.free with state := .resting, participants := [2] }
      | 2 => { CycleRec.free with state := .closing, participants := [3, 4] }
      | 3 => { CycleRec.free with state := .closing, participants := [5], cancelled := true }
      | 4 => { CycleRec.free with state := .restoring, participants := [6] }
      | 6 => { CycleRec.free with state := .closing, participants := [7], origins := [.order 1 true] }
      | _ => CycleRec.free }

theorem control_recorded : Control recorded := by
  constructor
  all_goals first
    | decide +kernel
    | exact pendingAgrees_of (by decide +kernel)
    | exact driverAgrees_of (by decide +kernel)

theorem witness_CancelByState :
    (∀ p ∈ [0, 1, 2, 3, 4, 5, 6, 16], Taken (intake 4 p recorded) 0 [] .cancelCycle ∧
      (slotFields (intake 4 p recorded).mem 0).param.toNat = p ∧ Control (intake 4 p recorded)) ∧
    (∀ c : RecNo, ∀ v, Origin.order 0 v ∉ recorded.cycles[c].origins) ∧
    ((recorded.cycles[(5 : RecNo)].state = .free ∧ recorded.cycles[(4 : RecNo)].state = .restoring) ∧
      recorded.cycles[(3 : RecNo)].state = .closing ∧ recorded.cycles[(3 : RecNo)].cancelled = true) ∧
    (recorded.cycles[(1 : RecNo)].state = .resting ∧ ∀ k ∈ recorded.cycles[(1 : RecNo)].participants,
      recorded.outlets[k].state = .resting) ∧
    (recorded.cycles[(0 : RecNo)].state = .opening ∧ ∀ k ∈ recorded.cycles[(0 : RecNo)].participants,
      recorded.outlets[k].pending = none ∧ (recorded.outlets[k].state = .opening ∨ recorded.outlets[k].state = .resting)) ∧
    (recorded.cycles[(2 : RecNo)].state = .closing ∧ recorded.cycles[(2 : RecNo)].cancelled = false) ∧
    recorded.orders[(1 : SlotNo)] ≠ none ∧
    allSettled { recorded.cycles[(6 : RecNo)] with cancelled := true, withdrawn := [7] } := by
  refine ⟨fun p hp => ⟨taken_of ?_, ?_, control_intake 4 p control_recorded⟩, by decide +kernel, by decide +kernel,
    by decide +kernel, by decide +kernel, by decide +kernel, by decide +kernel, by unfold allSettled; decide +kernel⟩
  · revert p
    decide +kernel
  · revert p
    decide +kernel

/-- Slot 0 POSTED with a CLEAR_FAULT order over outlets 48 and 1, in that order. -/
def clearTwo (s : State) : State := { s with mem := writeWords [] 0x1500 [1, 0x02000005, 0x0130], fifo := [0] }

/-- Every outlet in FAULT and marked, on usable phases; outlets 1 and 48 are on branch 1's shed list, outlet 1 alone is in its
round, and outlet 1's sense is true. -/
def faulted : State :=
  { atRest .fault with
    phases := Vector.replicate 3 { PhaseStatus.reset with live := true, present := true }
    outlets := Vector.replicate 48 { Outlet.reset with state := .fault, faultKind := some .welded, shedMark := true }
    shed := upd s0.shed 0 fun r => { r with list := [0, 47], round := [0], restoring := true, restoreCount := 5 }
    sense := upd s0.sense 0 fun _ => { raw := true, level := true, run := none } }

theorem witness_ClearFaultFollowsSense :
    (∀ s ∈ [faulted, atRest .fault, atRest .unknown, atRest .off, recorded], Taken (clearTwo s) 0 [] .clearFault ∧
      resolveTargets (clearTwo s).work (slotFields (clearTwo s).mem 0) = .ok [47, 0] ∧
      Taken (intake 5 0 s) 0 [] .clearFault ∧
      resolveTargets (intake 5 0 s).work (slotFields (intake 5 0 s).mem 0) = .ok [0] ∧ s.scanDue = false) ∧
    (∀ s ∈ [faulted, atRest .fault, atRest .unknown, atRest .off], s.outlets[(0 : OutletIx)].cycle = none) ∧
    ((∀ k ∈ [(0 : OutletIx), 47], faulted.outlets[k].state = .fault ∧ faulted.outlets[k].faultKind = some .welded ∧
        faulted.usable (phaseOfBranch faulted.work.outlets[k].branch) = true) ∧
      (faulted.sense[(0 : OutletIx)].level = true ∧ faulted.sense[(47 : OutletIx)].level = false) ∧
      logUsed (clearTwo faulted).mem + 2 ≤ 256 ∧ (intake 5 0 faulted).logFull = false ∧
      (atRest .fault).usable (phaseOfBranch (atRest .fault).work.outlets[(0 : OutletIx)].branch) = false) ∧
    recorded.outlets[(0 : OutletIx)].cycle ≠ none := by
  refine ⟨fun s hs => ⟨taken_of ?_, ?_, taken_of ?_, ?_⟩, by decide +kernel⟩
  all_goals
    revert s
    decide +kernel

/-- R71, R176, R128: two members, one found OFF and one found ON, which leaves list and round; the order is DONE. -/
theorem test_clearFault_two : after (.clearFault 5000) (clearTwo faulted) (fun u =>
      ([u.outlets[(0 : OutletIx)], u.outlets[(47 : OutletIx)]].map fun o => (o.state, o.shedMark), u.shed[(0 : Branch)],
        readWord u.mem 0x1518)) =
    some ([(.on, false), (.off, true)], { ShedRec.reset with list := [47] }, 0xFF000001#32) := by decide +kernel

theorem witness_ClearEnergySetsRequests :
    taken (intake 6 0 s0) ∧ orderKindOf (slotFields (intake 6 0 s0).mem 0).kind = some .clearEnergy ∧
      resolveTargets (intake 6 0 s0).work (slotFields (intake 6 0 s0).mem 0) = .ok [0] := by
  decide +kernel

theorem witness_LatchOrderByState (l : LatchState) :
    let s := intake 7 0 { s0 with pub := { Publisher.reset with latch := l } }
    taken s ∧ orderKindOf (slotFields s.mem 0).kind = some .latchEnergy ∧ s.pub.latch = l := by
  cases l <;> decide +kernel

theorem witness_RearmByWatchState (x : WatchState) :
    let s := intake 8 23 { s0 with watches := Vector.replicate 24 { WatchRec.reset with state := x } }
    taken s ∧ orderKindOf (slotFields s.mem 0).kind = some .rearmWatch ∧
      (slotFields s.mem 0).param.toNat = (23 : WatchNo).val ∧ s.watches[(23 : WatchNo)].state = x := by
  cases x <;> decide +kernel

/-- R173: parameters that name no watch. -/
theorem witness_RearmByWatchState_no_watch : ∀ p ∈ [24, 255, 2 ^ 32 - 1],
    taken (intake 8 p s0) ∧ orderKindOf (slotFields (intake 8 p s0).mem 0).kind = some .rearmWatch ∧
      24 ≤ (slotFields (intake 8 p s0).mem 0).param.toNat ∧
      after (.rearmWatch 5) (intake 8 p s0) (fun u => (slotState u.mem 0, readWord u.mem 0x1518)) =
        some (4, 0xFF002308#32) := by decide +kernel

theorem witness_MemberAnswersFinishOrder :
    let two : OrderEntry := { awaiting 0 with members := [(0, none), (47, none)] }
    MemWf s0.mem ∧ ({ s0 with orders := Vector.replicate 32 (some two) } : State).orders[(31 : SlotNo)] = some two ∧
    (∃ m ∈ answered two.members 47 .ok, m.2 = none) ∧ (∀ m ∈ answered (awaiting 0).members 0 .ok, m.2 ≠ none) ∧
    (∀ m ∈ answered (awaiting 0).members 0 .ok, m.2 = some .ok) ∧
    (∃ m ∈ answered (awaiting 0).members 0 .faulted, m.2 ≠ some .ok) ∧ (awaiting 0).fields.notify = false ∧
    s0.logFull = false := by decide +kernel

/-! ### Witnesses: the host port and the computations -/

theorem witness_ReadShiftsOutWords : s0.resetting = none := rfl

theorem witness_RegisterAndStrayAccesses : s0.resetting = none ∧ MemWf s0.mem ∧ ((1 : Byte) ≠ 2 ∧ (1 : Byte) ≠ 3) ∧
    ((4 : Byte) ≠ 2 ∧ (4 : Byte) ≠ 3) ∧ 0x4014 ≤ (0x4014 : Half).toNat ∧ 0x4014 ≤ (0xFFFF : Half).toNat ∧
    (1 : Word) ≠ 0 := by
  decide +kernel

/-- R183: a read of two bytes at 0x4000, and a transfer that ends within its address. -/
theorem test_transferCommand : transferCommand 5 [3, 0x40, 0x00, 0, 0] = some (.read 5 0x4000 2) ∧
    transferCommand 5 [2, 0x40] = none ∧ transferCommand 5 [4, 1, 2] = some (.illegalCommand 5 4 2) := by decide +kernel

theorem witness_TransferWritesItsWordsInOrder : s0.resetting = none ∧
    (0xFFFC : Half).toNat = 256 * (0xFF : Byte).toNat + (0xFC : Byte).toNat ∧ ((1 : Byte) ≠ 2 ∧ (1 : Byte) ≠ 3) ∧
    ([0, 0, 0] : List Byte).length < 4 + (4 - (0xFFFC : Half).toNat % 4) % 4 ∧
    ([0] : List Byte).length = (4 - (0xFFFF : Half).toNat % 4) % 4 ∧ ([1, 2, 3, 4] : List Byte).length = 4 ∧
    (0xFFFC : Half).toNat % 4 = 0 := by decide +kernel

theorem witness_HostWordOwnership : s0.resetting = none ∧ MemWf s0.mem ∧ (0x3FFC : Half).toNat % 4 = 0 ∧
    hostBytes (0x3FFC : Half).toNat = true ∧ hostBytes (0x10 : Half).toNat = true ∧
    ((0x2C84 : Half).toNat < 0x4000 ∧ (0x2C84 : Half).toNat % 4 = 0 ∧ hostBytes (0x2C84 : Half).toNat = false ∧
      slotArea (0x2C84 : Half).toNat = false ∧ (0x2C84 : Half).toNat ≠ 0x1C ∧ (0x2C84 : Half).toNat ≠ 0x20) := by
  decide +kernel

/-- Slot 0 is held by an order in progress. -/
def heldSlot : State := { s0 with orders := Vector.replicate 32 (some (awaiting 0)) }

theorem witness_SlotWordOwnership : s0.resetting = none ∧ MemWf s0.mem ∧ heldSlot.orders[(0 : SlotNo)] ≠ none ∧
    s0.orders[(31 : SlotNo)] = none ∧ 1 < (2 : Word).toNat ∧ (1 : Word).toNat ≤ 1 ∧
    (0 < (5 : Fin 16).val ∧ (5 : Fin 16).val < 6) ∧ 6 ≤ (6 : Fin 16).val := by decide +kernel

theorem witness_LatchStateWriteTable : s0.resetting = none ∧ MemWf s0.mem ∧ s0.pub.latch ≠ .pending ∧ (1 : Word) ≠ 0 ∧
    ({ s0 with pub := { Publisher.reset with latch := .pending } } : State).pub.latch = .pending := by decide +kernel

/-- The write count `w`, with the read mark at 0. -/
def counted (w : Word) : State := { s0 with mem := writeWord [] 0x18 w }

theorem witness_NoticeAppendOrMiss :
    (MemWf (counted 256).mem ∧ 65535 < 65536 ∧ 255 < 256) ∧
    (256 ≤ ((counted 256).writeCount - readWord (counted 256).mem 0x14).toNat ∧
      ((counted 0x7FFFFFFF).writeCount - readWord (counted 0x7FFFFFFF).mem 0x14).toNat < 2 ^ 31) ∧
    ((counted 255).writeCount - readWord (counted 255).mem 0x14).toNat < 256 ∧
    2 ^ 31 ≤ ((counted 0x80000000).writeCount - readWord (counted 0x80000000).mem 0x14).toNat := by decide +kernel

theorem witness_AimAndQueuePlace : ((500000 ≤ 512300 ∧ 7700 ≤ 7700 ∧ 7700 ≤ 11100 ∧ 2000 ≤ 2000 ∧ 2000 ≤ 30000) ∧
    500000 ≤ 500000 ∧ 7700 ≤ 11100 ∧ 11100 ≤ 11100 ∧ 2000 ≤ 30000 ∧ 30000 ≤ 30000) ∧
    waiting.queue.Pairwise (fun x y => x.cls ≤ y.cls) ∧ ([] : List QueueEntry).Pairwise (fun x y => x.cls ≤ y.cls) ∧
    -- an assignment on a LIVE and on a DEAD phase
    ((crossed true 16).phases[(0 : Phase)].live = true ∧
      (crossed true 16).phases[(0 : Phase)].last = some (10000, .falling) ∧
      (crossed true 16).phases[(0 : Phase)].half = some 10000 ∧ (crossed false 0).phases[(0 : Phase)].live = false) := by
  decide +kernel

/-! ### Witnesses: the work of a close -/

theorem witness_OutletWorkAtClose_closes :
    (closesFrame s0 1000000 (.frameClose 1000000) ∧ closesFrame (locked 0) 40000 (.phaseDead 40000 0) ∧
      closesFrame (lockDue 0) 12000 (.zeroCrossing 12000 0 .rising) ∧
      closesFrame (locked 49) 12000 (.zeroCrossing 12000 0 .rising)) ∧
    (s0.resetting = none ∧ MemWf s0.mem) ∧ ((locked 0).resetting = none ∧ MemWf (locked 0).mem) ∧
    ((lockDue 0).resetting = none ∧ MemWf (lockDue 0).mem) ∧ (locked 49).resetting = none ∧ MemWf (locked 49).mem :=
  ⟨closes_each_kind, by decide +kernel⟩

theorem witness_OutletWorkAtClose :
    let usable : State := { s0 with phases := Vector.replicate 3 { PhaseStatus.reset with live := true, present := true } }
    let on : Outlet := { Outlet.reset with state := .on, wholeFrame := true }
    let off : Outlet := { Outlet.reset with state := .off, weld := true, unverified := some .toClosed }
    MemWf usable.mem ∧ usable.usable (phaseOfBranch Settings.default.outlets[(47 : OutletIx)].branch) = true ∧
    s0.usable (phaseOfBranch Settings.default.outlets[(47 : OutletIx)].branch) = false ∧
    (s0.outlets[(47 : OutletIx)].state = .unknown ∧ s0.outlets[(47 : OutletIx)].drop = false ∧
      s0.outlets[(47 : OutletIx)].weld = false ∧ s0.outlets[(47 : OutletIx)].wholeFrame = false) ∧
    (on.state = .on ∧ on.drop = false ∧ on.unverified = none ∧ on.wholeFrame = true) ∧
    (off.state = .off ∧ off.weld = true ∧ off.unverified = some .toClosed) ∧
    (s0.sense[(47 : OutletIx)].level = false ∧ false ≠ (Dir.toClosed == .toClosed) ∧ false = (Dir.toOpen == .toClosed)) ∧
    usable.logFull = false ∧ ∀ c : RecNo, (47 : OutletIx) ∉ usable.cycles[c].participants := by decide +kernel

theorem witness_OutletWorkAtClose_scheduler :
    let closed := { Settings.default with strip := { Settings.default.strip with queuePatience := 60 } }
    let expired := fun (s : State) (x : QueueEntry) => x.instant + s.work.strip.queuePatience * 1000000 ≤ s.now
    (∀ first, Control (late first)) ∧
    (∀ first, MemWf (late first).mem ∧ (late first).logFull = false ∧
      closed.strip.queuePatience ≠ (late first).work.strip.queuePatience ∧
      Settings.default.strip.queuePatience = (late first).work.strip.queuePatience) ∧
    (entryOf 0 1 (.order 0) ∈ (late true).queue ∧ expired (late true) (entryOf 0 1 (.order 0)) ∧
      (∀ y ∈ (late true).queue, expired (late true) y → y = entryOf 0 1 (.order 0)) ∧
      (late true).orders[(0 : SlotNo)] = some (awaiting 0) ∧ ((0 : OutletIx), none) ∈ (awaiting 0).members) ∧
    entryOf 2 3 (.restore 0) ∈ (late false).queue ∧ expired (late false) (entryOf 2 3 (.restore 0)) ∧
      ∀ y ∈ (late false).queue, expired (late false) y → y = entryOf 2 3 (.restore 0) :=
  ⟨control_late, by decide +kernel⟩

/-- Branch 1 with shed enabled, `load` measured; outlets 1 and 2 on it with ranks 1 and 7, the others of rank 0. -/
def shedding (st : OutletState) (load : Nat) (r : ShedRec) : State :=
  { inState st with
    shed := Vector.replicate 6 r
    loads := Vector.replicate 6 { BranchLoad.reset with measured := load }
    work := { Settings.default with
      branches := Vector.replicate 6 { Settings.default.branches[(0 : Branch)] with shedEnable := true }
      outlets := tab fun k => { Settings.default.outlets[k] with
        branch := 0, shedRank := if k.val = 0 then 1 else if k.val = 1 then 7 else 0 } } }

theorem witness_ShedMonitorAtClose :
    let r := { ShedRec.reset with overloadCount := 2 }
    let s := shedding .on 15001 r
    (MemWf s.mem ∧ s.work.branches[(0 : Branch)].shedEnable = true ∧ s0.work.branches[(0 : Branch)].shedEnable = false) ∧
    (s.work.branches[(0 : Branch)].restoreLevel < s.loads[(0 : Branch)].measured ∧
      1 ≤ s.work.branches[(0 : Branch)].shedFrames ∧ 1 ≤ s.work.branches[(0 : Branch)].restoreFrames) ∧
    (s.work.branches[(0 : Branch)].shedLevel < s.loads[(0 : Branch)].measured ∧
      s.work.branches[(0 : Branch)].shedFrames ≤ r.overloadCount + 1 ∧ r.overload = false) ∧
    ¬(s.work.branches[(0 : Branch)].shedLevel < 15000) ∧
    (logUsed s.mem + 2 ≤ 256 ∧ s.work.outlets[(1 : OutletIx)].branch = 0 ∧ s.outlets[(1 : OutletIx)].state = .on ∧
      s.outlets[(1 : OutletIx)].cycle = none ∧ s.work.outlets[(1 : OutletIx)].shedRank ≠ 0) ∧
    ∀ j : OutletIx, s.work.outlets[j].shedRank < s.work.outlets[(1 : OutletIx)].shedRank ∨
      s.work.outlets[j].shedRank = s.work.outlets[(1 : OutletIx)].shedRank ∧ j ≤ 1 := by decide +kernel

theorem witness_RestoreAtClose :
    let r := { ShedRec.reset with restoreCount := 9, list := [0, 1] }
    let s := { shedding .off 11000 r with
      outlets := Vector.replicate 48 { Outlet.reset with state := .off, shedMark := true } }
    (MemWf s.mem ∧ s.work.branches[(0 : Branch)].shedEnable = true ∧
      s.loads[(0 : Branch)].measured ≤ s.work.branches[(0 : Branch)].restoreLevel ∧
      s.work.branches[(0 : Branch)].restoreLevel < s.work.branches[(0 : Branch)].shedLevel ∧
      1 ≤ s.work.branches[(0 : Branch)].shedFrames ∧ r.list.Nodup) ∧
    (r.restoring = false ∧ min (r.restoreCount + 1) s.work.branches[(0 : Branch)].restoreFrames =
      s.work.branches[(0 : Branch)].restoreFrames) ∧
    (∀ k ∈ r.list, s.outlets[k].state = .off ∧ s.outlets[k].shedMark = true ∧ s.outlets[k].cycle = none) ∧
    s.logFull = false ∧ ({ r with round := [0, 1] } : ShedRec).round = [0, 1] ∧
    s0.work.branches[(0 : Branch)].shedEnable ≠ s.work.branches[(0 : Branch)].shedEnable := by decide +kernel

/-- HOLD as the host wrote it. -/
def held (v : Word) : State := { s0 with mem := writeWord [] 0x10 v }

theorem witness_SettingsTakeChecks : MemWf (held 1).mem ∧ readWord (held 1).mem 0x10 ≠ 0 ∧ MemWf s0.mem ∧
    readWord s0.mem 0x10 = 0 ∧ s0.logFull = false := by decide +kernel

theorem witness_LatchCopyAtClose :
    let clear : OrderEntry := { awaiting 0 with fields := { (awaiting 0).fields with kind := 6 } }
    let s : State := { s0 with
      pub := { Publisher.reset with latch := .pending, latchList := [1, 31] }
      orders := Vector.replicate 32 (some clear)
      meter := Vector.replicate 48 { MeterOutlet.opened 0 0 0 with clearReq := true } }
    closesFrame s 1000000 (.frameClose 1000000) ∧ s.resetting = none ∧ MemWf s.mem ∧
    (s.pub.latch = .pending ∧ s.pub.latchList.Nodup ∧ s.pub.latchList = 1 :: [31] ∧ s.orders[(1 : SlotNo)] ≠ none ∧
      s.orders[(31 : SlotNo)] ≠ none) ∧ s0.pub.latch ≠ .pending ∧
    (s.orders[(0 : SlotNo)] = some clear ∧ orderKindOf clear.fields.kind = some .clearEnergy ∧ clear.members ≠ [] ∧
      (0 : SlotNo) ∉ s.pub.latchList ∧ ∀ m ∈ clear.members, m.2 = none ∧ s.meter[m.1].clearReq = true) :=
  ⟨⟨rfl, rfl, by decide⟩, by decide +kernel⟩

/-- Watch 0 over outlet 1, band 100, in state `st` with `left` frames left and reference 500; outlet 1 in state `o`. -/
def watched (st : WatchState) (left : Nat) (o : OutletState) (action : WatchAction) : State :=
  { inState o with
    watches := Vector.replicate 24 { WatchRec.reset with state := st, framesLeft := left, reference := some 500 }
    work := { Settings.default with
      watches := Vector.replicate 24
        { Settings.default.watches[(0 : WatchNo)] with enable := true, members := [0], band := 100, action := action } } }

theorem witness_WatchExaminedAtClose :
    let seen := fun (st : OutletState) => Vector.replicate 48 st
    ((0 : OutletIx) ∈ (watched .watching 1 .on .note).work.watches[(0 : WatchNo)].members ∧
      (∀ k ∈ (watched .watching 1 .on .note).work.watches[(0 : WatchNo)].members, (seen .on)[k] = .on) ∧
      (seen .resting)[(0 : OutletIx)] = .resting ∧
      ∀ k ∈ (watched .grace 1 .off .note).work.watches[(0 : WatchNo)].members, (seen .off)[k] = .off) ∧
      (watched .watching 1 .on .note).watches[(0 : WatchNo)].state = .watching ∧
      (watched .grace 1 .on .note).watches[(0 : WatchNo)].state = .grace ∧
      (watched .watching 2 .on .note).watches[(0 : WatchNo)].framesLeft = 2 ∧
      (watched .watching 1 .on .note).work.watches[(0 : WatchNo)].action = .note ∧
      readHalf (watched .watching 1 .on .note).mem 0x0818 = (watched .watching 1 .on .note).watches[(0 : WatchNo)].lastRenewal ∧
      readHalf (writeWord [] 0x0818 1) 0x0818 ≠ (watched .watching 1 .on .note).watches[(0 : WatchNo)].lastRenewal ∧
      (watched .watching 1 .on .note).watches[(0 : WatchNo)].reference = some 500 ∧
      (∀ sum ∈ [401, 599], ¬moved { WatchRec.reset with reference := some 500 } sum 100) ∧
      (∀ sum ∈ [400, 600], moved { WatchRec.reset with reference := some 500 } sum 100) ∧
      ¬moved { WatchRec.reset with reference := none } 5 100 := by
  unfold moved
  decide +kernel

theorem witness_WatchExpiryAndResumption :
    let s := watched .watching 1 .on .cycle
    let x := s.watches[(0 : WatchNo)]
    let cfg := s.work.watches[(0 : WatchNo)]
    (MemWf s.mem ∧ cfg.action = .cycle ∧ x.framesLeft ≤ 1 ∧ cfg.members = [0] ∧ readHalf s.mem 0x0818 = x.lastRenewal) ∧
    (x.consecutive < cfg.cycleLimit ∧ ¬({ x with consecutive := 3 } : WatchRec).consecutive < cfg.cycleLimit) ∧
    logUsed s.mem + 2 ≤ 256 ∧ (s.outlets[(0 : OutletIx)].state = .on ∧ s.outlets[(0 : OutletIx)].cycle = none) ∧
    ((watched .expiredWait 0 .off .cycle).watches[(0 : WatchNo)].state = .expiredWait ∧
      (watched .lapsed 0 .on .note).watches[(0 : WatchNo)].state = .lapsed) ∧
    readHalf (writeWord [] 0x0818 1) 0x0818 ≠ x.lastRenewal := by decide +kernel

theorem witness_WatchTakeActs :
    let s := fun (enable : Bool) (st : WatchState) => ({ s0 with
      watches := Vector.replicate 24 { WatchRec.reset with state := st, record := some 15 }
      work := { Settings.default with
        watches := Vector.replicate 24 { Settings.default.watches[(0 : WatchNo)] with enable := enable, members := [0] } } } : State)
    (s false .cycling).work.watches[(23 : WatchNo)].enable = false ∧ (s false .cycling).watches[(23 : WatchNo)].state = .cycling ∧
      (s false .cycling).watches[(23 : WatchNo)].record = some 15 ∧
      ((s true .disarmed).work.watches[(23 : WatchNo)].enable = true ∧ (s true .disarmed).work.watches[(23 : WatchNo)].members ≠ []) ∧
      (s true .disarmed).watches[(23 : WatchNo)].state = .disarmed ∧ (s true .watching).watches[(23 : WatchNo)].state ≠ .disarmed := by
  decide +kernel

/-! ### Witnesses: every step -/

/-- A state in reset, where no record need be shown, with a command waiting. -/
def atReset : State := { s0 with resetting := some .powerOn, pending := [.rawSenseChange 5 0 true] }

theorem witness_InvariantKeptByStep : Inv atReset ∧ ∃ u, step atReset = .next u := by
  refine ⟨⟨memWf_nil, ⟨by decide +kernel, by decide +kernel⟩, ?_, ?_, ?_, nofun, List.nodup_nil, rfl⟩, _, rfl⟩
  · unfold energyInRange
    decide +kernel
  · unfold estimatesInRange
    decide +kernel
  · unfold timebaseAgrees
    decide +kernel

theorem witness_ControlKeptByStep : Control waiting ∧ waiting.resetting = none ∧
    ∃ u, exec (.rawSenseChange 5 0 true) waiting = .next u ∧ u.resetting = none := ⟨control_waiting, rfl, _, rfl, rfl⟩

theorem witness_CommandsWriteOnlyTheirBytes :
    exec (.maskWrite 0 0) s0 = .next { s0 with mask := 0 } ∧ hostBytes 0x10 = true ∧
      writtenBytes (.hostWordWrite 0 0x10 []) 0x10 = true := ⟨rfl, by decide +kernel, by decide +kernel⟩

theorem witness_StateChangedOnlyByItsCommands :
    exec .powerOnReset s0 = .next (s0.beginReset .powerOn) ∧ Instr.powerOnReset ≠ .endOfReset := ⟨rfl, nofun⟩

end Sys2Proof.Tests
end

section
/-! SUPPORT. Which words of a slot its take and its finish write, and which bytes they and a notice leave as they are (R172,
R180, R191). -/
namespace Sys2Proof.Machine

open Sys2Proof.Safety

/-- A word none of whose bytes may change reads as before. -/
theorem MemStep.readWord {p : Nat → Bool} {m m' : Mem} (h : MemStep p m m') (a : Nat)
    (ha : ∀ i, i < 4 → p (a + i) = false) : readWord m' a = readWord m a :=
  readWord_congr a fun i hi => h.bytes _ (ha i hi)

theorem within_mono {lo len lo' len' a : Nat} (hlo : lo' ≤ lo) (hlen : lo + len ≤ lo' + len')
    (h : within lo len a = true) : within lo' len' a = true := by
  simp only [within, Bool.and_eq_true, decide_eq_true_eq] at h ⊢
  omega

/-! ### Slots -/

theorem slotAddr_bounds (e : SlotNo) : 0x1500 ≤ slotAddr e ∧ slotAddr e + 64 ≤ 0x1D00 := by
  have := e.isLt
  simp only [slotAddr]
  omega

/-- No header word and no log byte lies in a slot. -/
theorem slotBytes_outside (e : SlotNo) {a : Nat} (h : a < 0x1500 ∨ 0x1D00 ≤ a) : slotBytes e a = false := by
  have := slotAddr_bounds e
  simp only [slotBytes, within, Bool.and_eq_false_iff, decide_eq_false_iff_not]
  omega

/-- No slot byte is changed by a notice. -/
theorem noticeBytes_slot (e : SlotNo) {d : Nat} (hd : d < 64) : noticeBytes (slotAddr e + d) = false := by
  have := slotAddr_bounds e
  simp only [noticeBytes, within, addrWriteCount, Bool.or_eq_false_iff, Bool.and_eq_false_iff, decide_eq_false_iff_not]
  omega

theorem memStep_writeTaken_slot (m : Mem) (e : SlotNo) (stamp : Word) :
    MemStep (slotBytes e) m (writeTaken m e stamp) :=
  ((memStep_writeWord m _ _).mono fun _ => within_mono (Nat.le_refl _) (by omega)).trans
    ((memStep_writeWords _ _ _).mono fun _ => within_mono (by omega)
      (by simp only [List.length_cons, List.length_nil]; omega))

theorem slotState_writeTaken {m : Mem} (e : SlotNo) (stamp : Word) (h : MemWf m) :
    slotState (writeTaken m e stamp) e = 2 := by
  simp only [slotState, writeTaken]
  rw [readWord_writeWords_other _ _ _ _ (by omega), readWord_writeWord_same _ _ _ h]
  rfl

theorem memStep_writeResult_slot (m : Mem) (e : SlotNo) (r : OrderResult) (finish : Word) :
    MemStep (slotBytes e) m (writeResult m e r finish) :=
  (((memStep_writeWords m _ _).mono fun _ => within_mono (by omega)
      (by simp only [List.length_cons, List.length_nil]; omega)).trans
    ((memStep_writeWord _ _ _).mono fun _ => within_mono (by omega) (by omega))).trans
    ((memStep_writeWord _ _ _).mono fun _ => within_mono (Nat.le_refl _) (by omega))

theorem slotState_writeResult {m : Mem} (e : SlotNo) (r : OrderResult) (finish : Word) (h : MemWf m) :
    slotState (writeResult m e r finish) e = if r.outcome = .refused then 4 else 3 := by
  simp only [slotState, writeResult]
  rw [readWord_writeWord_same _ _ _ (memWf_writeWord _ _ (memWf_writeWords _ _ h))]
  split <;> rfl

/-- The first result word: outcome, reason, detail and record (R180, 11.6). -/
theorem outcomeWord_writeResult {m : Mem} (e : SlotNo) (r : OrderResult) (finish : Word) (h : MemWf m) :
    readWord (writeResult m e r finish) (slotAddr e + 0x18) =
      BitVec.ofNat 32 (fld r.outcome.code 0 8 + fld (optCode Reason.code r.reason) 8 8 +
        fld (optCode numberOf r.detail) 16 8 + fld (match r.record with | none => 255 | some c => c.val) 24 8) := by
  simp only [writeResult]
  rw [readWord_writeWord_other _ _ _ _ (by omega), readWord_writeWord_other _ _ _ _ (by omega)]
  exact readWord_writeWords m (slotAddr e + 0x18) _ 0 (by simp only [List.length_cons]; omega) h

/-! ### Notices -/

/-- R191: a notice changes the header's two notice words and the log. -/
theorem memStep_notice_noticeBytes (s : State) (kind : NoticeKind) (subject reason : Nat) (value : Word) :
    MemStep noticeBytes s.mem (s.notice kind subject reason value).mem := by
  have header : ∀ a, within addrMissedKinds 4 a = true ∨ within addrWriteCount 4 a = true → noticeBytes a = true := by
    intro a ha
    have : within addrWriteCount 8 a = true := ha.elim (within_mono (by decide) (by decide))
      (within_mono (by decide) (by decide))
    simp [noticeBytes, this]
  have log : MemStep noticeBytes s.mem (writeNotice s.mem s.writeCount kind subject reason s.partTime value) :=
    ⟨memWf_writeNotice _ _ _ _ _ _, fun a ha =>
      readByte_writeNotice_other _ _ _ _ _ _ _ _ (Bool.or_eq_false_iff.mp ha).2⟩
  unfold State.notice
  split
  · exact (memStep_writeWord _ _ _).mono fun a ha => header a (.inl ha)
  · simp only [State.raise_mem]
    exact log.trans ((memStep_writeWord _ _ _).mono fun a ha => header a (.inr ha))

/-- Bits that are set stay set when more are raised. -/
theorem or_and_of_and {x bits : Word} (h : x &&& bits = bits) (y : Word) : (x ||| y) &&& bits = bits := by
  ext i hi
  have hb : (x &&& bits)[i] = bits[i] := by rw [h]
  rw [BitVec.getElem_and] at hb
  rw [BitVec.getElem_and, BitVec.getElem_or, Bool.and_or_distrib_right, hb]
  simp

/-- A notice clears no cause. -/
theorem notice_cause {s : State} {bits : Word} (h : s.cause &&& bits = bits) (kind : NoticeKind) (subject reason : Nat)
    (value : Word) : (s.notice kind subject reason value).cause &&& bits = bits := by
  unfold State.notice
  split
  · exact h
  · exact or_and_of_and h _

/-! ### The finish of an order (R180) -/

/-- The finish of an order before its notice: the result in the slot, the entry free, ORDER raised. -/
def State.resultShown (s : State) (e : SlotNo) (r : OrderResult) : State :=
  (({ s with mem := writeResult s.mem e r s.partTime }).setOrder e none).raise .order

theorem resultShown_eq (s : State) (e : SlotNo) (r : OrderResult) :
    s.resultShown e r = { s with
      mem := writeResult s.mem e r s.partTime, cause := s.cause ||| Cause.order.word
      orders := upd s.orders e fun _ => none } := by
  simp only [State.resultShown, State.raise, State.setOrder]

theorem resultShown_mem (s : State) (e : SlotNo) (r : OrderResult) :
    (s.resultShown e r).mem = writeResult s.mem e r s.partTime := by
  rw [resultShown_eq]

theorem resultShown_cause (s : State) (e : SlotNo) (r : OrderResult) : (s.resultShown e r).cause &&& 4#32 = 4#32 := by
  rw [resultShown_eq, BitVec.or_comm]
  exact or_and_of_and (by decide) _

/-- The finish of a held order shows the result, and files at most one notice after it. -/
theorem finishOrder_cases {s : State} {e : SlotNo} {entry : OrderEntry} (h : s.orders[e] = some entry)
    (r : OrderResult) : s.finishOrder e r = s.resultShown e r ∨
      ∃ value, s.finishOrder e r = (s.resultShown e r).notice .orderFinished e.val r.outcome.code value := by
  unfold State.finishOrder
  rw [h]
  dsimp only
  split
  · exact .inr ⟨_, rfl⟩
  · exact .inl rfl

/-- What the finish of a held order changes beside the bytes of memory. -/
theorem finishOrder_same {s : State} {e : SlotNo} {entry : OrderEntry} (h : s.orders[e] = some entry)
    (r : OrderResult) : s.finishOrder e r = { s with
      mem := (s.finishOrder e r).mem, cause := (s.finishOrder e r).cause, orders := upd s.orders e fun _ => none } := by
  have shown := resultShown_eq s e r
  rcases finishOrder_cases h r with hf | ⟨value, hf⟩
  · rw [hf, shown]
  · have noticed := notice_same (s.resultShown e r) .orderFinished e.val r.outcome.code value
    rw [← hf] at noticed
    generalize s.finishOrder e r = u at noticed ⊢
    exact noticed.trans (by rw [shown])

/-- The notice of a finish is filed outside the result's words. -/
theorem memStep_finishOrder_result {s : State} {e : SlotNo} {entry : OrderEntry} (h : s.orders[e] = some entry)
    (r : OrderResult) : MemStep noticeBytes (writeResult s.mem e r s.partTime) (s.finishOrder e r).mem := by
  rcases finishOrder_cases h r with hf | ⟨value, hf⟩
  · rw [hf, resultShown_mem]
    exact .refl _ _
  · have filed := memStep_notice_noticeBytes (s.resultShown e r) .orderFinished e.val r.outcome.code value
    rw [← hf, resultShown_mem] at filed
    exact filed

theorem memStep_finishOrder {s : State} {e : SlotNo} {entry : OrderEntry} (h : s.orders[e] = some entry)
    (r : OrderResult) : MemStep (fun a => slotBytes e a || noticeBytes a) s.mem (s.finishOrder e r).mem :=
  ((memStep_writeResult_slot _ _ _ _).mono fun a ha => by simp [ha]).trans
    ((memStep_finishOrder_result h r).mono fun a ha => by simp [ha])

/-- A word of the slot reads as the result left it. -/
theorem readWord_finishOrder_slot {s : State} {e : SlotNo} {entry : OrderEntry} (h : s.orders[e] = some entry)
    (r : OrderResult) {d : Nat} (hd : d + 4 ≤ 64) :
    readWord (s.finishOrder e r).mem (slotAddr e + d) = readWord (writeResult s.mem e r s.partTime) (slotAddr e + d) :=
  (memStep_finishOrder_result h r).readWord _ fun i hi => by
    rw [Nat.add_assoc]
    exact noticeBytes_slot e (by omega)

theorem slotState_finishOrder {s : State} {e : SlotNo} {entry : OrderEntry} (h : s.orders[e] = some entry)
    (r : OrderResult) (wf : MemWf s.mem) :
    slotState (s.finishOrder e r).mem e = if r.outcome = .refused then 4 else 3 := by
  rw [← slotState_writeResult e r s.partTime wf]
  exact congrArg BitVec.toNat (readWord_finishOrder_slot h r (d := 0) (by decide))

theorem finishOrder_cause {s : State} {e : SlotNo} {entry : OrderEntry} (h : s.orders[e] = some entry)
    (r : OrderResult) : (s.finishOrder e r).cause &&& 4#32 = 4#32 := by
  rcases finishOrder_cases h r with hf | ⟨value, hf⟩
  · rw [hf]
    exact resultShown_cause _ _ _
  · rw [hf]
    exact notice_cause (resultShown_cause _ _ _) _ _ _ _

/-! ### The take (R172) -/

theorem take1_of_head {s : State} {e : SlotNo} {rest : List SlotNo} {kind : Option OrderKind} (hf : s.fifo = e :: rest)
    (posted : slotState s.mem e = 1) (hk : orderKindOf (slotFields s.mem e).kind = kind)
    (work : SlotNo → SlotFields → State → State) :
    s.take1 kind work = work e (slotFields s.mem e) (s.hold e rest) := by
  simp only [State.take1, hf]
  exact if_pos ⟨posted, hk⟩

theorem hold_mem (s : State) (e : SlotNo) (rest : List SlotNo) :
    (s.hold e rest).mem = writeTaken s.mem e s.partTime := by
  simp only [State.hold, State.setOrder_mem]

theorem memStep_hold (s : State) (e : SlotNo) (rest : List SlotNo) : MemStep (slotBytes e) s.mem (s.hold e rest).mem := by
  rw [hold_mem]
  exact memStep_writeTaken_slot _ _ _

theorem slotState_hold {s : State} (e : SlotNo) (rest : List SlotNo) (h : MemWf s.mem) :
    slotState (s.hold e rest).mem e = 2 := by
  rw [hold_mem]
  exact slotState_writeTaken e _ h

theorem hold_orders_same (s : State) (e : SlotNo) (rest : List SlotNo) :
    (s.hold e rest).orders[e] = some { fields := slotFields s.mem e, members := [], record := none } :=
  getElem_upd_same _ _ _

theorem hold_orders_other (s : State) {e j : SlotNo} (rest : List SlotNo) (h : j ≠ e) :
    (s.hold e rest).orders[j] = s.orders[j] :=
  getElem_upd_other _ _ _ _ h

end Sys2Proof.Machine
end

section
/-! PROOF. LATCH_ENERGY by the state of the latch, and the host's write to the latch state word (R46, R48). -/
namespace Sys2Proof.Machine

open Sys2Proof.Safety

/-! ### LATCH_ENERGY (R46) -/

theorem latchOrder_empty {s : State} (h : s.pub.latch = .empty) (e : SlotNo) :
    s.latchOrder e = { s with
      mem := writeWord s.mem addrLatchState 1#32, pub := { s.pub with latch := .pending, latchList := [e] } } := by
  simp only [State.latchOrder, h]
  rfl

theorem latchOrder_pending {s : State} (h : s.pub.latch = .pending) (e : SlotNo) :
    s.latchOrder e = { s with pub := { s.pub with latchList := s.pub.latchList ++ [e] } } := by
  simp only [State.latchOrder, h]

theorem latchOrder_full {s : State} (h : s.pub.latch = .full) (e : SlotNo) :
    s.latchOrder e = s.finishOrder e (.plain .merged none none none) := by
  simp only [State.latchOrder, h]

/-- What a LATCH_ENERGY order held by the order table changes. -/
theorem latchOrder_same {s : State} {e : SlotNo} {entry : OrderEntry} (he : s.orders[e] = some entry) :
    s.latchOrder e = { s with
      mem := (s.latchOrder e).mem, cause := (s.latchOrder e).cause, orders := (s.latchOrder e).orders
      pub := { (s.latchOrder e).pub with closedSeq := s.pub.closedSeq } } := by
  cases h : s.pub.latch with
  | empty => rw [latchOrder_empty h]
  | pending => rw [latchOrder_pending h]
  | full =>
    rw [latchOrder_full h, finishOrder_same he]

theorem latchOrder_orders_other {s : State} {e j : SlotNo} {entry : OrderEntry} (he : s.orders[e] = some entry)
    (h : j ≠ e) : (s.latchOrder e).orders[j] = s.orders[j] := by
  cases hl : s.pub.latch with
  | empty => rw [latchOrder_empty hl]
  | pending => rw [latchOrder_pending hl]
  | full =>
    rw [latchOrder_full hl, finishOrder_same he]
    exact getElem_upd_other _ _ _ _ h

theorem memStep_latchOrder {s : State} {e : SlotNo} {entry : OrderEntry} (he : s.orders[e] = some entry) :
    MemStep (fun a => slotBytes e a || noticeBytes a || within 0x20 4 a) s.mem (s.latchOrder e).mem := by
  cases h : s.pub.latch with
  | empty =>
    rw [latchOrder_empty h]
    exact (memStep_writeWord _ _ _).mono fun a ha => by simp [ha]
  | pending =>
    rw [latchOrder_pending h]
    exact .refl _ _
  | full =>
    rw [latchOrder_full h]
    exact (memStep_finishOrder he _).mono fun a ha => by simp [ha]

theorem exec_latchEnergy_of_taken {s : State} {e : SlotNo} {rest : List SlotNo} (h : Taken s e rest .latchEnergy)
    (due : s.scanDue = false) (t : Nat) :
    exec (.latchEnergy t) s = .next (((s.advance t).hold e rest).latchOrder e) := by
  have work : (s.advance t).take1 (some .latchEnergy) (fun e _ s => s.latchOrder e) =
      ((s.advance t).hold e rest).latchOrder e := take1_of_head (s := s.advance t) h.head h.posted h.kind _
  have same := latchOrder_same (hold_orders_same (s.advance t) e rest)
  have event : s.event t (fun s => s.take1 (some .latchEnergy) fun e _ s => s.latchOrder e) =
      ((s.advance t).hold e rest).latchOrder e := by
    rw [event_running_same h.running t _, work] <;> rw [work, same]
    · exact due
    all_goals rfl
  exact congrArg Host.Outcome.next event

/-- With EMPTY the order heads the waiting list, and the latch and its word become PENDING. -/
theorem latchOrder_of_empty {s : State} {e : SlotNo} (wf : MemWf s.mem) (h : s.pub.latch = .empty) :
    (s.latchOrder e).pub = { s.pub with latch := .pending, latchList := [e] } ∧
      readWord (s.latchOrder e).mem 0x20 = 1 ∧ slotState (s.latchOrder e).mem e = slotState s.mem e ∧
      (s.latchOrder e).orders = s.orders ∧ (s.latchOrder e).cause = s.cause := by
  have bounds := slotAddr_bounds e
  have elsewhere := readWord_writeWord_other s.mem addrLatchState (slotAddr e) 1#32
    (.inr (by simp only [addrLatchState]; omega))
  rw [latchOrder_empty h]
  exact ⟨rfl, readWord_writeWord_same _ _ _ wf, congrArg BitVec.toNat elsewhere, rfl, rfl⟩

/-- With PENDING the order joins the waiting list, and nothing else changes. -/
theorem latchOrder_of_pending {s : State} {e : SlotNo} (h : s.pub.latch = .pending) :
    (s.latchOrder e).pub = { s.pub with latchList := s.pub.latchList ++ [e] } ∧ (s.latchOrder e).mem = s.mem ∧
      (s.latchOrder e).orders = s.orders ∧ (s.latchOrder e).cause = s.cause := by
  rw [latchOrder_pending h]
  exact ⟨rfl, rfl, rfl, rfl⟩

/-- With FULL the order finishes MERGED. -/
theorem latchOrder_of_full {s : State} {e : SlotNo} {entry : OrderEntry} (wf : MemWf s.mem)
    (he : s.orders[e] = some entry) (h : s.pub.latch = .full) :
    (s.latchOrder e).pub = s.pub ∧ MemStep (fun a => slotBytes e a || noticeBytes a) s.mem (s.latchOrder e).mem ∧
      slotState (s.latchOrder e).mem e = 3 ∧ (s.latchOrder e).orders[e] = none ∧
      readWord (s.latchOrder e).mem (slotAddr e + 0x18) = 0xFF000004#32 ∧ (s.latchOrder e).cause &&& 4#32 = 4#32 := by
  rw [latchOrder_full h]
  refine ⟨?_, memStep_finishOrder he _, slotState_finishOrder he _ wf, ?_, ?_, finishOrder_cause he _⟩
  · rw [finishOrder_same he]
  · rw [finishOrder_same he]
    exact getElem_upd_same _ _ _
  · rw [readWord_finishOrder_slot he _ (by decide), outcomeWord_writeResult _ _ _ wf]
    rfl

/-- The latch word lies outside every slot and every notice byte. -/
theorem latchWord_outside (e : SlotNo) {i : Nat} (hi : i < 4) :
    slotBytes e (0x20 + i) = false ∧ noticeBytes (0x20 + i) = false := by
  refine ⟨slotBytes_outside e (by omega), ?_⟩
  simp only [noticeBytes, within, addrWriteCount, Bool.or_eq_false_iff, Bool.and_eq_false_iff, decide_eq_false_iff_not]
  omega

theorem latchWord_hold (s : State) (e : SlotNo) (rest : List SlotNo) :
    readWord (s.hold e rest).mem 0x20 = readWord s.mem 0x20 :=
  (memStep_hold s e rest).readWord _ fun _ hi => (latchWord_outside e hi).1

/-- Settles O37: the take of the order, then the latch's answer by its state. -/
theorem latchOrderByState : Obligations.LatchOrderByState := by
  unfold Obligations.LatchOrderByState
  intro s t e rest running due wf head posted kind
  have held := hold_orders_same (s.advance t) e rest
  have taken := slotState_hold (s := s.advance t) e rest wf
  have takeStep := memStep_hold (s.advance t) e rest
  have wfHeld := takeStep.wf wf
  have word := latchWord_hold (s.advance t) e rest
  refine ⟨_, exec_latchEnergy_of_taken ⟨running, wf, head, posted, kind⟩ due t, ?_, fun empty => ?_, fun pending => ?_,
    fun full => ?_, fun j hj => ?_, ?_⟩
  · rw [latchOrder_same held]
    rfl
  · obtain ⟨pub, latch, slot, orders, cause⟩ := latchOrder_of_empty (e := e) wfHeld empty
    refine ⟨pub, latch, slot.trans taken, ?_, cause⟩
    rw [orders, held]
    exact nofun
  · obtain ⟨pub, mem, orders, cause⟩ := latchOrder_of_pending (s := (s.advance t).hold e rest) (e := e) pending
    rw [mem, orders, held]
    exact ⟨pub, taken, nofun, cause, word⟩
  · obtain ⟨pub, finish, slot, entry, outcome, cause⟩ := latchOrder_of_full wfHeld held full
    have kept := finish.readWord 0x20 fun i hi => by simp [latchWord_outside e hi]
    exact ⟨pub, kept.trans word, slot, entry, outcome, cause⟩
  · exact (latchOrder_orders_other held hj).trans (hold_orders_other (s.advance t) rest hj)
  · exact ((takeStep.mono fun a ha => by simp [ha]).trans (memStep_latchOrder held)).bytes

/-! ### The host's write to the latch state word (R48) -/

theorem writeLatchState_zero {s : State} (h : s.pub.latch ≠ .pending) :
    s.writeLatchState 0 = { s with mem := writeWord s.mem addrLatchState 0#32, pub := { s.pub with latch := .empty } } :=
  if_pos ⟨rfl, h⟩

theorem writeLatchState_discarded {s : State} {v : Word} (h : v ≠ 0 ∨ s.pub.latch = .pending) :
    s.writeLatchState v = s.raise .collide :=
  if_neg fun ⟨zero, notPending⟩ => h.elim (· zero) notPending

/-- LATCH_STATE_WRITE reaches the latch word through the port's address map. -/
theorem exec_latchStateWrite_running {s : State} (h : s.resetting = none) (t : Nat) (v : Word) :
    exec (.latchStateWrite t v) s = .next ((s.advance t).writeLatchState v) := by
  have write : (s.advance t).hostWriteWord addrLatchState v = (s.advance t).writeLatchState v := by
    simp [State.hostWriteWord, State.writeMemWord, h, addrLatchState, addrIdent]
  exact congrArg Host.Outcome.next ((quietEvent_running h t _).trans write)

/-- Settles O45: by whether the write is of EMPTY to a latch that is not PENDING. -/
theorem latchStateWriteTable : Obligations.LatchStateWriteTable := by
  unfold Obligations.LatchStateWriteTable
  intro s t v running wf
  rw [exec_latchStateWrite_running running]
  refine ⟨fun zero notPending => ?_, fun discarded => ?_⟩
  · subst zero
    refine ⟨_, rfl, ?_⟩
    rw [writeLatchState_zero (s := s.advance t) notPending]
    exact ⟨rfl, readWord_writeWord_same _ _ _ wf, (memStep_writeWord _ _ _).bytes⟩
  · rw [writeLatchState_discarded (s := s.advance t) discarded]
    rfl

end Sys2Proof.Machine
end

section
/-! PROOF. The host's write to POST, by its value and by the slot it names (R170). -/
namespace Sys2Proof.Machine

/-- A FIFO without repeats holds at most every slot number once. -/
theorem fifo_length_le {s : State} (h : s.fifo.Nodup) : s.fifo.length ≤ 32 := by
  simpa using h.length_le_card

theorem held_iff {s : State} {e : SlotNo} : s.held e = true ↔ s.orders[e] ≠ none :=
  Option.isSome_iff_ne_none

theorem writePost_stray {s : State} {v : Word} (h : 32 ≤ v.toNat) : s.writePost v = s.raise .stray :=
  dif_neg (Nat.not_lt.mpr h)

/-- A value below 32 names the slot of that number. -/
theorem writePost_slot (s : State) (e : SlotNo) :
    s.writePost (BitVec.ofNat 32 e.val) =
      if e ∈ s.fifo ∨ s.held e then s.raise .collide else { s with fifo := s.fifo ++ [e] } := by
  have value : (BitVec.ofNat 32 e.val).toNat = e.val := Nat.mod_eq_of_lt (by omega)
  simp [State.writePost, value]

theorem writePost_collide {s : State} {e : SlotNo} (h : e ∈ s.fifo ∨ s.orders[e] ≠ none) :
    s.writePost (BitVec.ofNat 32 e.val) = s.raise .collide :=
  (writePost_slot s e).trans (if_pos (h.imp_right held_iff.mpr))

theorem writePost_append {s : State} {e : SlotNo} (queued : e ∉ s.fifo) (idle : s.orders[e] = none) :
    s.writePost (BitVec.ofNat 32 e.val) = { s with fifo := s.fifo ++ [e] } :=
  (writePost_slot s e).trans (if_neg fun h => h.elim queued fun held => held_iff.mp held idle)

/-- POST reaches the intake through the port's address map. -/
theorem exec_post_running {s : State} (h : s.resetting = none) (t : Nat) (v : Word) :
    exec (.post t v) s = .next ((s.advance t).writePost v) := by
  have write : (s.advance t).hostWriteWord addrPost v = (s.advance t).writePost v := by
    simp [State.hostWriteWord, h, addrIdent, addrControl, addrCause, addrMask, addrPost, addrUnmapped]
  exact congrArg Host.Outcome.next ((quietEvent_running h t _).trans write)

/-- Settles O29: by whether the value names a slot, and whether that slot is queued or held. -/
theorem postTable : Obligations.PostTable := by
  unfold Obligations.PostTable
  intro s t v running
  rw [exec_post_running running]
  refine ⟨fifo_length_le, fun noSlot => ?_, fun e value => ?_⟩
  · rw [writePost_stray noSlot]
    rfl
  · subst value
    refine ⟨fun queuedOrHeld => ?_, fun ⟨queued, idle⟩ => ?_⟩
    · rw [writePost_collide (s := s.advance t) queuedOrHeld]
      rfl
    · rw [writePost_append (s := s.advance t) queued idle]
      rfl

end Sys2Proof.Machine
end

section
/-! PROOF. What a fold of writes to disjoint regions leaves in one of them, and exchange memory at the end of a reset (R181, R185, R193,
R194). -/
namespace Sys2Proof.Machine

open Sys2Proof.Safety

theorem within_iff {lo len a : Nat} : within lo len a = true ↔ lo ≤ a ∧ a < lo + len := by
  simp only [within, Bool.and_eq_true, decide_eq_true_eq]

theorem within_eq_false {lo len a : Nat} : within lo len a = false ↔ a < lo ∨ lo + len ≤ a := by
  rw [← Bool.not_eq_true, within_iff]
  omega

/-! ### Writes to disjoint regions -/

/-- A fold over regions outside `q` leaves `q`. -/
theorem bytes_foldl {α : Type} {f : Mem → α → Mem} {p : α → Nat → Bool} (step : ∀ m x, MemStep (p x) m (f m x))
    (l : List α) (m : Mem) {a : Nat} (ha : ∀ x ∈ l, p x a = false) : readByte (l.foldl f m) a = readByte m a := by
  induction l generalizing m with
  | nil => rfl
  | cons x l ih =>
    rw [List.foldl_cons, ih _ fun y hy => ha y (List.mem_cons_of_mem x hy)]
    exact (step m x).bytes a (ha x List.mem_cons_self)

/-- In the region of `k` a fold over disjoint regions leaves what the step at `k` makes of the bytes it finds there. -/
theorem bytes_foldl_at {α : Type} {f : Mem → α → Mem} {p : α → Nat → Bool} (step : ∀ m x, MemStep (p x) m (f m x))
    (disjoint : ∀ x y a, x ≠ y → p x a = true → p y a = false) {l : List α} (nodup : l.Nodup) {k : α} (hk : k ∈ l)
    (m : Mem) : ∃ m', (MemWf m → MemWf m') ∧ (∀ a, p k a = true → readByte m' a = readByte m a) ∧
      ∀ a, p k a = true → readByte (l.foldl f m) a = readByte (f m' k) a := by
  induction l generalizing m with
  | nil => cases hk
  | cons x l ih =>
    obtain ⟨hx, hl⟩ := List.nodup_cons.mp nodup
    by_cases h : k = x
    · subst h
      refine ⟨m, id, fun _ _ => rfl, fun a ha => bytes_foldl step l _ fun y hy => disjoint k y a ?_ ha⟩
      rintro rfl
      exact hx hy
    · obtain ⟨m', wf, before, after⟩ := ih hl ((List.mem_cons.mp hk).resolve_left h) (f m x)
      refine ⟨m', wf ∘ (step m x).wf, fun a ha => (before a ha).trans ?_, after⟩
      exact (step m x).bytes a (disjoint k x a h ha)

/-- Records of `stride` bytes from `base` upward do not overlap. -/
theorem within_disjoint {n : Nat} (base stride : Nat) (x y : Fin n) (a : Nat) (h : x ≠ y)
    (ha : within (base + stride * x.val) stride a = true) : within (base + stride * y.val) stride a = false := by
  rw [within_iff] at ha
  rw [within_eq_false]
  rcases Nat.lt_or_gt_of_ne fun e => h (Fin.ext e) with lt | lt
  · have := Nat.mul_le_mul_left stride lt
    rw [Nat.mul_succ] at this
    omega
  · have := Nat.mul_le_mul_left stride lt
    rw [Nat.mul_succ] at this
    omega

/-- The words of record `k` after every record of a table has been written. -/
theorem readWord_foldl_writeWords {n : Nat} (base stride : Nat) (body : List Nat) (hs : 4 * body.length ≤ stride) (k : Fin n)
    {m : Mem} (wf : MemWf m) {i : Nat} (hi : i < body.length) :
    readWord ((indices n).foldl (fun m k => writeWords m (base + stride * k.val) body) m) (base + stride * k.val + 4 * i) =
      BitVec.ofNat 32 body[i] := by
  obtain ⟨m', wf', -, at_k⟩ := bytes_foldl_at (p := fun k : Fin n => within (base + stride * k.val) stride)
    (fun m k => (memStep_writeWords m (base + stride * k.val) body).mono fun a => within_mono (Nat.le_refl _) (by omega))
    (within_disjoint base stride) (List.nodup_finRange n) (List.mem_finRange k) m
  rw [readWord_congr _ fun j hj => at_k _ (within_iff.mpr (by omega))]
  exact readWord_writeWords _ _ _ _ hi (wf' wf)

/-- A byte outside a table is left by the writing of its records. -/
theorem readByte_foldl_writeWords {n : Nat} (base stride : Nat) (body : List Nat) (hs : 4 * body.length ≤ stride) (m : Mem)
    {a : Nat} (ha : a < base ∨ base + stride * n ≤ a) :
    readByte ((indices n).foldl (fun m k => writeWords m (base + stride * k.val) body) m) a = readByte m a := by
  refine bytes_foldl (fun m k => memStep_writeWords m _ body) _ m fun k _ => within_eq_false.mpr ?_
  have := Nat.mul_le_mul_left stride k.isLt
  rw [Nat.mul_succ] at this
  omega

/-! ### Exchange memory at the end of a reset -/

/-- A byte that the end of a reset does not write is that of the memory it keeps. -/
theorem readByte_resetMem_kept (kind : ResetKind) (m : Mem) {a : Nat}
    (ha : (within 0 8 a || within 0x10 12 a || within 0x0B00 0x980 a || within 0x2D00 16 a) = false) :
    readByte (resetMem kind m) a = readByte (keptMem kind m) a := by
  simp only [Bool.or_eq_false_iff, within_eq_false] at ha
  obtain ⟨⟨⟨identity, header⟩, guarded⟩, notice⟩ := ha
  unfold resetMem writeNotice
  rw [readByte_writeWord_other _ _ _ _ (by simp [noticeAddr]; omega),
    readByte_writeWords_other _ _ _ _ (by simp [noticeAddr]; omega),
    readByte_foldl_writeWords 0x1280 32 _ (by decide) _ (by omega),
    readByte_foldl_writeWords 0x1100 16 _ (by decide) _ (by omega),
    readByte_foldl_writeWords 0x0B00 32 _ (by decide) _ (by omega),
    readByte_writeWords_other _ _ _ _ (by simp [addrHold]; omega),
    readByte_writeWords_other _ _ _ _ (by simp [addrIdentity]; omega)]

/-- The memory of a reset before its notice, in the order of its writing. -/
theorem readWord_resetMem (kind : ResetKind) (m : Mem) {a : Nat} (ha : a + 4 ≤ 0x2D00) :
    readWord (resetMem kind m) a = readWord ((indices 16).foldl
      (fun m (c : RecNo) => writeWords m (0x1280 + 32 * c.val) (cycleBody CycleRec.free))
      ((indices 24).foldl (fun m (w : WatchNo) => writeWords m (0x1100 + 16 * w.val) (watchBody WatchRec.reset))
        ((indices 48).foldl (fun m (k : OutletIx) => writeWords m (0x0B00 + 32 * k.val) (outletBody Outlet.reset))
          (writeWords (writeWords (keptMem kind m) 0 [identValue.toNat, 1]) 0x10 [1, 0, 1])))) a := by
  unfold resetMem writeNotice
  rw [readWord_writeWord_other _ _ _ _ (by simp [noticeAddr]; omega),
    readWord_writeWords_other _ _ _ _ (by simp [noticeAddr]; omega)]

theorem memWf_writeTable {n : Nat} (addr : Fin n → Nat) (body : List Nat) {m : Mem} (h : MemWf m) :
    MemWf ((indices n).foldl (fun m k => writeWords m (addr k) body) m) :=
  memWf_foldl (fun _ _ => memWf_writeWords _ _) _ h

theorem readWord_foldl_other {n : Nat} (base stride : Nat) (body : List Nat) (hs : 4 * body.length ≤ stride) (m : Mem)
    {a : Nat} (ha : a + 4 ≤ base ∨ base + stride * n ≤ a) :
    readWord ((indices n).foldl (fun m k => writeWords m (base + stride * k.val) body) m) a = readWord m a :=
  readWord_congr a fun i hi => readByte_foldl_writeWords base stride body hs m (by omega)

theorem outletWord_resetMem (kind : ResetKind) {m : Mem} (wf : MemWf m) (k : OutletIx) {i : Nat} (hi : i < 8) :
    readWord (resetMem kind m) (0x0B00 + 32 * k.val + 4 * i) = BitVec.ofNat 32 ((outletBody Outlet.reset)[i]'hi) := by
  have := k.isLt
  rw [readWord_resetMem kind m (by omega), readWord_foldl_other 0x1280 32 _ (by decide) _ (by omega),
    readWord_foldl_other 0x1100 16 _ (by decide) _ (by omega)]
  exact readWord_foldl_writeWords 0x0B00 32 _ (by decide) k
    (memWf_writeWords _ _ (memWf_writeWords _ _ (memWf_keptMem kind wf))) hi

theorem watchWord_resetMem (kind : ResetKind) {m : Mem} (wf : MemWf m) (w : WatchNo) {i : Nat} (hi : i < 4) :
    readWord (resetMem kind m) (0x1100 + 16 * w.val + 4 * i) = BitVec.ofNat 32 ((watchBody WatchRec.reset)[i]'hi) := by
  have := w.isLt
  rw [readWord_resetMem kind m (by omega), readWord_foldl_other 0x1280 32 _ (by decide) _ (by omega)]
  exact readWord_foldl_writeWords 0x1100 16 _ (by decide) w
    (memWf_writeTable _ _ (memWf_writeWords _ _ (memWf_writeWords _ _ (memWf_keptMem kind wf)))) hi

theorem cycleWord_resetMem (kind : ResetKind) {m : Mem} (wf : MemWf m) (c : RecNo) {i : Nat} (hi : i < 8) :
    readWord (resetMem kind m) (0x1280 + 32 * c.val + 4 * i) = BitVec.ofNat 32 ((cycleBody CycleRec.free)[i]'hi) := by
  have := c.isLt
  rw [readWord_resetMem kind m (by omega)]
  exact readWord_foldl_writeWords 0x1280 32 _ (by decide) c
    (memWf_writeTable _ _ (memWf_writeTable _ _
      (memWf_writeWords _ _ (memWf_writeWords _ _ (memWf_keptMem kind wf))))) hi

/-- The words of the header that the end of a reset writes. -/
theorem headerWords_resetMem (kind : ResetKind) {m : Mem} (wf : MemWf m) :
    readWord (resetMem kind m) 0x00 = 0x00014F48#32 ∧ readWord (resetMem kind m) 0x04 = 1 ∧
      readWord (resetMem kind m) 0x10 = 1 ∧ readWord (resetMem kind m) 0x14 = 0 ∧ readWord (resetMem kind m) 0x18 = 1 := by
  have kept := memWf_keptMem kind wf
  have header {a : Nat} (ha : a + 4 ≤ 0x0B00) : readWord (resetMem kind m) a =
      readWord (writeWords (writeWords (keptMem kind m) 0 [identValue.toNat, 1]) 0x10 [1, 0, 1]) a := by
    rw [readWord_resetMem kind m (by omega), readWord_foldl_other 0x1280 32 _ (by decide) _ (by omega),
      readWord_foldl_other 0x1100 16 _ (by decide) _ (by omega), readWord_foldl_other 0x0B00 32 _ (by decide) _ (by omega)]
  have low {i : Nat} (hi : i < 2) := readWord_writeWords (keptMem kind m) 0 [identValue.toNat, 1] i hi kept
  have high {i : Nat} (hi : i < 3) := readWord_writeWords (writeWords (keptMem kind m) 0 [identValue.toNat, 1]) 0x10
    [1, 0, 1] i hi (memWf_writeWords _ _ kept)
  refine ⟨?_, ?_, ?_, ?_, ?_⟩
  · rw [header (by decide), readWord_writeWords_other _ _ _ _ (by decide)]
    exact low (i := 0) (by decide)
  · rw [header (by decide), readWord_writeWords_other _ _ _ _ (by decide)]
    exact low (i := 1) (by decide)
  · rw [header (by decide)]
    exact high (i := 0) (by decide)
  · rw [header (by decide)]
    exact high (i := 1) (by decide)
  · rw [header (by decide)]
    exact high (i := 2) (by decide)

/-- The RESTART notice is the first entry of the log. -/
theorem restartNotice_resetMem (kind : ResetKind) {m : Mem} (wf : MemWf m) :
    readWord (resetMem kind m) 0x2D00 = 0 ∧
      readWord (resetMem kind m) 0x2D04 = BitVec.ofNat 32 (1 + 256 * kind.code) ∧
      readWord (resetMem kind m) 0x2D08 = 0 ∧ readWord (resetMem kind m) 0x2D0C = 0 := by
  have wf4 := memWf_writeTable (fun c : RecNo => 0x1280 + 32 * c.val) (cycleBody CycleRec.free)
    (memWf_writeTable (fun w : WatchNo => 0x1100 + 16 * w.val) (watchBody WatchRec.reset)
      (memWf_writeTable (fun k : OutletIx => 0x0B00 + 32 * k.val) (outletBody Outlet.reset)
        (memWf_writeWords 0x10 [1, 0, 1] (memWf_writeWords 0 [identValue.toNat, 1] (memWf_keptMem kind wf)))))
  have entry {i : Nat} (hi : i < 3) := fun ws (h : ws.length = 3) =>
    readWord_writeWords _ 0x2D04 ws i (by omega) wf4
  have code : kind.code < 256 := by cases kind <;> decide
  refine ⟨readWord_writeWord_same _ _ _ (memWf_writeWords _ _ wf4), ?_, ?_, ?_⟩
  · refine (readWord_writeWord_other _ _ _ _ (.inr (by decide))).trans ((entry (i := 0) (by decide) _ rfl).trans ?_)
    simp only [List.getElem_cons_zero, fld, NoticeKind.code]
    congr 1
    omega
  · exact (readWord_writeWord_other _ _ _ _ (.inr (by decide))).trans (entry (i := 1) (by decide) _ rfl)
  · exact (readWord_writeWord_other _ _ _ _ (.inr (by decide))).trans (entry (i := 2) (by decide) _ rfl)

/-- A byte of a word of memory. -/
theorem readByte_eq_extract (m : Mem) (a i : Nat) (hi : i < 4) :
    readByte m (a + i) = (readWord m a).extractLsb' (8 * i) 8 := by
  apply BitVec.eq_of_getLsbD_eq
  intro j hj
  simp only [readWord, BitVec.getLsbD_extractLsb', BitVec.getLsbD_append, hj, decide_true, Bool.true_and]
  interval_cases i
  · simp [hj]
  · simp [hj, show ¬ 8 + j < 8 by omega]
  · simp [show ¬ 16 + j < 8 by omega, show ¬ 16 + j - 8 < 8 by omega, show 16 + j - 8 - 8 = j by omega, hj]
  · simp [show ¬ 24 + j < 8 by omega, show ¬ 24 + j - 8 < 8 by omega, show ¬ 24 + j - 8 - 8 < 8 by omega,
      show 24 + j - 8 - 8 - 8 = j by omega]

/-- A word that reads 0 is four bytes of 0. -/
theorem readByte_of_readWord_zero {m : Mem} {a b : Nat} (h : readWord m a = 0) (hb : within a 4 b = true) :
    readByte m b = 0 := by
  rw [within_iff] at hb
  have byte := readByte_eq_extract m a (b - a) (by omega)
  rw [h, show a + (b - a) = b by omega] at byte
  rw [byte]
  exact BitVec.extractLsb'_zero

/-- R185: the guarded records at the end of a reset, where the kept memory has no branch record. -/
theorem guardedAtReset_resetMem (kind : ResetKind) {m : Mem} (wf : MemWf m)
    (branches : ∀ a, within 0x1480 0x80 a = true → readByte (keptMem kind m) a = 0) : guardedAtReset (resetMem kind m) := by
  have words {n : Nat} {body : List Nat} {f : Nat → Word} (length : body.length = n)
      (h : ∀ i, (hi : i < body.length) → f i = BitVec.ofNat 32 body[i]) :
      (List.range n).map f = body.map (BitVec.ofNat 32) :=
    List.ext_getElem (by simp [length]) fun i h1 h2 => by simpa using h i (by simpa using h2)
  refine ⟨fun k => ?_, fun w => ?_, fun c => ?_, fun a ha => ?_⟩
  · rw [words (n := 8) (body := outletBody Outlet.reset) rfl fun i hi => outletWord_resetMem kind wf k hi]
    decide
  · rw [words (n := 4) (body := watchBody WatchRec.reset) rfl fun i hi => watchWord_resetMem kind wf w hi]
    decide
  · rw [words (n := 8) (body := cycleBody CycleRec.free) rfl fun i hi => cycleWord_resetMem kind wf c hi]
    decide
  · rw [readByte_resetMem_kept kind m ?_, branches a ha]
    simp only [within_iff] at ha
    simp only [Bool.or_eq_false_iff, within_eq_false]
    omega

/-- R193, R194: the header and the log at the end of a reset, where the kept memory has neither. -/
theorem headerAtReset_resetMem (kind : ResetKind) {m : Mem} (wf : MemWf m)
    (kept : ∀ a, (within 0 0x100 a || within 0x2D00 0x1000 a) = true → readByte (keptMem kind m) a = 0) :
    headerAtReset (resetMem kind m) kind.code := by
  obtain ⟨identity, layout, hold, mark, count⟩ := headerWords_resetMem kind wf
  obtain ⟨seq, entry, stamp, value⟩ := restartNotice_resetMem kind wf
  have unwritten {a : Nat} (h : (within 0 0x100 a || within 0x2D00 0x1000 a) = true)
      (ha : (within 0 8 a || within 0x10 12 a || within 0x0B00 0x980 a || within 0x2D00 16 a) = false) :
      readByte (resetMem kind m) a = 0 := (readByte_resetMem_kept kind m ha).trans (kept a h)
  refine ⟨identity, layout, hold, count, fun a ha => ?_, seq, entry, fun a ha => ?_⟩
  · by_cases h : within 0x14 4 a = true
    · exact readByte_of_readWord_zero mark h
    · simp only [Bool.or_eq_true, within_iff] at ha h
      apply unwritten
      · simp only [Bool.or_eq_true, within_iff]
        omega
      · simp only [Bool.or_eq_false_iff, within_eq_false]
        omega
  · by_cases h : within 0x2D08 4 a = true
    · exact readByte_of_readWord_zero stamp h
    by_cases h' : within 0x2D0C 4 a = true
    · exact readByte_of_readWord_zero value h'
    · simp only [within_iff] at ha h h'
      apply unwritten
      · simp only [Bool.or_eq_true, within_iff]
        omega
      · simp only [Bool.or_eq_false_iff, within_eq_false]
        omega

/-- Nothing is kept of a power-on reset. -/
theorem readByte_keptMem_powerOn (m : Mem) (a : Nat) : readByte (keptMem .powerOn m) a = 0 := rfl

theorem framesAtReset_resetMem (kind : ResetKind) (m : Mem)
    (kept : ∀ a, within 0x1D00 0xF88 a = true → readByte (keptMem kind m) a = 0) : framesAtReset (resetMem kind m) := by
  intro a ha
  rw [readByte_resetMem_kept kind m ?_, kept a ha]
  simp only [within_iff] at ha
  simp only [Bool.or_eq_false_iff, within_eq_false]
  omega

/-- The host's areas and the slots lie outside what the end of a reset writes itself. -/
theorem readByte_resetMem_host (kind : ResetKind) (m : Mem) {a : Nat} (h : hostOwnedArea a = true ∨ slotArea a = true) :
    readByte (resetMem kind m) a = readByte (keptMem kind m) a := by
  refine readByte_resetMem_kept kind m ?_
  simp only [hostOwnedArea, slotArea, Bool.or_eq_true, Bool.and_eq_true, decide_eq_true_eq] at h
  simp only [Bool.or_eq_false_iff, within_eq_false]
  omega

/-! ### What a pin or soft reset keeps (R181, R194) -/

theorem readByte_filter (m : Mem) (p : Nat → Bool) (a : Nat) :
    readByte (m.filter fun c => p c.1) a = if p a = true then readByte m a else 0 := by
  induction m with
  | nil => simp [readByte, unlistedByte]
  | cons c rest ih =>
    obtain ⟨b, v⟩ := c
    by_cases hb : p b = true
    · rw [List.filter_cons, if_pos hb, readByte, readByte, ih]
      by_cases h : b = a
      · simp [← h, hb]
      · simp [h]
    · rw [List.filter_cons, if_neg hb, ih, readByte]
      by_cases h : b = a
      · simp [← h, hb]
      · simp [h]

/-- The bytes of slot `e` that a finish may write are bytes of that slot. -/
theorem memStep_abortSlot_slot (m : Mem) (e : SlotNo) : MemStep (slotBytes e) m (abortSlot m e) := by
  unfold abortSlot
  split
  · exact memStep_writeResult_slot _ _ _ _
  · exact .refl _ _

theorem slotBytes_disjoint (x y : SlotNo) (a : Nat) (h : x ≠ y) (ha : slotBytes x a = true) : slotBytes y a = false :=
  within_disjoint 0x1500 64 x y a h ha

theorem keptMem_eq {kind : ResetKind} (h : kind ≠ .powerOn) (m : Mem) :
    keptMem kind m = (indices 32).foldl abortSlot (m.filter fun c => hostOwnedArea c.1 || slotArea c.1) := by
  cases kind
  · exact absurd rfl h
  · rfl
  · rfl

/-- Outside the slots a reset keeps the host's areas alone. -/
theorem readByte_keptMem_outside {kind : ResetKind} (h : kind ≠ .powerOn) (m : Mem) {a : Nat} (ha : slotArea a = false) :
    readByte (keptMem kind m) a = if hostOwnedArea a = true then readByte m a else 0 := by
  rw [keptMem_eq h, bytes_foldl memStep_abortSlot_slot _ _ fun e _ => ?_,
    readByte_filter m (fun a => hostOwnedArea a || slotArea a)]
  · simp [ha]
  · simp only [slotArea, Bool.and_eq_false_iff, decide_eq_false_iff_not] at ha
    exact slotBytes_outside e (by omega)

theorem slotArea_of_slotBytes {e : SlotNo} {a : Nat} (h : slotBytes e a = true) : slotArea a = true := by
  have := slotAddr_bounds e
  rw [slotBytes, within_iff] at h
  simp only [slotArea, Bool.and_eq_true, decide_eq_true_eq]
  omega

/-- A slot at the end of a pin or soft reset is as its abortion left it. -/
theorem readByte_resetMem_slot {kind : ResetKind} (h : kind ≠ .powerOn) {m : Mem} (wf : MemWf m) (e : SlotNo) :
    ∃ m', MemWf m' ∧ (∀ a, slotBytes e a = true → readByte m' a = readByte m a) ∧
      ∀ a, slotBytes e a = true → readByte (resetMem kind m) a = readByte (abortSlot m' e) a := by
  obtain ⟨m', wf', before, after⟩ := bytes_foldl_at memStep_abortSlot_slot slotBytes_disjoint (List.nodup_finRange 32)
    (List.mem_finRange e) (m.filter fun c => hostOwnedArea c.1 || slotArea c.1)
  refine ⟨m', wf' (memWf_filter _ wf), fun a ha => ?_, fun a ha => ?_⟩
  · rw [before a ha, readByte_filter m (fun a => hostOwnedArea a || slotArea a), if_pos]
    rw [slotArea_of_slotBytes ha, Bool.or_true]
  · rw [readByte_resetMem_host kind m (.inr (slotArea_of_slotBytes ha)), keptMem_eq h, ← after a ha]

/-- A word of a slot lies within the slot. -/
theorem readWord_slot_congr {m m' : Mem} {e : SlotNo} (h : ∀ a, slotBytes e a = true → readByte m' a = readByte m a)
    {d : Nat} (hd : d + 4 ≤ 64) : readWord m' (slotAddr e + d) = readWord m (slotAddr e + d) :=
  readWord_congr _ fun i hi => h _ (within_iff.mpr (by omega))

theorem slotState_congr {m m' : Mem} {e : SlotNo} (h : ∀ a, slotBytes e a = true → readByte m' a = readByte m a) :
    slotState m' e = slotState m e :=
  congrArg BitVec.toNat (readWord_slot_congr h (d := 0) (by decide))

/-- R181: a slot that does not read TAKEN is kept whole. -/
theorem slotKept_resetMem {kind : ResetKind} (h : kind ≠ .powerOn) {m : Mem} (wf : MemWf m) {e : SlotNo}
    (taken : slotState m e ≠ 2) {a : Nat} (ha : slotBytes e a = true) :
    readByte (resetMem kind m) a = readByte m a := by
  obtain ⟨m', -, before, after⟩ := readByte_resetMem_slot h wf e
  rw [after a ha, abortSlot, if_neg, before a ha]
  rwa [slotState_congr before]

/-- The words of a finished slot that hold its maps. -/
theorem mapWord_writeResult {m : Mem} (wf : MemWf m) (e : SlotNo) (r : OrderResult) (finish : Word) {i : Nat} (hi : i < 6) :
    readWord (writeResult m e r finish) (slotAddr e + 0x1C + 4 * i) = BitVec.ofNat 32
      ([mapLow r.doneSet, mapHigh r.doneSet, mapLow r.failedSet, mapHigh r.failedSet, mapLow r.skippedSet,
        mapHigh r.skippedSet][i]'hi) := by
  simp only [writeResult]
  rw [readWord_writeWord_other _ _ _ _ (by omega), readWord_writeWord_other _ _ _ _ (by omega),
    show slotAddr e + 0x1C + 4 * i = slotAddr e + 0x18 + 4 * (i + 1) by omega]
  rw [readWord_writeWords m (slotAddr e + 0x18) _ (i + 1) (by simp only [List.length_cons, List.length_nil]; omega) wf,
    List.getElem_cons_succ]

theorem finishWord_writeResult {m : Mem} (wf : MemWf m) (e : SlotNo) (r : OrderResult) (finish : Word) :
    readWord (writeResult m e r finish) (slotAddr e + 0x38) = finish := by
  simp only [writeResult]
  rw [readWord_writeWord_other _ _ _ _ (by omega)]
  exact readWord_writeWord_same _ _ _ (memWf_writeWords _ _ wf)

/-- The host-written words of a slot are left by its finish. -/
theorem hostBytes_writeResult (m : Mem) (e : SlotNo) (r : OrderResult) (finish : Word) {a : Nat}
    (ha : within (slotAddr e + 4) 20 a = true) : readByte (writeResult m e r finish) a = readByte m a := by
  refine readByte_writeResult_other _ _ _ _ _ ?_
  rw [within_iff] at ha
  simp only [slotPartBytes, slotArea, slotAddr] at ha ⊢
  simp only [Bool.and_eq_false_iff, Bool.or_eq_false_iff, decide_eq_false_iff_not]
  omega

/-- What the abortion of an order reports (R181). -/
def abortedResult : OrderResult where
  outcome := .aborted
  reason := some .aborted
  detail := none
  record := none
  doneSet := []
  failedSet := []
  skippedSet := []

theorem emptyMaps_abortedResult (i : Nat) (hi : i < 6) :
    [mapLow abortedResult.doneSet, mapHigh abortedResult.doneSet, mapLow abortedResult.failedSet,
      mapHigh abortedResult.failedSet, mapLow abortedResult.skippedSet, mapHigh abortedResult.skippedSet][i]'hi = 0 := by
  have low : mapLow [] = 0 := by decide
  have high : mapHigh [] = 0 := by decide
  simp only [abortedResult, low, high]
  interval_cases i <;> rfl

theorem abortSlot_taken {m : Mem} {e : SlotNo} (h : slotState m e = 2) :
    abortSlot m e = writeResult m e abortedResult 0 :=
  if_pos h

/-- R181: a slot that reads TAKEN is finished ABORTED, its host-written words kept. -/
theorem slotAborted_resetMem {kind : ResetKind} (h : kind ≠ .powerOn) {m : Mem} (wf : MemWf m) {e : SlotNo}
    (taken : slotState m e = 2) :
    slotState (resetMem kind m) e = 3 ∧ readWord (resetMem kind m) (slotAddr e + 0x18) = 0xFF000707#32 ∧
      (∀ a, within (slotAddr e + 4) 20 a = true → readByte (resetMem kind m) a = readByte m a) ∧
      (∀ a, within (slotAddr e + 0x1C) 24 a = true → readByte (resetMem kind m) a = 0) ∧
      readWord (resetMem kind m) (slotAddr e + 0x38) = 0 := by
  obtain ⟨m', wf', before, after⟩ := readByte_resetMem_slot h wf e
  rw [abortSlot_taken ((slotState_congr before).trans taken)] at after
  have inSlot {lo len : Nat} (hl : slotAddr e ≤ lo ∧ lo + len ≤ slotAddr e + 64) {a : Nat} (ha : within lo len a = true) :
      slotBytes e a = true := within_mono hl.1 hl.2 ha
  refine ⟨?_, ?_, fun a ha => ?_, fun a ha => ?_, ?_⟩
  · rw [slotState_congr after, slotState_writeResult _ _ _ wf']
    rfl
  · rw [readWord_slot_congr after (by decide), outcomeWord_writeResult _ _ _ wf']
    decide
  · rw [after a (inSlot (by omega) ha), hostBytes_writeResult _ _ _ _ ha, before a (inSlot (by omega) ha)]
  · rw [after a (inSlot (by omega) ha)]
    have at_a := within_iff.mp ha
    have zero := mapWord_writeResult wf' e abortedResult 0 (i := (a - (slotAddr e + 0x1C)) / 4) (by omega)
    refine readByte_of_readWord_zero (zero.trans ?_) (within_iff.mpr (by omega))
    exact congrArg (BitVec.ofNat 32) (emptyMaps_abortedResult _ _)
  · rw [readWord_slot_congr after (by decide), finishWord_writeResult wf']

end Sys2Proof.Machine
end

section
/-! PROOF. The queue of commands, the resets, and the reset state with both invariants (R95, R186, R193, R194). -/
namespace Sys2Proof.Machine

open Sys2Proof.Safety

/-- Settles O1: by whether a command waits. -/
theorem stepRunsFrontCommand : Obligations.StepRunsFrontCommand := by
  unfold Obligations.StepRunsFrontCommand
  intro s
  exact ⟨fun c rest h => by rw [step, h], fun h => by rw [step, h]⟩

/-! ### The end of a reset -/

theorem exec_endOfReset_of {s : State} {kind : ResetKind} (h : s.resetting = some kind) :
    exec .endOfReset s = .next (s.afterReset kind) := by
  simp only [exec, execEndOfReset, h]

theorem reset_mem (m : Mem) : State.reset.mem = resetMem .powerOn m := by
  simp only [State.reset, resetMem, keptMem]

theorem afterReset_mem (s : State) (kind : ResetKind) : (s.afterReset kind).mem = resetMem kind s.mem := by
  simp only [State.afterReset]

/-- Settles O2: nothing is kept of exchange memory, and the end of the reset writes the image. -/
theorem powerOnResetImage : Obligations.PowerOnResetImage := by
  unfold Obligations.PowerOnResetImage
  have kept (a : Nat) : readByte (keptMem .powerOn []) a = 0 := rfl
  refine ⟨fun s => ⟨_, rfl, fun a => rfl⟩, ⟨?_, ?_, ?_, fun a ha => ?_, rfl, rfl⟩, fun s h => ?_⟩
  · rw [reset_mem []]
    exact guardedAtReset_resetMem .powerOn memWf_nil fun a _ => kept a
  · rw [reset_mem []]
    exact headerAtReset_resetMem .powerOn memWf_nil fun a _ => kept a
  · rw [reset_mem []]
    exact framesAtReset_resetMem .powerOn [] fun a _ => kept a
  · rw [reset_mem []]
    exact (readByte_resetMem_host .powerOn [] ((Bool.or_eq_true _ _).mp ha)).trans (kept a)
  · exact ⟨_, exec_endOfReset_of h, (afterReset_mem s .powerOn).trans (reset_mem s.mem).symm, rfl, rfl, rfl⟩

/-- Settles O3: every table of the reset state holds its block's reset record in every place. -/
theorem resetStateOfBlocks : Obligations.ResetStateOfBlocks := by
  unfold Obligations.ResetStateOfBlocks
  simp [State.reset, Outlet.reset, Sense.reset, PhaseStatus.reset, BranchLoad.reset, ShedRec.reset, CycleRec.free,
    WatchRec.reset, Timebase.reset, Publisher.reset, MeterOutlet.opened]

/-! ### The beginning of a reset -/

theorem beginReset_coil (s : State) (kind : ResetKind) (d : DriverNo) : (s.beginReset kind).coil d = none := by
  simp [State.coil, State.beginReset]

theorem attn_of_resetting {s : State} {kind : ResetKind} (h : s.resetting = some kind) : s.attn = false := by
  simp [State.attn, h]

theorem portWord_of_resetting {s : State} (h : s.resetting ≠ none) (a : Nat) : s.portWord a = 0 :=
  if_pos (Option.isSome_iff_ne_none.mpr h)

/-- CONTROL is reached through the port's address map. -/
theorem exec_softReset_running {s : State} (h : s.resetting = none) (t : Nat) (v : Word) :
    exec (.softReset t v) s = .next ((s.advance t).writeControl v) := by
  have write : (s.advance t).hostWriteWord addrControl v = (s.advance t).writeControl v := by
    simp [State.hostWriteWord, h, addrIdent, addrControl, addrCause]
  exact congrArg Host.Outcome.next ((quietEvent_running h t _).trans write)

/-- Settles O4: each reset begins in its own event. -/
theorem resetBeginsAtOnce : Obligations.ResetBeginsAtOnce := by
  unfold Obligations.ResetBeginsAtOnce
  have silent (s : State) (kind : ResetKind) :
      (∀ d, (s.beginReset kind).coil d = none) ∧ (s.beginReset kind).attn = false ∧
        (s.beginReset kind).portWord 0x4000 = 0 :=
    ⟨beginReset_coil s kind, attn_of_resetting (kind := kind) rfl, portWord_of_resetting (Option.some_ne_none kind) _⟩
  refine fun s => ⟨⟨_, rfl, rfl, rfl, silent s _⟩, ⟨_, rfl, rfl, rfl, silent s _⟩, fun t v running bit => ?_,
    fun t v running bit => ?_⟩
  · rw [exec_softReset_running running, State.writeControl, if_pos bit]
    exact ⟨_, rfl, rfl, rfl, silent _ _⟩
  · rw [exec_softReset_running running, State.writeControl, if_neg (Bool.eq_false_iff.mp bit)]
    rfl

/-- Settles O5: every block restarts, and exchange memory is written over what the reset keeps. -/
theorem endOfResetRestarts : Obligations.EndOfResetRestarts := by
  unfold Obligations.EndOfResetRestarts
  refine ⟨fun s kind h => ⟨_, exec_endOfReset_of h, by simp only [State.afterReset], fun k => ?_⟩, fun s u kind notPowerOn h wf next => ?_⟩
  · simp [State.afterReset, Sense.reset]
  · rw [exec_endOfReset_of h] at next
    cases next
    have nothing {a : Nat} (slot : slotArea a = false) (host : hostOwnedArea a = false) :
        readByte (keptMem kind s.mem) a = 0 := by
      rw [readByte_keptMem_outside notPowerOn _ slot, host]
      rfl
    have outside {a : Nat} (ha : (within 0 0x100 a || within 0x1480 0x80 a || within 0x1D00 0xF88 a ||
        within 0x2D00 0x1000 a) = true) : readByte (keptMem kind s.mem) a = 0 := by
      simp only [Bool.or_eq_true, within_iff] at ha
      refine nothing ?_ ?_
      · simp only [slotArea, Bool.and_eq_false_iff, decide_eq_false_iff_not]
        omega
      · simp only [hostOwnedArea, Bool.or_eq_false_iff, Bool.and_eq_false_iff, decide_eq_false_iff_not]
        omega
    have code : kind.code = if kind = .pin then 2 else 3 := by
      cases kind
      · exact absurd rfl notPowerOn
      · rfl
      · rfl
    rw [afterReset_mem]
    refine ⟨guardedAtReset_resetMem kind wf fun a ha => outside (by simp [ha]), ?_,
      framesAtReset_resetMem kind s.mem fun a ha => outside (by simp [ha]), rfl, rfl, fun a ha => ?_,
      fun e taken a ha => slotKept_resetMem notPowerOn wf taken ha, fun e taken => slotAborted_resetMem notPowerOn wf taken⟩
    · rw [← code]
      exact headerAtReset_resetMem kind wf fun a ha => outside (by
        simp only [Bool.or_eq_true] at ha ⊢
        exact ha.elim (fun h => by simp [h]) .inr)
    · refine (readByte_resetMem_host kind s.mem (.inl ha)).trans ?_
      rw [readByte_keptMem_outside notPowerOn, if_pos ha]
      simp only [hostOwnedArea, Bool.or_eq_true, Bool.and_eq_true, decide_eq_true_eq] at ha
      simp only [slotArea, Bool.and_eq_false_iff, decide_eq_false_iff_not]
      omega

/-! ### While a reset is in course -/

theorem shiftOut_of_resetting {s : State} (h : s.resetting ≠ none) (addr : Half) (n : Nat) :
    s.shiftOut addr n = List.replicate n 0 := by
  have zero (i : Nat) : s.portByte ((addr.toNat + i) % 65536) = 0 := by
    rw [State.portByte, portWord_of_resetting h]
    exact BitVec.extractLsb'_zero
  exact List.ext_getElem (by simp [State.shiftOut]) fun i h1 h2 => by simp [State.shiftOut, zero]

/-- Settles O6: an event of a part in reset does nothing; a transfer shifts out zeros, and the sense pins move alone. -/
theorem frozenWhileResetting : Obligations.FrozenWhileResetting := by
  unfold Obligations.FrozenWhileResetting
  intro s i h
  cases i
  case powerOnReset | pinReset | endOfReset => exact trivial
  case rawSenseChange t k level =>
    simp only [exec, execRawSenseChange]
    rw [if_pos (Option.isSome_iff_ne_none.mpr h)]
    exact ⟨_, rfl, rfl, getElem_upd_same _ _ _, fun j hj => getElem_upd_other _ _ _ _ hj⟩
  case read t addr n =>
    simp only [exec, execRead]
    rw [quietEvent_resetting h, shiftOut_of_resetting h]
  case illegalCommand t c n =>
    simp only [exec, execIllegalCommand]
    rw [quietEvent_resetting h]
  case softReset | sample | framePublication | frameFlip | pulseStart | post | slotDrop | hostWordWrite | slotWordWrite |
      latchStateWrite | missedKindsWrite | causeWrite | maskWrite | unmappedWrite | partTimeRewrite =>
    exact congrArg Host.Outcome.next (quietEvent_resetting h _ _)
  all_goals exact congrArg Host.Outcome.next (event_resetting h _ _)

end Sys2Proof.Machine
end

section
/-! PROOF. The guarded records after an event, and what keeps the invariant of memory, registers, meters, timebase and records
(R33, R86, R170, R185, R187). -/
namespace Sys2Proof.Machine

open Sys2Proof.Safety

/-! ### A guarded record and its body (R185) -/

theorem recordShown_congr {m m' : Mem} {a : Nat} {body : List Nat}
    (h : ∀ b, within a (4 * body.length) b = true → readByte m' b = readByte m b) (shown : recordShown m a body) :
    recordShown m' a body := by
  obtain ⟨count, words⟩ := shown
  exact ⟨count, fun i hi => (readWord_congr _ fun j hj => h _ (within_iff.mpr (by omega))).trans (words i hi)⟩

/-- The words of a record with its counts put in. -/
theorem getElem_withCounts {count : Nat} (hc : count < 65536) {body : List Nat} (hb : 2 ≤ body.length) (i : Nat)
    (hi : i < (withCounts count body).length) : (withCounts count body)[i] =
      body[i]'(by rwa [length_withCounts] at hi) + (if i = 0 then count else 0) +
        (if i + 1 = body.length then 65536 * count else 0) := by
  have low : fld count 0 16 = count := by simp only [fld]; omega
  have high : fld count 16 16 = 65536 * count := by simp only [fld]; omega
  obtain ⟨w, ws, rfl⟩ := List.exists_cons_of_length_pos (by omega : 0 < body.length)
  have hne : ws ≠ [] := by
    rintro rfl
    simp at hb
  have words : withCounts count (w :: ws) = (w + count) :: (ws.dropLast ++ [ws.getLast hne + 65536 * count]) := by
    simp [withCounts, low, high, List.getLast?_eq_getLast_of_ne_nil hne]
  have length : ws.dropLast.length + 1 = ws.length := by
    rw [List.length_dropLast]
    have := List.length_pos_of_ne_nil hne
    omega
  rw [length_withCounts] at hi
  simp only [words]
  cases i with
  | zero => simp [hne]
  | succ i =>
    simp only [List.getElem_cons_succ, List.length_cons] at hi ⊢
    by_cases last : i + 1 = ws.length
    · rw [List.getElem_append_right (by omega)]
      have index : ws.length - 1 = i := by omega
      simp [last, List.getLast_eq_getElem, index, hne]
    · rw [List.getElem_append_left (by omega), List.getElem_dropLast]
      simp [last]

/-- A rewritten record shows its body, between equal counts. -/
theorem recordShown_rewriteRecord {m : Mem} (wf : MemWf m) (a : Nat) {body : List Nat} (hb : 2 ≤ body.length) :
    recordShown (rewriteRecord m a body) a body := by
  have count : (recordCount m a + 1) % 65536 < 65536 := Nat.mod_lt _ (by decide)
  refine ⟨BitVec.ofNat 16 ((recordCount m a + 1) % 65536), fun i hi => ?_⟩
  rw [rewriteRecord, readWord_writeWords _ _ _ _ (by rwa [length_withCounts]) wf, getElem_withCounts count hb,
    BitVec.toNat_ofNat, Nat.mod_eq_of_lt count]

/-- Every record of a table is shown after the changed ones have been rewritten. -/
theorem recordShown_foldl_rewriteIf {n : Nat} (base stride length : Nat) (h2 : 2 ≤ length) (hs : 4 * length ≤ stride)
    {changed : Fin n → Bool} {before after : Fin n → List Nat} (hl : ∀ k, (after k).length = length)
    (same : ∀ k, changed k = false → before k = after k) {m : Mem} (wf : MemWf m)
    (shown : ∀ k : Fin n, recordShown m (base + stride * k.val) (before k)) (k : Fin n) :
    recordShown ((indices n).foldl (fun m k => rewriteIf (changed k) m (base + stride * k.val) (after k)) m)
      (base + stride * k.val) (after k) := by
  obtain ⟨m', wf', found, left⟩ := bytes_foldl_at (p := fun k : Fin n => within (base + stride * k.val) stride)
    (fun m k => (memStep_rewriteIf (changed k) m (base + stride * k.val) length _ (hl k)).mono
      fun a => within_mono (Nat.le_refl _) (by omega))
    (within_disjoint base stride) (List.nodup_finRange n) (List.mem_finRange k) m
  have inRecord {b : Nat} (hb : within (base + stride * k.val) (4 * (after k).length) b = true) :
      within (base + stride * k.val) stride b = true := within_mono (Nat.le_refl _) (by rw [hl]; omega) hb
  refine recordShown_congr (fun b hb => left b (inRecord hb)) ?_
  cases hc : changed k with
  | true => exact recordShown_rewriteRecord (wf' wf) _ (by rw [hl]; exact h2)
  | false =>
    have old := shown k
    rw [same k hc] at old
    exact recordShown_congr (fun b hb => found b (inRecord hb)) old

/-- Rewriting the records of one table leaves the others. -/
theorem memStep_foldl_rewriteIf {n : Nat} (base stride length : Nat) (hs : 4 * length ≤ stride) (changed : Fin n → Bool)
    {after : Fin n → List Nat} (hl : ∀ k, (after k).length = length) (m : Mem) :
    MemStep (within base (stride * n)) m
      ((indices n).foldl (fun m k => rewriteIf (changed k) m (base + stride * k.val) (after k)) m) :=
  MemStep.foldl (fun m k => (memStep_rewriteIf (changed k) m _ length _ (hl k)).mono fun a ha => by
    have := Nat.mul_le_mul_left stride k.isLt
    rw [Nat.mul_succ] at this
    rw [within_iff] at ha ⊢
    omega) _ _

/-- The guarded records as memory `m` shows them, of the blocks' records of `s`. -/
abbrev ShownIn (m : Mem) (s : State) : Prop := RecordsShown { s with mem := m }

theorem shownIn_congr {m m' : Mem} {s : State} (h : MemStep (fun a => !guardedBytes a) m m') (shown : ShownIn m s) :
    ShownIn m' s := by
  have guarded {a n b : Nat} (ha : 0x0B00 ≤ a) (hn : a + n ≤ 0x14E0) (hb : within a n b = true) :
      readByte m' b = readByte m b := h.bytes b (by simp [within_guarded ha hn hb])
  exact
    { outlets := fun k => recordShown_congr (fun b => guarded (by omega) (by simp only [outletBody, List.length]; omega))
        (shown.outlets k)
      watches := fun w => recordShown_congr (fun b => guarded (by omega) (by simp only [watchBody, List.length]; omega))
        (shown.watches w)
      cycles := fun c => recordShown_congr (fun b => guarded (by omega) (by simp only [cycleBody, List.length]; omega))
        (shown.cycles c)
      branches := fun b => recordShown_congr (fun a => guarded (by omega) (by simp only [branchBody, List.length]; omega))
        (shown.branches b) }

/-- R185: after an event every guarded record shows its block's record, if each did before. -/
theorem publishRecords_shown {old s : State} (wf : MemWf s.mem) (shown : ShownIn s.mem old) :
    RecordsShown (publishRecords old s) := by
  have outlets := memStep_foldl_rewriteIf 0x0B00 32 8 (by decide)
    (fun k : OutletIx => outletBody old.outlets[k] != outletBody s.outlets[k])
    (after := fun k => outletBody s.outlets[k]) (fun _ => rfl)
  have watches := memStep_foldl_rewriteIf 0x1100 16 4 (by decide)
    (fun w : WatchNo => watchBody old.watches[w] != watchBody s.watches[w])
    (after := fun w => watchBody s.watches[w]) (fun _ => rfl)
  have cycles := memStep_foldl_rewriteIf 0x1280 32 8 (by decide)
    (fun c : RecNo => cycleBody old.cycles[c] != cycleBody s.cycles[c])
    (after := fun c => cycleBody s.cycles[c]) (fun _ => rfl)
  have branches := memStep_foldl_rewriteIf 0x1480 16 4 (by decide) (branchChanged old s)
    (after := fun b => branchBody s.loads[b] s.shed[b]) (fun _ => rfl)
  have outside {lo len a : Nat} {m m' : Mem} (h : MemStep (within lo len) m m') {n : Nat}
      (ha : a + n ≤ lo ∨ lo + len ≤ a) {b : Nat} (hb : within a n b = true) : readByte m' b = readByte m b := by
    rw [within_iff] at hb
    exact h.bytes b (within_eq_false.mpr (by omega))
  refine ⟨fun k => ?_, fun w => ?_, fun c => ?_, fun b => ?_⟩
  · refine recordShown_congr (fun a ha => outside (branches _) (.inl (by simp only [outletBody, List.length]; omega)) ha) <|
      recordShown_congr (fun a ha => outside (cycles _) (.inl (by simp only [outletBody, List.length]; omega)) ha) <|
      recordShown_congr (fun a ha => outside (watches _) (.inl (by simp only [outletBody, List.length]; omega)) ha) ?_
    exact recordShown_foldl_rewriteIf 0x0B00 32 8 (by decide) (by decide) (fun _ => rfl) (fun k hk => by simpa using hk) wf
      shown.outlets k
  · refine recordShown_congr (fun a ha => outside (branches _) (.inl (by simp only [watchBody, List.length]; omega)) ha) <|
      recordShown_congr (fun a ha => outside (cycles _) (.inl (by simp only [watchBody, List.length]; omega)) ha) ?_
    refine recordShown_foldl_rewriteIf 0x1100 16 4 (by decide) (by decide) (fun _ => rfl) (fun k hk => by simpa using hk)
      ((outlets _).wf wf) (fun w => ?_) w
    exact recordShown_congr (fun a ha => outside (outlets _) (.inr (by omega)) ha) (shown.watches w)
  · refine recordShown_congr (fun a ha => outside (branches _) (.inl (by simp only [cycleBody, List.length]; omega)) ha) ?_
    refine recordShown_foldl_rewriteIf 0x1280 32 8 (by decide) (by decide) (fun _ => rfl) (fun k hk => by simpa using hk)
      ((watches _).wf ((outlets _).wf wf)) (fun c => ?_) c
    exact recordShown_congr (fun a ha => outside (watches _) (.inr (by omega)) ha) <|
      recordShown_congr (fun a ha => outside (outlets _) (.inr (by omega)) ha) (shown.cycles c)
  · refine recordShown_foldl_rewriteIf 0x1480 16 4 (by decide) (by decide) (changed := branchChanged old s)
      (before := fun b => branchBody old.loads[b] old.shed[b]) (after := fun b => branchBody s.loads[b] s.shed[b])
      (fun _ => rfl) (fun k hk => ?_)
      ((cycles _).wf ((watches _).wf ((outlets _).wf wf))) (fun b => ?_) b
    · simp only [branchChanged, Bool.or_eq_false_iff] at hk
      exact bne_eq_false_iff_eq.mp hk.2
    · exact recordShown_congr (fun a ha => outside (cycles _) (.inr (by omega)) ha) <|
        recordShown_congr (fun a ha => outside (watches _) (.inr (by omega)) ha) <|
        recordShown_congr (fun a ha => outside (outlets _) (.inr (by omega)) ha) (shown.branches b)

end Sys2Proof.Machine
end

section
/-! PROOF. What every step keeps: memory, registers, meters, timebase, guarded records and intake FIFO. -/
namespace Sys2Proof.Machine

open Sys2Proof.Safety

/-! ### Work that keeps the invariant of everything but the guarded records -/

/-- Work that keeps each part of the invariant and leaves the bytes of the guarded records. -/
structure InvStep (s u : State) : Prop where
  mem : MemStep (fun a => !guardedBytes a) s.mem u.mem
  registers : reservedClear s → reservedClear u
  energies : (∀ k : OutletIx, energyInRange s.meter[k]) → ∀ k : OutletIx, energyInRange u.meter[k]
  estimates : (∀ k : OutletIx, estimatesInRange s.outlets[k]) → ∀ k : OutletIx, estimatesInRange u.outlets[k]
  timebase : timebaseAgrees s.tb → timebaseAgrees u.tb
  fifo : s.fifo.Nodup → u.fifo.Nodup

theorem InvStep.refl (s : State) : InvStep s s := ⟨.refl _ _, id, id, id, id, id⟩

theorem InvStep.trans {s u v : State} (h : InvStep s u) (g : InvStep u v) : InvStep s v :=
  ⟨h.mem.trans g.mem, g.registers ∘ h.registers, g.energies ∘ h.energies, g.estimates ∘ h.estimates,
    g.timebase ∘ h.timebase, g.fifo ∘ h.fifo⟩

/-- No block writes a guarded record but through `publishRecords`. -/
theorem not_guarded_of_blockBytes {a : Nat} (h : blockBytes a = true) : guardedBytes a = false := by
  simp only [blockBytes, noticeBytes, slotPartBytes, slotArea, addrWriteCount, Bool.or_eq_true, Bool.and_eq_true, within_iff,
    decide_eq_true_eq] at h
  exact within_eq_false.mpr (by omega)

theorem MemStep.unguarded {p : Nat → Bool} {m m' : Mem} (h : MemStep p m m') (hp : ∀ a, p a = true → guardedBytes a = false) :
    MemStep (fun a => !guardedBytes a) m m' :=
  h.mono fun a ha => by simp [hp a ha]

/-- Bytes outside 0x0B00 to 0x14DF are no guarded record's. -/
theorem MemStep.outsideRecords {lo len : Nat} {m m' : Mem} (h : MemStep (within lo len) m m')
    (hl : lo + len ≤ 0x0B00 ∨ 0x14E0 ≤ lo) : MemStep (fun a => !guardedBytes a) m m' :=
  h.unguarded fun a ha => by
    rw [within_iff] at ha
    exact within_eq_false.mpr (by omega)

theorem BlockStep.inv {s u : State} (h : BlockStep s u) : InvStep s u where
  mem := MemStep.unguarded ⟨h.wf, h.bytes⟩ fun _ => not_guarded_of_blockBytes
  registers := fun r => ⟨h.cause r.1, h.mask ▸ r.2⟩
  energies := by rw [h.meter]; exact id
  estimates := h.est
  timebase := by rw [h.tb]; exact id
  fifo := by rw [h.fifo]; exact id

/-! ### Samples and closes -/

theorem countSample_inv (s : State) (x : SampleSet) : InvStep s (s.countSample x) where
  mem := .refl _ _
  registers := id
  energies h k := by
    simp only [State.countSample, State.accumulate, Fin.getElem_fin, getElem_tab]
    exact h k
  estimates := id
  timebase := id
  fifo := id

theorem holdSample_inv (s : State) (x : SampleSet) : InvStep s (s.holdSample x) := ⟨.refl _ _, id, id, id, id, id⟩

theorem giveBack_inv (s : State) (l : LastSample) : InvStep s (s.giveBack l) where
  mem := .refl _ _
  registers := id
  energies h k := by
    simp only [State.giveBack, Fin.getElem_fin, getElem_tab]
    exact h k
  estimates := id
  timebase := id
  fifo := id

theorem takeSample_inv (s : State) (x : SampleSet) : InvStep s (s.takeSample x) := by
  unfold State.takeSample
  split
  · exact .refl s
  · split
    · exact countSample_inv s x
    · exact holdSample_inv s x

/-- The beginning of a frame or a cycle with its own sample keeps what the beginning alone keeps. -/
theorem withOwnSample_inv {s : State} {begin : State → State}
    (h : ∀ v, (v = s ∨ ∃ l, v = s.giveBack l) → InvStep v (begin v)) : InvStep s (s.withOwnSample begin) := by
  unfold State.withOwnSample
  split
  · exact h s (.inl rfl)
  · rename_i l _
    exact ((giveBack_inv s l).trans (h _ (.inr ⟨l, rfl⟩))).trans (countSample_inv _ _)

/-- R32, R33: whatever the frame adds, the counter and the residue stay in range. -/
theorem addEnergy_inRange (energy residue inc : Nat) :
    (addEnergy energy residue inc).1 ≤ energyLimit ∧ (addEnergy energy residue inc).2 < 1000000 :=
  ⟨Nat.min_le_left _ _, Nat.mod_lt _ (by decide)⟩

theorem notice_unguarded (s : State) (kind : NoticeKind) (subject reason : Nat) (value : Word) :
    MemStep (fun a => !guardedBytes a) s.mem (s.notice kind subject reason value).mem :=
  (notice_block s kind subject reason value).inv.mem

theorem takeIfAllowed_unguarded (s : State) : MemStep (fun a => !guardedBytes a) s.mem s.takeIfAllowed.mem := by
  have load : MemStep (fun a => !guardedBytes a) s.mem s.loadSettings.mem :=
    (memStep_writeWord _ _ _).outsideRecords (by decide)
  unfold State.takeIfAllowed State.take
  split
  · split
    · exact load
    · exact load.trans (notice_unguarded _ _ _ _ _)
  · exact .refl _ _

theorem beginClose_unguarded (s : State) (note : Option NoticeKind) :
    MemStep (fun a => !guardedBytes a) s.mem (s.beginClose note).mem := by
  cases note with
  | none => exact .refl _ _
  | some n => exact notice_unguarded s.numberFrame _ _ _ _

theorem openedAfter_unguarded (s : State) (state : TimebaseState) (note : Option NoticeKind) :
    MemStep (fun a => !guardedBytes a) s.mem (s.openedAfter state note).mem :=
  (beginClose_unguarded s note).trans (takeIfAllowed_unguarded _)

theorem latched_unguarded (s : State) (seq : Word) : MemStep (fun a => !guardedBytes a) s.mem (s.latched seq).mem := by
  unfold State.latched
  split
  · exact ((memStep_writeWords _ _ _).outsideRecords (.inr (by decide))).trans
      ((memStep_writeWord _ _ _).outsideRecords (by decide))
  · exact .refl _ _

/-- A close writes the guarded records at the end of its event alone. -/
theorem closeCounted_unguarded (s : State) (short : Bool) (cycleCount : Nat) (state : TimebaseState)
    (note : Option NoticeKind) :
    MemStep (fun a => !guardedBytes a) s.mem (s.closeCounted short cycleCount state note).mem := by
  unfold State.closeCounted
  obtain ⟨s7, f, block, closed, -⟩ := closeFrameIn_eq { s with choices := s.choices + 1 } (Config.closeOrder s.choices)
    short cycleCount state note
  rw [closed]
  exact ((openedAfter_unguarded { s with choices := s.choices + 1 } state note).trans (latched_unguarded _ _)).trans
    block.inv.mem

theorem closeCounted_inv (s : State) (short : Bool) (cycleCount : Nat) (state : TimebaseState)
    (note : Option NoticeKind) (lock : s.tb.lockPending = true → state = .freeRun) :
    InvStep s (s.closeCounted short cycleCount state note) := by
  obtain ⟨f, w, close⟩ := closeCounted_step s short cycleCount state note
  exact
    { mem := closeCounted_unguarded s short cycleCount state note
      registers := fun r => ⟨close.cause r.1, by rw [close.mask]; exact r.2⟩
      energies := fun _ k => by
        rw [close.meter k]
        exact addEnergy_inRange _ _ _
      estimates := close.est
      timebase := fun _ => by
        rw [close.tb]
        exact ⟨rfl, lock⟩
      fifo := by rw [close.fifo]; exact id }

theorem closeFrame_inv (s : State) (short : Bool) (cycleCount : Nat) (state : TimebaseState)
    (note : Option NoticeKind) (lock : s.tb.lockPending = true → state = .freeRun) :
    InvStep s (s.closeFrame short cycleCount state note) := by
  refine withOwnSample_inv fun v hv => closeCounted_inv v short cycleCount state note ?_
  rcases hv with rfl | ⟨l, rfl⟩
  · exact lock
  · exact lock

/-! ### Crossings and dead phases -/

theorem phaseLive_inv (s : State) (p : Phase) : InvStep s (s.phaseLive p) := by
  have filed := notice_block s .phaseLive (numberOf p) 0 (BitVec.ofNat 32 (s.phases[p].half.getD 0))
  unfold State.phaseLive
  dsimp only
  split
  · rename_i l1
    have h := filed.inv
    exact ⟨h.mem, h.registers, h.energies, h.estimates, fun tb => ⟨(h.timebase tb).1, fun _ => l1.2⟩, h.fifo⟩
  · exact filed.inv

theorem lockAtOpen_inv (s : State) : InvStep s s.lockAtOpen := by
  unfold State.lockAtOpen
  refine InvStep.trans ?_ (notice_block _ _ _ _ _).inv
  exact ⟨.refl _ _, id, id, id, fun _ => ⟨rfl, nofun⟩, id⟩

theorem takeLock_inv (s : State) : InvStep s s.takeLock := by
  unfold State.takeLock
  split
  · exact lockAtOpen_inv s
  · refine InvStep.trans ?_ (closeFrame_inv _ _ _ _ _ nofun)
    exact ⟨.refl _ _, id, id, id, fun tb => ⟨tb.1, nofun⟩, id⟩

theorem endL1Cycle_inv (s : State) (lock : s.tb.lockPending = false) : InvStep s s.endL1Cycle := by
  unfold State.endL1Cycle
  dsimp only
  split
  · exact closeFrame_inv _ _ _ _ _ (by rw [lock]; nofun)
  · exact withOwnSample_inv fun v _ => ⟨.refl _ _, id, id, id, id, id⟩

theorem risingL1_inv (s : State) : InvStep s s.risingL1 := by
  unfold State.risingL1
  split
  · exact takeLock_inv s
  · rename_i lock
    split
    · split
      · exact endL1Cycle_inv s (Bool.eq_false_iff.mpr lock)
      · exact .refl s
    · exact .refl s

theorem crossing_inv (s : State) (p : Phase) (pol : Polarity) : InvStep s (s.crossing p pol) := by
  have recorded (x : Vector PhaseStatus 3) : InvStep s { s with phases := x } := ⟨.refl _ _, id, id, id, id, id⟩
  have live (q : Bool) (v : State) : InvStep v (if q = true then v.phaseLive p else v) := by
    cases q
    · exact .refl v
    · exact phaseLive_inv v p
  unfold State.crossing
  dsimp only
  split
  · split
    · exact ((recorded _).trans (live _ _)).trans (risingL1_inv _)
    · exact (recorded _).trans (live _ _)
  · exact .refl s

theorem l1Dead_inv (s : State) : InvStep s s.l1Dead := by
  unfold State.l1Dead
  split
  · exact closeFrame_inv _ _ _ _ _ fun _ => rfl
  · exact ⟨.refl _ _, id, id, id, fun tb => ⟨tb.1, nofun⟩, id⟩

theorem phaseDies_inv (s : State) (p : Phase) : InvStep s (s.phaseDies p) := by
  have dead (x : Vector PhaseStatus 3) (kind : NoticeKind) (subject reason : Nat) (value : Word) :
      InvStep s (State.notice { s with phases := x } kind subject reason value) :=
    InvStep.trans (u := { s with phases := x }) ⟨.refl _ _, id, id, id, id, id⟩ (notice_block _ _ _ _ _).inv
  unfold State.phaseDies
  dsimp only
  split
  · split
    · exact (dead _ _ _ _ _).trans (l1Dead_inv _)
    · exact dead _ _ _ _ _
  · exact .refl s

theorem closeIfRun_inv (s : State) : InvStep s s.closeIfRun := by
  unfold State.closeIfRun
  split
  · exact closeFrame_inv _ _ _ _ _ fun _ => rfl
  · exact .refl s

/-! ### Takes, host writes and publication -/

/-- A take whose work keeps the invariant. -/
theorem take1_inv (s : State) (kind : Option OrderKind) (work : SlotNo → SlotFields → State → State)
    (hw : ∀ e f u, InvStep u (work e f u)) : InvStep s (s.take1 kind work) := by
  rcases take1_cases s kind work with h | ⟨e, rest, head, -, -, h⟩
  · rw [h]
    exact .refl s
  · rw [h]
    have taken : InvStep s { s with fifo := rest } :=
      ⟨.refl _ _, id, id, id, id, fun n => (List.nodup_cons.mp (head ▸ n)).2⟩
    exact (taken.trans (hold_after s e rest).inv).trans (hw _ _ _)

theorem takeMembers_inv (s : State) (kind : OrderKind) (work : SlotNo → SlotFields → List OutletIx → State → State)
    (hw : ∀ e f ms u, InvStep u (work e f ms u)) : InvStep s (s.takeMembers kind work) := by
  refine take1_inv s _ _ fun e f u => ?_
  unfold State.withMembers
  split
  · exact (refuse_block _ _ _ _ _).inv
  · exact hw _ _ _ _

theorem clearEnergyMembers_inv (s : State) (e : SlotNo) (f : SlotFields) (ms : List OutletIx) :
    InvStep s (s.clearEnergyMembers e f ms) := by
  obtain ⟨m, block, meter⟩ := clearEnergyMembers_after s e f ms
  refine InvStep.trans (u := { s with meter := m }) ?_ block.inv
  exact ⟨.refl _ _, id, fun h k => by rw [meter]; exact h k, id, id, id⟩

theorem latchOrder_inv (s : State) (e : SlotNo) : InvStep s (s.latchOrder e) := by
  obtain ⟨p, m, block, mem⟩ := latchOrder_after s e
  refine InvStep.trans (u := { s with mem := m, pub := p }) ?_ block.inv
  exact ⟨mem.outsideRecords (by decide), id, id, id, id, id⟩

theorem acceptSense_inv (s : State) (k : OutletIx) : InvStep s (s.acceptSense k) := by
  obtain ⟨x, block⟩ := acceptSense_after s k
  exact InvStep.trans (u := { s with sense := x }) ⟨.refl _ _, id, id, id, id, id⟩ block.inv

theorem dropHead_inv (s : State) : InvStep s s.dropHead := by
  unfold State.dropHead
  split
  · exact .refl s
  · rename_i e rest head
    split
    · exact .refl s
    · refine InvStep.trans (u := { s with fifo := rest }) ?_ (raise_block _ _).inv
      exact ⟨.refl _ _, id, id, id, id, fun n => (List.nodup_cons.mp (head ▸ n)).2⟩

theorem PortStep.inv {p : Nat → Bool} {s u : State} (h : PortStep p s u) (hp : ∀ a, p a = true → guardedBytes a = false) :
    InvStep s u where
  mem := h.mem.unguarded hp
  registers := fun r => ⟨h.cause r.1, h.maskr r.2⟩
  energies := by rw [h.same]; exact id
  estimates := by rw [h.same]; exact id
  timebase := by rw [h.same]; exact id
  fifo := h.fifoN

/-- The host writes no guarded record (R184). -/
theorem not_guarded_of_hostWriteBytes {a : Nat} (h : hostWriteBytes a = true) : guardedBytes a = false := by
  simp only [hostWriteBytes, hostBytes, hostOwnedArea, slotArea, addrHold, addrMissedKinds, Bool.or_eq_true,
    Bool.and_eq_true, within_iff, decide_eq_true_eq] at h
  exact within_eq_false.mpr (by omega)

theorem hostWriteWord_inv (s : State) (a : Nat) (v : Word) : InvStep s (s.hostWriteWord a v) :=
  (hostWriteWord_port s a v).inv fun _ hb => not_guarded_of_hostWriteBytes (Bool.and_eq_true_iff.mp hb).2

theorem publish_inv (s : State) : InvStep s s.publish := by
  unfold State.publish
  split
  · exact ⟨(memStep_writeFrame _ _ _).outsideRecords (.inr (by cases s.pub.index <;> decide)), id, id, id, id, id⟩
  · exact .refl s
  · exact .refl s

/-- R41: a flip writes the published index, its sequence and the timebase word. -/
theorem memStep_timebaseWord (m : Mem) (state : TimebaseState) : MemStep (within addrTimebase 4) m (timebaseWord m state) := by
  unfold timebaseWord
  split
  · exact .refl _ _
  · exact memStep_writeWord _ _ _

theorem flip_inv (s : State) : InvStep s s.flip := by
  unfold State.flip
  split
  · exact .refl s
  · dsimp only
    refine InvStep.trans ?_ (raise_block _ _).inv
    exact ⟨((memStep_timebaseWord _ _).outsideRecords (by decide)).trans
      (((memStep_writeWord _ _ _).outsideRecords (by decide)).trans ((memStep_writeWord _ _ _).outsideRecords (by decide))),
      id, id, id, id, id⟩

end Sys2Proof.Machine
end

section
/-! PROOF. Both invariants hold at reset, and every step keeps the first (R33, R86, R170, R185, R187). -/
namespace Sys2Proof.Machine

open Sys2Proof.Safety

/-! ### The reset state -/

/-- A record of written words shows its body, with count 0. -/
theorem recordShown_of_words {m : Mem} {a : Nat} {body : List Nat}
    (h : ∀ i, (hi : i < body.length) → readWord m (a + 4 * i) = BitVec.ofNat 32 body[i]) : recordShown m a body :=
  ⟨0, fun i hi => by simpa using h i hi⟩

theorem readWord_of_zero {m : Mem} {a : Nat} (h : ∀ b, within a 4 b = true → readByte m b = 0) : readWord m a = 0 := by
  rw [readWord, h (a + 3) (within_iff.mpr (by omega)), h (a + 2) (within_iff.mpr (by omega)),
    h (a + 1) (within_iff.mpr (by omega)), h a (within_iff.mpr (by omega))]
  rfl

/-- R185: after a reset every guarded record shows its block's reset record. -/
theorem recordsShown_atReset {s : State} (kind : ResetKind) {m : Mem} (wf : MemWf m) (mem : s.mem = resetMem kind m)
    (branches : ∀ a, within 0x1480 0x80 a = true → readByte (keptMem kind m) a = 0)
    (outlets : ∀ k : OutletIx, s.outlets[k] = Outlet.reset) (watches : ∀ w : WatchNo, s.watches[w] = WatchRec.reset)
    (cycles : ∀ c : RecNo, s.cycles[c] = CycleRec.free) (loads : ∀ b : Branch, s.loads[b] = BranchLoad.reset)
    (shed : ∀ b : Branch, s.shed[b] = ShedRec.reset) : RecordsShown s := by
  obtain ⟨-, -, -, zero⟩ := guardedAtReset_resetMem kind wf branches
  refine ⟨fun k => ?_, fun w => ?_, fun c => ?_, fun b => ?_⟩
  · rw [mem, outlets]
    exact recordShown_of_words fun i hi => outletWord_resetMem kind wf k hi
  · rw [mem, watches]
    exact recordShown_of_words fun i hi => watchWord_resetMem kind wf w hi
  · rw [mem, cycles]
    exact recordShown_of_words fun i hi => cycleWord_resetMem kind wf c hi
  · rw [mem, loads, shed]
    have body : branchBody BranchLoad.reset ShedRec.reset = [0, 0, 0, 0] := by decide
    rw [body]
    refine recordShown_of_words fun i hi => ?_
    have index : i < 4 := hi
    rw [readWord_of_zero fun a ha => zero a (within_mono (by omega) (by omega) ha)]
    interval_cases i <;> rfl

/-- No reset keeps a byte of the branch records. -/
theorem branchBytes_keptMem (kind : ResetKind) (m : Mem) {a : Nat} (ha : within 0x1480 0x80 a = true) :
    readByte (keptMem kind m) a = 0 := by
  by_cases powerOn : kind = .powerOn
  · rw [powerOn]
    rfl
  · rw [within_iff] at ha
    rw [readByte_keptMem_outside powerOn, if_neg]
    · simp only [hostOwnedArea, Bool.or_eq_true, Bool.and_eq_true, decide_eq_true_eq]
      omega
    · simp only [slotArea, Bool.and_eq_false_iff, decide_eq_false_iff_not]
      omega

theorem reset_outlet (k : OutletIx) : State.reset.outlets[k] = Outlet.reset := Vector.getElem_replicate k.isLt
theorem reset_watch (w : WatchNo) : State.reset.watches[w] = WatchRec.reset := Vector.getElem_replicate w.isLt
theorem reset_cycle (c : RecNo) : State.reset.cycles[c] = CycleRec.free := Vector.getElem_replicate c.isLt
theorem reset_load (b : Branch) : State.reset.loads[b] = BranchLoad.reset := Vector.getElem_replicate b.isLt
theorem reset_shed (b : Branch) : State.reset.shed[b] = ShedRec.reset := Vector.getElem_replicate b.isLt
theorem reset_move (k : OutletIx) : State.reset.moves[k] = .none := Vector.getElem_replicate k.isLt
theorem reset_driver (d : DriverNo) : State.reset.drivers[d] = .free := Vector.getElem_replicate d.isLt

theorem reset_meter (k : OutletIx) : State.reset.meter[k] = MeterOutlet.opened (defaultBranch k) 0 0 :=
  getElem_tab (fun k : OutletIx => MeterOutlet.opened (defaultBranch k) 0 0) k

/-- The invariant of a state whose blocks are as after a reset. -/
theorem inv_atReset {s : State} (kind : ResetKind) {m : Mem} (wf : MemWf m) (mem : s.mem = resetMem kind m)
    (same : s = { State.reset with
      pending := s.pending, mem := s.mem, sdo := s.sdo, sense := s.sense, choices := s.choices }) : Inv s where
  memory := mem ▸ memWf_resetMem kind wf
  registers := by
    rw [same]
    exact ⟨(by decide : causeRestart &&& ~~~causeBits = 0), BitVec.zero_and⟩
  energies k := by
    rw [same]
    show energyInRange State.reset.meter[k]
    rw [reset_meter]
    exact ⟨Nat.zero_le _, Nat.zero_lt_succ _⟩
  estimates k := by
    rw [same]
    show estimatesInRange State.reset.outlets[k]
    rw [reset_outlet]
    exact ⟨⟨by decide, by decide⟩, by decide, by decide⟩
  timebase := by
    rw [same]
    exact ⟨rfl, nofun⟩
  records _ := recordsShown_atReset kind wf mem (fun a ha => branchBytes_keptMem kind m ha)
    (fun k => by rw [same]; exact reset_outlet k) (fun w => by rw [same]; exact reset_watch w)
    (fun c => by rw [same]; exact reset_cycle c) (fun b => by rw [same]; exact reset_load b)
    (fun b => by rw [same]; exact reset_shed b)
  fifo := by
    rw [same]
    exact List.nodup_nil
  noScanDue := by rw [same]; rfl

/-- The agreement of the outlets, the drivers, the queue, the reservations and the cycles, all in their reset state. -/
theorem control_of_reset {s : State} (outlets : ∀ k : OutletIx, s.outlets[k] = Outlet.reset)
    (moves : ∀ k : OutletIx, s.moves[k] = .none) (drivers : ∀ d : DriverNo, s.drivers[d] = .free)
    (cycles : ∀ c : RecNo, s.cycles[c] = CycleRec.free) (loads : ∀ b : Branch, s.loads[b] = BranchLoad.reset)
    (queue : s.queue = []) (waitList : s.waitList = []) : Control s where
  moving k := by rw [moves, outlets]; rfl
  owned k := by rw [outlets]; decide
  pending k := by rw [outlets]; exact trivial
  unverified k h := by rw [moves] at h; cases h
  wholeFrame k h := by rw [outlets] at h; cases h
  faultKind k := by rw [outlets]; decide
  queueOrder := queue ▸ List.Pairwise.nil
  queueArrivals := by rw [queue]; exact ⟨List.nodup_nil, nofun⟩
  queueOutlets := queue ▸ List.nodup_nil
  queued k := by rw [queue, outlets]; exact ⟨nofun, nofun⟩
  queueOwners := by rw [queue]; exact nofun
  drivers d := by rw [drivers]; exact trivial
  driven k h := by rw [moves] at h; cases h
  oneDriver d _ _ h := absurd (drivers d) h
  waitOutlets := waitList ▸ List.nodup_nil
  waitMoves := by rw [waitList]; exact nofun
  waiting k h := by rw [moves] at h; cases h
  noIdleDriver h := absurd waitList h
  reserved b r h := by rw [loads] at h; cases h
  granted k h := by rw [outlets] at h; cases h
  members k c := by rw [outlets, cycles]; exact ⟨nofun, nofun⟩
  participants c := by rw [cycles]; exact List.nodup_nil
  freeRecords c _ := cycles c
  memberOwners k c h := by rw [outlets] at h; cases h
  resting k h := by rw [outlets] at h; cases h

/-- Settles O56: each part holds of the reset records, and the records of exchange memory show them. -/
theorem invariantAtReset : Obligations.InvariantAtReset := by
  unfold Obligations.InvariantAtReset
  exact ⟨inv_atReset .powerOn memWf_nil (reset_mem []) (by simp only [State.reset]),
    control_of_reset reset_outlet reset_move reset_driver reset_cycle reset_load rfl rfl⟩

/-! ### Events -/

/-- The records that the guarded records show are as they were. -/
structure SameRecords (s u : State) : Prop where
  outlets : u.outlets = s.outlets
  watches : u.watches = s.watches
  cycles : u.cycles = s.cycles
  loads : u.loads = s.loads
  shed : u.shed = s.shed
  scanDue : u.scanDue = s.scanDue

theorem recordsShown_of_same {s u : State} (same : SameRecords s u) (mem : MemStep (fun a => !guardedBytes a) s.mem u.mem)
    (shown : RecordsShown s) : RecordsShown u := by
  have kept : ShownIn u.mem s := shownIn_congr mem shown
  exact ⟨fun k => by rw [same.outlets]; exact kept.outlets k, fun w => by rw [same.watches]; exact kept.watches w,
    fun c => by rw [same.cycles]; exact kept.cycles c, fun b => by rw [same.loads, same.shed]; exact kept.branches b⟩

theorem inv_of_same {s u : State} (inv : Inv s) (step : InvStep s u) (same : SameRecords s u)
    (running : u.resetting = none → s.resetting = none) : Inv u where
  memory := step.mem.wf inv.memory
  registers := step.registers inv.registers
  energies := step.energies inv.energies
  estimates := step.estimates inv.estimates
  timebase := step.timebase inv.timebase
  records h := recordsShown_of_same same step.mem (inv.records (running h))
  fifo := step.fifo inv.fifo
  noScanDue := same.scanDue.trans inv.noScanDue

theorem inv_advance {s : State} (inv : Inv s) (t : Nat) : Inv (s.advance t) :=
  inv_of_same inv ⟨.refl _ _, id, id, id, id, id⟩ ⟨rfl, rfl, rfl, rfl, rfl, rfl⟩ id

/-- An event whose work changes no record that a guarded record shows. -/
theorem inv_quietEvent {s : State} (inv : Inv s) (t : Nat) {work : State → State}
    (h : ∀ v, InvStep v (work v) ∧ SameRecords v (work v)) : Inv (s.quietEvent t work) := by
  by_cases running : s.resetting = none
  · rw [quietEvent_running running]
    exact inv_of_same (inv_advance inv t) (h _).1 (h _).2 fun _ => running
  · rw [quietEvent_resetting running]
    exact inv

/-- R185: an event rewrites the records that its work has changed. -/
theorem inv_event {s : State} (inv : Inv s) (t : Nat) {work : State → State} (h : ∀ v, InvStep v (work v)) :
    Inv (s.event t work) := by
  by_cases running : s.resetting = none
  · rw [event_running running]
    have before := inv_advance inv t
    have step := (h (s.advance t)).trans (scanIfDue_block (work (s.advance t))).inv
    have rewritten := memStep_publishRecords (s.advance t) (work (s.advance t)).scanIfDue
    exact
      { memory := rewritten.wf (step.mem.wf before.memory)
        registers := step.registers before.registers
        energies := step.energies before.energies
        estimates := step.estimates before.estimates
        timebase := step.timebase before.timebase
        records := fun _ => publishRecords_shown (step.mem.wf before.memory)
          (shownIn_congr step.mem (before.records running))
        fifo := step.fifo before.fifo
        noScanDue := scanIfDue_scanDue _ }
  · rw [event_resetting running]
    exact inv

/-! ### Quiet work and the records -/

theorem sameRecords_refl (s : State) : SameRecords s s := ⟨rfl, rfl, rfl, rfl, rfl, rfl⟩

theorem PortStep.sameRecords {p : Nat → Bool} {s u : State} (h : PortStep p s u) : SameRecords s u := by
  rw [h.same]
  exact ⟨rfl, rfl, rfl, rfl, rfl, rfl⟩

theorem takeSample_sameRecords (s : State) (x : SampleSet) : SameRecords s (s.takeSample x) := by
  unfold State.takeSample
  split
  · exact sameRecords_refl s
  · split <;> exact ⟨rfl, rfl, rfl, rfl, rfl, rfl⟩

theorem plannedPulse_sameRecords (s : State) (d : DriverNo) : SameRecords s (s.plannedPulse d) := by
  unfold State.plannedPulse
  repeat' split
  all_goals exact ⟨rfl, rfl, rfl, rfl, rfl, rfl⟩

theorem publish_sameRecords (s : State) : SameRecords s s.publish := by
  unfold State.publish
  split <;> exact ⟨rfl, rfl, rfl, rfl, rfl, rfl⟩

theorem flip_sameRecords (s : State) : SameRecords s s.flip := by
  unfold State.flip
  split <;> exact ⟨rfl, rfl, rfl, rfl, rfl, rfl⟩

theorem dropHead_sameRecords (s : State) : SameRecords s s.dropHead := by
  unfold State.dropHead
  split
  · exact sameRecords_refl s
  · split <;> exact ⟨rfl, rfl, rfl, rfl, rfl, rfl⟩

/-! ### Every command -/

theorem inv_sdo {s : State} (inv : Inv s) (bytes : List Byte) : Inv { s with sdo := bytes } :=
  inv_of_same inv ⟨.refl _ _, id, id, id, id, id⟩ ⟨rfl, rfl, rfl, rfl, rfl, rfl⟩ id

theorem inv_beginReset {s : State} (inv : Inv s) (kind : ResetKind) : Inv (s.beginReset kind) where
  memory := by
    cases kind
    · exact memWf_nil
    · exact inv.memory
    · exact inv.memory
  registers := inv.registers
  energies := inv.energies
  estimates := inv.estimates
  timebase := inv.timebase
  records := nofun
  fifo := inv.fifo
  noScanDue := inv.noScanDue

theorem inv_rawSense {s : State} (inv : Inv s) (x : Vector Sense 48) : Inv { s with sense := x } :=
  inv_of_same inv ⟨.refl _ _, id, id, id, id, id⟩ ⟨rfl, rfl, rfl, rfl, rfl, rfl⟩ id

theorem inv_hostWrite {s : State} (inv : Inv s) (t a : Nat) (v : Word) :
    Inv (s.quietEvent t fun s => s.hostWriteWord a v) :=
  inv_quietEvent inv t fun u => ⟨hostWriteWord_inv u a v, (hostWriteWord_port u a v).sameRecords⟩

/-- Every command keeps the invariant. -/
theorem inv_exec {s u : State} {i : Instr} (inv : Inv s) (next : exec i s = .next u) : Inv u := by
  cases i <;> simp only [exec] at next
  case powerOnReset | pinReset =>
    cases next
    exact inv_beginReset inv _
  case endOfReset =>
    unfold execEndOfReset at next
    split at next
    · cases next
      exact inv
    · cases next
      exact inv_atReset _ inv.memory (afterReset_mem _ _) (by simp only [State.afterReset])
  case rawSenseChange t k level =>
    unfold execRawSenseChange at next
    split at next
    · cases next
      exact inv_rawSense inv _
    · cases next
      exact inv_rawSense (inv_advance inv t) _
  case read t addr n =>
    cases next
    exact inv_sdo (inv_quietEvent inv t fun v => ⟨.refl v, sameRecords_refl v⟩) _
  case illegalCommand t c n =>
    cases next
    refine inv_sdo (inv_quietEvent inv t fun v => ?_) _
    split
    · exact ⟨.refl v, sameRecords_refl v⟩
    · exact ⟨(raise_block _ _).inv, rfl, rfl, rfl, rfl, rfl, rfl⟩
  case softReset | post | slotWordWrite | latchStateWrite | missedKindsWrite | causeWrite | maskWrite | unmappedWrite =>
    cases next
    exact inv_hostWrite inv _ _ _
  case hostWordWrite =>
    cases next
    exact inv_quietEvent inv _ fun v =>
      ⟨(hostWriteWords_port v _).inv fun _ => not_guarded_of_hostWriteBytes, (hostWriteWords_port v _).sameRecords⟩
  case sample =>
    cases next
    exact inv_quietEvent inv _ fun v => ⟨takeSample_inv v _, takeSample_sameRecords v _⟩
  case framePublication =>
    cases next
    exact inv_quietEvent inv _ fun v => ⟨publish_inv v, publish_sameRecords v⟩
  case frameFlip =>
    cases next
    exact inv_quietEvent inv _ fun v => ⟨flip_inv v, flip_sameRecords v⟩
  case partTimeRewrite =>
    cases next
    exact inv_quietEvent inv _ fun v =>
      ⟨⟨(memStep_writeWord _ _ _).outsideRecords (by decide), id, id, id, id, id⟩, rfl, rfl, rfl, rfl, rfl, rfl⟩
  case pulseStart =>
    cases next
    exact inv_quietEvent inv _ fun v => ⟨(plannedPulse_block v _).inv, plannedPulse_sameRecords v _⟩
  case slotDrop =>
    cases next
    exact inv_quietEvent inv _ fun v => ⟨dropHead_inv v, dropHead_sameRecords v⟩
  case senseChange => cases next; exact inv_event inv _ fun v => acceptSense_inv v _
  case zeroCrossing => cases next; exact inv_event inv _ fun v => crossing_inv v _ _
  case phaseDead => cases next; exact inv_event inv _ fun v => phaseDies_inv v _
  case frameClose => cases next; exact inv_event inv _ closeIfRun_inv
  case closeSpacingElapsed => cases next; exact inv_event inv _ fun v => (spacingScan_block v _).inv
  case queuePatience => cases next; exact inv_event inv _ fun v => (patienceAt_block v _).inv
  case pulseEnd => cases next; exact inv_event inv _ fun v => (widthPassed_block v _).inv
  case verifyDeadline => cases next; exact inv_event inv _ fun v => (deadlineReached_block v _).inv
  case restDeadline => cases next; exact inv_event inv _ fun v => (restOver_block v _).inv
  case orderKindRefused =>
    cases next
    exact inv_event inv _ fun v => take1_inv v _ _ fun _ _ _ => (refuse_block _ _ _ _ _).inv
  case switchOn =>
    cases next
    exact inv_event inv _ fun v => takeMembers_inv v _ _ fun _ _ _ _ => (switchOnMembers_block _ _ _ _).inv
  case switchOff =>
    cases next
    exact inv_event inv _ fun v => takeMembers_inv v _ _ fun _ _ _ _ => (switchOffMembers_block _ _ _ _).inv
  case cycle =>
    cases next
    exact inv_event inv _ fun v => takeMembers_inv v _ _ fun _ _ _ _ => (cycleOrder_block _ _ _ _).inv
  case cancelCycle =>
    cases next
    exact inv_event inv _ fun v => take1_inv v _ _ fun _ _ _ => (cancelOrder_block _ _ _).inv
  case clearFault =>
    cases next
    exact inv_event inv _ fun v => takeMembers_inv v _ _ fun _ _ _ _ => (clearFaultMembers_block _ _ _ _).inv
  case clearEnergy =>
    cases next
    exact inv_event inv _ fun v => takeMembers_inv v _ _ fun _ _ _ u => clearEnergyMembers_inv u _ _ _
  case latchEnergy =>
    cases next
    exact inv_event inv _ fun v => take1_inv v _ _ fun _ _ u => latchOrder_inv u _
  case rearmWatch =>
    cases next
    exact inv_event inv _ fun v => take1_inv v _ _ fun _ _ _ => (rearmOrder_block _ _ _).inv

/-- Settles O57: an idle step changes nothing, and every command keeps the invariant. -/
theorem invariantKeptByStep : Obligations.InvariantKeptByStep := by
  unfold Obligations.InvariantKeptByStep
  intro s u inv next
  unfold step at next
  split at next
  · cases next
    exact inv
  · rename_i c rest _
    have waiting : Inv { s with pending := rest } :=
      inv_of_same inv ⟨.refl _ _, id, id, id, id, id⟩ ⟨rfl, rfl, rfl, rfl, rfl, rfl⟩ id
    exact inv_exec waiting next

end Sys2Proof.Machine
end

section
/-! PROOF. What every command leaves as it is: the bytes of exchange memory that are not its own, and the state that other
commands change (R4 to R13, R39 to R48, R170 to R172, R184, R187, R189). -/
namespace Sys2Proof.Machine

open Sys2Proof.Safety

/-! ### Crossings, dead phases and closes -/

/-- What a close of a frame, a crossing or a dead phase leaves to the port, the inputs and the intake. -/
structure FrontStep (s u : State) : Prop where
  pending : u.pending = s.pending
  resetting : u.resetting = s.resetting
  now : u.now = s.now
  mask : u.mask = s.mask
  sdo : u.sdo = s.sdo
  sense : u.sense = s.sense
  fifo : u.fifo = s.fifo
  mem : MemStep closeBytes s.mem u.mem

theorem FrontStep.refl (s : State) : FrontStep s s := ⟨rfl, rfl, rfl, rfl, rfl, rfl, rfl, .refl _ _⟩

theorem FrontStep.trans {s u v : State} (h : FrontStep s u) (g : FrontStep u v) : FrontStep s v :=
  ⟨g.pending.trans h.pending, g.resetting.trans h.resetting, g.now.trans h.now, g.mask.trans h.mask, g.sdo.trans h.sdo,
    g.sense.trans h.sense, g.fifo.trans h.fifo, h.mem.trans g.mem⟩

theorem BlockStep.front {s u : State} (h : BlockStep s u) : FrontStep s u :=
  ⟨h.pending, h.resetting, h.now, h.mask, h.sdo, h.sense, h.fifo, blockStep_memStep h⟩

theorem closeCounted_front (s : State) (short : Bool) (cycleCount : Nat) (state : TimebaseState)
    (note : Option NoticeKind) : FrontStep s (s.closeCounted short cycleCount state note) := by
  obtain ⟨f, w, h⟩ := closeCounted_step s short cycleCount state note
  exact ⟨h.pending, h.resetting, h.now, h.mask, h.sdo, h.sense, h.fifo, h.mem⟩

theorem withOwnSample_front {s : State} {begin : State → State} (h : ∀ v, FrontStep v (begin v)) :
    FrontStep s (s.withOwnSample begin) := by
  unfold State.withOwnSample
  split
  · exact h s
  · rename_i l _
    have g := h (s.giveBack l)
    exact ⟨g.pending, g.resetting, g.now, g.mask, g.sdo, g.sense, g.fifo, g.mem⟩

theorem closeFrame_front (s : State) (short : Bool) (cycleCount : Nat) (state : TimebaseState)
    (note : Option NoticeKind) : FrontStep s (s.closeFrame short cycleCount state note) :=
  withOwnSample_front fun v => closeCounted_front v short cycleCount state note

theorem phaseLive_front (s : State) (p : Phase) : FrontStep s (s.phaseLive p) := by
  obtain ⟨b, h⟩ := phaseLive_after s p
  exact FrontStep.trans (u := { s with tb := { s.tb with lockPending := b } })
    ⟨rfl, rfl, rfl, rfl, rfl, rfl, rfl, .refl _ _⟩ h.front

theorem takeLock_front (s : State) : FrontStep s s.takeLock := by
  unfold State.takeLock
  split
  · unfold State.lockAtOpen
    refine FrontStep.trans ?_ (notice_block _ _ _ _ _).front
    exact ⟨rfl, rfl, rfl, rfl, rfl, rfl, rfl, .refl _ _⟩
  · refine FrontStep.trans ?_ (closeFrame_front _ _ _ _ _)
    exact ⟨rfl, rfl, rfl, rfl, rfl, rfl, rfl, .refl _ _⟩

theorem endL1Cycle_front (s : State) : FrontStep s s.endL1Cycle := by
  unfold State.endL1Cycle
  dsimp only
  split
  · exact closeFrame_front _ _ _ _ _
  · exact withOwnSample_front fun v => ⟨rfl, rfl, rfl, rfl, rfl, rfl, rfl, .refl _ _⟩

theorem risingL1_front (s : State) : FrontStep s s.risingL1 := by
  unfold State.risingL1
  split
  · exact takeLock_front s
  · split
    · split
      · exact endL1Cycle_front s
      · exact .refl s
    · exact .refl s

theorem crossing_front (s : State) (p : Phase) (pol : Polarity) : FrontStep s (s.crossing p pol) := by
  have recorded (x : Vector PhaseStatus 3) : FrontStep s { s with phases := x } :=
    ⟨rfl, rfl, rfl, rfl, rfl, rfl, rfl, .refl _ _⟩
  have live (q : Bool) (v : State) : FrontStep v (if q = true then v.phaseLive p else v) := by
    cases q
    · exact .refl v
    · exact phaseLive_front v p
  unfold State.crossing
  dsimp only
  split
  · split
    · exact ((recorded _).trans (live _ _)).trans (risingL1_front _)
    · exact (recorded _).trans (live _ _)
  · exact .refl s

theorem l1Dead_front (s : State) : FrontStep s s.l1Dead := by
  unfold State.l1Dead
  split
  · exact closeFrame_front _ _ _ _ _
  · exact ⟨rfl, rfl, rfl, rfl, rfl, rfl, rfl, .refl _ _⟩

theorem phaseDies_front (s : State) (p : Phase) : FrontStep s (s.phaseDies p) := by
  have dead (x : Vector PhaseStatus 3) (kind : NoticeKind) (subject reason : Nat) (value : Word) :
      FrontStep s (State.notice { s with phases := x } kind subject reason value) :=
    FrontStep.trans (u := { s with phases := x }) ⟨rfl, rfl, rfl, rfl, rfl, rfl, rfl, .refl _ _⟩
      (notice_block _ _ _ _ _).front
  unfold State.phaseDies
  dsimp only
  split
  · split
    · exact (dead _ _ _ _ _).trans (l1Dead_front _)
    · exact dead _ _ _ _ _
  · exact .refl s

theorem closeIfRun_front (s : State) : FrontStep s s.closeIfRun := by
  unfold State.closeIfRun
  split
  · exact closeFrame_front _ _ _ _ _
  · exact .refl s

/-! ### The bytes of every command (R184) -/

/-- An event writes what its work writes, and guarded records. -/
theorem memStep_event {p : Nat → Bool} {s : State} {t : Nat} {work : State → State}
    (h : ∀ v, MemStep p v.mem (work v).mem) (blocks : ∀ a, blockBytes a = true → p a = true)
    (guarded : ∀ a, guardedBytes a = true → p a = true) : MemStep p s.mem (s.event t work).mem := by
  by_cases running : s.resetting = none
  · rw [event_running running]
    have scan := scanIfDue_block (work (s.advance t))
    exact ((h (s.advance t)).trans (MemStep.mono ⟨scan.wf, scan.bytes⟩ blocks)).trans
      ((memStep_publishRecords _ _).mono guarded)
  · rw [event_resetting running]
    exact .refl _ _

theorem BlockStep.memStep {s u : State} (h : BlockStep s u) : MemStep blockBytes s.mem u.mem := ⟨h.wf, h.bytes⟩

theorem take1_memStep {p : Nat → Bool} (blocks : ∀ a, blockBytes a = true → p a = true) (s : State)
    (kind : Option OrderKind) (work : SlotNo → SlotFields → State → State) (hw : ∀ e f u, MemStep p u.mem (work e f u).mem) :
    MemStep p s.mem (s.take1 kind work).mem := by
  rcases take1_cases s kind work with h | ⟨e, rest, -, -, -, h⟩
  · rw [h]
    exact .refl _ _
  · rw [h]
    exact ((hold_after s e rest).memStep.mono blocks).trans (hw _ _ _)

theorem takeMembers_memStep (s : State) (kind : OrderKind) (work : SlotNo → SlotFields → List OutletIx → State → State)
    (hw : ∀ e f ms u, MemStep blockBytes u.mem (work e f ms u).mem) :
    MemStep blockBytes s.mem (s.takeMembers kind work).mem := by
  refine take1_memStep (fun _ => id) s _ _ fun e f u => ?_
  unfold State.withMembers
  split
  · exact (refuse_block _ _ _ _ _).memStep
  · exact hw _ _ _ _

/-- An event of the blocks' own work writes the blocks' bytes and the guarded records. -/
theorem memStep_blockEvent {s : State} {t : Nat} {work : State → State} (h : ∀ v, MemStep blockBytes v.mem (work v).mem) :
    MemStep (fun a => blockBytes a || guardedBytes a) s.mem (s.event t work).mem :=
  memStep_event (fun v => (h v).mono fun a ha => by simp [ha]) (fun a ha => by simp [ha]) fun a ha => by simp [ha]

theorem memStep_closeEvent {s : State} {t : Nat} {work : State → State} (h : ∀ v, FrontStep v (work v)) :
    MemStep closeBytes s.mem (s.event t work).mem :=
  memStep_event (fun v => (h v).mem) (fun a ha => by simp [closeBytes, ha]) fun a ha => by simp [closeBytes, ha]

theorem memStep_quietEvent {p : Nat → Bool} {s : State} {t : Nat} {work : State → State}
    (h : ∀ v, MemStep p v.mem (work v).mem) : MemStep p s.mem (s.quietEvent t work).mem := by
  by_cases running : s.resetting = none
  · rw [quietEvent_running running]
    exact h (s.advance t)
  · rw [quietEvent_resetting running]
    exact .refl _ _

/-- A host write above exchange memory stores nothing. -/
theorem hostWriteWord_mem_register (s : State) {a : Nat} (ha : 0x4000 ≤ a) (v : Word) :
    (s.hostWriteWord a v).mem = s.mem := by
  unfold State.hostWriteWord
  dsimp only
  split
  · rfl
  · rw [if_neg (show ¬ a / 4 * 4 < 0x4000 by omega)]
    split
    · rfl
    split
    · unfold State.writeControl
      split <;> rfl
    split
    · rfl
    split
    · rfl
    split
    · unfold State.writePost
      split
      · dsimp only
        split <;> rfl
      · rfl
    · rfl

/-- A host write of a word of exchange memory goes to that word. -/
theorem hostWriteWord_memory {s : State} (running : s.resetting = none) {a : Nat} (ha : a < 0x4000) (aligned : a % 4 = 0)
    (v : Word) : s.hostWriteWord a v = s.writeMemWord a v := by
  have word : a / 4 * 4 = a := by omega
  simp [State.hostWriteWord, running, word, addrIdent, ha]

theorem hostWriteWord_resetting {s : State} (h : s.resetting ≠ none) (a : Nat) (v : Word) : s.hostWriteWord a v = s := by
  rw [State.hostWriteWord, if_pos (Option.isSome_iff_ne_none.mpr h)]

/-- A host write of a word of a slot goes to that word of that slot. -/
theorem hostWriteWord_slot {s : State} (running : s.resetting = none) (e : SlotNo) (w : Fin 16) (v : Word) :
    s.hostWriteWord (slotAddr e + 4 * w.val) v = s.writeSlotWord e (4 * w.val) v := by
  have he := e.isLt
  have hw := w.isLt
  have slot : slotAt (slotAddr e + 4 * w.val) = e := Fin.ext (by simp only [slotAt, slotAddr]; omega)
  have word : (slotAddr e + 4 * w.val - 0x1500) % 64 = 4 * w.val := by simp only [slotAddr]; omega
  rw [hostWriteWord_memory running (by simp only [slotAddr]; omega) (by simp only [slotAddr]; omega), State.writeMemWord,
    if_neg (by simp only [slotAddr, addrLatchState]; omega), if_neg (by simp only [slotAddr, addrMissedKinds]; omega),
    if_pos, slot, word]
  simp only [slotArea, Bool.and_eq_true, decide_eq_true_eq, slotAddr]
  omega

/-- A host write of the word `a` stores within that word, where it is a slot's, the missed kinds or the latch state. -/
theorem memStep_namedWrite {p : Nat → Bool} (s : State) (t : Nat) {a : Nat} {v : Word}
    (h : ∀ u : State, u.resetting = none → MemStep p u.mem (u.hostWriteWord a v).mem) :
    MemStep p s.mem (s.quietEvent t fun s => s.hostWriteWord a v).mem :=
  memStep_quietEvent fun u => by
    by_cases running : u.resetting = none
    · exact h u running
    · rw [hostWriteWord_resetting running]
      exact .refl _ _

/-- Every command writes its own bytes of exchange memory alone. -/
theorem exec_writtenBytes {s u : State} {i : Instr} (next : exec i s = .next u) :
    sameBytesOutside (writtenBytes i) s.mem u.mem := by
  have register {a : Nat} (ha : 0x4000 ≤ a) (t : Nat) (v : Word) :
      sameBytesOutside (fun _ => false) s.mem (s.quietEvent t fun s => s.hostWriteWord a v).mem :=
    (memStep_quietEvent fun u => by rw [hostWriteWord_mem_register u ha]; exact .refl _ _).bytes
  cases i <;> simp only [exec] at next
  case powerOnReset | endOfReset => exact fun a ha => absurd ha Bool.noConfusion
  case pinReset => cases next; exact fun _ _ => rfl
  case softReset t v => cases next; exact register (by decide) t v
  case post t v => cases next; exact register (by decide) t v
  case causeWrite t v => cases next; exact register (by decide) t v
  case maskWrite t v => cases next; exact register (by decide) t v
  case rawSenseChange =>
    unfold execRawSenseChange at next
    split at next <;> cases next <;> exact fun _ _ => rfl
  case read => cases next; exact (memStep_quietEvent (work := id) fun u => .refl _ _).bytes
  case illegalCommand t c n =>
    cases next
    refine (memStep_quietEvent (work := fun s => if c = 2 ∨ c = 3 then s else s.raise .stray) fun u => ?_).bytes
    split <;> exact .refl _ _
  case sample t x =>
    cases next
    refine (memStep_quietEvent fun u => ?_).bytes
    unfold State.takeSample
    split
    · exact .refl _ _
    · split <;> exact .refl _ _
  case pulseStart t d =>
    cases next
    refine (memStep_quietEvent fun u => ?_).bytes
    unfold State.plannedPulse
    repeat' split
    all_goals exact .refl _ _
  case slotDrop t =>
    cases next
    refine (memStep_quietEvent fun u => ?_).bytes
    unfold State.dropHead
    repeat' split
    all_goals exact .refl _ _
  case framePublication t =>
    cases next
    refine (memStep_quietEvent fun u => ?_).bytes
    unfold State.publish
    split
    · refine (memStep_writeFrame _ _ _).mono fun a ha => ?_
      cases index : u.pub.index <;> rw [index] at ha
      · exact Bool.or_eq_true_iff.mpr (.inr ha)
      · exact Bool.or_eq_true_iff.mpr (.inl ha)
    · exact .refl _ _
    · exact .refl _ _
  case frameFlip t =>
    cases next
    refine (memStep_quietEvent fun u => ?_).bytes
    unfold State.flip
    split
    · exact .refl _ _
    · have word {lo : Nat} (hl : lo = addrPubIndex ∨ lo = addrPubSequence) (m : Mem) (v : Word) :
          MemStep (fun a => within addrPubIndex 8 a || within addrTimebase 4 a) m (writeWord m lo v) :=
        (memStep_writeWord m lo v).mono fun a ha => by
          rw [Bool.or_eq_true]
          exact .inl (hl.elim (fun e => within_mono (by subst e; decide) (by subst e; decide) ha)
            fun e => within_mono (by subst e; decide) (by subst e; decide) ha)
      exact ((memStep_timebaseWord _ _).mono fun a ha => Bool.or_eq_true_iff.mpr (.inr ha)).trans
        ((word (.inl rfl) _ _).trans (word (.inr rfl) _ _))
  case partTimeRewrite =>
    cases next
    exact (memStep_quietEvent (work := fun s => { s with mem := writeWord s.mem addrPartTime s.partTime })
      fun u => memStep_writeWord _ _ _).bytes
  case hostWordWrite => cases next; exact (memStep_quietEvent fun u => (hostWriteWords_port u _).mem).bytes
  case unmappedWrite => cases next; exact (memStep_quietEvent fun u => (hostWriteWord_port u _ _).mem).bytes
  case slotWordWrite t e w v =>
    cases next
    refine (memStep_namedWrite s t fun u running => ?_).bytes
    rw [hostWriteWord_slot running]
    refine (writeSlotWord_port u e (4 * w.val) v).mem.mono fun a ha => ?_
    simp only [Bool.and_eq_true, decide_eq_true_eq] at ha
    simp only [writtenBytes, Bool.and_eq_true, decide_eq_true_eq]
    exact ⟨by omega, ha.2⟩
  case latchStateWrite t v =>
    cases next
    refine (memStep_namedWrite s t fun u running => ?_).bytes
    rw [hostWriteWord_memory running (by decide) (by decide)]
    exact (writeLatchState_port u v).mem
  case missedKindsWrite t v =>
    cases next
    refine (memStep_namedWrite s t fun u running => ?_).bytes
    rw [hostWriteWord_memory running (by decide) (by decide)]
    exact (writeMissedKinds_port u v).mem
  case frameClose => cases next; exact (memStep_closeEvent closeIfRun_front).bytes
  case zeroCrossing => cases next; exact (memStep_closeEvent fun v => crossing_front v _ _).bytes
  case phaseDead => cases next; exact (memStep_closeEvent fun v => phaseDies_front v _).bytes
  case latchEnergy t =>
    cases next
    refine (memStep_event (p := fun a => blockBytes a || guardedBytes a || within addrLatchState 4 a)
      (fun v => ?_) (fun a ha => by simp [ha]) fun a ha => by simp [ha]).bytes
    refine take1_memStep (fun a ha => by simp [ha]) v _ _ fun e f u => ?_
    obtain ⟨p, m, block, mem⟩ := latchOrder_after u e
    exact (mem.mono fun a ha => by simp [ha]).trans (block.memStep.mono fun a ha => by simp [ha])
  case senseChange =>
    cases next
    refine (memStep_blockEvent fun v => ?_).bytes
    obtain ⟨x, block⟩ := acceptSense_after v _
    exact block.memStep
  case closeSpacingElapsed => cases next; exact (memStep_blockEvent fun v => (spacingScan_block v _).memStep).bytes
  case queuePatience => cases next; exact (memStep_blockEvent fun v => (patienceAt_block v _).memStep).bytes
  case pulseEnd => cases next; exact (memStep_blockEvent fun v => (widthPassed_block v _).memStep).bytes
  case verifyDeadline => cases next; exact (memStep_blockEvent fun v => (deadlineReached_block v _).memStep).bytes
  case restDeadline => cases next; exact (memStep_blockEvent fun v => (restOver_block v _).memStep).bytes
  case orderKindRefused =>
    cases next
    exact (memStep_blockEvent fun v => take1_memStep (fun _ => id) v _ _ fun _ _ _ =>
      (refuse_block _ _ _ _ _).memStep).bytes
  case cancelCycle =>
    cases next
    exact (memStep_blockEvent fun v => take1_memStep (fun _ => id) v _ _ fun _ _ _ =>
      (cancelOrder_block _ _ _).memStep).bytes
  case rearmWatch =>
    cases next
    exact (memStep_blockEvent fun v => take1_memStep (fun _ => id) v _ _ fun _ _ _ =>
      (rearmOrder_block _ _ _).memStep).bytes
  case switchOn =>
    cases next
    exact (memStep_blockEvent fun v => takeMembers_memStep v _ _ fun _ _ _ _ =>
      (switchOnMembers_block _ _ _ _).memStep).bytes
  case switchOff =>
    cases next
    exact (memStep_blockEvent fun v => takeMembers_memStep v _ _ fun _ _ _ _ =>
      (switchOffMembers_block _ _ _ _).memStep).bytes
  case cycle =>
    cases next
    exact (memStep_blockEvent fun v => takeMembers_memStep v _ _ fun _ _ _ _ => (cycleOrder_block _ _ _ _).memStep).bytes
  case clearFault =>
    cases next
    exact (memStep_blockEvent fun v => takeMembers_memStep v _ _ fun _ _ _ _ =>
      (clearFaultMembers_block _ _ _ _).memStep).bytes
  case clearEnergy =>
    cases next
    refine (memStep_blockEvent fun v => takeMembers_memStep v _ _ fun e f ms u => ?_).bytes
    obtain ⟨m, block, -⟩ := clearEnergyMembers_after u e f ms
    exact block.memStep

/-- The host's bytes are no block's. -/
theorem hostBytes_iff {a : Nat} : hostBytes a = true ↔
    (0x10 ≤ a ∧ a < 0x18) ∨ (0x100 ≤ a ∧ a < 0xB00) ∨ (0x2C88 ≤ a ∧ a < 0x2D00) ∨ (0x3D00 ≤ a ∧ a < 0x4000) := by
  simp only [hostBytes, hostOwnedArea, addrHold, Bool.or_eq_true, Bool.and_eq_true, within_iff, decide_eq_true_eq]
  omega

theorem not_closeBytes_of_hostBytes {a : Nat} (h : hostBytes a = true) : closeBytes a ≠ true := by
  rw [hostBytes_iff] at h
  simp only [closeBytes, blockBytes, noticeBytes, slotPartBytes, slotArea, guardedBytes, addrWriteCount, addrLatchState,
    addrSettingsStatus, Bool.or_eq_true, Bool.and_eq_true, within_iff, decide_eq_true_eq, ne_eq]
  omega

/-- Settles O59: by command, for the bytes that it writes and for the host's among them. -/
theorem commandsWriteOnlyTheirBytes : Obligations.CommandsWriteOnlyTheirBytes := by
  unfold Obligations.CommandsWriteOnlyTheirBytes
  refine ⟨fun s u i next => exec_writtenBytes next, fun i a host written => ?_⟩
  have notClose := not_closeBytes_of_hostBytes host
  have range := hostBytes_iff.mp host
  cases i
  case hostWordWrite | unmappedWrite => exact .inl rfl
  case powerOnReset => exact .inr (.inl rfl)
  case endOfReset => exact .inr (.inr rfl)
  case slotWordWrite t e w v =>
    have := slotAddr_bounds e
    simp only [writtenBytes, Bool.and_eq_true, decide_eq_true_eq, within_iff] at written
    omega
  case pinReset | softReset | sample | rawSenseChange | pulseStart | post | slotDrop | read | illegalCommand | causeWrite |
      maskWrite => exact absurd written Bool.noConfusion
  case frameClose | zeroCrossing | phaseDead => exact absurd written notClose
  case framePublication | frameFlip | partTimeRewrite | latchStateWrite | missedKindsWrite =>
    simp only [writtenBytes, Bool.or_eq_true, within_iff, addrPubIndex, addrTimebase, addrPartTime, addrLatchState,
      addrMissedKinds] at written
    omega
  all_goals
    refine absurd ?_ notClose
    simp only [writtenBytes, Bool.or_eq_true] at written
    simp only [closeBytes, Bool.or_eq_true]
    tauto

end Sys2Proof.Machine
end

section
/-! PROOF. Which commands change MASK, the settings, the meters, the inputs, the intake, the publisher, the bytes shifted out and
the control (R4 to R13, R31, R39 to R48, R170 to R172, R187, R189). -/
namespace Sys2Proof.Machine

open Sys2Proof.Safety

/-- What command `i` leaves as it is, in the order of the statement. -/
structure CommandFrame (i : Instr) (s u : State) : Prop where
  pending : u.pending = s.pending
  now : s.now ≤ u.now
  mask : i.anyHostWrite = false → i.namedWord ≠ some 0x400C → u.mask = s.mask
  metering : i.closes = false → u.work = s.work ∧ u.choices = s.choices ∧
    ∀ k : OutletIx, u.meter[k].energy = s.meter[k].energy ∧ u.meter[k].residue = s.meter[k].residue
  timebase : i.closes = false → i.samples = false → u.tb = s.tb ∧ u.meterV = s.meterV
  sense : i.senses = false → u.sense = s.sense
  phases : i.closes = false → u.phases = s.phases
  fifo : i.takes = false → i.anyHostWrite = false → i.namedWord ≠ some 0x4010 → u.fifo = s.fifo
  pub : i.closes = false → i.publishes = false → i.anyHostWrite = false → i.namedWord ≠ some 0x20 → u.pub = s.pub
  sdo : i.shifts = false → u.sdo = s.sdo
  control : i.sparesControl = true → s.scanDue = false → sameControl s { u with orders := s.orders } ∧
    (i.takes = false → u.orders = s.orders)
  cause : i.raisesNothing = true → u.cause = s.cause

theorem sameControl_refl (s : State) : sameControl s s := ⟨rfl, rfl, rfl, rfl, rfl, rfl, rfl, rfl, rfl, rfl, rfl, rfl⟩

theorem CommandFrame.refl (i : Instr) (s : State) : CommandFrame i s s where
  pending := rfl
  now := Nat.le_refl _
  mask _ _ := rfl
  metering _ := ⟨rfl, rfl, fun _ => ⟨rfl, rfl⟩⟩
  timebase _ _ := ⟨rfl, rfl⟩
  sense _ := rfl
  phases _ := rfl
  fifo _ _ _ := rfl
  pub _ _ _ _ := rfl
  sdo _ := rfl
  control _ _ := ⟨sameControl_refl s, fun _ => rfl⟩
  cause _ := rfl

theorem CommandFrame.advance (i : Instr) (s : State) (t : Nat) : CommandFrame i s (s.advance t) :=
  { CommandFrame.refl i s with now := Nat.le_max_left _ _ }

/-- What holds of a step holds of any event with it: in a reset an event does nothing. -/
theorem commandFrame_quietEvent {i : Instr} {s : State} {t : Nat} {work : State → State}
    (h : s.resetting = none → CommandFrame i s (work (s.advance t))) : CommandFrame i s (s.quietEvent t work) := by
  by_cases running : s.resetting = none
  · rw [quietEvent_running running]
    exact h running
  · rw [quietEvent_resetting running]
    exact .refl i s

/-- Blocks' work behind a command that spares no control and may raise a cause. -/
theorem CommandFrame.thenEvent {i : Instr} {s v u : State} (h : CommandFrame i s v) (g : EventStep v u)
    (now : u.now = v.now) (spares : i.sparesControl = false) (raises : i.raisesNothing = false) : CommandFrame i s u where
  pending := g.pending.trans h.pending
  now := now ▸ h.now
  mask a b := g.mask.trans (h.mask a b)
  metering a := ⟨g.work.trans (h.metering a).1, g.choices.trans (h.metering a).2.1, by
    rw [g.meter]
    exact (h.metering a).2.2⟩
  timebase a b := ⟨g.tb.trans (h.timebase a b).1, g.meterV.trans (h.timebase a b).2⟩
  sense a := g.sense.trans (h.sense a)
  phases a := g.phases.trans (h.phases a)
  fifo a b c := g.fifo.trans (h.fifo a b c)
  pub a b c d := g.pub.trans (h.pub a b c d)
  sdo a := g.sdo.trans (h.sdo a)
  control a := absurd (spares ▸ a) Bool.noConfusion
  cause a := absurd (raises ▸ a) Bool.noConfusion

/-- An event whose work is the blocks' own. -/
theorem commandFrame_event {i : Instr} {s : State} {t : Nat} {work : State → State}
    (h : s.resetting = none → ∃ v, CommandFrame i s v ∧ BlockStep v (work (s.advance t)))
    (spares : i.sparesControl = false) (raises : i.raisesNothing = false) : CommandFrame i s (s.event t work) := by
  by_cases running : s.resetting = none
  · obtain ⟨v, frame, block⟩ := h running
    obtain ⟨step, now⟩ := event_after running t block
    exact frame.thenEvent step now spares raises
  · rw [event_resetting running]
    exact .refl i s

/-- An event whose work is the blocks' own from the beginning. -/
theorem commandFrame_blockEvent {i : Instr} {s : State} {t : Nat} {work : State → State}
    (h : ∀ v, BlockStep v (work v)) (spares : i.sparesControl = false) (raises : i.raisesNothing = false) :
    CommandFrame i s (s.event t work) :=
  commandFrame_event (fun _ => ⟨s.advance t, .advance i s t, h _⟩) spares raises

/-! ### Takes -/

theorem takes_not_closes {i : Instr} (h : i.takes = true) : i.closes = false := by cases i <;> first | rfl | cases h

/-- A take removes the head of the FIFO, if it does anything. -/
theorem commandFrame_takeEvent {i : Instr} {s : State} {t : Nat} {kind : Option OrderKind}
    {work : SlotNo → SlotFields → State → State} (takes : i.takes = true) (hw : ∀ e f u, BlockStep u (work e f u))
    (spares : i.sparesControl = false) (raises : i.raisesNothing = false) :
    CommandFrame i s (s.event t fun s => s.take1 kind work) :=
  commandFrame_event (fun _ => by
    obtain ⟨q, -, block⟩ := take1_after (s.advance t) kind work hw
    exact ⟨{ s.advance t with fifo := q },
      { CommandFrame.advance i s t with fifo := fun a => absurd (takes ▸ a) Bool.noConfusion }, block⟩) spares raises

theorem commandFrame_takeMembersEvent {i : Instr} {s : State} {t : Nat} {kind : OrderKind}
    {work : SlotNo → SlotFields → List OutletIx → State → State} (takes : i.takes = true)
    (hw : ∀ e f ms u, BlockStep u (work e f ms u)) (spares : i.sparesControl = false) (raises : i.raisesNothing = false) :
    CommandFrame i s (s.event t fun s => s.takeMembers kind work) :=
  commandFrame_takeEvent takes (withMembers_block work hw) spares raises

/-! ### Takes that reach no outlet -/

/-- What the take of an order that reaches no outlet changes: the intake, its slot and notices, the clear requests, the
latch. -/
structure OrderOnly (s u : State) : Prop where
  same : u = { s with mem := u.mem, cause := u.cause, meter := u.meter, pub := u.pub, fifo := u.fifo, orders := u.orders }
  meter : ∀ k : OutletIx, ∃ c, u.meter[k] = { s.meter[k] with clearReq := c }
  closedSeq : u.pub.closedSeq = s.pub.closedSeq

theorem OrderOnly.refl (s : State) : OrderOnly s s := ⟨rfl, fun _ => ⟨_, rfl⟩, rfl⟩

theorem OrderOnly.trans {s u v : State} (h : OrderOnly s u) (g : OrderOnly u v) : OrderOnly s v where
  same := by rw [g.same, h.same]
  meter k := by
    obtain ⟨c, hc⟩ := h.meter k
    obtain ⟨d, hd⟩ := g.meter k
    exact ⟨d, by rw [hd, hc]⟩
  closedSeq := g.closedSeq.trans h.closedSeq

/-- The finish of an order changes memory, causes and the order table. -/
theorem finishOrder_orderOnly (s : State) (e : SlotNo) (r : OrderResult) : OrderOnly s (s.finishOrder e r) := by
  cases h : s.orders[e] with
  | none =>
    have none : s.finishOrder e r = s := by simp only [State.finishOrder, h]
    rw [none]
    exact .refl s
  | some entry =>
    have same := finishOrder_same h r
    refine ⟨?_, fun k => ⟨s.meter[k].clearReq, ?_⟩, ?_⟩
    · generalize s.finishOrder e r = u at same ⊢
      rw [same]
    · rw [same]
    · rw [same]

theorem hold_orderOnly (s : State) (e : SlotNo) (rest : List SlotNo) : OrderOnly s (s.hold e rest) where
  same := by simp only [State.hold, State.setOrder]
  meter k := ⟨s.meter[k].clearReq, by simp only [State.hold, State.setOrder_meter]⟩
  closedSeq := by simp only [State.hold, State.setOrder_pub]

theorem latchOrder_orderOnly (s : State) (e : SlotNo) : OrderOnly s (s.latchOrder e) := by
  unfold State.latchOrder
  split
  · exact ⟨rfl, fun _ => ⟨_, rfl⟩, rfl⟩
  · exact ⟨rfl, fun _ => ⟨_, rfl⟩, rfl⟩
  · exact finishOrder_orderOnly _ _ _

theorem clearEnergyMembers_orderOnly (s : State) (e : SlotNo) (f : SlotFields) (ms : List OutletIx) :
    OrderOnly s (s.clearEnergyMembers e f ms) := by
  refine ⟨rfl, fun k => ?_, rfl⟩
  simp only [State.clearEnergyMembers, State.enroll, State.setOrder_meter, Fin.getElem_fin, getElem_tab]
  split <;> exact ⟨_, rfl⟩

theorem take1_orderOnly (s : State) (kind : Option OrderKind) (work : SlotNo → SlotFields → State → State)
    (hw : ∀ e f u, OrderOnly u (work e f u)) : OrderOnly s (s.take1 kind work) := by
  rcases take1_cases s kind work with h | ⟨e, rest, -, -, -, h⟩
  · rw [h]
    exact .refl s
  · rw [h]
    exact (hold_orderOnly s e rest).trans (hw _ _ _)

theorem commandFrame_orderOnly {i : Instr} {s : State} {t : Nat} {kind : Option OrderKind}
    {work : SlotNo → SlotFields → State → State} (takes : i.takes = true) (hw : ∀ e f u, OrderOnly u (work e f u))
    (pubs : i.publishes = false → ∀ e f u, (work e f u).pub = u.pub) (raises : i.raisesNothing = false) :
    CommandFrame i s (s.event t fun s => s.take1 kind work) := by
  by_cases running : s.resetting = none
  · have taken := take1_orderOnly (s.advance t) kind work hw
    have pub : i.publishes = false → ((s.advance t).take1 kind work).pub = s.pub := fun a => by
      rcases take1_cases (s.advance t) kind work with h | ⟨e, rest, -, -, -, h⟩
      · rw [h]
        rfl
      · rw [h, pubs a]
        rfl
    have event := event_running running t fun s => s.take1 kind work
    have step := scanIfDue_block ((s.advance t).take1 kind work)
    have closes := takes_not_closes takes
    rw [event, publishRecords_eq]
    exact
      { pending := by rw [step.pending, taken.same]; rfl
        now := by
          show s.now ≤ State.now (State.scanIfDue _)
          rw [step.now, taken.same]
          exact Nat.le_max_left _ _
        mask := fun _ _ => by rw [step.mask, taken.same]; rfl
        metering := fun _ => ⟨by rw [step.work, taken.same]; rfl, by rw [step.choices, taken.same]; rfl, fun k => by
          rw [step.meter]
          obtain ⟨c, hc⟩ := taken.meter k
          rw [hc]
          exact ⟨rfl, rfl⟩⟩
        timebase := fun _ _ => ⟨by rw [step.tb, taken.same]; rfl, by rw [step.meterV, taken.same]; rfl⟩
        sense := fun _ => by rw [step.sense, taken.same]; rfl
        phases := fun _ => by rw [step.phases, taken.same]; rfl
        fifo := fun a => absurd (takes ▸ a) Bool.noConfusion
        pub := fun _ a _ _ => by rw [step.pub, pub a]
        sdo := fun _ => by rw [step.sdo, taken.same]; rfl
        control := fun _ due => by
          have notDue : ((s.advance t).take1 kind work).scanDue = false := by rw [taken.same]; exact due
          rw [scanIfDue_of_not_due notDue]
          refine ⟨?_, fun a => absurd (takes ▸ a) Bool.noConfusion⟩
          rw [taken.same]
          exact sameControl_refl s
        cause := fun a => absurd (raises ▸ a) Bool.noConfusion }
  · rw [event_resetting running]
    exact .refl i s

/-! ### Host writes -/

/-- A host write of a word of exchange memory leaves the registers and the resets. -/
theorem commandFrame_port {i : Instr} {p : Nat → Bool} {s v u : State} (frame : CommandFrame i s v) (h : PortStep p v u)
    (mask : i.anyHostWrite = false → i.namedWord ≠ some 0x400C → u.mask = v.mask)
    (fifo : i.takes = false → i.anyHostWrite = false → i.namedWord ≠ some 0x4010 → u.fifo = v.fifo)
    (pub : i.closes = false → i.publishes = false → i.anyHostWrite = false → i.namedWord ≠ some 0x20 → u.pub = v.pub)
    (drivers : i.sparesControl = true → u.drivers = v.drivers)
    (cause : i.raisesNothing = true → u.cause = v.cause) : CommandFrame i s u where
  pending := by rw [h.same]; exact frame.pending
  now := by rw [h.same]; exact frame.now
  mask a b := (mask a b).trans (frame.mask a b)
  metering a := by rw [h.same]; exact frame.metering a
  timebase a b := by rw [h.same]; exact frame.timebase a b
  sense a := by rw [h.same]; exact frame.sense a
  phases a := by rw [h.same]; exact frame.phases a
  fifo a b c := (fifo a b c).trans (frame.fifo a b c)
  pub a b c d := (pub a b c d).trans (frame.pub a b c d)
  sdo a := by rw [h.same]; exact frame.sdo a
  control a due := by
    rw [h.same, drivers a]
    exact frame.control a due
  cause a := (cause a).trans (frame.cause a)

/-- A host write of the words of a transfer, or of one word, of a command that may write any. -/
theorem commandFrame_anyHostWrite {i : Instr} {p : Nat → Bool} {s : State} {t : Nat} {work : State → State}
    (any : i.anyHostWrite = true) (spares : i.sparesControl = false) (raises : i.raisesNothing = false)
    (h : ∀ v, PortStep p v (work v)) : CommandFrame i s (s.quietEvent t work) :=
  commandFrame_quietEvent fun _ => commandFrame_port (.advance i s t) (h _) (fun a => absurd (any ▸ a) Bool.noConfusion)
    (fun _ a => absurd (any ▸ a) Bool.noConfusion) (fun _ _ a => absurd (any ▸ a) Bool.noConfusion)
    (fun a => absurd (spares ▸ a) Bool.noConfusion) (fun a => absurd (raises ▸ a) Bool.noConfusion)

/-- What each register does with a value written to it (R186, R187, R170). -/
theorem hostWriteWord_cause {s : State} (h : s.resetting = none) (v : Word) :
    s.hostWriteWord addrCause v = s.writeCause v := by
  simp [State.hostWriteWord, h, addrIdent, addrControl, addrCause, addrMask]

theorem hostWriteWord_mask {s : State} (h : s.resetting = none) (v : Word) :
    s.hostWriteWord addrMask v = s.writeMask v := by
  simp [State.hostWriteWord, h, addrIdent, addrControl, addrCause, addrMask, addrPost]

theorem hostWriteWord_control {s : State} (h : s.resetting = none) (v : Word) :
    s.hostWriteWord addrControl v = s.writeControl v := by
  simp [State.hostWriteWord, h, addrIdent, addrControl, addrCause]

theorem hostWriteWord_post {s : State} (h : s.resetting = none) (v : Word) :
    s.hostWriteWord addrPost v = s.writePost v := by
  simp [State.hostWriteWord, h, addrIdent, addrControl, addrCause, addrMask, addrPost, addrUnmapped]

theorem hostWriteWord_latch {s : State} (h : s.resetting = none) (v : Word) :
    s.hostWriteWord addrLatchState v = s.writeLatchState v := by
  rw [hostWriteWord_memory h (by decide) (by decide), State.writeMemWord, if_pos rfl]

theorem hostWriteWord_missedKinds {s : State} (h : s.resetting = none) (v : Word) :
    s.hostWriteWord addrMissedKinds v = s.writeMissedKinds v := by
  rw [hostWriteWord_memory h (by decide) (by decide), State.writeMemWord, if_neg (by decide), if_pos rfl]

/-! ### Scans (R111) -/

theorem needDriver_cause (s : State) (k : OutletIx) (dir : Dir) (retry : Bool) :
    (s.needDriver k dir retry).cause = s.cause := by
  unfold State.needDriver
  split
  · unfold State.assign
    dsimp only
    split <;> rfl
  · rfl

/-- A scan raises nothing: a grant files no notice. -/
theorem scanEntries_cause (es : List QueueEntry) (s : State) : (scanEntries es s).cause = s.cause := by
  induction es generalizing s with
  | nil => rfl
  | cons e es ih =>
    rw [scanEntries, ih]
    split
    · exact needDriver_cause _ _ _ _
    · rfl

theorem scan_cause (s : State) : s.scan.cause = s.cause := scanEntries_cause s.queue s

theorem scanIfDue_cause (s : State) : s.scanIfDue.cause = s.cause := by
  unfold State.scanIfDue
  split
  · exact scan_cause s
  · rfl

/-- The command of a spacing's end scans, and raises nothing. -/
theorem commandFrame_spacing (s : State) (t : Nat) (which : Option Branch) :
    CommandFrame (.closeSpacingElapsed t which) s (s.event t fun s => s.spacingScan which) := by
  by_cases running : s.resetting = none
  · obtain ⟨g, now⟩ := event_after (work := fun s => s.spacingScan which) running t (spacingScan_block (s.advance t) which)
    have frame := CommandFrame.advance (.closeSpacingElapsed t which) s t
    exact
      { pending := g.pending, now := now ▸ frame.now, mask := fun _ _ => g.mask
        metering := fun _ => ⟨g.work, g.choices, by rw [g.meter]; exact fun _ => ⟨rfl, rfl⟩⟩
        timebase := fun _ _ => ⟨g.tb, g.meterV⟩, sense := fun _ => g.sense, phases := fun _ => g.phases
        fifo := fun _ _ _ => g.fifo, pub := fun _ _ _ _ => g.pub, sdo := fun _ => g.sdo
        control := nofun
        cause := fun _ => by
          rw [event_running running, publishRecords_eq]
          refine (scanIfDue_cause _).trans ?_
          unfold State.spacingScan
          split <;> rfl }
  · rw [event_resetting running]
    exact .refl _ s

/-! ### Closes -/

theorem commandFrame_front {i : Instr} {s : State} {t : Nat} {work : State → State} (closes : i.closes = true)
    (spares : i.sparesControl = false) (raises : i.raisesNothing = false) (h : ∀ v, FrontStep v (work v)) :
    CommandFrame i s (s.event t work) := by
  by_cases running : s.resetting = none
  · have g := (h (s.advance t)).trans (scanIfDue_block (work (s.advance t))).front
    rw [event_running running, publishRecords_eq]
    exact
      { pending := g.pending, now := g.now.symm ▸ Nat.le_max_left _ _, mask := fun _ _ => g.mask
        metering := fun a => absurd (closes ▸ a) Bool.noConfusion
        timebase := fun a => absurd (closes ▸ a) Bool.noConfusion
        sense := fun _ => g.sense
        phases := fun a => absurd (closes ▸ a) Bool.noConfusion
        fifo := fun _ _ _ => g.fifo
        pub := fun a => absurd (closes ▸ a) Bool.noConfusion
        sdo := fun _ => g.sdo
        control := fun a => absurd (spares ▸ a) Bool.noConfusion
        cause := fun a => absurd (raises ▸ a) Bool.noConfusion }
  · rw [event_resetting running]
    exact .refl i s

/-! ### Samples, publication and the intake -/

theorem commandFrame_sample (s : State) (t : Nat) (x : SampleSet) :
    CommandFrame (.sample t x) s (s.quietEvent t fun s => s.takeSample x) := by
  refine commandFrame_quietEvent fun _ => ?_
  have frame := CommandFrame.advance (.sample t x) s t
  have sampled (v : State) (hv : v = { s.advance t with tb := v.tb, meter := v.meter, meterV := v.meterV })
      (meter : ∀ k : OutletIx, v.meter[k].energy = s.meter[k].energy ∧ v.meter[k].residue = s.meter[k].residue) :
      CommandFrame (.sample t x) s v := by
    rw [hv]
    exact { frame with metering := fun _ => ⟨rfl, rfl, meter⟩, timebase := nofun }
  unfold State.takeSample
  split
  · exact frame
  · split
    · refine sampled _ rfl fun k => ?_
      simp only [State.countSample, State.accumulate, Fin.getElem_fin, getElem_tab]
      exact ⟨rfl, rfl⟩
    · exact sampled _ rfl fun _ => ⟨rfl, rfl⟩

/-- Settles O60: by command. -/
theorem stateChangedOnlyByItsCommands : Obligations.StateChangedOnlyByItsCommands := by
  unfold Obligations.StateChangedOnlyByItsCommands
  intro s u i next notEnd
  suffices frame : CommandFrame i s u from ⟨frame.pending, frame.now, frame.mask, frame.metering, frame.timebase, frame.sense,
    frame.phases, frame.fifo, frame.pub, frame.sdo, frame.control, frame.cause⟩
  cases i <;> simp only [exec] at next
  case endOfReset => exact absurd rfl notEnd
  case powerOnReset | pinReset => cases next; exact { CommandFrame.refl _ s with control := nofun }
  case rawSenseChange t k level =>
    unfold execRawSenseChange at next
    split at next <;> cases next
    · exact { CommandFrame.refl _ s with sense := nofun }
    · exact { CommandFrame.advance _ s t with sense := nofun }
  case read t addr n =>
    cases next
    exact { commandFrame_quietEvent fun _ => CommandFrame.advance (.read t addr n) s t with sdo := nofun }
  case illegalCommand t c n =>
    cases next
    refine { commandFrame_quietEvent (i := .illegalCommand t c n) (s := s) (t := t)
      (work := fun s => if c = 2 ∨ c = 3 then s else s.raise .stray) fun _ => ?_ with sdo := nofun }
    split
    · exact .advance _ s t
    · exact { CommandFrame.advance _ s t with cause := nofun }
  case sample t x => cases next; exact commandFrame_sample s t x
  case framePublication t =>
    cases next
    refine commandFrame_quietEvent fun _ => ?_
    unfold State.publish
    split
    · exact { CommandFrame.advance _ s t with pub := nofun }
    · exact .advance _ s t
    · exact .advance _ s t
  case frameFlip t =>
    cases next
    refine commandFrame_quietEvent fun _ => ?_
    unfold State.flip
    split
    · exact .advance _ s t
    · exact { CommandFrame.advance _ s t with pub := nofun, cause := nofun }
  case partTimeRewrite t => cases next; exact commandFrame_quietEvent fun _ => { CommandFrame.advance _ s t with }
  case pulseStart t d =>
    cases next
    refine commandFrame_quietEvent fun _ => ?_
    unfold State.plannedPulse
    repeat' split
    · exact { CommandFrame.advance _ s t with control := nofun }
    all_goals exact .advance _ s t
  case slotDrop t =>
    cases next
    refine commandFrame_quietEvent fun _ => ?_
    unfold State.dropHead
    repeat' split
    · exact .advance _ s t
    · exact .advance _ s t
    · exact { CommandFrame.advance _ s t with fifo := nofun, cause := nofun }
  case softReset t v =>
    cases next
    refine commandFrame_quietEvent fun running => ?_
    rw [hostWriteWord_control (s := s.advance t) running, State.writeControl]
    split
    · exact { CommandFrame.advance _ s t with control := nofun }
    · exact .advance _ s t
  case causeWrite t v =>
    cases next
    refine commandFrame_quietEvent fun running => ?_
    rw [hostWriteWord_cause (s := s.advance t) running]
    exact { CommandFrame.advance _ s t with cause := nofun }
  case maskWrite t v =>
    cases next
    refine commandFrame_quietEvent fun running => ?_
    rw [hostWriteWord_mask (s := s.advance t) running]
    exact { CommandFrame.advance _ s t with mask := fun _ a => absurd rfl a }
  case post t v =>
    cases next
    refine commandFrame_quietEvent fun running => ?_
    rw [hostWriteWord_post (s := s.advance t) running, State.writePost]
    split
    · dsimp only
      split
      · exact { CommandFrame.advance _ s t with cause := nofun }
      · exact { CommandFrame.advance _ s t with fifo := fun _ _ a => absurd rfl a }
    · exact { CommandFrame.advance _ s t with cause := nofun }
  case slotWordWrite t e w v =>
    cases next
    refine commandFrame_quietEvent fun running => ?_
    rw [hostWriteWord_slot (s := s.advance t) running, State.writeSlotWord]
    repeat' split
    all_goals exact { CommandFrame.advance _ s t with cause := nofun }
  case latchStateWrite t v =>
    cases next
    refine commandFrame_quietEvent fun running => ?_
    rw [hostWriteWord_latch (s := s.advance t) running, State.writeLatchState]
    split
    · exact { CommandFrame.advance _ s t with pub := fun _ _ _ a => absurd rfl a }
    · exact { CommandFrame.advance _ s t with cause := nofun }
  case missedKindsWrite t v =>
    cases next
    refine commandFrame_quietEvent fun running => ?_
    rw [hostWriteWord_missedKinds (s := s.advance t) running, State.writeMissedKinds]
    split
    · exact { CommandFrame.advance _ s t with }
    · exact .advance _ s t
  case hostWordWrite => cases next; exact commandFrame_anyHostWrite rfl rfl rfl fun v => hostWriteWords_port v _
  case unmappedWrite => cases next; exact commandFrame_anyHostWrite rfl rfl rfl fun v => hostWriteWord_port v _ _
  case frameClose => cases next; exact commandFrame_front rfl rfl rfl closeIfRun_front
  case zeroCrossing => cases next; exact commandFrame_front rfl rfl rfl fun v => crossing_front v _ _
  case phaseDead => cases next; exact commandFrame_front rfl rfl rfl fun v => phaseDies_front v _
  case senseChange t k =>
    cases next
    refine commandFrame_event (fun _ => ?_) rfl rfl
    obtain ⟨x, block⟩ := acceptSense_after (s.advance t) k
    exact ⟨{ s.advance t with sense := x }, { CommandFrame.advance _ s t with sense := nofun }, block⟩
  case closeSpacingElapsed t which => cases next; exact commandFrame_spacing s t which
  case queuePatience => cases next; exact commandFrame_blockEvent (fun v => patienceAt_block v _) rfl rfl
  case pulseEnd => cases next; exact commandFrame_blockEvent (fun v => widthPassed_block v _) rfl rfl
  case verifyDeadline => cases next; exact commandFrame_blockEvent (fun v => deadlineReached_block v _) rfl rfl
  case restDeadline => cases next; exact commandFrame_blockEvent (fun v => restOver_block v _) rfl rfl
  case cancelCycle => cases next; exact commandFrame_takeEvent rfl (fun _ _ _ => cancelOrder_block _ _ _) rfl rfl
  case rearmWatch => cases next; exact commandFrame_takeEvent rfl (fun _ _ _ => rearmOrder_block _ _ _) rfl rfl
  case switchOn => cases next; exact commandFrame_takeMembersEvent rfl switchOnMembers_block rfl rfl
  case switchOff => cases next; exact commandFrame_takeMembersEvent rfl switchOffMembers_block rfl rfl
  case cycle => cases next; exact commandFrame_takeMembersEvent rfl cycleOrder_block rfl rfl
  case clearFault => cases next; exact commandFrame_takeMembersEvent rfl clearFaultMembers_block rfl rfl
  case orderKindRefused =>
    cases next
    exact commandFrame_orderOnly rfl (fun _ _ _ => finishOrder_orderOnly _ _ _)
      (fun _ e _ u => (refuse_block u e .kind none none).pub) rfl
  case latchEnergy => cases next; exact commandFrame_orderOnly rfl (fun _ _ _ => latchOrder_orderOnly _ _) nofun rfl
  case clearEnergy =>
    cases next
    refine commandFrame_orderOnly rfl (fun e f u => ?_) (fun _ e f u => ?_) rfl
    all_goals
      unfold State.withMembers
      split
    · exact finishOrder_orderOnly _ _ _
    · exact clearEnergyMembers_orderOnly _ _ _ _
    · exact (refuse_block _ _ _ _ _).pub
    · rfl

end Sys2Proof.Machine
end

section
/-! PROOF. The host port: reads, stray accesses and registers, transfers, the ownership of words (R169, R183 to R188, R192). -/
namespace Sys2Proof.Machine

open Sys2Proof.Safety

/-! ### Reads (R183) -/

/-- The word that a read takes, with no reset in course. -/
theorem portWord_running {s : State} (h : s.resetting = none) (a : Nat) :
    s.portWord (a / 4 * 4) = if a < 0x4000 then readWord s.mem (a / 4 * 4) else if a / 4 = 0x1000 then 0x00014F48#32
      else if a / 4 = 0x1002 then s.cause else if a / 4 = 0x1003 then s.mask else 0 := by
  have below (n : Nat) : a / 4 * 4 < 4 * n ↔ a / 4 < n := by omega
  simp only [State.portWord, h, Option.isSome_none, Bool.false_eq_true, if_false, addrIdent, addrControl, addrCause, addrMask,
    addrPost, below 0x1000, below 0x1001, below 0x1002, below 0x1003, below 0x1004,
    show (0x4000 : Nat) = 4 * 0x1000 by rfl, show (0x4004 : Nat) = 4 * 0x1001 by rfl,
    show (0x4008 : Nat) = 4 * 0x1002 by rfl, show (0x400C : Nat) = 4 * 0x1003 by rfl,
    show (0x4010 : Nat) = 4 * 0x1004 by rfl, identValue]
  have memory : a < 4 * 0x1000 ↔ a / 4 < 0x1000 := by omega
  simp only [memory]
  split_ifs <;> first | rfl | omega

/-- Settles O40: byte by byte, by the word that holds it. -/
theorem readShiftsOutWords : Obligations.ReadShiftsOutWords := by
  unfold Obligations.ReadShiftsOutWords
  intro s t addr n running
  simp only [exec, execRead]
  rw [quietEvent_running running]
  refine ⟨_, rfl, rfl, by simp [State.shiftOut], fun i hi => ?_⟩
  simp only [State.shiftOut, List.getElem_map, List.getElem_range, State.portByte, id_eq]
  rw [portWord_running (s := s.advance t) running]
  rfl

/-! ### Stray accesses and registers -/

/-- The register that a write row names, with no reset in course. -/
theorem exec_causeWrite_running {s : State} (h : s.resetting = none) (t : Nat) (v : Word) :
    exec (.causeWrite t v) s = .next ((s.advance t).writeCause v) :=
  congrArg Host.Outcome.next ((quietEvent_running h t _).trans (hostWriteWord_cause (s := s.advance t) h v))

theorem exec_maskWrite_running {s : State} (h : s.resetting = none) (t : Nat) (v : Word) :
    exec (.maskWrite t v) s = .next ((s.advance t).writeMask v) :=
  congrArg Host.Outcome.next ((quietEvent_running h t _).trans (hostWriteWord_mask (s := s.advance t) h v))

theorem exec_missedKindsWrite_running {s : State} (h : s.resetting = none) (t : Nat) (v : Word) :
    exec (.missedKindsWrite t v) s = .next ((s.advance t).writeMissedKinds v) :=
  congrArg Host.Outcome.next ((quietEvent_running h t _).trans (hostWriteWord_missedKinds (s := s.advance t) h v))

theorem hostWriteWord_unmapped {s : State} (h : s.resetting = none) {a : Nat} (ha : 0x4014 ≤ a) (v : Word) :
    s.hostWriteWord a v = s.raise .stray := by
  have above (n : Nat) (hn : 4 * n ≤ 0x4014) : ¬ a / 4 * 4 < 4 * n := by omega
  simp [State.hostWriteWord, h, addrIdent, addrControl, addrCause, addrMask, addrPost, addrUnmapped,
    above 0x1000 (by decide), above 0x1001 (by decide), above 0x1002 (by decide), above 0x1003 (by decide),
    above 0x1004 (by decide), above 0x1005 (by decide)]

/-- A word is not 0 exactly when one of its bits is set. -/
theorem word_ne_zero_iff (w : Word) : w ≠ 0 ↔ ∃ i, i < 32 ∧ w.getLsbD i = true := by
  constructor
  · intro h
    by_contra none
    exact h (BitVec.eq_of_getLsbD_eq fun i hi => by
      exact (Bool.eq_false_iff.mpr fun set => none ⟨i, hi, set⟩).trans BitVec.getLsbD_zero.symm)
  · rintro ⟨i, -, set⟩ rfl
    simp at set

/-- R188: with no reset in course ATTN is driven while CAUSE and MASK share a bit. -/
theorem attn_iff {s : State} (h : s.resetting = none) :
    s.attn = true ↔ ∃ i, i < 32 ∧ s.cause.getLsbD i = true ∧ s.mask.getLsbD i = true := by
  rw [State.attn, h, Option.isNone_none, Bool.true_and, bne_iff_ne, word_ne_zero_iff]
  simp only [BitVec.getLsbD_and, Bool.and_eq_true]

/-- The six bits that a MASK write takes (11.3). -/
theorem getLsbD_causeBits (i : Nat) : causeBits.getLsbD i = decide (i < 6) := by
  rcases Nat.lt_or_ge i 32 with h | h
  · interval_cases i <;> decide
  · rw [BitVec.getLsbD_of_ge _ _ h]
    exact (decide_eq_false (by omega)).symm

/-- Settles O41: by the access. -/
theorem registerAndStrayAccesses : Obligations.RegisterAndStrayAccesses := by
  unfold Obligations.RegisterAndStrayAccesses
  intro s t running
  refine ⟨fun c n notWrite notRead => ?_, fun addr v unmapped => ?_, fun v => ⟨fun zero wf => ?_, fun other => ?_, ?_, ?_⟩⟩
  · simp only [exec, execIllegalCommand]
    rw [quietEvent_running running, if_neg (not_or.mpr ⟨notWrite, notRead⟩)]
    rfl
  · exact congrArg Host.Outcome.next ((quietEvent_running running t _).trans
      (hostWriteWord_unmapped (s := s.advance t) running unmapped v))
  · rw [exec_missedKindsWrite_running running, State.writeMissedKinds, if_pos zero]
    exact ⟨_, rfl, rfl, readWord_writeWord_same _ _ _ wf, (memStep_writeWord _ _ _).bytes⟩
  · rw [exec_missedKindsWrite_running running, State.writeMissedKinds, if_neg other]
    rfl
  · refine ⟨_, exec_causeWrite_running running t v, rfl, (attn_iff (s := (s.advance t).writeCause v) running).trans ?_⟩
    refine exists_congr fun i => and_congr_right fun hi => ?_
    simp only [State.writeCause, State.advance, BitVec.getLsbD_and, BitVec.getLsbD_not, hi, decide_true, Bool.true_and,
      Bool.and_eq_true, Bool.not_eq_true', and_assoc]
  · refine ⟨_, exec_maskWrite_running running t v, rfl, (attn_iff (s := (s.advance t).writeMask v) running).trans ?_⟩
    refine exists_congr fun i => ?_
    simp only [State.writeMask, State.advance, BitVec.getLsbD_and, getLsbD_causeBits, Bool.and_eq_true, decide_eq_true_eq]
    constructor
    · rintro ⟨-, cause, value, six⟩
      exact ⟨six, cause, value⟩
    · rintro ⟨six, cause, value⟩
      exact ⟨by omega, cause, value, six⟩

/-! ### Transfers -/

theorem exec_hostWordWrite (s : State) (t : Nat) (addr : Half) (data : List Byte) :
    exec (.hostWordWrite t addr data) s = .next (s.quietEvent t fun s => s.hostWriteWords (transferWords addr data)) := rfl

/-- Fewer than four bytes hold no word. -/
theorem alignedWords_of_short (a : Nat) {data : List Byte} (h : data.length < 4) : alignedWords a data = [] := by
  match data with
  | [] | [_] | [_, _] | [_, _, _] => rfl
  | _ :: _ :: _ :: _ :: _ => simp at h; omega

/-- The bytes before the first aligned word are passed over. -/
theorem transferWords_skip (addr : Half) {lead : List Byte} (h : lead.length = (4 - addr.toNat % 4) % 4) (data : List Byte) :
    transferWords addr (lead ++ data) = transferWords (addr + BitVec.ofNat 16 lead.length) data := by
  have range := addr.isLt
  have next : (addr + BitVec.ofNat 16 lead.length).toNat = (addr.toNat + lead.length) % 65536 := by
    rw [BitVec.toNat_add, BitVec.toNat_ofNat]
    omega
  simp only [transferWords]
  rw [← h, List.drop_left, next, show (4 - (addr.toNat + lead.length) % 65536 % 4) % 4 = 0 by omega]
  simp

/-- An aligned transfer writes its first word, then the rest at the address 4 above. -/
theorem transferWords_cons (addr : Half) (aligned : addr.toNat % 4 = 0) (b0 b1 b2 b3 : Byte) (data : List Byte) :
    transferWords addr (b0 :: b1 :: b2 :: b3 :: data) =
      (addr.toNat, b3 ++ b2 ++ b1 ++ b0) :: transferWords (addr + 4) data := by
  have range := addr.isLt
  have next : (addr + 4).toNat = (addr.toNat + 4) % 65536 := BitVec.toNat_add addr 4#16
  simp only [transferWords]
  rw [next, aligned, show (4 - (addr.toNat + 4) % 65536 % 4) % 4 = 0 by omega]
  simp [alignedWords, Nat.mod_eq_of_lt range]

theorem transferWords_word (addr : Half) (aligned : addr.toNat % 4 = 0) (b0 b1 b2 b3 : Byte) :
    transferWords addr [b0, b1, b2, b3] = [(addr.toNat, b3 ++ b2 ++ b1 ++ b0)] := by
  rw [transferWords_cons addr aligned]
  simp only [transferWords, List.drop_nil, alignedWords]

theorem transferCommand_write (t : Nat) (hi lo : Byte) (data : List Byte) :
    transferCommand t (2 :: hi :: lo :: data) = some (.hostWordWrite t (hi ++ lo) data) := rfl

theorem transferCommand_read (t : Nat) (hi lo : Byte) (data : List Byte) :
    transferCommand t (3 :: hi :: lo :: data) = some (.read t (hi ++ lo) data.length) := rfl

theorem transferCommand_illegal (t : Nat) {c : Byte} (h2 : c ≠ 2) (h3 : c ≠ 3) (data : List Byte) :
    transferCommand t (c :: data) = some (.illegalCommand t c data.length) := by
  unfold transferCommand
  split
  · rename_i h
    cases h
  · rename_i h
    exact absurd (List.cons.inj h).1 h2
  · rename_i h
    exact absurd (List.cons.inj h).1 h3
  · rename_i h
    obtain ⟨rfl, rfl⟩ := List.cons.inj h
    exact if_neg (not_or.mpr ⟨h2, h3⟩)

theorem transferCommand_short (t : Nat) {c : Byte} (h : c = 2 ∨ c = 3) {data : List Byte} (short : data.length < 2) :
    transferCommand t (c :: data) = none := by
  unfold transferCommand
  split
  · rename_i e
    cases e
  · rename_i e
    rw [(List.cons.inj e).2] at short
    simp only [List.length_cons] at short
    omega
  · rename_i e
    rw [(List.cons.inj e).2] at short
    simp only [List.length_cons] at short
    omega
  · rename_i e
    obtain ⟨rfl, rfl⟩ := List.cons.inj e
    exact if_pos h

theorem receive_some {s : State} {t : Nat} {bytes : List Byte} {i : Instr} (h : transferCommand t bytes = some i) :
    s.receive t bytes = { s with pending := s.pending ++ [i] } := by
  simp only [State.receive, h, Option.toList_some]

theorem receive_none {s : State} {t : Nat} {bytes : List Byte} (h : transferCommand t bytes = none) :
    s.receive t bytes = s := by
  simp only [State.receive, h, Option.toList_none, List.append_nil]

/-- The two address bytes of a transfer, most significant first. -/
theorem address_of_bytes {hi lo : Byte} {addr : Half} (h : addr.toNat = 256 * hi.toNat + lo.toNat) : hi ++ lo = addr := by
  apply BitVec.eq_of_toNat_eq
  have := lo.isLt
  rw [h, BitVec.toNat_append, Nat.shiftLeft_eq, Nat.mul_comm, ← Nat.two_pow_add_eq_or_of_lt (by omega)]

/-- A port in reset writes no word. -/
theorem hostWriteWords_resetting {s : State} (h : s.resetting ≠ none) (ws : List (Nat × Word)) : s.hostWriteWords ws = s := by
  induction ws with
  | nil => rfl
  | cons w ws ih =>
    rw [State.hostWriteWords, List.foldl_cons, hostWriteWord_resetting h]
    exact ih

/-- A second transfer of the same instant goes on where the first has ended. -/
theorem quietEvent_hostWriteWords (s : State) (t : Nat) (w : Nat × Word) (ws : List (Nat × Word)) :
    s.quietEvent t (fun s => s.hostWriteWords (w :: ws)) =
      (s.quietEvent t fun s => s.hostWriteWords [w]).quietEvent t fun s => s.hostWriteWords ws := by
  by_cases running : s.resetting = none
  · rw [quietEvent_running running, quietEvent_running running]
    show ((s.advance t).hostWriteWord w.1 w.2).hostWriteWords ws = State.quietEvent ((s.advance t).hostWriteWord w.1 w.2) t _
    have now : ((s.advance t).hostWriteWord w.1 w.2).now = max s.now t := by
      rw [(hostWriteWord_port (s.advance t) w.1 w.2).same]
      rfl
    generalize (s.advance t).hostWriteWord w.1 w.2 = u at now
    by_cases still : u.resetting = none
    · have same : u.advance t = u := by
        simp only [State.advance, now, Nat.max_assoc, Nat.max_self]
        rw [← now]
      rw [quietEvent_running still, same]
    · rw [quietEvent_resetting still, hostWriteWords_resetting still]
  · rw [quietEvent_resetting running, quietEvent_resetting running, quietEvent_resetting running]

/-- Settles O42: by the bytes of the transfer, then word by word. -/
theorem transferWritesItsWordsInOrder : Obligations.TransferWritesItsWordsInOrder := by
  unfold Obligations.TransferWritesItsWordsInOrder
  refine ⟨fun s t c hi lo addr data => ?_, fun s t addr data => ⟨fun running short => ?_, fun lead skip => ?_,
    fun word four aligned => ?_⟩⟩
  · intro spells address
    have bytes := address_of_bytes address
    refine ⟨?_, ?_, fun h2 h3 => receive_some (transferCommand_illegal t h2 h3 data),
      fun legal short => receive_none (transferCommand_short t legal short), receive_none rfl⟩
    · exact bytes ▸ receive_some (transferCommand_write t hi lo data)
    · exact bytes ▸ receive_some (transferCommand_read t hi lo data)
  · have none : transferWords addr data = [] := alignedWords_of_short _ (by
      rw [List.length_drop]
      generalize (4 - addr.toNat % 4) % 4 = skip at *
      omega)
    rw [exec_hostWordWrite, quietEvent_running running, none]
    rfl
  · rw [exec_hostWordWrite, exec_hostWordWrite, transferWords_skip addr skip]
  · obtain ⟨b0, b1, b2, b3, rfl⟩ : ∃ b0 b1 b2 b3, word = [b0, b1, b2, b3] := by
      match word, four with
      | [b0, b1, b2, b3], _ => exact ⟨b0, b1, b2, b3, rfl⟩
    refine ⟨_, rfl, ?_⟩
    rw [exec_hostWordWrite, exec_hostWordWrite, transferWords_word addr aligned]
    simp only [List.cons_append, List.nil_append]
    rw [transferWords_cons addr aligned, quietEvent_hostWriteWords]

/-! ### Ownership of words (R169, R184) -/

/-- A transfer of one aligned word writes that word. -/
theorem exec_hostWordWrite_word {s : State} (h : s.resetting = none) (t : Nat) {addr : Half} (aligned : addr.toNat % 4 = 0)
    (b0 b1 b2 b3 : Byte) : exec (.hostWordWrite t addr [b0, b1, b2, b3]) s =
      .next ((s.advance t).hostWriteWord addr.toNat (b3 ++ b2 ++ b1 ++ b0)) := by
  rw [exec_hostWordWrite, quietEvent_running h, transferWords_word addr aligned]
  rfl

/-- The words that the host owns outside the slots. -/
theorem hostOwnedWord_eq_hostBytes {a : Nat} (aligned : a % 4 = 0) : hostOwnedWord a = hostBytes a := by
  rw [Bool.eq_iff_iff, hostBytes_iff]
  simp only [hostOwnedWord, hostOwnedArea, addrHold, addrReadMark, Bool.or_eq_true, Bool.and_eq_true, decide_eq_true_eq,
    beq_iff_eq]
  omega

/-- Settles O43: by the owner of the word. -/
theorem hostWordOwnership : Obligations.HostWordOwnership := by
  unfold Obligations.HostWordOwnership
  intro s t addr b0 b1 b2 b3 running wf aligned
  rw [exec_hostWordWrite_word running t aligned]
  refine ⟨fun host => ?_, fun memory part slot missed latch => ?_⟩
  · have range := hostBytes_iff.mp host
    rw [hostWriteWord_memory (s := s.advance t) running (by omega) aligned, State.writeMemWord,
      if_neg (by simp only [addrLatchState]; omega), if_neg (by simp only [addrMissedKinds]; omega), if_neg,
      if_pos ((hostOwnedWord_eq_hostBytes aligned).trans host)]
    · exact ⟨_, rfl, rfl, readWord_writeWord_same _ _ _ wf, (memStep_writeWord _ _ _).bytes⟩
    · simp only [slotArea, Bool.and_eq_true, decide_eq_true_eq]
      omega
  · rw [hostWriteWord_memory (s := s.advance t) running memory aligned, State.writeMemWord, if_neg latch, if_neg missed,
      if_neg (Bool.eq_false_iff.mp slot), if_neg (by rw [hostOwnedWord_eq_hostBytes aligned, part]; exact Bool.noConfusion)]
    rfl

theorem exec_slotWordWrite_running {s : State} (h : s.resetting = none) (t : Nat) (e : SlotNo) (w : Fin 16) (v : Word) :
    exec (.slotWordWrite t e w v) s = .next ((s.advance t).writeSlotWord e (4 * w.val) v) :=
  congrArg Host.Outcome.next ((quietEvent_running h t _).trans (hostWriteWord_slot (s := s.advance t) h e w v))

theorem writeSlotWord_held {s : State} {e : SlotNo} (h : s.orders[e] ≠ none) (off : Nat) (v : Word) :
    s.writeSlotWord e off v = s.raise .collide :=
  if_pos (held_iff.mpr h)

/-- What a write to an unheld slot does, by the word. -/
theorem writeSlotWord_unheld {s : State} {e : SlotNo} (h : s.orders[e] = none) (off : Nat) (v : Word) :
    s.writeSlotWord e off v = if off = 0 then
        if v.toNat ≤ 1 then { s with mem := writeWord s.mem (slotAddr e + off) v } else s.raise .collide
      else if off < 0x18 then { s with mem := writeWord s.mem (slotAddr e + off) v } else s :=
  if_neg (held_iff.not.mpr (not_not.mpr h))

/-- Settles O44: by whether the slot is held, the word and, for the state word, the value. -/
theorem slotWordOwnership : Obligations.SlotWordOwnership := by
  unfold Obligations.SlotWordOwnership
  intro s t e w v running wf
  rw [exec_slotWordWrite_running running]
  refine ⟨fun held => ?_, fun idle state large => ?_, fun idle word => ?_, fun idle part => ?_⟩
  · rw [writeSlotWord_held (s := s.advance t) held]
    rfl
  · subst state
    rw [writeSlotWord_unheld (s := s.advance t) idle, if_pos (show 4 * (0 : Fin 16).val = 0 from rfl), if_neg (by omega)]
    rfl
  · have put : (s.advance t).writeSlotWord e (4 * w.val) v =
        { s.advance t with mem := writeWord s.mem (slotAddr e + 4 * w.val) v } := by
      rw [writeSlotWord_unheld (s := s.advance t) idle]
      rcases word with ⟨rfl, small⟩ | ⟨above, below⟩
      · rw [if_pos (show 4 * (0 : Fin 16).val = 0 from rfl), if_pos small]
        rfl
      · rw [if_neg (by omega), if_pos (by omega)]
        rfl
    rw [put]
    exact ⟨_, rfl, rfl, readWord_writeWord_same _ _ _ wf, (memStep_writeWord _ _ _).bytes⟩
  · rw [writeSlotWord_unheld (s := s.advance t) idle, if_neg (by omega), if_neg (by omega)]
    rfl

/-! ### Notices (R191) -/

/-- The log is full when the write count is 256 or more, but less than 2^31, ahead of the read mark. -/
theorem logFull_iff (s : State) : s.logFull = true ↔
    256 ≤ (s.writeCount - readWord s.mem 0x14).toNat ∧ (s.writeCount - readWord s.mem 0x14).toNat < 2 ^ 31 := by
  have difference (c m : Word) : (c - effectiveReadMark c m).toNat =
      if (c - m).toNat ≤ 256 then (c - m).toNat else if (c - m).toNat < 2 ^ 31 then 256 else 0 := by
    unfold effectiveReadMark
    dsimp only
    split_ifs
    · rfl
    · exact congrArg BitVec.toNat (sub_sub_self c 256#32)
    · rw [BitVec.sub_self]
      rfl
  simp only [State.logFull, decide_eq_true_eq, ge_iff_le, difference, addrReadMark]
  split_ifs <;> omega

theorem notice_full {s : State} (h : s.logFull = true) (kind : NoticeKind) (subject reason : Nat) (value : Word) :
    s.notice kind subject reason value = { s with
      mem := writeWord s.mem addrMissedKinds (readWord s.mem addrMissedKinds ||| BitVec.ofNat 32 (2 ^ kind.code)) } :=
  if_pos h

/-- The four words of a notice entry. -/
theorem logEntry_writeNotice {m : Mem} (wf : MemWf m) (seq : Word) (kind : NoticeKind) {subject reason : Nat}
    (hs : subject < 65536) (hr : reason < 256) (stamp value : Word) :
    logEntry (writeNotice m seq kind subject reason stamp value) seq kind subject reason stamp value := by
  have wf' := memWf_writeWords (noticeAddr seq.toNat + 4)
    [fld kind.code 0 8 + fld reason 8 8 + fld subject 16 16, stamp.toNat, value.toNat] wf
  have entry {i : Nat} (hi : i < 3) := readWord_writeWords m (noticeAddr seq.toNat + 4)
    [fld kind.code 0 8 + fld reason 8 8 + fld subject 16 16, stamp.toNat, value.toNat] i hi wf
  have first : fld kind.code 0 8 + fld reason 8 8 + fld subject 16 16 = kind.code + 256 * reason + 65536 * subject := by
    have code : kind.code < 256 := by cases kind <;> decide
    simp only [fld]
    omega
  refine ⟨readWord_writeWord_same _ _ _ wf', ?_, ?_, ?_⟩
  · refine (readWord_writeWord_other _ _ _ _ (.inr (Nat.le_refl _))).trans ((entry (i := 0) (by decide)).trans ?_)
    rw [List.getElem_cons_zero, first]
  · refine (readWord_writeWord_other _ _ _ _ (.inr (by simp only [noticeAddr]; omega))).trans
      ((entry (i := 1) (by decide)).trans ?_)
    exact (BitVec.ofNat_toNat ..).trans (BitVec.setWidth_eq _)
  · refine (readWord_writeWord_other _ _ _ _ (.inr (by simp only [noticeAddr]; omega))).trans
      ((entry (i := 2) (by decide)).trans ?_)
    exact (BitVec.ofNat_toNat ..).trans (BitVec.setWidth_eq _)

/-- An entry of the log is left by what changes none of its bytes. -/
theorem logEntry_congr {m m' : Mem} {q : Word} {kind : NoticeKind} {subject reason : Nat} {stamp value : Word}
    (h : ∀ a, within (0x2D00 + 16 * (q.toNat % 256)) 16 a = true → readByte m' a = readByte m a)
    (entry : logEntry m q kind subject reason stamp value) : logEntry m' q kind subject reason stamp value := by
  have word {d : Nat} (hd : d + 4 ≤ 16) :
      readWord m' (0x2D00 + 16 * (q.toNat % 256) + d) = readWord m (0x2D00 + 16 * (q.toNat % 256) + d) :=
    readWord_congr _ fun i hi => h _ (within_iff.mpr (by omega))
  obtain ⟨seq, codes, time, data⟩ := entry
  exact ⟨(word (d := 0) (by decide)).trans seq, (word (by decide)).trans codes, (word (by decide)).trans time,
    (word (by decide)).trans data⟩

/-- An entry and the write count behind it (R191). -/
def appendNotice (m : Mem) (q : Word) (kind : NoticeKind) (subject reason : Nat) (stamp value : Word) : Mem :=
  writeWord (writeNotice m q kind subject reason stamp value) addrWriteCount (q + 1)

theorem notice_append {s : State} (h : s.logFull = false) (kind : NoticeKind) (subject reason : Nat) (value : Word) :
    s.notice kind subject reason value = { s with
      mem := appendNotice s.mem s.writeCount kind subject reason s.partTime value
      cause := s.cause ||| 2#32 } := by
  simp only [State.notice, h, Bool.false_eq_true, if_false, State.raise, Cause.word, Cause.bit, appendNotice]
  rfl

theorem readWord_appendNotice {m : Mem} (wf : MemWf m) (q : Word) (kind : NoticeKind) (subject reason : Nat)
    (stamp value : Word) : readWord (appendNotice m q kind subject reason stamp value) addrWriteCount = q + 1 :=
  readWord_writeWord_same _ _ _ (memWf_writeNotice _ _ _ _ _ _ wf)

theorem logEntry_appendNotice {m : Mem} (wf : MemWf m) (q : Word) (kind : NoticeKind) {subject reason : Nat}
    (hs : subject < 65536) (hr : reason < 256) (stamp value : Word) :
    logEntry (appendNotice m q kind subject reason stamp value) q kind subject reason stamp value := by
  have entry := logEntry_writeNotice wf q kind hs hr stamp value
  generalize held : writeNotice m q kind subject reason stamp value = m' at entry
  rw [appendNotice, held]
  refine logEntry_congr (fun a ha => ?_) entry
  rw [within_iff] at ha
  exact readByte_writeWord_other _ _ _ _ (by simp only [addrWriteCount]; omega)

theorem readByte_appendNotice (m : Mem) (q : Word) (kind : NoticeKind) (subject reason : Nat) (stamp value : Word) :
    sameBytesOutside (fun x => within 0x18 4 x || within (0x2D00 + 16 * (q.toNat % 256)) 16 x) m
      (appendNotice m q kind subject reason stamp value) := by
  intro a ha
  simp only [Bool.or_eq_false_iff, within_eq_false] at ha
  rw [appendNotice, readByte_writeWord_other _ _ _ _ (by simp only [addrWriteCount]; omega)]
  simp only [writeNotice, noticeAddr]
  rw [readByte_writeWord_other _ _ _ _ (by omega), readByte_writeWords_other _ _ _ _ (by simp only [List.length]; omega)]

/-- A notice with room in the log: the entry, the write count, the cause, and the bytes it writes. -/
structure Noticed (s u : State) (kind : NoticeKind) (subject reason : Nat) (value : Word) : Prop where
  same : u = { s with mem := u.mem, cause := s.cause ||| 2#32 }
  count : u.writeCount = s.writeCount + 1
  entry : logEntry u.mem s.writeCount kind subject reason s.partTime value
  bytes : sameBytesOutside (fun x => within 0x18 4 x || within (0x2D00 + 16 * (s.writeCount.toNat % 256)) 16 x) s.mem u.mem

theorem notice_noticed {s : State} (wf : MemWf s.mem) (room : s.logFull = false) (kind : NoticeKind) {subject reason : Nat}
    (hs : subject < 65536) (hr : reason < 256) (value : Word) :
    Noticed s (s.notice kind subject reason value) kind subject reason value := by
  rw [notice_append room]
  have count := readWord_appendNotice wf s.writeCount kind subject reason s.partTime value
  have entry := logEntry_appendNotice wf s.writeCount kind hs hr s.partTime value
  have bytes := readByte_appendNotice s.mem s.writeCount kind subject reason s.partTime value
  generalize appendNotice s.mem s.writeCount kind subject reason s.partTime value = m at count entry bytes
  exact {
    same := by simp only
    count := by
      rw [State.writeCount]
      exact count
    entry := entry
    bytes := bytes }

/-- Settles O46: by whether the log has room. -/
theorem noticeAppendOrMiss : Obligations.NoticeAppendOrMiss := by
  unfold Obligations.NoticeAppendOrMiss
  intro s kind subject reason value wf hs hr
  refine ⟨fun full => ?_, fun room => ?_⟩
  · rw [notice_full ((logFull_iff s).mpr full)]
    exact ⟨rfl, readWord_writeWord_same _ _ _ wf, (memStep_writeWord _ _ _).bytes⟩
  · have noticed := notice_noticed wf (Bool.eq_false_iff.mpr fun h => by
      have := (logFull_iff s).mp h
      omega) kind hs hr value
    obtain ⟨seq, codes, stamp, data⟩ := noticed.entry
    exact ⟨noticed.same, noticed.count, seq, codes, stamp, data, noticed.bytes⟩

end Sys2Proof.Machine
end

section
/-! PROOF. The relay driver's operations: the aim, an assignment, the start of a pulse, and the place of an entry in the close
queue. -/
namespace Sys2Proof.Machine

open Sys2Proof.Safety

/-! ### One entry of a table changed, at an index of the table's own type -/

theorem upd_same {α : Type} {n : Nat} (v : Vector α n) (i : Fin n) (f : α → α) : (upd v i f)[i] = f v[i] :=
  getElem_upd_same v i f

theorem upd_other {α : Type} {n : Nat} (v : Vector α n) {i j : Fin n} (f : α → α) (h : j ≠ i) : (upd v i f)[j] = v[j] :=
  getElem_upd_other v i j f h

theorem upd_at {α : Type} {n : Nat} (v : Vector α n) (i j : Fin n) (f : α → α) :
    (upd v i f)[j] = if j = i then f v[j] else v[j] :=
  getElem_upd v i j f

theorem tab_at {α : Type} {n : Nat} (f : Fin n → α) (i : Fin n) : (tab f)[i] = f i := getElem_tab f i

/-- The second of two writes to one entry stays. -/
theorem upd_twice {α : Type} {n : Nat} (v : Vector α n) (i : Fin n) (a b : α) :
    upd (upd v i fun _ => a) i (fun _ => b) = upd v i fun _ => b :=
  vector_ext _ _ fun j => by
    rw [upd_at, upd_at, upd_at]
    split_ifs <;> rfl

/-! ### The aim (R81) -/

/-- The multiple of the half period is the least that reaches `x`. -/
theorem ceilDiv_spec {x h : Nat} (hh : 0 < h) :
    x ≤ (x + (h - 1)) / h * h ∧ (x + (h - 1)) / h * h < x + h ∧ ∀ j, x ≤ j * h → (x + (h - 1)) / h ≤ j := by
  have below := Nat.div_mul_le_self (x + (h - 1)) h
  have above := Nat.lt_div_mul_add (a := x + (h - 1)) hh
  refine ⟨by omega, by omega, fun j hj => ?_⟩
  refine Nat.lt_succ_iff.mp ((Nat.div_lt_iff_lt_mul hh).mpr ?_)
  rw [Nat.succ_mul]
  omega

theorem aimStart_spec {t0 h est now : Nat} (past : t0 ≤ now) (hh : 0 < h) :
    ∃ m, 1 ≤ m ∧ aimStart t0 h est now = t0 + m * h - est ∧ now + 1000 + est ≤ t0 + m * h ∧
      (∀ j, 1 ≤ j → now + 1000 + est ≤ t0 + j * h → m ≤ j) ∧ aimStart t0 h est now < now + 1000 + h := by
  obtain ⟨reaches, close, least⟩ := ceilDiv_spec (x := now + 1000 + est - t0) hh
  have positive : 1 ≤ (now + 1000 + est - t0 + (h - 1)) / h := (Nat.one_le_div_iff hh).mpr (by omega)
  have start : aimStart t0 h est now = t0 + (now + 1000 + est - t0 + (h - 1)) / h * h - est := by
    simp only [aimStart, Nat.max_eq_right positive]
  generalize (now + 1000 + est - t0 + (h - 1)) / h = m at reaches close least positive start
  refine ⟨m, positive, start, by omega, fun j _ hj => least j (by omega), by omega⟩

/-! ### The place of an entry (R105) -/

/-- A close joins the queue behind the entries of its class or a lower one. -/
theorem insertEntry_place (e : QueueEntry) {q : List QueueEntry} (sorted : q.Pairwise fun x y => x.cls ≤ y.cls) :
    ∃ front back, q = front ++ back ∧ insertEntry e q = front ++ e :: back ∧ (∀ x ∈ front, x.cls ≤ e.cls) ∧
      ∀ x ∈ back, e.cls < x.cls := by
  induction q with
  | nil => exact ⟨[], [], rfl, rfl, nofun, nofun⟩
  | cons x xs ih =>
    obtain ⟨least, sorted⟩ := List.pairwise_cons.mp sorted
    by_cases before : e.cls < x.cls
    · refine ⟨[], x :: xs, rfl, if_pos before, nofun, fun y hy => ?_⟩
      rcases List.mem_cons.mp hy with rfl | hy
      · exact before
      · exact lt_of_lt_of_le before (least y hy)
    · obtain ⟨front, back, rfl, place, lower, higher⟩ := ih sorted
      refine ⟨x :: front, back, rfl, ?_, fun y hy => ?_, higher⟩
      · rw [insertEntry, if_neg before, place, List.cons_append]
      · rcases List.mem_cons.mp hy with rfl | hy
        · exact not_lt.mp before
        · exact lower y hy

/-! ### An assignment of a driver (R78, R81, R82) -/

theorem estimate_eq (o : Outlet) (dir : Dir) : o.estimate dir = travelEstimate o dir := by cases dir <;> rfl

theorem level_eq (dir : Dir) : dir.level = (dir == .toClosed) := by cases dir <;> rfl

/-- A LIVE phase with a recorded crossing and half period is aimed at. -/
theorem aim_timed {s : State} {p : Phase} {t0 half : Nat} {pol : Polarity} (live : s.phases[p].live = true)
    (last : s.phases[p].last = some (t0, pol)) (hh : s.phases[p].half = some half) (est : Nat) :
    s.aim p est = (aimStart t0 half est s.now, true) := by
  simp only [State.aim, live, last, hh]

/-- Any other phase gives no aim (log entry 20). -/
theorem aim_untimed {s : State} {p : Phase}
    (h : s.phases[p].live = true → s.phases[p].last = none ∨ s.phases[p].half = none) (est : Nat) :
    s.aim p est = (s.now, false) := by
  unfold State.aim
  split
  case h_1 live last half =>
    rcases h live with none | none
    · rw [last] at none
      cases none
    · rw [half] at none
      cases none
  case h_2 => rfl

/-- An untimed pulse is planned for now. -/
theorem aim_start {s : State} {p : Phase} {est start : Nat} (h : s.aim p est = (start, false)) : start = s.now := by
  unfold State.aim at h
  split at h
  case h_1 => cases h
  case h_2 =>
    cases h
    rfl

theorem assign_timed {s : State} {d : DriverNo} {k : OutletIx} {dir : Dir} {start : Nat}
    (h : s.aim (s.phaseOf k) (travelEstimate s.outlets[k] dir) = (start, true)) :
    s.assign d k dir = ((s.setDriver d (.aiming (jobFor s k dir start true))).setMove k
      (.aiming dir (s.phaseOf k) (travelEstimate s.outlets[k] dir))).modOutlet k fun o => { o with unverified := none } := by
  simp only [State.assign, estimate_eq, h, if_true]
  rfl

/-- What the start of a pulse records (R83, R84). -/
theorem startPulse_eq (s : State) (d : DriverNo) (job : DriverJob) (estimate : Nat) :
    s.startPulse d job estimate = (s.setDriver d (.driving job (s.now + job.width))).setMove job.outlet (.driving {
      dir := job.dir, phase := job.phase, estimate := estimate, start := s.now
      windowEnd := s.now + job.width + job.margin, deadline := s.now + job.width + job.margin + 2000
      satisfied := if s.sense[job.outlet].level = (job.dir == .toClosed) then .atStart else .no }) := by
  simp only [State.startPulse, level_eq, beq_iff_eq]

theorem assign_untimed {s : State} {d : DriverNo} {k : OutletIx} {dir : Dir}
    (h : s.aim (s.phaseOf k) (travelEstimate s.outlets[k] dir) = (s.now, false)) :
    s.assign d k dir = ((s.setDriver d (.driving (jobFor s k dir s.now false) (s.now + s.work.strip.pulseWidth * 1000))).setMove
      k (.driving (pulseNow s (jobFor s k dir s.now false)))).modOutlet k fun o => { o with unverified := none } := by
  have started : s.assign d k dir = (((s.setDriver d (.aiming (jobFor s k dir s.now false))).setMove k
      (.aiming dir (s.phaseOf k) (travelEstimate s.outlets[k] dir))).modOutlet k fun o => { o with unverified := none }).startPulse
      d (jobFor s k dir s.now false) (travelEstimate s.outlets[k] dir) := by
    simp only [State.assign, estimate_eq, h, Bool.false_eq_true, if_false]
    rfl
  rw [started, startPulse_eq]
  simp only [State.setDriver, State.setMove, State.modOutlet, jobFor, upd_twice]
  rfl

/-- An assignment changes one driver, one movement and the UNVERIFIED mark of one outlet. -/
theorem assign_records (s : State) (d : DriverNo) (k : OutletIx) (dir : Dir) :
    ∃ (x : Driver) (m : Movement), s.assign d k dir = { s with
      drivers := upd s.drivers d fun _ => x, moves := upd s.moves k fun _ => m
      outlets := upd s.outlets k fun o => { o with unverified := none } } := by
  rcases h : s.aim (s.phaseOf k) (travelEstimate s.outlets[k] dir) with ⟨start, timed⟩
  cases timed with
  | true => exact ⟨_, _, assign_timed h⟩
  | false => exact ⟨_, _, assign_untimed (h.trans (by rw [aim_start h]))⟩

theorem assign_outlet (s : State) (d : DriverNo) (k : OutletIx) (dir : Dir) :
    (s.assign d k dir).outlets[k] = { s.outlets[k] with unverified := none } := by
  obtain ⟨x, m, same⟩ := assign_records s d k dir
  rw [same, upd_same]

theorem assign_outlet_other (s : State) (d : DriverNo) {k j : OutletIx} (dir : Dir) (h : j ≠ k) :
    (s.assign d k dir).outlets[j] = s.outlets[j] := by
  obtain ⟨x, m, same⟩ := assign_records s d k dir
  rw [same, upd_other _ _ h]

theorem assign_move_other (s : State) (d : DriverNo) {k j : OutletIx} (dir : Dir) (h : j ≠ k) :
    (s.assign d k dir).moves[j] = s.moves[j] := by
  obtain ⟨x, m, same⟩ := assign_records s d k dir
  rw [same, upd_other _ _ h]

theorem assign_driver_other (s : State) {d x : DriverNo} (k : OutletIx) (dir : Dir) (h : x ≠ d) :
    (s.assign d k dir).drivers[x] = s.drivers[x] := by
  obtain ⟨y, m, same⟩ := assign_records s d k dir
  rw [same, upd_other _ _ h]

theorem assign_same (s : State) (d : DriverNo) (k : OutletIx) (dir : Dir) :
    s.assign d k dir = { s with
      drivers := (s.assign d k dir).drivers, moves := (s.assign d k dir).moves, outlets := (s.assign d k dir).outlets } := by
  obtain ⟨x, m, same⟩ := assign_records s d k dir
  rw [same]

/-- What an assignment records is what `Assigned` says. -/
theorem assign_assigned (s : State) (d : DriverNo) (k : OutletIx) (dir : Dir) : Assigned s (s.assign d k dir) d k dir where
  timed t0 pol half live last hh := by
    rw [assign_timed (aim_timed live last hh _)]
    exact ⟨upd_same _ _ _, upd_same _ _ _⟩
  untimed h := by
    rw [assign_untimed (aim_untimed h _)]
    exact ⟨upd_same _ _ _, upd_same _ _ _⟩
  unverified := by rw [assign_outlet]

/-- Settles O47: the aim, the place in the queue, and the assignment. -/
theorem aimAndQueuePlace : Obligations.AimAndQueuePlace := by
  unfold Obligations.AimAndQueuePlace
  refine ⟨fun t0 h est now past low _ _ _ => aimStart_spec past (by omega), fun e q sorted => insertEntry_place e sorted,
    fun s d k dir => ⟨assign_assigned s d k dir, assign_same s d k dir, assign_outlet s d k dir,
      fun x h => assign_driver_other s k dir h, fun j h => ⟨assign_move_other s d dir h, assign_outlet_other s d dir h⟩⟩⟩

/-! ### PULSE_START (R83) -/

theorem exec_pulseStart_running {s : State} (h : s.resetting = none) (t : Nat) (d : DriverNo) :
    exec (.pulseStart t d) s = .next ((s.advance t).plannedPulse d) :=
  congrArg Host.Outcome.next (quietEvent_running h t _)

/-- A driver that aims at an outlet in AIMING starts its pulse at its planned start. -/
theorem plannedPulse_aiming {s : State} {d : DriverNo} {job : DriverJob} {dir : Dir} {p : Phase} {est : Nat}
    (driver : s.drivers[d] = .aiming job) (move : s.moves[job.outlet] = .aiming dir p est) :
    s.plannedPulse d = if job.plannedStart ≤ s.now then s.startPulse d job est else s := by
  simp only [State.plannedPulse, driver, move]

/-- Settles O21: by whether the planned start has come. -/
theorem pulseStartsAsPlanned : Obligations.PulseStartsAsPlanned := by
  unfold Obligations.PulseStartsAsPlanned
  intro s t d job dir p est running driver move
  rw [exec_pulseStart_running running, plannedPulse_aiming (s := s.advance t) driver move]
  refine ⟨fun due => ⟨_, rfl, ?_⟩, fun early => ?_⟩
  case refine_2 =>
    rw [if_neg (show ¬job.plannedStart ≤ (s.advance t).now from not_le.mpr early)]
    rfl
  rw [if_pos (show job.plannedStart ≤ (s.advance t).now from due), startPulse_eq]
  refine ⟨rfl, ?_, upd_same _ _ _, fun x h => upd_other _ _ h, fun k h => upd_other _ _ h,
    _, upd_same _ _ _, rfl, rfl, rfl, rfl, rfl, rfl, rfl⟩
  simp only [State.coil, State.setDriver, State.setMove, upd_same]

end Sys2Proof.Machine
end

section
/-! PROOF. The front end's inputs: sample sets (R1 to R3, R17 to R19) and load senses (R4, R84). -/
namespace Sys2Proof.Machine

open Sys2Proof.Safety

/-! ### Samples -/

theorem clampNat_fst {lo hi : Nat} (h : lo ≤ hi) (v : Nat) : (clampNat lo hi v).1 = max lo (min hi v) := by
  unfold clampNat
  split_ifs <;> simp only <;> omega

theorem clampInt_fst {lo hi : Int} (h : lo ≤ hi) (v : Int) : (clampInt lo hi v).1 = max lo (min hi v) := by
  unfold clampInt
  split_ifs <;> simp only <;> omega

theorem removeOffset_eq (code : Half) (offset : Int) : removeOffset code offset = correctedCode code offset :=
  clampInt_fst (by decide) _

/-- The latest sample set was taken at another instant. -/
theorem sampleNow_eq_none {s : State} : s.sampleNow = none ↔ ∀ l, s.tb.lastSample = some l → l.instant ≠ s.now := by
  simp only [State.sampleNow, Option.filter_eq_none_iff, beq_iff_eq]

theorem any_le_ite {c : Prop} [Decidable c] {a n : Nat} : (if c then some a else none).any (· ≤ n) = true ↔ a ≤ n ∧ c := by
  split_ifs with h <;> simp [h]

/-- R2, R3: the frame in progress has a sample instant that has come. -/
theorem sampleDue_iff (s : State) : s.sampleDue = true ↔
    (match s.tb.frameState with
      | .freeRun => s.tb.openInstant + (if s.tb.openTaken then s.tb.sampleCount else 0) * 625 / 2
      | .locked => s.tb.cycleStart + s.tb.cycleTaken * s.tb.cycleP / 64) ≤ s.now ∧
    match s.tb.frameState with
      | .freeRun => (if s.tb.openTaken then s.tb.sampleCount else 0) < 3200
      | .locked => s.tb.cycleTaken < 64 := by
  unfold State.sampleDue Timebase.nextSample
  cases s.tb.frameState <;> exact any_le_ite

theorem exec_sample_running {s : State} (h : s.resetting = none) (t : Nat) (x : SampleSet) :
    exec (.sample t x) s = .next ((s.advance t).takeSample x) :=
  congrArg Host.Outcome.next (quietEvent_running h t _)

theorem takeSample_second {s : State} (h : s.sampleNow ≠ none) (x : SampleSet) : s.takeSample x = s :=
  if_pos (Option.isSome_iff_ne_none.mpr h)

theorem takeSample_due {s : State} (first : s.sampleNow = none) (due : s.sampleDue = true) (x : SampleSet) :
    s.takeSample x = s.countSample x := by
  rw [State.takeSample, first, if_neg (by decide), if_pos due]

theorem takeSample_notDue {s : State} (first : s.sampleNow = none) (due : s.sampleDue = false) (x : SampleSet) :
    s.takeSample x = s.holdSample x := by
  rw [State.takeSample, first, if_neg (by decide), if_neg (Bool.eq_false_iff.mp due)]

/-- R17 to R19: what one sample set adds to an outlet's window. -/
theorem accumulate_meter (s : State) (x : SampleSet) (k : OutletIx) :
    (s.accumulate x).meter[k] = { s.meter[k] with
      sii := s.meter[k].sii + (correctedCode x.current[k] s.work.outlets[k].currentOffset *
        correctedCode x.current[k] s.work.outlets[k].currentOffset).toNat
      svi := s.meter[k].svi +
        correctedCode x.voltage[s.meter[k].pairing] s.work.phases[s.meter[k].pairing].voltageOffset *
          correctedCode x.current[k] s.work.outlets[k].currentOffset
      clip := s.meter[k].clip || x.current[k] == 0x8000#16 || x.current[k] == 0x7FFF#16 } := by
  simp only [State.accumulate, tab_at, removeOffset_eq, codeClips, Bool.or_assoc]

/-- R17 to R19: what one sample set adds to a phase's window. -/
theorem accumulate_meterV (s : State) (x : SampleSet) (p : Phase) :
    (s.accumulate x).meterV[p] = { s.meterV[p] with
      svv := s.meterV[p].svv + (correctedCode x.voltage[p] s.work.phases[p].voltageOffset *
        correctedCode x.voltage[p] s.work.phases[p].voltageOffset).toNat
      clip := s.meterV[p].clip || x.voltage[p] == 0x8000#16 || x.voltage[p] == 0x7FFF#16 } := by
  simp only [State.accumulate, tab_at, removeOffset_eq, codeClips, Bool.or_assoc]

/-- Settles O7: by whether the instant has a sample already, and whether the frame has a sample instant for it. -/
theorem sampleAddsToWindows : Obligations.SampleAddsToWindows := by
  unfold Obligations.SampleAddsToWindows
  intro s t x running
  rw [exec_sample_running running]
  have due_iff := sampleDue_iff (s.advance t)
  refine ⟨fun first due => ?_, fun first early => ?_, fun second => ?_⟩
  · rw [takeSample_due (sampleNow_eq_none.mpr first) (due_iff.mpr due)]
    refine ⟨_, rfl, rfl, ⟨_, rfl, rfl, rfl, rfl, rfl, fun o => tab_at _ o⟩, fun o => ?_, fun p => ?_⟩
    · exact accumulate_meter (s.advance t) x o
    · exact accumulate_meterV (s.advance t) x p
  · rw [takeSample_notDue (sampleNow_eq_none.mpr first) (Bool.eq_false_iff.mpr fun h => early (due_iff.mp h))]
    exact ⟨_, rfl, rfl, _, rfl, rfl, rfl, rfl, rfl, fun o => tab_at _ o⟩
  · rw [takeSample_second (s := s.advance t) fun none => second (sampleNow_eq_none.mp none)]
    rfl

/-! ### Load senses -/

theorem exec_rawSenseChange_running {s : State} (h : s.resetting = none) (t : Nat) (k : OutletIx) (level : Bool) :
    exec (.rawSenseChange t k level) s =
      .next { s.advance t with sense := upd s.sense k fun x => x.rawChange level (max s.now t) } := by
  simp only [exec, execRawSenseChange, h, Option.isSome_none, Bool.false_eq_true, if_false, State.advance]

/-- R4: the debounced level takes the raw level. -/
def State.debounced (s : State) (k : OutletIx) : State :=
  { s with sense := upd s.sense k fun x => { x with level := x.raw } }

theorem acceptSense_settled {s : State} {k : OutletIx} (differs : s.sense[k].raw ≠ s.sense[k].level)
    (held : s.sense[k].since + 2000 ≤ s.now) :
    s.acceptSense k = (s.debounced k).senseReport k s.sense[k].raw s.sense[k].since := by
  rw [State.acceptSense, if_pos]
  · rfl
  · rw [Sense.settled, Bool.and_eq_true, bne_iff_ne, decide_eq_true_eq]
    exact ⟨differs, held⟩

theorem acceptSense_unsettled {s : State} {k : OutletIx}
    (h : s.sense[k].raw = s.sense[k].level ∨ s.now < s.sense[k].since + 2000) : s.acceptSense k = s := by
  rw [State.acceptSense, if_neg]
  rw [Sense.settled, Bool.and_eq_true, bne_iff_ne, decide_eq_true_eq]
  rintro ⟨differs, held⟩
  rcases h with same | early
  · exact differs same
  · omega

/-- The instant a candidate run began at, with no change since the reset µs 0 (log entry 14). -/
theorem since_eq {x : Sense} {r : Nat} (h : x.run = some r ∨ x.run = none ∧ r = 0) : x.since = r := by
  rcases h with run | ⟨run, rfl⟩ <;> rw [Sense.since, run] <;> rfl

theorem report_eq (p : Pulse) (level : Bool) (stamp : Nat) : p.report level stamp =
    if p.satisfied = .no ∧ level = (p.dir == .toClosed) ∧ p.start ≤ stamp ∧ stamp ≤ p.windowEnd then
      { p with satisfied := .measured (stamp - p.start) } else p := by
  rw [Pulse.report, level_eq]

/-- A report to an outlet whose movement is not in verification touches that movement's record alone. -/
theorem senseReport_unverifying {s : State} {k : OutletIx} (h : ∀ p, s.moves[k] ≠ .verifying p) (level : Bool) (stamp : Nat) :
    s.senseReport k level stamp = { s with moves := upd s.moves k fun m => match m with
      | .driving p => .driving (p.report level stamp)
      | m => m } := by
  have same (f : Movement → Movement) (hf : f s.moves[k] = s.moves[k]) : upd s.moves k f = s.moves := vector_ext _ _ fun j => by
    rw [upd_at]
    split_ifs with hj
    · exact hj ▸ hf
    · rfl
  unfold State.senseReport
  cases move : s.moves[k] with
  | driving p =>
    simp only [State.setMove]
    congr 1
    refine vector_ext _ _ fun j => ?_
    rw [upd_at, upd_at]
    split_ifs with hj
    · rw [hj, move]
    · rfl
  | verifying p => exact absurd move (h p)
  | none | waiting _ | aiming _ _ _ => rw [same _ (by rw [move])]

/-- A report that does not satisfy a verification leaves it. -/
theorem senseReport_verifying {s : State} {k : OutletIx} {p : Pulse} (move : s.moves[k] = .verifying p)
    (unsatisfied : p.satisfied = .no) {level : Bool} {stamp : Nat}
    (h : ¬(level = (p.dir == .toClosed) ∧ p.start ≤ stamp ∧ stamp ≤ p.windowEnd)) : s.senseReport k level stamp = s := by
  have kept : p.report level stamp = p := by
    rw [report_eq, if_neg fun hit => h hit.2]
  simp only [State.senseReport, move, kept, unsatisfied, if_true]

/-- An accepted change that completes no movement changes nothing that a guarded record shows. -/
theorem exec_senseChange_same {s : State} (running : s.resetting = none) (due : s.scanDue = false) (t : Nat) (k : OutletIx)
    {sense : Vector Sense 48} {moves : Vector Movement 48}
    (h : (s.advance t).acceptSense k = { s.advance t with sense := sense, moves := moves }) :
    exec (.senseChange t k) s = .next { s.advance t with sense := sense, moves := moves } := by
  refine congrArg Host.Outcome.next ((event_running_same running t _ ?_ ?_ ?_ ?_ ?_ ?_ ?_).trans h) <;> rw [h] <;>
    first | exact due | rfl

/-- Settles O9: by the raw level, the run of the candidate level, and the movement of the outlet. -/
theorem senseInputsDebounce : Obligations.SenseInputsDebounce := by
  unfold Obligations.SenseInputsDebounce
  intro s t k running
  refine ⟨fun level => ?_, fun r run due => ?_⟩
  · rw [exec_rawSenseChange_running running]
    refine ⟨_, rfl, rfl, fun j hj => upd_other _ _ hj, fun differs => ?_, fun same => ?_⟩
    · refine (upd_same _ _ _).trans ?_
      rw [Sense.rawChange, if_neg differs]
    · exact (upd_same _ _ _).trans (if_pos same)
  · have since : (s.advance t).sense[k].since = r := since_eq run
    refine ⟨fun differs held unverifying => ?_, fun differs held p move unsatisfied misses => ?_, fun unsettled => ?_⟩
    · have accepted := (acceptSense_settled (s := s.advance t) differs (by rw [since]; exact held)).trans
        (senseReport_unverifying (s := (s.advance t).debounced k) unverifying _ _)
      rw [since] at accepted
      refine ⟨_, exec_senseChange_same running due t k accepted, rfl, upd_same _ _ _,
        fun j hj => ⟨upd_other _ _ hj, upd_other _ _ hj⟩, (upd_same _ _ _).trans ?_⟩
      show (match s.moves[k] with | .driving p => _ | m => m) = _
      cases s.moves[k] with
      | driving p => exact congrArg Movement.driving (report_eq p _ r)
      | none | waiting _ | aiming _ _ _ | verifying _ => rfl
    · have accepted := (acceptSense_settled (s := s.advance t) differs (by rw [since]; exact held)).trans
        (senseReport_verifying (s := (s.advance t).debounced k) move unsatisfied (by rw [since]; exact misses))
      exact ⟨_, exec_senseChange_same running due t k accepted, rfl, upd_same _ _ _, fun j hj => upd_other _ _ hj⟩
    · have kept : (s.advance t).acceptSense k = s.advance t := acceptSense_unsettled (by rw [since]; exact unsettled)
      exact exec_senseChange_same running due t k kept

end Sys2Proof.Machine
end

section
/-! PROOF. The publisher: the frame buffer word by word (R40, R42 to R45), the flip (R41) and the part-time word. -/
namespace Sys2Proof.Machine

open Sys2Proof.Safety

/-! ### The body of a frame buffer -/

/-- Word `j` of chunk `i`, where every chunk has `n` words. -/
theorem getElem?_chunks {α : Type} {f : α → List Nat} {n : Nat} (length : ∀ x, (f x).length = n) (l : List α) {i j : Nat}
    (hj : j < n) (hi : i < l.length) : (l.map f).flatten[n * i + j]? = (f l[i])[j]? := by
  induction l generalizing i with
  | nil => cases hi
  | cons x xs ih =>
    rw [List.map_cons, List.flatten_cons]
    cases i with
    | zero =>
      rw [Nat.mul_zero, Nat.zero_add, List.getElem?_append_left (by rw [length]; exact hj)]
      rfl
    | succ i =>
      rw [List.getElem?_append_right (by rw [length, Nat.mul_succ]; omega), length, Nat.mul_succ,
        show n * i + n + j - n = n * i + j by omega]
      exact ih (Nat.lt_of_succ_lt_succ hi)

theorem length_chunks {α : Type} {f : α → List Nat} {n k : Nat} (length : ∀ x, (f x).length = n) (v : Vector α k) :
    (v.toList.map f).flatten.length = n * k := by
  rw [length_flatten_of _ length, Vector.length_toList, Nat.mul_comm]

theorem getElem?_vectorChunks {α : Type} {f : α → List Nat} {n k : Nat} (length : ∀ x, (f x).length = n) (v : Vector α k)
    (i : Fin k) {j : Nat} (hj : j < n) : (v.toList.map f).flatten[n * i.val + j]? = (f v[i])[j]? := by
  rw [getElem?_chunks length _ hj (by rw [Vector.length_toList]; exact i.isLt), Vector.getElem_toList]
  rfl

theorem flag_eq (b : Bool) (i : Nat) : flag b i = 2 ^ i * b.toNat := by
  cases b <;> simp [flag, fld]

/-- The four parts of the body, by the place of a word. -/
theorem frameBody_header (f : FrameResult) {i : Nat} (hi : i < 7) :
    (frameBody f)[i]? = [f.tUs, f.n, f.frequency, f.frameState.code + flag f.short 1, 0, 0, 0][i]? := by
  rw [frameBody, List.append_assoc, List.append_assoc]
  exact List.getElem?_append_left hi

theorem frameBody_phase (f : FrameResult) (p : Phase) {j : Nat} (hj : j < 4) :
    (frameBody f)[7 + (4 * p.val + j)]? = (phaseWords f.phases[p])[j]? := by
  have length := length_chunks (f := phaseWords) (n := 4) (fun _ => rfl) f.phases
  rw [frameBody, List.append_assoc, List.append_assoc, List.getElem?_append_right (Nat.le_add_right 7 _),
    List.getElem?_append_left (by rw [length]; simp only [List.length]; omega)]
  simp only [List.length, Nat.zero_add, Nat.add_sub_cancel_left]
  exact getElem?_vectorChunks (n := 4) (fun _ => rfl) f.phases p hj

theorem frameBody_outlet (f : FrameResult) (k : OutletIx) {j : Nat} (hj : j < 8) :
    (frameBody f)[19 + (8 * k.val + j)]? = (outletWords f.outlets[k])[j]? := by
  have before := length_chunks (f := phaseWords) (n := 4) (fun _ => rfl) f.phases
  have length := length_chunks (f := outletWords) (n := 8) (fun _ => rfl) f.outlets
  rw [frameBody, List.append_assoc, List.getElem?_append_right (by rw [List.length_append, before]; exact Nat.le_add_right 19 _),
    List.getElem?_append_left (by rw [List.length_append, before, length]; simp only [List.length]; omega),
    List.length_append, before]
  simp only [List.length, Nat.zero_add, Nat.reduceAdd, Nat.reduceMul, Nat.add_sub_cancel_left]
  exact getElem?_vectorChunks (n := 8) (fun _ => rfl) f.outlets k hj

theorem frameBody_branch (f : FrameResult) (b : Branch) {j : Nat} (hj : j < 4) :
    (frameBody f)[403 + (4 * b.val + j)]? = (branchWords f.branches[b])[j]? := by
  have phases := length_chunks (f := phaseWords) (n := 4) (fun _ => rfl) f.phases
  have outlets := length_chunks (f := outletWords) (n := 8) (fun _ => rfl) f.outlets
  rw [frameBody, List.getElem?_append_right
    (by rw [List.length_append, List.length_append, phases, outlets]; exact Nat.le_add_right 403 _),
    List.length_append, List.length_append, phases, outlets]
  simp only [List.length, Nat.zero_add, Nat.reduceAdd, Nat.reduceMul, Nat.add_sub_cancel_left]
  exact getElem?_vectorChunks (n := 4) (fun _ => rfl) f.branches b hj

/-! ### The buffer in memory -/

theorem readWord_writeFrame_leading {m : Mem} (wf : MemWf m) (b : BufferName) (f : FrameResult) :
    readWord (writeFrame m b f) (bufferAddr b) = f.sequence := by
  simp only [writeFrame]
  rw [readWord_writeWord_other _ _ _ _ (by omega), readWord_writeWords_other _ _ _ _ (by omega), readWord_writeWord_same _ _ _ wf]

theorem readWord_writeFrame_trailing {m : Mem} (wf : MemWf m) (b : BufferName) (f : FrameResult) :
    readWord (writeFrame m b f) (bufferAddr b + 0x6B0) = f.sequence :=
  readWord_writeWord_same _ _ _ (memWf_writeWords _ _ (memWf_writeWord _ _ wf))

theorem readWord_writeFrame_body {m : Mem} (wf : MemWf m) (b : BufferName) (f : FrameResult) {i v : Nat}
    (h : (frameBody f)[i]? = some v) : readWord (writeFrame m b f) (bufferAddr b + 4 + 4 * i) = BitVec.ofNat 32 v := by
  obtain ⟨hi, rfl⟩ := List.getElem?_eq_some_iff.mp h
  have length := length_frameBody f
  simp only [writeFrame]
  rw [readWord_writeWord_other _ _ _ _ (by omega), readWord_writeWords _ _ _ i hi (memWf_writeWord _ _ wf)]

theorem ofNat_signedBits (v : Int) : BitVec.ofNat 32 (signedBits v 32) = BitVec.ofInt 32 v := by
  rw [signedBits, BitVec.ofNat_toNat, BitVec.setWidth_eq]

theorem bufferAddr_other (b : BufferName) : bufferAddr b.other = if b = .bufA then 0x2400 else 0x1D00 := by
  cases b <;> rfl

theorem exec_framePublication_running {s : State} (h : s.resetting = none) (t : Nat) :
    exec (.framePublication t) s = .next (s.advance t).publish :=
  congrArg Host.Outcome.next (quietEvent_running h t _)

theorem publish_waiting {s : State} {f : FrameResult} {rest : List FrameResult} (written : s.pub.written = none)
    (waiting : s.pub.waiting = f :: rest) : s.publish = { s with
      mem := writeFrame s.mem s.pub.index.other f
      pub := { s.pub with waiting := rest, written := some f.sequence } } := by
  simp only [State.publish, written, waiting]

/-- Settles O17: word by word, by the part of the body. -/
theorem publicationFillsOtherBuffer : Obligations.PublicationFillsOtherBuffer := by
  unfold Obligations.PublicationFillsOtherBuffer
  intro s t f rest running wf written waiting base
  have hbase : base = bufferAddr s.pub.index.other := (bufferAddr_other _).symm
  have published : (s.advance t).publish = { s with
      now := max s.now t, mem := writeFrame s.mem s.pub.index.other f
      pub := { s.pub with waiting := rest, written := some f.sequence } } :=
    publish_waiting (s := s.advance t) written waiting
  have leading := readWord_writeFrame_leading wf s.pub.index.other f
  have trailing := readWord_writeFrame_trailing wf s.pub.index.other f
  have body {a i v : Nat} (h : (frameBody f)[i]? = some v) (ha : a = bufferAddr s.pub.index.other + 4 + 4 * i) :=
    ha ▸ readWord_writeFrame_body wf s.pub.index.other f h
  have outside := (memStep_writeFrame s.mem s.pub.index.other f).bytes
  rw [exec_framePublication_running running, published]
  rw [← hbase] at *
  generalize writeFrame s.mem s.pub.index.other f = m at *
  clear_value base
  refine ⟨_, rfl, rfl, leading, trailing, ?_⟩
  have header {a i v : Nat} (hi : i < 7) (h : [f.tUs, f.n, f.frequency, f.frameState.code + flag f.short 1, 0, 0, 0][i]? = some v)
      (ha : a = base + 4 + 4 * i) : readWord m a = BitVec.ofNat 32 v := body ((frameBody_header f hi).trans h) ha
  refine ⟨header (i := 0) (by decide) rfl (by omega), header (i := 1) (by decide) rfl (by omega),
    header (i := 2) (by decide) rfl (by omega), ?_, fun p => ?_, fun k => ?_, fun b => ?_, outside⟩
  · refine (header (i := 3) (by decide) rfl (by omega)).trans (congrArg _ ?_)
    rw [flag_eq]
    cases f.frameState <;> rfl
  · have word {a j v : Nat} (hj : j < 4) (h : (phaseWords f.phases[p])[j]? = some v)
        (ha : a = base + 0x20 + 16 * p.val + 4 * j) : readWord m a = BitVec.ofNat 32 v :=
      body ((frameBody_phase f p hj).trans h) (by omega)
    refine ⟨word (j := 0) (by decide) rfl rfl, (word (j := 1) (by decide) rfl rfl).trans (congrArg _ ?_)⟩
    simp only [flag_eq]
    omega
  · have word {a j v : Nat} (hj : j < 8) (h : (outletWords f.outlets[k])[j]? = some v)
        (ha : a = base + 0x50 + 32 * k.val + 4 * j) : readWord m a = BitVec.ofNat 32 v :=
      body ((frameBody_outlet f k hj).trans h) (by omega)
    refine ⟨word (j := 0) (by decide) rfl rfl, (word (j := 1) (by decide) rfl rfl).trans (ofNat_signedBits _),
      word (j := 2) (by decide) rfl rfl, (word (j := 3) (by decide) rfl rfl).trans (congrArg _ ?_),
      word (j := 4) (by decide) rfl rfl, word (j := 5) (by decide) rfl rfl⟩
    simp only [flag_eq, signedBits]
  · have word {a j v : Nat} (hj : j < 4) (h : (branchWords f.branches[b])[j]? = some v)
        (ha : a = base + 0x650 + 16 * b.val + 4 * j) : readWord m a = BitVec.ofNat 32 v :=
      body ((frameBody_branch f b hj).trans h) (by omega)
    refine ⟨word (j := 0) (by decide) rfl rfl, word (j := 1) (by decide) rfl rfl,
      (word (j := 2) (by decide) rfl rfl).trans (congrArg _ ?_)⟩
    simp only [flag_eq]
    omega

/-! ### The flip and the part-time word -/

theorem exec_frameFlip_running {s : State} (h : s.resetting = none) (t : Nat) :
    exec (.frameFlip t) s = .next (s.advance t).flip :=
  congrArg Host.Outcome.next (quietEvent_running h t _)

theorem exec_partTimeRewrite_running {s : State} (h : s.resetting = none) (t : Nat) :
    exec (.partTimeRewrite t) s =
      .next { s.advance t with mem := writeWord s.mem addrPartTime (BitVec.ofNat 32 (max s.now t / 1000)) } :=
  congrArg Host.Outcome.next (quietEvent_running h t _)

/-- The header words of a flip. -/
def flipMem (m : Mem) (state : TimebaseState) (b : BufferName) (q : Word) : Mem :=
  writeWord (writeWord (timebaseWord m state) addrPubIndex (BitVec.ofNat 32 b.code)) addrPubSequence q

theorem flip_written {s : State} {q : Word} (h : s.pub.written = some q) : s.flip = { s with
    mem := flipMem s.mem s.tb.state s.pub.index.other q
    pub := { s.pub with index := s.pub.index.other, sequence := q, written := none }
    cause := s.cause ||| 1#32 } := by
  simp only [State.flip, h, State.raise, Cause.word, Cause.bit, flipMem]
  rfl

theorem readWord_timebaseWord {m : Mem} (wf : MemWf m) (state : TimebaseState) :
    readWord (timebaseWord m state) addrTimebase = BitVec.ofNat 32 state.code := by
  unfold timebaseWord
  split_ifs with same
  · exact same
  · exact readWord_writeWord_same _ _ _ wf

theorem flipMem_words {m : Mem} (wf : MemWf m) (state : TimebaseState) (b : BufferName) (q : Word) :
    readWord (flipMem m state b q) addrPubIndex = BitVec.ofNat 32 b.code ∧
      readWord (flipMem m state b q) addrPubSequence = q ∧
      readWord (flipMem m state b q) addrTimebase = BitVec.ofNat 32 state.code := by
  have wf1 := (memStep_timebaseWord m state).wf wf
  refine ⟨?_, readWord_writeWord_same _ _ _ (memWf_writeWord _ _ wf1), ?_⟩
  · rw [flipMem, readWord_writeWord_other _ _ _ _ (by decide), readWord_writeWord_same _ _ _ wf1]
  · rw [flipMem, readWord_writeWord_other _ _ _ _ (by decide), readWord_writeWord_other _ _ _ _ (by decide),
      readWord_timebaseWord wf]

theorem memStep_flipMem (m : Mem) (state : TimebaseState) (b : BufferName) (q : Word) :
    MemStep (fun a => within 0x08 8 a || within 0x24 4 a) m (flipMem m state b q) := by
  refine ((memStep_timebaseWord m state).mono fun a ha => ?_).trans
    (((memStep_writeWord _ _ _).mono fun a ha => ?_).trans ((memStep_writeWord _ _ _).mono fun a ha => ?_)) <;>
  · simp only [within_iff, Bool.or_eq_true, addrTimebase, addrPubIndex, addrPubSequence] at ha ⊢
    omega

/-- Settles O18: the flip's three words, and the part-time word. -/
theorem flipAndPartTime : Obligations.FlipAndPartTime := by
  unfold Obligations.FlipAndPartTime
  refine ⟨fun s t q running wf written => ?_, fun s t running wf => ?_⟩
  · rw [exec_frameFlip_running running, flip_written (s := s.advance t) written]
    obtain ⟨index, sequence, timebase⟩ := flipMem_words wf s.tb.state s.pub.index.other q
    have bytes := (memStep_flipMem s.mem s.tb.state s.pub.index.other q).bytes
    refine ⟨_, rfl, rfl, ?_, index.trans ?_, sequence, timebase.trans ?_, bytes⟩
    · cases h : s.pub.index <;> simp only [State.advance, h] <;> rfl
    · cases s.pub.index <;> rfl
    · cases s.tb.state <;> rfl
  · rw [exec_partTimeRewrite_running running]
    exact ⟨_, rfl, rfl, readWord_writeWord_same _ _ _ wf, (memStep_writeWord _ _ _).bytes⟩

end Sys2Proof.Machine
end

section
/-! PROOF. The finish of an order (R179, R180): what its slot shows, its notice, and the result of its members' answers. -/
namespace Sys2Proof.Machine

open Sys2Proof.Safety

/-! ### What a finished slot shows (R180) -/

theorem fld_low {v lo width : Nat} (h : v < 2 ^ width) : fld v lo width = v * 2 ^ lo := by rw [fld, Nat.mod_eq_of_lt h]

theorem optCode_lt {α : Type} {f : α → Nat} {n : Nat} (h : ∀ x, f x < n) (hn : 0 < n) (o : Option α) : optCode f o < n := by
  cases o with
  | none => exact hn
  | some x => exact h x

theorem reasonCode_lt (r : Reason) : r.code < 2 ^ 8 := by
  cases r with
  | member o => cases o <;> decide
  | _ => decide

theorem outcomeCode_lt (o : OrderOutcome) : o.code < 2 ^ 8 := by cases o <;> decide

theorem numberOf_outlet_lt (k : OutletIx) : numberOf k < 2 ^ 8 := by
  simp only [numberOf]
  omega

/-- The first result word without the fields' bounds. -/
theorem outcomeWord_eq (r : OrderResult) :
    fld r.outcome.code 0 8 + fld (optCode Reason.code r.reason) 8 8 + fld (optCode numberOf r.detail) 16 8 +
        fld (match r.record with | none => 255 | some c => c.val) 24 8 =
      r.outcome.code + 256 * optCode Reason.code r.reason + 65536 * optCode numberOf r.detail +
        2 ^ 24 * (match r.record with | none => 255 | some c => c.val) := by
  have record : (match r.record with | none => 255 | some c => c.val) < 2 ^ 8 := by
    split
    · decide
    · next c _ => exact lt_trans c.isLt (by decide)
  rw [fld_low (outcomeCode_lt _), fld_low (optCode_lt reasonCode_lt (by decide) _),
    fld_low (optCode_lt numberOf_outlet_lt (by decide) _), fld_low record]
  omega

theorem slotShows_writeResult {m : Mem} (wf : MemWf m) (e : SlotNo) (r : OrderResult) (finish : Word) :
    slotShows (writeResult m e r finish) e r finish := by
  refine ⟨slotState_writeResult e r finish wf, (outcomeWord_writeResult e r finish wf).trans (congrArg _ (outcomeWord_eq r)),
    fun i set hset => ?_, finishWord_writeResult wf e r finish⟩
  have word {j v : Nat} (hj : j < 6) (h : [mapLow r.doneSet, mapHigh r.doneSet, mapLow r.failedSet, mapHigh r.failedSet,
      mapLow r.skippedSet, mapHigh r.skippedSet][j]? = some v) :
      readWord (writeResult m e r finish) (slotAddr e + 0x1C + 4 * j) = BitVec.ofNat 32 v := by
    rw [mapWord_writeResult wf e r finish hj]
    exact congrArg _ (List.getElem?_eq_some_iff.mp h).2
  match i, hset with
  | 0, h => cases h; exact ⟨word (j := 0) (by decide) rfl, word (j := 1) (by decide) rfl⟩
  | 1, h => cases h; exact ⟨word (j := 2) (by decide) rfl, word (j := 3) (by decide) rfl⟩
  | 2, h => cases h; exact ⟨word (j := 4) (by decide) rfl, word (j := 5) (by decide) rfl⟩

/-- What a slot shows is left by what changes none of its bytes. -/
theorem slotShows_congr {m m' : Mem} {e : SlotNo} {r : OrderResult} {finish : Word}
    (h : ∀ a, slotBytes e a = true → readByte m' a = readByte m a) (shows_ : slotShows m e r finish) :
    slotShows m' e r finish := by
  obtain ⟨state, outcome, maps, stamp⟩ := shows_
  refine ⟨(slotState_congr h).trans state, (readWord_slot_congr h (by decide)).trans outcome, fun i set hset => ?_,
    (readWord_slot_congr h (by decide)).trans stamp⟩
  obtain ⟨low, high⟩ := maps i set hset
  have hi := i.isLt
  have low' := readWord_slot_congr h (d := 0x1C + 8 * i.val) (by omega)
  have high' := readWord_slot_congr h (d := 0x20 + 8 * i.val) (by omega)
  rw [← Nat.add_assoc] at low' high'
  exact ⟨low'.trans low, high'.trans high⟩

theorem noticeBytes_outside_slot {e : SlotNo} {a : Nat} (h : slotBytes e a = true) : noticeBytes a = false := by
  rw [slotBytes, within_iff] at h
  have := noticeBytes_slot e (d := a - slotAddr e) (by omega)
  rwa [show slotAddr e + (a - slotAddr e) = a by omega] at this

theorem orderFinished_finishOrder {s : State} {e : SlotNo} {entry : OrderEntry} (wf : MemWf s.mem)
    (h : s.orders[e] = some entry) (r : OrderResult) : orderFinished (s.finishOrder e r) e r := by
  have same := finishOrder_same h r
  refine ⟨?_, ?_, finishOrder_cause h r⟩
  · rw [same]
    exact upd_same _ _ _
  · have now : (s.finishOrder e r).now = s.now := by rw [same]
    rw [now]
    exact slotShows_congr (fun a ha => (memStep_finishOrder_result h r).bytes a (noticeBytes_outside_slot ha))
      (slotShows_writeResult wf e r s.partTime)

theorem finishOrder_orders_other {s : State} {e j : SlotNo} (h : j ≠ e) (r : OrderResult) :
    (s.finishOrder e r).orders[j] = s.orders[j] := by
  cases held : s.orders[e] with
  | none => simp only [State.finishOrder, held]
  | some entry =>
    rw [finishOrder_same held]
    exact upd_other _ _ h

theorem finishOrder_notify {s : State} {e : SlotNo} {entry : OrderEntry} (h : s.orders[e] = some entry)
    (notify : entry.fields.notify = true) (r : OrderResult) : s.finishOrder e r =
      (s.resultShown e r).notice .orderFinished e.val r.outcome.code (entry.fields.hostRef.setWidth 32) := by
  simp only [State.finishOrder, h, notify, if_true]
  rfl

theorem finishOrder_silent {s : State} {e : SlotNo} {entry : OrderEntry} (h : s.orders[e] = some entry)
    (silent : entry.fields.notify = false) (r : OrderResult) : s.finishOrder e r = s.resultShown e r := by
  simp only [State.finishOrder, h, silent, Bool.false_eq_true, if_false]
  rfl

/-- The header's words of the log are left by a result. -/
theorem logWords_writeResult (m : Mem) (e : SlotNo) (r : OrderResult) (finish : Word) :
    readWord (writeResult m e r finish) addrWriteCount = readWord m addrWriteCount ∧
      readWord (writeResult m e r finish) addrReadMark = readWord m addrReadMark := by
  have kept := memStep_writeResult_slot m e r finish
  exact ⟨kept.readWord _ fun i hi => slotBytes_outside e (by simp only [addrWriteCount]; omega),
    kept.readWord _ fun i hi => slotBytes_outside e (by simp only [addrReadMark]; omega)⟩

theorem logFull_congr {s u : State} (count : readWord u.mem addrWriteCount = readWord s.mem addrWriteCount)
    (mark : readWord u.mem addrReadMark = readWord s.mem addrReadMark) :
    u.logFull = s.logFull ∧ u.writeCount = s.writeCount := by
  refine ⟨?_, count⟩
  rw [State.logFull, State.logFull, State.writeCount, State.writeCount, count, mark]

theorem resultShown_log (s : State) (e : SlotNo) (r : OrderResult) :
    (s.resultShown e r).logFull = s.logFull ∧ (s.resultShown e r).writeCount = s.writeCount := by
  obtain ⟨count, mark⟩ := logWords_writeResult s.mem e r s.partTime
  rw [← resultShown_mem] at count mark
  exact logFull_congr count mark

/-- ORDER_FINISHED, where the slot asks for it and the log has room. -/
theorem logEntry_finishOrder {s : State} {e : SlotNo} {entry : OrderEntry} (wf : MemWf s.mem) (h : s.orders[e] = some entry)
    (notify : entry.fields.notify = true) (room : s.logFull = false) (r : OrderResult) :
    logEntry (s.finishOrder e r).mem s.writeCount .orderFinished e.val r.outcome.code s.partTime
        (entry.fields.hostRef.setWidth 32) ∧ (s.finishOrder e r).writeCount = s.writeCount + 1 := by
  obtain ⟨full, count⟩ := resultShown_log s e r
  have wf' : MemWf (s.resultShown e r).mem := by
    rw [resultShown_mem]
    exact (memStep_writeResult_slot _ _ _ _).wf wf
  have noticed := notice_noticed wf' (full.trans room) .orderFinished (subject := e.val) (reason := r.outcome.code)
    (lt_trans e.isLt (by decide)) (outcomeCode_lt _) (entry.fields.hostRef.setWidth 32)
  have stamp : (s.resultShown e r).partTime = s.partTime := by simp only [State.partTime, resultShown_eq]
  rw [finishOrder_notify h notify, ← count, ← stamp]
  exact ⟨noticed.entry, noticed.count⟩

theorem bytes_finishOrder_silent {s : State} {e : SlotNo} {entry : OrderEntry} (h : s.orders[e] = some entry)
    (silent : entry.fields.notify = false) (r : OrderResult) :
    sameBytesOutside (slotBytes e) s.mem (s.finishOrder e r).mem := by
  rw [finishOrder_silent h silent, resultShown_mem]
  exact (memStep_writeResult_slot _ _ _ _).bytes

/-! ### The result of the members' answers (R179) -/

theorem membersResult_good (ms : List (OutletIx × Option MemberOutcome)) (h : ∀ m ∈ ms, m.2 = some .ok) :
    (membersResult ms).outcome = .done ∧ (membersResult ms).reason = none ∧ (membersResult ms).detail = none := by
  have none : (ms.find? fun m => m.2 != some .ok) = none := List.find?_eq_none.mpr fun m hm => by simp [h m hm]
  simp only [membersResult, none, Option.isNone_none, if_true, Option.bind_none, Option.map_none, and_self]

theorem membersResult_outcome (ms : List (OutletIx × Option MemberOutcome)) :
    (membersResult ms).outcome = if ∀ m ∈ ms, m.2 = some .ok then .done
      else if ∃ m ∈ ms, m.2 = some .ok then .partly else .failed := by
  split_ifs with good some
  · exact (membersResult_good ms good).1
  all_goals
    obtain ⟨m, hm, bad⟩ : ∃ m ∈ ms, m.2 ≠ Option.some .ok := by simpa using good
    have found : (ms.find? fun m => m.2 != Option.some .ok).isNone = false := by
      rw [Option.isNone_eq_false_iff, List.find?_isSome]
      exact ⟨m, hm, bne_iff_ne.mpr bad⟩
    simp only [membersResult, found, Bool.false_eq_true, if_false]
  · obtain ⟨x, hx, ok⟩ := some
    rw [if_neg]
    rw [List.isEmpty_iff, List.filter_eq_nil_iff]
    exact fun h => h x hx (beq_iff_eq.mpr ok)
  · rw [if_pos]
    rw [List.isEmpty_iff, List.filter_eq_nil_iff]
    exact fun x hx ok => some ⟨x, hx, beq_iff_eq.mp ok⟩

theorem membersResult_bad {front back : List (OutletIx × Option MemberOutcome)} {m : OutletIx × Option MemberOutcome}
    (h : ∀ x ∈ front, x.2 = some .ok) (bad : m.2 ≠ some .ok) :
    (membersResult (front ++ m :: back)).reason = m.2.map Reason.member ∧
      (membersResult (front ++ m :: back)).detail = some m.1 := by
  have found : ((front ++ m :: back).find? fun m => m.2 != some .ok) = some m := by
    rw [List.find?_append, List.find?_eq_none.mpr (fun x hx => by simp [h x hx]), Option.none_or, List.find?_cons_of_pos]
    exact bne_iff_ne.mpr bad
  simp only [membersResult, found, Option.bind_some, Option.map_some, and_self]

theorem membersResult_sets (ms : List (OutletIx × Option MemberOutcome)) (j : OutletIx) :
    (j ∈ (membersResult ms).doneSet ↔ (j, some .ok) ∈ ms) ∧
    (j ∈ (membersResult ms).skippedSet ↔ (j, some .skipped) ∈ ms) ∧
    (j ∈ (membersResult ms).failedSet ↔ ∃ o, (j, some o) ∈ ms ∧ o ≠ .ok ∧ o ≠ .skipped) := by
  have failed (o : MemberOutcome) : o.inFailed = true ↔ o ≠ .ok ∧ o ≠ .skipped := by cases o <;> decide
  refine ⟨?_, ?_, ?_⟩
  · simp only [membersResult, List.mem_map, List.mem_filter, beq_iff_eq, Prod.exists, exists_eq_right, exists_and_right]
  · simp only [membersResult, List.mem_map, List.mem_filter, beq_iff_eq, Prod.exists, exists_eq_right, exists_and_right]
  · simp only [membersResult, List.mem_map, List.mem_filter, Prod.exists, exists_eq_right, exists_and_right]
    constructor
    · rintro ⟨_ | o, h, hf⟩
      · cases hf
      · exact ⟨o, h, (failed o).mp hf⟩
    · rintro ⟨o, h, hf⟩
      exact ⟨some o, h, (failed o).mpr hf⟩

/-! ### A member's answer (R179) -/

theorem answered_eq (ms : List (OutletIx × Option MemberOutcome)) (k : OutletIx) (r : MemberOutcome) :
    (ms.map fun m => if m.1 == k && m.2.isNone then (m.1, some r) else m) = answered ms k r := by
  refine List.map_congr_left fun m _ => ?_
  obtain ⟨j, o⟩ := m
  by_cases h : j = k ∧ o = none
  · obtain ⟨rfl, rfl⟩ := h
    simp
  · rw [if_neg h, if_neg]
    simpa only [Bool.and_eq_true, beq_iff_eq, Option.isNone_iff_eq_none] using h

theorem orderReply_eq {s : State} {e : SlotNo} {entry : OrderEntry} (h : s.orders[e] = some entry) (k : OutletIx)
    (r : MemberOutcome) : s.orderReply e k r =
      if (answered entry.members k r).all (·.2.isSome) then
        (s.setOrder e (some { entry with members := answered entry.members k r })).finishOrder e
          (membersResult (answered entry.members k r))
      else s.setOrder e (some { entry with members := answered entry.members k r }) := by
  simp only [State.orderReply, h, answered_eq]

/-- With a member still open an answer changes the order's entry alone. -/
theorem orderReply_open {s : State} {e : SlotNo} {entry : OrderEntry} (h : s.orders[e] = some entry) {k : OutletIx}
    {r : MemberOutcome} (still : ∃ m ∈ answered entry.members k r, m.2 = none) :
    s.orderReply e k r = s.setOrder e (some { entry with members := answered entry.members k r }) := by
  obtain ⟨m, hm, none⟩ := still
  rw [orderReply_eq h, if_neg]
  rw [List.all_eq_true]
  exact fun all => by simpa [none] using all m hm

/-- With the last answer the order finishes. -/
theorem orderReply_last {s : State} {e : SlotNo} {entry : OrderEntry} (h : s.orders[e] = some entry) {k : OutletIx}
    {r : MemberOutcome} (all : ∀ m ∈ answered entry.members k r, m.2 ≠ none) :
    s.orderReply e k r = (s.setOrder e (some { entry with members := answered entry.members k r })).finishOrder e
      (membersResult (answered entry.members k r)) := by
  rw [orderReply_eq h, if_pos]
  rw [List.all_eq_true]
  exact fun m hm => Option.isSome_iff_ne_none.mpr (all m hm)

theorem setOrder_same (s : State) (e : SlotNo) (x : Option OrderEntry) : (s.setOrder e x).orders[e] = x := upd_same _ _ _

theorem setOrder_other (s : State) {e j : SlotNo} (x : Option OrderEntry) (h : j ≠ e) :
    (s.setOrder e x).orders[j] = s.orders[j] := upd_other _ _ h

theorem orderReply_orders_other (s : State) {e j : SlotNo} (h : j ≠ e) (k : OutletIx) (r : MemberOutcome) :
    (s.orderReply e k r).orders[j] = s.orders[j] := by
  cases held : s.orders[e] with
  | none => simp only [State.orderReply, held]
  | some entry =>
    rw [orderReply_eq held]
    split_ifs
    · exact (finishOrder_orders_other h _).trans (setOrder_other _ _ h)
    · exact setOrder_other _ _ h

/-- Settles O39: by whether a member is still open. -/
theorem memberAnswersFinishOrder : Obligations.MemberAnswersFinishOrder := by
  unfold Obligations.MemberAnswersFinishOrder
  intro s e k r entry wf held
  refine ⟨fun j hj => orderReply_orders_other s hj k r, fun still => ?_, fun all => ?_⟩
  · rw [orderReply_open held still]
    exact ⟨rfl, setOrder_same _ _ _⟩
  · have asked := setOrder_same s e (some { entry with members := answered entry.members k r })
    rw [orderReply_last held all]
    refine ⟨membersResult (answered entry.members k r), ?_, orderFinished_finishOrder (s := s.setOrder e _) wf asked _,
      membersResult_outcome _,
      fun good => (membersResult_good _ good).2, fun front m back split h bad => ?_, rfl, membersResult_sets _,
      fun notify room => logEntry_finishOrder (s := s.setOrder e _) wf asked notify room _,
      fun silent => bytes_finishOrder_silent asked silent _, (memStep_finishOrder asked _).bytes⟩
    · have same := finishOrder_same asked (membersResult (answered entry.members k r))
      generalize State.finishOrder _ e _ = u at same ⊢
      rw [same]
      rfl
    · rw [split]
      exact membersResult_bad h bad

end Sys2Proof.Machine
end

section
/-! PROOF. Orders that finish in their take: refusals, REARM_WATCH and CLEAR_ENERGY; a slot's fields and the resolution of its
targets (R171 to R176, R34, R165). -/
namespace Sys2Proof.Machine

open Sys2Proof.Safety

/-! ### An order that finishes in its take -/

theorem hold_same (s : State) (e : SlotNo) (rest : List SlotNo) : s.hold e rest = { s with
    fifo := rest, mem := (s.hold e rest).mem, orders := (s.hold e rest).orders } := by
  simp only [State.hold, State.setOrder]

theorem hold_log (s : State) (e : SlotNo) (rest : List SlotNo) :
    (s.hold e rest).logFull = s.logFull ∧ (s.hold e rest).writeCount = s.writeCount := by
  have kept := memStep_hold s e rest
  exact logFull_congr (kept.readWord _ fun i hi => slotBytes_outside e (by simp only [addrWriteCount]; omega))
    (kept.readWord _ fun i hi => slotBytes_outside e (by simp only [addrReadMark]; omega))

theorem takeStamp_writeTaken {m : Mem} (wf : MemWf m) (e : SlotNo) (stamp : Word) :
    readWord (writeTaken m e stamp) (slotAddr e + 0x34) = stamp := by
  rw [writeTaken, show slotAddr e + 0x34 = slotAddr e + 0x18 + 4 * 7 by omega]
  refine (readWord_writeWords _ _ _ 7 (by simp only [List.length_cons, List.length_nil]; omega) (memWf_writeWord _ _ wf)).trans ?_
  exact (BitVec.ofNat_toNat ..).trans (BitVec.setWidth_eq _)

theorem takeStamp_writeResult (m : Mem) (e : SlotNo) (r : OrderResult) (finish : Word) :
    readWord (writeResult m e r finish) (slotAddr e + 0x34) = readWord m (slotAddr e + 0x34) := by
  simp only [writeResult]
  rw [readWord_writeWord_other _ _ _ _ (by omega), readWord_writeWord_other _ _ _ _ (by omega),
    readWord_writeWords_other _ _ _ _ (by simp only [List.length]; omega)]

theorem hostBytes_writeTaken (m : Mem) (e : SlotNo) (stamp : Word) {a : Nat} (ha : within (slotAddr e + 4) 20 a = true) :
    readByte (writeTaken m e stamp) a = readByte m a := by
  rw [within_iff] at ha
  rw [writeTaken, readByte_writeWords_other _ _ _ _ (by omega), readByte_writeWord_other _ _ _ _ (by omega)]

/-- What a take that finishes its order at once leaves. -/
structure TakenAndFinished (s u : State) (e : SlotNo) (rest : List SlotNo) (r : OrderResult) : Prop where
  same : u = { s with fifo := rest, mem := u.mem, cause := u.cause, orders := u.orders }
  finished : orderFinished u e r
  takeStamp : readWord u.mem (slotAddr e + 0x34) = s.partTime
  hostWords : ∀ a, within (slotAddr e + 4) 20 a = true → readByte u.mem a = readByte s.mem a
  others : ∀ j : SlotNo, j ≠ e → u.orders[j] = s.orders[j]
  filed : (slotFields s.mem e).notify = true → s.logFull = false →
    logEntry u.mem s.writeCount .orderFinished e.val r.outcome.code s.partTime ((readHalf s.mem (slotAddr e + 18)).setWidth 32)
  silent : (slotFields s.mem e).notify = false → sameBytesOutside (slotBytes e) s.mem u.mem
  bytes : sameBytesOutside (fun a => slotBytes e a || noticeBytes a) s.mem u.mem

theorem hold_finishOrder {s : State} (wf : MemWf s.mem) (e : SlotNo) (rest : List SlotNo) (r : OrderResult) :
    TakenAndFinished s ((s.hold e rest).finishOrder e r) e rest r := by
  have held := hold_orders_same s e rest
  have step := memStep_hold s e rest
  have now : (s.hold e rest).partTime = s.partTime := by simp only [State.partTime, State.hold, State.setOrder]
  obtain ⟨full, count⟩ := hold_log s e rest
  exact {
    same := by
      have same := finishOrder_same held r
      generalize State.finishOrder _ e r = u at same ⊢
      rw [same, hold_same]
    finished := orderFinished_finishOrder (step.wf wf) held r
    takeStamp := by
      rw [readWord_finishOrder_slot held r (by decide), takeStamp_writeResult, hold_mem, takeStamp_writeTaken wf]
    hostWords := fun a ha => by
      have inside : slotBytes e a = true := within_mono (by omega) (by omega) ha
      rw [(memStep_finishOrder_result held r).bytes a (noticeBytes_outside_slot inside), hostBytes_writeResult _ _ _ _ ha,
        hold_mem, hostBytes_writeTaken _ _ _ ha]
    others := fun j hj => (finishOrder_orders_other hj r).trans (hold_orders_other s rest hj)
    filed := fun notify room => by
      have entry := (logEntry_finishOrder (step.wf wf) held notify (full.trans room) r).1
      rw [count, now] at entry
      exact entry
    silent := fun silent => (step.trans ⟨(memStep_finishOrder held r).wf, bytes_finishOrder_silent held silent r⟩).bytes
    bytes := ((step.mono fun a ha => by simp only [ha, Bool.true_or]).trans (memStep_finishOrder held r)).bytes }

/-- An event that takes an order and finishes it, and touches nothing that a guarded record shows. -/
theorem event_take_finish {s : State} (running : s.resetting = none) (due : s.scanDue = false) (t : Nat) {e : SlotNo}
    {rest : List SlotNo} {kind : Option OrderKind} (head : s.fifo = e :: rest) (posted : slotState s.mem e = 1)
    (hk : orderKindOf (slotFields s.mem e).kind = kind) {work : SlotNo → SlotFields → State → State} {r : OrderResult}
    (hw : work e (slotFields s.mem e) ((s.advance t).hold e rest) = ((s.advance t).hold e rest).finishOrder e r) :
    s.event t (fun s => s.take1 kind work) = ((s.advance t).hold e rest).finishOrder e r := by
  have taken : (s.advance t).take1 kind work = ((s.advance t).hold e rest).finishOrder e r :=
    (take1_of_head (s := s.advance t) head posted hk work).trans hw
  have same := finishOrder_same (hold_orders_same (s.advance t) e rest) r
  rw [event_running_same running t _, taken] <;> rw [taken, same]
  · exact due
  all_goals rfl

/-- A refusal shows no maps. -/
theorem maps_of_plain {u : State} {e : SlotNo} {outcome : OrderOutcome} {reason : Option Reason} {detail : Option OutletIx}
    {record : Option RecNo} (h : orderFinished u e (.plain outcome reason detail record)) {a : Nat}
    (ha : within (slotAddr e + 0x1C) 24 a = true) : readByte u.mem a = 0 := by
  obtain ⟨-, ⟨-, -, maps, -⟩, -⟩ := h
  have empty : outletMap [] = 0 := by decide
  have words (i : Fin 3) := maps i [] (by fin_cases i <;> rfl)
  rw [empty] at words
  rw [within_iff] at ha
  have hi : (a - (slotAddr e + 0x1C)) / 8 < 3 := by omega
  obtain ⟨low, high⟩ := words ⟨_, hi⟩
  dsimp only at low high
  by_cases half : (a - (slotAddr e + 0x1C)) % 8 < 4
  · exact readByte_of_readWord_zero low (within_iff.mpr (by omega))
  · exact readByte_of_readWord_zero high (within_iff.mpr (by omega))

/-! ### REARM_WATCH (R165) -/

/-- R165: the watch and the answer, by the state of the watch. -/
theorem rearm_cases (s : State) (w : WatchNo) :
    (s.watches[w].state = .disarmed ∧ s.rearm w = (s, some .noWatch)) ∨
    (s.watches[w].state = .cycling ∧ s.rearm w = (s, some .busy)) ∨
    ((s.watches[w].state ≠ .disarmed ∧ s.watches[w].state ≠ .cycling) ∧ s.rearm w = (s.modWatch w fun x =>
      { x.restart s.work.watches[w] with consecutive := 0, reference := none, record := none }, none)) := by
  unfold State.rearm
  cases s.watches[w].state with
  | disarmed => exact .inl ⟨rfl, rfl⟩
  | cycling => exact .inr (.inl ⟨rfl, rfl⟩)
  | grace | watching | lapsed | expiredWait | gaveUp => exact .inr (.inr ⟨⟨nofun, nofun⟩, rfl⟩)

theorem restart_eq (x : WatchRec) (cfg : WatchSettings) : x.restart cfg = { x with
    state := if cfg.grace = 0 then .watching else .grace
    framesLeft := if cfg.grace = 0 then cfg.timeout else cfg.grace } := by
  rw [WatchRec.restart]
  split_ifs <;> rfl

theorem rearmOrder_noWatch {s : State} {param : Word} (h : 24 ≤ param.toNat) (e : SlotNo) :
    s.rearmOrder e param = s.finishOrder e (.plain .refused (some .noWatch) none none) :=
  dif_neg (by omega)

theorem rearmOrder_watch {s : State} {param : Word} {w : WatchNo} (h : param.toNat = w.val) (e : SlotNo) :
    s.rearmOrder e param = match (s.rearm w).2 with
      | some reason => (s.rearm w).1.finishOrder e (.plain .refused (some reason) none none)
      | none => (s.rearm w).1.finishOrder e (.plain .done none none none) := by
  have hw : (⟨param.toNat, h ▸ w.isLt⟩ : WatchNo) = w := Fin.ext h
  rw [State.rearmOrder, dif_pos (h ▸ w.isLt), hw]
  rfl

/-- The record of one watch changed before the finish of an order. -/
theorem modWatch_hold (s : State) (e : SlotNo) (rest : List SlotNo) (w : WatchNo) (f : WatchRec → WatchRec) :
    (s.hold e rest).modWatch w f = (s.modWatch w f).hold e rest := by
  simp only [State.hold, State.setOrder, State.modWatch, State.partTime]

theorem rearmOrder_cases (s : State) (e : SlotNo) (rest : List SlotNo) (param : Word) :
    ∃ (v : Vector WatchRec 24) (r : OrderResult),
      (s.hold e rest).rearmOrder e param = ({ s with watches := v }.hold e rest).finishOrder e r ∧
      (24 ≤ param.toNat → v = s.watches ∧ r = .plain .refused (some .noWatch) none none) ∧
      ∀ w : WatchNo, param.toNat = w.val → (∀ x : WatchNo, x ≠ w → v[x] = s.watches[x]) ∧
        (s.watches[w].state = .disarmed → v[w] = s.watches[w] ∧ r = .plain .refused (some .noWatch) none none) ∧
        (s.watches[w].state = .cycling → v[w] = s.watches[w] ∧ r = .plain .refused (some .busy) none none) ∧
        (s.watches[w].state ≠ .disarmed ∧ s.watches[w].state ≠ .cycling → r = .plain .done none none none ∧
          v[w] = { s.watches[w] with
            state := if s.work.watches[w].grace = 0 then .watching else .grace
            framesLeft := if s.work.watches[w].grace = 0 then s.work.watches[w].timeout else s.work.watches[w].grace
            consecutive := 0, reference := none, record := none }) := by
  by_cases large : 24 ≤ param.toNat
  · exact ⟨s.watches, _, rearmOrder_noWatch large e, fun _ => ⟨rfl, rfl⟩, fun w hw => absurd w.isLt (by omega)⟩
  · have watches : (s.hold e rest).watches = s.watches := by rw [hold_same]
    have work : (s.hold e rest).work = s.work := by rw [hold_same]
    have small : param.toNat < 24 := not_le.mp large
    have only {w : WatchNo} (hw : param.toNat = w.val) : w = ⟨param.toNat, small⟩ := Fin.ext hw.symm
    have rule := rearmOrder_watch (s := s.hold e rest) (w := ⟨param.toNat, small⟩) rfl e
    rcases rearm_cases (s.hold e rest) ⟨param.toNat, small⟩ with ⟨state, h⟩ | ⟨state, h⟩ | ⟨state, h⟩
    all_goals
      rw [h] at rule
      rw [watches] at state
    · refine ⟨s.watches, _, rule, fun l => absurd l large, fun w hw => ?_⟩
      obtain rfl := only hw
      exact ⟨fun _ _ => rfl, fun _ => ⟨rfl, rfl⟩, fun c => (nomatch state.symm.trans c), fun c => absurd state c.1⟩
    · refine ⟨s.watches, _, rule, fun l => absurd l large, fun w hw => ?_⟩
      obtain rfl := only hw
      exact ⟨fun _ _ => rfl, fun c => (nomatch state.symm.trans c), fun _ => ⟨rfl, rfl⟩, fun c => absurd state c.2⟩
    · rw [modWatch_hold] at rule
      refine ⟨_, _, rule, fun l => absurd l large, fun w hw => ?_⟩
      obtain rfl := only hw
      refine ⟨fun x hx => upd_other _ _ hx, fun c => absurd c state.1, fun c => absurd c state.2, fun _ => ⟨rfl, ?_⟩⟩
      refine (upd_same _ _ _).trans ?_
      rw [restart_eq, work]

theorem guardedBytes_slot (e : SlotNo) {a : Nat} (h : slotBytes e a = true) : guardedBytes a = false := by
  have bounds := slotAddr_bounds e
  rw [slotBytes, within_iff] at h
  exact within_eq_false.mpr (by omega)

/-- A finished order is left by the records that its event rewrites. -/
theorem orderFinished_published {old u : State} {e : SlotNo} {r : OrderResult} (h : orderFinished u e r) :
    orderFinished (publishRecords old u) e r := by
  obtain ⟨free, shown, cause⟩ := h
  exact ⟨free, slotShows_congr (fun a ha => (memStep_publishRecords old u).bytes a (guardedBytes_slot e ha)) shown, cause⟩

theorem orderFinished_word {u : State} {e : SlotNo} {r : OrderResult} (h : orderFinished u e r) :
    slotState u.mem e = (if r.outcome = .refused then 4 else 3) ∧
    readWord u.mem (slotAddr e + 0x18) = BitVec.ofNat 32 (r.outcome.code + 256 * optCode Reason.code r.reason +
      65536 * optCode numberOf r.detail + 2 ^ 24 * (match r.record with | none => 255 | some c => c.val)) := by
  obtain ⟨-, ⟨state, word, -⟩, -⟩ := h
  exact ⟨state, word⟩

/-- Settles O38: by the parameter and the state of the watch it names. -/
theorem rearmByWatchState : Obligations.RearmByWatchState := by
  unfold Obligations.RearmByWatchState
  intro s t e rest taken due p
  obtain ⟨running, wf, head, posted, kind⟩ := taken
  obtain ⟨v, r, order, large, watch⟩ := rearmOrder_cases (s.advance t) e rest (slotFields s.mem e).param
  have work : (s.advance t).take1 (some .rearmWatch) (fun e f s => s.rearmOrder e f.param) =
      ({ s.advance t with watches := v }.hold e rest).finishOrder e r :=
    (take1_of_head (s := s.advance t) head posted kind _).trans order
  have done := hold_finishOrder (s := { s.advance t with watches := v }) wf e rest r
  have event : exec (.rearmWatch t) s =
      .next (publishRecords (s.advance t) (({ s.advance t with watches := v }.hold e rest).finishOrder e r)) := by
    refine congrArg Host.Outcome.next ((event_running running t _).trans ?_)
    rw [work, scanIfDue_of_not_due]
    rw [done.same]
    exact due
  generalize State.finishOrder _ e r = u at done event
  have published := orderFinished_published (old := s.advance t) done.finished
  have guarded := memStep_publishRecords (s.advance t) u
  obtain ⟨state, outcome⟩ := orderFinished_word published
  have orders (j : SlotNo) (hj : j ≠ e) : u.orders[j] = s.orders[j] := done.others j hj
  have watches : u.watches = v := by rw [done.same]
  refine ⟨_, event, ?_, published.1, orders, published.2.2, fun hp => ?_, fun w hw => ?_, ?_⟩
  · have same := done.same
    generalize hm : publishRecords (s.advance t) u = x
    have : x = { u with mem := x.mem } := by rw [← hm]; rfl
    rw [this, same]
    rfl
  · obtain ⟨rfl, rfl⟩ := large hp
    refine ⟨watches, state, outcome, ?_⟩
    have unchanged : publishRecords (s.advance t) u = u := by
      refine publishRecords_of_same _ _ ?_ ?_ ?_ ?_ ?_ ?_ <;> rw [done.same]
    rw [unchanged]
    exact done.bytes
  · obtain ⟨others, disarmed, cycling, rest⟩ := watch w hw
    refine ⟨fun c => ?_, fun c => ?_, fun c => ?_, fun x hx => ?_⟩
    · obtain ⟨kept, rfl⟩ := disarmed c
      exact ⟨(congrArg (·[w]) watches).trans kept, state, outcome⟩
    · obtain ⟨kept, rfl⟩ := cycling c
      exact ⟨(congrArg (·[w]) watches).trans kept, state, outcome⟩
    · obtain ⟨rfl, armed⟩ := rest c
      exact ⟨state, outcome, (congrArg (·[w]) watches).trans armed⟩
    · exact (congrArg (·[x]) watches).trans (others x hx)
  · intro a ha
    simp only [Bool.or_eq_false_iff] at ha
    obtain ⟨⟨slot, notices⟩, records⟩ := ha
    exact (guarded.bytes a records).trans (done.bytes a (by simp only [slot, notices, Bool.or_self]))

end Sys2Proof.Machine
end

section
/-! PROOF. CLEAR_ENERGY (R34, R176); the fields of a slot, the resolution of its targets and the refusals of a take (R171 to
R174). -/
namespace Sys2Proof.Machine

open Sys2Proof.Safety

/-! ### CLEAR_ENERGY (R34) -/

theorem clearEnergyMembers_meter (s : State) (e : SlotNo) (f : SlotFields) (ms : List OutletIx) (k : OutletIx) :
    (s.clearEnergyMembers e f ms).meter[k] =
      { s.meter[k] with clearReq := s.meter[k].clearReq || decide (k ∈ ms) } := by
  have meter : (s.enroll e f ms).meter = s.meter := by simp only [State.enroll, State.setOrder_meter]
  rw [State.clearEnergyMembers]
  dsimp only
  rw [tab_at, meter]
  split_ifs with h
  · rw [decide_eq_true h, Bool.or_true]
  · rw [decide_eq_false h, Bool.or_false]

theorem takeMembers_of_head {s : State} {e : SlotNo} {rest : List SlotNo} {kind : OrderKind} {ms : List OutletIx}
    (hf : s.fifo = e :: rest) (posted : slotState s.mem e = 1) (hk : orderKindOf (slotFields s.mem e).kind = some kind)
    (resolved : resolveTargets s.work (slotFields s.mem e) = .ok ms)
    (work : SlotNo → SlotFields → List OutletIx → State → State) :
    s.takeMembers kind work = work e (slotFields s.mem e) ms (s.hold e rest) := by
  rw [State.takeMembers, take1_of_head hf posted hk]
  have held : (s.hold e rest).work = s.work := by rw [hold_same]
  rw [State.withMembers, held, resolved]

/-- Settles O36: the take of the order, then the requests of its members. -/
theorem clearEnergySetsRequests : Obligations.ClearEnergySetsRequests := by
  unfold Obligations.ClearEnergySetsRequests
  intro s t e rest ms running due wf head posted kind resolved
  have work : (s.advance t).takeMembers .clearEnergy (fun e f ms s => s.clearEnergyMembers e f ms) =
      ((s.advance t).hold e rest).clearEnergyMembers e (slotFields s.mem e) ms :=
    takeMembers_of_head (s := s.advance t) head posted kind resolved _
  have held := hold_same (s.advance t) e rest
  have orders {j : SlotNo} (hj : j ≠ e) := hold_orders_other (s.advance t) rest hj
  have meter := clearEnergyMembers_meter ((s.advance t).hold e rest) e (slotFields s.mem e) ms
  have mem := hold_mem (s.advance t) e rest
  have same : ((s.advance t).hold e rest).clearEnergyMembers e (slotFields s.mem e) ms = { (s.advance t).hold e rest with
      orders := upd ((s.advance t).hold e rest).orders e fun _ => some
        { fields := slotFields s.mem e, members := ms.map fun k => (k, none), record := none }
      meter := (((s.advance t).hold e rest).clearEnergyMembers e (slotFields s.mem e) ms).meter } := by
    simp only [State.clearEnergyMembers, State.enroll, State.setOrder]
  have taken : slotState ((s.advance t).hold e rest).mem e = 2 ∧
      readWord ((s.advance t).hold e rest).mem (slotAddr e + 0x34) = BitVec.ofNat 32 (max s.now t / 1000) := by
    rw [mem]
    exact ⟨slotState_writeTaken e _ wf, takeStamp_writeTaken wf e _⟩
  have bytes := (memStep_hold (s.advance t) e rest).bytes
  have event : exec (.clearEnergy t) s =
      .next (((s.advance t).hold e rest).clearEnergyMembers e (slotFields s.mem e) ms) := by
    refine congrArg Host.Outcome.next ?_
    rw [event_running_same running t _, work] <;> rw [work, same, held]
    · exact due
    all_goals rfl
  have meter' (k : OutletIx) : ((s.advance t).hold e rest).meter[k] = s.meter[k] := by rw [held]; rfl
  generalize ((s.advance t).hold e rest).clearEnergyMembers e (slotFields s.mem e) ms = u at *
  generalize (s.advance t).hold e rest = v at *
  refine ⟨u, event, ?_, ?_, ?_, ?_, fun j hj => ?_, fun k => by rw [meter, meter'], ?_⟩
  · rw [same, held]
    rfl
  all_goals rw [same]
  · exact taken.1
  · exact taken.2
  · exact upd_same _ _ _
  · exact (upd_other _ _ hj).trans (orders hj)
  · exact bytes

/-! ### The fields of a slot (section 10.1) -/

theorem slotFields_bytes (m : Mem) (e : SlotNo) :
    let f := slotFields m e
    let byte := fun (i : Nat) => readByte m (slotAddr e + i)
    f.kind = byte 4 ∧ f.notify = (byte 5).getLsbD 0 ∧ f.urgent = (byte 5).getLsbD 1 ∧ f.form = byte 6 ∧ f.count = byte 7 ∧
    f.list = [byte 8, byte 9, byte 10, byte 11, byte 12, byte 13, byte 14, byte 15] ∧ f.matchValue = byte 16 ∧
    f.matchMask = byte 17 ∧ f.hostRef = byte 19 ++ byte 18 ∧ f.param = byte 23 ++ byte 22 ++ byte 21 ++ byte 20 :=
  ⟨rfl, rfl, rfl, rfl, rfl, rfl, rfl, rfl, rfl, rfl⟩

/-! ### The resolution of targets (R173, R174) -/

/-- Legal entries name outlets, in their order. -/
theorem outletOf_entries (l : List Byte) (legal : ∀ v ∈ l, 1 ≤ v.toNat ∧ v.toNat ≤ 48) :
    ∃ ks : List OutletIx, l.map (fun b => outletOf b.toNat) = ks.map some ∧ ks.map (fun k => k.val + 1) = l.map (·.toNat) := by
  induction l with
  | nil => exact ⟨[], rfl, rfl⟩
  | cons v l ih =>
    obtain ⟨ks, named, numbers⟩ := ih fun x hx => legal x (List.mem_cons_of_mem _ hx)
    have hv := legal v List.mem_cons_self
    refine ⟨⟨v.toNat - 1, by omega⟩ :: ks, ?_, ?_⟩
    · rw [List.map_cons, List.map_cons, named, outletOf, dif_pos hv]
    · rw [List.map_cons, List.map_cons, numbers]
      exact congrArg (· :: _) (Nat.sub_add_cancel hv.1)

theorem outletOf_illegal {n : Nat} (h : n = 0 ∨ 48 < n) : outletOf n = none := dif_neg (by omega)

theorem firstRepeat_none {seen l : List OutletIx} (nodup : l.Nodup) (apart : ∀ k ∈ l, k ∉ seen) : firstRepeat seen l = none := by
  induction l generalizing seen with
  | nil => rfl
  | cons k l ih =>
    obtain ⟨fresh, nodup⟩ := List.nodup_cons.mp nodup
    rw [firstRepeat, if_neg (apart k List.mem_cons_self)]
    refine ih nodup fun j hj => ?_
    rw [List.mem_cons, not_or]
    exact ⟨fun same => fresh (same ▸ hj), apart j (List.mem_cons_of_mem _ hj)⟩

theorem firstRepeat_some {seen front back : List OutletIx} {k : OutletIx} (nodup : front.Nodup) (apart : ∀ j ∈ front, j ∉ seen)
    (again : k ∈ seen ∨ k ∈ front) : firstRepeat seen (front ++ k :: back) = some k := by
  induction front generalizing seen with
  | nil => exact if_pos (again.resolve_right List.not_mem_nil)
  | cons j front ih =>
    obtain ⟨fresh, nodup⟩ := List.nodup_cons.mp nodup
    rw [List.cons_append, firstRepeat, if_neg (apart j List.mem_cons_self)]
    refine ih nodup (fun i hi => ?_) ?_
    · rw [List.mem_cons, not_or]
      exact ⟨fun same => fresh (same ▸ hi), apart i (List.mem_cons_of_mem _ hi)⟩
    · rcases again with h | h
      · exact .inl (List.mem_cons_of_mem _ h)
      · exact (List.mem_cons.mp h).elim (fun same => .inl (same ▸ List.mem_cons_self)) .inr

/-- R173: the members of a list of legal length. -/
def listTargets (ks : List (Option OutletIx)) : Except (Option OutletIx) (List OutletIx) :=
  if none ∈ ks then .error none
  else match firstRepeat [] (ks.filterMap id) with
    | some k => .error (some k)
    | none => .ok (ks.filterMap id)

theorem resolveTargets_list {work : Settings} {f : SlotFields} (form : f.form = 0) (low : 1 ≤ f.count.toNat)
    (high : f.count.toNat ≤ 8) :
    resolveTargets work f = listTargets ((f.list.take f.count.toNat).map fun b => outletOf b.toNat) := by
  have zero : f.form.toNat = 0 := by rw [form]; rfl
  simp only [resolveTargets, zero]
  rw [if_neg (by omega)]
  rfl

theorem resolveTargets_count {work : Settings} {f : SlotFields} (form : f.form = 0)
    (h : f.count = 0 ∨ 8 < f.count.toNat) : resolveTargets work f = .error none := by
  have zero : f.form.toNat = 0 := by rw [form]; rfl
  simp only [resolveTargets, zero]
  refine if_pos (h.imp_left fun none => ?_)
  rw [none]
  decide

theorem resolveTargets_form {work : Settings} {f : SlotFields} (h : 1 < f.form.toNat) :
    resolveTargets work f = .error none := by
  unfold resolveTargets
  split
  · omega
  · omega
  · rfl

theorem resolveTargets_match {work : Settings} {f : SlotFields} (form : f.form = 1) : resolveTargets work f =
    if (matchTargets work f.matchValue f.matchMask).isEmpty then .error none
    else .ok (matchTargets work f.matchValue f.matchMask) := by
  have one : f.form.toNat = 1 := by rw [form]; rfl
  simp only [resolveTargets, one]

theorem listTargets_legal (ks : List OutletIx) : listTargets (ks.map some) = match firstRepeat [] ks with
    | some k => .error (some k)
    | none => .ok ks := by
  have all : (ks.map some).filterMap id = ks := by rw [List.filterMap_map]; exact List.filterMap_some
  rw [listTargets, if_neg (by simp), all]

/-- R174: the outlet's tag agrees with the match value in every bit of the mask. -/
theorem mem_matchTargets (work : Settings) (value mask : Byte) (k : OutletIx) : k ∈ matchTargets work value mask ↔
    ∀ i, i < 8 → mask.getLsbD i = true → work.outlets[k].groupTag.getLsbD i = value.getLsbD i := by
  simp only [matchTargets, List.mem_filter, List.mem_finRange, true_and, beq_iff_eq]
  constructor
  · intro agree i _ masked
    have := congrArg (·.getLsbD i) agree
    simpa only [BitVec.getLsbD_and, masked, Bool.and_true] using this
  · intro agree
    refine BitVec.eq_of_getLsbD_eq fun i hi => ?_
    rw [BitVec.getLsbD_and, BitVec.getLsbD_and]
    cases masked : mask.getLsbD i with
    | false => rw [Bool.and_false, Bool.and_false]
    | true => rw [agree i hi masked]

theorem indices_pairwise (n : Nat) : (indices n).Pairwise (· < ·) := List.pairwise_lt_finRange n

/-- The resolution of the targets, by form, count and entries. -/
theorem resolveTargets_rules (work : Settings) (f : SlotFields) :
    let entries := f.list.take f.count.toNat
    let members := resolveTargets work f
    (1 < f.form.toNat → members = .error none) ∧
    (f.form = 0 → (f.count = 0 ∨ 8 < f.count.toNat) → members = .error none) ∧
    (f.form = 0 → 1 ≤ f.count.toNat → f.count.toNat ≤ 8 →
      ((∃ v ∈ entries, v = 0 ∨ 48 < v.toNat) → members = .error none) ∧
      ((∀ v ∈ entries, 1 ≤ v.toNat ∧ v.toNat ≤ 48) →
        (entries.Nodup → ∃ ms, members = .ok ms ∧ ms.map (fun k => k.val + 1) = entries.map (·.toNat)) ∧
        ∀ front v back, entries = front ++ v :: back → front.Nodup → v ∈ front →
          ∃ k, members = .error (some k) ∧ k.val + 1 = v.toNat)) ∧
    (f.form = 1 →
      let hit := fun (k : OutletIx) => ∀ i, i < 8 → f.matchMask.getLsbD i = true →
        work.outlets[k].groupTag.getLsbD i = f.matchValue.getLsbD i
      ((∀ k, ¬hit k) → members = .error none) ∧
      ((∃ k, hit k) → ∃ ms, members = .ok ms ∧ ms.Pairwise (· < ·) ∧ ∀ k, k ∈ ms ↔ hit k)) := by
  refine ⟨resolveTargets_form, resolveTargets_count, fun form low high => ⟨?_, fun legal => ⟨fun nodup => ?_, ?_⟩⟩,
    fun form => ⟨fun nobody => ?_, fun ⟨k, hit⟩ => ⟨matchTargets work f.matchValue f.matchMask, ?_, ?_, mem_matchTargets work _ _⟩⟩⟩
  · rintro ⟨v, hv, illegal⟩
    rw [resolveTargets_list form low high, listTargets, if_pos]
    refine List.mem_map.mpr ⟨v, hv, outletOf_illegal (illegal.imp_left fun zero => ?_)⟩
    rw [zero]
    rfl
  · obtain ⟨ks, named, numbers⟩ := outletOf_entries _ legal
    have distinct : ks.Nodup := by
      refine List.Nodup.of_map (fun k => k.val + 1) ?_
      rw [numbers]
      exact nodup.map fun a b same => BitVec.eq_of_toNat_eq same
    refine ⟨ks, ?_, numbers⟩
    rw [resolveTargets_list form low high, named, listTargets_legal, firstRepeat_none distinct fun _ _ => List.not_mem_nil]
  · intro front v back split nodup again
    have inEntries {x : Byte} (hx : x ∈ front ∨ x = v ∨ x ∈ back) : x ∈ f.list.take f.count.toNat := by
      rw [split, List.mem_append, List.mem_cons]
      exact hx
    obtain ⟨fs, namedFront, numbersFront⟩ := outletOf_entries front fun x hx => legal x (inEntries (.inl hx))
    obtain ⟨bs, namedBack, -⟩ := outletOf_entries back fun x hx => legal x (inEntries (.inr (.inr hx)))
    have hv := legal v (inEntries (.inr (.inl rfl)))
    have distinct : fs.Nodup := by
      refine List.Nodup.of_map (fun k => k.val + 1) ?_
      rw [numbersFront]
      exact nodup.map fun a b same => BitVec.eq_of_toNat_eq same
    have repeats : (⟨v.toNat - 1, by omega⟩ : OutletIx) ∈ fs := by
      have : v.toNat ∈ fs.map fun k => k.val + 1 := numbersFront ▸ List.mem_map_of_mem again
      obtain ⟨k, hk, number⟩ := List.mem_map.mp this
      exact (Fin.ext (by simp only; omega) : k = ⟨v.toNat - 1, _⟩) ▸ hk
    refine ⟨⟨v.toNat - 1, by omega⟩, ?_, Nat.sub_add_cancel hv.1⟩
    have named : (f.list.take f.count.toNat).map (fun b => outletOf b.toNat) =
        (fs ++ (⟨v.toNat - 1, by omega⟩ : OutletIx) :: bs).map some := by
      rw [split, List.map_append, List.map_cons, namedFront, namedBack, List.map_append, List.map_cons, outletOf, dif_pos hv]
    rw [resolveTargets_list form low high, named, listTargets_legal,
      firstRepeat_some distinct (fun _ _ => List.not_mem_nil) (.inr repeats)]
  · rw [resolveTargets_match form, if_pos]
    rw [List.isEmpty_iff, List.eq_nil_iff_forall_not_mem]
    exact fun k hk => nobody k ((mem_matchTargets work _ _ k).mp hk)
  · rw [resolveTargets_match form, if_neg]
    rw [List.isEmpty_iff]
    exact List.ne_nil_of_mem ((mem_matchTargets work _ _ k).mpr hit)
  · exact (indices_pairwise 48).sublist List.filter_sublist

/-! ### The take that drops or refuses (R172, R173) -/

theorem dropHead_notPosted {s : State} {e : SlotNo} {rest : List SlotNo} (head : s.fifo = e :: rest)
    (h : slotState s.mem e ≠ 1) : s.dropHead = { s with fifo := rest, cause := s.cause ||| 16#32 } := by
  simp only [State.dropHead, head]
  rw [if_neg (show ¬slotState s.mem e = slotPosted from h)]
  rfl

theorem orderKindOf_none {v : Byte} (h : v.toNat = 0 ∨ 8 < v.toNat) : orderKindOf v = none := by
  unfold orderKindOf
  split <;> first | omega | rfl

/-- A take whose targets do not resolve refuses its order. -/
theorem withMembers_refused {s : State} {e : SlotNo} {f : SlotFields} {detail : Option OutletIx}
    (h : resolveTargets s.work f = .error detail) (work : SlotNo → SlotFields → List OutletIx → State → State) :
    s.withMembers e f work = s.refuse e .target detail none := by
  simp only [State.withMembers, h]

/-- Settles O30: the fields, the resolution, and the take that drops its slot or refuses its order. -/
theorem takeDropsOrRefuses : Obligations.TakeDropsOrRefuses := by
  unfold Obligations.TakeDropsOrRefuses
  refine ⟨slotFields_bytes, resolveTargets_rules, ?_⟩
  intro s t e rest running head refused
  have refusal {u : State} {reason : Reason} {detail : Option OutletIx} {word : Word}
      (done : TakenAndFinished (s.advance t) u e rest (.plain .refused (some reason) detail none))
      (hw : word = BitVec.ofNat 32 (8 + 256 * reason.code + 65536 * optCode numberOf detail + 2 ^ 24 * 255)) :
      refused u word := by
    obtain ⟨state, outcome⟩ := orderFinished_word done.finished
    simp only [OrderResult.plain] at outcome
    rw [show OrderOutcome.refused.code = 8 from rfl, show optCode Reason.code (some reason) = reason.code from rfl, ← hw]
      at outcome
    obtain ⟨free, ⟨-, -, -, finish⟩, cause⟩ := done.finished
    have now : u.now = max s.now t := by rw [done.same]; rfl
    exact ⟨by rw [done.same]; rfl, free, state, outcome, fun a ha => maps_of_plain done.finished ha, done.takeStamp,
      finish.trans (congrArg partOf now), done.hostWords, cause, done.others, done.filed, done.silent, done.bytes⟩
  refine ⟨fun stray => ?_, fun due wf posted unknown => ?_, fun i kind detail row due taken unresolved => ?_⟩
  · exact congrArg Host.Outcome.next
      ((quietEvent_running running t _).trans (dropHead_notPosted (s := s.advance t) head stray))
  · refine ⟨_, congrArg Host.Outcome.next (event_take_finish running due t head posted (orderKindOf_none unknown) rfl), ?_⟩
    exact refusal (hold_finishOrder (s := s.advance t) wf e rest _) (by decide)
  · have event (work : SlotNo → SlotFields → List OutletIx → State → State) :
        s.event t (fun s => s.takeMembers kind work) =
          ((s.advance t).hold e rest).finishOrder e (.plain .refused (some .target) detail none) :=
      event_take_finish running due t head taken.posted taken.kind
        (withMembers_refused (s := (s.advance t).hold e rest) (by rw [hold_same]; exact unresolved) work)
    have next : exec i s = .next (((s.advance t).hold e rest).finishOrder e (.plain .refused (some .target) detail none)) := by
      simp only [List.mem_cons, Prod.mk.injEq, List.not_mem_nil, or_false] at row
      rcases row with ⟨rfl, rfl⟩ | ⟨rfl, rfl⟩ | ⟨rfl, rfl⟩ | ⟨rfl, rfl⟩ | ⟨rfl, rfl⟩ <;>
        exact congrArg Host.Outcome.next (event _)
    refine ⟨_, next, refusal (hold_finishOrder (s := s.advance t) taken.memory e rest _) (congrArg _ ?_)⟩
    cases detail <;> simp only [Reason.code, optCode, numberOf] <;> omega

end Sys2Proof.Machine
end

section
/-! PROOF. The control of the outlets (O58) taken apart: what concerns one outlet's movement, queue entry and reservation,
what concerns its membership, and what concerns the tables themselves. An operation on one outlet leaves the parts of the
others. -/
namespace Sys2Proof.Machine

open Sys2Proof.Safety

/-! ### The parts of the agreement -/

/-- What a driver holds agrees with one movement record (R78, R83). -/
def driverMatches (x : Driver) (m : Movement) : Prop :=
  match x with
  | .free => True
  | .aiming job => match m with
    | .aiming d p _ => d = job.dir ∧ p = job.phase
    | .none | .waiting _ | .driving _ | .verifying _ => False
  | .driving job stop => match m with
    | .driving p => p.dir = job.dir ∧ p.phase = job.phase ∧ p.start + job.width = stop
    | .none | .waiting _ | .aiming _ _ _ | .verifying _ => False

theorem driverAgrees_iff {x : Driver} {k : OutletIx} (h : driverOutlet x = some k) (moves : Vector Movement 48) :
    driverAgrees x moves ↔ driverMatches x moves[k] := by
  cases x with
  | free => cases h
  | aiming job =>
    obtain rfl := Option.some.inj h
    rfl
  | driving job stop =>
    obtain rfl := Option.some.inj h
    rfl

theorem driverMatches_driven {x : Driver} {k : OutletIx} {m : Movement} (h : driverOutlet x = some k)
    (agrees : driverMatches x m) : moveDriven m = true := by
  cases x with
  | free => cases h
  | aiming job => cases m <;> first | rfl | exact agrees.elim
  | driving job stop => cases m <;> first | rfl | exact agrees.elim

/-- What the fields of one outlet's record say together of its requests. -/
structure Requests (o : Outlet) : Prop where
  owned : o.owner ≠ none ↔ o.state = .awaitClose ∨ o.state = .closing ∨ o.state = .opening
  pending : pendingAgrees o
  wholeFrame : o.wholeFrame = true → o.state = .on
  faultKind : o.faultKind ≠ none ↔ o.state = .fault

/-- What the drivers and the wait list hold of outlet `k` agrees with its movement. -/
structure Served (s : State) (k : OutletIx) : Prop where
  unverified : moveStarted s.moves[k] = true → s.outlets[k].unverified = none
  driver : ∀ d : DriverNo, driverOutlet s.drivers[d] = some k → driverMatches s.drivers[d] s.moves[k]
  driven : moveDriven s.moves[k] = true → ∃ d : DriverNo, driverOutlet s.drivers[d] = some k
  waitMove : ∀ w ∈ s.waitList, w.outlet = k → s.moves[k] = .waiting w.dir
  waiting : moveWaits s.moves[k] = true → ∃ w ∈ s.waitList, w.outlet = k

/-- What the close queue holds of outlet `k` agrees with its state and its owner. -/
structure Listed (s : State) (k : OutletIx) : Prop where
  queued : (∃ e ∈ s.queue, e.outlet = k) ↔ s.outlets[k].state = .awaitClose
  queueOwner : ∀ e ∈ s.queue, e.outlet = k → s.outlets[k].owner = some e.owner

/-- What the reservations hold of outlet `k` agrees with its state. -/
structure Held (s : State) (k : OutletIx) : Prop where
  reserved : ∀ b : Branch, ∀ r ∈ s.loads[b].reservations, r.1 = k →
    s.outlets[k].state = .closing ∨ s.outlets[k].state = .on
  granted : s.outlets[k].state = .closing → ∃ b : Branch, ∃ r ∈ s.loads[b].reservations, r.1 = k

/-- What concerns the requests and the movement of outlet `k`. -/
structure Relay (s : State) (k : OutletIx) : Prop extends Served s k, Listed s k, Held s k where
  requests : Requests s.outlets[k]
  moving : moveDir s.moves[k] = movingDir s.outlets[k].state

/-- What concerns the membership of outlet `k`, but its rest. -/
structure Member (s : State) (k : OutletIx) : Prop where
  member : ∀ c : RecNo, s.outlets[k].cycle = some c ↔ k ∈ s.cycles[c].participants
  owner : ∀ c : RecNo, s.outlets[k].cycle = some c → ∀ w, s.outlets[k].owner = some w → w = .cycle c
  pending : ∀ c : RecNo, s.outlets[k].cycle = some c → ∀ q, s.outlets[k].pending = some q → q.owner = .cycle c

/-- R66, R139: outlet `k`, if it rests, rests for a record that opens or rests. -/
def Rests (s : State) (k : OutletIx) : Prop := s.outlets[k].state = .resting → ∃ c : RecNo,
  s.outlets[k].cycle = some c ∧ (s.cycles[c].state = .opening ∨ s.cycles[c].state = .resting)

/-- What concerns the close queue, the drivers and the wait list as wholes. -/
structure Tables (s : State) : Prop where
  queueOrder : s.queue.Pairwise fun x y => x.cls < y.cls ∨ x.cls = y.cls ∧ x.arrival < y.arrival
  queueArrivals : (s.queue.map (·.arrival)).Nodup ∧ ∀ e ∈ s.queue, e.arrival < s.nextArrival
  queueOutlets : (s.queue.map (·.outlet)).Nodup
  oneDriver : ∀ d e : DriverNo, driverOutlet s.drivers[d] = driverOutlet s.drivers[e] → s.drivers[d] ≠ .free → d = e
  waitOutlets : (s.waitList.map (·.outlet)).Nodup
  noIdleDriver : s.waitList ≠ [] → ∀ d : DriverNo, s.drivers[d] ≠ .free

/-- What concerns the cycle table as a whole. -/
structure Records (s : State) : Prop where
  participants : ∀ c : RecNo, s.cycles[c].participants.Nodup
  free : ∀ c : RecNo, s.cycles[c].state = .free → s.cycles[c] = CycleRec.free

theorem control_of_parts {s : State} (relay : ∀ k, Relay s k) (member : ∀ k, Member s k) (rests : ∀ k, Rests s k)
    (tables : Tables s) (records : Records s) : Control s where
  moving k := (relay k).moving
  owned k := (relay k).requests.owned
  pending k := (relay k).requests.pending
  unverified k := (relay k).unverified
  wholeFrame k := (relay k).requests.wholeFrame
  faultKind k := (relay k).requests.faultKind
  queueOrder := tables.queueOrder
  queueArrivals := tables.queueArrivals
  queueOutlets := tables.queueOutlets
  queued k := List.mem_map.trans (relay k).queued
  queueOwners e he := (relay e.outlet).queueOwner e he rfl
  drivers d := by
    cases h : driverOutlet s.drivers[d] with
    | none =>
      cases hd : s.drivers[d] with
      | free => trivial
      | aiming job | driving job stop => rw [hd] at h; cases h
    | some k => exact (driverAgrees_iff h _).mpr ((relay k).driver d h)
  driven k := (relay k).driven
  oneDriver := tables.oneDriver
  waitOutlets := tables.waitOutlets
  waitMoves w hw := (relay w.outlet).waitMove w hw rfl
  waiting k h := List.mem_map.mpr ((relay k).waiting h)
  noIdleDriver := tables.noIdleDriver
  reserved b r hr := (relay r.1).reserved b r hr rfl
  granted k h := by
    obtain ⟨b, r, hr, rfl⟩ := (relay k).granted h
    exact ⟨b, List.mem_map_of_mem hr⟩
  members k := (member k).member
  participants := records.participants
  freeRecords := records.free
  memberOwners k c h := ⟨(member k).owner c h, (member k).pending c h⟩
  resting k := rests k

end Sys2Proof.Machine

namespace Sys2Proof.Safety

open Sys2Proof.Machine

theorem Control.relay {s : State} (h : Control s) (k : OutletIx) : Relay s k where
  requests := ⟨h.owned k, h.pending k, h.wholeFrame k, h.faultKind k⟩
  moving := h.moving k
  unverified := h.unverified k
  queued := List.mem_map.symm.trans (h.queued k)
  queueOwner e he hk := hk ▸ h.queueOwners e he
  driver d hd := (driverAgrees_iff hd _).mp (h.drivers d)
  driven := h.driven k
  waitMove w hw hk := hk ▸ h.waitMoves w hw
  waiting hw := List.mem_map.mp (h.waiting k hw)
  reserved b r hr hk := hk ▸ h.reserved b r hr
  granted hc := by
    obtain ⟨b, hb⟩ := h.granted k hc
    obtain ⟨r, hr, hk⟩ := List.mem_map.mp hb
    exact ⟨b, r, hr, hk⟩

theorem Control.member {s : State} (h : Control s) (k : OutletIx) : Member s k where
  member := h.members k
  owner c hc := (h.memberOwners k c hc).1
  pending c hc := (h.memberOwners k c hc).2

theorem Control.tables {s : State} (h : Control s) : Tables s :=
  ⟨h.queueOrder, h.queueArrivals, h.queueOutlets, h.oneDriver, h.waitOutlets, h.noIdleDriver⟩

theorem Control.rests {s : State} (h : Control s) (k : OutletIx) : Rests s k := h.resting k

theorem Control.records {s : State} (h : Control s) : Records s := ⟨h.participants, h.freeRecords⟩

end Sys2Proof.Safety

namespace Sys2Proof.Machine

open Sys2Proof.Safety

/-! ### What an operation on another outlet leaves -/

/-- The fields of an outlet's record that its requests and its movement concern. -/
structure SameRequests (o x : Outlet) : Prop where
  state : x.state = o.state
  owner : x.owner = o.owner
  pending : x.pending = o.pending
  unverified : x.unverified = o.unverified
  wholeFrame : x.wholeFrame = o.wholeFrame
  faultKind : x.faultKind = o.faultKind

theorem SameRequests.rfl {o : Outlet} : SameRequests o o :=
  ⟨Eq.refl _, Eq.refl _, Eq.refl _, Eq.refl _, Eq.refl _, Eq.refl _⟩

theorem SameRequests.trans {o x y : Outlet} (h : SameRequests o x) (g : SameRequests x y) : SameRequests o y :=
  ⟨g.state.trans h.state, g.owner.trans h.owner, g.pending.trans h.pending, g.unverified.trans h.unverified,
    g.wholeFrame.trans h.wholeFrame, g.faultKind.trans h.faultKind⟩

/-- Everything that concerns outlet `j`'s requests and movement stands in `u` as in `s`. -/
structure SameRelay (s u : State) (j : OutletIx) : Prop where
  outlet : SameRequests s.outlets[j] u.outlets[j]
  move : u.moves[j] = s.moves[j]
  queue : ∀ e : QueueEntry, e.outlet = j → (e ∈ u.queue ↔ e ∈ s.queue)
  wait : ∀ w : WaitEntry, w.outlet = j → (w ∈ u.waitList ↔ w ∈ s.waitList)
  drivers : ∀ (d : DriverNo) (x : Driver), driverOutlet x = some j → (u.drivers[d] = x ↔ s.drivers[d] = x)
  loads : ∀ (b : Branch) (r : OutletIx × Nat), r.1 = j → (r ∈ u.loads[b].reservations ↔ r ∈ s.loads[b].reservations)

theorem SameRelay.refl (s : State) (j : OutletIx) : SameRelay s s j :=
  ⟨.rfl, rfl, fun _ _ => .rfl, fun _ _ => .rfl, fun _ _ _ => .rfl, fun _ _ _ => .rfl⟩

theorem SameRelay.trans {s u v : State} {j : OutletIx} (h : SameRelay s u j) (g : SameRelay u v j) : SameRelay s v j where
  outlet := h.outlet.trans g.outlet
  move := g.move.trans h.move
  queue e he := (g.queue e he).trans (h.queue e he)
  wait w hw := (g.wait w hw).trans (h.wait w hw)
  drivers d x hx := (g.drivers d x hx).trans (h.drivers d x hx)
  loads b r hr := (g.loads b r hr).trans (h.loads b r hr)

theorem SameRelay.driverOutlet {s u : State} {j : OutletIx} (h : SameRelay s u j) (d : DriverNo) :
    driverOutlet u.drivers[d] = some j ↔ driverOutlet s.drivers[d] = some j := by
  constructor
  · intro hd
    rwa [(h.drivers d _ hd).mp rfl]
  · intro hd
    rwa [(h.drivers d _ hd).mpr rfl]

theorem Requests.congr {o x : Outlet} (r : Requests o) (h : SameRequests o x) : Requests x where
  owned := by rw [h.owner, h.state]; exact r.owned
  pending := by
    have old := r.pending
    unfold pendingAgrees at old ⊢
    rwa [h.pending, h.state]
  wholeFrame := by rw [h.wholeFrame, h.state]; exact r.wholeFrame
  faultKind := by rw [h.faultKind, h.state]; exact r.faultKind

theorem Relay.congr {s u : State} {j : OutletIx} (r : Relay s j) (h : SameRelay s u j) : Relay u j where
  requests := r.requests.congr h.outlet
  moving := by rw [h.move, h.outlet.state]; exact r.moving
  unverified := by rw [h.move, h.outlet.unverified]; exact r.unverified
  queued := by
    rw [h.outlet.state, ← r.queued]
    exact exists_congr fun e => ⟨fun ⟨he, hk⟩ => ⟨(h.queue e hk).mp he, hk⟩, fun ⟨he, hk⟩ => ⟨(h.queue e hk).mpr he, hk⟩⟩
  queueOwner e he hk := by rw [h.outlet.owner]; exact r.queueOwner e ((h.queue e hk).mp he) hk
  driver d hd := by
    have old := (h.driverOutlet d).mp hd
    rw [h.move, (h.drivers d _ old).mpr rfl]
    exact r.driver d old
  driven hm := by
    obtain ⟨d, hd⟩ := r.driven (h.move ▸ hm)
    exact ⟨d, (h.driverOutlet d).mpr hd⟩
  waitMove w hw hk := h.move ▸ r.waitMove w ((h.wait w hk).mp hw) hk
  waiting hm := by
    obtain ⟨w, hw, hk⟩ := r.waiting (h.move ▸ hm)
    exact ⟨w, (h.wait w hk).mpr hw, hk⟩
  reserved b x hx hk := by rw [h.outlet.state]; exact r.reserved b x ((h.loads b x hk).mp hx) hk
  granted hc := by
    obtain ⟨b, x, hx, hk⟩ := r.granted (h.outlet.state ▸ hc)
    exact ⟨b, x, (h.loads b x hk).mpr hx, hk⟩

/-- Everything that concerns outlet `j`'s membership stands in `u` as in `s`. -/
structure SameMember (s u : State) (j : OutletIx) : Prop where
  state : u.outlets[j].state = s.outlets[j].state
  owner : u.outlets[j].owner = s.outlets[j].owner
  pending : u.outlets[j].pending = s.outlets[j].pending
  cycle : u.outlets[j].cycle = s.outlets[j].cycle

theorem Member.congr {s u : State} {j : OutletIx} (m : Member s j) (h : SameMember s u j) (cycles : u.cycles = s.cycles) :
    Member u j where
  member c := by rw [h.cycle, cycles]; exact m.member c
  owner c := by rw [h.cycle, h.owner]; exact m.owner c
  pending c := by rw [h.cycle, h.pending]; exact m.pending c

theorem Rests.congr {s u : State} {j : OutletIx} (r : Rests s j) (h : SameMember s u j) (cycles : u.cycles = s.cycles) :
    Rests u j := by
  unfold Rests at r ⊢
  rwa [h.state, h.cycle, cycles]

theorem Records.congr {s u : State} (r : Records s) (cycles : u.cycles = s.cycles) : Records u :=
  ⟨by rw [cycles]; exact r.participants, by rw [cycles]; exact r.free⟩

/-- The tables stand in `u` as in `s`. -/
theorem Tables.congr {s u : State} (t : Tables s) (queue : u.queue = s.queue) (arrival : u.nextArrival = s.nextArrival)
    (drivers : u.drivers = s.drivers) (wait : u.waitList = s.waitList) : Tables u where
  queueOrder := by rw [queue]; exact t.queueOrder
  queueArrivals := by rw [queue, arrival]; exact t.queueArrivals
  queueOutlets := by rw [queue]; exact t.queueOutlets
  oneDriver := by rw [drivers]; exact t.oneDriver
  waitOutlets := by rw [wait]; exact t.waitOutlets
  noIdleDriver := by rw [wait, drivers]; exact t.noIdleDriver

/-- What an operation on outlet `k` leaves: the other outlets, what the tables hold of them, and the cycle table. -/
structure Only (k : OutletIx) (s u : State) : Prop where
  outlets : ∀ j : OutletIx, j ≠ k → u.outlets[j] = s.outlets[j]
  moves : ∀ j : OutletIx, j ≠ k → u.moves[j] = s.moves[j]
  queue : ∀ e : QueueEntry, e.outlet ≠ k → (e ∈ u.queue ↔ e ∈ s.queue)
  wait : ∀ w : WaitEntry, w.outlet ≠ k → (w ∈ u.waitList ↔ w ∈ s.waitList)
  drivers : ∀ (d : DriverNo) (x : Driver) (j : OutletIx), driverOutlet x = some j → j ≠ k →
    (u.drivers[d] = x ↔ s.drivers[d] = x)
  loads : ∀ (b : Branch) (r : OutletIx × Nat), r.1 ≠ k → (r ∈ u.loads[b].reservations ↔ r ∈ s.loads[b].reservations)
  cycles : u.cycles = s.cycles

theorem Only.refl (k : OutletIx) (s : State) : Only k s s :=
  ⟨fun _ _ => rfl, fun _ _ => rfl, fun _ _ => .rfl, fun _ _ => .rfl, fun _ _ _ _ _ => .rfl, fun _ _ _ => .rfl, rfl⟩

theorem Only.trans {k : OutletIx} {s u v : State} (h : Only k s u) (g : Only k u v) : Only k s v where
  outlets j hj := (g.outlets j hj).trans (h.outlets j hj)
  moves j hj := (g.moves j hj).trans (h.moves j hj)
  queue e he := (g.queue e he).trans (h.queue e he)
  wait w hw := (g.wait w hw).trans (h.wait w hw)
  drivers d x j hx hj := (g.drivers d x j hx hj).trans (h.drivers d x j hx hj)
  loads b r hr := (g.loads b r hr).trans (h.loads b r hr)
  cycles := g.cycles.trans h.cycles

theorem Only.relay {k : OutletIx} {s u : State} (h : Only k s u) {j : OutletIx} (hj : j ≠ k) : SameRelay s u j where
  outlet := h.outlets j hj ▸ .rfl
  move := h.moves j hj
  queue e he := h.queue e (he ▸ hj)
  wait w hw := h.wait w (hw ▸ hj)
  drivers d x hx := h.drivers d x j hx hj
  loads b r hr := h.loads b r (hr ▸ hj)

theorem Only.sameMember {k : OutletIx} {s u : State} (h : Only k s u) {j : OutletIx} (hj : j ≠ k) : SameMember s u j := by
  have same := h.outlets j hj
  exact ⟨by rw [same], by rw [same], by rw [same], by rw [same]⟩

/-- The agreement of the outlets but for the rests, where the requests and the movements of the outlets of `P` agree. -/
structure Agrees (P : OutletIx → Prop) (s : State) : Prop where
  relay : ∀ k, P k → Relay s k
  member : ∀ k, Member s k
  tables : Tables s
  records : Records s

/-- The agreement after an operation on outlet `k`, from that outlet's parts and the tables. -/
theorem Agrees.only {P : OutletIx → Prop} {k : OutletIx} {s u : State} (a : Agrees (fun j => P j ∧ j ≠ k) s)
    (only : Only k s u) (relay : P k → Relay u k) (member : Member u k) (tables : Tables u) : Agrees P u := by
  refine ⟨fun j hP => ?_, fun j => ?_, tables, a.records.congr only.cycles⟩ <;> by_cases hj : j = k
  · subst hj
    exact relay hP
  · exact (a.relay j ⟨hP, hj⟩).congr (only.relay hj)
  · subst hj
    exact member
  · exact (a.member j).congr (only.sameMember hj) only.cycles

theorem Agrees.mono {P Q : OutletIx → Prop} {s : State} (a : Agrees P s) (h : ∀ j, Q j → P j) : Agrees Q s :=
  ⟨fun k hk => a.relay k (h k hk), a.member, a.tables, a.records⟩

/-- Every outlet. -/
def everyOutlet (_ : OutletIx) : Prop := True

/-- The agreement of the outlets but for outlet `k`'s requests and movement. -/
abbrev AgreesBut (k : OutletIx) (s : State) : Prop := Agrees (fun j => j ≠ k) s

theorem Agrees.butOutlet {s : State} (a : Agrees everyOutlet s) (k : OutletIx) : AgreesBut k s := a.mono fun _ _ => trivial

/-- An operation on outlet `k` that leaves its parts in agreement, whatever they were. -/
theorem AgreesBut.repair {k : OutletIx} {s u : State} (a : AgreesBut k s) (only : Only k s u) (relay : Relay u k)
    (member : Member u k) (tables : Tables u) : Agrees everyOutlet u :=
  Agrees.only (a.mono fun _ h => h.2) only (fun _ => relay) member tables

/-- An operation on outlet `k` that leaves everything else in agreement. -/
theorem AgreesBut.only {k : OutletIx} {s u : State} (a : AgreesBut k s) (only : Only k s u) (member : Member u k)
    (tables : Tables u) : AgreesBut k u :=
  Agrees.only (a.mono fun _ h => h.2) only (fun h => absurd rfl h) member tables

theorem control_iff {s : State} : Control s ↔ Agrees everyOutlet s ∧ ∀ k, Rests s k :=
  ⟨fun h => ⟨⟨fun k _ => h.relay k, h.member, h.tables, h.records⟩, h.resting⟩,
    fun h => control_of_parts (fun k => h.1.relay k trivial) h.1.member h.2 h.1.tables h.1.records⟩

/-- No outlet begins to rest or to close, and the memberships and the records stand. -/
structure NoneBegins (s u : State) : Prop where
  state : ∀ j : OutletIx, u.outlets[j].state = .resting → s.outlets[j].state = .resting
  closing : ∀ j : OutletIx, u.outlets[j].state = .closing → s.outlets[j].state = .closing
  cycle : ∀ j : OutletIx, u.outlets[j].cycle = s.outlets[j].cycle
  cycles : u.cycles = s.cycles

theorem NoneBegins.refl (s : State) : NoneBegins s s := ⟨fun _ h => h, fun _ h => h, fun _ => rfl, rfl⟩

theorem NoneBegins.trans {s u v : State} (h : NoneBegins s u) (g : NoneBegins u v) : NoneBegins s v :=
  ⟨fun j hj => h.state j (g.state j hj), fun j hj => h.closing j (g.closing j hj), fun j => (g.cycle j).trans (h.cycle j), g.cycles.trans h.cycles⟩

theorem NoneBegins.rests {s u : State} (h : NoneBegins s u) {j : OutletIx} (r : Rests s j) : Rests u j := by
  intro rest
  obtain ⟨c, hc, hs⟩ := r (h.state j rest)
  exact ⟨c, (h.cycle j).trans hc, by rwa [h.cycles]⟩

theorem NoneBegins.of_only {k : OutletIx} {s u : State} (only : Only k s u) (cycle : u.outlets[k].cycle = s.outlets[k].cycle)
    (state : u.outlets[k].state = .resting → s.outlets[k].state = .resting)
    (closing : u.outlets[k].state = .closing → s.outlets[k].state = .closing) : NoneBegins s u := by
  refine ⟨fun j => ?_, fun j => ?_, fun j => ?_, only.cycles⟩ <;> by_cases hj : j = k
  · exact hj ▸ state
  · exact fun rest => only.outlets j hj ▸ rest
  · exact hj ▸ closing
  · exact fun close => only.outlets j hj ▸ close
  · exact hj ▸ cycle
  · rw [only.outlets j hj]

/-- The entries of the queue of `u` are those of `s`, but for owners, and newer ones. -/
def QueueFrom (s u : State) : Prop := s.nextArrival ≤ u.nextArrival ∧ ∀ x ∈ u.queue,
  (∃ y ∈ s.queue, y.arrival = x.arrival ∧ y.outlet = x.outlet) ∨ s.nextArrival ≤ x.arrival

theorem QueueFrom.of_sub {s u : State} (queue : ∀ x ∈ u.queue, x ∈ s.queue) (arrival : u.nextArrival = s.nextArrival) :
    QueueFrom s u := ⟨arrival.ge, fun x hx => .inl ⟨x, queue x hx, rfl, rfl⟩⟩

theorem QueueFrom.refl (s : State) : QueueFrom s s := .of_sub (fun _ => id) rfl

theorem QueueFrom.trans {s u v : State} (h : QueueFrom s u) (g : QueueFrom u v) : QueueFrom s v := by
  refine ⟨h.1.trans g.1, fun x hx => ?_⟩
  rcases g.2 x hx with ⟨y, hy, arrival, outlet⟩ | new
  · rcases h.2 y hy with ⟨z, hz, arrival', outlet'⟩ | new
    · exact .inl ⟨z, hz, arrival'.trans arrival, outlet'.trans outlet⟩
    · exact .inr (arrival ▸ new)
  · exact .inr (h.1.trans new)

/-- Changes that the agreement does not look at. -/
structure SameView (s u : State) : Prop where
  outlets : ∀ j : OutletIx, SameRequests s.outlets[j] u.outlets[j] ∧ u.outlets[j].cycle = s.outlets[j].cycle
  moves : u.moves = s.moves
  drivers : u.drivers = s.drivers
  waitList : u.waitList = s.waitList
  queue : u.queue = s.queue
  nextArrival : u.nextArrival = s.nextArrival
  loads : ∀ b : Branch, u.loads[b].reservations = s.loads[b].reservations
  cycles : ∀ c : RecNo, u.cycles[c].participants = s.cycles[c].participants ∧ u.cycles[c].state = s.cycles[c].state ∧
    (u.cycles[c].state = .free → u.cycles[c] = s.cycles[c])

theorem SameView.relay {s u : State} (h : SameView s u) (j : OutletIx) : SameRelay s u j where
  outlet := (h.outlets j).1
  move := by rw [h.moves]
  queue e _ := by rw [h.queue]
  wait w _ := by rw [h.waitList]
  drivers d x _ := by rw [h.drivers]
  loads b r _ := by rw [h.loads]

theorem SameView.refl (s : State) : SameView s s :=
  ⟨fun _ => ⟨.rfl, rfl⟩, rfl, rfl, rfl, rfl, rfl, fun _ => rfl, fun _ => ⟨rfl, rfl, fun _ => rfl⟩⟩

theorem SameView.trans {s u v : State} (h : SameView s u) (g : SameView u v) : SameView s v where
  outlets j := ⟨(h.outlets j).1.trans (g.outlets j).1, (g.outlets j).2.trans (h.outlets j).2⟩
  moves := g.moves.trans h.moves
  drivers := g.drivers.trans h.drivers
  waitList := g.waitList.trans h.waitList
  queue := g.queue.trans h.queue
  nextArrival := g.nextArrival.trans h.nextArrival
  loads b := (g.loads b).trans (h.loads b)
  cycles c := by
    obtain ⟨parts, state, free⟩ := h.cycles c
    obtain ⟨parts', state', free'⟩ := g.cycles c
    exact ⟨parts'.trans parts, state'.trans state, fun hf => (free' hf).trans (free (state' ▸ hf))⟩

theorem SameView.foldl {α : Type} {f : State → α → State} (h : ∀ s x, SameView s (f s x)) (l : List α) (s : State) :
    SameView s (l.foldl f s) := by
  induction l generalizing s with
  | nil => exact .refl s
  | cons x xs ih => exact (h s x).trans (ih (f s x))

/-- Changes outside the tables that the agreement looks at. -/
theorem SameView.of_tables {s u : State} (outlets : u.outlets = s.outlets) (moves : u.moves = s.moves)
    (drivers : u.drivers = s.drivers) (waitList : u.waitList = s.waitList) (queue : u.queue = s.queue)
    (nextArrival : u.nextArrival = s.nextArrival) (loads : u.loads = s.loads) (cycles : u.cycles = s.cycles) : SameView s u :=
  ⟨fun _ => by rw [outlets]; exact ⟨.rfl, rfl⟩, moves, drivers, waitList, queue, nextArrival,
    fun _ => by rw [loads], fun _ => by rw [cycles]; exact ⟨rfl, rfl, fun _ => rfl⟩⟩

theorem SameView.member {s u : State} (h : SameView s u) {j : OutletIx} (m : Member s j) : Member u j := by
  obtain ⟨same, cycle⟩ := h.outlets j
  refine ⟨fun c => ?_, fun c => ?_, fun c => ?_⟩
  · rw [cycle, (h.cycles c).1]
    exact m.member c
  · rw [cycle, same.owner]
    exact m.owner c
  · rw [cycle, same.pending]
    exact m.pending c

theorem SameView.rests {s u : State} (h : SameView s u) {j : OutletIx} (r : Rests s j) : Rests u j := by
  intro rest
  obtain ⟨c, hc, hs⟩ := r ((h.outlets j).1.state ▸ rest)
  exact ⟨c, (h.outlets j).2.trans hc, (h.cycles c).2.1 ▸ hs⟩

theorem SameView.tables {s u : State} (h : SameView s u) (t : Tables s) : Tables u :=
  t.congr h.queue h.nextArrival h.drivers h.waitList

theorem SameView.records {s u : State} (h : SameView s u) (r : Records s) : Records u := by
  refine ⟨fun c => ?_, fun c free => ?_⟩
  · rw [(h.cycles c).1]
    exact r.participants c
  · rw [(h.cycles c).2.2 free]
    exact r.free c ((h.cycles c).2.1 ▸ free)

theorem Agrees.view {P : OutletIx → Prop} {s u : State} (a : Agrees P s) (h : SameView s u) : Agrees P u :=
  ⟨fun k hk => (a.relay k hk).congr (h.relay k), fun k => h.member (a.member k), h.tables a.tables, h.records a.records⟩

end Sys2Proof.Machine

namespace Sys2Proof.Safety

open Sys2Proof.Machine

theorem Control.view {s u : State} (control : Control s) (h : SameView s u) : Control u := by
  obtain ⟨agrees, rests⟩ := control_iff.mp control
  exact control_iff.mpr ⟨agrees.view h, fun k => h.rests (rests k)⟩

end Sys2Proof.Safety
end

section
/-! PROOF. What the operations on one outlet leave, and what they make of the tables (R78, R103 to R107): outlets, movements,
drivers, the wait list, the close queue and the reservations. -/
namespace Sys2Proof.Machine

open Sys2Proof.Safety

/-! ### Outlets and movements -/

theorem modOutlet_only (s : State) (k : OutletIx) (f : Outlet → Outlet) : Only k s (s.modOutlet k f) :=
  { Only.refl k s with outlets := fun _ hj => upd_other _ _ hj }

theorem enter_only (s : State) (k : OutletIx) (st : OutletState) : Only k s (s.enter k st) := modOutlet_only s k _

theorem setMove_only (s : State) (k : OutletIx) (m : Movement) : Only k s (s.setMove k m) :=
  { Only.refl k s with moves := fun _ hj => upd_other _ _ hj }

/-- A change of fields of outlet `k` that the agreement does not look at. -/
theorem modOutlet_view {s : State} {k : OutletIx} {f : Outlet → Outlet} (same : SameRequests s.outlets[k] (f s.outlets[k]))
    (cycle : (f s.outlets[k]).cycle = s.outlets[k].cycle) : SameView s (s.modOutlet k f) :=
  { SameView.refl s with
    outlets := fun j => by
      rw [State.modOutlet, upd_at]
      split
      case isTrue h => exact h ▸ ⟨same, cycle⟩
      case isFalse => exact ⟨.rfl, rfl⟩ }

/-! ### Drivers and the wait list (R76 to R80) -/

/-- No driver and no entry of the wait list names outlet `k`. -/
structure Unheld (s : State) (k : OutletIx) : Prop where
  driver : ∀ d : DriverNo, driverOutlet s.drivers[d] ≠ some k
  wait : ∀ w ∈ s.waitList, w.outlet ≠ k

/-- Outlet `k` has no movement, and the relay driver holds nothing of it. -/
structure Still (s : State) (k : OutletIx) : Prop extends Unheld s k where
  move : s.moves[k] = .none

theorem Still.served {s : State} {k : OutletIx} (h : Still s k) : Served s k where
  unverified started := by rw [h.move] at started; cases started
  driver d hd := absurd hd (h.driver d)
  driven driven := by rw [h.move] at driven; cases driven
  waitMove w hw hk := absurd hk (h.wait w hw)
  waiting waits := by rw [h.move] at waits; cases waits

theorem Served.still {s : State} {k : OutletIx} (r : Served s k) (dir : moveDir s.moves[k] = none) : Still s k := by
  have move : s.moves[k] = .none := by
    cases h : s.moves[k] with
    | none => rfl
    | waiting _ | aiming _ _ _ | driving _ | verifying _ => rw [h] at dir; cases dir
  refine { move, driver := fun d hd => ?_, wait := fun w hw hk => ?_ }
  · have driven := driverMatches_driven hd (r.driver d hd)
    rw [move] at driven
    cases driven
  · have waits := r.waitMove w hw hk
    rw [move] at waits
    cases waits

/-- A movement in verification holds no driver and does not wait. -/
theorem Served.unheld {s : State} {k : OutletIx} {p : Pulse} (r : Served s k) (h : s.moves[k] = .verifying p) : Unheld s k := by
  refine ⟨fun d hd => ?_, fun w hw hk => ?_⟩
  · have driven := driverMatches_driven hd (r.driver d hd)
    rw [h] at driven
    cases driven
  · have waits := r.waitMove w hw hk
    rw [h] at waits
    cases waits

theorem moveDriven_not_waits {m : Movement} (h : moveDriven m = true) : ¬ moveWaits m = true := by
  cases m with
  | aiming _ _ _ | driving _ => exact Bool.false_ne_true
  | none | waiting _ | verifying _ => cases h

theorem freeDriver_some {s : State} {d : DriverNo} (h : s.freeDriver = some d) : s.drivers[d] = .free :=
  beq_iff_eq.mp (List.find?_some (p := fun d : DriverNo => s.drivers[d] == .free) h)

theorem freeDriver_none {s : State} (h : s.freeDriver = none) (d : DriverNo) : s.drivers[d] ≠ .free := fun free =>
  List.find?_eq_none.mp h d (List.mem_finRange d) (beq_iff_eq.mpr free)

theorem needDriver_assigns {s : State} {d : DriverNo} (h : s.freeDriver = some d) (k : OutletIx) (dir : Dir) (retry : Bool) :
    s.needDriver k dir retry = s.assign d k dir := by simp only [State.needDriver, h]

theorem needDriver_waits {s : State} (h : s.freeDriver = none) (k : OutletIx) (dir : Dir) (retry : Bool) :
    s.needDriver k dir retry = { s with
      waitList := s.waitList ++ [{ outlet := k, dir := dir, retry := retry }]
      moves := upd s.moves k fun _ => .waiting dir } := by
  simp only [State.needDriver, h]
  rfl

/-- An assignment gives the driver and the movement of its outlet, which agree. -/
theorem assign_begins (s : State) (d : DriverNo) (k : OutletIx) (dir : Dir) :
    ∃ (x : Driver) (m : Movement), s.assign d k dir = { s with
        drivers := upd s.drivers d fun _ => x, moves := upd s.moves k fun _ => m
        outlets := upd s.outlets k fun o => { o with unverified := none } } ∧
      driverOutlet x = some k ∧ driverMatches x m ∧ moveDir m = some dir := by
  rcases h : s.aim (s.phaseOf k) (travelEstimate s.outlets[k] dir) with ⟨start, timed⟩
  cases timed with
  | true => exact ⟨_, _, assign_timed h, rfl, ⟨rfl, rfl⟩, rfl⟩
  | false => exact ⟨_, _, assign_untimed (h.trans (by rw [aim_start h])), rfl, ⟨rfl, rfl, rfl⟩, rfl⟩

theorem setDriver_only {s : State} {d : DriverNo} {k : OutletIx} {x : Driver}
    (old : ∀ j, driverOutlet s.drivers[d] = some j → j = k) (new : ∀ j, driverOutlet x = some j → j = k) :
    Only k s (s.setDriver d x) :=
  { Only.refl k s with
    drivers := fun e y j hy hj => by
      by_cases he : e = d
      · subst he
        rw [State.setDriver, upd_same]
        constructor
        · rintro rfl
          exact absurd (new j hy) hj
        · rintro rfl
          exact absurd (old j hy) hj
      · rw [State.setDriver, upd_other _ _ he] }

theorem assign_only {s : State} {d : DriverNo} {k : OutletIx} (free : s.drivers[d] = .free) (dir : Dir) :
    Only k s (s.assign d k dir) := by
  obtain ⟨x, m, same, names, -, -⟩ := assign_begins s d k dir
  have driver : Only k s (s.setDriver d x) :=
    setDriver_only (fun j hj => by rw [free] at hj; cases hj) fun j hj => Option.some.inj (hj.symm.trans names)
  rw [same]
  exact driver.trans ((setMove_only _ k m).trans (modOutlet_only _ k _))

theorem needDriver_only (s : State) (k : OutletIx) (dir : Dir) (retry : Bool) : Only k s (s.needDriver k dir retry) := by
  cases h : s.freeDriver with
  | some d =>
    rw [needDriver_assigns h]
    exact assign_only (freeDriver_some h) dir
  | none =>
    rw [needDriver_waits h]
    exact { setMove_only s k (.waiting dir) with
      wait := fun w hw => by
        rw [List.mem_append, List.mem_singleton]
        exact or_iff_left fun e => hw (e ▸ rfl) }

/-- What an outlet that needs a driver keeps. -/
theorem needDriver_same (s : State) (k : OutletIx) (dir : Dir) (retry : Bool) :
    s.needDriver k dir retry = { s with
      drivers := (s.needDriver k dir retry).drivers, moves := (s.needDriver k dir retry).moves
      waitList := (s.needDriver k dir retry).waitList, outlets := (s.needDriver k dir retry).outlets } := by
  cases h : s.freeDriver with
  | some d =>
    rw [needDriver_assigns h, assign_same]
  | none => rw [needDriver_waits h]

theorem needDriver_outlet (s : State) (k : OutletIx) (dir : Dir) (retry : Bool) :
    ∃ v, (s.needDriver k dir retry).outlets[k] = { s.outlets[k] with unverified := v } := by
  cases h : s.freeDriver with
  | some d =>
    rw [needDriver_assigns h]
    exact ⟨none, assign_outlet s d k dir⟩
  | none =>
    rw [needDriver_waits h]
    exact ⟨_, rfl⟩

theorem assign_served {s : State} {k : OutletIx} (un : Unheld s k) (d : DriverNo) (dir : Dir) :
    Served (s.assign d k dir) k ∧ moveDir (s.assign d k dir).moves[k] = some dir := by
  obtain ⟨x, m, same, names, agrees, hdir⟩ := assign_begins s d k dir
  have driven := driverMatches_driven names agrees
  rw [same]
  refine ⟨⟨fun _ => ?_, fun e he => ?_, fun _ => ⟨d, ?_⟩, fun w hw hk => absurd hk (un.wait w hw), fun waits => ?_⟩, ?_⟩
  · rw [upd_same]
  · rw [upd_same]
    by_cases hd : e = d
    · rwa [hd, upd_same]
    · rw [upd_other _ _ hd] at he
      exact absurd he (un.driver e)
  · rwa [upd_same]
  · rw [upd_same] at waits
    exact absurd waits (moveDriven_not_waits driven)
  · rwa [upd_same]

theorem assign_driver (s : State) (d : DriverNo) (k : OutletIx) (dir : Dir) :
    driverOutlet (s.assign d k dir).drivers[d] = some k := by
  obtain ⟨x, m, same, names, -, -⟩ := assign_begins s d k dir
  rw [same, upd_same]
  exact names

theorem assign_oneDriver {s : State} {k : OutletIx} (un : Unheld s k) (d : DriverNo) (dir : Dir)
    (one : ∀ e f : DriverNo, driverOutlet s.drivers[e] = driverOutlet s.drivers[f] → s.drivers[e] ≠ .free → e = f)
    (e f : DriverNo) (same : driverOutlet (s.assign d k dir).drivers[e] = driverOutlet (s.assign d k dir).drivers[f])
    (busy : (s.assign d k dir).drivers[e] ≠ .free) : e = f := by
  have names := assign_driver s d k dir
  by_cases he : e = d <;> by_cases hf : f = d
  · rw [he, hf]
  · rw [he, names, assign_driver_other s k dir hf] at same
    exact absurd same.symm (un.driver f)
  · rw [hf, names, assign_driver_other s k dir he] at same
    exact absurd same (un.driver e)
  · rw [assign_driver_other s k dir he] at same busy
    rw [assign_driver_other s k dir hf] at same
    exact one e f same busy

/-- A movement that was given a driver, or waits, agrees with the relay driver. -/
theorem needDriver_served {s : State} {k : OutletIx} (un : Unheld s k) (dir : Dir) (retry : Bool) :
    Served (s.needDriver k dir retry) k ∧ moveDir (s.needDriver k dir retry).moves[k] = some dir := by
  cases h : s.freeDriver with
  | some d =>
    rw [needDriver_assigns h]
    exact assign_served un d dir
  | none =>
    rw [needDriver_waits h]
    refine ⟨⟨fun started => ?_, fun d hd => absurd hd (un.driver d), fun driven => ?_, fun w hw hk => ?_, fun _ => ?_⟩, ?_⟩
    · rw [upd_same] at started
      cases started
    · rw [upd_same] at driven
      cases driven
    · rw [List.mem_append, List.mem_singleton] at hw
      rw [upd_same]
      rcases hw with hw | rfl
      · exact absurd hk (un.wait w hw)
      · rfl
    · exact ⟨_, List.mem_append_right _ (List.mem_singleton_self _), rfl⟩
    · rw [upd_same]
      rfl

theorem needDriver_tables {s : State} {k : OutletIx} (t : Tables s) (un : Unheld s k) (dir : Dir) (retry : Bool) :
    Tables (s.needDriver k dir retry) := by
  cases h : s.freeDriver with
  | some d =>
    have same := assign_same s d k dir
    have wait : s.waitList = [] := by
      by_contra waits
      exact t.noIdleDriver waits d (freeDriver_some h)
    rw [needDriver_assigns h]
    exact {
      queueOrder := by rw [same]; exact t.queueOrder
      queueArrivals := by rw [same]; exact t.queueArrivals
      queueOutlets := by rw [same]; exact t.queueOutlets
      oneDriver := assign_oneDriver un d dir t.oneDriver
      waitOutlets := by rw [same]; exact t.waitOutlets
      noIdleDriver := fun waits => absurd (by rw [same]; exact wait) waits }
  | none =>
    rw [needDriver_waits h]
    refine { t with waitOutlets := ?_, noIdleDriver := fun _ => freeDriver_none h }
    rw [List.map_append, List.nodup_append]
    refine ⟨t.waitOutlets, List.nodup_singleton _, fun a ha b hb => ?_⟩
    obtain ⟨w, hw, rfl⟩ := List.mem_map.mp ha
    rw [List.map_singleton, List.mem_singleton] at hb
    exact hb ▸ un.wait w hw

theorem withdrawWaiting_only (s : State) (k : OutletIx) : Only k s (s.withdrawWaiting k) := by
  unfold State.withdrawWaiting
  split
  case h_1 =>
    exact { setMove_only s k .none with
      wait := fun w hw => by
        rw [State.setMove, List.mem_filter]
        exact and_iff_left (bne_iff_ne.mpr hw) }
  case h_2 => exact .refl k s

theorem withdrawWaiting_same (s : State) (k : OutletIx) : s.withdrawWaiting k = { s with
    waitList := (s.withdrawWaiting k).waitList, moves := (s.withdrawWaiting k).moves
    scanDue := (s.withdrawWaiting k).scanDue } := by
  unfold State.withdrawWaiting
  split <;> rfl

/-- A movement that holds no driver ends with its place in the wait list. -/
theorem withdrawWaiting_still {s : State} {k : OutletIx} (served : Served s k) (h : moveStarted s.moves[k] = false) :
    Still (s.withdrawWaiting k) k := by
  cases hm : s.moves[k] with
  | none =>
    have same : s.withdrawWaiting k = s := by simp only [State.withdrawWaiting, hm]
    rw [same]
    exact served.still (by rw [hm]; rfl)
  | waiting dir =>
    simp only [State.withdrawWaiting, hm]
    refine { move := upd_same _ _ _, driver := fun d hd => ?_, wait := fun w hw => ?_ }
    · have driven := driverMatches_driven hd (served.driver d hd)
      rw [hm] at driven
      cases driven
    · exact bne_iff_ne.mp (List.mem_filter.mp hw).2
  | aiming _ _ _ | driving _ | verifying _ => rw [hm] at h; cases h

theorem withdrawWaiting_tables {s : State} (t : Tables s) (k : OutletIx) : Tables (s.withdrawWaiting k) := by
  unfold State.withdrawWaiting
  split
  case h_1 =>
    exact { t with
      waitOutlets := t.waitOutlets.sublist ((List.filter_sublist).map _)
      noIdleDriver := fun waits => t.noIdleDriver fun none => waits (by rw [State.setMove_waitList, none]; rfl) }
  case h_2 => exact t

/-! ### The close queue (R105 to R107) -/

/-- No entry of the close queue is outlet `k`'s. -/
def Unlisted (s : State) (k : OutletIx) : Prop := ∀ e ∈ s.queue, e.outlet ≠ k

theorem Listed.unlisted {s : State} {k : OutletIx} (r : Listed s k) (h : s.outlets[k].state ≠ .awaitClose) : Unlisted s k :=
  fun e he hk => h (r.queued.mp ⟨e, he, hk⟩)

theorem Unlisted.listed {s : State} {k : OutletIx} (r : Unlisted s k) (h : s.outlets[k].state ≠ .awaitClose) : Listed s k :=
  ⟨iff_of_false (fun ⟨e, he, hk⟩ => r e he hk) h, fun e he hk => absurd hk (r e he)⟩

theorem mem_insertEntry {e x : QueueEntry} {q : List QueueEntry} : x ∈ insertEntry e q ↔ x = e ∨ x ∈ q := by
  induction q with
  | nil => rw [insertEntry, List.mem_singleton, List.mem_nil_iff, or_false]
  | cons y ys ih =>
    rw [insertEntry]
    split
    · rw [List.mem_cons]
    · rw [List.mem_cons, ih, List.mem_cons, or_left_comm]

theorem insertEntry_perm (e : QueueEntry) (q : List QueueEntry) : (insertEntry e q).Perm (e :: q) := by
  induction q with
  | nil => exact .refl _
  | cons y ys ih =>
    rw [insertEntry]
    split
    · exact .refl _
    · exact (ih.cons y).trans (.swap e y ys)

/-- R105: by class, and within a class by arrival. -/
def entryBefore (x y : QueueEntry) : Prop := x.cls < y.cls ∨ x.cls = y.cls ∧ x.arrival < y.arrival

theorem insertEntry_ordered {e : QueueEntry} {q : List QueueEntry} (sorted : q.Pairwise entryBefore)
    (last : ∀ x ∈ q, x.arrival < e.arrival) : (insertEntry e q).Pairwise entryBefore := by
  induction q with
  | nil => exact List.pairwise_singleton _ _
  | cons y ys ih =>
    obtain ⟨first, rest⟩ := List.pairwise_cons.mp sorted
    rw [insertEntry]
    split
    case isTrue less =>
      refine List.pairwise_cons.mpr ⟨fun x hx => ?_, sorted⟩
      rcases List.mem_cons.mp hx with rfl | hx
      · exact .inl less
      · rcases first x hx with h | h
        · exact .inl (lt_trans less h)
        · exact .inl (h.1 ▸ less)
    case isFalse notLess =>
      refine List.pairwise_cons.mpr ⟨fun x hx => ?_, ih rest fun x hx => last x (List.mem_cons_of_mem _ hx)⟩
      rcases mem_insertEntry.mp hx with rfl | hx
      · rcases lt_or_eq_of_le (not_lt.mp notLess) with h | h
        · exact .inl h
        · exact .inr ⟨h, last y List.mem_cons_self⟩
      · exact first x hx

theorem enqueue_only (s : State) (k : OutletIx) (cls : ClassNo) (w : Owner) : Only k s (s.enqueue k cls w) := by
  have queued : Only k s { s with
      queue := insertEntry { outlet := k, cls := cls, owner := w, stamp := s.partTime, instant := s.now, arrival := s.nextArrival }
        s.queue
      nextArrival := s.nextArrival + 1, scanDue := true } :=
    { Only.refl k s with
      queue := fun e he => by
        rw [mem_insertEntry]
        exact or_iff_right fun h => he (h ▸ rfl) }
  exact queued.trans ((enter_only _ k _).trans (modOutlet_only _ k _))

theorem enqueue_from (s : State) (k : OutletIx) (cls : ClassNo) (w : Owner) : QueueFrom s (s.enqueue k cls w) := by
  refine ⟨Nat.le_succ _, fun x hx => ?_⟩
  rcases mem_insertEntry.mp hx with rfl | hx
  · exact .inr le_rfl
  · exact .inl ⟨x, hx, rfl, rfl⟩

theorem enqueue_outlet (s : State) (k : OutletIx) (cls : ClassNo) (w : Owner) : (s.enqueue k cls w).outlets[k] =
    { s.outlets[k] with state := .awaitClose, lastChange := s.partTime, owner := some w } := by
  rw [State.enqueue, State.modOutlet, upd_same, State.enter, State.modOutlet, upd_same]
  rfl

theorem enqueue_tables {s : State} (t : Tables s) {k : OutletIx} (un : Unlisted s k) (cls : ClassNo) (w : Owner) :
    Tables (s.enqueue k cls w) := by
  have perm := insertEntry_perm
    { outlet := k, cls := cls, owner := w, stamp := s.partTime, instant := s.now, arrival := s.nextArrival } s.queue
  refine { t with
    queueOrder := insertEntry_ordered t.queueOrder t.queueArrivals.2
    queueArrivals := ⟨(perm.map _).nodup_iff.mpr (List.nodup_cons.mpr ⟨fun h => ?_, t.queueArrivals.1⟩), fun e he => ?_⟩
    queueOutlets := (perm.map _).nodup_iff.mpr (List.nodup_cons.mpr ⟨fun h => ?_, t.queueOutlets⟩) }
  · obtain ⟨e, he, same⟩ := List.mem_map.mp h
    exact absurd same (ne_of_lt (t.queueArrivals.2 e he))
  · rcases mem_insertEntry.mp he with rfl | he
    · exact Nat.lt_succ_self _
    · exact Nat.lt_succ_of_lt (t.queueArrivals.2 e he)
  · obtain ⟨e, he, same⟩ := List.mem_map.mp h
    exact un e he same

theorem enqueue_listed {s : State} {k : OutletIx} (un : Unlisted s k) (cls : ClassNo) (w : Owner) :
    Listed (s.enqueue k cls w) k := by
  refine ⟨iff_of_true ⟨_, mem_insertEntry.mpr (.inl rfl), rfl⟩ (by rw [enqueue_outlet]), fun e he hk => ?_⟩
  rw [enqueue_outlet]
  rcases mem_insertEntry.mp he with rfl | he
  · rfl
  · exact absurd hk (un e he)

theorem dequeue_only (s : State) (k : OutletIx) : Only k s (s.dequeue k) := by
  unfold State.dequeue
  split
  · exact { Only.refl k s with
      queue := fun e he => by
        rw [List.mem_filter]
        exact and_iff_left (bne_iff_ne.mpr he) }
  · exact .refl k s

theorem dequeue_same (s : State) (k : OutletIx) :
    s.dequeue k = { s with queue := (s.dequeue k).queue, scanDue := (s.dequeue k).scanDue } := by
  unfold State.dequeue
  split <;> rfl

theorem dequeue_queue (s : State) (k : OutletIx) : (s.dequeue k).queue = s.queue.filter (·.outlet != k) := by
  unfold State.dequeue
  split
  case isTrue => rfl
  case isFalse none =>
    refine (List.filter_eq_self.mpr fun e he => bne_iff_ne.mpr fun hk => none ?_).symm
    exact List.any_eq_true.mpr ⟨e, he, beq_iff_eq.mpr hk⟩

theorem dequeue_unlisted (s : State) (k : OutletIx) : Unlisted (s.dequeue k) k := by
  intro e he
  rw [dequeue_queue] at he
  exact bne_iff_ne.mp (List.mem_filter.mp he).2

theorem dequeue_from (s : State) (k : OutletIx) : QueueFrom s (s.dequeue k) :=
  .of_sub (fun x hx => (List.mem_filter.mp (dequeue_queue s k ▸ hx)).1) (by rw [dequeue_same])

/-- A part of the queue in its order. -/
theorem Tables.sublist {s u : State} (t : Tables s) (queue : u.queue.Sublist s.queue) (arrival : u.nextArrival = s.nextArrival)
    (drivers : u.drivers = s.drivers) (wait : u.waitList = s.waitList) : Tables u where
  queueOrder := t.queueOrder.sublist queue
  queueArrivals := ⟨t.queueArrivals.1.sublist (queue.map _), by
    rw [arrival]
    exact fun e he => t.queueArrivals.2 e (queue.subset he)⟩
  queueOutlets := t.queueOutlets.sublist (queue.map _)
  oneDriver := by rw [drivers]; exact t.oneDriver
  waitOutlets := by rw [wait]; exact t.waitOutlets
  noIdleDriver := by rw [wait, drivers]; exact t.noIdleDriver

theorem dequeue_tables {s : State} (t : Tables s) (k : OutletIx) : Tables (s.dequeue k) :=
  t.sublist (by rw [dequeue_queue]; exact List.filter_sublist) (by rw [dequeue_same]) (by rw [dequeue_same]) (by rw [dequeue_same])

/-- R107 at one entry: a new owner for outlet `k`'s. -/
def reownEntry (k : OutletIx) (w : Owner) (e : QueueEntry) : QueueEntry := if e.outlet == k then { e with owner := w } else e

theorem reownEntry_same {k : OutletIx} {w : Owner} {e : QueueEntry} (h : e.outlet = k) :
    reownEntry k w e = { e with owner := w } := if_pos (beq_iff_eq.mpr h)

theorem reownEntry_other {k : OutletIx} {w : Owner} {e : QueueEntry} (h : e.outlet ≠ k) : reownEntry k w e = e :=
  if_neg fun same => h (beq_iff_eq.mp same)

theorem reownEntry_key (k : OutletIx) (w : Owner) (e : QueueEntry) : (reownEntry k w e).outlet = e.outlet ∧
    (reownEntry k w e).cls = e.cls ∧ (reownEntry k w e).arrival = e.arrival := by
  unfold reownEntry
  split <;> exact ⟨rfl, rfl, rfl⟩

theorem reown_queue (s : State) (k : OutletIx) (w : Owner) : (s.reown k w).queue = s.queue.map (reownEntry k w) := rfl

theorem reown_only (s : State) (k : OutletIx) (w : Owner) : Only k s (s.reown k w) :=
  { Only.refl k s with
    queue := fun e he => by
      rw [reown_queue, List.mem_map]
      constructor
      · rintro ⟨x, hx, rfl⟩
        rwa [reownEntry_other ((reownEntry_key k w x).1 ▸ he)]
      · exact fun hx => ⟨e, hx, reownEntry_other he⟩ }

theorem reown_from (s : State) (k : OutletIx) (w : Owner) : QueueFrom s (s.reown k w) := by
  refine ⟨le_rfl, fun x hx => ?_⟩
  rw [reown_queue] at hx
  obtain ⟨y, hy, rfl⟩ := List.mem_map.mp hx
  obtain ⟨outlet, -, arrival⟩ := reownEntry_key k w y
  exact .inl ⟨y, hy, arrival.symm, outlet.symm⟩

/-- A change of entries that keeps outlet, class and arrival keeps the queue in order. -/
theorem Tables.mapped {s u : State} (t : Tables s) {f : QueueEntry → QueueEntry}
    (key : ∀ e, (f e).outlet = e.outlet ∧ (f e).cls = e.cls ∧ (f e).arrival = e.arrival) (queue : u.queue = s.queue.map f)
    (arrival : u.nextArrival = s.nextArrival) (drivers : u.drivers = s.drivers) (wait : u.waitList = s.waitList) :
    Tables u where
  queueOrder := by
    rw [queue]
    refine List.pairwise_map.mpr (t.queueOrder.imp fun {x y} h => ?_)
    rwa [(key x).2.1, (key y).2.1, (key x).2.2, (key y).2.2]
  queueArrivals := by
    have arrivals : (s.queue.map f).map (·.arrival) = s.queue.map (·.arrival) :=
      List.map_map.trans (List.map_congr_left fun e _ => (key e).2.2)
    rw [queue, arrival, arrivals]
    refine ⟨t.queueArrivals.1, fun e he => ?_⟩
    obtain ⟨x, hx, rfl⟩ := List.mem_map.mp he
    rw [(key x).2.2]
    exact t.queueArrivals.2 x hx
  queueOutlets := by
    have outlets : (s.queue.map f).map (·.outlet) = s.queue.map (·.outlet) :=
      List.map_map.trans (List.map_congr_left fun e _ => (key e).1)
    rw [queue, outlets]
    exact t.queueOutlets
  oneDriver := by rw [drivers]; exact t.oneDriver
  waitOutlets := by rw [wait]; exact t.waitOutlets
  noIdleDriver := by rw [wait, drivers]; exact t.noIdleDriver

theorem reown_tables {s : State} (t : Tables s) (k : OutletIx) (w : Owner) : Tables (s.reown k w) :=
  t.mapped (reownEntry_key k w) (reown_queue s k w) rfl rfl rfl

/-! ### The reservations (R103) -/

/-- No reservation is outlet `k`'s. -/
def Unreserved (s : State) (k : OutletIx) : Prop := ∀ b : Branch, ∀ r ∈ s.loads[b].reservations, r.1 ≠ k

theorem Held.unreserved {s : State} {k : OutletIx} (r : Held s k) (closing : s.outlets[k].state ≠ .closing)
    (on : s.outlets[k].state ≠ .on) : Unreserved s k := fun b x hx hk => (r.reserved b x hx hk).elim closing on

theorem Unreserved.held {s : State} {k : OutletIx} (r : Unreserved s k) (closing : s.outlets[k].state ≠ .closing) : Held s k :=
  ⟨fun b x hx hk => absurd hk (r b x hx), fun h => absurd h closing⟩

theorem release_reservations (s : State) (k : OutletIx) (b : Branch) :
    (s.release k).loads[b].reservations = s.loads[b].reservations.filter (·.1 != k) := by
  unfold State.release
  split
  case isTrue => rw [tab_at]
  case isFalse none =>
    refine (List.filter_eq_self.mpr fun r hr => bne_iff_ne.mpr fun hk => none ?_).symm
    exact List.any_eq_true.mpr ⟨b, List.mem_finRange b, List.any_eq_true.mpr ⟨r, hr, beq_iff_eq.mpr hk⟩⟩

theorem release_same (s : State) (k : OutletIx) :
    s.release k = { s with loads := (s.release k).loads, scanDue := (s.release k).scanDue } := by
  unfold State.release
  split <;> rfl

theorem release_only (s : State) (k : OutletIx) : Only k s (s.release k) := by
  refine { outlets := fun j _ => ?_, moves := fun j _ => ?_, queue := fun e _ => ?_, wait := fun w _ => ?_
           drivers := fun d x j _ _ => ?_, loads := fun b r hr => ?_, cycles := ?_ }
  case refine_6 =>
    rw [release_reservations, List.mem_filter]
    exact and_iff_left (bne_iff_ne.mpr hr)
  all_goals rw [release_same]

theorem release_unreserved (s : State) (k : OutletIx) : Unreserved (s.release k) k := by
  intro b r hr
  rw [release_reservations] at hr
  exact bne_iff_ne.mp (List.mem_filter.mp hr).2

theorem release_tables {s : State} (t : Tables s) (k : OutletIx) : Tables (s.release k) :=
  t.congr (by rw [release_same]) (by rw [release_same]) (by rw [release_same]) (by rw [release_same])

end Sys2Proof.Machine
end

section
/-! PROOF. What a request does to its outlet, by the outlet's state (R53 to R64, R128): the outlets stay in agreement, none
begins to rest, and no membership changes. -/
namespace Sys2Proof.Machine

open Sys2Proof.Safety

/-! ### One outlet's record -/

theorem Requests.owner_none {o : Outlet} (r : Requests o) (moving : movingDir o.state = none) (await : o.state ≠ .awaitClose) :
    o.owner = none := by
  by_contra owned
  rcases r.owned.mp owned with h | h | h
  · exact await h
  · rw [h] at moving; cases moving
  · rw [h] at moving; cases moving

theorem Requests.pending_none {o : Outlet} (r : Requests o) (moving : movingDir o.state = none) : o.pending = none := by
  have agrees := r.pending
  unfold pendingAgrees at agrees
  cases h : o.pending with
  | none => rfl
  | some q => cases q <;> simp_all [movingDir]

theorem Requests.faultKind_none {o : Outlet} (r : Requests o) (h : o.state ≠ .fault) : o.faultKind = none := by
  by_contra kind
  exact h (r.faultKind.mp kind)

theorem Requests.wholeFrame_false {o : Outlet} (r : Requests o) (h : o.state ≠ .on) : o.wholeFrame = false :=
  Bool.eq_false_iff.mpr fun whole => h (r.wholeFrame whole)

/-- A record without a request. -/
theorem requests_idle {o : Outlet} (moving : movingDir o.state = none) (await : o.state ≠ .awaitClose) (owner : o.owner = none)
    (pending : o.pending = none) (wholeFrame : o.wholeFrame = true → o.state = .on)
    (faultKind : o.faultKind ≠ none ↔ o.state = .fault) : Requests o where
  owned := by
    refine iff_of_false (fun h => h owner) fun h => ?_
    rcases h with h | h | h
    · exact await h
    · rw [h] at moving; cases moving
    · rw [h] at moving; cases moving
  pending := by rw [pendingAgrees, pending]; trivial
  wholeFrame := wholeFrame
  faultKind := faultKind

/-- A record whose request is carried out. -/
theorem requests_carried {o : Outlet} {w : Owner} (state : o.state = .awaitClose ∨ o.state = .closing ∨ o.state = .opening)
    (owner : o.owner = some w) (pending : pendingAgrees o) (wholeFrame : o.wholeFrame = false) (faultKind : o.faultKind = none) :
    Requests o where
  owned := iff_of_true (by rw [owner]; exact Option.some_ne_none w) state
  pending := pending
  wholeFrame h := by rw [wholeFrame] at h; cases h
  faultKind := by
    refine iff_of_false (fun h => h faultKind) fun h => ?_
    rcases state with g | g | g <;> exact OutletState.noConfusion (h.symm.trans g)

/-! ### Requests -/

/-- The record that an outlet's membership names, if any, is the owner `w`. -/
def MayOwn (s : State) (k : OutletIx) (w : Owner) : Prop := ∀ c : RecNo, s.outlets[k].cycle = some c → w = .cycle c

/-- What a request leaves and keeps. -/
structure Requested (k : OutletIx) (s u : State) : Prop where
  only : Only k s u
  cycle : u.outlets[k].cycle = s.outlets[k].cycle
  rest : u.outlets[k].state = .resting → s.outlets[k].state = .resting
  closing : u.outlets[k].state = .closing → s.outlets[k].state = .closing
  queue : QueueFrom s u
  agrees : Agrees everyOutlet s → Agrees everyOutlet u

theorem Requested.refl (k : OutletIx) (s : State) : Requested k s s := ⟨.refl k s, rfl, id, id, .refl s, id⟩

theorem Requested.trans {k : OutletIx} {s u v : State} (h : Requested k s u) (g : Requested k u v) : Requested k s v :=
  ⟨h.only.trans g.only, g.cycle.trans h.cycle, h.rest ∘ g.rest, h.closing ∘ g.closing, h.queue.trans g.queue,
    g.agrees ∘ h.agrees⟩

theorem Requested.noneBegins {k : OutletIx} {s u : State} (h : Requested k s u) : NoneBegins s u := .of_only h.only h.cycle h.rest h.closing

theorem Requested.control {k : OutletIx} {s u : State} (h : Requested k s u) (control : Control s) : Control u := by
  obtain ⟨agrees, rests⟩ := control_iff.mp control
  exact control_iff.mpr ⟨h.agrees agrees, fun j => h.noneBegins.rests (rests j)⟩

/-- The membership of an outlet whose owner and pending request are kept, dropped, or of one that may own it. -/
theorem Member.request {s u : State} {k : OutletIx} (m : Member s k) (cycle : u.outlets[k].cycle = s.outlets[k].cycle)
    (cycles : u.cycles = s.cycles) (owner : ∀ v, u.outlets[k].owner = some v → s.outlets[k].owner = some v ∨ MayOwn s k v)
    (pending : ∀ q, u.outlets[k].pending = some q → s.outlets[k].pending = some q ∨ MayOwn s k q.owner) : Member u k where
  member c := by rw [cycle, cycles]; exact m.member c
  owner c hc v hv := by
    rw [cycle] at hc
    exact (owner v hv).elim (m.owner c hc v) fun own => own c hc
  pending c hc q hq := by
    rw [cycle] at hc
    exact (pending q hq).elim (m.pending c hc q) fun own => own c hc

theorem Still.congr {s u : State} {k : OutletIx} (h : Still s k) (moves : u.moves = s.moves) (drivers : u.drivers = s.drivers)
    (wait : u.waitList = s.waitList) : Still u k :=
  ⟨⟨by rw [drivers]; exact h.driver, by rw [wait]; exact h.wait⟩, by rw [moves]; exact h.move⟩

theorem Served.congr {s u : State} {k : OutletIx} (h : Served s k) (unverified : u.outlets[k].unverified = s.outlets[k].unverified)
    (moves : u.moves = s.moves) (drivers : u.drivers = s.drivers) (wait : u.waitList = s.waitList) : Served u k where
  unverified := by rw [moves, unverified]; exact h.unverified
  driver := by rw [drivers, moves]; exact h.driver
  driven := by rw [drivers, moves]; exact h.driven
  waitMove := by rw [wait, moves]; exact h.waitMove
  waiting := by rw [wait, moves]; exact h.waiting

theorem Listed.congr {s u : State} {k : OutletIx} (h : Listed s k) (state : u.outlets[k].state = s.outlets[k].state)
    (owner : u.outlets[k].owner = s.outlets[k].owner) (queue : u.queue = s.queue) : Listed u k :=
  ⟨by rw [queue, state]; exact h.queued, by rw [queue, owner]; exact h.queueOwner⟩

theorem Held.congr {s u : State} {k : OutletIx} (h : Held s k) (state : u.outlets[k].state = s.outlets[k].state)
    (loads : u.loads = s.loads) : Held u k :=
  ⟨by rw [loads, state]; exact h.reserved, by rw [loads, state]; exact h.granted⟩

/-- An outlet at rest in its new state, with nothing of it in any table. -/
theorem relay_idle {u : State} {k : OutletIx} (still : Still u k) (unlisted : Unlisted u k) (unreserved : Unreserved u k)
    (moving : movingDir u.outlets[k].state = none) (await : u.outlets[k].state ≠ .awaitClose)
    (owner : u.outlets[k].owner = none) (pending : u.outlets[k].pending = none)
    (wholeFrame : u.outlets[k].wholeFrame = true → u.outlets[k].state = .on)
    (faultKind : u.outlets[k].faultKind ≠ none ↔ u.outlets[k].state = .fault) : Relay u k :=
  { still.served, unlisted.listed await, unreserved.held (fun h => by rw [h] at moving; cases moving) with
    requests := requests_idle moving await owner pending wholeFrame faultKind
    moving := by rw [still.move, moving]; rfl }

/-- R56, R61: a close joins the queue. -/
theorem enqueue_requested {s : State} {k : OutletIx} {w : Owner} (cls : ClassNo)
    (state : s.outlets[k].state = .off ∨ s.outlets[k].state = .resting) (own : MayOwn s k w) :
    Requested k s (s.enqueue k cls w) := by
  have only := enqueue_only s k cls w
  have outlet := enqueue_outlet s k cls w
  refine ⟨only, by rw [outlet], fun h => (by rw [outlet] at h; cases h), fun h => (by rw [outlet] at h; cases h), enqueue_from s k cls w, fun a => ?_⟩
  have relay := a.relay k trivial
  have moving : movingDir s.outlets[k].state = none := by rcases state with h | h <;> rw [h] <;> rfl
  have ne {st : OutletState} (off : st ≠ .off) (rest : st ≠ .resting) : s.outlets[k].state ≠ st := by
    rcases state with h | h <;> rw [h] <;> exact Ne.symm ‹_›
  have still : Still (s.enqueue k cls w) k := (relay.toServed.still (relay.moving.trans moving)).congr rfl rfl rfl
  have unlisted := relay.toListed.unlisted (ne OutletState.noConfusion OutletState.noConfusion)
  have unreserved : Unreserved (s.enqueue k cls w) k := relay.toHeld.unreserved
    (ne OutletState.noConfusion OutletState.noConfusion) (ne OutletState.noConfusion OutletState.noConfusion)
  refine (a.butOutlet k).repair only { still.served, enqueue_listed unlisted cls w, unreserved.held (by
    rw [outlet]; exact OutletState.noConfusion) with requests := ?_, moving := ?_ } ?_ (enqueue_tables a.tables unlisted cls w)
  · rw [outlet]
    refine requests_carried (.inl rfl) rfl ?_ (relay.requests.wholeFrame_false (ne OutletState.noConfusion OutletState.noConfusion))
      (relay.requests.faultKind_none (ne OutletState.noConfusion OutletState.noConfusion))
    rw [pendingAgrees, relay.requests.pending_none moving]
    trivial
  · rw [still.move, outlet]
    rfl
  · refine (a.member k).request (by rw [outlet]) only.cycles (fun v hv => ?_) fun q hq => ?_
    · rw [outlet] at hv
      exact .inr (Option.some.inj hv ▸ own)
    · rw [outlet] at hq
      exact .inl hq

/-- An entry leaves the queue, and its outlet is OFF without owner (R58, R64). -/
def State.unqueued (s : State) (k : OutletIx) : State :=
  ((s.dequeue k).enter k .off).modOutlet k fun o => { o with owner := none }

theorem unqueued_outlet (s : State) (k : OutletIx) : (s.unqueued k).outlets[k] =
    { s.outlets[k] with state := .off, lastChange := s.partTime, owner := none } := by
  rw [State.unqueued, State.modOutlet, upd_same, State.enter, State.modOutlet, upd_same, dequeue_same]
  rfl

theorem unqueued_only (s : State) (k : OutletIx) : Only k s (s.unqueued k) :=
  (dequeue_only s k).trans ((enter_only _ k _).trans (modOutlet_only _ k _))

theorem unqueued_requested {s : State} {k : OutletIx} (state : s.outlets[k].state = .awaitClose) :
    Requested k s (s.unqueued k) := by
  have only := unqueued_only s k
  have outlet := unqueued_outlet s k
  have same : s.unqueued k = { s with
      queue := (s.dequeue k).queue, scanDue := (s.dequeue k).scanDue, outlets := (s.unqueued k).outlets } := by
    unfold State.unqueued
    rw [dequeue_same]
    rfl
  refine ⟨only, by rw [outlet], fun h => (by rw [outlet] at h; cases h), fun h => (by rw [outlet] at h; cases h), ?_, fun a => ?_⟩
  · exact .of_sub (fun x hx => by rw [same] at hx; exact (List.mem_filter.mp (dequeue_queue s k ▸ hx)).1) (by rw [same, dequeue_same])
  have relay := a.relay k trivial
  have moving : movingDir s.outlets[k].state = none := by rw [state]; rfl
  have ne {st : OutletState} (h : st ≠ .awaitClose) : s.outlets[k].state ≠ st := state ▸ h.symm
  have still : Still (s.unqueued k) k := (relay.toServed.still (relay.moving.trans moving)).congr (by rw [same]) (by rw [same])
    (by rw [same])
  have unreserved : Unreserved (s.unqueued k) k := by
    rw [same]
    exact relay.toHeld.unreserved (ne OutletState.noConfusion) (ne OutletState.noConfusion)
  have unlisted : Unlisted (s.unqueued k) k := by
    rw [same]
    exact dequeue_unlisted s k
  refine (a.butOutlet k).repair only (relay_idle still unlisted unreserved ?_ ?_ ?_ ?_ ?_ ?_) ?_ ?_
  · rw [outlet]; rfl
  · rw [outlet]; exact OutletState.noConfusion
  · rw [outlet]
  · rw [outlet]; exact relay.requests.pending_none moving
  · rw [outlet]
    exact fun h => absurd (relay.requests.wholeFrame h) (ne OutletState.noConfusion)
  · rw [outlet]
    exact iff_of_false (fun h => h (relay.requests.faultKind_none (ne OutletState.noConfusion))) OutletState.noConfusion
  · refine (a.member k).request (by rw [outlet]) only.cycles (fun v hv => ?_) fun q hq => ?_
    · rw [outlet] at hv; cases hv
    · rw [outlet] at hq; exact .inl hq
  · exact (dequeue_tables a.tables k).congr (by rw [same]) (by rw [same, dequeue_same]) (by rw [same, dequeue_same])
      (by rw [same, dequeue_same])

theorem leaveQueue_eq (s : State) (k : OutletIx) (r : MemberOutcome) :
    s.leaveQueue k r = (s.unqueued k, s.ownerReply k r) := rfl

theorem upd_comp {α : Type} {n : Nat} (v : Vector α n) (i : Fin n) (f g : α → α) :
    upd (upd v i f) i g = upd v i fun x => g (f x) := by
  refine vector_ext _ _ fun j => ?_
  by_cases h : j = i
  · subst h
    rw [upd_same, upd_same, upd_same]
  · rw [upd_other _ _ h, upd_other _ _ h, upd_other _ _ h]

theorem modOutlet_congr {s : State} {k : OutletIx} {f g : Outlet → Outlet} (h : f s.outlets[k] = g s.outlets[k]) :
    s.modOutlet k f = s.modOutlet k g := by rw [State.modOutlet, State.modOutlet, upd, upd, h]

/-- A change of the owner and the pending request of an outlet in movement. -/
theorem retarget_requested {s : State} {k : OutletIx} {w : Owner} {q : Option PendingReq}
    (state : s.outlets[k].state = .closing ∨ s.outlets[k].state = .opening)
    (own : s.outlets[k].owner = some w ∨ MayOwn s k w)
    (agrees : pendingAgrees { s.outlets[k] with owner := some w, pending := q }) (ownPending : ∀ p, q = some p → MayOwn s k p.owner) :
    Requested k s (s.modOutlet k fun o => { o with owner := some w, pending := q }) := by
  have only := modOutlet_only s k fun o => { o with owner := some w, pending := q }
  have outlet : (s.modOutlet k fun o => { o with owner := some w, pending := q }).outlets[k] =
    { s.outlets[k] with owner := some w, pending := q } := upd_same _ _ _
  have ne {st : OutletState} (h : st ≠ .closing) (h' : st ≠ .opening) : s.outlets[k].state ≠ st := by
    rcases state with g | g <;> rw [g] <;> exact Ne.symm ‹_›
  refine ⟨only, by rw [outlet], fun h => by rwa [outlet] at h, fun h => by rwa [outlet] at h, .refl s, fun a => ?_⟩
  have relay := a.relay k trivial
  have await : s.outlets[k].state ≠ .awaitClose := ne OutletState.noConfusion OutletState.noConfusion
  have unlisted : Unlisted (s.modOutlet k fun o => { o with owner := some w, pending := q }) k := relay.toListed.unlisted await
  have served : Served (s.modOutlet k fun o => { o with owner := some w, pending := q }) k :=
    relay.toServed.congr (by rw [outlet]) rfl rfl rfl
  have held : Held (s.modOutlet k fun o => { o with owner := some w, pending := q }) k :=
    relay.toHeld.congr (by rw [outlet]) rfl
  refine (a.butOutlet k).repair only { served, unlisted.listed (by rwa [outlet]), held with requests := ?_, moving := ?_ }
    ?_ (a.tables.congr rfl rfl rfl rfl)
  · rw [outlet]
    exact requests_carried (.inr state) rfl agrees
      (relay.requests.wholeFrame_false (ne OutletState.noConfusion OutletState.noConfusion))
      (relay.requests.faultKind_none (ne OutletState.noConfusion OutletState.noConfusion))
  · rw [outlet]; exact relay.moving
  · refine (a.member k).request (by rw [outlet]) only.cycles (fun v hv => ?_) fun p hp => ?_
    · rw [outlet] at hv
      exact Option.some.inj hv ▸ own
    · rw [outlet] at hp
      exact .inr (ownPending p hp)

/-- R53: an order, or the record, takes over the movement in its direction; a pending request is dropped (R54). -/
theorem takeOver_requested {s : State} {k : OutletIx} {w : Owner}
    (state : s.outlets[k].state = .closing ∨ s.outlets[k].state = .opening) (own : MayOwn s k w) :
    Requested k s ((s.replaceOwner k w).1.setPending k none).1 := by
  have same : ((s.replaceOwner k w).1.setPending k none).1 = s.modOutlet k fun o => { o with owner := some w, pending := none } := by
    simp only [State.replaceOwner, State.setPending, State.modOutlet, upd_comp]
  rw [same]
  exact retarget_requested state (.inr own) trivial fun _ h => nomatch h

/-- R54: a request against the movement is held. -/
theorem setPending_requested {s : State} {k : OutletIx} {q : PendingReq}
    (state : s.outlets[k].state = .closing ∧ q.dir = .toOpen ∨ s.outlets[k].state = .opening ∧ q.dir = .toClosed)
    (own : MayOwn s k q.owner) : Requested k s (s.setPending k (some q)).1 := by
  cases howner : s.outlets[k].owner with
  | none =>
    refine ⟨modOutlet_only _ _ _, ?_, ?_, ?_, .refl s, fun a => ?_⟩
    · rw [State.setPending, State.modOutlet, upd_same]
    · rw [State.setPending, State.modOutlet, upd_same]
      exact id
    · rw [State.setPending, State.modOutlet, upd_same]
      exact id
    · refine absurd howner ((a.relay k trivial).requests.owned.mpr ?_)
      exact state.elim (fun h => .inr (.inl h.1)) fun h => .inr (.inr h.1)
  | some w =>
    have same : (s.setPending k (some q)).1 = s.modOutlet k fun o => { o with owner := some w, pending := some q } :=
      modOutlet_congr (by rw [← howner])
    rw [same]
    refine retarget_requested (state.imp And.left And.left) (.inl howner) ?_ fun p hp => Option.some.inj hp ▸ own
    rcases state with ⟨h, hd⟩ | ⟨h, hd⟩ <;> cases q <;> first | exact h | cases hd

/-- R57, R107: the newer owner of an outlet in AWAIT_CLOSE holds its entry too. -/
theorem reown_requested {s : State} {k : OutletIx} {w : Owner} (state : s.outlets[k].state = .awaitClose)
    (own : MayOwn s k w) : Requested k s ((s.replaceOwner k w).1.reown k w) := by
  have only : Only k s ((s.replaceOwner k w).1.reown k w) := (modOutlet_only s k _).trans (reown_only _ k w)
  have outlet : ((s.replaceOwner k w).1.reown k w).outlets[k] = { s.outlets[k] with owner := some w } := upd_same _ _ _
  have queue : ((s.replaceOwner k w).1.reown k w).queue = s.queue.map (reownEntry k w) := rfl
  refine ⟨only, by rw [outlet], fun h => by rwa [outlet] at h, fun h => by rwa [outlet] at h, reown_from _ k w, fun a => ?_⟩
  have relay := a.relay k trivial
  have served : Served ((s.replaceOwner k w).1.reown k w) k := relay.toServed.congr (by rw [outlet]) rfl rfl rfl
  have held : Held ((s.replaceOwner k w).1.reown k w) k := relay.toHeld.congr (by rw [outlet]) rfl
  have tables : Tables (s.replaceOwner k w).1 := a.tables.congr rfl rfl rfl rfl
  refine (a.butOutlet k).repair only { served, held with queued := ?_, queueOwner := ?_, requests := ?_, moving := ?_ } ?_
    (reown_tables tables k w)
  · rw [queue, outlet, ← relay.queued]
    constructor
    · rintro ⟨e, he, hk⟩
      obtain ⟨x, hx, rfl⟩ := List.mem_map.mp he
      exact ⟨x, hx, (reownEntry_key k w x).1 ▸ hk⟩
    · rintro ⟨x, hx, hk⟩
      exact ⟨_, List.mem_map_of_mem hx, (reownEntry_key k w x).1.trans hk⟩
  · intro e he hk
    rw [queue] at he
    obtain ⟨x, hx, rfl⟩ := List.mem_map.mp he
    rw [outlet, reownEntry_same ((reownEntry_key k w x).1 ▸ hk)]
  · rw [outlet]
    exact requests_carried (.inl state) rfl relay.requests.pending
      (relay.requests.wholeFrame_false (state ▸ OutletState.noConfusion))
      (relay.requests.faultKind_none (state ▸ OutletState.noConfusion))
  · rw [outlet]; exact relay.moving
  · refine (a.member k).request (by rw [outlet]) only.cycles (fun v hv => ?_) fun p hp => ?_
    · rw [outlet] at hv
      exact .inr (Option.some.inj hv ▸ own)
    · rw [outlet] at hp
      exact .inl hp

/-! ### OPENING (R59) -/

theorem enterOpening_only (s : State) (k : OutletIx) (w : Owner) : Only k s (s.enterOpening k w) :=
  (enter_only s k _).trans ((modOutlet_only _ k _).trans ((release_only _ k).trans
    ((modOutlet_only _ k _).trans (needDriver_only _ k _ _))))

/-- The state in which the open request of R59 reaches the relay driver. -/
def State.openAsked (s : State) (k : OutletIx) (w : Owner) : State :=
  (((s.enter k .opening).modOutlet k fun o => { o with owner := some w, wholeFrame := false }).release k).modOutlet k
    fun o => { o with retry := false }

theorem enterOpening_eq (s : State) (k : OutletIx) (w : Owner) :
    s.enterOpening k w = (s.openAsked k w).needDriver k .toOpen false := rfl

theorem openAsked_outlet (s : State) (k : OutletIx) (w : Owner) : (s.openAsked k w).outlets[k] =
    { s.outlets[k] with
      state := .opening, lastChange := s.partTime, owner := some w, wholeFrame := false, retry := false } := by
  rw [State.openAsked, State.modOutlet, upd_same, release_same, State.modOutlet, upd_same, State.enter, State.modOutlet, upd_same]

theorem openAsked_same (s : State) (k : OutletIx) (w : Owner) : s.openAsked k w = { s with
    loads := (s.openAsked k w).loads, scanDue := (s.openAsked k w).scanDue, outlets := (s.openAsked k w).outlets } := by
  rw [State.openAsked, release_same]
  rfl

theorem enterOpening_requested {s : State} {k : OutletIx} {w : Owner} (state : s.outlets[k].state = .on) (own : MayOwn s k w) :
    Requested k s (s.enterOpening k w) := by
  have only := enterOpening_only s k w
  obtain ⟨v, kept⟩ := needDriver_outlet (s.openAsked k w) k .toOpen false
  rw [openAsked_outlet, ← enterOpening_eq] at kept
  refine ⟨only, by rw [kept], fun h => (by rw [kept] at h; cases h), fun h => (by rw [kept] at h; cases h), ?_, fun a => ?_⟩
  · have queue : (s.enterOpening k w).queue = s.queue := by rw [enterOpening_eq, needDriver_same, openAsked_same]
    exact .of_sub (fun x hx => queue ▸ hx) (by rw [enterOpening_eq, needDriver_same, openAsked_same])
  have relay := a.relay k trivial
  have ne {st : OutletState} (h : st ≠ .on) : s.outlets[k].state ≠ st := state ▸ h.symm
  have moving : movingDir s.outlets[k].state = none := by rw [state]; rfl
  have still : Still (s.openAsked k w) k := (relay.toServed.still (relay.moving.trans moving)).congr (by rw [openAsked_same])
    (by rw [openAsked_same]) (by rw [openAsked_same])
  obtain ⟨served, dir⟩ := needDriver_served still.toUnheld .toOpen false
  have drives := needDriver_same (s.openAsked k w) k .toOpen false
  rw [← enterOpening_eq] at served dir drives
  have unlisted : Unlisted (s.enterOpening k w) k := by
    rw [drives, openAsked_same]
    exact relay.toListed.unlisted (ne OutletState.noConfusion)
  have unreserved : Unreserved (s.enterOpening k w) k := by
    rw [drives]
    exact release_unreserved _ k
  refine (a.butOutlet k).repair only { served, unlisted.listed (by rw [kept]; exact OutletState.noConfusion),
    unreserved.held (by rw [kept]; exact OutletState.noConfusion) with requests := ?_, moving := ?_ } ?_ ?_
  · rw [kept]
    refine requests_carried (.inr (.inr rfl)) rfl ?_ rfl (relay.requests.faultKind_none (ne OutletState.noConfusion))
    rw [pendingAgrees, relay.requests.pending_none moving]
    trivial
  · rw [dir, kept]
    rfl
  · refine (a.member k).request (by rw [kept]) only.cycles (fun v hv => ?_) fun p hp => ?_
    · rw [kept] at hv
      exact .inr (Option.some.inj hv ▸ own)
    · rw [kept] at hp
      exact .inl hp
  · have tables : Tables (s.openAsked k w) := a.tables.congr (by rw [openAsked_same]) (by rw [openAsked_same])
      (by rw [openAsked_same]) (by rw [openAsked_same])
    exact needDriver_tables tables still.toUnheld .toOpen false

/-! ### Marks (R128) -/

theorem clearMark_only (s : State) (k : OutletIx) : Only k s (s.clearMark k) :=
  { modOutlet_only s k fun o => { o with shedMark := false } with }

theorem clearMark_view (s : State) (k : OutletIx) : SameView s (s.clearMark k) :=
  { modOutlet_view (s := s) (k := k) (f := fun o => { o with shedMark := false }) ⟨rfl, rfl, rfl, rfl, rfl, rfl⟩ rfl with }

theorem clearMark_outlet (s : State) (k : OutletIx) : (s.clearMark k).outlets[k] = { s.outlets[k] with shedMark := false } :=
  upd_same _ _ _

theorem clearMark_requested (s : State) (k : OutletIx) : Requested k s (s.clearMark k) :=
  ⟨clearMark_only s k, by rw [clearMark_outlet], fun h => by rwa [clearMark_outlet] at h,
    fun h => by rwa [clearMark_outlet] at h, .refl s, fun a => a.view (clearMark_view s k)⟩

/-! ### Requests by state (R55 to R62) -/

theorem ownedByMember_iff {o : Outlet} {w : Owner} : o.ownedByMember w = true ↔ ∃ c, o.cycle = some c ∧ w = .cycle c := by
  unfold Outlet.ownedByMember
  cases o.cycle with
  | none => exact iff_of_false Bool.false_ne_true fun ⟨_, h, _⟩ => nomatch h
  | some c =>
    rw [beq_iff_eq]
    exact ⟨fun h => ⟨c, rfl, h⟩, fun ⟨_, hc, h⟩ => Option.some.inj hc ▸ h⟩

theorem closeByState_requested {s : State} {k : OutletIx} {w : Owner} (cls : ClassNo) (own : MayOwn s k w) :
    Requested k s (s.closeByState k cls w).1 := by
  cases state : s.outlets[k].state with
  | off =>
    simp only [State.closeByState, state]
    exact enqueue_requested cls (.inl state) own
  | awaitClose =>
    simp only [State.closeByState, state]
    exact reown_requested state own
  | closing =>
    simp only [State.closeByState, state]
    exact takeOver_requested (.inl state) own
  | opening =>
    simp only [State.closeByState, state]
    exact setPending_requested (q := .cls cls w) (.inr ⟨state, rfl⟩) own
  | resting =>
    simp only [State.closeByState, state]
    split
    · exact enqueue_requested cls (.inr state) own
    · exact .refl k s
  | on | fault | unknown =>
    simp only [State.closeByState, state]
    exact .refl k s

theorem openByState_requested {s : State} {k : OutletIx} {w : Owner} (own : MayOwn s k w) :
    Requested k s (s.openByState k w).1 := by
  cases state : s.outlets[k].state with
  | awaitClose =>
    simp only [State.openByState, state]
    exact unqueued_requested state
  | closing =>
    simp only [State.openByState, state]
    exact setPending_requested (q := .opn w) (.inl ⟨state, rfl⟩) own
  | opening =>
    simp only [State.openByState, state]
    exact takeOver_requested (.inr state) own
  | on =>
    simp only [State.openByState, state]
    exact enterOpening_requested state own
  | resting =>
    simp only [State.openByState, state]
    split <;> exact .refl k s
  | off | fault | unknown =>
    simp only [State.openByState, state]
    exact .refl k s

/-- A request of an order, or one whose owner the membership allows, keeps the agreement. -/
theorem requestClose_requested {s : State} {k : OutletIx} {w : Owner} (cls : ClassNo)
    (own : (∃ e, w = .order e) ∨ MayOwn s k w) : Requested k s (s.requestClose k cls w).1 := by
  cases w with
  | order e =>
    simp only [State.requestClose]
    split
    case isTrue => exact clearMark_requested s k
    case isFalse out =>
      refine (clearMark_requested s k).trans (closeByState_requested cls fun c hc => ?_)
      rw [clearMark_outlet] at hc
      rw [hc] at out
      exact absurd rfl out
  | cycle _ | shed _ | restore _ =>
    simp only [State.requestClose]
    exact closeByState_requested cls (own.resolve_left fun ⟨_, h⟩ => nomatch h)

theorem requestOpen_requested {s : State} {k : OutletIx} {w : Owner} (own : (∃ e, w = .order e) ∨ MayOwn s k w) :
    Requested k s (s.requestOpen k w).1 := by
  cases w with
  | order e =>
    simp only [State.requestOpen]
    split
    case isTrue => exact clearMark_requested s k
    case isFalse out =>
      refine (clearMark_requested s k).trans (openByState_requested fun c hc => ?_)
      rw [clearMark_outlet] at hc
      rw [hc] at out
      exact absurd rfl out
  | cycle _ | shed _ | restore _ =>
    simp only [State.requestOpen]
    exact openByState_requested (own.resolve_left fun ⟨_, h⟩ => nomatch h)

/-- A CLOSE from its record takes a participant out of its rest (R61). -/
theorem requestClose_leaves_rest {s : State} {k : OutletIx} {c : RecNo} (cls : ClassNo) (member : s.outlets[k].cycle = some c) :
    (s.requestClose k cls (.cycle c)).1.outlets[k].state ≠ .resting := by
  simp only [State.requestClose]
  intro rest
  have own : MayOwn s k (.cycle c) := fun d hd => Option.some.inj (member.symm.trans hd) ▸ rfl
  have state := (closeByState_requested cls own).rest rest
  simp only [State.closeByState, state, if_pos (ownedByMember_iff.mpr ⟨c, member, rfl⟩)] at rest
  rw [enqueue_outlet] at rest
  cases rest

/-! ### Requests of one owner, one after another -/

/-- What requests on several outlets leave and keep. -/
structure RequestedAll (s u : State) : Prop where
  noneBegins : NoneBegins s u
  queue : QueueFrom s u
  agrees : Agrees everyOutlet s → Agrees everyOutlet u

theorem RequestedAll.refl (s : State) : RequestedAll s s := ⟨.refl s, .refl s, id⟩

theorem RequestedAll.trans {s u v : State} (h : RequestedAll s u) (g : RequestedAll u v) : RequestedAll s v :=
  ⟨h.noneBegins.trans g.noneBegins, h.queue.trans g.queue, g.agrees ∘ h.agrees⟩

theorem Requested.all {k : OutletIx} {s u : State} (h : Requested k s u) : RequestedAll s u := ⟨h.noneBegins, h.queue, h.agrees⟩

theorem RequestedAll.control {s u : State} (h : RequestedAll s u) (control : Control s) : Control u := by
  obtain ⟨agrees, rests⟩ := control_iff.mp control
  exact control_iff.mpr ⟨h.agrees agrees, fun j => h.noneBegins.rests (rests j)⟩

/-- The requests of a fold, when each is one on its outlet whatever the requests before it have done. -/
theorem requestedAll_foldl {f : State → OutletIx → State × List Reply} {ks : List OutletIx} {s : State}
    (h : ∀ u, NoneBegins s u → ∀ k ∈ ks, Requested k u (f u k).1) (replies : List Reply) :
    RequestedAll s (ks.foldl (fun a k => ((f a.1 k).1, a.2 ++ (f a.1 k).2)) (s, replies)).1 := by
  induction ks generalizing s replies with
  | nil => exact .refl s
  | cons k ks ih =>
    have first := (h s (.refl s) k List.mem_cons_self).all
    exact first.trans (ih (fun u hu j hj => h u (first.noneBegins.trans hu) j (List.mem_cons_of_mem _ hj)) _)

theorem MayOwn.later {s u : State} {k : OutletIx} {w : Owner} (h : MayOwn s k w) (g : NoneBegins s u) : MayOwn u k w :=
  fun c hc => h c (g.cycle k ▸ hc)

theorem sendCloses_requested {s : State} {ks : List OutletIx} {w : Owner} (cls : ClassNo)
    (own : (∃ e, w = .order e) ∨ ∀ k ∈ ks, MayOwn s k w) : RequestedAll s (s.sendCloses ks cls w).1 :=
  requestedAll_foldl (f := fun s k => s.requestClose k cls w)
    (fun _ hu k hk => requestClose_requested cls (own.imp_right fun h => (h k hk).later hu)) []

theorem sendOpens_requested {s : State} {ks : List OutletIx} {w : Owner}
    (own : (∃ e, w = .order e) ∨ ∀ k ∈ ks, MayOwn s k w) : RequestedAll s (s.sendOpens ks w).1 :=
  requestedAll_foldl (f := fun s k => s.requestOpen k w)
    (fun _ hu k hk => requestOpen_requested (own.imp_right fun h => (h k hk).later hu)) []

/-- The CLOSE requests of a record leave none of the participants they are sent to at rest. -/
theorem sendCloses_leaves_rest {s : State} {ks : List OutletIx} {c : RecNo} (cls : ClassNo)
    (members : ∀ k ∈ ks, s.outlets[k].cycle = some c) :
    ∀ k ∈ ks, (s.sendCloses ks cls (.cycle c)).1.outlets[k].state ≠ .resting := by
  unfold State.sendCloses
  generalize [] = replies
  induction ks generalizing s replies with
  | nil => exact fun _ h => nomatch h
  | cons k ks ih =>
    intro j hj rest
    have own : MayOwn s k (.cycle c) := fun d hd => Option.some.inj ((members k List.mem_cons_self).symm.trans hd) ▸ rfl
    have first := (requestClose_requested cls (.inr own)).noneBegins
    have members' : ∀ i ∈ ks, (s.requestClose k cls (.cycle c)).1.outlets[i].cycle = some c := fun i hi =>
      (first.cycle i).trans (members i (List.mem_cons_of_mem _ hi))
    rcases List.mem_cons.mp hj with rfl | hj
    · have later : RequestedAll _ _ := requestedAll_foldl (f := fun s k => s.requestClose k cls (.cycle c))
        (fun u hu i hi => requestClose_requested cls (.inr fun d hd =>
          Option.some.inj ((members' i hi).symm.trans ((hu.cycle i).symm.trans hd)) ▸ rfl)) (replies ++ (s.requestClose j cls (.cycle c)).2)
      exact requestClose_leaves_rest cls (members j List.mem_cons_self) (later.noneBegins.state j rest)
    · exact ih members' _ j hj rest

end Sys2Proof.Machine
end

section
/-! PROOF. The cycle controller and the delivery of member outcomes keep the agreement of the outlets (R52, R132 to R149). -/
namespace Sys2Proof.Machine

open Sys2Proof.Safety

/-! ### Blocks that the agreement does not look at -/

theorem notice_view (s : State) (kind : NoticeKind) (subject reason : Nat) (value : Word) :
    SameView s (s.notice kind subject reason value) := by
  have same := notice_same s kind subject reason value
  generalize s.notice kind subject reason value = u at same ⊢
  rw [same]
  exact .of_tables rfl rfl rfl rfl rfl rfl rfl rfl

theorem OrderOnly.view {s u : State} (h : OrderOnly s u) : SameView s u := by
  rw [h.same]
  exact .of_tables rfl rfl rfl rfl rfl rfl rfl rfl

theorem finishOrder_view (s : State) (e : SlotNo) (r : OrderResult) : SameView s (s.finishOrder e r) :=
  (finishOrder_orderOnly s e r).view

theorem setOrder_view (s : State) (e : SlotNo) (x : Option OrderEntry) : SameView s (s.setOrder e x) :=
  .of_tables rfl rfl rfl rfl rfl rfl rfl rfl

theorem modShed_view (s : State) (b : Branch) (f : ShedRec → ShedRec) : SameView s (s.modShed b f) :=
  .of_tables rfl rfl rfl rfl rfl rfl rfl rfl

theorem modWatch_view (s : State) (w : WatchNo) (f : WatchRec → WatchRec) : SameView s (s.modWatch w f) :=
  .of_tables rfl rfl rfl rfl rfl rfl rfl rfl

theorem orderReply_view (s : State) (e : SlotNo) (k : OutletIx) (r : MemberOutcome) : SameView s (s.orderReply e k r) := by
  unfold State.orderReply
  split
  · exact .refl s
  · dsimp only
    split
    · exact (setOrder_view s e _).trans (finishOrder_view _ e _)
    · exact setOrder_view s e _

theorem restoreReply_view (s : State) (b : Branch) (k : OutletIx) (r : MemberOutcome) : SameView s (s.restoreReply b k r) :=
  modShed_view s b _

theorem watchOutcome_view (s : State) (w : WatchNo) (r : OrderOutcome) : SameView s (s.watchOutcome w r) := by
  cases r with
  | done | canceled => exact modWatch_view s w _
  | partly | abandoned => exact (modWatch_view s w _).trans (notice_view _ _ _ _ _)
  | failed | merged | aborted | refused => exact .refl s

theorem tellOrigin_view (s : State) (c : RecNo) (r : CycleRec) (o : Origin) : SameView s (s.tellOrigin c r o) := by
  cases o with
  | order e _ => exact finishOrder_view s e _
  | watch w => exact watchOutcome_view s w _

/-! ### Steps that ask for no movement -/

/-- The memberships, the records and the rests agree. -/
structure Memberships (s : State) : Prop where
  member : ∀ k, Member s k
  records : Records s
  rests : ∀ k, Rests s k

/-- A step that leaves every outlet's requests and movement, and keeps memberships, records and rests in agreement. -/
structure Kept (s u : State) : Prop where
  relay : ∀ j, SameRelay s u j
  tables : Tables s → Tables u
  memberships : Memberships s → Memberships u
  cycle : ∀ (j : OutletIx) (c : RecNo), u.outlets[j].cycle = some c → s.outlets[j].cycle = some c
  arrival : u.nextArrival = s.nextArrival

theorem Kept.refl (s : State) : Kept s s := ⟨.refl s, id, id, fun _ _ => id, rfl⟩

theorem Kept.trans {s u v : State} (h : Kept s u) (g : Kept u v) : Kept s v :=
  ⟨fun j => (h.relay j).trans (g.relay j), g.tables ∘ h.tables, g.memberships ∘ h.memberships,
    fun j c => h.cycle j c ∘ g.cycle j c, g.arrival.trans h.arrival⟩

theorem Kept.of_view {s u : State} (h : SameView s u) : Kept s u where
  relay := h.relay
  tables := h.tables
  memberships m := ⟨fun k => h.member (m.member k), h.records m.records, fun k => h.rests (m.rests k)⟩
  cycle j c := by rw [(h.outlets j).2]; exact id
  arrival := h.nextArrival

end Sys2Proof.Machine

namespace Sys2Proof.Safety

open Sys2Proof.Machine

theorem Control.memberships {s : State} (h : Control s) : Memberships s := ⟨h.member, h.records, h.resting⟩

theorem Control.kept {s u : State} (control : Control s) (h : Kept s u) : Control u := by
  have m := h.memberships control.memberships
  exact control_of_parts (fun k => (control.relay k).congr (h.relay k)) m.member m.rests (h.tables control.tables) m.records

end Sys2Proof.Safety

namespace Sys2Proof.Machine

open Sys2Proof.Safety

/-! ### One cycle record -/

theorem modCycle_relay (s : State) (c : RecNo) (f : CycleRec → CycleRec) (j : OutletIx) : SameRelay s (s.modCycle c f) j :=
  { SameRelay.refl s j with }

theorem modCycle_participants {s : State} {c : RecNo} {f : CycleRec → CycleRec}
    (parts : (f s.cycles[c]).participants = s.cycles[c].participants) (d : RecNo) :
    (s.modCycle c f).cycles[d].participants = s.cycles[d].participants := by
  rw [State.modCycle, upd_at]
  split
  case isTrue h => exact h ▸ parts
  case isFalse => rfl

theorem modCycle_member {s : State} {c : RecNo} {f : CycleRec → CycleRec}
    (parts : (f s.cycles[c]).participants = s.cycles[c].participants) {j : OutletIx} (m : Member s j) :
    Member (s.modCycle c f) j where
  member d := by rw [modCycle_participants parts]; exact m.member d
  owner := m.owner
  pending := m.pending

theorem modCycle_records {s : State} {c : RecNo} {f : CycleRec → CycleRec}
    (parts : (f s.cycles[c]).participants = s.cycles[c].participants)
    (free : (f s.cycles[c]).state = .free → f s.cycles[c] = CycleRec.free) (r : Records s) : Records (s.modCycle c f) := by
  refine ⟨fun d => modCycle_participants parts d ▸ r.participants d, fun d => ?_⟩
  rw [State.modCycle, upd_at]
  split
  case isTrue h => exact h ▸ free
  case isFalse => exact r.free d

theorem modCycle_rests {s : State} {c : RecNo} {f : CycleRec → CycleRec}
    (keeps : s.cycles[c].state = .opening ∨ s.cycles[c].state = .resting →
      (f s.cycles[c]).state = .opening ∨ (f s.cycles[c]).state = .resting) {j : OutletIx} (r : Rests s j) :
    Rests (s.modCycle c f) j := by
  intro rest
  obtain ⟨d, hd, state⟩ := r rest
  refine ⟨d, hd, ?_⟩
  rw [State.modCycle, upd_at]
  split
  case isTrue h => exact h ▸ keeps (h ▸ state)
  case isFalse => exact state

theorem modCycle_agrees {P : OutletIx → Prop} {s : State} {c : RecNo} {f : CycleRec → CycleRec}
    (parts : (f s.cycles[c]).participants = s.cycles[c].participants)
    (free : (f s.cycles[c]).state = .free → f s.cycles[c] = CycleRec.free) (a : Agrees P s) : Agrees P (s.modCycle c f) :=
  ⟨fun k hk => (a.relay k hk).congr (modCycle_relay s c f k), fun k => modCycle_member parts (a.member k),
    a.tables.congr rfl rfl rfl rfl, modCycle_records parts free a.records⟩

theorem modCycle_kept {s : State} {c : RecNo} {f : CycleRec → CycleRec}
    (parts : (f s.cycles[c]).participants = s.cycles[c].participants)
    (free : Records s → (f s.cycles[c]).state = .free → f s.cycles[c] = CycleRec.free)
    (keeps : s.cycles[c].state = .opening ∨ s.cycles[c].state = .resting →
      (f s.cycles[c]).state = .opening ∨ (f s.cycles[c]).state = .resting) : Kept s (s.modCycle c f) where
  relay := modCycle_relay s c f
  tables t := t.congr rfl rfl rfl rfl
  memberships m := ⟨fun k => modCycle_member parts (m.member k), modCycle_records parts (free m.records) m.records,
    fun k => modCycle_rests keeps (m.rests k)⟩
  cycle _ _ := id
  arrival := rfl

/-- A record that runs changes without a change of its state and participants. -/
theorem modCycle_running {s : State} {c : RecNo} {f : CycleRec → CycleRec}
    (parts : (f s.cycles[c]).participants = s.cycles[c].participants) (state : (f s.cycles[c]).state = s.cycles[c].state)
    (runs : s.cycles[c].state ≠ .free) : Kept s (s.modCycle c f) :=
  modCycle_kept parts (fun _ h => absurd (state.symm.trans h) runs) fun h => state.symm ▸ h

/-! ### The end of a record (R145) -/

theorem foldl_modOutlet {f : Outlet → Outlet} (idem : ∀ o, f (f o) = f o) (ks : List OutletIx) (s : State) :
    ks.foldl (fun s k => s.modOutlet k f) s =
      { s with outlets := tab fun j => if j ∈ ks then f s.outlets[j] else s.outlets[j] } := by
  induction ks generalizing s with
  | nil =>
    have same : (tab fun j => if j ∈ ([] : List OutletIx) then f s.outlets[j] else s.outlets[j]) = s.outlets :=
      vector_ext _ _ fun j => by rw [tab_at, if_neg List.not_mem_nil]
    rw [same]
    rfl
  | cons k ks ih =>
    rw [List.foldl_cons, ih]
    have same : (tab fun j => if j ∈ ks then f (s.modOutlet k f).outlets[j] else (s.modOutlet k f).outlets[j]) =
        tab fun j => if j ∈ k :: ks then f s.outlets[j] else s.outlets[j] := by
      refine vector_ext _ _ fun j => ?_
      rw [tab_at, tab_at, State.modOutlet_outlets, upd_at]
      by_cases hj : j = k
      · simp only [hj, List.mem_cons_self, if_true, idem, ite_self]
      · simp only [hj, List.mem_cons, false_or, if_false]
    rw [same]
    rfl

/-- The end of a record: its memberships, what its origins are told, and the record. -/
theorem endRecord_eq (s : State) (c : RecNo) : ∃ v : State, SameView { s with
      outlets := tab fun j => if j ∈ s.cycles[c].participants then { s.outlets[j] with cycle := none } else s.outlets[j] } v ∧
    s.endRecord c = v.modCycle c fun _ => CycleRec.free := by
  refine ⟨_, ?_, rfl⟩
  rw [foldl_modOutlet (f := fun o => { o with cycle := none }) fun _ => rfl]
  exact .foldl (fun s o => tellOrigin_view s c _ o) _ _

/-- A record in CLOSING or RESTORING ends, and nothing moves. -/
theorem endRecord_kept {s : State} {c : RecNo} (state : s.cycles[c].state = .closing ∨ s.cycles[c].state = .restoring) :
    Kept s (s.endRecord c) := by
  obtain ⟨v, view, ended⟩ := endRecord_eq s c
  have outlet (j : OutletIx) : SameRequests s.outlets[j] v.outlets[j] ∧
      v.outlets[j].cycle = if j ∈ s.cycles[c].participants then none else s.outlets[j].cycle := by
    obtain ⟨same, cycle⟩ := view.outlets j
    rw [tab_at] at same cycle
    split at same
    · exact ⟨⟨same.state, same.owner, same.pending, same.unverified, same.wholeFrame, same.faultKind⟩, by
        rw [cycle]; simp only [if_pos, *]⟩
    · exact ⟨same, by rw [cycle]; simp only [if_false, *]⟩
  have freed : (v.modCycle c fun _ => CycleRec.free).cycles[c] = CycleRec.free := upd_same _ _ _
  have other {d : RecNo} (h : d ≠ c) : (v.modCycle c fun _ => CycleRec.free).cycles[d] = v.cycles[d] := upd_other _ _ h
  rw [ended]
  refine ⟨fun j => ?_, fun t => t.congr view.queue view.nextArrival view.drivers view.waitList, fun m => ⟨fun j => ?_, ?_, fun j => ?_⟩,
    fun j d hd => ?_, view.nextArrival⟩
  · exact { SameRelay.refl s j with
      outlet := (outlet j).1
      move := by rw [State.modCycle_moves, view.moves]
      queue := fun e _ => by rw [State.modCycle_queue, view.queue]
      wait := fun w _ => by rw [State.modCycle_waitList, view.waitList]
      drivers := fun d x _ => by rw [State.modCycle_drivers, view.drivers]
      loads := fun b r _ => by rw [State.modCycle_loads, view.loads] }
  · obtain ⟨same, cycle⟩ := outlet j
    have mem := m.member j
    refine ⟨fun d => ?_, fun d hd w hw => ?_, fun d hd q hq => ?_⟩
    · rw [State.modCycle_outlets, cycle]
      by_cases hd : d = c
      · rw [hd, freed]
        refine iff_of_false (fun h => ?_) List.not_mem_nil
        split at h
        case isTrue => cases h
        case isFalse out => exact out ((mem.member c).mp h)
      · rw [other hd, (view.cycles d).1, ← mem.member d]
        split
        case isTrue parts => rw [(mem.member c).mpr parts]; simp [Ne.symm hd]
        case isFalse => rfl
    all_goals
      rw [State.modCycle_outlets, cycle] at hd
      split at hd
      case isTrue => cases hd
    · exact mem.owner d hd w (same.owner ▸ hw)
    · exact mem.pending d hd q (same.pending ▸ hq)
  · refine ⟨fun d => ?_, fun d hf => ?_⟩ <;> by_cases hd : d = c
    · rw [hd, freed]; exact List.nodup_nil
    · rw [other hd, (view.cycles d).1]; exact m.records.participants d
    · rw [hd, freed]
    · rw [other hd] at hf ⊢
      rw [(view.cycles d).2.2 hf]
      exact m.records.free d ((view.cycles d).2.1 ▸ hf)
  · intro rest
    obtain ⟨d, hd, runs⟩ := m.rests j ((outlet j).1.state ▸ rest)
    have hdc : d ≠ c := by
      rintro rfl
      rcases state with h | h <;> rcases runs with g | g <;> exact CycleState.noConfusion (h.symm.trans g)
    have out : j ∉ s.cycles[c].participants := fun parts =>
      hdc (Option.some.inj (hd.symm.trans (((m.member j).member c).mpr parts)))
    refine ⟨d, ?_, ?_⟩
    · rw [State.modCycle_outlets, (outlet j).2, if_neg out, hd]
    · rw [other hdc, (view.cycles d).2.1]
      exact runs
  · rw [State.modCycle_outlets, (outlet j).2] at hd
    split at hd
    case isTrue => cases hd
    case isFalse => exact hd

theorem testEnd_kept (s : State) (c : RecNo) : Kept s (s.testEnd c) := by
  unfold State.testEnd
  dsimp only
  split
  case isTrue h => exact endRecord_kept h.1
  case isFalse => exact .refl s

/-- R138: the rest of a record that opens. -/
theorem testResting_kept (s : State) (c : RecNo) : Kept s (s.testResting c) := by
  unfold State.testResting
  split
  case isTrue => exact modCycle_kept rfl (fun _ h => nomatch h) fun _ => .inr rfl
  case isFalse => exact .refl s

/-! ### The closes of a record (R139, R142, R147) -/

/-- What work of the blocks leaves behind: the agreement, no outlet that began to close, and the queue's entries. -/
structure Sound (s u : State) : Prop where
  control : Control u
  closing : ∀ j : OutletIx, u.outlets[j].state = .closing → s.outlets[j].state = .closing
  queue : QueueFrom s u

theorem Sound.refl {s : State} (control : Control s) : Sound s s := ⟨control, fun _ => id, .refl s⟩

theorem Sound.trans {s u v : State} (h : Sound s u) (g : Sound u v) : Sound s v :=
  ⟨g.control, fun j => h.closing j ∘ g.closing j, h.queue.trans g.queue⟩

theorem Sound.kept {s u v : State} (h : Sound s u) (g : Kept u v) : Sound s v :=
  ⟨h.control.kept g, fun j close => h.closing j ((g.relay j).outlet.state ▸ close),
    h.queue.trans (.of_sub (fun x hx => ((g.relay x.outlet).queue x rfl).mp hx) g.arrival)⟩

theorem Sound.view {s u v : State} (h : Sound s u) (g : SameView u v) : Sound s v := h.kept (.of_view g)

/-- A record that opens or rests turns to closing its participants: those at rest are sent a CLOSE. -/
theorem recordCloses_sound {s : State} {c : RecNo} {f : CycleRec → CycleRec} {ks : List OutletIx} (cls : ClassNo)
    (control : Control s) (parts : (f s.cycles[c]).participants = s.cycles[c].participants)
    (active : (f s.cycles[c]).state ≠ .free) (sent : ∀ k ∈ ks, k ∈ s.cycles[c].participants)
    (rest : ∀ k ∈ s.cycles[c].participants, s.outlets[k].state = .resting → k ∈ ks) :
    Sound s ((s.modCycle c f).sendCloses ks cls (.cycle c)).1 := by
  obtain ⟨agrees, rests⟩ := control_iff.mp control
  have members : ∀ k ∈ ks, (s.modCycle c f).outlets[k].cycle = some c := fun k hk => (control.members k c).mpr (sent k hk)
  have requested := sendCloses_requested (s := s.modCycle c f) (ks := ks) (w := .cycle c) cls
    (.inr fun k hk d hd => Option.some.inj ((members k hk).symm.trans hd) ▸ rfl)
  refine ⟨control_iff.mpr ⟨requested.agrees (modCycle_agrees parts (fun h => absurd h active) agrees), fun j resting => ?_⟩,
    requested.noneBegins.closing, requested.queue⟩
  have before := requested.noneBegins.state j resting
  obtain ⟨d, hd, runs⟩ := rests j before
  have hdc : d ≠ c := by
    rintro rfl
    exact sendCloses_leaves_rest cls members j (rest j ((control.members j d).mp hd) before) resting
  refine ⟨d, (requested.noneBegins.cycle j).trans hd, ?_⟩
  rw [requested.noneBegins.cycles, State.modCycle, upd_other _ _ hdc]
  exact runs

theorem enterClosing_sound {s : State} (control : Control s) (c : RecNo) : Sound s (s.enterClosing c).1 :=
  recordCloses_sound _ control rfl (fun h => nomatch h) (fun _ => id) fun _ hk _ => hk

theorem enterRestoring_sound {s : State} (control : Control s) (c : RecNo) : Sound s (s.enterRestoring c).1 :=
  recordCloses_sound _ control rfl (fun h => nomatch h) (fun _ hk => (List.mem_filter.mp hk).1) fun _ hk rest =>
    List.mem_filter.mpr ⟨hk, bne_iff_ne.mpr (rest ▸ OutletState.noConfusion)⟩

theorem fail_kept (r : CycleRec) (k : OutletIx) :
    (r.fail k).participants = r.participants ∧ (r.fail k).state = r.state := by
  unfold CycleRec.fail
  split <;> exact ⟨rfl, rfl⟩

theorem fail_modCycle_kept {s : State} {c : RecNo} (runs : s.cycles[c].state ≠ .free) (k : OutletIx) :
    Kept s (s.modCycle c fun r => r.fail k) :=
  modCycle_running (fail_kept _ k).1 (fail_kept _ k).2 runs

theorem abandon_sound {s : State} {c : RecNo} (control : Control s) (runs : s.cycles[c].state ≠ .free) (k : OutletIx) :
    Sound s (s.abandon c k).1 := by
  have failed : Sound s ((s.modCycle c fun r => r.fail k).notice .cycleAbandoned c.val
      (optCode FaultKind.code s.outlets[k].faultKind) (BitVec.ofNat 32 (numberOf k))) :=
    ((Sound.refl control).kept (fail_modCycle_kept runs k)).view (notice_view _ _ _ _ _)
  exact (failed.trans (enterRestoring_sound failed.control c)).kept (testEnd_kept _ c)

/-! ### A member outcome at its record (R137 to R142) -/

/-- An OK asks for nothing. -/
theorem cycleReply_ok (s : State) (c : RecNo) (k : OutletIx) (d : Dir) :
    Kept s (s.cycleReply c k d .ok).1 ∧ (s.cycleReply c k d .ok).2 = [] := by
  unfold State.cycleReply
  split
  · exact ⟨.refl s, rfl⟩
  · cases state : s.cycles[c].state with
    | opening => exact ⟨testResting_kept s c, rfl⟩
    | closing | restoring =>
      cases d with
      | toClosed =>
        refine ⟨(modCycle_running rfl rfl ?_).trans (testEnd_kept _ c), rfl⟩
        rw [state]
        exact CycleState.noConfusion
      | toOpen => exact ⟨.refl s, rfl⟩
    | free | resting => exact ⟨.refl s, rfl⟩

theorem cycleReply_sound {s : State} (control : Control s) (c : RecNo) (k : OutletIx) (d : Dir) (r : MemberOutcome) :
    Sound s (s.cycleReply c k d r).1 := by
  have refl := Sound.refl control
  have failed (h : s.cycles[c].state ≠ .free) : Sound s ((s.modCycle c fun r => r.fail k).testEnd c) :=
    refl.kept ((fail_modCycle_kept h k).trans (testEnd_kept _ c))
  by_cases ok : r = .ok
  · subst ok
    exact refl.kept (cycleReply_ok s c k d).1
  · unfold State.cycleReply
    split
    · exact refl
    · cases state : s.cycles[c].state with
      | opening | resting =>
        have runs : s.cycles[c].state ≠ .free := state ▸ CycleState.noConfusion
        cases r with
        | ok => exact absurd rfl ok
        | faulted => exact abandon_sound control runs k
        | skipped | superseded | patience | inCycle | unknownState => exact refl
      | closing =>
        have runs : s.cycles[c].state ≠ .free := state ▸ CycleState.noConfusion
        cases r with
        | ok => exact absurd rfl ok
        | faulted | patience => exact failed runs
        | skipped => exact refl.kept (modCycle_running rfl rfl runs)
        | superseded | inCycle | unknownState => exact refl
      | restoring =>
        have runs : s.cycles[c].state ≠ .free := state ▸ CycleState.noConfusion
        cases r with
        | ok => exact absurd rfl ok
        | faulted | patience => exact failed runs
        | skipped | superseded | inCycle | unknownState => exact refl
      | free => cases r <;> exact refl

/-! ### Delivery (R52) -/

theorem deliver_nil (fuel : Nat) (s : State) : deliver fuel [] s = s := by cases fuel <;> rfl

/-- What one delivered outcome does. -/
def deliverOne (fuel : Nat) (s : State) (r : Reply) : State :=
  match r.owner with
  | .order e => s.orderReply e r.outlet r.outcome
  | .shed _ => s
  | .restore b => s.restoreReply b r.outlet r.outcome
  | .cycle c => deliver fuel (s.cycleReply c r.outlet r.dir r.outcome).2 (s.cycleReply c r.outlet r.dir r.outcome).1

theorem deliver_succ (fuel : Nat) (rs : List Reply) (s : State) : deliver (fuel + 1) rs s = rs.foldl (deliverOne fuel) s := rfl

theorem deliver_sound (fuel : Nat) (rs : List Reply) {s : State} (control : Control s) : Sound s (deliver fuel rs s) := by
  induction fuel generalizing rs s with
  | zero => exact .refl control
  | succ fuel ih =>
    rw [deliver_succ]
    induction rs generalizing s with
    | nil => exact .refl control
    | cons r rs rest =>
      have one : Sound s (deliverOne fuel s r) := by
        unfold deliverOne
        cases r.owner with
        | order e => exact (Sound.refl control).view (orderReply_view s e _ _)
        | shed _ => exact .refl control
        | restore b => exact (Sound.refl control).view (restoreReply_view s b _ _)
        | cycle c =>
          have reply := cycleReply_sound control c r.outlet r.dir r.outcome
          exact reply.trans (ih _ reply.control)
      exact one.trans (rest one.control)

theorem settle_sound {s : State} {a : State × List Reply} (h : Sound s a.1) : Sound s (settle a) :=
  h.trans (deliver_sound _ _ h.control)

theorem settle_control {a : State × List Reply} (control : Control a.1) : Control (settle a) :=
  (deliver_sound _ _ control).control

/-- The delivery of OK asks for nothing. -/
theorem deliver_ok (fuel : Nat) {rs : List Reply} (ok : ∀ r ∈ rs, r.outcome = .ok) (s : State) : Kept s (deliver fuel rs s) := by
  cases fuel with
  | zero => exact .refl s
  | succ fuel =>
    rw [deliver_succ]
    induction rs generalizing s with
    | nil => exact .refl s
    | cons r rs rest =>
      refine Kept.trans ?_ (rest (fun x hx => ok x (List.mem_cons_of_mem _ hx)) _)
      unfold deliverOne
      cases r.owner with
      | order e => exact .of_view (orderReply_view s e _ _)
      | shed _ => exact .refl s
      | restore b => exact .of_view (restoreReply_view s b _ _)
      | cycle c =>
        obtain ⟨kept, none⟩ := cycleReply_ok s c r.outlet r.dir
        dsimp only
        rw [ok r List.mem_cons_self, none, deliver_nil]
        exact kept

theorem ownerReply_outcome (s : State) (k : OutletIx) (o : MemberOutcome) : ∀ r ∈ s.ownerReply k o, r.outcome = o := by
  unfold State.ownerReply
  split
  · exact fun _ h => nomatch h
  · exact fun r hr => List.mem_singleton.mp hr ▸ rfl

/-! ### Admission (R133 to R136) -/

/-- R135: the ON targets, ascending. -/
def State.onTargets (s : State) (targets : List OutletIx) : List OutletIx :=
  (indices 48).filter fun k => k ∈ targets && s.outlets[k].state == .on

theorem mem_onTargets {s : State} {targets : List OutletIx} {k : OutletIx} :
    k ∈ s.onTargets targets ↔ k ∈ targets ∧ s.outlets[k].state = .on := by
  rw [State.onTargets, List.mem_filter, Bool.and_eq_true, decide_eq_true_eq, beq_iff_eq]
  exact and_iff_right (List.mem_finRange k)

/-- R135: the record is filled and the memberships are set. -/
def State.recordJoined (s : State) (c : RecNo) (o : Origin) (targets : List OutletIx) (rest : Nat) : State :=
  { s with
    cycles := upd s.cycles c fun _ => { CycleRec.free with
      state := .opening, participants := s.onTargets targets
      skipped := targets.filter fun k => s.outlets[k].state == .off, restTime := rest, origins := [o] }
    outlets := tab fun j => if j ∈ s.onTargets targets then { s.outlets[j] with cycle := some c } else s.outlets[j] }

theorem startRecord_eq (s : State) (c : RecNo) (o : Origin) (targets : List OutletIx) (rest : Nat) :
    s.startRecord c o targets rest =
      settle ((s.recordJoined c o targets rest).sendOpens (s.onTargets targets) (.cycle c)) := by
  unfold State.startRecord
  dsimp only
  rw [foldl_modOutlet (f := fun x => { x with cycle := some c }) fun _ => rfl]
  rfl

theorem recordJoined_control {s : State} {c : RecNo} {targets : List OutletIx} (o : Origin) (rest : Nat) (control : Control s)
    (free : s.cycles[c].state = .free) (out : ∀ k ∈ targets, s.outlets[k].cycle = none) :
    Control (s.recordJoined c o targets rest) := by
  have parts : (s.recordJoined c o targets rest).cycles[c].participants = s.onTargets targets := by
    rw [State.recordJoined, upd_same]
  have runs : (s.recordJoined c o targets rest).cycles[c].state = .opening := by rw [State.recordJoined, upd_same]
  have other {d : RecNo} (h : d ≠ c) : (s.recordJoined c o targets rest).cycles[d] = s.cycles[d] := upd_other _ _ h
  have outlet (j : OutletIx) : (s.recordJoined c o targets rest).outlets[j] =
      if j ∈ s.onTargets targets then { s.outlets[j] with cycle := some c } else s.outlets[j] := tab_at _ j
  have same (j : OutletIx) : SameRequests s.outlets[j] (s.recordJoined c o targets rest).outlets[j] := by
    rw [outlet]
    split
    · exact ⟨rfl, rfl, rfl, rfl, rfl, rfl⟩
    · exact .rfl
  have empty : s.cycles[c].participants = [] := by rw [control.freeRecords c free]; rfl
  have noMember (j : OutletIx) : s.outlets[j].cycle ≠ some c := fun h => by
    have mem := (control.members j c).mp h
    rw [empty] at mem
    exact List.not_mem_nil mem
  refine control_of_parts (fun j => (control.relay j).congr { SameRelay.refl s j with outlet := same j }) (fun j => ?_) (fun j => ?_)
    (control.tables.congr rfl rfl rfl rfl) ⟨fun d => ?_, fun d hf => ?_⟩
  · by_cases on : j ∈ s.onTargets targets
    · obtain ⟨target, state⟩ := mem_onTargets.mp on
      have requests := (control.relay j).requests
      have moving : movingDir s.outlets[j].state = none := by rw [state]; rfl
      refine ⟨fun d => ?_, fun d _ w hw => ?_, fun d _ q hq => ?_⟩
      · rw [outlet, if_pos on]
        by_cases hd : d = c
        · rw [hd, parts]
          exact iff_of_true rfl on
        · rw [other hd, ← control.members j d, out j target]
          exact iff_of_false (fun h => hd (Option.some.inj h).symm) fun h => nomatch h
      · rw [(same j).owner, requests.owner_none moving (state ▸ OutletState.noConfusion)] at hw
        cases hw
      · rw [(same j).pending, requests.pending_none moving] at hq
        cases hq
    · have mem := control.member j
      refine ⟨fun d => ?_, fun d hd => ?_, fun d hd => ?_⟩
      · rw [outlet, if_neg on]
        by_cases hd : d = c
        · rw [hd, parts]
          exact iff_of_false (noMember j) on
        · rw [other hd]
          exact mem.member d
      · rw [outlet, if_neg on] at hd ⊢
        exact mem.owner d hd
      · rw [outlet, if_neg on] at hd ⊢
        exact mem.pending d hd
  · intro resting
    rw [(same j).state] at resting
    obtain ⟨d, hd, state⟩ := control.resting j resting
    have off : j ∉ s.onTargets targets := fun on => by
      rw [(mem_onTargets.mp on).2] at resting
      cases resting
    have hdc : d ≠ c := fun h => noMember j (h ▸ hd)
    exact ⟨d, by rw [outlet, if_neg off, hd], by rwa [other hdc]⟩
  · by_cases hd : d = c
    · rw [hd, parts]
      exact (List.nodup_finRange 48).filter _
    · rw [other hd]
      exact control.participants d
  · by_cases hd : d = c
    · rw [hd, runs] at hf
      cases hf
    · rw [other hd] at hf ⊢
      exact control.freeRecords d hf

theorem startRecord_control {s : State} {c : RecNo} {targets : List OutletIx} (o : Origin) (rest : Nat) (control : Control s)
    (free : s.cycles[c].state = .free) (out : ∀ k ∈ targets, s.outlets[k].cycle = none) :
    Control (s.startRecord c o targets rest) := by
  rw [startRecord_eq]
  refine settle_control (RequestedAll.control (sendOpens_requested (.inr fun k hk d hd => ?_))
    (recordJoined_control o rest control free out))
  rw [State.recordJoined, tab_at, if_pos hk] at hd
  exact Option.some.inj hd ▸ rfl

theorem retrigger_kept {s : State} {c : RecNo} (runs : s.cycles[c].state ≠ .free) (o : Origin) (targets : List OutletIx)
    (rest : Nat) : Kept s (s.retrigger c o targets rest).1 := by
  unfold State.retrigger
  dsimp only
  split
  · exact .refl s
  · exact modCycle_running rfl rfl runs

theorem retriggers_runs {s : State} {targets : List OutletIx} {c : RecNo} (h : s.retriggers targets c = true) :
    s.cycles[c].state ≠ .free := by
  simp only [State.retriggers, Bool.and_eq_true, Bool.or_eq_true, beq_iff_eq] at h
  obtain ⟨⟨state | state, -⟩, -⟩ := h <;> exact state ▸ CycleState.noConfusion

theorem busy_of_cycle {o : Outlet} (h : ¬ o.busy = true) : o.cycle = none := by
  cases hc : o.cycle with
  | none => rfl
  | some c => simp [Outlet.busy, hc] at h

theorem admission_control {s : State} (control : Control s) (o : Origin) (targets : List OutletIx) (rest : Nat) :
    Control (s.admission o targets rest).1 := by
  unfold State.admission
  split
  case h_1 c found => exact control.kept (retrigger_kept (retriggers_runs (List.find?_some found)) o targets rest)
  case h_2 =>
    split
    case h_1 => exact control
    case h_2 =>
      split
      case h_1 => exact control
      case h_2 =>
        split
        case h_1 => exact control
        case h_2 notBusy =>
          split
          case isTrue => exact control
          case isFalse =>
            split
            case h_1 => exact control
            case h_2 c found =>
              refine startRecord_control o rest control (beq_iff_eq.mp (List.find?_some (p := fun c : RecNo =>
                s.cycles[c].state == .free) found)) fun k hk => busy_of_cycle (List.find?_eq_none.mp notBusy k hk)

/-! ### Cancel and detachment (R146 to R149) -/

theorem leaveQueue_control {s : State} {k : OutletIx} (control : Control s) (state : s.outlets[k].state = .awaitClose)
    (r : MemberOutcome) : Control (settle (s.leaveQueue k r)) := settle_control ((unqueued_requested state).control control)

theorem foldl_control {α : Type} {f : State → α → State} (h : ∀ s x, Control s → Control (f s x)) (l : List α) {s : State}
    (control : Control s) : Control (l.foldl f s) := by
  induction l generalizing s with
  | nil => exact control
  | cons x xs ih => exact ih (h s x control)

theorem withdrawCloses_control {s : State} (control : Control s) (c : RecNo) : Control (s.withdrawCloses c) := by
  refine foldl_control (fun s k control => ?_) _ control
  split
  case isTrue h => exact leaveQueue_control control (beq_iff_eq.mp (Bool.and_eq_true_iff.mp h).1) .skipped
  case isFalse => exact control

/-- R146: a record under a cancel. -/
def State.cancelMarked (s : State) (c : RecNo) : State := s.modCycle c fun r => { r with cancelled := true }

theorem cancel_refused {s : State} {c : RecNo} (h : s.cycles[c].state = .free ∨ s.cycles[c].state = .restoring ∨
    s.cycles[c].cancelled = true) :
    s.cancel c = (s, some (if s.cycles[c].state = .free then .noCycle else .busy)) := by
  cases state : s.cycles[c].state with
  | free | restoring => simp only [State.cancel, state, reduceCtorEq, if_true, if_false]
  | opening | resting | closing =>
    have cancelled : s.cycles[c].cancelled = true := by
      rw [state] at h
      simpa only [reduceCtorEq, false_or] using h
    simp only [State.cancel, state, cancelled, reduceCtorEq, if_false]

theorem cancel_opening {s : State} {c : RecNo} (state : s.cycles[c].state = .opening) (fresh : s.cycles[c].cancelled = false) :
    s.cancel c = (settle (((s.cancelMarked c).enterRestoring c).1.testEnd c, ((s.cancelMarked c).enterRestoring c).2), none) := by
  simp only [State.cancel, state, fresh]
  rfl

theorem cancel_resting {s : State} {c : RecNo} (state : s.cycles[c].state = .resting) (fresh : s.cycles[c].cancelled = false) :
    s.cancel c = (settle ((s.cancelMarked c).enterClosing c), none) := by
  simp only [State.cancel, state, fresh]
  rfl

theorem cancel_closing {s : State} {c : RecNo} (state : s.cycles[c].state = .closing) (fresh : s.cycles[c].cancelled = false) :
    s.cancel c = (((s.cancelMarked c).withdrawCloses c).testEnd c, none) := by
  simp only [State.cancel, state, fresh]
  rfl

theorem cancel_control {s : State} (control : Control s) (c : RecNo) : Control (s.cancel c).1 := by
  have marked (h : s.cycles[c].state ≠ .free) : Control (s.cancelMarked c) := control.kept (modCycle_running rfl rfl h)
  by_cases refused : s.cycles[c].state = .free ∨ s.cycles[c].state = .restoring ∨ s.cycles[c].cancelled = true
  · rw [cancel_refused refused]
    exact control
  · obtain ⟨free, restoring, fresh⟩ := not_or.mp refused |>.imp_right not_or.mp
    have fresh := Bool.eq_false_iff.mpr fresh
    cases state : s.cycles[c].state with
    | free => exact absurd state free
    | restoring => exact absurd state restoring
    | opening =>
      rw [cancel_opening state fresh]
      exact settle_control ((enterRestoring_sound (marked free) c).control.kept (testEnd_kept _ c))
    | resting =>
      rw [cancel_resting state fresh]
      exact settle_control ((enterClosing_sound (marked free) c).control)
    | closing =>
      rw [cancel_closing state fresh]
      exact (withdrawCloses_control (marked free) c).kept (testEnd_kept _ c)

theorem detach_kept (s : State) (c : RecNo) (w : WatchNo) : Kept s (s.detach c w) := by
  refine modCycle_kept rfl (fun records free => ?_) id
  rw [records.free c free]
  rfl

end Sys2Proof.Machine
end

section
/-! PROOF. The end of a movement, its retry and its failure, and the grants of the close scheduler keep the agreement of the
outlets (R65 to R68, R80, R83 to R89, R108 to R113). -/
namespace Sys2Proof.Machine

open Sys2Proof.Safety

/-! ### An outlet whose movement is out of the drivers' hands -/

/-- Outlet `k` carries out a request in direction `d`, its driver is gone, and everything else agrees. -/
structure Loose (s : State) (k : OutletIx) (d : Dir) : Prop where
  but : AgreesBut k s
  rests : ∀ j, Rests s j
  unheld : Unheld s k
  unlisted : Unlisted s k
  held : Held s k
  requests : Requests s.outlets[k]
  state : movingDir s.outlets[k].state = some d

theorem movingDir_await {st : OutletState} {d : Dir} (h : movingDir st = some d) : st ≠ .awaitClose := by
  rintro rfl
  cases h

theorem movingDir_fault {st : OutletState} {d : Dir} (h : movingDir st = some d) : st ≠ .fault := by
  rintro rfl
  cases h

theorem movingDir_resting {st : OutletState} {d : Dir} (h : movingDir st = some d) : st ≠ .resting := by
  rintro rfl
  cases h

theorem movingDir_on {st : OutletState} {d : Dir} (h : movingDir st = some d) : st ≠ .on := by
  rintro rfl
  cases h

theorem movingDir_closing {st : OutletState} : movingDir st = some .toClosed ↔ st = .closing := by
  cases st <;> simp [movingDir]

theorem movingDir_opening {st : OutletState} : movingDir st = some .toOpen ↔ st = .opening := by
  cases st <;> simp [movingDir]

/-- A movement in verification is out of the drivers' hands. -/
theorem loose_of_verifying {s : State} {k : OutletIx} {p : Pulse} (control : Control s) (h : s.moves[k] = .verifying p) :
    Loose s k p.dir := by
  have relay := control.relay k
  have state : movingDir s.outlets[k].state = some p.dir := by rw [← relay.moving, h]; rfl
  exact {
    but := (control_iff.mp control).1.butOutlet k
    rests := control.resting
    unheld := relay.toServed.unheld h
    unlisted := relay.toListed.unlisted (movingDir_await state)
    held := relay.toHeld
    requests := relay.requests
    state := state }

/-- A change of the movement record, and of fields of the outlet that the agreement does not look at. -/
theorem Loose.setMove {s : State} {k : OutletIx} {d : Dir} (h : Loose s k d) (m : Movement) : Loose (s.setMove k m) k d where
  but := h.but.only (setMove_only s k m) (h.but.member k |>.congr ⟨rfl, rfl, rfl, rfl⟩ rfl) (h.but.tables.congr rfl rfl rfl rfl)
  rests := h.rests
  unheld := ⟨h.unheld.driver, h.unheld.wait⟩
  unlisted := h.unlisted
  held := h.held.congr rfl rfl
  requests := h.requests
  state := h.state

theorem Loose.view {s u : State} {k : OutletIx} {d : Dir} (h : Loose s k d) (same : SameView s u) : Loose u k d where
  but := h.but.view same
  rests j := same.rests (h.rests j)
  unheld := ⟨by rw [same.drivers]; exact h.unheld.driver, by rw [same.waitList]; exact h.unheld.wait⟩
  unlisted := by
    unfold Unlisted
    rw [same.queue]
    exact h.unlisted
  held := by
    refine ⟨fun b r hr hk => ?_, fun close => ?_⟩
    · rw [(same.outlets k).1.state]
      exact h.held.reserved b r (same.loads b ▸ hr) hk
    · obtain ⟨b, r, hr, hk⟩ := h.held.granted ((same.outlets k).1.state ▸ close)
      exact ⟨b, r, (same.loads b).symm ▸ hr, hk⟩
  requests := h.requests.congr (same.outlets k).1
  state := by rw [(same.outlets k).1.state]; exact h.state

/-- The movement of a loose outlet, once it agrees with the relay driver again. -/
theorem Loose.repair {s u : State} {k : OutletIx} {d : Dir} (h : Loose s k d) (only : Only k s u) (tables : Tables u)
    (served : Served u k) (dir : moveDir u.moves[k] = some d) (queue : u.queue = s.queue) (loads : u.loads = s.loads)
    (outlet : SameRequests { s.outlets[k] with unverified := u.outlets[k].unverified } u.outlets[k])
    (cycle : u.outlets[k].cycle = s.outlets[k].cycle) : Control u := by
  have requests : Requests u.outlets[k] :=
    ⟨by rw [outlet.owner, outlet.state]; exact h.requests.owned, by
      have pending := h.requests.pending
      unfold pendingAgrees at pending ⊢
      rwa [outlet.pending, outlet.state], by rw [outlet.wholeFrame, outlet.state]; exact h.requests.wholeFrame,
      by rw [outlet.faultKind, outlet.state]; exact h.requests.faultKind⟩
  have unlisted : Unlisted u k := by
    unfold Unlisted
    rw [queue]
    exact h.unlisted
  have relay : Relay u k :=
    { served, unlisted.listed (by rw [outlet.state]; exact movingDir_await h.state), h.held.congr outlet.state loads with
      requests := requests
      moving := by rw [dir, outlet.state]; exact h.state.symm }
  have member : Member u k := (h.but.member k).congr ⟨outlet.state, outlet.owner, outlet.pending, cycle⟩ only.cycles
  refine control_iff.mpr ⟨h.but.repair only relay member tables, fun j => NoneBegins.rests (.of_only only cycle (fun rest => ?_)
    fun close => ?_) (h.rests j)⟩
  · rw [outlet.state] at rest
    exact rest
  · rw [outlet.state] at close
    exact close

/-- R88: a retry needs a driver. -/
theorem Loose.needDriver {s : State} {k : OutletIx} {d : Dir} (h : Loose s k d) (retry : Bool) :
    Control (s.needDriver k d retry) := by
  obtain ⟨served, dir⟩ := needDriver_served h.unheld d retry
  have same := needDriver_same s k d retry
  obtain ⟨v, outlet⟩ := needDriver_outlet s k d retry
  refine h.repair (needDriver_only s k d retry) (needDriver_tables h.but.tables h.unheld d retry) served dir (by rw [same])
    (by rw [same]) (by rw [outlet]; exact .rfl) (by rw [outlet])

/-- R83: a pulse that has ended goes into verification. -/
theorem Loose.verify {s : State} {k : OutletIx} {p : Pulse} (h : Loose s k p.dir) (clear : s.outlets[k].unverified = none) :
    Control (s.setMove k (.verifying p)) := by
  have move : (s.setMove k (.verifying p)).moves[k] = .verifying p := upd_same _ _ _
  refine h.repair (setMove_only s k _) (h.but.tables.congr rfl rfl rfl rfl) ⟨fun _ => clear, fun d hd => absurd hd (h.unheld.driver d),
    fun driven => ?_, fun w hw hk => absurd hk (h.unheld.wait w hw), fun waits => ?_⟩ (by rw [move]; rfl) rfl rfl .rfl rfl
  · rw [move] at driven
    cases driven
  · rw [move] at waits
    cases waits

/-! ### Completion (R65 to R67) -/

theorem AgreesBut.kept {k : OutletIx} {s u : State} (a : AgreesBut k s) (rests : ∀ j, Rests s j) (h : Kept s u) :
    AgreesBut k u ∧ ∀ j, Rests u j := by
  have m := h.memberships ⟨a.member, a.records, rests⟩
  exact ⟨⟨fun j hj => (a.relay j hj).congr (h.relay j), m.member, h.tables a.tables, m.records⟩, m.rests⟩

/-- The answer OK to the owner of the request that outlet `k` has carried out. -/
def State.ownerTold (v s : State) (k : OutletIx) : State := deliver 18 (s.ownerReply k .ok) v

theorem ownerTold_kept (v s : State) (k : OutletIx) : Kept v (v.ownerTold s k) := deliver_ok 18 (ownerReply_outcome s k .ok) v

theorem modOutlet_id {s : State} {k : OutletIx} {f : Outlet → Outlet} (h : f s.outlets[k] = s.outlets[k]) :
    s.modOutlet k f = s := by
  have same : upd s.outlets k f = s.outlets := vector_ext _ _ fun j => by
    rw [upd_at]
    split
    case isTrue hj => rw [hj, h]
    case isFalse => rfl
  rw [State.modOutlet, same]

theorem dropPending_id {o : Outlet} (h : o.pending = none) : { o with pending := none } = o := by rw [← h]

/-- R65: the outlet has reached ON. -/
def State.arrived (s : State) (k : OutletIx) (unverified : Bool) : State :=
  (s.arriveOn k).modOutlet k fun o => { o with owner := none, unverified := if unverified then some .toClosed else o.unverified }

theorem arrived_outlet (s : State) (k : OutletIx) (unverified : Bool) : (s.arrived k unverified).outlets[k] =
    { s.outlets[k] with
      state := .on, lastChange := s.partTime, peakSeen := false, shedMark := false, owner := none
      unverified := if unverified then some .toClosed else s.outlets[k].unverified } := by
  rw [State.arrived, State.modOutlet, upd_same, State.arriveOn, clearMark_outlet, State.modOutlet, upd_same, State.enter,
    State.modOutlet, upd_same]

theorem arrived_same (s : State) (k : OutletIx) (unverified : Bool) : s.arrived k unverified =
    { s with outlets := (s.arrived k unverified).outlets, shed := (s.arrived k unverified).shed } := by
  obtain ⟨outlets, shed, same⟩ : ∃ o r, s.arrived k unverified = { s with outlets := o, shed := r } := by
    simp only [State.arrived, State.arriveOn, State.clearMark, State.enter, State.modOutlet]
    exact ⟨_, _, rfl⟩
  rw [same]

theorem arriveOn_only (s : State) (k : OutletIx) : Only k s (s.arriveOn k) :=
  (enter_only s k _).trans ((modOutlet_only _ k _).trans (clearMark_only _ k))

theorem arrived_only (s : State) (k : OutletIx) (unverified : Bool) : Only k s (s.arrived k unverified) :=
  (arriveOn_only s k).trans (modOutlet_only _ k _)

theorem completeClose_plain {s : State} {k : OutletIx} (unverified : Bool) (pending : s.outlets[k].pending = none) :
    s.completeClose k unverified = (s.arrived k unverified).ownerTold s k := by
  have kept : ((s.arrived k unverified).ownerTold s k).outlets[k].pending = none := by
    rw [((ownerTold_kept (s.arrived k unverified) s k).relay k).outlet.pending, arrived_outlet]
    exact pending
  unfold State.completeClose
  change (match ((s.arrived k unverified).ownerTold s k).outlets[k].pending with
    | some (.opn w) => (((s.arrived k unverified).ownerTold s k).modOutlet k fun o => { o with pending := none }).enterOpening k w
    | _ => (s.arrived k unverified).ownerTold s k) = _
  rw [kept]

theorem completeClose_opens {s : State} {k : OutletIx} {w : Owner} (unverified : Bool)
    (pending : s.outlets[k].pending = some (.opn w)) :
    s.completeClose k unverified =
      (((s.arrived k unverified).ownerTold s k).modOutlet k fun o => { o with pending := none }).enterOpening k w := by
  have kept : ((s.arrived k unverified).ownerTold s k).outlets[k].pending = some (.opn w) := by
    rw [((ownerTold_kept (s.arrived k unverified) s k).relay k).outlet.pending, arrived_outlet]
    exact pending
  unfold State.completeClose
  change (match ((s.arrived k unverified).ownerTold s k).outlets[k].pending with
    | some (.opn w) => (((s.arrived k unverified).ownerTold s k).modOutlet k fun o => { o with pending := none }).enterOpening k w
    | _ => (s.arrived k unverified).ownerTold s k) = _
  rw [kept]

/-- The pending request of a CLOSING outlet, if any, is an OPEN (R54). -/
theorem Requests.pending_closing {o : Outlet} (r : Requests o) (state : o.state = .closing) :
    o.pending = none ∨ ∃ w, o.pending = some (.opn w) := by
  have agrees := r.pending
  unfold pendingAgrees at agrees
  cases h : o.pending with
  | none => exact .inl rfl
  | some q =>
    cases q with
    | opn w => exact .inr ⟨w, rfl⟩
    | cls c w =>
      rw [h] at agrees
      exact absurd (state.symm.trans agrees) OutletState.noConfusion

theorem Requests.pending_opening {o : Outlet} (r : Requests o) (state : o.state = .opening) :
    o.pending = none ∨ ∃ c w, o.pending = some (.cls c w) := by
  have agrees := r.pending
  unfold pendingAgrees at agrees
  cases h : o.pending with
  | none => exact .inl rfl
  | some q =>
    cases q with
    | cls c w => exact .inr ⟨c, w, rfl⟩
    | opn w =>
      rw [h] at agrees
      exact absurd (state.symm.trans agrees) OutletState.noConfusion

/-- A new state of rest of an outlet without owner and pending request, in a state that agrees elsewhere. -/
theorem AgreesBut.idle {s u : State} {k : OutletIx} (a : AgreesBut k s) (rests : ∀ j, Rests s j) (only : Only k s u)
    (relay : Relay u k) (owner : u.outlets[k].owner = none) (pending : u.outlets[k].pending = none)
    (cycle : u.outlets[k].cycle = s.outlets[k].cycle) (tables : Tables u) (rest : Rests u k) : Control u := by
  have member : Member u k := (a.member k).request cycle only.cycles (fun v hv => by rw [owner] at hv; cases hv)
    fun q hq => by rw [pending] at hq; cases hq
  refine control_iff.mpr ⟨a.repair only relay member tables, fun j => ?_⟩
  by_cases hj : j = k
  · exact hj ▸ rest
  · exact (rests j).congr (only.sameMember hj) only.cycles

/-- An outlet that has reached ON agrees once its pending request is put aside; with it, everything else does. -/
theorem Loose.arrive {s v : State} {k : OutletIx} (h : Loose s k .toClosed) (still : Still s k) (only : Only k s v)
    (same : v = { s with outlets := v.outlets, shed := v.shed }) (on : v.outlets[k].state = .on)
    (owner : v.outlets[k].owner = none) (pending : v.outlets[k].pending = s.outlets[k].pending)
    (kind : v.outlets[k].faultKind = none) (cycle : v.outlets[k].cycle = s.outlets[k].cycle) :
    Control (v.modOutlet k fun o => { o with pending := none }) ∧ AgreesBut k v ∧ ∀ j, Rests v j := by
  have tables : Tables v := h.but.tables.congr (by rw [same]) (by rw [same]) (by rw [same]) (by rw [same])
  have still : Still v k := still.congr (by rw [same]) (by rw [same]) (by rw [same])
  have unlisted : Unlisted v k := by
    rw [same]
    exact h.unlisted
  have dropped : (v.modOutlet k fun o => { o with pending := none }).outlets[k] = { v.outlets[k] with pending := none } :=
    upd_same _ _ _
  have member : Member v k := (h.but.member k).request cycle only.cycles (fun w hw => by rw [owner] at hw; cases hw)
    fun q hq => .inl (pending ▸ hq)
  have rests : ∀ j, Rests v j := fun j => by
    by_cases hj : j = k
    · intro rest
      rw [hj, on] at rest
      cases rest
    · exact (h.rests j).congr (only.sameMember hj) only.cycles
  have but : AgreesBut k v := h.but.only only member tables
  refine ⟨?_, but, rests⟩
  have still' : Still (v.modOutlet k fun o => { o with pending := none }) k := still.congr rfl rfl rfl
  have unlisted' : Unlisted (v.modOutlet k fun o => { o with pending := none }) k := unlisted
  refine but.idle rests (modOutlet_only v k _) { still'.served, unlisted'.listed (by rw [dropped, on]; exact OutletState.noConfusion)
    with
      reserved := fun _ _ _ _ => .inr (by rw [dropped, on])
      granted := fun close => ?_
      requests := ?_
      moving := by rw [still'.move, dropped, on]; rfl }
    (by rw [dropped, owner]) (by rw [dropped]) (by rw [dropped]) (tables.congr rfl rfl rfl rfl) fun rest => ?_
  · rw [dropped, on] at close
    cases close
  · rw [dropped]
    exact requests_idle (by rw [on]; rfl) (by rw [on]; exact OutletState.noConfusion) owner rfl (fun _ => on)
      (iff_of_false (fun h => h kind) (by rw [on]; exact OutletState.noConfusion))
  · rw [dropped, on] at rest
    cases rest

/-- A pending request is put aside in either of two states that agree on the outlet. -/
theorem SameRelay.dropPending {s u : State} {k : OutletIx} (h : SameRelay s u k) :
    SameRelay (s.modOutlet k fun o => { o with pending := none }) (u.modOutlet k fun o => { o with pending := none }) k where
  outlet := by
    rw [State.modOutlet, State.modOutlet, upd_same, upd_same]
    exact ⟨h.outlet.state, h.outlet.owner, rfl, h.outlet.unverified, h.outlet.wholeFrame, h.outlet.faultKind⟩
  move := h.move
  queue := h.queue
  wait := h.wait
  drivers := h.drivers
  loads := h.loads

theorem completeClose_control {s : State} {k : OutletIx} (h : Loose s k .toClosed) (still : Still s k) (unverified : Bool) :
    Control (s.completeClose k unverified) := by
  have state := movingDir_closing.mp h.state
  have outlet := arrived_outlet s k unverified
  have kind : s.outlets[k].faultKind = none := h.requests.faultKind_none (state ▸ OutletState.noConfusion)
  obtain ⟨control, but, rests⟩ := h.arrive still (arrived_only s k unverified) (arrived_same s k unverified) (by rw [outlet]) (by rw [outlet])
    (by rw [outlet]) (by rw [outlet]; exact kind) (by rw [outlet])
  have told := ownerTold_kept (s.arrived k unverified) s k
  have told_owner : ((s.arrived k unverified).ownerTold s k).outlets[k].owner = none :=
    (told.relay k).outlet.owner.trans (by rw [outlet])
  have told_state : ((s.arrived k unverified).ownerTold s k).outlets[k].state = .on :=
    (told.relay k).outlet.state.trans (by rw [outlet])
  have told_cycle (c : RecNo) (hc : ((s.arrived k unverified).ownerTold s k).outlets[k].cycle = some c) :
      s.outlets[k].cycle = some c := by
    have before := told.cycle k c hc
    rwa [outlet] at before
  rcases h.requests.pending_closing state with empty | ⟨w, pending⟩
  · rw [completeClose_plain unverified empty]
    have same : (s.arrived k unverified).modOutlet k (fun o => { o with pending := none }) = s.arrived k unverified :=
      modOutlet_id (dropPending_id (by rw [outlet]; exact empty))
    exact (same ▸ control).kept told
  · rw [completeClose_opens unverified pending]
    generalize s.arrived k unverified = v at *
    have relay := (control.relay k).congr (told.relay k).dropPending
    obtain ⟨but, rests⟩ := but.kept rests told
    generalize v.ownerTold s k = t at *
    have dropped : (t.modOutlet k fun o => { o with pending := none }).outlets[k] = { t.outlets[k] with pending := none } :=
      upd_same _ _ _
    have settled : Control (t.modOutlet k fun o => { o with pending := none }) :=
      but.idle rests (modOutlet_only t k _) relay (by rw [dropped, told_owner]) (by rw [dropped]) (by rw [dropped])
        (but.tables.congr rfl rfl rfl rfl) fun rest => by
          rw [dropped, told_state] at rest
          cases rest
    refine (enterOpening_requested (by rw [dropped, told_state]) fun c hc => ?_).control settled
    rw [dropped] at hc
    exact (h.but.member k).pending c (told_cycle c hc) _ pending

/-- R66: the outlet has opened, and enters `st` without owner and pending request. -/
def State.opened (s : State) (k : OutletIx) (st : OutletState) (unverified : Bool) : State :=
  (s.enter k st).modOutlet k fun o =>
    { o with owner := none, pending := none, unverified := if unverified then some .toOpen else o.unverified }

theorem opened_outlet (s : State) (k : OutletIx) (st : OutletState) (unverified : Bool) :
    (s.opened k st unverified).outlets[k] = { s.outlets[k] with
      state := st, lastChange := s.partTime, owner := none, pending := none
      unverified := if unverified then some .toOpen else s.outlets[k].unverified } := by
  rw [State.opened, State.modOutlet, upd_same, State.enter, State.modOutlet, upd_same]

theorem opened_same (s : State) (k : OutletIx) (st : OutletState) (unverified : Bool) : s.opened k st unverified =
    { s with outlets := (s.opened k st unverified).outlets } := rfl

theorem opened_only (s : State) (k : OutletIx) (st : OutletState) (unverified : Bool) : Only k s (s.opened k st unverified) :=
  (enter_only s k st).trans (modOutlet_only _ k _)

theorem completeOpen_plain {s : State} {k : OutletIx} (unverified : Bool) (pending : s.outlets[k].pending = none) :
    s.completeOpen k unverified = (s.opened k (s.openedState k) unverified).ownerTold s k := by
  have same : (s.enter k (s.openedState k)).modOutlet k (fun o => { o with
      owner := none, unverified := if unverified then some .toOpen else o.unverified }) =
      s.opened k (s.openedState k) unverified := by
    refine modOutlet_congr ?_
    rw [State.enter, State.modOutlet, upd_same]
    simp only [pending]
  simp only [State.completeOpen, pending, same]
  rfl

theorem completeOpen_closes {s : State} {k : OutletIx} {cls : ClassNo} {w : Owner} (unverified : Bool)
    (pending : s.outlets[k].pending = some (.cls cls w)) :
    s.completeOpen k unverified = ((s.opened k .off unverified).ownerTold s k).enqueue k cls w := by
  simp only [State.completeOpen, pending, State.opened, State.modOutlet, State.enter, upd_comp, State.ownerTold]

/-- An outlet that has opened is OFF, or rests for a record that opens or rests. -/
theorem Loose.open {s : State} {k : OutletIx} {st : OutletState} (h : Loose s k .toOpen) (still : Still s k) (unverified : Bool)
    (rest : st = .off ∨ st = .resting ∧ ∃ c : RecNo, s.outlets[k].cycle = some c ∧
      (s.cycles[c].state = .opening ∨ s.cycles[c].state = .resting)) :
    Control (s.opened k st unverified) := by
  have state := movingDir_opening.mp h.state
  have outlet := opened_outlet s k st unverified
  have kind : s.outlets[k].faultKind = none := h.requests.faultKind_none (state ▸ OutletState.noConfusion)
  have whole : s.outlets[k].wholeFrame = false := h.requests.wholeFrame_false (state ▸ OutletState.noConfusion)
  have ne {x : OutletState} (off : x ≠ .off) (resting : x ≠ .resting) : st ≠ x := by
    rcases rest with rfl | ⟨rfl, -⟩ <;> exact Ne.symm ‹_›
  have unreserved : Unreserved (s.opened k st unverified) k :=
    h.held.unreserved (state ▸ OutletState.noConfusion) (state ▸ OutletState.noConfusion)
  have unlisted : Unlisted (s.opened k st unverified) k := h.unlisted
  refine h.but.idle h.rests (opened_only s k st unverified)
    (relay_idle (still.congr rfl rfl rfl) unlisted unreserved ?_ ?_ (by rw [outlet]) (by rw [outlet]) ?_ ?_)
    (by rw [outlet]) (by rw [outlet]) (by rw [outlet]) (h.but.tables.congr rfl rfl rfl rfl) fun resting => ?_
  · rw [outlet]
    rcases rest with rfl | ⟨rfl, -⟩ <;> rfl
  · rw [outlet]
    exact ne OutletState.noConfusion OutletState.noConfusion
  · rw [outlet]
    intro marked
    rw [whole] at marked
    cases marked
  · rw [outlet]
    exact iff_of_false (fun h => h kind) (ne OutletState.noConfusion OutletState.noConfusion)
  · rw [outlet] at resting
    rcases rest with rfl | ⟨-, member⟩
    · cases resting
    · rw [outlet]
      exact member

theorem openedState_cases (s : State) (k : OutletIx) : s.openedState k = .off ∨ s.openedState k = .resting ∧ ∃ c : RecNo,
    s.outlets[k].cycle = some c ∧ (s.cycles[c].state = .opening ∨ s.cycles[c].state = .resting) := by
  unfold State.openedState
  split
  case h_1 c hc =>
    split
    case isTrue h => exact .inr ⟨rfl, c, hc, h.2⟩
    case isFalse => exact .inl rfl
  case h_2 => exact .inl rfl

theorem completeOpen_control {s : State} {k : OutletIx} (h : Loose s k .toOpen) (still : Still s k) (unverified : Bool) :
    Control (s.completeOpen k unverified) := by
  rcases h.requests.pending_opening (movingDir_opening.mp h.state) with empty | ⟨cls, w, pending⟩
  · rw [completeOpen_plain unverified empty]
    exact (h.open still unverified (openedState_cases s k)).kept (ownerTold_kept _ s k)
  · rw [completeOpen_closes unverified pending]
    have told := ownerTold_kept (s.opened k .off unverified) s k
    have outlet := opened_outlet s k .off unverified
    refine (enqueue_requested cls (.inl ?_) fun c hc => ?_).control ((h.open still unverified (.inl rfl)).kept told)
    · rw [(told.relay k).outlet.state, outlet]
    · have before := told.cycle k c hc
      rw [outlet] at before
      exact (h.but.member k).pending c before _ pending

theorem complete_control {s : State} {k : OutletIx} {d : Dir} (h : Loose s k d) (still : Still s k) (unverified : Bool) :
    Control (s.complete k d unverified) := by
  cases d with
  | toClosed => exact completeClose_control h still unverified
  | toOpen => exact completeOpen_control h still unverified

/-! ### Results of a verification (R85 to R89) -/

theorem Loose.ended {s : State} {k : OutletIx} {d : Dir} (h : Loose s k d) :
    Loose (s.endMovement k) k d ∧ Still (s.endMovement k) k := by
  refine ⟨(h.setMove .none).view (modOutlet_view ⟨rfl, rfl, rfl, rfl, rfl, rfl⟩ rfl), ⟨⟨h.unheld.driver, h.unheld.wait⟩, ?_⟩⟩
  exact upd_same _ _ _

theorem learn_view (s : State) (k : OutletIx) (d : Dir) (sat : Satisfied) : SameView s (s.learn k d sat) := by
  cases sat with
  | measured us => cases d <;> exact modOutlet_view ⟨rfl, rfl, rfl, rfl, rfl, rfl⟩ rfl
  | no | atStart => cases d <;> exact .refl s

theorem Still.view {s u : State} {k : OutletIx} (h : Still s k) (same : SameView s u) : Still u k :=
  h.congr same.moves same.drivers same.waitList

theorem Loose.verified {s : State} {k : OutletIx} {p : Pulse} (h : Loose s k p.dir) : Control (s.reportVerified k p) := by
  obtain ⟨loose, still⟩ := h.ended
  have learned := learn_view (s.endMovement k) k p.dir p.satisfied
  exact complete_control (loose.view learned) (still.view learned) false

theorem Loose.unverified {s : State} {k : OutletIx} {p : Pulse} (h : Loose s k p.dir) : Control (s.reportUnverified k p) := by
  obtain ⟨loose, still⟩ := h.ended
  exact complete_control loose still true

theorem Loose.retry {s : State} {k : OutletIx} {p : Pulse} (h : Loose s k p.dir) : Control (s.retryPulse k p) := by
  have marked : SameView s (s.modOutlet k fun o => { o with retry := true }) := modOutlet_view ⟨rfl, rfl, rfl, rfl, rfl, rfl⟩ rfl
  exact (h.view (marked.trans (notice_view _ _ _ _ _))).needDriver true

/-! ### FAULT (R68) -/

/-- R68: the fields of an outlet that enters FAULT. -/
def State.faulted (s : State) (k : OutletIx) (kind : FaultKind) : State :=
  (s.enter k .fault).modOutlet k fun o =>
    { o with faultKind := some kind, unverified := none, wholeFrame := false, owner := none, pending := none }

theorem enterFault_fst (s : State) (k : OutletIx) (kind : FaultKind) :
    (s.enterFault k kind).1 = (((s.faulted k kind).dequeue k).release k).withdrawWaiting k := rfl

theorem faulted_outlet (s : State) (k : OutletIx) (kind : FaultKind) : (s.faulted k kind).outlets[k] =
    { s.outlets[k] with
      state := .fault, lastChange := s.partTime, faultKind := some kind, unverified := none, wholeFrame := false, owner := none
      pending := none } := by
  rw [State.faulted, State.modOutlet, upd_same, State.enter, State.modOutlet, upd_same]

theorem enterFault_outlets (s : State) (k : OutletIx) (kind : FaultKind) :
    (s.enterFault k kind).1.outlets = (s.faulted k kind).outlets := by
  rw [enterFault_fst, withdrawWaiting_same, release_same, dequeue_same]

theorem enterFault_only (s : State) (k : OutletIx) (kind : FaultKind) : Only k s (s.enterFault k kind).1 :=
  (enter_only s k .fault).trans ((modOutlet_only _ k _).trans ((dequeue_only _ k).trans ((release_only _ k).trans
    (withdrawWaiting_only _ k))))

/-- An outlet whose movement holds no driver enters FAULT. -/
theorem enterFault_control {s : State} {k : OutletIx} (but : AgreesBut k s) (rests : ∀ j, Rests s j) (served : Served s k)
    (idle : moveStarted s.moves[k] = false) (kind : FaultKind) : Control (s.enterFault k kind).1 := by
  have only := enterFault_only s k kind
  have outlet : (s.enterFault k kind).1.outlets[k] = _ := (congrArg (·[k]) (enterFault_outlets s k kind)).trans (faulted_outlet s k kind)
  have tables : Tables (s.faulted k kind) := but.tables.congr rfl rfl rfl rfl
  have kept : Served (((s.faulted k kind).dequeue k).release k) k := {
    unverified := fun started => by
      rw [release_same, dequeue_same] at started
      exact absurd (idle ▸ started) Bool.false_ne_true
    driver := by rw [release_same, dequeue_same]; exact served.driver
    driven := by rw [release_same, dequeue_same]; exact served.driven
    waitMove := by rw [release_same, dequeue_same]; exact served.waitMove
    waiting := by rw [release_same, dequeue_same]; exact served.waiting }
  have still := withdrawWaiting_still kept (by rw [release_same, dequeue_same]; exact idle)
  have unreserved : Unreserved (s.enterFault k kind).1 k := by
    rw [enterFault_fst, withdrawWaiting_same]
    exact release_unreserved _ k
  have unlisted : Unlisted (s.enterFault k kind).1 k := by
    rw [enterFault_fst, withdrawWaiting_same, release_same]
    exact dequeue_unlisted _ k
  refine but.idle rests only (relay_idle still unlisted unreserved (by rw [outlet]; rfl) (by rw [outlet]; exact OutletState.noConfusion)
    (by rw [outlet]) (by rw [outlet]) (fun whole => by rw [outlet] at whole; cases whole) ?_) (by rw [outlet]) (by rw [outlet])
    (by rw [outlet]) (withdrawWaiting_tables (release_tables (dequeue_tables tables k) k) k) fun resting => ?_
  · rw [outlet]
    exact iff_of_true (Option.some_ne_none kind) rfl
  · rw [outlet] at resting
    cases resting

theorem Loose.fails {s : State} {k : OutletIx} {p : Pulse} (h : Loose s k p.dir) : Control (s.failMovement k p) := by
  have noted : SameView (s.setMove k .none) ((s.setMove k .none).notice .relayFault (numberOf k) p.dir.failure.code
    (BitVec.ofNat 32 p.estimate)) := notice_view _ _ _ _ _
  have loose := (h.setMove .none).view noted
  have move : ((s.setMove k .none).notice .relayFault (numberOf k) p.dir.failure.code (BitVec.ofNat 32 p.estimate)).moves[k] = .none := by
    rw [noted.moves]
    exact upd_same _ _ _
  have still : Still _ k := ⟨loose.unheld, move⟩
  exact settle_control (enterFault_control loose.but loose.rests still.served (by rw [move]; rfl) p.dir.failure)

theorem verifyFailed_control {s : State} {k : OutletIx} {p : Pulse} (control : Control s) (h : s.moves[k] = .verifying p) :
    Control (s.verifyFailed k p) := by
  have loose := loose_of_verifying control h
  unfold State.verifyFailed
  split
  · exact loose.unverified
  · split
    · exact loose.fails
    · exact loose.retry

theorem deadlineReached_control {s : State} (control : Control s) (k : OutletIx) : Control (s.deadlineReached k) := by
  cases h : s.moves[k] with
  | verifying p =>
    simp only [State.deadlineReached, h]
    split
    · exact verifyFailed_control control h
    · exact control
  | none | waiting _ | aiming _ _ _ | driving _ =>
    simp only [State.deadlineReached, h]
    exact control

end Sys2Proof.Machine
end

section
/-! PROOF. Pulses, sense reports, grants and patience keep the agreement of the outlets (R78 to R84, R108 to R113). -/
namespace Sys2Proof.Machine

open Sys2Proof.Safety

/-! ### The start of a pulse and a sense report (R83, R84) -/

/-- A change of the movement of outlet `k` and of its driver that keeps what they say together. -/
theorem moved_control {s u : State} {k : OutletIx} (control : Control s) (only : Only k s u) (tables : Tables u)
    (served : Served u k) (dir : moveDir u.moves[k] = moveDir s.moves[k]) (outlets : u.outlets = s.outlets)
    (queue : u.queue = s.queue) (loads : u.loads = s.loads) : Control u := by
  have relay := control.relay k
  have listed : Listed u k := relay.toListed.congr (by rw [outlets]) (by rw [outlets]) queue
  have held : Held u k := relay.toHeld.congr (by rw [outlets]) loads
  have same : SameMember s u k := ⟨by rw [outlets], by rw [outlets], by rw [outlets], by rw [outlets]⟩
  obtain ⟨agrees, rests⟩ := control_iff.mp control
  refine control_iff.mpr ⟨(agrees.butOutlet k).repair only { served, listed, held with
    requests := by rw [outlets]; exact relay.requests
    moving := by rw [dir, outlets]; exact relay.moving } ((agrees.member k).congr same only.cycles) tables, fun j => ?_⟩
  exact (rests j).congr ⟨by rw [outlets], by rw [outlets], by rw [outlets], by rw [outlets]⟩ only.cycles

theorem report_kept (p : Pulse) (level : Bool) (stamp : Nat) :
    (p.report level stamp).dir = p.dir ∧ (p.report level stamp).phase = p.phase ∧ (p.report level stamp).start = p.start := by
  unfold Pulse.report
  split <;> exact ⟨rfl, rfl, rfl⟩

theorem senseReport_control {s : State} (control : Control s) (k : OutletIx) (level : Bool) (stamp : Nat) :
    Control (s.senseReport k level stamp) := by
  cases h : s.moves[k] with
  | none | waiting _ | aiming _ _ _ =>
    simp only [State.senseReport, h]
    exact control
  | driving p =>
    simp only [State.senseReport, h]
    obtain ⟨dir, phase, start⟩ := report_kept p level stamp
    generalize p.report level stamp = q at dir phase start
    have move : (s.setMove k (.driving q)).moves[k] = .driving q := upd_same _ _ _
    have served := (control.relay k).toServed
    refine moved_control control (setMove_only s k _) (control.tables.congr rfl rfl rfl rfl) ⟨fun _ => ?_, fun d hd => ?_,
      fun _ => served.driven (by rw [h]; rfl), fun w hw hk => ?_, fun waits => ?_⟩ ?_ rfl rfl rfl
    · exact served.unverified (by rw [h]; rfl)
    · have agrees := served.driver d hd
      rw [move]
      change driverMatches s.drivers[d] _
      rw [h] at agrees
      cases hx : s.drivers[d] with
      | free => trivial
      | aiming job => rw [hx] at agrees; exact agrees
      | driving job stop =>
        rw [hx] at agrees
        exact ⟨dir.trans agrees.1, phase.trans agrees.2.1, start.symm ▸ agrees.2.2⟩
    · have waits := served.waitMove w hw hk
      rw [h] at waits
      cases waits
    · rw [move] at waits
      cases waits
    · rw [move, h]
      exact congrArg some dir
  | verifying p =>
    simp only [State.senseReport, h]
    split
    · exact control
    · exact Loose.verified (((report_kept p level stamp).1).symm ▸ loose_of_verifying control h)

theorem acceptSense_control {s : State} (control : Control s) (k : OutletIx) : Control (s.acceptSense k) := by
  unfold State.acceptSense
  dsimp only
  split
  · refine senseReport_control (control.view ?_) k _ _
    exact .of_tables rfl rfl rfl rfl rfl rfl rfl rfl
  · exact control

theorem driverOutlet_none {x : Driver} : driverOutlet x = none ↔ x = .free := by
  cases x with
  | free => exact ⟨fun _ => rfl, fun _ => rfl⟩
  | aiming _ | driving _ _ => exact ⟨fun h => (nomatch h), fun h => (nomatch h)⟩

/-- The driver of a movement goes on with it. -/
theorem drive_control {s : State} {d : DriverNo} {k : OutletIx} {x : Driver} {m : Movement} (control : Control s)
    (old : driverOutlet s.drivers[d] = some k) (new : driverOutlet x = some k) (agrees : driverMatches x m)
    (dir : moveDir m = moveDir s.moves[k]) : Control ((s.setDriver d x).setMove k m) := by
  have served := (control.relay k).toServed
  have before := driverMatches_driven old (served.driver d old)
  have driver : ((s.setDriver d x).setMove k m).drivers[d] = x := upd_same _ _ _
  have other {e : DriverNo} (h : e ≠ d) : ((s.setDriver d x).setMove k m).drivers[e] = s.drivers[e] := upd_other _ _ h
  have move : ((s.setDriver d x).setMove k m).moves[k] = m := upd_same _ _ _
  have names (e : DriverNo) : driverOutlet ((s.setDriver d x).setMove k m).drivers[e] = driverOutlet s.drivers[e] := by
    by_cases he : e = d
    · rw [he, driver, new, old]
    · rw [other he]
  have notFree (e : DriverNo) : ((s.setDriver d x).setMove k m).drivers[e] = .free ↔ s.drivers[e] = .free := by
    rw [← driverOutlet_none, names, driverOutlet_none]
  have only : Only k s ((s.setDriver d x).setMove k m) := (setDriver_only (fun j hj => Option.some.inj (hj.symm.trans old))
    fun j hj => Option.some.inj (hj.symm.trans new)).trans (setMove_only _ k m)
  have tables : Tables ((s.setDriver d x).setMove k m) := { control.tables with
    oneDriver := fun e f same busy => control.oneDriver e f (by rwa [names, names] at same) fun h => busy ((notFree e).mpr h)
    noIdleDriver := fun waits e h => control.noIdleDriver waits e ((notFree e).mp h) }
  refine moved_control control only tables ⟨fun _ => served.unverified ?_, fun e he => ?_, fun _ => ⟨d, by rw [driver, new]⟩,
    fun w hw hk => ?_, fun waits => ?_⟩ (by rw [move, dir]) rfl rfl rfl
  · cases hm : s.moves[k] <;> rw [hm] at before <;> first | rfl | cases before
  · have hd : e = d := control.oneDriver e d ((names e).symm.trans (he.trans old.symm)) fun free => by
      rw [names, free] at he
      cases he
    rw [hd, driver, move]
    exact agrees
  · have waits := served.waitMove w hw hk
    rw [waits] at before
    cases before
  · rw [move] at waits
    exact absurd waits (moveDriven_not_waits (driverMatches_driven new agrees))

theorem plannedPulse_control {s : State} (control : Control s) (d : DriverNo) : Control (s.plannedPulse d) := by
  cases hx : s.drivers[d] with
  | free | driving _ _ =>
    simp only [State.plannedPulse, hx]
    exact control
  | aiming job =>
    have names : driverOutlet s.drivers[d] = some job.outlet := by rw [hx]; rfl
    have agrees := (control.relay job.outlet).driver d names
    cases hm : s.moves[job.outlet] with
    | none | waiting _ | driving _ | verifying _ =>
      rw [hx, hm] at agrees
      exact agrees.elim
    | aiming dir p est =>
      rw [plannedPulse_aiming hx hm]
      split
      case isFalse => exact control
      case isTrue =>
        rw [hx, hm] at agrees
        rw [startPulse_eq]
        exact drive_control control names rfl ⟨rfl, rfl, rfl⟩ (by rw [hm]; exact congrArg some agrees.1.symm)

/-! ### The end of a pulse (R80, R83) -/

/-- What the end of a pulse does to the driver. -/
theorem offerDriver_idle {s : State} (d : DriverNo) (h : s.waitList = []) :
    s.offerDriver d = { s.setDriver d .free with scanDue := true } := by
  simp only [State.offerDriver, State.setDriver, h]

theorem offerDriver_next {s : State} {w : WaitEntry} {rest : List WaitEntry} (d : DriverNo) (h : s.waitList = w :: rest) :
    s.offerDriver d = ({ s.setDriver d .free with waitList := rest, scanDue := s.scanDue || rest.isEmpty }).assign d w.outlet
      w.dir := by
  simp only [State.offerDriver, State.setDriver, h]

/-- An outlet out of the drivers' hands, from what the freed driver left. -/
theorem loose_of_freed {s u : State} {k : OutletIx} {dir : Dir} (relay : Relay s k) (state : movingDir s.outlets[k].state = some dir)
    (but : AgreesBut k u) (rests : ∀ j, Rests u j) (unheld : Unheld u k) (outlet : u.outlets[k] = s.outlets[k])
    (queue : u.queue = s.queue) (loads : u.loads = s.loads) : Loose u k dir where
  but := but
  rests := rests
  unheld := unheld
  unlisted := by
    unfold Unlisted
    rw [queue]
    exact relay.toListed.unlisted (movingDir_await state)
  held := relay.toHeld.congr (by rw [outlet]) loads
  requests := by rw [outlet]; exact relay.requests
  state := by rw [outlet]; exact state

/-- Two drivers with one outlet are one, where driver `d` is freed. -/
theorem freed_oneDriver {s : State} (control : Control s) (d e f : DriverNo)
    (same : driverOutlet (s.setDriver d .free).drivers[e] = driverOutlet (s.setDriver d .free).drivers[f])
    (busy : (s.setDriver d .free).drivers[e] ≠ .free) : e = f := by
  have freed : (s.setDriver d .free).drivers[d] = .free := upd_same _ _ _
  have other {e : DriverNo} (h : e ≠ d) : (s.setDriver d .free).drivers[e] = s.drivers[e] := upd_other _ _ h
  have he : e ≠ d := fun h => busy (h ▸ freed)
  by_cases hf : f = d
  · rw [hf, freed] at same
    exact absurd (driverOutlet_none.mp same) busy
  · rw [other he] at same busy
    rw [other hf] at same
    exact control.oneDriver e f same busy

theorem assign_sameMember (s : State) (d : DriverNo) (k : OutletIx) (dir : Dir) (j : OutletIx) :
    SameMember s (s.assign d k dir) j := by
  by_cases hj : j = k
  · rw [hj]
    exact ⟨by rw [assign_outlet], by rw [assign_outlet], by rw [assign_outlet], by rw [assign_outlet]⟩
  · have same := assign_outlet_other s d dir hj
    exact ⟨by rw [same], by rw [same], by rw [same], by rw [same]⟩

/-- The head of the wait list with the freed driver. -/
theorem nextServed_but {s v : State} {d : DriverNo} {k : OutletIx} {w : WaitEntry} {rest : List WaitEntry} (control : Control s)
    (names : driverOutlet s.drivers[d] = some k) (wait : s.waitList = w :: rest) (hv : v = { s.setDriver d .free with
      waitList := rest, scanDue := s.scanDue || rest.isEmpty }) :
    AgreesBut k (v.assign d w.outlet w.dir) ∧ w.outlet ≠ k ∧ Unheld (v.assign d w.outlet w.dir) k := by
  have head : w ∈ s.waitList := wait ▸ List.mem_cons_self
  have tail {x : WaitEntry} (h : x ∈ rest) : x ∈ s.waitList := wait ▸ List.mem_cons_of_mem _ h
  have nodup : w.outlet ∉ rest.map (·.outlet) ∧ (rest.map (·.outlet)).Nodup := by
    have all := control.waitOutlets
    rw [wait] at all
    exact List.nodup_cons.mp all
  have driven := driverMatches_driven names ((control.relay k).driver d names)
  have notWaiting (x : WaitEntry) (hx : x ∈ s.waitList) : x.outlet ≠ k := fun hk => by
    rw [(control.relay k).waitMove x hx hk] at driven
    cases driven
  have hwk : w.outlet ≠ k := notWaiting w head
  have freed : v.drivers[d] = .free := by rw [hv]; exact upd_same _ _ _
  have other {e : DriverNo} (h : e ≠ d) : v.drivers[e] = s.drivers[e] := by rw [hv]; exact upd_other _ _ h
  have waits := (control.relay w.outlet).waitMove w head rfl
  have unheld : Unheld v w.outlet := by
    refine ⟨fun e he => ?_, fun x hx hxw => nodup.1 ?_⟩
    · by_cases hd : e = d
      · rw [hd, freed] at he
        cases he
      · rw [other hd] at he
        have moving := driverMatches_driven he ((control.relay w.outlet).driver e he)
        rw [waits] at moving
        cases moving
    · rw [hv] at hx
      exact hxw ▸ List.mem_map_of_mem hx
  have only : Only w.outlet v (v.assign d w.outlet w.dir) := assign_only freed w.dir
  have before (j : OutletIx) (hj : j ≠ k) (hjw : j ≠ w.outlet) : SameRelay s v j := by
    rw [hv]
    refine (Only.relay (setDriver_only (fun i hi => Option.some.inj (hi.symm.trans names)) fun i hi => by cases hi) hj).trans
      { SameRelay.refl (s.setDriver d .free) j with wait := fun x hx => ?_ }
    change x ∈ rest ↔ x ∈ s.waitList
    rw [wait, List.mem_cons]
    exact (or_iff_right fun h => hjw (by rw [← hx, h])).symm
  have member (j : OutletIx) : Member (v.assign d w.outlet w.dir) j := by
    have same : Member v j := by
      rw [hv]
      exact (control.member j).congr ⟨rfl, rfl, rfl, rfl⟩ rfl
    exact same.congr (assign_sameMember v d w.outlet w.dir j) only.cycles
  have kept := assign_same v d w.outlet w.dir
  obtain ⟨served, dir⟩ := assign_served unheld d w.dir
  refine ⟨⟨fun j hj => ?_, member, ?_, ?_⟩, hwk, ⟨fun e he => ?_, fun x hx => ?_⟩⟩
  · by_cases hjw : j = w.outlet
    · rw [hjw]
      have relay := control.relay w.outlet
      have outlet : (v.assign d w.outlet w.dir).outlets[w.outlet] = { s.outlets[w.outlet] with unverified := none } := by
        rw [assign_outlet, hv]
        rfl
      have listed : Listed (v.assign d w.outlet w.dir) w.outlet :=
        relay.toListed.congr (by rw [outlet]) (by rw [outlet]) (by rw [kept, hv]; rfl)
      have held : Held (v.assign d w.outlet w.dir) w.outlet := relay.toHeld.congr (by rw [outlet]) (by rw [kept, hv]; rfl)
      exact { served, listed, held with
        requests := by
          rw [outlet]
          exact ⟨relay.requests.owned, relay.requests.pending, relay.requests.wholeFrame, relay.requests.faultKind⟩
        moving := by rw [dir, outlet, ← relay.moving, waits]; rfl }
    · exact (control.relay j).congr ((before j hj hjw).trans (only.relay hjw))
  · exact {
      queueOrder := by rw [kept, hv]; exact control.queueOrder
      queueArrivals := by rw [kept, hv]; exact control.queueArrivals
      queueOutlets := by rw [kept, hv]; exact control.queueOutlets
      oneDriver := assign_oneDriver unheld d w.dir (by rw [hv]; exact freed_oneDriver control d)
      waitOutlets := by rw [kept, hv]; exact nodup.2
      noIdleDriver := fun _ e => by
        by_cases he : e = d
        · rw [he]
          intro free
          have held := assign_driver v d w.outlet w.dir
          rw [free] at held
          cases held
        · rw [assign_driver_other v w.outlet w.dir he, other he]
          exact control.noIdleDriver (List.ne_nil_of_mem head) e }
  · exact control.records.congr (by rw [kept, hv]; rfl)
  · by_cases hd : e = d
    · rw [hd, assign_driver] at he
      exact hwk (Option.some.inj he)
    · rw [assign_driver_other v w.outlet w.dir hd, other hd] at he
      exact hd (control.oneDriver e d (he.trans names.symm) fun free => by rw [free] at he; cases he)
  · rw [kept, hv] at hx
    exact notWaiting x (tail hx)

/-- With its driver freed, the movement of outlet `k` is out of the drivers' hands; the driver serves the next one. -/
theorem offerDriver_loose {s : State} {d : DriverNo} {k : OutletIx} (control : Control s)
    (names : driverOutlet s.drivers[d] = some k) {dir : Dir} (hdir : moveDir s.moves[k] = some dir) :
    Loose (s.offerDriver d) k dir ∧ (s.offerDriver d).moves[k] = s.moves[k] ∧
      (s.offerDriver d).outlets[k] = s.outlets[k] := by
  have relay := control.relay k
  have state : movingDir s.outlets[k].state = some dir := relay.moving.symm.trans hdir
  cases wait : s.waitList with
  | nil =>
    rw [offerDriver_idle d wait]
    refine ⟨loose_of_freed relay state ?_ control.resting ⟨fun e he => ?_, fun x hx => ?_⟩ rfl rfl rfl, rfl, rfl⟩
    · have only : Only k s { s.setDriver d .free with scanDue := true } :=
        { setDriver_only (fun j hj => Option.some.inj (hj.symm.trans names)) (fun j hj => by cases hj) with }
      exact ((control_iff.mp control).1.butOutlet k).only only ((control.member k).congr ⟨rfl, rfl, rfl, rfl⟩ rfl)
        { control.tables with
          oneDriver := freed_oneDriver control d
          noIdleDriver := fun waits => absurd wait waits }
    · by_cases hd : e = d
      · rw [hd, State.setDriver, upd_same] at he
        cases he
      · rw [State.setDriver, upd_other _ _ hd] at he
        exact hd (control.oneDriver e d (he.trans names.symm) fun free => by rw [free] at he; cases he)
    · rw [State.setDriver, wait] at hx
      cases hx
  | cons w rest =>
    obtain ⟨but, hwk, unheld⟩ := nextServed_but (rest := rest) control names wait rfl
    have outlet := assign_outlet_other { s.setDriver d .free with waitList := rest, scanDue := s.scanDue || rest.isEmpty } d w.dir
      hwk.symm
    have move := assign_move_other { s.setDriver d .free with waitList := rest, scanDue := s.scanDue || rest.isEmpty } d w.dir
      hwk.symm
    rw [offerDriver_next d wait]
    have member (j : OutletIx) := assign_sameMember
      { s.setDriver d .free with waitList := rest, scanDue := s.scanDue || rest.isEmpty } d w.outlet w.dir j
    refine ⟨loose_of_freed relay state but (fun j => ?_) unheld outlet (by rw [assign_same]; rfl) (by rw [assign_same]; rfl), move,
      outlet⟩
    exact (control.rests j).congr ⟨(member j).state, (member j).owner, (member j).pending, (member j).cycle⟩
      (by rw [assign_same]; rfl)

theorem widthPassed_control {s : State} (control : Control s) (d : DriverNo) : Control (s.widthPassed d) := by
  cases hx : s.drivers[d] with
  | free | aiming _ =>
    simp only [State.widthPassed, hx]
    exact control
  | driving job stop =>
    simp only [State.widthPassed, hx]
    split
    case isFalse => exact control
    case isTrue =>
      have names : driverOutlet s.drivers[d] = some job.outlet := by rw [hx]; rfl
      have relay := control.relay job.outlet
      have agrees := relay.driver d names
      cases hm : s.moves[job.outlet] with
      | none | waiting _ | aiming _ _ _ | verifying _ =>
        rw [hx, hm] at agrees
        exact agrees.elim
      | driving p =>
        obtain ⟨loose, move, outlet⟩ := offerDriver_loose control names (dir := p.dir) (by rw [hm]; rfl)
        rw [hm] at move
        simp only [State.endPulse, move]
        split
        · exact loose.unverified
        · cases p.satisfied with
          | no => exact loose.verify (by rw [outlet]; exact relay.unverified (by rw [hm]; rfl))
          | atStart | measured _ => exact loose.verified

/-! ### Grants (R108 to R112) -/

/-- R112, R63: an entry leaves the queue and its outlet's load is reserved. -/
def State.granted (s : State) (e : QueueEntry) : State :=
  { s with
    queue := s.queue.filter fun x => x.arrival != e.arrival
    loads := upd s.loads (s.branchOf e.outlet) fun l =>
      { l with reservations := l.reservations ++ [(e.outlet, s.expectedLoad e.outlet)], lastGrant := some s.now }
    stripGrant := some s.now
    outlets := upd s.outlets e.outlet fun o => { o with state := .closing, lastChange := s.partTime, retry := false } }

theorem grant_eq (s : State) (e : QueueEntry) : s.grant e = (s.granted e).needDriver e.outlet .toClosed false := by
  unfold State.grant State.granted
  simp only [State.enter, State.modOutlet, upd_comp]
  rfl

/-- Of the entries of a queue with distinct arrivals and outlets, one has the arrival or the outlet of a given one. -/
theorem mem_filter_arrival {s : State} (t : Tables s) {e x : QueueEntry} (he : e ∈ s.queue) :
    x ∈ s.queue.filter (fun y => y.arrival != e.arrival) ↔ x ∈ s.queue ∧ x.outlet ≠ e.outlet := by
  rw [List.mem_filter, bne_iff_ne]
  refine and_congr_right fun hx => not_congr ⟨fun h => ?_, fun h => ?_⟩
  · rw [List.inj_on_of_nodup_map t.queueArrivals.1 hx he h]
  · rw [List.inj_on_of_nodup_map t.queueOutlets hx he h]

theorem grant_control {s : State} {e : QueueEntry} (control : Control s) (he : e ∈ s.queue) : Control (s.grant e) := by
  have relay := control.relay e.outlet
  have state := relay.queued.mp ⟨e, he, rfl⟩
  have ne {st : OutletState} (h : st ≠ .awaitClose) : s.outlets[e.outlet].state ≠ st := state ▸ h.symm
  have moving : movingDir s.outlets[e.outlet].state = none := by rw [state]; rfl
  have still := relay.toServed.still (relay.moving.trans moving)
  have outlet : (s.granted e).outlets[e.outlet] = { s.outlets[e.outlet] with
      state := .closing, lastChange := s.partTime, retry := false } := upd_same _ _ _
  have mem {x : QueueEntry} : x ∈ (s.granted e).queue ↔ x ∈ s.queue ∧ x.outlet ≠ e.outlet :=
    mem_filter_arrival control.tables he
  have only : Only e.outlet s (s.granted e) :=
    { Only.refl e.outlet s with
      outlets := fun j hj => upd_other _ _ hj
      queue := fun x hx => mem.trans (and_iff_left hx)
      loads := fun b r hr => by
        rw [State.granted, upd_at]
        split
        case isTrue h =>
          rw [List.mem_append, List.mem_singleton, h]
          exact or_iff_left fun same => hr (same ▸ rfl)
        case isFalse => exact .rfl }
  have tables : Tables (s.granted e) := control.tables.sublist List.filter_sublist rfl rfl rfl
  have member : Member (s.granted e) e.outlet := (control.member e.outlet).request (by rw [outlet]) rfl
    (fun v hv => .inl (by rw [outlet] at hv; exact hv)) fun q hq => .inl (by rw [outlet] at hq; exact hq)
  have loose : Loose (s.granted e) e.outlet .toClosed := {
    but := ((control_iff.mp control).1.butOutlet e.outlet).only only member tables
    rests := fun j => by
      by_cases hj : j = e.outlet
      · intro rest
        rw [hj, outlet] at rest
        cases rest
      · exact (control.rests j).congr (only.sameMember hj) rfl
    unheld := ⟨still.driver, still.wait⟩
    unlisted := fun x hx => (mem.mp hx).2
    held := by
      refine ⟨fun _ _ _ _ => .inl (by rw [outlet]), fun _ => ⟨s.branchOf e.outlet, (e.outlet, s.expectedLoad e.outlet), ?_, rfl⟩⟩
      rw [State.granted, upd_same]
      exact List.mem_append_right _ (List.mem_singleton_self _)
    requests := by
      rw [outlet]
      obtain ⟨w, hw⟩ := Option.ne_none_iff_exists'.mp (relay.requests.owned.mpr (.inl state))
      refine requests_carried (w := w) (.inr (.inl rfl)) hw ?_ (relay.requests.wholeFrame_false (ne OutletState.noConfusion))
        (relay.requests.faultKind_none (ne OutletState.noConfusion))
      rw [pendingAgrees, relay.requests.pending_none moving]
      trivial
    state := by rw [outlet]; rfl }
  rw [grant_eq]
  exact loose.needDriver false

/-- A grant takes its own entry out of the queue. -/
theorem grant_queue (s : State) (e : QueueEntry) : (s.grant e).queue = s.queue.filter fun x => x.arrival != e.arrival := by
  rw [grant_eq, needDriver_same]
  rfl

theorem scanEntries_control (es : List QueueEntry) {s : State} (control : Control s) (inQueue : ∀ e ∈ es, e ∈ s.queue)
    (distinct : (es.map (·.arrival)).Nodup) : Control (scanEntries es s) := by
  induction es generalizing s with
  | nil => exact control
  | cons e es ih =>
    rw [scanEntries]
    rw [List.map_cons, List.nodup_cons] at distinct
    have behind (x : QueueEntry) (hx : x ∈ es) : x ∈ s.queue := inQueue x (List.mem_cons_of_mem _ hx)
    split
    case isTrue =>
      refine ih (grant_control control (inQueue e List.mem_cons_self)) (fun x hx => ?_) distinct.2
      rw [grant_queue, List.mem_filter, bne_iff_ne]
      exact ⟨behind x hx, fun same => distinct.1 (same ▸ List.mem_map_of_mem hx)⟩
    case isFalse => exact ih control behind distinct.2

theorem scan_control {s : State} (control : Control s) : Control s.scan :=
  (scanEntries_control s.queue control (fun _ => id) control.queueArrivals.1).view (.of_tables rfl rfl rfl rfl rfl rfl rfl rfl)

theorem scanIfDue_control {s : State} (control : Control s) : Control s.scanIfDue := by
  unfold State.scanIfDue
  split
  · exact scan_control control
  · exact control

theorem spacingScan_control {s : State} (control : Control s) (which : Option Branch) : Control (s.spacingScan which) := by
  unfold State.spacingScan
  split
  · exact control.view (.of_tables rfl rfl rfl rfl rfl rfl rfl rfl)
  · exact control

/-! ### Patience (R113) and the rest deadline (R139) -/

theorem expire_control {s : State} {e : QueueEntry} (control : Control s) (he : e ∈ s.queue) : Control (s.expire e) :=
  (leaveQueue_control control ((control.relay e.outlet).queued.mp ⟨e, he, rfl⟩) .patience).view (notice_view _ _ _ _ _)

theorem patienceAt_control {s : State} (control : Control s) (k : OutletIx) : Control (s.patienceAt k) := by
  unfold State.patienceAt
  split
  case h_1 => exact control
  case h_2 e found =>
    split
    · exact expire_control control (List.mem_of_find?_eq_some found)
    · exact control

theorem restOver_control {s : State} (control : Control s) (c : RecNo) : Control (s.restOver c) := by
  unfold State.restOver
  split
  · exact settle_control (enterClosing_sound control c).control
  · exact control

end Sys2Proof.Machine
end

section
/-! PROOF. The work of a frame close and of the orders keeps the agreement of the outlets (section 4.7, R71, R115, R119, R154,
R175 to R178). -/
namespace Sys2Proof.Machine

open Sys2Proof.Safety

/-! ### The outlet controller's work at a close (section 4.7) -/

/-- An outlet whose true state was not known is found, or resolved, by its sense (R70, R71). -/
theorem found_sound {s u : State} {k : OutletIx} (control : Control s)
    (lost : s.outlets[k].state = .unknown ∨ s.outlets[k].state = .fault) (only : Only k s u)
    (same : u = { s with outlets := u.outlets, shed := u.shed, mem := u.mem, cause := u.cause })
    (found : u.outlets[k].state = .on ∨ u.outlets[k].state = .off) (owner : u.outlets[k].owner = none)
    (pending : u.outlets[k].pending = none) (kind : u.outlets[k].faultKind = none)
    (whole : u.outlets[k].wholeFrame = s.outlets[k].wholeFrame) (cycle : u.outlets[k].cycle = s.outlets[k].cycle) : Sound s u := by
  have relay := control.relay k
  have moving : movingDir s.outlets[k].state = none := by rcases lost with h | h <;> rw [h] <;> rfl
  have ne {st : OutletState} (h : st ≠ .unknown) (h' : st ≠ .fault) : s.outlets[k].state ≠ st := by
    rcases lost with g | g <;> rw [g] <;> exact Ne.symm ‹_›
  have now {st : OutletState} (h : st ≠ .on) (h' : st ≠ .off) : u.outlets[k].state ≠ st := by
    rcases found with g | g <;> rw [g] <;> exact Ne.symm ‹_›
  have still : Still u k := (relay.toServed.still (relay.moving.trans moving)).congr (by rw [same]) (by rw [same]) (by rw [same])
  have unlisted : Unlisted u k := by
    rw [same]
    exact relay.toListed.unlisted (ne OutletState.noConfusion OutletState.noConfusion)
  have unreserved : Unreserved u k := by
    rw [same]
    exact relay.toHeld.unreserved (ne OutletState.noConfusion OutletState.noConfusion)
      (ne OutletState.noConfusion OutletState.noConfusion)
  have unmarked := relay.requests.wholeFrame_false (ne OutletState.noConfusion OutletState.noConfusion)
  refine ⟨((control_iff.mp control).1.butOutlet k).idle control.resting only (relay_idle still unlisted unreserved ?_
    (now OutletState.noConfusion OutletState.noConfusion) owner pending (fun h => ?_)
    (iff_of_false (fun h => h kind) (now OutletState.noConfusion OutletState.noConfusion))) owner pending cycle
    (control.tables.congr (by rw [same]) (by rw [same]) (by rw [same]) (by rw [same])) fun rest => ?_, fun j close => ?_,
    .of_sub (fun x hx => by rw [same] at hx; exact hx) (by rw [same])⟩
  · rcases found with h | h <;> rw [h] <;> rfl
  · rw [whole, unmarked] at h
    cases h
  · exact absurd rest (now OutletState.noConfusion OutletState.noConfusion)
  · by_cases hj : j = k
    · exact absurd (hj ▸ close) (now OutletState.noConfusion OutletState.noConfusion)
    · rwa [only.outlets j hj] at close

/-- The outlet in the state its sense shows (R70, R71). -/
def State.sensed (s : State) (k : OutletIx) : State := if s.sense[k].level then s.arriveOn k else s.enter k .off

/-- What being sensed changes in an outlet's record. -/
theorem sensed_outlet (s : State) (k : OutletIx) : (s.sensed k).outlets[k] = { s.outlets[k] with
    state := if s.sense[k].level then .on else .off, lastChange := s.partTime
    peakSeen := if s.sense[k].level then false else s.outlets[k].peakSeen
    shedMark := if s.sense[k].level then false else s.outlets[k].shedMark } := by
  unfold State.sensed
  cases s.sense[k].level with
  | true => rw [if_pos rfl, State.arriveOn, clearMark_outlet, State.modOutlet, upd_same, State.enter, State.modOutlet, upd_same]; rfl
  | false => rw [if_neg Bool.false_ne_true, State.enter, State.modOutlet, upd_same]; rfl

theorem sensed_only (s : State) (k : OutletIx) : Only k s (s.sensed k) := by
  unfold State.sensed
  split
  · exact arriveOn_only s k
  · exact enter_only s k _

theorem sensed_same (s : State) (k : OutletIx) :
    s.sensed k = { s with outlets := (s.sensed k).outlets, shed := (s.sensed k).shed } := by
  obtain ⟨outlets, shed, same⟩ : ∃ o r, s.sensed k = { s with outlets := o, shed := r } := by
    unfold State.sensed
    split
    · simp only [State.arriveOn, State.clearMark, State.enter, State.modOutlet]
      exact ⟨_, _, rfl⟩
    · exact ⟨_, _, rfl⟩
  rw [same]

theorem discover_sound {s : State} {k : OutletIx} (control : Control s) (unknown : s.outlets[k].state = .unknown) :
    Sound s (s.discover k) := by
  have eq : s.discover k = (s.sensed k).modOutlet k fun o =>
    { o with unverified := none, faultKind := none, owner := none, pending := none } := rfl
  have outlet : (s.discover k).outlets[k] = { (s.sensed k).outlets[k] with
      unverified := none, faultKind := none, owner := none, pending := none } := upd_same _ _ _
  rw [sensed_outlet] at outlet
  have only : Only k s (s.discover k) := (sensed_only s k).trans (modOutlet_only _ k _)
  have same : s.discover k = { s with outlets := (s.discover k).outlets, shed := (s.discover k).shed } := by
    rw [eq, sensed_same]
    rfl
  refine found_sound control (.inl unknown) only (by rw [same]) ?_ (by rw [outlet]) (by rw [outlet]) (by rw [outlet])
    (by rw [outlet]) (by rw [outlet])
  rw [outlet]
  cases s.sense[k].level with
  | true => exact .inl rfl
  | false => exact .inr rfl

theorem faultAtClose_sound {s : State} {k : OutletIx} (control : Control s) (idle : moveStarted s.moves[k] = false)
    (kind : FaultKind) (seq : Word) : Sound s (s.faultAtClose k kind seq) := by
  have fault := enterFault_control ((control_iff.mp control).1.butOutlet k) control.resting (control.relay k).toServed idle kind
  have entered : Sound s (s.enterFault k kind).1 := by
    refine ⟨fault, fun j close => ?_, ?_⟩
    · by_cases hj : j = k
      · rw [hj, enterFault_outlets, faulted_outlet] at close
        cases close
      · rwa [(enterFault_only s k kind).outlets j hj] at close
    · have rest : (s.enterFault k kind).1.queue = ((s.faulted k kind).dequeue k).queue ∧
          (s.enterFault k kind).1.nextArrival = ((s.faulted k kind).dequeue k).nextArrival := by
        rw [enterFault_fst, withdrawWaiting_same, release_same]
        exact ⟨rfl, rfl⟩
      exact QueueFrom.trans (dequeue_from (s.faulted k kind) k) (.of_sub (fun x hx => rest.1 ▸ hx) rest.2)
  exact (settle_sound entered).view (notice_view _ _ _ _ _)

theorem resolveUnverified_sound {s : State} (control : Control s) (k : OutletIx) (seq : Word) :
    Sound s (s.resolveUnverified k seq) := by
  unfold State.resolveUnverified
  split
  case h_1 => exact .refl control
  case h_2 target marked =>
    split
    case isTrue agrees =>
      /- A mark is cleared: of an outlet whose movement had begun there is none. -/
      have relay := control.relay k
      have only := modOutlet_only s k fun o => { o with unverified := none }
      have outlet : (s.modOutlet k fun o => { o with unverified := none }).outlets[k] = { s.outlets[k] with unverified := none } :=
        upd_same _ _ _
      have served : Served (s.modOutlet k fun o => { o with unverified := none }) k :=
        { relay.toServed with unverified := fun _ => by rw [outlet] }
      have listed : Listed (s.modOutlet k fun o => { o with unverified := none }) k :=
        relay.toListed.congr (by rw [outlet]) (by rw [outlet]) rfl
      have held : Held (s.modOutlet k fun o => { o with unverified := none }) k := relay.toHeld.congr (by rw [outlet]) rfl
      have same : SameMember s (s.modOutlet k fun o => { o with unverified := none }) k :=
        ⟨by rw [outlet], by rw [outlet], by rw [outlet], by rw [outlet]⟩
      refine ⟨control_iff.mpr ⟨((control_iff.mp control).1.butOutlet k).repair only { served, listed, held with
        requests := by
          rw [outlet]
          exact ⟨relay.requests.owned, relay.requests.pending, relay.requests.wholeFrame, relay.requests.faultKind⟩
        moving := by rw [outlet]; exact relay.moving } ((control.member k).congr same rfl) (control.tables.congr rfl rfl rfl rfl),
          fun j => ?_⟩, fun j close => ?_, .refl s⟩
      · by_cases hj : j = k
        · exact hj ▸ (control.rests k).congr same rfl
        · exact (control.rests j).congr (only.sameMember hj) rfl
      · by_cases hj : j = k
        · rw [hj, outlet] at close
          exact hj ▸ close
        · rwa [only.outlets j hj] at close
    case isFalse =>
      refine faultAtClose_sound control (Bool.eq_false_iff.mpr fun started => ?_) _ seq
      rw [control.unverified k started] at marked
      cases marked

theorem counts_view (s : State) (k : OutletIx) (drop weld : Bool) :
    SameView s (s.modOutlet k fun o => { o with drop := drop, weld := weld }) :=
  modOutlet_view ⟨rfl, rfl, rfl, rfl, rfl, rfl⟩ rfl

theorem supervise_sound {s : State} (control : Control s) (k : OutletIx) (usable leaks : Bool) (seq : Word) :
    Sound s (s.supervise k usable leaks seq) := by
  have cleared (drop weld : Bool) := (Sound.refl control).view (counts_view s k drop weld)
  have faults (state : movingDir s.outlets[k].state = none) (kind : FaultKind) :
      Sound s ((s.modOutlet k fun o => { o with drop := false, weld := false }).faultAtClose k kind seq) := by
    refine (cleared false false).trans (faultAtClose_sound (cleared false false).control ?_ kind seq)
    have still := ((control.relay k).toServed.still ((control.relay k).moving.trans state)).move
    change moveStarted s.moves[k] = false
    rw [still]
    rfl
  unfold State.supervise
  dsimp only
  split
  case h_1 _ state =>
    split
    · exact cleared false false
    · split
      · exact faults (by rw [state]; rfl) .dropped
      · exact cleared true false
  case h_2 _ state =>
    split
    · exact cleared false false
    · split
      · exact faults (by rw [state]; rfl) .welded
      · exact cleared false true
  case h_3 => exact cleared false false

/-- R72, R73: the marker of the frame that opens stands on an ON outlet alone. -/
theorem endFrame_sound {s : State} (control : Control s) (k : OutletIx) (irms : Nat) :
    Sound s (s.modOutlet k fun o => o.endFrame irms) := by
  have relay := control.relay k
  have only := modOutlet_only s k fun o => o.endFrame irms
  have outlet : (s.modOutlet k fun o => o.endFrame irms).outlets[k] = s.outlets[k].endFrame irms := upd_same _ _ _
  have same : SameMember s (s.modOutlet k fun o => o.endFrame irms) k :=
    ⟨by rw [outlet]; rfl, by rw [outlet]; rfl, by rw [outlet]; rfl, by rw [outlet]; rfl⟩
  have served : Served (s.modOutlet k fun o => o.endFrame irms) k := relay.toServed.congr (by rw [outlet]; rfl) rfl rfl rfl
  have listed : Listed (s.modOutlet k fun o => o.endFrame irms) k := relay.toListed.congr same.state same.owner rfl
  have held : Held (s.modOutlet k fun o => o.endFrame irms) k := relay.toHeld.congr same.state rfl
  refine ⟨control_iff.mpr ⟨((control_iff.mp control).1.butOutlet k).repair only { served, listed, held with
    requests := by
      rw [outlet]
      exact ⟨relay.requests.owned, relay.requests.pending, fun whole => beq_iff_eq.mp whole, relay.requests.faultKind⟩
    moving := by rw [same.state]; exact relay.moving } ((control.member k).congr same rfl) (control.tables.congr rfl rfl rfl rfl),
      fun j => ?_⟩, fun j close => ?_, .refl s⟩
  · by_cases hj : j = k
    · exact hj ▸ (control.rests k).congr same rfl
    · exact (control.rests j).congr (only.sameMember hj) rfl
  · by_cases hj : j = k
    · rw [hj, same.state] at close
      exact hj ▸ close
    · rwa [only.outlets j hj] at close

theorem outletWork_sound {s : State} (control : Control s) (closed : Settings) (res : Vector OutletResult 48) (seq : Word)
    (k : OutletIx) : Sound s (s.outletWork closed res seq k) := by
  have discovered : Sound s (if s.outlets[k].state = .unknown ∧ s.usable (phaseOfBranch closed.outlets[k].branch) then s.discover k
      else s) := by
    split
    case isTrue h => exact discover_sound control h.1
    case isFalse => exact .refl control
  unfold State.outletWork
  dsimp only
  generalize (if s.outlets[k].state = .unknown ∧ s.usable (phaseOfBranch closed.outlets[k].branch) then s.discover k else s) = s1 at *
  have resolved : Sound s1 (if s1.usable (phaseOfBranch closed.outlets[k].branch) then s1.resolveUnverified k seq else s1) := by
    split
    case isTrue => exact resolveUnverified_sound discovered.control k seq
    case isFalse => exact .refl discovered.control
  generalize (if s1.usable (phaseOfBranch closed.outlets[k].branch) then s1.resolveUnverified k seq else s1) = s2 at *
  have supervised := supervise_sound resolved.control k (s2.usable (phaseOfBranch closed.outlets[k].branch))
    (decide (closed.strip.leakLevel ≤ res[k].irms)) seq
  exact ((discovered.trans resolved).trans supervised).trans (endFrame_sound supervised.control k _)

/-- The outlets handed to the close scheduler were ON in the closed frame, and none of them closes. -/
theorem outletsWork_control {s : State} (control : Control s) (closed : Settings) (res : Vector OutletResult 48) (seq : Word) :
    Control (s.outletsWork closed res seq).1 ∧
      ∀ k ∈ (s.outletsWork closed res seq).2, (s.outletsWork closed res seq).1.outlets[k].state ≠ .closing := by
  unfold State.outletsWork
  suffices general : ∀ (l : List OutletIx) (a : State × List OutletIx), Control a.1 →
      (∀ k ∈ a.2, a.1.outlets[k].state ≠ .closing) →
      let b := l.foldl (fun a k => (a.1.outletWork closed res seq k,
        if a.1.outlets[k].wholeFrame && (a.1.outletWork closed res seq k).outlets[k].state != .fault then a.2 ++ [k] else a.2)) a
      Control b.1 ∧ ∀ k ∈ b.2, b.1.outlets[k].state ≠ .closing from
    general (indices 48) (s, []) control fun _ h => nomatch h
  intro l
  induction l with
  | nil => exact fun _ control handed => ⟨control, handed⟩
  | cons k ks ih =>
    intro a control handed
    have work := outletWork_sound control closed res seq k
    refine ih _ work.control fun j hj close => ?_
    have before := work.closing j close
    dsimp only at hj
    split at hj
    case isTrue whole =>
      rcases List.mem_append.mp hj with hj | hj
      · exact handed j hj before
      · rw [List.mem_singleton] at hj
        subst hj
        have on := control.wholeFrame j (Bool.and_eq_true_iff.mp whole).1
        exact OutletState.noConfusion (on.symm.trans before)
    case isFalse => exact handed j hj before

/-! ### The close scheduler's work (R115) -/

theorem release_control {s : State} {k : OutletIx} (control : Control s) (state : s.outlets[k].state ≠ .closing) :
    Control (s.release k) := by
  have same := release_same s k
  have relay := control.relay k
  have outlets : (s.release k).outlets = s.outlets := by rw [same]
  have served : Served (s.release k) k := relay.toServed.congr (by rw [outlets]) (by rw [same]) (by rw [same]) (by rw [same])
  have listed : Listed (s.release k) k := relay.toListed.congr (by rw [outlets]) (by rw [outlets]) (by rw [same])
  have held : Held (s.release k) k := (release_unreserved s k).held (by rw [outlets]; exact state)
  have member (j : OutletIx) : SameMember s (s.release k) j := ⟨by rw [outlets], by rw [outlets], by rw [outlets], by rw [outlets]⟩
  exact control_iff.mpr ⟨((control_iff.mp control).1.butOutlet k).repair (release_only s k) { served, listed, held with
    requests := by rw [outlets]; exact relay.requests
    moving := by rw [same]; exact relay.moving } ((control.member k).congr (member k) (by rw [same]))
    (release_tables control.tables k), fun j => (control.rests j).congr (member j) (by rw [same])⟩

theorem releases_control (ks : List OutletIx) {s : State} (control : Control s) (state : ∀ k ∈ ks, s.outlets[k].state ≠ .closing) :
    Control (ks.foldl (fun s k => s.release k) s) := by
  induction ks generalizing s with
  | nil => exact control
  | cons k ks ih =>
    refine ih (release_control control (state k List.mem_cons_self)) fun j hj => ?_
    have outlets : (s.release k).outlets = s.outlets := by rw [release_same]
    rw [outlets]
    exact state j (List.mem_cons_of_mem _ hj)

/-- An entry that has waited too long leaves the queue, with what that brings about. -/
theorem expire_sound {s : State} {e : QueueEntry} (control : Control s) (state : s.outlets[e.outlet].state = .awaitClose) :
    Sound s (s.expire e) := by
  have requested := unqueued_requested state
  have left : Sound s (s.leaveQueue e.outlet .patience).1 :=
    ⟨requested.control control, requested.noneBegins.closing, requested.queue⟩
  exact (settle_sound left).view (notice_view _ _ _ _ _)

/-- R114: the entries that the take's patience removes are still the ones they were when the queue is read. -/
theorem patienceChange_control {s : State} (control : Control s) (closed : Settings) : Control (s.patienceChange closed) := by
  unfold State.patienceChange
  split
  case isTrue => exact control
  case isFalse =>
    suffices general : ∀ (es : List QueueEntry) (u : State), (∀ e ∈ es, e ∈ s.queue) → Sound s u →
        Sound s (es.foldl (fun s e => if s.queue.any (·.arrival == e.arrival) && s.patienceOver e then s.expire e else s) u) from
      (general s.queue s (fun _ => id) (.refl control)).control
    intro es
    induction es with
    | nil => exact fun _ _ sound => sound
    | cons e es ih =>
      intro u inQueue sound
      refine ih _ (fun x hx => inQueue x (List.mem_cons_of_mem _ hx)) ?_
      dsimp only
      split
      case isFalse => exact sound
      case isTrue h =>
        obtain ⟨x, hx, same⟩ := List.any_eq_true.mp (Bool.and_eq_true_iff.mp h).1
        have same := beq_iff_eq.mp same
        have he := inQueue e List.mem_cons_self
        have outlet : x.outlet = e.outlet := by
          rcases sound.queue.2 x hx with ⟨y, hy, arrival, outlet⟩ | new
          · rw [← outlet, List.inj_on_of_nodup_map control.queueArrivals.1 hy he (arrival.trans same)]
          · exact absurd (same ▸ new) (not_le.mpr (control.queueArrivals.2 e he))
        exact sound.trans (expire_sound sound.control ((sound.control.relay e.outlet).queued.mp ⟨x, hx, outlet⟩))

theorem schedulerWork_control {s : State} (control : Control s) (closed : Settings) (res : Vector OutletResult 48)
    {whole : List OutletIx} (handed : ∀ k ∈ whole, s.outlets[k].state ≠ .closing) :
    Control (s.schedulerWork closed res whole) := by
  have measured : SameView s { s with loads := tab fun b => { s.loads[b] with measured := branchSum closed res b } } :=
    { SameView.refl s with loads := fun b => by rw [tab_at] }
  exact patienceChange_control (releases_control whole (control.view measured) handed) closed

/-! ### The shed monitor and the watches (R119, R154) -/

theorem chooseShed_mem {rank : OutletIx → Nat} {ks : List OutletIx} {k : OutletIx} (h : chooseShed rank ks = some k) : k ∈ ks := by
  induction ks with
  | nil => cases h
  | cons j js ih =>
    rw [chooseShed] at h
    split at h
    case h_1 => exact Option.some.inj h ▸ List.mem_cons_self
    case h_2 i found =>
      split at h
      case isTrue => exact Option.some.inj h ▸ List.mem_cons_self
      case isFalse => exact List.mem_cons_of_mem _ (ih (found.trans h))

theorem shedOne_control {s : State} (control : Control s) (closed : Settings) (b : Branch) : Control (s.shedOne closed b) := by
  unfold State.shedOne
  split
  case h_1 => exact control
  case h_2 k chosen =>
    have out : s.outlets[k].cycle = none := by
      have candidate := chooseShed_mem chosen
      rw [State.shedCandidates, List.mem_filter] at candidate
      simp only [Bool.and_eq_true, Option.isNone_iff_eq_none] at candidate
      exact candidate.2.1.2
    have opened : Control (settle (s.requestOpen k (.shed b))) :=
      settle_control ((requestOpen_requested (.inr fun c hc => by rw [out] at hc; cases hc)).control control)
    refine (((opened.view ?_).view (modShed_view _ b _)).view (notice_view _ _ _ _ _))
    exact modOutlet_view ⟨rfl, rfl, rfl, rfl, rfl, rfl⟩ rfl

end Sys2Proof.Machine
end

section
/-! PROOF. Every step keeps the agreement of the outlets (O58): the shed monitor, the watches, the close, the orders, the
commands. -/
namespace Sys2Proof.Machine

open Sys2Proof.Safety

/-! ### The shed monitor (R119 to R129) -/

theorem restorable_cycle {s : State} {k : OutletIx} (h : s.restorable k = true) : s.outlets[k].cycle = none := by
  simp only [State.restorable, Bool.and_eq_true, Option.isNone_iff_eq_none] at h
  exact h.2

theorem startRound_control {s : State} (control : Control s) (b : Branch) {ks : List OutletIx}
    (out : ∀ k ∈ ks, s.outlets[k].cycle = none) : Control (s.startRound b ks) := by
  have begun : SameView s ((s.modShed b fun r => { r with restoring := true, round := ks }).notice .branchRestore (numberOf b) 0
    (BitVec.ofNat 32 ks.length)) := (modShed_view s b _).trans (notice_view _ _ _ _ _)
  refine settle_control (RequestedAll.control (sendCloses_requested 2 (.inr fun k hk c hc => ?_)) (control.view begun))
  rw [(begun.outlets k).2, out k (List.mem_reverse.mp hk)] at hc
  cases hc

theorem shedEnabledBranch_control {s : State} (control : Control s) (closed : Settings) (b : Branch) :
    Control (s.shedEnabledBranch closed b) := by
  unfold State.shedEnabledBranch
  dsimp only
  have counted : Control (s.modShed b fun r => r.overloadStep s.work.branches[b] s.loads[b].measured) :=
    control.view (modShed_view s b _)
  generalize (s.modShed b fun r => r.overloadStep s.work.branches[b] s.loads[b].measured) = s1 at *
  have noted : Control (if (!s.shed[b].overload && s1.shed[b].overload) = true then
      s1.notice .branchOverload (numberOf b) 0 (BitVec.ofNat 32 s.loads[b].measured) else s1) := by
    split
    · exact counted.view (notice_view _ _ _ _ _)
    · exact counted
  generalize (if (!s.shed[b].overload && s1.shed[b].overload) = true then
      s1.notice .branchOverload (numberOf b) 0 (BitVec.ofNat 32 s.loads[b].measured) else s1) = s2 at *
  have shed : Control (if s2.shed[b].overload = true then s2.shedOne closed b else s2) := by
    split
    · exact shedOne_control noted closed b
    · exact noted
  generalize (if s2.shed[b].overload = true then s2.shedOne closed b else s2) = s3 at *
  have restored : Control (s3.modShed b fun r => r.restoreStep s.work.branches[b] s.loads[b].measured) :=
    shed.view (modShed_view s3 b _)
  generalize (s3.modShed b fun r => r.restoreStep s.work.branches[b] s.loads[b].measured) = s4 at *
  split
  · exact startRound_control restored b fun k hk => restorable_cycle (List.mem_filter.mp hk).2
  · exact restored

theorem shedBranch_control {s : State} (control : Control s) (closed : Settings) (b : Branch) : Control (s.shedBranch closed b) := by
  have cleared : Control (s.modShed b fun r => { r with thisClose := false }) := control.view (modShed_view s b _)
  unfold State.shedBranch
  dsimp only
  split
  · exact shedEnabledBranch_control cleared closed b
  · exact cleared

/-! ### The watches (R154 to R166) -/

theorem takeWatchAt_kept (s : State) (closed : Settings) (w : WatchNo) : Kept s (s.takeWatchAt closed w) := by
  unfold State.takeWatchAt
  dsimp only
  split
  · refine Kept.trans ?_ (.of_view (modWatch_view _ w _))
    split
    · exact detach_kept s _ w
    · exact .refl s
  · split
    · exact .of_view (modWatch_view s w _)
    · exact .of_view (modWatch_view s w _)

theorem watchTake_control {s : State} (control : Control s) (closed : Settings) : Control (s.watchTake closed) :=
  foldl_control (fun s w control => control.kept (takeWatchAt_kept s closed w)) _ control

theorem requestCycle_control {s : State} (control : Control s) (w : WatchNo) : Control (s.requestCycle w).1 := by
  have admitted := admission_control control (.watch w) s.work.watches[w].members s.work.watches[w].restTime
  unfold State.requestCycle
  dsimp only
  split <;> exact admitted.view (modWatch_view _ w _)

theorem noticeCycle_view (s : State) (w : WatchNo) (r : AdmitResult) : SameView s (s.noticeCycle w r) := by
  cases r with
  | admitted c | attached c => exact notice_view _ _ _ _ _
  | refused _ _ => exact .refl s

theorem giveUp_view (s : State) (w : WatchNo) : SameView s (s.giveUp w) := (modWatch_view s w _).trans (notice_view _ _ _ _ _)

theorem expireWatch_control {s : State} (control : Control s) (w : WatchNo) : Control (s.expireWatch w) := by
  unfold State.expireWatch
  dsimp only
  split
  · exact control.view ((modWatch_view s w _).trans (notice_view _ _ _ _ _))
  · split
    · exact control.view ((notice_view _ _ _ _ _).trans (giveUp_view _ w))
    · exact (requestCycle_control control w).view ((notice_view _ _ _ _ _).trans (noticeCycle_view _ w _))

theorem retryWatch_control {s : State} (control : Control s) (w : WatchNo) : Control (s.retryWatch w) := by
  unfold State.retryWatch
  dsimp only
  split
  · exact control.view (modWatch_view s w _)
  · split
    · exact control.view (giveUp_view s w)
    · exact (requestCycle_control control w).view (noticeCycle_view _ w _)

theorem watchingFrame_control {s : State} (control : Control s) (w : WatchNo) (sum : Nat) (seq : Word) :
    Control (s.watchingFrame w sum seq) := by
  unfold State.watchingFrame
  dsimp only
  split
  · exact control.view (modWatch_view s w _)
  · split
    · exact expireWatch_control (control.view (modWatch_view s w _)) w
    · exact control.view (modWatch_view s w _)

theorem waitingFrame_control {s : State} (control : Control s) (seen : Vector OutletState 48) (w : WatchNo) (sum : Nat) (seq : Word) :
    Control (s.waitingFrame seen w sum seq) := by
  unfold State.waitingFrame
  dsimp only
  generalize (if anyOn seen s.work.watches[w].members = true then
    s.watches[w].evidence (renewalAt s.mem w) sum s.work.watches[w].band seq else (s.watches[w], none)) = e
  split
  · exact control.view ((modWatch_view s w _).trans (notice_view _ _ _ _ _))
  · split
    · exact retryWatch_control (control.view (modWatch_view s w _)) w
    · exact control.view (modWatch_view s w _)

theorem examineWatch_control {s : State} (control : Control s) (seen : Vector OutletState 48) (res : Vector OutletResult 48)
    (seq : Word) (w : WatchNo) : Control (s.examineWatch seen res seq w) := by
  unfold State.examineWatch
  dsimp only
  split
  · exact control
  · exact control
  · split
    · exact control.view (modWatch_view s w _)
    · exact control
  · split
    · exact watchingFrame_control control w _ seq
    · exact control
  all_goals exact waitingFrame_control control seen w _ seq

/-! ### A close (R8, R115) -/

theorem closeScan_control {s : State} (control : Control s) (handed : Option (Vector Nat 6)) : Control (s.closeScan handed).1 := by
  cases handed with
  | none => exact scan_control control
  | some _ => exact control

theorem closeTurns_control (closed : Settings) (seen : Vector OutletState 48) (res : Vector OutletResult 48) (seq : Word)
    (order : CloseOrder) (bs : List Branch) (ws : List WatchNo) (handed : Option (Vector Nat 6)) {s : State}
    (control : Control s) : Control (State.closeTurns closed seen res seq order bs ws handed s).1 := by
  fun_induction State.closeTurns closed seen res seq order bs ws handed s with
  | case1 bs ws handed s a =>
    exact foldl_control (fun s w control => examineWatch_control control seen res seq w) ws
      (foldl_control (fun s b control => shedBranch_control control closed b) bs (closeScan_control control handed))
  | case2 turns bs ws handed s a ih => exact ih (closeScan_control control handed)
  | case3 turns ws handed s ih => exact ih control
  | case4 turns b bs ws handed s ih => exact ih (shedBranch_control control closed b)
  | case5 turns bs handed s ih => exact ih control
  | case6 turns bs w ws handed s ih => exact ih (examineWatch_control control seen res seq w)

theorem closeWork_control {s : State} (control : Control s) (order : CloseOrder) (closed : Settings) (seen : Vector OutletState 48)
    (res : Vector OutletResult 48) (seq : Word) (skip : List WatchNo) :
    Control (s.closeWork order closed seen res seq skip).1 :=
  scanIfDue_control (closeTurns_control closed seen res seq order _ _ none control)

theorem openedAfter_view (s : State) (state : TimebaseState) (note : Option NoticeKind) : SameView s (s.openedAfter state note) := by
  obtain ⟨same, -, -, outlets, -, -⟩ := openedAfter_same s state note
  generalize s.openedAfter state note = v at same outlets ⊢
  have kept : SameView s v := {
    outlets := fun j => by
      obtain ⟨c, h⟩ := outlets j
      rw [h]
      exact ⟨⟨rfl, rfl, rfl, rfl, rfl, rfl⟩, rfl⟩
    moves := by rw [same]
    drivers := by rw [same]
    waitList := by rw [same]
    queue := by rw [same]
    nextArrival := by rw [same]
    loads := fun b => by rw [same]
    cycles := fun c => by rw [same]; exact ⟨rfl, rfl, fun _ => rfl⟩ }
  exact kept

theorem latchCopy_view (s : State) (seq : Word) : SameView s (s.latchCopy seq) := by
  unfold State.latchCopy
  split
  case isFalse => exact .refl s
  case isTrue =>
    dsimp only
    generalize writeWord (writeLatch s.mem seq s.partTime (s.meter.toList.map (·.energy))) addrLatchState
      (BitVec.ofNat 32 LatchState.full.code) = m
    have copied : SameView s { s with mem := m, pub := { s.pub with latch := .full, latchList := [] } } :=
      .of_tables rfl rfl rfl rfl rfl rfl rfl rfl
    split
    · exact copied
    · exact (copied.trans (finishOrder_view _ _ _)).trans (.foldl (fun s e => finishOrder_view s e _) _ _)

theorem answerClears_view (s : State) (cleared : OutletIx → Bool) : SameView s (s.answerClears cleared) := by
  refine .foldl (fun s e => ?_) _ _
  split
  · exact .refl s
  · split
    · refine .foldl (fun s m => ?_) _ _
      split
      · exact orderReply_view s e _ _
      · exact .refl s
    · exact .refl s

theorem shedTake_view (s : State) (closed : Settings) : SameView s (s.shedTake closed) :=
  .of_tables rfl rfl rfl rfl rfl rfl rfl rfl

theorem workAtClose_control {v : State} (control : Control v) (order : CloseOrder) (closed : Settings)
    (res : Vector OutletResult 48) (seq : Word) : Control (v.workAtClose order closed res seq).1 := by
  obtain ⟨worked, handed⟩ := outletsWork_control control closed res seq
  have scheduled := schedulerWork_control worked closed res handed
  exact closeWork_control (watchTake_control (scheduled.view (shedTake_view _ closed)) closed) _ _ _ _ _ _

theorem closeFrameIn_control {s : State} (control : Control s) (order : CloseOrder) (short : Bool) (cycleCount : Nat)
    (state : TimebaseState) (note : Option NoticeKind) : Control (s.closeFrameIn order short cycleCount state note) := by
  have before : Control (s.beforeWork state note) := control.view
    ((openedAfter_view s state note).trans ((latchCopy_view _ _).trans (answerClears_view _ _)))
  have worked := workAtClose_control before order s.work (tab fun k => (s.frameOutlet (s.now - s.tb.openInstant) k).1)
    (nextSequence s.pub.closedSeq)
  exact worked.view (.of_tables rfl rfl rfl rfl rfl rfl rfl rfl)

theorem withOwnSample_control {s : State} {begin : State → State} (control : Control s)
    (h : ∀ v, Control v → Control (begin v)) : Control (s.withOwnSample begin) := by
  unfold State.withOwnSample
  split
  case h_1 => exact h s control
  case h_2 l _ =>
    have given : Control (begin (s.giveBack l)) := h _ (control.view (.of_tables rfl rfl rfl rfl rfl rfl rfl rfl))
    exact given.view (.of_tables rfl rfl rfl rfl rfl rfl rfl rfl)

theorem closeFrame_control {s : State} (control : Control s) (short : Bool) (cycleCount : Nat) (state : TimebaseState)
    (note : Option NoticeKind) : Control (s.closeFrame short cycleCount state note) :=
  withOwnSample_control control fun v hv => closeFrameIn_control
    (hv.view (.of_tables (u := { v with choices := v.choices + 1 }) rfl rfl rfl rfl rfl rfl rfl rfl)) _ _ _ _ _

/-! ### The front end (R5 to R12) -/

theorem phaseLive_view (s : State) (p : Phase) : SameView s (s.phaseLive p) := by
  unfold State.phaseLive
  dsimp only
  split
  · exact (notice_view s _ _ _ _).trans (.of_tables rfl rfl rfl rfl rfl rfl rfl rfl)
  · exact notice_view s _ _ _ _

theorem takeLock_control {s : State} (control : Control s) : Control s.takeLock := by
  unfold State.takeLock
  split
  · unfold State.lockAtOpen
    refine control.view (SameView.trans ?_ (notice_view _ _ _ _ _))
    exact .of_tables rfl rfl rfl rfl rfl rfl rfl rfl
  · refine closeFrame_control (control.view ?_) _ _ _ _
    exact .of_tables rfl rfl rfl rfl rfl rfl rfl rfl

theorem endL1Cycle_control {s : State} (control : Control s) : Control s.endL1Cycle := by
  unfold State.endL1Cycle
  dsimp only
  split
  · exact closeFrame_control control _ _ _ _
  · exact withOwnSample_control control fun v hv => hv.view (.of_tables rfl rfl rfl rfl rfl rfl rfl rfl)

theorem risingL1_control {s : State} (control : Control s) : Control s.risingL1 := by
  unfold State.risingL1
  split
  · exact takeLock_control control
  · split
    · split
      · exact endL1Cycle_control control
      · exact control
    · exact control

theorem crossing_control {s : State} (control : Control s) (p : Phase) (pol : Polarity) : Control (s.crossing p pol) := by
  have live (q : Bool) {v : State} (hv : Control v) : Control (if q = true then v.phaseLive p else v) := by
    cases q
    · exact hv
    · exact hv.view (phaseLive_view v p)
  have recorded : Control { s with phases := upd s.phases p fun x => x.accept s.now pol } :=
    control.view (.of_tables rfl rfl rfl rfl rfl rfl rfl rfl)
  unfold State.crossing
  dsimp only
  split
  case isFalse => exact control
  case isTrue =>
    split
    · exact risingL1_control (live _ recorded)
    · exact live _ recorded

theorem phaseDies_control {s : State} (control : Control s) (p : Phase) : Control (s.phaseDies p) := by
  unfold State.phaseDies
  split
  case isFalse => exact control
  case isTrue =>
    have dead : Control ({ s with phases := upd s.phases p PhaseStatus.die }.notice .phaseDead (numberOf p) 0
        (BitVec.ofNat 32 (s.phases[p].half.getD 0))) := by
      refine control.view (SameView.trans ?_ (notice_view _ _ _ _ _))
      exact .of_tables rfl rfl rfl rfl rfl rfl rfl rfl
    dsimp only
    split
    · unfold State.l1Dead
      split
      · exact closeFrame_control dead _ _ _ _
      · exact dead.view (.of_tables rfl rfl rfl rfl rfl rfl rfl rfl)
    · exact dead

theorem closeIfRun_control {s : State} (control : Control s) : Control s.closeIfRun := by
  unfold State.closeIfRun
  split
  · exact closeFrame_control control _ _ _ _
  · exact control

theorem takeSample_view (s : State) (x : SampleSet) : SameView s (s.takeSample x) := by
  unfold State.takeSample
  split
  · exact .refl s
  · split <;> exact .of_tables rfl rfl rfl rfl rfl rfl rfl rfl

/-! ### Orders (R171 to R178) -/

theorem take1_control {s : State} (control : Control s) (kind : Option OrderKind) {work : SlotNo → SlotFields → State → State}
    (h : ∀ e f v, Control v → Control (work e f v)) : Control (s.take1 kind work) := by
  rcases take1_cases s kind work with same | ⟨e, rest, -, -, -, taken⟩
  · rw [same]
    exact control
  · rw [taken]
    exact h e _ _ (control.view (hold_orderOnly s e rest).view)

theorem takeMembers_control {s : State} (control : Control s) (kind : OrderKind)
    {work : SlotNo → SlotFields → List OutletIx → State → State} (h : ∀ e f ms v, Control v → Control (work e f ms v)) :
    Control (s.takeMembers kind work) :=
  take1_control control _ fun e f v hv => by
    unfold State.withMembers
    split
    · exact hv.view (finishOrder_view v e _)
    · exact h e f _ v hv

theorem enroll_view (s : State) (e : SlotNo) (f : SlotFields) (ms : List OutletIx) : SameView s (s.enroll e f ms) :=
  setOrder_view s e _

theorem switchOnMembers_control {s : State} (control : Control s) (e : SlotNo) (f : SlotFields) (ms : List OutletIx) :
    Control (s.switchOnMembers e f ms) :=
  foldl_control (fun _ _ control => settle_control ((requestClose_requested _ (.inl ⟨e, rfl⟩)).control control)) ms
    (control.view (enroll_view s e f ms))

theorem switchOffMembers_control {s : State} (control : Control s) (e : SlotNo) (f : SlotFields) (ms : List OutletIx) :
    Control (s.switchOffMembers e f ms) :=
  foldl_control (fun _ _ control => settle_control ((requestOpen_requested (.inl ⟨e, rfl⟩)).control control)) ms
    (control.view (enroll_view s e f ms))

theorem admissionAnswer_view (s : State) (e : SlotNo) (r : AdmitResult) : SameView s (s.admissionAnswer e r) := by
  unfold State.admissionAnswer
  split
  · exact finishOrder_view s e _
  all_goals
    split
    · exact .refl s
    · exact setOrder_view s e _

theorem cycleOrder_control {s : State} (control : Control s) (e : SlotNo) (f : SlotFields) (ms : List OutletIx) :
    Control (s.cycleOrder e f ms) := (admission_control control _ ms _).view (admissionAnswer_view _ e _)

theorem cancelOrder_control {s : State} (control : Control s) (e : SlotNo) (param : Word) : Control (s.cancelOrder e param) := by
  unfold State.cancelOrder
  split
  · dsimp only
    split <;> exact (cancel_control control _).view (finishOrder_view _ e _)
  · exact control.view (finishOrder_view s e _)

theorem clearFaultAt_sound {s : State} {k : OutletIx} (control : Control s) (fault : s.outlets[k].state = .fault)
    (kind : Option FaultKind) : Sound s (s.clearFaultAt k kind) := by
  have eq : s.clearFaultAt k kind = ((s.sensed k).modOutlet k fun o => { o with faultKind := none, drop := false, weld := false }).notice
    .faultCleared (numberOf k) (optCode FaultKind.code kind)
    (BitVec.ofNat 32 (if s.sense[k].level then OutletState.on else .off).code) := rfl
  rw [eq]
  have relay := control.relay k
  have outlet : ((s.sensed k).modOutlet k fun o => { o with faultKind := none, drop := false, weld := false }).outlets[k] =
    { (s.sensed k).outlets[k] with faultKind := none, drop := false, weld := false } := upd_same _ _ _
  rw [sensed_outlet] at outlet
  have moving : movingDir s.outlets[k].state = none := by rw [fault]; rfl
  have only : Only k s ((s.sensed k).modOutlet k fun o => { o with faultKind := none, drop := false, weld := false }) :=
    (sensed_only s k).trans (modOutlet_only _ k _)
  refine Sound.view (found_sound control (.inr fault) only (by rw [sensed_same]; rfl) ?_ ?_ ?_ ?_ ?_ ?_) (notice_view _ _ _ _ _)
  · rw [outlet]
    cases s.sense[k].level with
    | true => exact .inl rfl
    | false => exact .inr rfl
  · rw [outlet]
    exact relay.requests.owner_none moving (fault ▸ OutletState.noConfusion)
  · rw [outlet]
    exact relay.requests.pending_none moving
  all_goals rw [outlet]

theorem clearFaultMember_control {s : State} (control : Control s) (k : OutletIx) : Control (s.clearFaultMember k).1 := by
  unfold State.clearFaultMember
  dsimp only
  split
  · exact control
  · split
    case h_1 fault =>
      split
      · exact (clearFaultAt_sound control fault _).control
      · exact control
    all_goals exact control

theorem clearFaultMembers_control {s : State} (control : Control s) (e : SlotNo) (f : SlotFields) (ms : List OutletIx) :
    Control (s.clearFaultMembers e f ms) :=
  foldl_control (fun _ k control => (clearFaultMember_control control k).view (orderReply_view _ e k _)) ms
    (control.view (enroll_view s e f ms))

theorem rearmOrder_control {s : State} (control : Control s) (e : SlotNo) (param : Word) : Control (s.rearmOrder e param) := by
  unfold State.rearmOrder
  split
  case isFalse => exact control.view (finishOrder_view s e _)
  case isTrue h =>
    have rearmed : SameView s (s.rearm ⟨param.toNat, h⟩).1 := by
      unfold State.rearm
      split
      · exact .refl s
      · exact .refl s
      all_goals exact modWatch_view s _ _
    dsimp only
    split <;> exact control.view (rearmed.trans (finishOrder_view _ e _))

/-! ### Host writes (R184) -/

theorem writeMemWord_drivers (s : State) (a : Nat) (v : Word) : (s.writeMemWord a v).drivers = s.drivers := by
  unfold State.writeMemWord
  split
  · unfold State.writeLatchState
    split <;> rfl
  · split
    · unfold State.writeMissedKinds
      split <;> rfl
    · split
      · unfold State.writeSlotWord
        dsimp only
        split_ifs <;> rfl
      · split <;> rfl

theorem writePost_drivers (s : State) (v : Word) : (s.writePost v).drivers = s.drivers := by
  unfold State.writePost
  dsimp only
  split_ifs <;> rfl

/-- A host write that does not begin a reset leaves the control of the outlets. -/
theorem hostWriteWord_view {s : State} (a : Nat) (v : Word) (running : (s.hostWriteWord a v).resetting = none) :
    s.resetting = none ∧ SameView s (s.hostWriteWord a v) := by
  have same := (hostWriteWord_port s a v).same
  have before : s.resetting = none := by
    by_contra resetting
    rw [State.hostWriteWord, if_pos (Option.isSome_iff_ne_none.mpr resetting)] at running
    exact resetting running
  have drivers : (s.hostWriteWord a v).drivers = s.drivers := by
    unfold State.hostWriteWord at running ⊢
    dsimp only at running ⊢
    split_ifs at running ⊢ with h1 h2 h3 h4
    case pos => rfl
    case pos => exact writeMemWord_drivers s _ v
    case pos => rfl
    case pos =>
      unfold State.writeControl at running ⊢
      split_ifs at running ⊢
      · cases running
      · rfl
    all_goals first | rfl | exact writePost_drivers s v
  refine ⟨before, ?_⟩
  generalize s.hostWriteWord a v = u at *
  rw [same]
  exact .of_tables rfl rfl drivers rfl rfl rfl rfl rfl

theorem hostWriteWords_view (ws : List (Nat × Word)) {s : State} (running : (s.hostWriteWords ws).resetting = none) :
    s.resetting = none ∧ SameView s (s.hostWriteWords ws) := by
  unfold State.hostWriteWords at running ⊢
  induction ws generalizing s with
  | nil => exact ⟨running, .refl s⟩
  | cons w ws ih =>
    obtain ⟨running, later⟩ := ih running
    obtain ⟨before, first⟩ := hostWriteWord_view w.1 w.2 running
    exact ⟨before, first.trans later⟩

/-! ### Commands -/

theorem advance_view (s : State) (t : Nat) : SameView s (s.advance t) := .of_tables rfl rfl rfl rfl rfl rfl rfl rfl

/-- An event that ends outside a reset was outside one, and its work was done. -/
theorem control_event {s : State} {t : Nat} {work : State → State} (control : s.resetting = none → Control s)
    (running : (s.event t work).resetting = none) (h : ∀ v, Control v → Control (work v)) : Control (s.event t work) := by
  by_cases before : s.resetting = none
  · rw [event_running before]
    exact (scanIfDue_control (h _ ((control before).view (advance_view s t)))).view (.of_tables rfl rfl rfl rfl rfl rfl rfl rfl)
  · rw [event_resetting before] at running
    exact absurd running before

theorem control_quietEvent {s : State} {t : Nat} {work : State → State} (control : s.resetting = none → Control s)
    (running : (s.quietEvent t work).resetting = none)
    (h : ∀ v, v.resetting = none → Control v → (work v).resetting = none → Control (work v)) : Control (s.quietEvent t work) := by
  by_cases before : s.resetting = none
  · rw [quietEvent_running before] at running ⊢
    exact h _ before ((control before).view (advance_view s t)) running
  · rw [quietEvent_resetting before] at running
    exact absurd running before

theorem afterReset_control (s : State) (kind : ResetKind) : Control (s.afterReset kind) := by
  unfold State.afterReset
  exact control_of_reset reset_outlet reset_move reset_driver reset_cycle reset_load rfl rfl

theorem rawSense_control {s : State} (control : Control s) (x : Vector Sense 48) : Control { s with sense := x } :=
  control.view (.of_tables rfl rfl rfl rfl rfl rfl rfl rfl)

theorem sdo_control {s : State} (control : Control s) (x : List Byte) : Control { s with sdo := x } :=
  control.view (.of_tables rfl rfl rfl rfl rfl rfl rfl rfl)

theorem raise_view (s : State) (c : Cause) : SameView s (s.raise c) := .of_tables rfl rfl rfl rfl rfl rfl rfl rfl

theorem publish_view (s : State) : SameView s s.publish := by
  unfold State.publish
  split
  · exact .of_tables rfl rfl rfl rfl rfl rfl rfl rfl
  all_goals exact .refl s

theorem flip_view (s : State) : SameView s s.flip := by
  unfold State.flip
  split
  · exact .refl s
  · exact .of_tables rfl rfl rfl rfl rfl rfl rfl rfl

theorem dropHead_view (s : State) : SameView s s.dropHead := by
  unfold State.dropHead
  split
  · exact .refl s
  · split
    · exact .refl s
    · exact .of_tables rfl rfl rfl rfl rfl rfl rfl rfl

/-- Every command that ends outside a reset keeps the agreement. -/
theorem control_exec {s u : State} {i : Instr} (control : s.resetting = none → Control s) (next : exec i s = .next u)
    (running : u.resetting = none) : Control u := by
  cases i <;> simp only [exec] at next
  case powerOnReset | pinReset => cases next; cases running
  case endOfReset =>
    unfold execEndOfReset at next
    split at next
    · cases next
      exact control running
    · cases next
      exact afterReset_control s _
  case rawSenseChange t k level =>
    unfold execRawSenseChange at next
    split at next
    · cases next
      exact rawSense_control (control running) _
    · cases next
      exact rawSense_control ((control running).view (advance_view s t)) _
  case read =>
    cases next
    exact sdo_control (control_quietEvent control running fun _ _ hv _ => hv) _
  case illegalCommand =>
    cases next
    refine sdo_control (control_quietEvent control running fun v _ hv _ => ?_) _
    split
    · exact hv
    · exact hv.view (raise_view v _)
  case softReset | post | slotWordWrite | latchStateWrite | missedKindsWrite | causeWrite | maskWrite | unmappedWrite =>
    cases next
    exact control_quietEvent control running fun v _ hv running => hv.view (hostWriteWord_view _ _ running).2
  case hostWordWrite =>
    cases next
    exact control_quietEvent control running fun v _ hv running => hv.view (hostWriteWords_view _ running).2
  case sample => cases next; exact control_quietEvent control running fun v _ hv _ => hv.view (takeSample_view v _)
  case framePublication => cases next; exact control_quietEvent control running fun v _ hv _ => hv.view (publish_view v)
  case frameFlip => cases next; exact control_quietEvent control running fun v _ hv _ => hv.view (flip_view v)
  case partTimeRewrite =>
    cases next
    exact control_quietEvent control running fun v _ hv _ => hv.view (.of_tables rfl rfl rfl rfl rfl rfl rfl rfl)
  case pulseStart => cases next; exact control_quietEvent control running fun v _ hv _ => plannedPulse_control hv _
  case slotDrop => cases next; exact control_quietEvent control running fun v _ hv _ => hv.view (dropHead_view v)
  case senseChange => cases next; exact control_event control running fun v hv => acceptSense_control hv _
  case zeroCrossing => cases next; exact control_event control running fun v hv => crossing_control hv _ _
  case phaseDead => cases next; exact control_event control running fun v hv => phaseDies_control hv _
  case frameClose => cases next; exact control_event control running fun v hv => closeIfRun_control hv
  case closeSpacingElapsed => cases next; exact control_event control running fun v hv => spacingScan_control hv _
  case queuePatience => cases next; exact control_event control running fun v hv => patienceAt_control hv _
  case pulseEnd => cases next; exact control_event control running fun v hv => widthPassed_control hv _
  case verifyDeadline => cases next; exact control_event control running fun v hv => deadlineReached_control hv _
  case restDeadline => cases next; exact control_event control running fun v hv => restOver_control hv _
  case orderKindRefused =>
    cases next
    exact control_event control running fun v hv => take1_control hv _ fun _ _ w hw => hw.view (finishOrder_view w _ _)
  case switchOn =>
    cases next
    exact control_event control running fun v hv => takeMembers_control hv _ fun _ _ _ _ hw => switchOnMembers_control hw _ _ _
  case switchOff =>
    cases next
    exact control_event control running fun v hv => takeMembers_control hv _ fun _ _ _ _ hw => switchOffMembers_control hw _ _ _
  case cycle =>
    cases next
    exact control_event control running fun v hv => takeMembers_control hv _ fun _ _ _ _ hw => cycleOrder_control hw _ _ _
  case cancelCycle =>
    cases next
    exact control_event control running fun v hv => take1_control hv _ fun _ _ _ hw => cancelOrder_control hw _ _
  case clearFault =>
    cases next
    exact control_event control running fun v hv => takeMembers_control hv _ fun _ _ _ _ hw => clearFaultMembers_control hw _ _ _
  case clearEnergy =>
    cases next
    exact control_event control running fun v hv =>
      takeMembers_control hv _ fun _ _ _ w hw => hw.view (clearEnergyMembers_orderOnly w _ _ _).view
  case latchEnergy =>
    cases next
    exact control_event control running fun v hv => take1_control hv _ fun _ _ w hw => hw.view (latchOrder_orderOnly w _).view
  case rearmWatch =>
    cases next
    exact control_event control running fun v hv => take1_control hv _ fun _ _ _ hw => rearmOrder_control hw _ _

/-- Settles O58: an idle step changes nothing, and every command that ends outside a reset keeps the agreement. -/
theorem controlKeptByStep : Obligations.ControlKeptByStep := by
  unfold Obligations.ControlKeptByStep
  intro s u control next running
  unfold step at next
  split at next
  · cases next
    exact control running
  · rename_i c rest _
    have waiting : s.resetting = none → Control { s with pending := rest } := fun before =>
      (control before).view (.of_tables rfl rfl rfl rfl rfl rfl rfl rfl)
    exact control_exec waiting next running

end Sys2Proof.Machine
end

section
/-! PROOF. What a settings take does to a watch (R158, R166, R149). -/
namespace Sys2Proof.Machine

open Sys2Proof.Safety

theorem modWatch_at (s : State) (w : WatchNo) (f : WatchRec → WatchRec) : (s.modWatch w f).watches[w] = f s.watches[w] :=
  upd_same _ _ _

theorem modWatch_other (s : State) {v w : WatchNo} (f : WatchRec → WatchRec) (h : v ≠ w) :
    (s.modWatch w f).watches[v] = s.watches[v] := upd_other _ _ h

theorem enabled_eq_false (cfg : WatchSettings) : cfg.enabled = false ↔ cfg.enable = false ∨ cfg.members = [] := by
  simp only [WatchSettings.enabled, Bool.and_eq_false_iff, Bool.not_eq_false', List.isEmpty_iff]

theorem retaken_eq (x : WatchRec) (before cfg : WatchSettings) : x.retaken before cfg = { x with
    reference := if before.members = cfg.members then x.reference else none
    framesLeft := if x.state = .watching then min x.framesLeft cfg.timeout
      else if x.state = .grace then min x.framesLeft cfg.grace else x.framesLeft
    consecutive := min x.consecutive cfg.cycleLimit } := by
  unfold WatchRec.retaken
  cases x.state <;> rfl

/-- The take of a CYCLING watch that is left disabled. -/
theorem takeWatchAt_attached {s : State} {w : WatchNo} {c : RecNo} (closed : Settings)
    (disabled : s.work.watches[w].enabled = false) (cycling : s.watches[w].state = .cycling)
    (record : s.watches[w].record = some c) : s.takeWatchAt closed w = (s.detach c w).modWatch w WatchRec.disarmed := by
  simp only [State.takeWatchAt, disabled, Bool.not_false, if_true, cycling, record]

theorem takeWatchAt_unattached {s : State} {w : WatchNo} (closed : Settings) (disabled : s.work.watches[w].enabled = false)
    (apart : s.watches[w].state ≠ .cycling ∨ s.watches[w].record = none) :
    s.takeWatchAt closed w = s.modWatch w WatchRec.disarmed := by
  simp only [State.takeWatchAt, disabled, Bool.not_false, if_true]
  split
  case h_1 c cycling record =>
    rcases apart with h | h
    · exact absurd cycling h
    · rw [h] at record
      cases record
  case h_2 => rfl

theorem takeWatchAt_armed {s : State} {w : WatchNo} (closed : Settings) (enabled : s.work.watches[w].enabled = true)
    (state : s.watches[w].state = .disarmed) :
    s.takeWatchAt closed w = s.modWatch w fun x => x.armed s.work.watches[w] (renewalAt s.mem w) := by
  simp only [State.takeWatchAt, enabled, Bool.not_true, state, if_true, Bool.false_eq_true, if_false]

theorem takeWatchAt_retaken {s : State} {w : WatchNo} (closed : Settings) (enabled : s.work.watches[w].enabled = true)
    (state : s.watches[w].state ≠ .disarmed) :
    s.takeWatchAt closed w = s.modWatch w fun x => x.retaken closed.watches[w] s.work.watches[w] := by
  simp only [State.takeWatchAt, enabled, Bool.not_true, state, Bool.false_eq_true, if_false]

/-- A take changes the watch taken, and the origins of the record that the watch leaves. -/
theorem takeWatchAt_parts (s : State) (closed : Settings) (w : WatchNo) :
    ∃ v, (v = s ∨ ∃ c, v = s.detach c w) ∧ ∃ f, s.takeWatchAt closed w = v.modWatch w f := by
  cases h : s.work.watches[w].enabled with
  | false =>
    by_cases apart : s.watches[w].state ≠ .cycling ∨ s.watches[w].record = none
    · exact ⟨s, .inl rfl, _, takeWatchAt_unattached closed h apart⟩
    · push Not at apart
      obtain ⟨c, record⟩ := Option.ne_none_iff_exists'.mp apart.2
      exact ⟨_, .inr ⟨c, rfl⟩, _, takeWatchAt_attached closed h apart.1 record⟩
  | true =>
    by_cases state : s.watches[w].state = .disarmed
    · exact ⟨s, .inl rfl, _, takeWatchAt_armed closed h state⟩
    · exact ⟨s, .inl rfl, _, takeWatchAt_retaken closed h state⟩

/-- Settles O55: the take by what the settings leave and the state of the watch. -/
theorem watchTakeActs : Obligations.WatchTakeActs := by
  unfold Obligations.WatchTakeActs
  intro s closed w
  dsimp only
  rw [← enabled_eq_false]
  have enabled (h : ¬s.work.watches[w].enabled = false) : s.work.watches[w].enabled = true := by
    rwa [Bool.not_eq_false] at h
  refine ⟨?_, fun v hv => ?_, fun disabled => ?_, fun c disabled cycling record => ?_, fun h => ?_, fun h state => ?_, fun h state => ?_⟩
  · obtain ⟨v, rfl | ⟨c, rfl⟩, f, eq⟩ := takeWatchAt_parts s closed w <;> rw [eq] <;> rfl
  · obtain ⟨x, rfl | ⟨c, rfl⟩, f, eq⟩ := takeWatchAt_parts s closed w <;> rw [eq] <;> exact modWatch_other _ f hv
  · by_cases apart : s.watches[w].state ≠ .cycling ∨ s.watches[w].record = none
    · rw [takeWatchAt_unattached closed disabled apart, modWatch_at]
      rfl
    · push Not at apart
      obtain ⟨c, record⟩ := Option.ne_none_iff_exists'.mp apart.2
      rw [takeWatchAt_attached closed disabled apart.1 record, modWatch_at]
      rfl
  · rw [takeWatchAt_attached closed disabled cycling record]
    refine ⟨fun r hr => upd_other _ _ hr, ?_⟩
    refine (upd_same _ _ _).trans ?_
    congr 1
    exact List.filter_congr fun o _ => by rw [bne, Bool.beq_eq_decide_eq, decide_not]
  · by_cases disabled : s.work.watches[w].enabled = false
    · rw [takeWatchAt_unattached closed disabled (h.resolve_left (not_not_intro disabled))]
      rfl
    · by_cases state : s.watches[w].state = .disarmed
      · rw [takeWatchAt_armed closed (enabled disabled) state]
        rfl
      · rw [takeWatchAt_retaken closed (enabled disabled) state]
        rfl
  · rw [takeWatchAt_armed closed (enabled h) state, modWatch_at, WatchRec.armed, restart_eq]
    rfl
  · rw [takeWatchAt_retaken closed (enabled h) state, modWatch_at, retaken_eq]

end Sys2Proof.Machine
end

section
/-! PROOF. OPEN requests of outlets that are ON, and the admission table (R133 to R136). -/
namespace Sys2Proof.Machine

open Sys2Proof.Safety

/-! ### Opens of several outlets -/

theorem enterOpening_same (s : State) (k : OutletIx) (w : Owner) : s.enterOpening k w = { s with
    loads := (s.enterOpening k w).loads, scanDue := (s.enterOpening k w).scanDue
    outlets := (s.enterOpening k w).outlets, drivers := (s.enterOpening k w).drivers
    moves := (s.enterOpening k w).moves, waitList := (s.enterOpening k w).waitList } := by
  rw [enterOpening_eq, needDriver_same, openAsked_same]

theorem enterOpening_outlet (s : State) (k : OutletIx) (w : Owner) : ∃ v, (s.enterOpening k w).outlets[k] =
    { s.outlets[k] with
      state := .opening, lastChange := s.partTime, owner := some w, wholeFrame := false, retry := false, unverified := v } := by
  obtain ⟨v, kept⟩ := needDriver_outlet (s.openAsked k w) k .toOpen false
  rw [openAsked_outlet, ← enterOpening_eq] at kept
  exact ⟨v, kept⟩

theorem openByState_on {s : State} {k : OutletIx} (on : s.outlets[k].state = .on) (w : Owner) :
    s.openByState k w = (s.enterOpening k w, []) := by
  simp only [State.openByState, on]

/-- The outlets of `ks` open for `w`, one after another. -/
def State.opensAll (s : State) (ks : List OutletIx) (w : Owner) : State := ks.foldl (fun s k => s.enterOpening k w) s

theorem opensAll_cons (s : State) (k : OutletIx) (ks : List OutletIx) (w : Owner) :
    s.opensAll (k :: ks) w = (s.enterOpening k w).opensAll ks w := rfl

theorem opensAll_same (s : State) (ks : List OutletIx) (w : Owner) : s.opensAll ks w = { s with
    loads := (s.opensAll ks w).loads, scanDue := (s.opensAll ks w).scanDue, outlets := (s.opensAll ks w).outlets
    drivers := (s.opensAll ks w).drivers, moves := (s.opensAll ks w).moves, waitList := (s.opensAll ks w).waitList } := by
  induction ks generalizing s with
  | nil => rfl
  | cons k ks ih => rw [opensAll_cons, ih, enterOpening_same]

theorem opensAll_other (s : State) {ks : List OutletIx} (w : Owner) {j : OutletIx} (h : j ∉ ks) :
    (s.opensAll ks w).outlets[j] = s.outlets[j] := by
  induction ks generalizing s with
  | nil => rfl
  | cons k ks ih =>
    obtain ⟨ne, rest⟩ := not_or.mp (mt List.mem_cons.mpr h)
    rw [opensAll_cons, ih _ rest, (enterOpening_only s k w).outlets j ne]

theorem opensAll_outlet (s : State) {ks : List OutletIx} (w : Owner) (nodup : ks.Nodup) {k : OutletIx} (h : k ∈ ks) :
    ∃ v, (s.opensAll ks w).outlets[k] = { s.outlets[k] with
      state := .opening, lastChange := s.partTime, owner := some w, wholeFrame := false, retry := false, unverified := v } := by
  induction ks generalizing s with
  | nil => cases h
  | cons j ks ih =>
    obtain ⟨out, nodup⟩ := List.nodup_cons.mp nodup
    rw [opensAll_cons]
    rcases List.mem_cons.mp h with rfl | h
    · rw [opensAll_other _ w out]
      exact enterOpening_outlet s k w
    · obtain ⟨v, hv⟩ := ih (s.enterOpening j w) nodup h
      refine ⟨v, ?_⟩
      rw [hv, (enterOpening_only s j w).outlets k fun e => out (e ▸ h), enterOpening_same]
      rfl

/-- OPEN requests of a record, sent to outlets that are ON, are all carried out at once. -/
theorem sendOpens_on {s : State} {ks : List OutletIx} (c : RecNo) (nodup : ks.Nodup) (on : ∀ k ∈ ks, s.outlets[k].state = .on) :
    s.sendOpens ks (.cycle c) = (s.opensAll ks (.cycle c), []) := by
  unfold State.sendOpens
  induction ks generalizing s with
  | nil => rfl
  | cons k ks ih =>
    obtain ⟨out, nodup⟩ := List.nodup_cons.mp nodup
    have first : s.requestOpen k (.cycle c) = (s.enterOpening k (.cycle c), []) := openByState_on (on k List.mem_cons_self) _
    rw [List.foldl_cons, opensAll_cons]
    simp only [first, List.append_nil]
    refine ih nodup fun j hj => ?_
    rw [(enterOpening_only s k _).outlets j fun e => out (e ▸ hj)]
    exact on j (List.mem_cons_of_mem _ hj)

/-! ### The first entry of a list -/

theorem find?_indices {n : Nat} {p : Fin n → Bool} {i : Fin n} (h : p i = true) (first : ∀ j < i, p j = false) :
    (indices n).find? p = some i := by
  cases found : (indices n).find? p with
  | none =>
    exact absurd h (List.find?_eq_none.mp found i (List.mem_finRange i))
  | some j =>
    obtain ⟨hj, front, back, split, before⟩ := List.find?_eq_some_iff_append.mp found
    have sorted : (indices n).Pairwise (· < ·) := List.pairwise_lt_finRange n
    rcases lt_trichotomy j i with lt | rfl | gt
    · rw [first j lt] at hj
      cases hj
    · rfl
    · have mem : i ∈ front ++ j :: back := split ▸ List.mem_finRange i
      rw [split] at sorted
      obtain ⟨-, later, -⟩ := List.pairwise_append.mp sorted
      rcases List.mem_append.mp mem with mem | mem
      · have no := before i mem
        rw [h] at no
        cases no
      · rcases List.mem_cons.mp mem with rfl | mem
        · rfl
        · exact absurd ((List.pairwise_cons.mp later).1 i mem) (lt_asymm gt)

theorem find?_first {α : Type} {p : α → Bool} {l front back : List α} {x : α} (split : l = front ++ x :: back) (h : p x = true)
    (before : ∀ y ∈ front, p y = false) : l.find? p = some x :=
  List.find?_eq_some_iff_append.mpr ⟨h, front, back, split, fun y hy => by rw [before y hy]; rfl⟩

theorem find?_none_of {α : Type} {p : α → Bool} {l : List α} (h : ∀ x ∈ l, p x = false) : l.find? p = none :=
  List.find?_eq_none.mpr fun x hx => by rw [h x hx]; exact Bool.false_ne_true

/-! ### The rows of the table -/

theorem retriggers_iff (s : State) (targets : List OutletIx) (c : RecNo) : s.retriggers targets c = true ↔
    (s.cycles[c].state = .opening ∨ s.cycles[c].state = .resting) ∧ (∃ k ∈ targets, k ∈ s.cycles[c].participants) ∧
      ∀ k ∈ targets, k ∈ s.cycles[c].participants ∨ s.outlets[k].state = .off ∧ s.outlets[k].cycle = none := by
  simp [State.retriggers, and_assoc]

theorem busy_iff (o : Outlet) : o.busy = true ↔
    o.cycle ≠ none ∨ o.state = .awaitClose ∨ o.state = .closing ∨ o.state = .opening ∨ o.state = .resting := by
  simp [Outlet.busy, or_assoc, Option.isSome_iff_ne_none]

theorem admission_retriggers {s : State} {o : Origin} {targets : List OutletIx} {rest : Nat} {c : RecNo}
    (h : (indices 16).find? (s.retriggers targets) = some c) :
    s.admission o targets rest = s.retrigger c o targets rest := by
  simp only [State.admission, h]

/-- Rows 2 to 4 of R134. -/
theorem admission_faulty {s : State} {o : Origin} {targets : List OutletIx} {rest : Nat} {k : OutletIx}
    (h1 : (indices 16).find? (s.retriggers targets) = none)
    (h2 : targets.find? (fun k => s.outlets[k].state == .fault) = some k) :
    s.admission o targets rest = (s, .refused (.member .faulted) (some k)) := by
  simp only [State.admission, h1, h2]

theorem admission_unknown {s : State} {o : Origin} {targets : List OutletIx} {rest : Nat} {k : OutletIx}
    (h1 : (indices 16).find? (s.retriggers targets) = none)
    (h2 : targets.find? (fun k => s.outlets[k].state == .fault) = none)
    (h3 : targets.find? (fun k => s.outlets[k].state == .unknown) = some k) :
    s.admission o targets rest = (s, .refused (.member .unknownState) (some k)) := by
  simp only [State.admission, h1, h2, h3]

theorem admission_busy {s : State} {o : Origin} {targets : List OutletIx} {rest : Nat} {k : OutletIx}
    (h1 : (indices 16).find? (s.retriggers targets) = none)
    (h2 : targets.find? (fun k => s.outlets[k].state == .fault) = none)
    (h3 : targets.find? (fun k => s.outlets[k].state == .unknown) = none)
    (h4 : targets.find? (fun k => s.outlets[k].busy) = some k) :
    s.admission o targets rest = (s, .refused .busy (some k)) := by
  simp only [State.admission, h1, h2, h3, h4]

/-- Rows 5 to 7 of R134: no target refuses. -/
theorem admission_free {s : State} {o : Origin} {targets : List OutletIx} {rest : Nat}
    (h1 : (indices 16).find? (s.retriggers targets) = none)
    (h2 : targets.find? (fun k => s.outlets[k].state == .fault) = none)
    (h3 : targets.find? (fun k => s.outlets[k].state == .unknown) = none)
    (h4 : targets.find? (fun k => s.outlets[k].busy) = none) :
    s.admission o targets rest = if targets.all (fun k => s.outlets[k].state != .on) then (s, .refused .nothingOn none)
      else match (indices 16).find? fun c => s.cycles[c].state == .free with
        | none => (s, .refused .full none)
        | some c => (s.startRecord c o targets rest, .admitted c) := by
  simp only [State.admission, h1, h2, h3, h4] <;> rfl

theorem onTargets_nodup (s : State) (targets : List OutletIx) : (s.onTargets targets).Nodup :=
  (List.nodup_finRange 48).filter _

theorem onTargets_pairwise (s : State) (targets : List OutletIx) : (s.onTargets targets).Pairwise (· < ·) :=
  (List.pairwise_lt_finRange 48).filter _

theorem recordJoined_outlet (s : State) (c : RecNo) (o : Origin) (targets : List OutletIx) (rest : Nat) (j : OutletIx) :
    (s.recordJoined c o targets rest).outlets[j] =
      if j ∈ s.onTargets targets then { s.outlets[j] with cycle := some c } else s.outlets[j] := tab_at _ j

/-- R135: the record is filled, and its participants open at once. -/
theorem startRecord_opens (s : State) (c : RecNo) (o : Origin) (targets : List OutletIx) (rest : Nat) :
    s.startRecord c o targets rest = (s.recordJoined c o targets rest).opensAll (s.onTargets targets) (.cycle c) := by
  have on : ∀ k ∈ s.onTargets targets, (s.recordJoined c o targets rest).outlets[k].state = .on := fun k hk => by
    rw [recordJoined_outlet, if_pos hk]
    exact (mem_onTargets.mp hk).2
  rw [startRecord_eq, sendOpens_on c (onTargets_nodup s targets) on]
  exact deliver_nil _ _

theorem startRecord_same (s : State) (c : RecNo) (o : Origin) (targets : List OutletIx) (rest : Nat) :
    s.startRecord c o targets rest = { s with
      loads := (s.startRecord c o targets rest).loads, scanDue := (s.startRecord c o targets rest).scanDue
      outlets := (s.startRecord c o targets rest).outlets, drivers := (s.startRecord c o targets rest).drivers
      moves := (s.startRecord c o targets rest).moves, waitList := (s.startRecord c o targets rest).waitList
      cycles := (s.recordJoined c o targets rest).cycles } := by
  rw [startRecord_opens, opensAll_same]
  rfl

theorem startRecord_opening {s : State} {c : RecNo} {o : Origin} {targets : List OutletIx} {rest : Nat} {k : OutletIx}
    (target : k ∈ targets) (on : s.outlets[k].state = .on) : ∃ v, (s.startRecord c o targets rest).outlets[k] =
      { s.outlets[k] with
        state := .opening, lastChange := s.partTime, owner := some (.cycle c), wholeFrame := false, retry := false
        unverified := v, cycle := some c } := by
  have mem : k ∈ s.onTargets targets := mem_onTargets.mpr ⟨target, on⟩
  obtain ⟨v, hv⟩ := opensAll_outlet (s.recordJoined c o targets rest) (.cycle c) (onTargets_nodup s targets) mem
  rw [recordJoined_outlet, if_pos mem] at hv
  exact ⟨v, by rw [startRecord_opens, hv]; rfl⟩

theorem startRecord_other {s : State} {c : RecNo} {o : Origin} {targets : List OutletIx} {rest : Nat} {k : OutletIx}
    (h : k ∉ targets ∨ s.outlets[k].state ≠ .on) : (s.startRecord c o targets rest).outlets[k] = s.outlets[k] := by
  have out : k ∉ s.onTargets targets := fun mem => h.elim (· (mem_onTargets.mp mem).1) (· (mem_onTargets.mp mem).2)
  rw [startRecord_opens, opensAll_other _ _ out, recordJoined_outlet, if_neg out]

theorem startRecord_record (s : State) (c : RecNo) (o : Origin) (targets : List OutletIx) (rest : Nat) :
    (s.startRecord c o targets rest).cycles[c] = { CycleRec.free with
      state := .opening, participants := s.onTargets targets, restTime := rest, origins := [o]
      skipped := targets.filter fun k => s.outlets[k].state = .off } := by
  rw [startRecord_same]
  refine (upd_same _ _ _).trans ?_
  congr 1

theorem startRecord_records (s : State) {c x : RecNo} (o : Origin) (targets : List OutletIx) (rest : Nat) (h : x ≠ c) :
    (s.startRecord c o targets rest).cycles[x] = s.cycles[x] := by
  rw [startRecord_same]
  exact upd_other _ _ h

theorem retrigger_full {s : State} {c : RecNo} {targets : List OutletIx} (full : 4 ≤ s.cycles[c].origins.length) (o : Origin)
    (rest : Nat) : s.retrigger c o targets rest =
      (s, .refused .busy (targets.find? fun k => k ∈ s.cycles[c].participants)) := if_pos full

theorem retrigger_attaches {s : State} {c : RecNo} (targets : List OutletIx) (room : s.cycles[c].origins.length < 4) (o : Origin)
    (rest : Nat) : s.retrigger c o targets rest = (s.modCycle c fun r => { r with
      origins := r.origins ++ [o], restTime := rest
      restDeadline := if r.state = .resting then some (s.now + rest * 1000) else r.restDeadline }, .attached c) :=
  if_neg (Nat.not_le.mpr room)

/-- Settles O27: the rows of R134, one after another. -/
theorem admissionTable : Obligations.AdmissionTable := by
  unfold Obligations.AdmissionTable
  intro s o targets rest
  dsimp only
  refine ⟨fun c hc first => ?_, fun none => ?_⟩
  · have found : (indices 16).find? (s.retriggers targets) = some c :=
      find?_indices ((retriggers_iff s targets c).mpr hc) fun x hx =>
        Bool.eq_false_iff.mpr fun h => first x hx ((retriggers_iff s targets x).mp h)
    rw [admission_retriggers found]
    refine ⟨fun k full => ?_, fun room => ?_⟩
    · rintro ⟨front, back, split, hk, before⟩
      rw [retrigger_full full, find?_first split (decide_eq_true hk) fun y hy => decide_eq_false (before y hy)]
    · rw [retrigger_attaches targets room]
      exact ⟨rfl, rfl, fun x hx => upd_other _ _ hx, upd_same _ _ _⟩
  · have h1 : (indices 16).find? (s.retriggers targets) = .none := find?_none_of fun c _ =>
      Bool.eq_false_iff.mpr fun h => none c ((retriggers_iff s targets c).mp h)
    refine ⟨?_, fun clean => ?_, fun sound => ⟨?_, fun idle => ?_⟩⟩
    · rintro k ⟨front, back, split, hk, before⟩
      exact admission_faulty h1 (find?_first split (beq_iff_eq.mpr hk) fun y hy => beq_eq_false_iff_ne.mpr (before y hy))
    · rintro k ⟨front, back, split, hk, before⟩
      exact admission_unknown h1 (find?_none_of fun k hk => beq_eq_false_iff_ne.mpr (clean k hk))
        (find?_first split (beq_iff_eq.mpr hk) fun y hy => beq_eq_false_iff_ne.mpr (before y hy))
    all_goals
      have h2 : targets.find? (fun k => s.outlets[k].state == .fault) = .none :=
        find?_none_of fun k hk => beq_eq_false_iff_ne.mpr (sound k hk).1
      have h3 : targets.find? (fun k => s.outlets[k].state == .unknown) = .none :=
        find?_none_of fun k hk => beq_eq_false_iff_ne.mpr (sound k hk).2
    · rintro k ⟨front, back, split, hk, before⟩
      exact admission_busy h1 h2 h3 (find?_first split ((busy_iff _).mpr hk) fun y hy =>
        Bool.eq_false_iff.mpr (mt (busy_iff _).mp (before y hy)))
    · have h4 : targets.find? (fun k => s.outlets[k].busy) = .none :=
        find?_none_of fun k hk => Bool.eq_false_iff.mpr (mt (busy_iff _).mp (idle k hk))
      rw [admission_free h1 h2 h3 h4]
      refine ⟨fun noneOn => ?_, fun ⟨k, target, on⟩ => ?_⟩
      · rw [if_pos (List.all_eq_true.mpr fun k hk => bne_iff_ne.mpr (noneOn k hk))]
      rw [if_neg fun all => absurd on (bne_iff_ne.mp (List.all_eq_true.mp all k target))]
      refine ⟨fun full => ?_, fun c free first => ?_⟩
      · rw [find?_none_of fun c _ => beq_eq_false_iff_ne.mpr (full c)]
      rw [find?_indices (p := fun c => s.cycles[c].state == .free) (i := c) (beq_iff_eq.mpr free) fun x hx => beq_eq_false_iff_ne.mpr (first x hx)]
      refine ⟨rfl, fun x hx => startRecord_records s o targets rest hx, ⟨s.onTargets targets, onTargets_pairwise s targets,
        fun k => mem_onTargets, startRecord_record s c o targets rest⟩, fun k hk on => ?_, fun k hk off => ?_, ?_⟩
      · obtain ⟨v, hv⟩ := startRecord_opening (c := c) (o := o) (rest := rest) hk on
        rw [hv]
        exact ⟨rfl, rfl, rfl⟩
      · exact startRecord_other (.inr (off ▸ OutletState.noConfusion))
      · dsimp only
        rw [startRecord_same]
        exact ⟨rfl, rfl, rfl, rfl, rfl⟩

end Sys2Proof.Machine
end

section
/-! PROOF. What a step leaves of an order and its slot, and the end of a record (R144, R145, R164). -/
namespace Sys2Proof.Machine

open Sys2Proof.Safety

/-! ### An order that is left alone -/

/-- The order of slot `e`, its slot and the finish that it shows are as they were. -/
structure OrderKept (e : SlotNo) (s u : State) : Prop where
  entry : u.orders[e] = s.orders[e]
  slot : ∀ a, slotBytes e a = true → readByte u.mem a = readByte s.mem a
  now : u.now = s.now
  cause : s.cause &&& 4#32 = 4#32 → u.cause &&& 4#32 = 4#32

theorem OrderKept.refl (e : SlotNo) (s : State) : OrderKept e s s := ⟨rfl, fun _ _ => rfl, rfl, id⟩

theorem OrderKept.trans {e : SlotNo} {s u v : State} (h : OrderKept e s u) (g : OrderKept e u v) : OrderKept e s v where
  entry := g.entry.trans h.entry
  slot a ha := (g.slot a ha).trans (h.slot a ha)
  now := g.now.trans h.now
  cause x := g.cause (h.cause x)

/-- A step that reaches neither orders nor memory. -/
theorem OrderKept.of_same {e : SlotNo} {s u : State} (orders : u.orders = s.orders) (mem : u.mem = s.mem) (now : u.now = s.now)
    (cause : u.cause = s.cause) : OrderKept e s u :=
  ⟨by rw [orders], fun _ _ => by rw [mem], now, by rw [cause]; exact id⟩

theorem OrderKept.foldl {α : Type} {e : SlotNo} {f : State → α → State} {l : List α}
    (h : ∀ s, ∀ x ∈ l, OrderKept e s (f s x)) (s : State) : OrderKept e s (l.foldl f s) := by
  induction l generalizing s with
  | nil => exact .refl e s
  | cons x l ih =>
    exact (h s x List.mem_cons_self).trans (ih (fun s y hy => h s y (List.mem_cons_of_mem _ hy)) (f s x))

theorem OrderKept.finished {e : SlotNo} {s u : State} {r : OrderResult} (kept : OrderKept e s u) (h : orderFinished s e r) :
    orderFinished u e r := by
  obtain ⟨free, shown, cause⟩ := h
  exact ⟨kept.entry.trans free, kept.now ▸ slotShows_congr kept.slot shown, kept.cause cause⟩

theorem OrderKept.answered {e : SlotNo} {s u v : State} {k : OutletIx} {r : MemberOutcome} (h : orderAnswered s u e k r)
    (kept : OrderKept e u v) : orderAnswered s v e k r := fun entry held => by
  obtain ⟨opened, closed⟩ := h entry held
  refine ⟨fun still => ?_, fun all => kept.finished (closed all)⟩
  obtain ⟨order, slot⟩ := opened still
  exact ⟨kept.entry.trans order, fun a ha => (kept.slot a ha).trans (slot a ha)⟩

theorem OrderKept.before {e : SlotNo} {s u v : State} {k : OutletIx} {r : MemberOutcome} (kept : OrderKept e s u)
    (h : orderAnswered u v e k r) : orderAnswered s v e k r := fun entry held => by
  obtain ⟨opened, closed⟩ := h entry (kept.entry.trans held)
  refine ⟨fun still => ?_, closed⟩
  obtain ⟨order, slot⟩ := opened still
  exact ⟨order, fun a ha => (slot a ha).trans (kept.slot a ha)⟩

theorem notice_orderKept (e : SlotNo) (s : State) (kind : NoticeKind) (subject reason : Nat) (value : Word) :
    OrderKept e s (s.notice kind subject reason value) := by
  have same := notice_same s kind subject reason value
  have orders : (s.notice kind subject reason value).orders = s.orders := by rw [same]
  have now : (s.notice kind subject reason value).now = s.now := by rw [same]
  exact ⟨by rw [orders], fun a ha => (memStep_notice_noticeBytes s kind subject reason value).bytes a (noticeBytes_outside_slot ha),
    now, fun h => notice_cause h kind subject reason value⟩

theorem OrderKept.noticed {e : SlotNo} {s u : State} (h : OrderKept e s u) (kind : NoticeKind) (subject reason : Nat)
    (value : Word) : OrderKept e s (u.notice kind subject reason value) := h.trans (notice_orderKept e u kind subject reason value)

theorem slotBytes_other {e j : SlotNo} (h : j ≠ e) {a : Nat} (ha : slotBytes j a = true) : slotBytes e a = false :=
  slotBytes_disjoint j e a h ha

theorem finishOrder_orderKept {e j : SlotNo} (h : j ≠ e) (s : State) (r : OrderResult) : OrderKept j s (s.finishOrder e r) := by
  cases held : s.orders[e] with
  | none =>
    have none : s.finishOrder e r = s := by simp only [State.finishOrder, held]
    rw [none]
    exact .refl j s
  | some entry =>
    have same := finishOrder_same held r
    have now : (s.finishOrder e r).now = s.now := by rw [same]
    refine ⟨finishOrder_orders_other h r, fun a ha => ?_, now, fun _ => finishOrder_cause held r⟩
    refine (memStep_finishOrder held r).bytes a ?_
    rw [slotBytes_other h ha, noticeBytes_outside_slot ha]
    rfl

/-- A finish that comes after the first. -/
theorem finishOrder_none {s : State} {e : SlotNo} (h : s.orders[e] = none) (r : OrderResult) : s.finishOrder e r = s := by
  simp only [State.finishOrder, h]

theorem setOrder_orderKept {e j : SlotNo} (h : j ≠ e) (s : State) (x : Option OrderEntry) : OrderKept j s (s.setOrder e x) :=
  ⟨setOrder_other s x h, fun _ _ => rfl, rfl, id⟩

theorem orderReply_orderKept {e j : SlotNo} (h : j ≠ e) (s : State) (k : OutletIx) (r : MemberOutcome) :
    OrderKept j s (s.orderReply e k r) := by
  cases held : s.orders[e] with
  | none =>
    have none : s.orderReply e k r = s := by simp only [State.orderReply, held]
    rw [none]
    exact .refl j s
  | some entry =>
    rw [orderReply_eq held]
    split
    · exact (setOrder_orderKept h s _).trans (finishOrder_orderKept h _ _)
    · exact setOrder_orderKept h s _

/-- R179: the answer that an order receives. -/
theorem orderReply_answered {s : State} (wf : MemWf s.mem) (e : SlotNo) (k : OutletIx) (r : MemberOutcome) :
    orderAnswered s (s.orderReply e k r) e k r := fun entry held => by
  refine ⟨fun still => ?_, fun all => ?_⟩
  · rw [orderReply_open held still]
    exact ⟨setOrder_same _ _ _, fun _ _ => rfl⟩
  · rw [orderReply_last held all]
    exact orderFinished_finishOrder (s := s.setOrder e _) wf (setOrder_same s e _) _

/-- R164: PARTIAL and ABANDONED. -/
theorem watchOutcome_gaveUp {r : OrderOutcome} (h : r = .partly ∨ r = .abandoned) (s : State) (w : WatchNo) :
    s.watchOutcome w r = (s.modWatch w fun x => { x with state := .gaveUp, framesLeft := 0, record := none }).notice
      .watchGaveUp w.val r.code (BitVec.ofNat 32 s.watches[w].consecutive) := by
  rcases h with rfl | rfl <;> rfl

theorem notice_watches (s : State) (kind : NoticeKind) (subject reason : Nat) (value : Word) :
    (s.notice kind subject reason value).watches = s.watches := by rw [notice_same]

theorem modWatch_orderKept (e : SlotNo) (s : State) (w : WatchNo) (f : WatchRec → WatchRec) : OrderKept e s (s.modWatch w f) :=
  .of_same rfl rfl rfl rfl

theorem watchOutcome_orderKept (e : SlotNo) (s : State) (w : WatchNo) (r : OrderOutcome) :
    OrderKept e s (s.watchOutcome w r) := by
  cases r with
  | partly | abandoned =>
    rw [watchOutcome_gaveUp (by simp)]
    exact (modWatch_orderKept e s w _).noticed _ _ _ _
  | _ => exact .of_same rfl rfl rfl rfl

/-! ### The end of a record -/

theorem watchOutcome_same (s : State) (w : WatchNo) (r : OrderOutcome) : s.watchOutcome w r = { s with
    mem := (s.watchOutcome w r).mem, cause := (s.watchOutcome w r).cause, watches := (s.watchOutcome w r).watches } := by
  cases r with
  | partly | abandoned =>
    rw [watchOutcome_gaveUp (by simp), notice_same]
    rfl
  | _ => rfl

theorem finishOrder_parts (s : State) (e : SlotNo) (r : OrderResult) : s.finishOrder e r = { s with
    mem := (s.finishOrder e r).mem, cause := (s.finishOrder e r).cause, orders := (s.finishOrder e r).orders } := by
  cases held : s.orders[e] with
  | none => rw [finishOrder_none held]
  | some entry => rw [finishOrder_same held]

theorem tellOrigin_same (s : State) (c : RecNo) (r : CycleRec) (o : Origin) : s.tellOrigin c r o = { s with
    mem := (s.tellOrigin c r o).mem, cause := (s.tellOrigin c r o).cause, watches := (s.tellOrigin c r o).watches
    orders := (s.tellOrigin c r o).orders } := by
  cases o with
  | order e v =>
    simp only [State.tellOrigin]
    rw [finishOrder_parts]
  | watch w =>
    simp only [State.tellOrigin]
    rw [watchOutcome_same]

/-- R145 step 3: the origins of record `r` are told, in order. -/
def State.tellAll (s : State) (c : RecNo) (r : CycleRec) (os : List Origin) : State :=
  os.foldl (fun s o => s.tellOrigin c r o) s

theorem tellAll_same (s : State) (c : RecNo) (r : CycleRec) (os : List Origin) : s.tellAll c r os = { s with
    mem := (s.tellAll c r os).mem, cause := (s.tellAll c r os).cause, watches := (s.tellAll c r os).watches
    orders := (s.tellAll c r os).orders } := by
  induction os generalizing s with
  | nil => rfl
  | cons o os ih =>
    have step : s.tellAll c r (o :: os) = (s.tellOrigin c r o).tellAll c r os := rfl
    rw [step, ih, tellOrigin_same]

theorem tellOrigin_orderKept {e : SlotNo} {o : Origin} (h : ∀ v, o ≠ .order e v) (s : State) (c : RecNo) (r : CycleRec) :
    OrderKept e s (s.tellOrigin c r o) := by
  cases o with
  | order j v => exact finishOrder_orderKept (fun eq => h v (by rw [eq])) s _
  | watch w => exact watchOutcome_orderKept e s w _

theorem tellAll_orderKept {e : SlotNo} {os : List Origin} (h : ∀ v, Origin.order e v ∉ os) (s : State) (c : RecNo)
    (r : CycleRec) : OrderKept e s (s.tellAll c r os) :=
  .foldl (fun s _ ho => tellOrigin_orderKept (fun v eq => h v (eq ▸ ho)) s c r) s

/-- Once finished, an order stays as its slot shows it. -/
theorem tellAll_finished {s : State} {e : SlotNo} {x : OrderResult} (done : orderFinished s e x) (c : RecNo) (r : CycleRec)
    (os : List Origin) : orderFinished (s.tellAll c r os) e x := by
  induction os generalizing s with
  | nil => exact done
  | cons o os ih =>
    refine ih (s := s.tellOrigin c r o) ?_
    by_cases h : ∃ v, o = .order e v
    · obtain ⟨v, rfl⟩ := h
      rw [State.tellOrigin, finishOrder_none done.1]
      exact done
    · push Not at h
      exact (tellOrigin_orderKept h s c r).finished done

theorem tellAll_tells {s : State} (wf : MemWf s.mem) {e : SlotNo} {v : Bool} {os : List Origin} (h : Origin.order e v ∈ os)
    (held : s.orders[e] ≠ none) (c : RecNo) (r : CycleRec) : orderFinished (s.tellAll c r os) e (r.result c) := by
  induction os generalizing s with
  | nil => cases h
  | cons o os ih =>
    have step : s.tellAll c r (o :: os) = (s.tellOrigin c r o).tellAll c r os := rfl
    rw [step]
    by_cases own : ∃ v, o = .order e v
    · obtain ⟨v, rfl⟩ := own
      obtain ⟨entry, held⟩ := Option.ne_none_iff_exists'.mp held
      exact tellAll_finished (orderFinished_finishOrder wf held _) c r os
    · push Not at own
      have mem : Origin.order e v ∈ os := (List.mem_cons.mp h).resolve_left fun eq => own v eq.symm
      have kept := tellOrigin_orderKept own s c r
      exact ih ((tellOrigin_block s c r o).wf wf) mem (kept.entry ▸ held)

theorem watchOutcome_other (s : State) {w x : WatchNo} (h : x ≠ w) (r : OrderOutcome) :
    (s.watchOutcome w r).watches[x] = s.watches[x] := by
  cases r with
  | partly | abandoned =>
    rw [watchOutcome_gaveUp (by simp), notice_watches]
    exact upd_other _ _ h
  | done | canceled => exact upd_other _ _ h
  | _ => rfl

theorem tellOrigin_watch {s : State} {w : WatchNo} {o : Origin} (h : o ≠ .watch w) (c : RecNo) (r : CycleRec) :
    (s.tellOrigin c r o).watches[w] = s.watches[w] := by
  cases o with
  | order e v =>
    rw [State.tellOrigin, finishOrder_parts]
  | watch x => exact watchOutcome_other s (fun eq => h (by rw [eq])) _

theorem tellAll_watch {s : State} {w : WatchNo} {os : List Origin} (h : Origin.watch w ∉ os) (c : RecNo) (r : CycleRec) :
    (s.tellAll c r os).watches[w] = s.watches[w] := by
  induction os generalizing s with
  | nil => rfl
  | cons o os ih =>
    obtain ⟨ne, rest⟩ := not_or.mp (mt List.mem_cons.mpr h)
    exact (ih (s := s.tellOrigin c r o) rest).trans (tellOrigin_watch (Ne.symm ne) c r)

/-- R164: what a watch becomes with the outcome of its record. -/
def WatchRec.told (x : WatchRec) (cfg : WatchSettings) (r : OrderOutcome) : WatchRec :=
  match r with
  | .done => { x.restart cfg with reference := none, record := none }
  | .canceled => { x with state := .watching, framesLeft := cfg.timeout, reference := none, record := none }
  | .partly | .abandoned => { x with state := .gaveUp, framesLeft := 0, record := none }
  | .failed | .merged | .aborted | .refused => x

theorem watchOutcome_told (s : State) (w : WatchNo) (r : OrderOutcome) :
    (s.watchOutcome w r).watches[w] = s.watches[w].told s.work.watches[w] r := by
  cases r with
  | partly | abandoned =>
    rw [watchOutcome_gaveUp (by simp), notice_watches]
    exact upd_same _ _ _
  | done | canceled => exact upd_same _ _ _
  | _ => rfl

theorem tellAll_told {s : State} {w : WatchNo} {os : List Origin} (nodup : os.Nodup) (h : Origin.watch w ∈ os) (c : RecNo)
    (r : CycleRec) : (s.tellAll c r os).watches[w] = s.watches[w].told s.work.watches[w] r.outcome := by
  induction os generalizing s with
  | nil => cases h
  | cons o os ih =>
    obtain ⟨out, nodup⟩ := List.nodup_cons.mp nodup
    have step : s.tellAll c r (o :: os) = (s.tellOrigin c r o).tellAll c r os := rfl
    rw [step]
    by_cases own : o = .watch w
    · subst own
      rw [tellAll_watch out]
      exact watchOutcome_told s w _
    · rw [ih nodup ((List.mem_cons.mp h).resolve_left (Ne.symm own)), tellOrigin_watch own, (tellOrigin_block s c r o).work]

/-- R145: a record that ends clears its memberships and tells its origins. -/
theorem endRecord_parts (s : State) (c : RecNo) : s.endRecord c =
    (State.tellAll { s with
      outlets := tab fun j => if j ∈ s.cycles[c].participants then { s.outlets[j] with cycle := none } else s.outlets[j] }
      c s.cycles[c] s.cycles[c].origins).modCycle c fun _ => CycleRec.free := by
  unfold State.endRecord
  dsimp only
  rw [foldl_modOutlet (f := fun o => { o with cycle := none }) fun _ => rfl]
  rfl

theorem outcome_eq (r : CycleRec) : r.outcome = if r.cancelled then .canceled else if r.state = .restoring then .abandoned
    else if ∀ k ∈ r.participants, k ∈ r.closed then .done else .partly := by
  have closed : r.participants.all (· ∈ r.closed) = true ↔ ∀ k ∈ r.participants, k ∈ r.closed := by
    rw [List.all_eq_true]
    exact forall₂_congr fun _ _ => decide_eq_true_iff
  rw [CycleRec.outcome]
  simp only [closed]

/-- Settles O28: memberships go, then the origins are told, one after another. -/
theorem recordEndTellsOrigins : Obligations.RecordEndTellsOrigins := by
  unfold Obligations.RecordEndTellsOrigins
  intro s c wf nodup
  dsimp only
  rw [← outcome_eq, endRecord_parts]
  have result : s.cycles[c].result c = {
      outcome := s.cycles[c].outcome, reason := none, detail := s.cycles[c].faultOutlet
      record := some c, doneSet := s.cycles[c].closed, failedSet := s.cycles[c].failed, skippedSet := s.cycles[c].skipped } := rfl
  rw [← result]
  obtain ⟨v, hv⟩ : ∃ v : State, v = { s with outlets := tab fun j =>
      if j ∈ s.cycles[c].participants then { s.outlets[j] with cycle := none } else s.outlets[j] } := ⟨_, rfl⟩
  rw [← hv]
  generalize hr : s.cycles[c] = r at *
  have outlet (j : OutletIx) : v.outlets[j] = if j ∈ r.participants then { s.outlets[j] with cycle := none }
      else s.outlets[j] := by rw [hv]; exact tab_at _ j
  have told := tellAll_same v c r r.origins
  have orders : v.orders = s.orders := by rw [hv]
  have watches : v.watches = s.watches := by rw [hv]
  have wf' : MemWf v.mem := by rw [hv]; exact wf
  have outlets : (v.tellAll c r r.origins).outlets = v.outlets := by rw [told]
  have cycles : (v.tellAll c r r.origins).cycles = s.cycles := by rw [told, hv]
  have watch {w : WatchNo} (h : Origin.watch w ∈ r.origins) :
      (v.tellAll c r r.origins).watches[w] = s.watches[w].told s.work.watches[w] r.outcome := by
    rw [tellAll_told nodup h, watches, hv]
  refine ⟨upd_same _ _ _, fun x hx => (upd_other _ _ hx).trans (by rw [cycles]), fun k hk => ?_, fun k hk => ?_, ?_, ?_, ?_, ?_, ?_,
    fun e v hv held => ?_, fun e out => ?_, fun w out => ?_, fun w mem => ⟨fun done => ?_, fun canceled => ?_, fun bad => ⟨?_, ?_⟩⟩⟩
  · change (v.tellAll c r r.origins).outlets[k] = _
    rw [outlets, outlet, if_pos hk]
  · change (v.tellAll c r r.origins).outlets[k] = _
    rw [outlets, outlet, if_neg hk]
  iterate 5
    rw [State.modCycle, told, hv]
  · exact tellAll_tells wf' hv (orders ▸ held) c r
  · exact (tellAll_orderKept out v c r).entry.trans (by rw [orders])
  · exact (tellAll_watch out c r).trans (by rw [watches])
  · refine (watch mem).trans ?_
    rw [done, WatchRec.told, restart_eq]
  · refine (watch mem).trans ?_
    rw [canceled, WatchRec.told]
  · refine (watch mem).trans ?_
    rcases bad with h | h <;> rw [h, WatchRec.told]
  · intro only room
    have filed : v.tellAll c r [.watch w] = (v.modWatch w fun x => { x with state := .gaveUp, framesLeft := 0, record := none }).notice
        .watchGaveUp w.val r.outcome.code (BitVec.ofNat 32 v.watches[w].consecutive) := watchOutcome_gaveUp bad v w
    have full : (v.modWatch w fun x => { x with state := .gaveUp, framesLeft := 0, record := none }).logFull = s.logFull := by
      rw [hv]
      rfl
    have entry := (notice_noticed (s := v.modWatch w fun x => { x with state := .gaveUp, framesLeft := 0, record := none })
      wf' (full.trans room) .watchGaveUp (subject := w.val) (reason := r.outcome.code) (by omega) (outcomeCode_lt _)
      (BitVec.ofNat 32 v.watches[w].consecutive)).entry
    rw [← filed, watches] at entry
    rw [only]
    have count : (v.modWatch w fun x => { x with state := .gaveUp, framesLeft := 0, record := none }).writeCount = s.writeCount := by
      rw [hv]
      rfl
    have time : (v.modWatch w fun x => { x with state := .gaveUp, framesLeft := 0, record := none }).partTime = s.partTime := by
      rw [hv]
      rfl
    rw [count, time] at entry
    exact entry

end Sys2Proof.Machine
end

section
/-! PROOF. The checks of a settings take (R21, R97, R98, R118, R120, R152, R190). -/
namespace Sys2Proof.Machine

open Sys2Proof.Safety

/-! ### Single values -/

theorem clampNat_flag {lo hi v : Nat} : (clampNat lo hi v).2 = false ↔ inRange lo hi v := by
  unfold clampNat inRange
  split_ifs <;> simp <;> omega

theorem clampInt_flag {lo hi v : Int} : (clampInt lo hi v).2 = false ↔ inRange lo hi v := by
  unfold clampInt inRange
  split_ifs <;> simp <;> omega

theorem clampNat_zero_fst (hi v : Nat) : (clampNat 0 hi v).1 = min hi v := by
  rw [clampNat_fst (Nat.zero_le hi), Nat.zero_max]

theorem inRange_zero {hi v : Nat} : inRange 0 hi v ↔ v ≤ hi := and_iff_right (Nat.zero_le v)

theorem switchOf_fst (v : Nat) : (switchOf v).1 = decide (v = 1) := by
  unfold switchOf
  split_ifs <;> simp <;> omega

theorem switchOf_flag {v : Nat} : (switchOf v).2 = false ↔ v ≤ 1 := by
  unfold switchOf
  split_ifs <;> simp <;> omega

theorem actionOf_fst (v : Nat) : (actionOf v).1 = .cycle ↔ v = 1 := by
  unfold actionOf
  split_ifs <;> simp <;> omega

theorem actionOf_flag {v : Nat} : (actionOf v).2 = false ↔ v ≤ 1 := by
  unfold actionOf
  split_ifs <;> simp <;> omega

theorem branchOf_inside {v : Nat} (k : OutletIx) (h : inRange 1 6 v) : (branchOf k v).1.val + 1 = v := by
  obtain ⟨low, high⟩ := h
  rw [branchOf, dif_pos ⟨low, high⟩]
  exact Nat.sub_add_cancel low

theorem branchOf_outside {v : Nat} (k : OutletIx) (h : ¬inRange 1 6 v) : (branchOf k v).1.val = k.val / 8 := by
  rw [branchOf, dif_neg (show ¬(1 ≤ v ∧ v ≤ 6) from h)]
  rfl

theorem branchOf_flag {v : Nat} {k : OutletIx} : (branchOf k v).2 = false ↔ inRange 1 6 v := by
  unfold branchOf
  split
  case isTrue h => exact iff_of_true rfl h
  case isFalse h => exact iff_of_false (fun h => nomatch h) h

/-! ### Member lists (R152) -/

theorem outletOf_some {v : Nat} (h : 1 ≤ v ∧ v ≤ 48) : ∃ k, outletOf v = some k ∧ k.val + 1 = v :=
  ⟨_, dif_pos h, Nat.sub_add_cancel h.1⟩

theorem outletOf_none {v : Nat} (h : ¬(1 ≤ v ∧ v ≤ 48)) : outletOf v = none := dif_neg h

theorem mem_kept {kept : List OutletIx} {k : OutletIx} {v : Nat} (h : k.val + 1 = v) :
    v ∈ kept.map (fun k => k.val + 1) ↔ k ∈ kept := by
  rw [List.mem_map]
  constructor
  · rintro ⟨j, mem, eq⟩
    rwa [show k = j from Fin.ext (by omega)]
  · exact fun mem => ⟨k, mem, h⟩

/-- The members behind those kept so far: the outlet numbers in the order written, without repeats. -/
theorem membersOf_fst (vs : List Nat) (kept : List OutletIx) : (membersOf vs kept).1.map (fun k => k.val + 1) =
    kept.map (fun k => k.val + 1) ++
      (((vs.filter (· ≠ 0)).filter (· ≤ 48)).filter (· ∉ kept.map fun k => k.val + 1)).eraseDups := by
  induction vs generalizing kept with
  | nil => simp [membersOf]
  | cons v vs ih =>
    by_cases zero : v = 0
    · rw [membersOf, if_pos zero, ih]
      simp [zero]
    · by_cases range : 1 ≤ v ∧ v ≤ 48
      · obtain ⟨k, some, number⟩ := outletOf_some range
        have shown : ((v :: vs).filter (· ≠ 0)).filter (· ≤ 48) = v :: (vs.filter (· ≠ 0)).filter (· ≤ 48) := by
          rw [List.filter_cons_of_pos (by simpa using zero), List.filter_cons_of_pos (by simpa using range.2)]
        rw [shown, membersOf, if_neg zero, some]
        simp only
        split
        case isTrue mem =>
          rw [ih, List.filter_cons_of_neg (by simpa using (mem_kept number).mpr mem)]
        case isFalse out =>
          rw [ih, List.filter_cons_of_pos (by simpa using mt (mem_kept number).mp out), List.eraseDups_cons,
            List.filter_filter (l := (vs.filter (· ≠ 0)).filter (· ≤ 48))]
          simp only [List.map_append, List.map_cons, List.map_nil, number, List.append_assoc, List.cons_append, List.nil_append]
          congr 3
          exact List.filter_congr fun x _ => by simp [and_comm, Bool.beq_eq_decide_eq]
      · rw [membersOf, if_neg zero, outletOf_none range]
        have large : ¬v ≤ 48 := fun h => range ⟨Nat.pos_of_ne_zero zero, h⟩
        rw [List.filter_cons_of_pos (by simpa using zero), List.filter_cons_of_neg (by simpa using large)]
        exact ih kept

theorem membersOf_flag (vs : List Nat) (kept : List OutletIx) : (membersOf vs kept).2 = false ↔
    (∀ v ∈ vs.filter (· ≠ 0), v ≤ 48) ∧ (vs.filter (· ≠ 0)).Nodup ∧
      ∀ v ∈ vs.filter (· ≠ 0), v ∉ kept.map fun k => k.val + 1 := by
  induction vs generalizing kept with
  | nil => simp [membersOf]
  | cons v vs ih =>
    by_cases zero : v = 0
    · rw [membersOf, if_pos zero, ih, List.filter_cons_of_neg (by simpa using zero)]
    · rw [membersOf, if_neg zero, List.filter_cons_of_pos (by simpa using zero)]
      by_cases range : 1 ≤ v ∧ v ≤ 48
      · obtain ⟨k, some, number⟩ := outletOf_some range
        rw [some]
        simp only
        split
        case isTrue mem =>
          refine iff_of_false (fun h => nomatch h) fun ⟨_, _, new⟩ => ?_
          exact new v List.mem_cons_self ((mem_kept number).mpr mem)
        case isFalse out =>
          rw [ih]
          simp only [List.forall_mem_cons, List.nodup_cons, List.map_append, List.map_cons, List.map_nil, number,
            List.mem_append, List.mem_singleton, not_or, mem_kept number]
          constructor
          · rintro ⟨small, nodup, new⟩
            exact ⟨⟨range.2, small⟩, ⟨fun mem => (new v mem).2 rfl, nodup⟩, out, fun x hx => (new x hx).1⟩
          · rintro ⟨⟨-, small⟩, ⟨notin, nodup⟩, -, new⟩
            exact ⟨small, nodup, fun x hx => ⟨new x hx, fun eq => notin (eq ▸ hx)⟩⟩
      · rw [outletOf_none range]
        refine iff_of_false (fun h => nomatch h) fun ⟨small, _⟩ => range ⟨Nat.pos_of_ne_zero zero, ?_⟩
        exact small v List.mem_cons_self

/-! ### Records -/

theorem takeOutlet_taken (m : Mem) (k : OutletIx) : outletTaken m k (takeOutlet m k).1 (takeOutlet m k).2 := by
  refine ⟨branchOf_inside k, branchOf_outside k, clampNat_zero_fst 7 _, rfl, clampInt_fst (by decide) _,
    clampNat_fst (by decide) _, clampNat_zero_fst 20000 _, ?_⟩
  simp only [takeOutlet, Bool.or_eq_false_iff, branchOf_flag, inRange_zero, clampInt_flag, clampNat_flag, and_assoc]
  rfl

theorem takeBranch_taken (m : Mem) (b : Branch) : branchTaken m b (takeBranch m b).1 (takeBranch m b).2 := by
  refine ⟨clampNat_fst (by decide) _, clampNat_fst (by decide) _, clampNat_fst (by decide) _, clampNat_zero_fst _ _,
    switchOf_fst _, clampNat_fst (by decide) _, clampNat_fst (by decide) _, ?_⟩
  have positive : 1000 ≤ (clampNat 1000 40000 (halfAt m (branchSettingsAddr b + 4))).1 := by
    rw [clampNat_fst (by decide)]
    exact le_max_left _ _
  have below : halfAt m (branchSettingsAddr b + 6) ≤ (clampNat 1000 40000 (halfAt m (branchSettingsAddr b + 4))).1 - 1 ↔
      halfAt m (branchSettingsAddr b + 6) < (clampNat 1000 40000 (halfAt m (branchSettingsAddr b + 4))).1 := by omega
  simp only [takeBranch, Bool.or_eq_false_iff, inRange_zero, clampNat_flag, switchOf_flag, and_assoc, below]
  rfl

theorem takePhase_taken (m : Mem) (p : Phase) : phaseTaken m p (takePhase m p).1 (takePhase m p).2 := by
  refine ⟨clampInt_fst (by decide) _, clampNat_fst (by decide) _, ?_⟩
  simp only [takePhase, Bool.or_eq_false_iff, clampInt_flag, clampNat_flag]
  rfl

theorem takeStrip_taken (m : Mem) : stripTaken m (takeStrip m).1 (takeStrip m).2 := by
  refine ⟨clampNat_fst (by decide) _, clampNat_fst (by decide) _, clampNat_zero_fst _ _, clampNat_fst (by decide) _,
    clampNat_fst (by decide) _, clampNat_fst (by decide) _, clampNat_zero_fst _ _, clampNat_fst (by decide) _,
    clampNat_zero_fst _ _, ?_⟩
  simp only [takeStrip, Bool.or_eq_false_iff, inRange_zero, clampNat_flag, and_assoc]
  rfl

theorem takeWatch_taken (m : Mem) (w : WatchNo) : watchTaken m w (takeWatch m w).1 (takeWatch m w).2 := by
  refine ⟨switchOf_fst _, actionOf_fst _, ?_, clampNat_fst (by decide) _, clampNat_zero_fst _ _, clampNat_zero_fst _ _,
    clampNat_fst (by decide) _, clampNat_fst (by decide) _, ?_⟩
  · refine (membersOf_fst _ []).trans ?_
    simp
    rfl
  · simp only [takeWatch, Bool.or_eq_false_iff, inRange_zero, clampNat_flag, switchOf_flag, actionOf_flag,
      membersOf_flag, List.map_nil, List.not_mem_nil, not_false_eq_true, implies_true, and_true, and_assoc]
    rfl

/-! ### The settings status word (R190) -/

theorem getLsbD_ofNat_of_div {n i : Nat} {b : Bool} (hi : i < 32) (h : n / 2 ^ i % 2 = b.toNat) :
    (BitVec.ofNat 32 n).getLsbD i = b := by
  rw [BitVec.getLsbD_ofNat, decide_eq_true hi, Bool.true_and, Nat.testBit_eq_decide_div_mod_eq, h]
  cases b <;> rfl

theorem branchFlags_eq (f : Branch → Bool) : ((indices 6).map fun b => flag (f b) b.val).sum =
    (f 0).toNat + 2 * (f 1).toNat + 4 * (f 2).toNat + 8 * (f 3).toNat + 16 * (f 4).toNat + 32 * (f 5).toNat := by
  simp [indices, List.finRange, List.ofFn, Fin.foldr, Fin.foldr.loop, flag_eq]
  omega

theorem phaseFlags_eq (f : Phase → Bool) : ((indices 3).map fun p => flag (f p) (8 + p.val)).sum =
    256 * (f 0).toNat + 512 * (f 1).toNat + 1024 * (f 2).toNat := by
  simp [indices, List.finRange, List.ofFn, Fin.foldr, Fin.foldr.loop, flag_eq]
  omega

/-- What the settings status word shows: the flags of branches, phases and strip, and the count of takes. -/
structure StatusShows (word : Word) (branch : Branch → Bool) (phase : Phase → Bool) (strip : Bool) (takes : Nat) : Prop where
  takes : word.extractLsb' 16 16 = BitVec.ofNat 16 takes
  branches : ∀ b : Branch, word.getLsbD b.val = branch b
  phases : ∀ p : Phase, word.getLsbD (8 + p.val) = phase p
  strip : word.getLsbD 12 = strip
  rest : ∀ i ∈ [6, 7, 11, 13, 14, 15], word.getLsbD i = false

theorem settingsStatus_shows (m : Mem) (takes : Nat) : StatusShows (BitVec.ofNat 32 (settingsStatus m takes))
    (fun b => (takeBranch m b).2) (fun p => (takePhase m p).2) (takeStrip m).2 takes := by
  have branch (b : Branch) := Bool.toNat_lt (takeBranch m b).2
  have phase (p : Phase) := Bool.toNat_lt (takePhase m p).2
  have strip := Bool.toNat_lt (takeStrip m).2
  have word : settingsStatus m takes = (takeBranch m 0).2.toNat + 2 * (takeBranch m 1).2.toNat + 4 * (takeBranch m 2).2.toNat +
      8 * (takeBranch m 3).2.toNat + 16 * (takeBranch m 4).2.toNat + 32 * (takeBranch m 5).2.toNat +
      (256 * (takePhase m 0).2.toNat + 512 * (takePhase m 1).2.toNat + 1024 * (takePhase m 2).2.toNat) +
      4096 * (takeStrip m).2.toNat + takes % 2 ^ 16 * 2 ^ 16 := by
    rw [settingsStatus, branchFlags_eq fun b => (takeBranch m b).2, phaseFlags_eq fun p => (takePhase m p).2, flag_eq]
    rfl
  have b0 := branch 0
  have b1 := branch 1
  have b2 := branch 2
  have b3 := branch 3
  have b4 := branch 4
  have b5 := branch 5
  have p0 := phase 0
  have p1 := phase 1
  have p2 := phase 2
  rw [word]
  refine ⟨?_, fun b => ?_, fun p => ?_, ?_, fun i hi => ?_⟩
  · apply BitVec.eq_of_toNat_eq
    rw [BitVec.extractLsb'_toNat, BitVec.toNat_ofNat, BitVec.toNat_ofNat, Nat.shiftRight_eq_div_pow]
    omega
  · fin_cases b <;> exact getLsbD_ofNat_of_div (by decide) (by simp only [Fin.reduceFinMk]; omega)
  · fin_cases p <;> exact getLsbD_ofNat_of_div (by decide) (by simp only [Fin.reduceFinMk]; omega)
  · exact getLsbD_ofNat_of_div (by decide) (by omega)
  · simp only [List.mem_cons, List.not_mem_nil, or_false] at hi
    rcases hi with rfl | rfl | rfl | rfl | rfl | rfl <;> exact getLsbD_ofNat_of_div (by decide) (by simp only [Bool.toNat_false]; omega)

theorem countTrue_indices {n : Nat} (f : Fin n → Bool) : countTrue ((indices n).map f) = flagsSet f := by
  rw [countTrue, List.filter_map, List.length_map]
  rfl

/-! ### The take -/

theorem loadSettings_log (s : State) : s.loadSettings.logFull = s.logFull ∧ s.loadSettings.writeCount = s.writeCount :=
  logFull_congr (readWord_writeWord_other _ _ _ _ (by decide)) (readWord_writeWord_other _ _ _ _ (by decide))

theorem loadSettings_same (s : State) : s.loadSettings = { s with
    work := takenSettings s.mem, outlets := s.loadSettings.outlets, watches := s.loadSettings.watches
    mem := writeWord s.mem 0x28 (BitVec.ofNat 32 (settingsStatus s.mem (nextTakeCount s.mem))) } := rfl

theorem nextTakeCount_lt (m : Mem) : nextTakeCount m < 65536 := Nat.mod_lt _ (by decide)

theorem nextTakeCount_word (m : Mem) :
    BitVec.ofNat 16 (nextTakeCount m) = (readWord m 0x28).extractLsb' 16 16 + 1 := by
  apply BitVec.eq_of_toNat_eq
  have one : (1 : BitVec 16).toNat = 1 := rfl
  rw [BitVec.toNat_add, BitVec.extractLsb'_toNat, BitVec.toNat_ofNat, Nat.shiftRight_eq_div_pow, nextTakeCount, one]
  simp only [addrSettingsStatus]
  omega

/-- What a take leaves, its notice apart. -/
theorem take_same (s : State) : s.take = { s with
    work := takenSettings s.mem, outlets := s.loadSettings.outlets, watches := s.loadSettings.watches
    mem := s.take.mem, cause := s.take.cause } := by
  unfold State.take
  split
  · rfl
  · rw [notice_same]
    rfl

theorem memStep_take (s : State) : MemStep (fun a => within 0x28 4 a || noticeBytes a) s.mem s.take.mem := by
  have loaded : MemStep (fun a => within 0x28 4 a || noticeBytes a) s.mem s.loadSettings.mem :=
    (memStep_writeWord s.mem 0x28 _).mono fun a ha => by rw [ha, Bool.true_or]
  unfold State.take
  split
  · exact loaded
  · exact loaded.trans ((memStep_notice_noticeBytes _ _ _ _ _).mono fun a ha => by rw [ha, Bool.or_true])

/-- The status word is outside what a notice may write. -/
theorem readWord_take (s : State) (wf : MemWf s.mem) :
    readWord s.take.mem 0x28 = BitVec.ofNat 32 (settingsStatus s.mem (nextTakeCount s.mem)) := by
  have loaded : readWord s.loadSettings.mem 0x28 = BitVec.ofNat 32 (settingsStatus s.mem (nextTakeCount s.mem)) :=
    readWord_writeWord_same _ _ _ wf
  unfold State.take
  split
  · exact loaded
  · refine ((memStep_notice_noticeBytes _ _ _ _ _).readWord _ fun i hi => ?_).trans loaded
    rw [noticeBytes, Bool.or_eq_false_iff, within_eq_false, within_eq_false]
    simp only [addrWriteCount]
    omega

/-- Settles O51: every record is checked; the status word and the notice follow. -/
theorem settingsTakeChecks : Obligations.SettingsTakeChecks := by
  unfold Obligations.SettingsTakeChecks
  intro s wf
  refine ⟨fun hold => if_neg hold, fun taken => ?_⟩
  have take : s.takeIfAllowed = s.take := if_pos taken
  rw [take]
  have same := take_same s
  have step := memStep_take s
  obtain ⟨full, count⟩ := loadSettings_log s
  have status := settingsStatus_shows s.mem (nextTakeCount s.mem)
  rw [← readWord_take s wf] at status
  have takes : ((readWord s.take.mem 0x28).extractLsb' 16 16).toNat = nextTakeCount s.mem := by
    rw [status.takes, BitVec.toNat_ofNat]
    exact Nat.mod_eq_of_lt (nextTakeCount_lt _)
  have work : s.take.work = takenSettings s.mem := by rw [same]
  have outlet (k : OutletIx) : s.take.outlets[k] = { s.outlets[k] with clamped := (takeOutlet s.mem k).2 } := by
    rw [same]
    exact tab_at _ k
  have watch (w : WatchNo) : s.take.watches[w] = { s.watches[w] with clamped := (takeWatch s.mem w).2 } := by
    rw [same]
    exact tab_at _ w
  have clamped : flagsSet (fun k : OutletIx => s.take.outlets[k].clamped) + flagsSet (fun b : Branch => (takeBranch s.mem b).2) +
      flagsSet (fun p : Phase => (takePhase s.mem p).2) + (takeStrip s.mem).2.toNat +
      flagsSet (fun w : WatchNo => s.take.watches[w].clamped) = clampedRecords s.mem := by
    rw [clampedRecords, countTrue_indices, countTrue_indices, countTrue_indices, countTrue_indices]
    simp only [outlet, watch]
  refine ⟨fun b => (takeBranch s.mem b).2, fun p => (takePhase s.mem p).2, (takeStrip s.mem).2, ?_, fun k => ?_, fun b => ?_,
    fun p => ?_, ?_, fun w => ?_, ?_⟩
  · rw [same]
  · rw [outlet, work]
    refine ⟨?_, rfl⟩
    rw [takenSettings, tab_at]
    exact takeOutlet_taken s.mem k
  · rw [work, takenSettings, tab_at]
    exact takeBranch_taken s.mem b
  · rw [work, takenSettings, tab_at]
    exact takePhase_taken s.mem p
  · rw [work]
    exact takeStrip_taken s.mem
  · rw [watch, work]
    refine ⟨?_, rfl⟩
    rw [takenSettings, tab_at]
    exact takeWatch_taken s.mem w
  · dsimp only
    rw [clamped, takes, status.takes, nextTakeCount_word]
    refine ⟨rfl, status.branches, status.phases, status.strip, status.rest, fun none => ?_, fun some room => ?_, step.bytes⟩
    · rw [State.take, if_pos none]
      exact ⟨rfl, (memStep_writeWord s.mem 0x28 _).bytes⟩
    · rw [State.take, if_neg (Nat.pos_iff_ne_zero.mp some)]
      have filed := notice_noticed (s := s.loadSettings) (memWf_writeWord _ _ wf) (full.trans room) .settingsClamped
        (nextTakeCount_lt s.mem) (reason := 0) (by decide) (BitVec.ofNat 32 (clampedRecords s.mem))
      refine ⟨?_, by rw [filed.count, count], ?_⟩
      · have entry := filed.entry
        rw [count] at entry
        exact entry
      · rw [filed.same]
        rfl

end Sys2Proof.Machine
end

section
/-! PROOF. Entries of several outlets, and the shed monitor's restore rounds (R119, R123 to R126, R129). -/
namespace Sys2Proof.Machine

open Sys2Proof.Safety

/-! ### Several outlets join the close queue -/

/-- The entry that outlet `k` joins the close queue with (R105). -/
def State.newEntry (s : State) (k : OutletIx) (cls : ClassNo) (w : Owner) : QueueEntry where
  outlet := k
  cls := cls
  owner := w
  stamp := s.partTime
  instant := s.now
  arrival := s.nextArrival

theorem enqueue_eq (s : State) (k : OutletIx) (cls : ClassNo) (w : Owner) : s.enqueue k cls w = { s with
    queue := insertEntry (s.newEntry k cls w) s.queue, nextArrival := s.nextArrival + 1, scanDue := true
    outlets := upd s.outlets k fun o => { o with state := .awaitClose, lastChange := s.partTime, owner := some w } } := by
  have outlets : upd (upd s.outlets k fun o => { o with state := .awaitClose, lastChange := s.partTime }) k
      (fun o => { o with owner := some w }) =
      upd s.outlets k fun o => { o with state := .awaitClose, lastChange := s.partTime, owner := some w } := upd_comp _ _ _ _
  rw [← outlets]
  rfl

theorem mem_enqueue {s : State} {k : OutletIx} {cls : ClassNo} {w : Owner} {x : QueueEntry} :
    x ∈ (s.enqueue k cls w).queue ↔ x = s.newEntry k cls w ∨ x ∈ s.queue := by
  rw [enqueue_eq]
  exact mem_insertEntry

/-- The outlets of `ks` join the close queue, one after another. -/
def State.queueAll (s : State) (ks : List OutletIx) (cls : ClassNo) (w : Owner) : State :=
  ks.foldl (fun s k => s.enqueue k cls w) s

theorem queueAll_cons (s : State) (k : OutletIx) (ks : List OutletIx) (cls : ClassNo) (w : Owner) :
    s.queueAll (k :: ks) cls w = (s.enqueue k cls w).queueAll ks cls w := rfl

theorem queueAll_same (s : State) (ks : List OutletIx) (cls : ClassNo) (w : Owner) : s.queueAll ks cls w = { s with
    queue := (s.queueAll ks cls w).queue, nextArrival := s.nextArrival + ks.length
    scanDue := s.scanDue || !ks.isEmpty, outlets := (s.queueAll ks cls w).outlets } := by
  induction ks generalizing s with
  | nil => simp [State.queueAll]
  | cons k ks ih =>
    rw [queueAll_cons, ih, enqueue_eq]
    simp [Nat.add_assoc, Nat.add_comm 1]

theorem queueAll_other (s : State) {ks : List OutletIx} (cls : ClassNo) (w : Owner) {j : OutletIx} (h : j ∉ ks) :
    (s.queueAll ks cls w).outlets[j] = s.outlets[j] := by
  induction ks generalizing s with
  | nil => rfl
  | cons k ks ih =>
    obtain ⟨ne, rest⟩ := not_or.mp (mt List.mem_cons.mpr h)
    rw [queueAll_cons, ih _ rest, (enqueue_only s k cls w).outlets j ne]

theorem queueAll_keeps (s : State) {ks : List OutletIx} (cls : ClassNo) (w : Owner) {x : QueueEntry} (h : x ∈ s.queue) :
    x ∈ (s.queueAll ks cls w).queue := by
  induction ks generalizing s with
  | nil => exact h
  | cons k ks ih => exact ih _ (mem_enqueue.mpr (.inr h))

/-- An outlet waits with its entry, behind those that joined before it. -/
theorem queueAll_joined (s : State) {pre post : List OutletIx} {k : OutletIx} (nodup : (pre ++ k :: post).Nodup) (cls : ClassNo)
    (w : Owner) : (s.queueAll (pre ++ k :: post) cls w).outlets[k] =
      { s.outlets[k] with state := .awaitClose, lastChange := s.partTime, owner := some w } ∧
    { s.newEntry k cls w with arrival := s.nextArrival + pre.length } ∈ (s.queueAll (pre ++ k :: post) cls w).queue := by
  obtain ⟨-, later, apart⟩ := List.nodup_append.mp nodup
  obtain ⟨out, -⟩ := List.nodup_cons.mp later
  have before : k ∉ pre := fun h => apart k h k List.mem_cons_self rfl
  have split : s.queueAll (pre ++ k :: post) cls w = ((s.queueAll pre cls w).enqueue k cls w).queueAll post cls w := by
    rw [State.queueAll, List.foldl_append]
    rfl
  have same := queueAll_same s pre cls w
  have kept := queueAll_other s cls w before
  rw [split, queueAll_other _ cls w out]
  generalize s.queueAll pre cls w = v at same kept
  refine ⟨?_, queueAll_keeps _ cls w (mem_enqueue.mpr (.inl ?_))⟩
  · rw [enqueue_eq]
    refine (upd_same _ _ _).trans ?_
    rw [kept, same]
    rfl
  · rw [same]
    rfl

theorem closeByState_off {s : State} {k : OutletIx} (off : s.outlets[k].state = .off) (cls : ClassNo) (w : Owner) :
    s.closeByState k cls w = (s.enqueue k cls w, []) := by
  simp only [State.closeByState, off]

/-- CLOSE requests of the shed monitor, sent to outlets that are OFF, all join the queue. -/
theorem sendCloses_off {s : State} {ks : List OutletIx} (cls : ClassNo) (b : Branch) (nodup : ks.Nodup)
    (off : ∀ k ∈ ks, s.outlets[k].state = .off) :
    s.sendCloses ks cls (.restore b) = (s.queueAll ks cls (.restore b), []) := by
  unfold State.sendCloses
  induction ks generalizing s with
  | nil => rfl
  | cons k ks ih =>
    obtain ⟨out, nodup⟩ := List.nodup_cons.mp nodup
    have first : s.requestClose k cls (.restore b) = (s.enqueue k cls (.restore b), []) :=
      closeByState_off (off k List.mem_cons_self) cls _
    rw [List.foldl_cons, queueAll_cons]
    simp only [first, List.append_nil]
    refine ih nodup fun j hj => ?_
    rw [(enqueue_only s k cls _).outlets j fun e => out (e ▸ hj)]
    exact off j (List.mem_cons_of_mem _ hj)

/-! ### Answers to the monitor, and takes (R126, R129) -/

theorem leaveRound_out {r : ShedRec} {k : OutletIx} (h : k ∉ r.round) : r.leaveRound k = r := if_neg h

theorem leaveRound_more {r : ShedRec} {k : OutletIx} (h : k ∈ r.round) (more : ∃ j ∈ r.round, j ≠ k) :
    r.leaveRound k = { r with round := r.round.filter (· ≠ k) } := by
  have filter : r.round.filter (· != k) = r.round.filter (· ≠ k) := List.filter_congr fun j _ => by
    rw [bne, Bool.beq_eq_decide_eq, decide_not]
  obtain ⟨j, hj, ne⟩ := more
  have rest : ¬(r.round.filter (· ≠ k)).isEmpty = true := fun empty =>
    List.not_mem_nil (List.isEmpty_iff.mp empty ▸ List.mem_filter.mpr ⟨hj, decide_eq_true ne⟩)
  rw [ShedRec.leaveRound, if_pos h]
  dsimp only
  rw [filter, if_neg rest]

theorem leaveRound_last {r : ShedRec} {k : OutletIx} (h : k ∈ r.round) (last : ∀ j ∈ r.round, j = k) :
    r.leaveRound k = { r with round := [], restoring := false, restoreCount := 0 } := by
  have empty : (r.round.filter (· != k)).isEmpty = true := by
    rw [List.isEmpty_iff, List.filter_eq_nil_iff]
    exact fun j hj => by rw [last j hj, bne_self_eq_false]; exact Bool.false_ne_true
  rw [ShedRec.leaveRound, if_pos h]
  dsimp only
  rw [if_pos empty]

theorem modShed_at (s : State) (b : Branch) (f : ShedRec → ShedRec) : (s.modShed b f).shed[b] = f s.shed[b] := upd_same _ _ _

theorem modShed_other (s : State) {b x : Branch} (f : ShedRec → ShedRec) (h : x ≠ b) : (s.modShed b f).shed[x] = s.shed[x] :=
  upd_other _ _ h

/-- R126: what an answer makes of a branch's record. -/
theorem restoreReply_at (s : State) (b : Branch) (k : OutletIx) (o : MemberOutcome) : (s.restoreReply b k o).shed[b] =
    ({ s.shed[b] with list := if o = MemberOutcome.ok then s.shed[b].list.filter (· ≠ k) else s.shed[b].list }).leaveRound k := by
  rw [State.restoreReply, modShed_at]
  split_ifs with ok
  · have filter : s.shed[b].list.filter (· != k) = s.shed[b].list.filter (· ≠ k) := List.filter_congr fun j _ => by
      rw [bne, Bool.beq_eq_decide_eq, decide_not]
    rw [filter]
  · rfl

theorem leaveRound_list (r : ShedRec) (k : OutletIx) : (r.leaveRound k).list = r.list := by
  unfold ShedRec.leaveRound
  dsimp only
  split_ifs <;> rfl

theorem shedTake_at (s : State) (closed : Settings) (b : Branch) : (s.shedTake closed).shed[b] =
    if closed.branches[b].shedEnable = s.work.branches[b].shedEnable then s.shed[b]
    else { ShedRec.reset with list := s.shed[b].list } := tab_at _ b

/-! ### A branch at or below its restore level -/

/-- R119, R123: the record of a branch at or below its restore level, before a round may start. -/
def ShedRec.lowStep (r : ShedRec) (cfg : BranchSettings) : ShedRec :=
  { r with overload := false, overloadCount := 0, thisClose := false, restoreCount := min (r.restoreCount + 1) cfg.restoreFrames }

theorem overloadStep_low {r : ShedRec} {cfg : BranchSettings} {load : Nat} (low : load ≤ cfg.restoreLevel)
    (levels : cfg.restoreLevel < cfg.shedLevel) (frames : 1 ≤ cfg.shedFrames) :
    r.overloadStep cfg load = { r with overload := false, overloadCount := 0 } := by
  have below : load ≤ cfg.shedLevel := le_trans low levels.le
  cases h : r.overload with
  | true => simp only [ShedRec.overloadStep, h, if_true, below]
  | false =>
    simp only [ShedRec.overloadStep, h, Bool.false_eq_true, if_false, Nat.not_lt.mpr below, Nat.not_le.mpr frames]

theorem restoreStep_low {r : ShedRec} {cfg : BranchSettings} {load : Nat} (low : load ≤ cfg.restoreLevel) :
    r.restoreStep cfg load = { r with restoreCount := min (r.restoreCount + 1) cfg.restoreFrames } := by
  simp only [ShedRec.restoreStep, low, if_true]

theorem modShed_twice (s : State) (b : Branch) (f g : ShedRec → ShedRec) :
    (s.modShed b f).modShed b g = s.modShed b fun r => g (f r) := by
  rw [State.modShed, State.modShed, State.modShed, upd_comp]

theorem modShed_congr {s : State} {b : Branch} {f g : ShedRec → ShedRec} (h : f s.shed[b] = g s.shed[b]) :
    s.modShed b f = s.modShed b g := by rw [State.modShed, State.modShed, upd, upd, h]

theorem restorable_iff (s : State) (k : OutletIx) : s.restorable k = true ↔
    s.outlets[k].state = .off ∧ s.outlets[k].shedMark = true ∧ s.outlets[k].cycle = none := by
  simp [State.restorable, and_assoc]

/-- The restorable outlets of a branch's list, in the order in which they were shed (R125). -/
def State.restorables (s : State) (b : Branch) : List OutletIx := s.shed[b].list.filter s.restorable

/-- R119 on a branch at or below its restore level: the record is counted, and a round starts where one is due. -/
theorem shedBranch_low {s : State} {b : Branch} (closed : Settings) (enabled : s.work.branches[b].shedEnable = true)
    (low : s.loads[b].measured ≤ s.work.branches[b].restoreLevel)
    (levels : s.work.branches[b].restoreLevel < s.work.branches[b].shedLevel) (frames : 1 ≤ s.work.branches[b].shedFrames) :
    s.shedBranch closed b =
      if s.shed[b].restoring = false ∧ min (s.shed[b].restoreCount + 1) s.work.branches[b].restoreFrames =
          s.work.branches[b].restoreFrames ∧ s.restorables b ≠ [] then
        (s.modShed b fun r => r.lowStep s.work.branches[b]).startRound b (s.restorables b)
      else s.modShed b fun r => r.lowStep s.work.branches[b] := by
  have cleared : s.shedBranch closed b = (s.modShed b fun r => { r with thisClose := false }).shedEnabledBranch closed b :=
    if_pos enabled
  obtain ⟨v, hv⟩ : ∃ v, v = s.modShed b fun r => { r with thisClose := false } := ⟨_, rfl⟩
  have counted : v.modShed b (fun r => r.overloadStep s.work.branches[b] s.loads[b].measured) =
      s.modShed b fun r => { r with thisClose := false, overload := false, overloadCount := 0 } := by
    rw [hv, modShed_twice]
    exact modShed_congr (overloadStep_low low levels frames)
  have quiet : (s.modShed b fun r => { r with thisClose := false, overload := false, overloadCount := 0 }).shed[b].overload =
      false := by rw [modShed_at]
  have stepped : (s.modShed b fun r => { r with thisClose := false, overload := false, overloadCount := 0 }).modShed b
      (fun r => r.restoreStep s.work.branches[b] s.loads[b].measured) = s.modShed b fun r => r.lowStep s.work.branches[b] := by
    rw [modShed_twice]
    exact modShed_congr (restoreStep_low low)
  have work : v.work = s.work := by rw [hv]; rfl
  have loads : v.loads = s.loads := by rw [hv]; rfl
  rw [cleared, ← hv, State.shedEnabledBranch]
  rw [work, loads, counted, quiet, Bool.and_false, if_neg Bool.false_ne_true, quiet, if_neg Bool.false_ne_true, stepped,
    modShed_at]
  have list : (s.shed[b].lowStep s.work.branches[b]).list.filter (s.modShed b fun r => r.lowStep s.work.branches[b]).restorable =
      s.restorables b := rfl
  rw [list]
  have due : (!(s.shed[b].lowStep s.work.branches[b]).restoring &&
      (s.shed[b].lowStep s.work.branches[b]).restoreCount == s.work.branches[b].restoreFrames &&
      !(s.restorables b).isEmpty) = true ↔ s.shed[b].restoring = false ∧ min (s.shed[b].restoreCount + 1)
        s.work.branches[b].restoreFrames = s.work.branches[b].restoreFrames ∧ s.restorables b ≠ [] := by
    simp [ShedRec.lowStep, and_assoc]
  simp only [due]

/-- R125: the outlets of a round join the queue, the last of them first. -/
theorem startRound_eq {s : State} {b : Branch} {ks : List OutletIx} (nodup : ks.Nodup)
    (off : ∀ k ∈ ks, s.outlets[k].state = .off) : s.startRound b ks =
      ((s.modShed b fun r => { r with restoring := true, round := ks }).notice .branchRestore (numberOf b) 0
        (BitVec.ofNat 32 ks.length)).queueAll ks.reverse 2 (.restore b) := by
  have outlets : ((s.modShed b fun r => { r with restoring := true, round := ks }).notice .branchRestore (numberOf b) 0
      (BitVec.ofNat 32 ks.length)).outlets = s.outlets := by
    rw [notice_same]
    rfl
  unfold State.startRound
  dsimp only
  rw [sendCloses_off 2 b (List.nodup_reverse.mpr nodup) fun k hk => by
    rw [outlets]
    exact off k (List.mem_reverse.mp hk)]
  exact deliver_nil _ _

theorem restorables_eq (s : State) (b : Branch) : s.restorables b = s.shed[b].list.filter fun k =>
    s.outlets[k].state = .off ∧ s.outlets[k].shedMark = true ∧ s.outlets[k].cycle = none :=
  List.filter_congr fun k _ => by
    rw [Bool.eq_iff_iff, restorable_iff, decide_eq_true_iff]

/-- What the start of a round leaves. -/
structure RoundStarted (s u : State) (b : Branch) (ks : List OutletIx) : Prop where
  same : u = { s with
    queue := u.queue, nextArrival := u.nextArrival, scanDue := u.scanDue, outlets := u.outlets, mem := u.mem
    cause := u.cause, shed := upd s.shed b fun r => { r with restoring := true, round := ks } }
  joined : ∀ front k back, ks = front ++ k :: back →
    u.outlets[k] = { s.outlets[k] with state := .awaitClose, lastChange := s.partTime, owner := some (.restore b) } ∧
    { s.newEntry k 2 (.restore b) with arrival := s.nextArrival + back.length } ∈ u.queue
  others : ∀ k, k ∉ ks → u.outlets[k] = s.outlets[k]
  due : ks ≠ [] → u.scanDue = true
  filed : s.logFull = false → logEntry u.mem s.writeCount .branchRestore (b.val + 1) 0 s.partTime (BitVec.ofNat 32 ks.length)
  memory : sameBytesOutside noticeBytes s.mem u.mem

theorem startRound_started {s : State} (wf : MemWf s.mem) {b : Branch} {ks : List OutletIx} (nodup : ks.Nodup)
    (off : ∀ k ∈ ks, s.outlets[k].state = .off) : RoundStarted s (s.startRound b ks) b ks := by
  have notice := notice_same (s.modShed b fun r => { r with restoring := true, round := ks }) .branchRestore (numberOf b) 0
    (BitVec.ofNat 32 ks.length)
  have memory := (memStep_notice_noticeBytes (s.modShed b fun r => { r with restoring := true, round := ks }) .branchRestore
    (numberOf b) 0 (BitVec.ofNat 32 ks.length)).bytes
  have filed (room : s.logFull = false) := (notice_noticed (s := s.modShed b fun r => { r with restoring := true, round := ks })
    wf room .branchRestore (subject := numberOf b) (reason := 0) (by simp only [numberOf]; omega) (by decide)
    (BitVec.ofNat 32 ks.length)).entry
  rw [startRound_eq nodup off]
  generalize (s.modShed b fun r => { r with restoring := true, round := ks }).notice .branchRestore (numberOf b) 0
    (BitVec.ofNat 32 ks.length) = v at *
  have same := queueAll_same v ks.reverse 2 (.restore b)
  have mem : (v.queueAll ks.reverse 2 (.restore b)).mem = v.mem := by rw [same]
  refine ⟨?_, fun front k back split => ?_, fun k hk => ?_, fun some => ?_, fun room => ?_, ?_⟩
  · rw [same, notice]
    rfl
  · subst split
    have reversed : (front ++ k :: back).reverse = back.reverse ++ k :: front.reverse := by simp
    rw [reversed]
    have joined := queueAll_joined v (reversed ▸ List.nodup_reverse.mpr nodup) 2 (.restore b)
    rw [List.length_reverse, notice] at joined
    rw [notice]
    exact joined
  · rw [queueAll_other v 2 _ (by simpa using hk), notice]
    rfl
  · rw [same]
    simp [some]
  · rw [mem]
    exact filed room
  · rw [mem]
    exact memory

/-- Settles O50: the restore count and the round, the answers of a round, and a take of shed enable. -/
theorem restoreAtClose : Obligations.RestoreAtClose := by
  unfold Obligations.RestoreAtClose
  refine ⟨fun s closed b wf => ?_, fun s b k o => ?_, fun s closed => ?_⟩
  · dsimp only
    intro enabled low levels frames nodup
    rw [shedBranch_low closed enabled low levels frames, ← restorables_eq]
    obtain ⟨v, hv⟩ : ∃ v, v = s.modShed b fun r => r.lowStep s.work.branches[b] := ⟨_, rfl⟩
    have record : v.shed[b] = s.shed[b].lowStep s.work.branches[b] := by rw [hv, modShed_at]
    have other {x : Branch} (h : x ≠ b) : v.shed[x] = s.shed[x] := by rw [hv, modShed_other _ _ h]
    have outlets : v.outlets = s.outlets := by rw [hv]; rfl
    have mem : v.mem = s.mem := by rw [hv]; rfl
    have same : v = { s with shed := v.shed } := by rw [hv]; rfl
    have started := startRound_started (s := v) (mem ▸ wf) (b := b) (nodup.filter _) (ks := s.restorables b) fun k hk => by
      rw [outlets]
      exact ((restorable_iff s k).mp (List.mem_filter.mp hk).2).1
    rw [← hv]
    clear hv
    have start : (s.shed[b].restoring = false ∧ min (s.shed[b].restoreCount + 1) s.work.branches[b].restoreFrames =
        s.work.branches[b].restoreFrames ∧ s.restorables b ≠ []) ↔ (s.shed[b].restoring = false ∧
        min (s.shed[b].restoreCount + 1) s.work.branches[b].restoreFrames = s.work.branches[b].restoreFrames ∧
        ∃ k ∈ s.shed[b].list, s.restorable k = true) := by
      rw [State.restorables, Ne, List.filter_eq_nil_iff]
      push Not
      rfl
    simp only [← restorable_iff]
    split_ifs with due
    · obtain ⟨idle, counted, k, hk, restorable⟩ := start.mp due
      have shed : (v.startRound b (s.restorables b)).shed = upd v.shed b fun r =>
          { r with restoring := true, round := s.restorables b } := by rw [started.same]
      have at_ : (v.startRound b (s.restorables b)).shed[b] =
          { s.shed[b].lowStep s.work.branches[b] with restoring := true, round := s.restorables b } := by
        rw [shed, upd_same, record]
      have elsewhere {x : Branch} (h : x ≠ b) : (v.startRound b (s.restorables b)).shed[x] = s.shed[x] := by
        rw [shed, upd_other _ _ h, other h]
      rw [at_]
      refine ⟨rfl, rfl, rfl, rfl, rfl, fun x hx => elsewhere hx, fun none => ?_, fun _ _ _ => ⟨rfl, rfl, ?_, fun j hj => ?_, ?_, ?_, ?_⟩⟩
      · rcases none with h | h | h
        · rw [idle] at h
          cases h
        · exact absurd counted h
        · exact absurd restorable (h k hk)
      · intro front j back split hj
        have split' : s.restorables b = front.filter s.restorable ++ j :: back.filter s.restorable := by
          rw [State.restorables, split, List.filter_append, List.filter_cons_of_pos hj]
        obtain ⟨outlet, entry⟩ := started.joined _ _ _ split'
        rw [outlet, outlets]
        have queued : (back.filter fun k => s.restorable k = true) = back.filter s.restorable :=
          List.filter_congr fun _ _ => Bool.decide_eq_true
        rw [queued]
        refine ⟨rfl, rfl, ((restorable_iff s j).mp hj).2.1, _, entry, rfl, rfl, rfl, ?_, ?_⟩
        · rw [same]
          rfl
        · rw [same]
      · rw [started.others j fun mem => ?_, outlets]
        obtain ⟨listed, restorable⟩ := List.mem_filter.mp mem
        exact hj.elim (· listed) (· restorable)
      · exact started.due due.2.2
      · intro room
        have full : v.logFull = s.logFull := by rw [same]; rfl
        have count : v.writeCount = s.writeCount := by rw [same]; rfl
        have time : v.partTime = s.partTime := by rw [same]; rfl
        have entry := started.filed (full.trans room)
        rw [count, time] at entry
        exact entry
      · rw [← mem]
        exact started.memory
    · rw [record]
      refine ⟨rfl, rfl, rfl, rfl, rfl, fun x hx => other hx, fun _ => ⟨same, rfl, rfl⟩, fun idle counted some => ?_⟩
      exact absurd (start.mpr ⟨idle, counted, some⟩) due
  · dsimp only
    have record := restoreReply_at s b k o
    have list : (s.restoreReply b k o).shed[b].list = if o = .ok then s.shed[b].list.filter (· ≠ k) else s.shed[b].list := by
      rw [record, leaveRound_list]
    rw [list]
    refine ⟨rfl, fun x hx => modShed_other s _ hx, rfl, fun out => ?_, fun mem more => ?_, fun mem last => ?_⟩
    · rw [record]
      exact leaveRound_out out
    · rw [record]
      exact leaveRound_more mem more
    · rw [record]
      exact leaveRound_last mem last
  · refine ⟨rfl, fun b => ⟨fun same => ?_, fun changed => ?_⟩⟩
    · rw [shedTake_at, if_pos same]
    · rw [shedTake_at, if_neg changed]
      rfl

end Sys2Proof.Machine
end

section
/-! PROOF. The examination of a watch (R154 to R163). -/
namespace Sys2Proof.Machine

open Sys2Proof.Safety

/-! ### Notices one after another -/

theorem room_of_used {s : State} (h : logUsed s.mem < 256) : s.logFull = false :=
  Bool.eq_false_iff.mpr fun full => absurd ((logFull_iff s).mp full).1 (Nat.not_le.mpr h)

theorem notice_log {s : State} (wf : MemWf s.mem) (used : logUsed s.mem < 256) (kind : NoticeKind) {subject reason : Nat}
    (hs : subject < 65536) (hr : reason < 256) (value : Word) :
    logUsed (s.notice kind subject reason value).mem = logUsed s.mem + 1 := by
  have filed := notice_noticed wf (room_of_used used) kind hs hr value
  have mark : readWord (s.notice kind subject reason value).mem addrReadMark = readWord s.mem addrReadMark :=
    readWord_congr _ fun i hi => filed.bytes _ (by
      rw [Bool.or_eq_false_iff, within_eq_false, within_eq_false]
      simp only [addrReadMark]
      omega)
  have count : readWord (s.notice kind subject reason value).mem addrWriteCount = readWord s.mem addrWriteCount + 1 := filed.count
  rw [logUsed] at used
  rw [logUsed, logUsed, mark, count, add_sub_right_comm, BitVec.toNat_add]
  have one : (1 : Word).toNat = 1 := rfl
  rw [one, Nat.mod_eq_of_lt (by omega)]

theorem places_apart (q : Word) : (q + 1).toNat % 256 ≠ q.toNat % 256 := by
  have one : (1 : Word).toNat = 1 := rfl
  rw [BitVec.toNat_add, one]
  omega

/-- A second notice of an event stands behind the first, which stays. -/
theorem notice_second {s v : State} (wf : MemWf s.mem) (used : logUsed s.mem + 2 ≤ 256) (k1 k2 : NoticeKind)
    {s1 r1 s2 r2 : Nat} (hs1 : s1 < 65536) (hr1 : r1 < 256) (hs2 : s2 < 65536) (hr2 : r2 < 256) (v1 v2 : Word)
    (mem : v.mem = (s.notice k1 s1 r1 v1).mem) (now : v.now = s.now) :
    logEntry (v.notice k2 s2 r2 v2).mem s.writeCount k1 s1 r1 s.partTime v1 ∧
      logEntry (v.notice k2 s2 r2 v2).mem (s.writeCount + 1) k2 s2 r2 s.partTime v2 := by
  have first := notice_noticed wf (room_of_used (by omega)) k1 hs1 hr1 v1
  have usedThen := notice_log wf (by omega) k1 hs1 hr1 v1
  have wf' : MemWf (s.notice k1 s1 r1 v1).mem := (notice_block s _ _ _ _).wf wf
  rw [← mem] at usedThen wf'
  have second := notice_noticed wf' (room_of_used (by omega)) k2 hs2 hr2 v2
  have count : v.writeCount = s.writeCount + 1 := by rw [State.writeCount, mem]; exact first.count
  have time : v.partTime = s.partTime := by rw [State.partTime, now]; rfl
  have entry := second.entry
  rw [count, time] at entry
  refine ⟨logEntry_congr (fun a ha => ?_) (mem ▸ first.entry), entry⟩
  refine second.bytes a ?_
  have apart := places_apart s.writeCount
  rw [count, Bool.or_eq_false_iff, within_eq_false, within_eq_false]
  rw [within_iff] at ha
  omega

/-! ### Evidence (R155 to R157) -/

theorem anyOn_iff {seen : Vector OutletState 48} {ks : List OutletIx} : anyOn seen ks = true ↔ ∃ k ∈ ks, seen[k] = .on := by
  simp [anyOn]

theorem countingFrame_iff {seen : Vector OutletState 48} {ks : List OutletIx} : countingFrame seen ks = true ↔
    (∃ k ∈ ks, seen[k] = .on) ∧ ∀ k ∈ ks, seen[k] = .on ∨ seen[k] = .off ∨ seen[k] = .unknown := by
  have stays (st : OutletState) : (!st.freezes) = true ↔ st = .on ∨ st = .off ∨ st = .unknown := by cases st <;> decide
  rw [countingFrame, Bool.and_eq_true, anyOn_iff, List.all_eq_true]
  exact and_congr_right fun _ => forall₂_congr fun k _ => stays _

theorem activityTest_fst (x : WatchRec) (sum band : Nat) : (activityTest x.reference sum band).1 = referenceAfter x sum band := by
  unfold activityTest referenceAfter
  split
  · rfl
  · cases x.reference with
    | none => rfl
    | some r =>
      dsimp only
      split_ifs <;> rfl

theorem activityTest_snd (x : WatchRec) (sum band : Nat) : (activityTest x.reference sum band).2 = true ↔ moved x sum band := by
  unfold activityTest moved
  split
  case isTrue h => simp [h]
  case isFalse h =>
    cases x.reference with
    | none => simp
    | some r =>
      dsimp only
      split_ifs with far <;> simp [h, far]

theorem referenceAfter_moved {x : WatchRec} {sum band : Nat} (h : moved x sum band) : referenceAfter x sum band = some sum := by
  obtain ⟨on, r, reference, far⟩ := h
  rw [referenceAfter, if_neg on, reference]
  exact if_pos far

theorem evidence_none {x : WatchRec} {renewal : Half} {sum band : Nat} (same : renewal = x.lastRenewal)
    (still : ¬moved x sum band) (seq : Word) :
    x.evidence renewal sum band seq = ({ x with reference := referenceAfter x sum band }, none) := by
  have quiet : (activityTest x.reference sum band).2 = false := Bool.eq_false_iff.mpr (mt (activityTest_snd x sum band).mp still)
  simp only [WatchRec.evidence, same, bne_self_eq_false, Bool.false_eq_true, if_false, quiet, activityTest_fst, Option.map_none,
    Option.none_or]

theorem evidence_renewal {x : WatchRec} {renewal : Half} (sum band : Nat) (new : renewal ≠ x.lastRenewal) (seq : Word) :
    x.evidence renewal sum band seq = ({ x with
      lastRenewal := renewal, reference := referenceAfter x sum band, lastEvidence := some (.renewal, seq) }, some .renewal) := by
  simp only [WatchRec.evidence, bne_iff_ne.mpr new, if_true, activityTest_fst, Option.map_some, Option.some_or]

theorem evidence_activity {x : WatchRec} {renewal : Half} {sum band : Nat} (same : renewal = x.lastRenewal)
    (active : moved x sum band) (seq : Word) : x.evidence renewal sum band seq = ({ x with
      reference := referenceAfter x sum band, lastEvidence := some (.activity, seq) }, some .activity) := by
  simp only [WatchRec.evidence, same, bne_self_eq_false, Bool.false_eq_true, if_false, (activityTest_snd x sum band).mpr active,
    if_true, activityTest_fst, Option.map_some, Option.some_or]

/-! ### The examination by state -/

theorem modWatch_twice (s : State) (w : WatchNo) (f g : WatchRec → WatchRec) :
    (s.modWatch w f).modWatch w g = s.modWatch w fun x => g (f x) := by
  rw [State.modWatch, State.modWatch, State.modWatch, upd_comp]

theorem modWatch_congr {s : State} {w : WatchNo} {f g : WatchRec → WatchRec} (h : f s.watches[w] = g s.watches[w]) :
    s.modWatch w f = s.modWatch w g := by rw [State.modWatch, State.modWatch, upd, upd, h]

section
variable {s : State} {seen : Vector OutletState 48} {res : Vector OutletResult 48} {seq : Word} {w : WatchNo}

theorem examine_passed (h : s.watches[w].state = .disarmed ∨ s.watches[w].state = .cycling ∨
    ((s.watches[w].state = .grace ∨ s.watches[w].state = .watching) ∧ countingFrame seen s.work.watches[w].members = false)) :
    s.examineWatch seen res seq w = s := by
  rcases h with h | h | ⟨h | h, frozen⟩
  · simp only [State.examineWatch, h]
  · simp only [State.examineWatch, h]
  · simp only [State.examineWatch, h, frozen, Bool.false_eq_true, if_false]
  · simp only [State.examineWatch, h, frozen, Bool.false_eq_true, if_false]

theorem examine_grace (h : s.watches[w].state = .grace) (counts : countingFrame seen s.work.watches[w].members = true) :
    s.examineWatch seen res seq w = s.modWatch w fun x => x.graceFrame s.work.watches[w] (renewalAt s.mem w)
      (memberSum res s.work.watches[w].members) seq := by
  simp only [State.examineWatch, h, counts, if_true]

theorem examine_watching (h : s.watches[w].state = .watching) (counts : countingFrame seen s.work.watches[w].members = true) :
    s.examineWatch seen res seq w = s.watchingFrame w (memberSum res s.work.watches[w].members) seq := by
  simp only [State.examineWatch, h, counts, if_true]

theorem examine_waiting (h : s.watches[w].state = .lapsed ∨ s.watches[w].state = .expiredWait ∨ s.watches[w].state = .gaveUp) :
    s.examineWatch seen res seq w = s.waitingFrame seen w (memberSum res s.work.watches[w].members) seq := by
  rcases h with h | h | h <;> simp only [State.examineWatch, h]

end

theorem graceFrame_renewed {x : WatchRec} {renewal : Half} (new : renewal ≠ x.lastRenewal) (cfg : WatchSettings) (sum : Nat)
    (seq : Word) : x.graceFrame cfg renewal sum seq = { x with
      reference := if cfg.band = 0 then x.reference else some sum
      state := .watching, framesLeft := cfg.timeout, consecutive := 0, lastRenewal := renewal
      lastEvidence := some (.renewal, seq) } := by
  simp only [WatchRec.graceFrame, bne_iff_ne.mpr new, if_true]

theorem graceFrame_same {x : WatchRec} {renewal : Half} (grace : x.state = .grace) (same : renewal = x.lastRenewal)
    (cfg : WatchSettings) (sum : Nat) (seq : Word) : x.graceFrame cfg renewal sum seq = { x with
      reference := if cfg.band = 0 then x.reference else some sum
      state := if x.framesLeft ≤ 1 then .watching else .grace
      framesLeft := if x.framesLeft ≤ 1 then cfg.timeout else x.framesLeft - 1 } := by
  have last : x.framesLeft - 1 = 0 ↔ x.framesLeft ≤ 1 := by omega
  simp only [WatchRec.graceFrame, same, bne_self_eq_false, Bool.false_eq_true, if_false, last]
  by_cases h : x.framesLeft ≤ 1
  · simp only [h, if_true]
  · simp only [h, if_false, grace]

theorem watchingFrame_evidence {s : State} {w : WatchNo} {sum : Nat} {seq : Word} {y : WatchRec} {ev : Evidence}
    (h : s.watches[w].evidence (renewalAt s.mem w) sum s.work.watches[w].band seq = (y, some ev)) :
    s.watchingFrame w sum seq = s.modWatch w fun _ => y.reload s.work.watches[w] := by
  simp only [State.watchingFrame, h, Option.isSome_some, if_true]

theorem watchingFrame_quiet {s : State} {w : WatchNo} {sum : Nat} {seq : Word} {y : WatchRec}
    (h : s.watches[w].evidence (renewalAt s.mem w) sum s.work.watches[w].band seq = (y, none)) :
    s.watchingFrame w sum seq = if y.framesLeft ≤ 1 then
        (s.modWatch w fun _ => { y with framesLeft := y.framesLeft - 1 }).expireWatch w
      else s.modWatch w fun _ => { y with framesLeft := y.framesLeft - 1 } := by
  have last : y.framesLeft - 1 = 0 ↔ y.framesLeft ≤ 1 := by omega
  simp only [State.watchingFrame, h, Option.isSome_none, Bool.false_eq_true, if_false, last]

theorem notice_modWatch_at (s : State) (w : WatchNo) (f : WatchRec → WatchRec) (kind : NoticeKind) (subject reason : Nat)
    (value : Word) : ((s.modWatch w f).notice kind subject reason value).watches[w] = f s.watches[w] := by
  rw [notice_watches, modWatch_at]

theorem notice_modWatch_other (s : State) {v w : WatchNo} (h : v ≠ w) (f : WatchRec → WatchRec) (kind : NoticeKind)
    (subject reason : Nat) (value : Word) : ((s.modWatch w f).notice kind subject reason value).watches[v] = s.watches[v] := by
  rw [notice_watches, modWatch_other _ _ h]

theorem notice_modWatch_same (s : State) (w : WatchNo) (f : WatchRec → WatchRec) (kind : NoticeKind) (subject reason : Nat)
    (value : Word) : (s.modWatch w f).notice kind subject reason value = { s with
      watches := ((s.modWatch w f).notice kind subject reason value).watches
      mem := ((s.modWatch w f).notice kind subject reason value).mem
      cause := ((s.modWatch w f).notice kind subject reason value).cause } := by
  rw [notice_same]
  rfl

theorem expireWatch_note {s : State} {w : WatchNo} (note : s.work.watches[w].action = .note) : s.expireWatch w =
    (s.modWatch w fun x => { x with state := .lapsed, framesLeft := 0 }).notice .watchExpired w.val 0
      (BitVec.ofNat 32 s.watches[w].consecutive) := by
  simp only [State.expireWatch, note]

/-- What a watch has seen of a counting frame in WATCHING, without evidence. -/
def WatchRec.observed (x : WatchRec) (cfg : WatchSettings) (sum : Nat) : WatchRec :=
  { x with reference := referenceAfter x sum cfg.band }

/-- R160: the last quiet frame of a watch with action NOTE. -/
theorem watchingFrame_lapses {s : State} {w : WatchNo} {sum : Nat} {seq : Word}
    (same : renewalAt s.mem w = s.watches[w].lastRenewal) (still : ¬moved s.watches[w] sum s.work.watches[w].band)
    (last : s.watches[w].framesLeft ≤ 1) (note : s.work.watches[w].action = .note) : s.watchingFrame w sum seq =
      (s.modWatch w fun x => { x.observed s.work.watches[w] sum with state := .lapsed, framesLeft := 0 }).notice
        .watchExpired w.val 0 (BitVec.ofNat 32 s.watches[w].consecutive) := by
  rw [watchingFrame_quiet (evidence_none same still seq), if_pos last,
    expireWatch_note (s := s.modWatch w _) note, modWatch_twice, modWatch_at]
  rfl

/-- Settles O53: the states in which a watch only counts, one after another. -/
theorem watchExaminedAtClose : Obligations.WatchExaminedAtClose := by
  unfold Obligations.WatchExaminedAtClose
  intro s seen res seq w
  dsimp only
  rw [← countingFrame_iff]
  have renewal : readHalf s.mem (0x0800 + 32 * w.val + 24) = renewalAt s.mem w := rfl
  have sum : (s.work.watches[w].members.map fun k => res[k].irms).sum = memberSum res s.work.watches[w].members := rfl
  rw [renewal, sum]
  have watched (f : WatchRec → WatchRec) : s.modWatch w f = { s with watches := (s.modWatch w f).watches } := rfl
  refine ⟨fun h => ?_, fun h v hv => ?_, fun grace counts same => ?_, fun grace counts new => ?_, fun watching counts quiet more => ?_,
    fun watching counts quiet last note => ?_, fun watching counts new => ?_, fun watching counts same active => ?_⟩
  · refine examine_passed (h.imp_right (Or.imp_right fun ⟨state, frozen⟩ => ⟨state, ?_⟩))
    exact Bool.eq_false_iff.mpr frozen
  · cases counts : countingFrame seen s.work.watches[w].members with
    | false =>
      rw [examine_passed (.inr (.inr ⟨h.imp_right And.left, counts⟩))]
    | true =>
      rcases h with grace | ⟨watching, more⟩
      · rw [examine_grace grace counts, modWatch_other _ _ hv]
      rw [examine_watching watching counts]
      by_cases new : renewalAt s.mem w ≠ s.watches[w].lastRenewal
      · rw [watchingFrame_evidence (evidence_renewal _ _ new seq), modWatch_other _ _ hv]
      have same := not_ne_iff.mp new
      by_cases active : moved s.watches[w] (memberSum res s.work.watches[w].members) s.work.watches[w].band
      · rw [watchingFrame_evidence (evidence_activity same active seq), modWatch_other _ _ hv]
      by_cases last : s.watches[w].framesLeft ≤ 1
      · rcases more with note | more | evident
        · rw [watchingFrame_lapses same active last note, notice_modWatch_other _ hv]
        · exact absurd last (Nat.not_le.mpr more)
        · exact absurd ⟨same, active⟩ evident
      · rw [watchingFrame_quiet (evidence_none same active seq), if_neg last, modWatch_other _ _ hv]
  · rw [examine_grace grace counts, modWatch_at, graceFrame_same grace same]
    exact ⟨rfl, rfl⟩
  · rw [examine_grace grace counts, modWatch_at, graceFrame_renewed new]
    exact ⟨rfl, rfl⟩
  · rw [examine_watching watching counts, watchingFrame_quiet (evidence_none quiet.1 quiet.2 seq), if_neg (Nat.not_le.mpr more),
      modWatch_at]
    exact ⟨rfl, rfl⟩
  · rw [examine_watching watching counts, watchingFrame_lapses quiet.1 quiet.2 last note]
    exact ⟨notice_modWatch_same _ _ _ _ _ _ _, notice_modWatch_at _ _ _ _ _ _ _, (memStep_notice_noticeBytes _ _ _ _ _).bytes⟩
  · rw [examine_watching watching counts, watchingFrame_evidence (evidence_renewal _ _ new seq), modWatch_at]
    refine ⟨rfl, ?_⟩
    rw [WatchRec.reload, ← watching]
  · rw [examine_watching watching counts, watchingFrame_evidence (evidence_activity same active seq), modWatch_at]
    refine ⟨rfl, ?_⟩
    rw [WatchRec.reload, ← watching, referenceAfter_moved active]

end Sys2Proof.Machine
end

section
/-! PROOF. The expiry of a watch and its resumption (R160 to R163). -/
namespace Sys2Proof.Machine

open Sys2Proof.Safety

/-! ### An admission does not look at the watches -/

/-- The same part with another watch table. -/
def State.withWatches (s : State) (x : Vector WatchRec 24) : State := { s with watches := x }

theorem release_withWatches (s : State) (x : Vector WatchRec 24) (k : OutletIx) :
    (s.withWatches x).release k = (s.release k).withWatches x := by
  unfold State.release State.withWatches
  dsimp only
  split_ifs <;> rfl

theorem assign_withWatches (s : State) (x : Vector WatchRec 24) (d : DriverNo) (k : OutletIx) (dir : Dir) :
    (s.withWatches x).assign d k dir = (s.assign d k dir).withWatches x := by
  have aim (p : Phase) (est : Nat) : (s.withWatches x).aim p est = s.aim p est := rfl
  unfold State.assign
  dsimp only
  rw [aim]
  by_cases h : (s.aim ((s.withWatches x).phaseOf k) ((s.withWatches x).outlets[k].estimate dir)).2 = true
  · have h' : (s.aim (s.phaseOf k) (s.outlets[k].estimate dir)).2 = true := h
    rw [if_pos h, if_pos h']
    rfl
  · have h' : ¬(s.aim (s.phaseOf k) (s.outlets[k].estimate dir)).2 = true := h
    rw [if_neg h, if_neg h']
    rfl

theorem needDriver_withWatches (s : State) (x : Vector WatchRec 24) (k : OutletIx) (dir : Dir) (retry : Bool) :
    (s.withWatches x).needDriver k dir retry = (s.needDriver k dir retry).withWatches x := by
  cases h : s.freeDriver with
  | some d => rw [needDriver_assigns h, needDriver_assigns (s := s.withWatches x) h, assign_withWatches]
  | none =>
    rw [needDriver_waits h, needDriver_waits (s := s.withWatches x) h]
    rfl

theorem enterOpening_withWatches (s : State) (x : Vector WatchRec 24) (k : OutletIx) (w : Owner) :
    (s.withWatches x).enterOpening k w = (s.enterOpening k w).withWatches x := by
  have entered : ((s.withWatches x).enter k .opening).modOutlet k (fun o => { o with owner := some w, wholeFrame := false }) =
      ((s.enter k .opening).modOutlet k fun o => { o with owner := some w, wholeFrame := false }).withWatches x := rfl
  have asked : (s.withWatches x).openAsked k w = (s.openAsked k w).withWatches x := by
    rw [State.openAsked, State.openAsked, entered, release_withWatches]
    rfl
  rw [enterOpening_eq, enterOpening_eq, asked, needDriver_withWatches]

theorem opensAll_withWatches (s : State) (x : Vector WatchRec 24) (ks : List OutletIx) (w : Owner) :
    (s.withWatches x).opensAll ks w = (s.opensAll ks w).withWatches x := by
  induction ks generalizing s with
  | nil => rfl
  | cons k ks ih => rw [opensAll_cons, opensAll_cons, enterOpening_withWatches, ih]

theorem startRecord_withWatches (s : State) (x : Vector WatchRec 24) (c : RecNo) (o : Origin) (targets : List OutletIx)
    (rest : Nat) : (s.withWatches x).startRecord c o targets rest = (s.startRecord c o targets rest).withWatches x := by
  rw [startRecord_opens, startRecord_opens]
  exact opensAll_withWatches (s.recordJoined c o targets rest) x _ _

/-- R134 does not look at the watches: the admission leaves them, and answers the same whatever they are. -/
theorem admission_withWatches (s : State) (x : Vector WatchRec 24) (o : Origin) (targets : List OutletIx) (rest : Nat) :
    (s.withWatches x).admission o targets rest =
      ((s.admission o targets rest).1.withWatches x, (s.admission o targets rest).2) := by
  have retriggers : (s.withWatches x).retriggers targets = s.retriggers targets := rfl
  cases h1 : (indices 16).find? (s.retriggers targets) with
  | some c =>
    rw [admission_retriggers h1, admission_retriggers (s := s.withWatches x) h1]
    by_cases full : 4 ≤ s.cycles[c].origins.length
    · rw [retrigger_full full, retrigger_full (s := s.withWatches x) full]
      rfl
    · have room := Nat.not_le.mp full
      rw [retrigger_attaches targets room, retrigger_attaches (s := s.withWatches x) targets room]
      rfl
  | none =>
  cases h2 : targets.find? (fun k => s.outlets[k].state == .fault) with
  | some k =>
    rw [admission_faulty h1 h2, admission_faulty (s := s.withWatches x) h1 h2]
  | none =>
  cases h3 : targets.find? (fun k => s.outlets[k].state == .unknown) with
  | some k =>
    rw [admission_unknown h1 h2 h3, admission_unknown (s := s.withWatches x) h1 h2 h3]
  | none =>
  cases h4 : targets.find? (fun k => s.outlets[k].busy) with
  | some k =>
    rw [admission_busy h1 h2 h3 h4, admission_busy (s := s.withWatches x) h1 h2 h3 h4]
  | none =>
  by_cases off : targets.all (fun k => s.outlets[k].state != .on) = true
  · rw [admission_free h1 h2 h3 h4, admission_free (s := s.withWatches x) h1 h2 h3 h4, if_pos off]
    exact if_pos off
  · rw [admission_free h1 h2 h3 h4, admission_free (s := s.withWatches x) h1 h2 h3 h4, if_neg off]
    refine (if_neg off).trans ?_
    cases h5 : (indices 16).find? fun c => s.cycles[c].state == .free with
    | none =>
      have h5' : ((indices 16).find? fun c => (s.withWatches x).cycles[c].state == .free) = none := h5
      rw [h5']
    | some c =>
      have h5' : ((indices 16).find? fun c => (s.withWatches x).cycles[c].state == .free) = some c := h5
      simp only [h5', startRecord_withWatches]

theorem admission_watches (s : State) (o : Origin) (targets : List OutletIx) (rest : Nat) :
    (s.admission o targets rest).1.watches = s.watches := by
  have same := congrArg (fun a : State × AdmitResult => a.1.watches) (admission_withWatches s s.watches o targets rest)
  exact same

/-! ### What a watch does where it expires -/

/-- A notice filed by a part with the memory and the clock of `s`. -/
theorem notice_filed {s v : State} (wf : MemWf s.mem) (room : s.logFull = false) (mem : v.mem = s.mem) (now : v.now = s.now)
    (kind : NoticeKind) {subject reason : Nat} (hs : subject < 65536) (hr : reason < 256) (value : Word) :
    logEntry (v.notice kind subject reason value).mem s.writeCount kind subject reason s.partTime value := by
  have full : v.logFull = s.logFull := by rw [State.logFull, State.logFull, State.writeCount, State.writeCount, mem]
  have count : v.writeCount = s.writeCount := by rw [State.writeCount, State.writeCount, mem]
  have time : v.partTime = s.partTime := by rw [State.partTime, State.partTime, now]
  have entry := (notice_noticed (mem ▸ wf) (full.trans room) kind hs hr value).entry
  rw [count, time] at entry
  exact entry

theorem refusal_lt (r : AdmitResult) : r.refusal < 256 := by
  cases r with
  | refused reason detail => exact reasonCode_lt reason
  | admitted c | attached c => exact (by decide : 0 < 256)

/-- R161, R162: a watch after its request, by the answer. -/
def WatchRec.asked (x : WatchRec) : AdmitResult → WatchRec
  | .admitted c | .attached c =>
    { x with state := .cycling, framesLeft := 0, record := some c, consecutive := x.consecutive + 1 }
  | .refused _ _ => { x with state := .expiredWait, framesLeft := 0 }

/-- The admission that watch `w` asks for. -/
def State.watchAdmission (s : State) (w : WatchNo) : State × AdmitResult :=
  s.admission (.watch w) s.work.watches[w].members s.work.watches[w].restTime

theorem requestCycle_eq (s : State) (w : WatchNo) (f : WatchRec → WatchRec) : (s.modWatch w f).requestCycle w =
    ((s.watchAdmission w).1.modWatch w fun x => (f x).asked (s.watchAdmission w).2, (s.watchAdmission w).2) := by
  have admitted : (s.modWatch w f).admission (.watch w) s.work.watches[w].members s.work.watches[w].restTime =
      ((s.watchAdmission w).1.modWatch w f, (s.watchAdmission w).2) := by
    refine (admission_withWatches s _ _ _ _).trans ?_
    have watches := admission_watches s (.watch w) s.work.watches[w].members s.work.watches[w].restTime
    rw [State.watchAdmission]
    generalize s.admission (.watch w) s.work.watches[w].members s.work.watches[w].restTime = a at *
    simp only [State.modWatch, State.withWatches, watches]
  have work : (s.modWatch w f).work = s.work := rfl
  unfold State.requestCycle
  dsimp only
  rw [work, admitted]
  generalize s.watchAdmission w = a
  cases h : a.2 with
  | refused reason detail | admitted c | attached c => exact Prod.ext (modWatch_twice _ _ _ _) rfl

/-- R161: what the answer files. -/
theorem noticeCycle_eq (s : State) (w : WatchNo) (r : AdmitResult) :
    (∀ c, (r = .admitted c ∨ r = .attached c) → s.noticeCycle w r =
      s.notice .watchCycle w.val (if r = .admitted c then 64 else 65) (BitVec.ofNat 32 c.val)) ∧
    ((∃ reason detail, r = .refused reason detail) → s.noticeCycle w r = s) := by
  refine ⟨fun c h => ?_, fun ⟨reason, detail, h⟩ => by rw [h, State.noticeCycle]⟩
  rcases h with rfl | rfl
  · rw [State.noticeCycle, if_pos rfl]
  · rw [State.noticeCycle, if_neg (fun h => nomatch h)]

theorem noticeCycle_same (s : State) (w : WatchNo) (r : AdmitResult) : s.noticeCycle w r = { s with
    mem := (s.noticeCycle w r).mem, cause := (s.noticeCycle w r).cause } := by
  unfold State.noticeCycle
  split
  · exact notice_same _ _ _ _ _
  · exact notice_same _ _ _ _ _
  · rfl

theorem memStep_noticeCycle (s : State) (w : WatchNo) (r : AdmitResult) : MemStep noticeBytes s.mem (s.noticeCycle w r).mem := by
  unfold State.noticeCycle
  split
  · exact memStep_notice_noticeBytes _ _ _ _ _
  · exact memStep_notice_noticeBytes _ _ _ _ _
  · exact .refl _ _

/-- R162: the watch gives up. -/
theorem giveUp_eq (s : State) (w : WatchNo) (f : WatchRec → WatchRec) : (s.modWatch w f).giveUp w =
    (s.modWatch w fun x => { f x with state := .gaveUp, framesLeft := 0 }).notice .watchGaveUp w.val 0
      (BitVec.ofNat 32 (f s.watches[w]).consecutive) := by
  rw [State.giveUp, modWatch_twice, modWatch_at]

theorem expireWatch_limit {s : State} {w : WatchNo} (cycle : s.work.watches[w].action = .cycle)
    (limit : s.work.watches[w].cycleLimit ≤ s.watches[w].consecutive) : s.expireWatch w =
      (s.notice .watchExpired w.val 0 (BitVec.ofNat 32 s.watches[w].consecutive)).giveUp w := by
  simp only [State.expireWatch, cycle, limit, if_true]

theorem expireWatch_asks {s : State} {w : WatchNo} (cycle : s.work.watches[w].action = .cycle)
    (below : s.watches[w].consecutive < s.work.watches[w].cycleLimit) : s.expireWatch w =
      (((s.requestCycle w).1.notice .watchExpired w.val (s.requestCycle w).2.refusal
        (BitVec.ofNat 32 s.watches[w].consecutive)).noticeCycle w (s.requestCycle w).2) := by
  simp only [State.expireWatch, cycle, Nat.not_le.mpr below, if_false]

theorem retryWatch_note {s : State} {w : WatchNo} (note : s.work.watches[w].action = .note) :
    s.retryWatch w = s.modWatch w fun x => { x with state := .lapsed } := by
  simp only [State.retryWatch, note]

theorem retryWatch_limit {s : State} {w : WatchNo} (cycle : s.work.watches[w].action = .cycle)
    (limit : s.work.watches[w].cycleLimit ≤ s.watches[w].consecutive) : s.retryWatch w = s.giveUp w := by
  simp only [State.retryWatch, cycle, limit, if_true]

theorem retryWatch_asks {s : State} {w : WatchNo} (cycle : s.work.watches[w].action = .cycle)
    (below : s.watches[w].consecutive < s.work.watches[w].cycleLimit) :
    s.retryWatch w = (s.requestCycle w).1.noticeCycle w (s.requestCycle w).2 := by
  simp only [State.retryWatch, cycle, Nat.not_le.mpr below, if_false]

/-- What a watch sees in LAPSED, EXPIRED_WAIT and GAVE_UP, where no evidence takes it to WATCHING (R163). -/
def WatchRec.seenBy (x : WatchRec) (cfg : WatchSettings) (seen : Vector OutletState 48) (sum : Nat) : WatchRec :=
  if anyOn seen cfg.members then x.observed cfg sum else x

theorem waitingFrame_quiet {s : State} {seen : Vector OutletState 48} {w : WatchNo} {sum : Nat} {seq : Word}
    (quiet : anyOn seen s.work.watches[w].members = true → renewalAt s.mem w = s.watches[w].lastRenewal ∧
      ¬moved s.watches[w] sum s.work.watches[w].band) : s.waitingFrame seen w sum seq =
      if s.watches[w].state = .expiredWait then
        (s.modWatch w fun x => x.seenBy s.work.watches[w] seen sum).retryWatch w
      else s.modWatch w fun x => x.seenBy s.work.watches[w] seen sum := by
  have seenBy : (s.modWatch w fun x => x.seenBy s.work.watches[w] seen sum) =
      s.modWatch w fun _ => s.watches[w].seenBy s.work.watches[w] seen sum := modWatch_congr rfl
  rw [seenBy, WatchRec.seenBy]
  cases on : anyOn seen s.work.watches[w].members with
  | false => simp only [State.waitingFrame, on, Bool.false_eq_true, if_false]
  | true =>
    obtain ⟨same, still⟩ := quiet on
    simp only [State.waitingFrame, on, if_true, evidence_none same still]
    rfl

theorem waitingFrame_evidence {s : State} {seen : Vector OutletState 48} {w : WatchNo} {sum : Nat} {seq : Word} {y : WatchRec}
    {ev : Evidence} (on : anyOn seen s.work.watches[w].members = true)
    (h : s.watches[w].evidence (renewalAt s.mem w) sum s.work.watches[w].band seq = (y, some ev)) :
    s.waitingFrame seen w sum seq = (s.modWatch w fun _ => y.reload s.work.watches[w]).notice .watchResumed w.val ev.code
      (BitVec.ofNat 32 s.watches[w].state.code) := by
  simp only [State.waitingFrame, on, if_true, h]

end Sys2Proof.Machine
end

section
/-! PROOF. The expiry of a watch and its resumption (O54). -/
namespace Sys2Proof.Machine

open Sys2Proof.Safety

/-- What every outcome but a cycle leaves: watch `w` is `z`, and notices have been filed. -/
structure WatchSettled (s u : State) (w : WatchNo) (z : WatchRec) : Prop where
  same : u = { s with watches := u.watches, mem := u.mem, cause := u.cause }
  watch : u.watches[w] = z
  others : ∀ v : WatchNo, v ≠ w → u.watches[v] = s.watches[v]
  memory : MemStep noticeBytes s.mem u.mem

theorem WatchSettled.modWatch (s : State) (w : WatchNo) (f : WatchRec → WatchRec) :
    WatchSettled s (s.modWatch w f) w (f s.watches[w]) :=
  ⟨rfl, modWatch_at s w f, fun _ hv => modWatch_other s f hv, .refl _ _⟩

theorem WatchSettled.notice {s u : State} {w : WatchNo} {z : WatchRec} (h : WatchSettled s u w z) (kind : NoticeKind)
    (subject reason : Nat) (value : Word) : WatchSettled s (u.notice kind subject reason value) w z := by
  have filed := notice_same u kind subject reason value
  have watches := notice_watches u kind subject reason value
  refine ⟨?_, by rw [watches, h.watch], fun v hv => by rw [watches, h.others v hv],
    h.memory.trans (memStep_notice_noticeBytes _ _ _ _ _)⟩
  rw [filed, h.same]

theorem WatchSettled.then {s u : State} {w : WatchNo} {z : WatchRec} (h : WatchSettled s u w z) (f : WatchRec → WatchRec) :
    WatchSettled s (u.modWatch w f) w (f z) := by
  refine ⟨?_, by rw [modWatch_at, h.watch], fun v hv => by rw [modWatch_other u f hv, h.others v hv], h.memory⟩
  rw [State.modWatch, h.same]

/-- A watch that asks for a cycle: what the admission leaves, the watch by the answer, and the notices. -/
structure WatchAsked (s u : State) (w : WatchNo) (z : WatchRec) : Prop where
  same : u = { (s.watchAdmission w).1 with watches := u.watches, mem := u.mem, cause := u.cause }
  watch : u.watches[w] = z.asked (s.watchAdmission w).2
  others : ∀ v : WatchNo, v ≠ w → u.watches[v] = s.watches[v]
  memory : MemStep noticeBytes s.mem u.mem

theorem admission_mem (s : State) (o : Origin) (targets : List OutletIx) (rest : Nat) :
    (s.admission o targets rest).1.mem = s.mem ∧ (s.admission o targets rest).1.cause = s.cause ∧
      (s.admission o targets rest).1.now = s.now := by
  unfold State.admission
  split
  · unfold State.retrigger
    dsimp only
    split <;> exact ⟨rfl, rfl, rfl⟩
  iterate 5
    split
    · exact ⟨rfl, rfl, rfl⟩
  rw [startRecord_same]
  exact ⟨rfl, rfl, rfl⟩

theorem requestCycle_asked (s : State) (w : WatchNo) (f : WatchRec → WatchRec) :
    WatchAsked s ((s.modWatch w f).requestCycle w).1 w (f s.watches[w]) := by
  have watches : (s.watchAdmission w).1.watches = s.watches := admission_watches _ _ _ _
  have mem : (s.watchAdmission w).1.mem = s.mem := (admission_mem _ _ _ _).1
  rw [requestCycle_eq]
  generalize hr : (s.watchAdmission w).2 = r
  refine ⟨rfl, ?_, fun v hv => ?_, ?_⟩
  · rw [modWatch_at, watches, hr]
  · rw [modWatch_other _ _ hv, watches]
  · rw [State.modWatch, mem]
    exact .refl _ _

theorem WatchAsked.notice {s u : State} {w : WatchNo} {z : WatchRec} (h : WatchAsked s u w z) (kind : NoticeKind)
    (subject reason : Nat) (value : Word) : WatchAsked s (u.notice kind subject reason value) w z := by
  have filed := notice_same u kind subject reason value
  have watches := notice_watches u kind subject reason value
  refine ⟨?_, by rw [watches, h.watch], fun v hv => by rw [watches, h.others v hv],
    h.memory.trans (memStep_notice_noticeBytes _ _ _ _ _)⟩
  rw [filed, h.same]

theorem WatchAsked.noticeCycle {s u : State} {w : WatchNo} {z : WatchRec} (h : WatchAsked s u w z) (r : AdmitResult) :
    WatchAsked s (u.noticeCycle w r) w z := by
  unfold State.noticeCycle
  split
  · exact h.notice _ _ _ _
  · exact h.notice _ _ _ _
  · exact h

theorem notice_now (s : State) (kind : NoticeKind) (subject reason : Nat) (value : Word) :
    (s.notice kind subject reason value).now = s.now := by rw [notice_same]

theorem answer_cases (r : AdmitResult) : (∃ c, r = .admitted c ∨ r = .attached c) ∨ ∃ reason detail, r = .refused reason detail := by
  cases r with
  | admitted c => exact .inl ⟨c, .inl rfl⟩
  | attached c => exact .inl ⟨c, .inr rfl⟩
  | refused reason detail => exact .inr ⟨reason, detail, rfl⟩

/-- R160 to R162: what a watch as left by `f` becomes where it expires or asks again. -/
theorem expire_gaveUp {s : State} (wf : MemWf s.mem) (w : WatchNo) {f : WatchRec → WatchRec}
    (cycle : s.work.watches[w].action = .cycle) (limit : s.work.watches[w].cycleLimit ≤ (f s.watches[w]).consecutive) :
    WatchSettled s ((s.modWatch w f).expireWatch w) w { f s.watches[w] with state := .gaveUp, framesLeft := 0 } ∧
    (logUsed s.mem + 2 ≤ 256 →
      logEntry ((s.modWatch w f).expireWatch w).mem s.writeCount .watchExpired w.val 0 s.partTime
          (BitVec.ofNat 32 (f s.watches[w]).consecutive) ∧
      logEntry ((s.modWatch w f).expireWatch w).mem (s.writeCount + 1) .watchGaveUp w.val 0 s.partTime
          (BitVec.ofNat 32 (f s.watches[w]).consecutive)) := by
  have noted := (WatchSettled.modWatch s w f).notice .watchExpired w.val 0 (BitVec.ofNat 32 (f s.watches[w]).consecutive)
  rw [expireWatch_limit (s := s.modWatch w f) cycle (by rw [modWatch_at]; exact limit), modWatch_at, State.giveUp, noted.watch]
  refine ⟨(noted.then _).notice _ _ _ _, fun used => ?_⟩
  exact notice_second (s := s.modWatch w f) wf used _ _ (by omega) (by decide) (by omega) (by decide) _ _ rfl
    (notice_now (s.modWatch w f) _ _ _ _)

theorem expire_lapsed {s : State} (wf : MemWf s.mem) (w : WatchNo) {f : WatchRec → WatchRec}
    (note : s.work.watches[w].action = .note) :
    WatchSettled s ((s.modWatch w f).expireWatch w) w { f s.watches[w] with state := .lapsed, framesLeft := 0 } ∧
    (s.logFull = false → logEntry ((s.modWatch w f).expireWatch w).mem s.writeCount .watchExpired w.val 0 s.partTime
      (BitVec.ofNat 32 (f s.watches[w]).consecutive)) := by
  rw [expireWatch_note (s := s.modWatch w f) note, modWatch_at]
  exact ⟨((WatchSettled.modWatch s w f).then _).notice _ _ _ _, fun room =>
    notice_filed (v := (s.modWatch w f).modWatch w _) wf room rfl rfl _ (by omega) (by decide) _⟩

theorem expire_asked {s : State} (wf : MemWf s.mem) (w : WatchNo) {f : WatchRec → WatchRec}
    (cycle : s.work.watches[w].action = .cycle) (below : (f s.watches[w]).consecutive < s.work.watches[w].cycleLimit) :
    WatchAsked s ((s.modWatch w f).expireWatch w) w (f s.watches[w]) ∧
    (logUsed s.mem + 2 ≤ 256 →
      logEntry ((s.modWatch w f).expireWatch w).mem s.writeCount .watchExpired w.val (s.watchAdmission w).2.refusal s.partTime
          (BitVec.ofNat 32 (f s.watches[w]).consecutive) ∧
      ∀ c, ((s.watchAdmission w).2 = .admitted c ∨ (s.watchAdmission w).2 = .attached c) →
        logEntry ((s.modWatch w f).expireWatch w).mem (s.writeCount + 1) .watchCycle w.val
          (if (s.watchAdmission w).2 = .admitted c then 64 else 65) s.partTime (BitVec.ofNat 32 c.val)) := by
  have asked := requestCycle_asked s w f
  obtain ⟨mem, -, now⟩ := admission_mem s (.watch w) s.work.watches[w].members s.work.watches[w].restTime
  rw [expireWatch_asks (s := s.modWatch w f) cycle (by rw [modWatch_at]; exact below), modWatch_at, requestCycle_eq] at *
  dsimp only at asked ⊢
  have mem' : ((s.watchAdmission w).1.modWatch w fun x => (f x).asked (s.watchAdmission w).2).mem = s.mem := mem
  have now' : ((s.watchAdmission w).1.modWatch w fun x => (f x).asked (s.watchAdmission w).2).now = s.now := now
  generalize (s.watchAdmission w).1.modWatch w (fun x => (f x).asked (s.watchAdmission w).2) = v at *
  have count : v.writeCount = s.writeCount := by rw [State.writeCount, State.writeCount, mem']
  have time : v.partTime = s.partTime := by rw [State.partTime, State.partTime, now']
  have filed (c : RecNo) (hc : (s.watchAdmission w).2 = .admitted c ∨ (s.watchAdmission w).2 = .attached c)
      (used : logUsed s.mem + 2 ≤ 256) := notice_second (s := v) (mem' ▸ wf) (mem' ▸ used) .watchExpired .watchCycle
    (s1 := w.val) (r1 := (s.watchAdmission w).2.refusal) (s2 := w.val)
    (r2 := if (s.watchAdmission w).2 = .admitted c then 64 else 65) (by omega) (refusal_lt _) (by omega) (by split <;> decide)
    (BitVec.ofNat 32 (f s.watches[w]).consecutive) (BitVec.ofNat 32 c.val) rfl (notice_now v _ _ _ _)
  rw [count, time] at filed
  have expired (used : logUsed s.mem + 2 ≤ 256) := notice_filed (s := s) (v := v) wf (room_of_used (by omega)) mem' now'
    .watchExpired (subject := w.val) (by omega) (refusal_lt (s.watchAdmission w).2) (BitVec.ofNat 32 (f s.watches[w]).consecutive)
  refine ⟨(asked.notice _ _ _ _).noticeCycle _, fun used => ⟨?_, fun c hc => ?_⟩⟩
  · rcases answer_cases (s.watchAdmission w).2 with ⟨c, hc⟩ | refused
    · rw [(noticeCycle_eq _ w _).1 c hc]
      exact (filed c hc used).1
    · rw [(noticeCycle_eq _ w _).2 refused]
      exact expired used
  · rw [(noticeCycle_eq _ w _).1 c hc]
    exact (filed c hc used).2

/-- R162: what a watch in EXPIRED_WAIT, as left by `f`, becomes without evidence. -/
theorem retry_lapsed {s : State} (w : WatchNo) {f : WatchRec → WatchRec} (note : s.work.watches[w].action = .note) :
    WatchSettled s ((s.modWatch w f).retryWatch w) w { f s.watches[w] with state := .lapsed } ∧
      ((s.modWatch w f).retryWatch w).mem = s.mem := by
  rw [retryWatch_note (s := s.modWatch w f) note]
  exact ⟨(WatchSettled.modWatch s w f).then _, rfl⟩

theorem retry_gaveUp {s : State} (wf : MemWf s.mem) (w : WatchNo) {f : WatchRec → WatchRec}
    (cycle : s.work.watches[w].action = .cycle) (limit : s.work.watches[w].cycleLimit ≤ (f s.watches[w]).consecutive) :
    WatchSettled s ((s.modWatch w f).retryWatch w) w { f s.watches[w] with state := .gaveUp, framesLeft := 0 } ∧
    (s.logFull = false → logEntry ((s.modWatch w f).retryWatch w).mem s.writeCount .watchGaveUp w.val 0 s.partTime
      (BitVec.ofNat 32 (f s.watches[w]).consecutive)) := by
  rw [retryWatch_limit (s := s.modWatch w f) cycle (by rw [modWatch_at]; exact limit), giveUp_eq]
  exact ⟨(WatchSettled.modWatch s w _).notice _ _ _ _, fun room =>
    notice_filed (v := s.modWatch w _) wf room rfl rfl _ (by omega) (by decide) _⟩

theorem retry_asked {s : State} (wf : MemWf s.mem) (w : WatchNo) {f : WatchRec → WatchRec}
    (cycle : s.work.watches[w].action = .cycle) (below : (f s.watches[w]).consecutive < s.work.watches[w].cycleLimit) :
    WatchAsked s ((s.modWatch w f).retryWatch w) w (f s.watches[w]) ∧
    (s.logFull = false → ∀ c, ((s.watchAdmission w).2 = .admitted c ∨ (s.watchAdmission w).2 = .attached c) →
      logEntry ((s.modWatch w f).retryWatch w).mem s.writeCount .watchCycle w.val
        (if (s.watchAdmission w).2 = .admitted c then 64 else 65) s.partTime (BitVec.ofNat 32 c.val)) := by
  have asked := requestCycle_asked s w f
  obtain ⟨mem, -, now⟩ := admission_mem s (.watch w) s.work.watches[w].members s.work.watches[w].restTime
  rw [retryWatch_asks (s := s.modWatch w f) cycle (by rw [modWatch_at]; exact below), requestCycle_eq] at *
  dsimp only at asked ⊢
  refine ⟨asked.noticeCycle _, fun room c hc => ?_⟩
  rw [(noticeCycle_eq _ w _).1 c hc]
  exact notice_filed (v := (s.watchAdmission w).1.modWatch w _) wf room mem now _ (by omega) (by split <;> decide) _


theorem countingFrame_anyOn {seen : Vector OutletState 48} {ks : List OutletIx} : countingFrame seen ks = true ↔
    anyOn seen ks = true ∧ ∀ k ∈ ks, seen[k] = .on ∨ seen[k] = .off ∨ seen[k] = .unknown := by
  rw [countingFrame_iff, anyOn_iff]

/-- R160: a quiet frame in WATCHING. -/
def WatchRec.countedDown (x : WatchRec) (cfg : WatchSettings) (sum : Nat) : WatchRec :=
  { x.observed cfg sum with framesLeft := x.framesLeft - 1 }

/-- A quiet last frame in WATCHING. -/
theorem examine_expires {s : State} {seen : Vector OutletState 48} {res : Vector OutletResult 48} {seq : Word} {w : WatchNo}
    (watching : s.watches[w].state = .watching) (counts : countingFrame seen s.work.watches[w].members = true)
    (quiet : ¬(renewalAt s.mem w ≠ s.watches[w].lastRenewal ∨
      moved s.watches[w] (memberSum res s.work.watches[w].members) s.work.watches[w].band))
    (last : s.watches[w].framesLeft ≤ 1) : s.examineWatch seen res seq w =
      (s.modWatch w fun x =>
        x.countedDown s.work.watches[w] (memberSum res s.work.watches[w].members)).expireWatch w := by
  obtain ⟨same, still⟩ := not_or.mp quiet
  rw [examine_watching watching counts, watchingFrame_quiet (evidence_none (not_ne_iff.mp same) still seq), if_pos last]
  rfl

/-- A frame without evidence in LAPSED, EXPIRED_WAIT and GAVE_UP. -/
theorem examine_waits {s : State} {seen : Vector OutletState 48} {res : Vector OutletResult 48} {seq : Word} {w : WatchNo}
    (state : s.watches[w].state = .lapsed ∨ s.watches[w].state = .expiredWait ∨ s.watches[w].state = .gaveUp)
    (quiet : ¬anyOn seen s.work.watches[w].members = true ∨ ¬(renewalAt s.mem w ≠ s.watches[w].lastRenewal ∨
      moved s.watches[w] (memberSum res s.work.watches[w].members) s.work.watches[w].band)) : s.examineWatch seen res seq w =
      if s.watches[w].state = .expiredWait then
        (s.modWatch w fun x => x.seenBy s.work.watches[w] seen (memberSum res s.work.watches[w].members)).retryWatch w
      else s.modWatch w fun x => x.seenBy s.work.watches[w] seen (memberSum res s.work.watches[w].members) := by
  refine (examine_waiting state).trans (waitingFrame_quiet fun on => ?_)
  obtain ⟨same, still⟩ := not_or.mp (quiet.resolve_left (not_not_intro on))
  exact ⟨not_ne_iff.mp same, still⟩

theorem seenBy_waiting {x : WatchRec} (h : x.state ≠ .watching) (cfg : WatchSettings) (seen : Vector OutletState 48) (sum : Nat) :
    x.seenBy cfg seen sum = { x with
      reference := if x.state = .watching ∨ anyOn seen cfg.members = true then referenceAfter x sum cfg.band
        else x.reference } := by
  cases on : anyOn seen cfg.members with
  | false =>
    rw [WatchRec.seenBy, on, if_neg Bool.false_ne_true, if_neg (not_or.mpr ⟨h, Bool.false_ne_true⟩)]
  | true =>
    rw [WatchRec.seenBy, on, if_pos rfl, if_pos (.inr rfl)]
    rfl

/-- R161: evidence brings a waiting watch back to WATCHING. -/
theorem resumed {s : State} (wf : MemWf s.mem) {seen : Vector OutletState 48} {w : WatchNo} {sum : Nat} {seq : Word}
    {y : WatchRec} {ev : Evidence} (on : anyOn seen s.work.watches[w].members = true)
    (h : s.watches[w].evidence (renewalAt s.mem w) sum s.work.watches[w].band seq = (y, some ev)) :
    WatchSettled s (s.waitingFrame seen w sum seq) w (y.reload s.work.watches[w]) ∧
    (s.logFull = false → logEntry (s.waitingFrame seen w sum seq).mem s.writeCount .watchResumed w.val ev.code s.partTime
      (BitVec.ofNat 32 s.watches[w].state.code)) := by
  have code : ev.code < 256 := by cases ev <;> decide
  rw [waitingFrame_evidence on h]
  exact ⟨(WatchSettled.modWatch s w _).notice _ _ _ _, fun room =>
    notice_filed (s := s) (v := s.modWatch w fun _ => y.reload s.work.watches[w]) wf room rfl rfl _ (by omega) code _⟩

/-- Settles O54: expiry by the action and the count, the wait, and the resumption. -/
theorem watchExpiryAndResumption : Obligations.WatchExpiryAndResumption := by
  unfold Obligations.WatchExpiryAndResumption
  intro s seen res seq w wf
  dsimp only
  have renewal : readHalf s.mem (0x0800 + 32 * w.val + 24) = renewalAt s.mem w := rfl
  have sum : (s.work.watches[w].members.map fun k => res[k].irms).sum = memberSum res s.work.watches[w].members := rfl
  have asks : s.admission (.watch w) s.work.watches[w].members s.work.watches[w].restTime = s.watchAdmission w := rfl
  simp only [← anyOn_iff, ← countingFrame_anyOn, renewal, sum, asks]
  have settled {u : State} {z z' : WatchRec} (h : WatchSettled s u w z) (eq : z = z') :
      u = { s with watches := u.watches, mem := u.mem, cause := u.cause } ∧ u.watches[w] = z' ∧
        (∀ v : WatchNo, v ≠ w → u.watches[v] = s.watches[v]) ∧ sameBytesOutside noticeBytes s.mem u.mem :=
    ⟨h.same, h.watch.trans eq, h.others, h.memory.bytes⟩
  have room (used : logUsed s.mem + 2 ≤ 256) : s.logFull = false := room_of_used (by omega)
  have atFirst {m : Mem} {kind : NoticeKind} {reason : Nat} {value : Word}
      (h : logEntry m s.writeCount kind w.val reason s.partTime value) :
      logEntry m (s.writeCount + 0#32) kind w.val reason s.partTime value := by
    rwa [BitVec.add_zero]
  have answers {z z' : WatchRec} (eq : z = z') : (∀ c, ((s.watchAdmission w).2 = .admitted c ∨ (s.watchAdmission w).2 = .attached c) →
      z.asked (s.watchAdmission w).2 =
        { z' with state := .cycling, framesLeft := 0, record := some c, consecutive := z'.consecutive + 1 }) ∧
      ((∃ reason detail, (s.watchAdmission w).2 = .refused reason detail) →
        z.asked (s.watchAdmission w).2 = { z' with state := .expiredWait, framesLeft := 0 }) := by
    refine ⟨fun c hc => ?_, fun ⟨reason, detail, h⟩ => by rw [h, eq, WatchRec.asked]⟩
    rcases hc with h | h <;> rw [h, eq, WatchRec.asked]
  have unseen (state : s.watches[w].state = .expiredWait) := seenBy_waiting (x := s.watches[w])
    (by rw [state]; exact WatchState.noConfusion) s.work.watches[w] seen (memberSum res s.work.watches[w].members)
  refine ⟨fun ⟨watching, counts, quiet, last⟩ cycle => ⟨fun limit => ?_, fun below => ?_⟩,
    fun ⟨watching, counts, quiet, last⟩ note => ?_, fun ⟨state, quiet⟩ => ⟨fun note => ?_, fun cycle limit => ?_, fun cycle below => ?_⟩,
    fun state quiet => ?_, fun state on evident => ?_⟩
  · rw [examine_expires watching counts quiet last, if_pos (.inl watching)]
    obtain ⟨left, filed⟩ := expire_gaveUp wf w (f := fun x => x.countedDown _ _) cycle limit
    exact ⟨settled left rfl, fun used => atFirst (filed used).1, fun used => (filed used).2⟩
  · rw [examine_expires watching counts quiet last, if_pos (.inl watching)]
    obtain ⟨asked, filed⟩ := expire_asked wf w (f := fun x => x.countedDown _ _) cycle below
    obtain ⟨cycling, refused⟩ := answers (z' := s.watches[w].countedDown _ _) rfl
    refine ⟨⟨asked.same, asked.others, asked.memory.bytes, fun c hc => ⟨asked.watch.trans (cycling c hc), fun used => ?_⟩,
      fun h => asked.watch.trans (refused h)⟩, fun used => atFirst ?_⟩
    · exact (filed used).2 c hc
    · convert (filed used).1 using 1
      · cases (s.watchAdmission w).2 <;> rfl
      · rfl
  · rw [examine_expires watching counts quiet last, if_pos (.inl watching)]
    obtain ⟨left, filed⟩ := expire_lapsed wf w (f := fun x => x.countedDown _ _) note
    exact ⟨settled left rfl, fun used => atFirst (filed (room used))⟩
  · rw [examine_waits (.inr (.inl state)) quiet, if_pos state]
    obtain ⟨left, mem⟩ := retry_lapsed w (f := fun x => x.seenBy _ seen _) note
    exact ⟨settled left (by rw [unseen state]), mem⟩
  · rw [examine_waits (.inr (.inl state)) quiet, if_pos state]
    obtain ⟨left, filed⟩ := retry_gaveUp wf w (f := fun x => x.seenBy _ seen _) cycle
      (by rw [unseen state]; exact limit)
    rw [unseen state] at left filed
    exact ⟨settled left rfl, fun used => atFirst (filed (room used))⟩
  · rw [examine_waits (.inr (.inl state)) quiet, if_pos state]
    obtain ⟨asked, filed⟩ := retry_asked wf w (f := fun x => x.seenBy _ seen _) cycle
      (by rw [unseen state]; exact below)
    obtain ⟨cycling, refused⟩ := answers (unseen state)
    exact ⟨asked.same, asked.others, asked.memory.bytes, fun c hc => ⟨asked.watch.trans (cycling c hc), fun used =>
      atFirst (filed (room used) c hc)⟩, fun h => asked.watch.trans (refused h)⟩
  · have waiting : s.watches[w].state ≠ .watching ∧ s.watches[w].state ≠ .expiredWait := by
      rcases state with h | h <;> rw [h] <;> exact ⟨WatchState.noConfusion, WatchState.noConfusion⟩
    rw [examine_waits (state.imp_right .inr) quiet, if_neg waiting.2]
    exact ⟨settled (.modWatch s w _) (seenBy_waiting waiting.1 _ seen _), rfl⟩
  · have waiting : s.watches[w].state ≠ .watching := by
      rcases state with h | h | h <;> rw [h] <;> exact WatchState.noConfusion
    rw [examine_waiting state, if_pos (.inr on)]
    by_cases new : renewalAt s.mem w ≠ s.watches[w].lastRenewal
    · rw [if_pos new]
      obtain ⟨left, filed⟩ := resumed wf on (evidence_renewal (memberSum res _) s.work.watches[w].band new seq)
      exact ⟨settled left rfl, fun used => atFirst (filed (room used))⟩
    · have same := not_ne_iff.mp new
      rw [if_neg new]
      obtain ⟨left, filed⟩ := resumed wf on (evidence_activity same (evident.resolve_left new) seq)
      refine ⟨settled left ?_, fun used => atFirst (filed (room used))⟩
      rw [same]
      rfl

end Sys2Proof.Machine
end

section
/-! PROOF. What a scan of the close queue leaves (R108 to R112), and what the end of an event leaves of its work. -/
namespace Sys2Proof.Machine

open Sys2Proof.Safety

/-! ### A scan -/

/-- What the tests of the entries `es` leave: each grant takes a free driver and concerns the outlet of its entry. -/
structure Scanned (es : List QueueEntry) (s u : State) : Prop where
  same : u = { s with
    outlets := u.outlets, moves := u.moves, drivers := u.drivers, queue := u.queue, loads := u.loads
    stripGrant := u.stripGrant, scanDue := u.scanDue }
  queue : u.queue.Sublist s.queue
  kept : ∀ k : OutletIx, (∀ e ∈ es, e.outlet ≠ k) → u.outlets[k] = s.outlets[k] ∧ u.moves[k] = s.moves[k]
  drivers : ∀ d : DriverNo, s.drivers[d] ≠ .free → u.drivers[d] = s.drivers[d]
  measured : ∀ b : Branch, u.loads[b].measured = s.loads[b].measured
  loads : ∀ b : Branch, ∀ r ∈ u.loads[b].reservations, r ∈ s.loads[b].reservations ∨ ∃ e ∈ es, e.outlet = r.1
  outlet : ∀ k : OutletIx, u.outlets[k] = { s.outlets[k] with
    state := u.outlets[k].state, lastChange := u.outlets[k].lastChange, retry := u.outlets[k].retry
    unverified := u.outlets[k].unverified }
  state : ∀ k : OutletIx, u.outlets[k].state = s.outlets[k].state ∨ u.outlets[k].state = .closing
  entries : ∀ x ∈ s.queue, x ∈ u.queue ∨ ∃ e ∈ es, e.arrival = x.arrival ∧ u.outlets[e.outlet].state = .closing

theorem Scanned.refl (es : List QueueEntry) (s : State) : Scanned es s s :=
  ⟨rfl, .refl _, fun _ _ => ⟨rfl, rfl⟩, fun _ _ => rfl, fun _ => rfl, fun _ _ h => .inl h, fun _ => rfl, fun _ => .inl rfl,
    fun _ h => .inl h⟩

theorem Scanned.trans {es : List QueueEntry} {s u v : State} (h : Scanned es s u) (g : Scanned es u v) : Scanned es s v where
  same := by rw [g.same, h.same]
  queue := g.queue.trans h.queue
  kept k hk := ⟨(g.kept k hk).1.trans (h.kept k hk).1, (g.kept k hk).2.trans (h.kept k hk).2⟩
  drivers d hd := (g.drivers d ((h.drivers d hd).symm ▸ hd)).trans (h.drivers d hd)
  measured b := (g.measured b).trans (h.measured b)
  loads b r hr := (g.loads b r hr).elim (h.loads b r) .inr
  outlet k := by rw [g.outlet k, h.outlet k]
  state k := (g.state k).elim (fun same => same ▸ h.state k) .inr
  entries x hx := by
    rcases h.entries x hx with stays | ⟨e, he, arrival, closing⟩
    · exact g.entries x stays
    · refine .inr ⟨e, he, arrival, ?_⟩
      exact (g.state e.outlet).elim (fun same => same.trans closing) id

theorem granted_outlet (s : State) (e : QueueEntry) : (s.granted e).outlets[e.outlet] =
    { s.outlets[e.outlet] with state := .closing, lastChange := s.partTime, retry := false } := upd_same _ _ _

theorem grantable_driver {s : State} {e : QueueEntry} (h : s.grantable e = true) :
    (∃ d, s.freeDriver = some d) ∧ s.waitList = [] := by
  simp only [State.grantable, State.driverAvailable, Bool.and_eq_true, List.isEmpty_iff] at h
  obtain ⟨⟨⟨⟨⟨free, empty⟩, -⟩, -⟩, -⟩, -⟩ := h
  exact ⟨Option.isSome_iff_exists.mp free, empty⟩

/-- A grant is an assignment of the lowest free driver. -/
theorem grant_assigns {s : State} {d : DriverNo} (free : s.freeDriver = some d) (e : QueueEntry) :
    s.grant e = (s.granted e).assign d e.outlet .toClosed := by
  rw [grant_eq]
  exact needDriver_assigns (s := s.granted e) free e.outlet .toClosed false

theorem grant_scanned {es : List QueueEntry} {s : State} {e : QueueEntry} (he : e ∈ es) (can : s.grantable e = true) :
    Scanned es s (s.grant e) := by
  obtain ⟨⟨d, free⟩, -⟩ := grantable_driver can
  have idle := freeDriver_some free
  have outlet : ((s.granted e).assign d e.outlet .toClosed).outlets[e.outlet] = { s.outlets[e.outlet] with
      state := .closing, lastChange := s.partTime, retry := false, unverified := none } := by
    rw [assign_outlet, granted_outlet]
  have others (k : OutletIx) (hk : k ≠ e.outlet) :
      ((s.granted e).assign d e.outlet .toClosed).outlets[k] = s.outlets[k] := by
    rw [assign_outlet_other _ _ _ hk]
    exact upd_other _ _ hk
  rw [grant_assigns free]
  refine {
    same := by rw [assign_same]; rfl
    queue := by rw [assign_same]; exact List.filter_sublist
    kept := fun k hk => ⟨others k (hk e he).symm, (assign_move_other (s.granted e) d .toClosed (hk e he).symm)⟩
    drivers := fun x hx => assign_driver_other (s.granted e) e.outlet .toClosed fun same => hx (same ▸ idle)
    measured := fun b => by
      rw [assign_same, State.granted, upd_at]
      split <;> rfl
    loads := fun b r hr => ?_
    outlet := fun k => ?_
    state := fun k => ?_
    entries := fun x hx => ?_ }
  · rw [assign_same, State.granted, upd_at] at hr
    split at hr
    case isTrue =>
      rcases List.mem_append.mp hr with old | new
      · exact .inl old
      · exact .inr ⟨e, he, by rw [List.mem_singleton.mp new]⟩
    case isFalse => exact .inl hr
  · by_cases hk : k = e.outlet
    · rw [hk, outlet]
    · rw [others k hk]
  · by_cases hk : k = e.outlet
    · rw [hk, outlet]
      exact .inr rfl
    · rw [others k hk]
      exact .inl rfl
  · by_cases same : x.arrival = e.arrival
    · exact .inr ⟨e, he, same.symm, by rw [outlet]⟩
    · rw [assign_same]
      exact .inl (List.mem_filter.mpr ⟨hx, bne_iff_ne.mpr same⟩)

theorem scanEntries_scanned {es all : List QueueEntry} (h : ∀ e ∈ es, e ∈ all) (s : State) : Scanned all s (scanEntries es s) := by
  induction es generalizing s with
  | nil => exact .refl _ _
  | cons e es ih =>
    rw [scanEntries]
    have rest := ih fun x hx => h x (List.mem_cons_of_mem _ hx)
    split
    case isTrue can => exact (grant_scanned (h e List.mem_cons_self) can).trans (rest _)
    case isFalse => exact rest s

theorem scan_scanned (s : State) : Scanned s.queue s s.scan :=
  (scanEntries_scanned (fun _ => id) s).trans { Scanned.refl s.queue (scanEntries s.queue s) with same := rfl }

theorem scanIfDue_scanned (s : State) : Scanned s.queue s s.scanIfDue := by
  unfold State.scanIfDue
  split
  · exact scan_scanned s
  · exact .refl _ _

/-- R108: no grant without a free driver, and none beside a waiting movement. -/
theorem scanEntries_idle {s : State} (h : s.waitList ≠ [] ∨ ∀ d : DriverNo, s.drivers[d] ≠ .free) (es : List QueueEntry) :
    scanEntries es s = s := by
  induction es with
  | nil => rfl
  | cons e es ih =>
    rw [scanEntries, if_neg, ih]
    intro can
    obtain ⟨⟨d, free⟩, empty⟩ := grantable_driver can
    exact h.elim (fun waits => waits empty) fun busy => busy d (freeDriver_some free)

theorem scanIfDue_idle {s : State} (h : s.queue = [] ∨ s.waitList ≠ [] ∨ ∀ d : DriverNo, s.drivers[d] ≠ .free) :
    s.scanIfDue = { s with scanDue := false } := by
  have idle : scanEntries s.queue s = s := by
    rcases h with empty | busy
    · rw [empty]
      rfl
    · exact scanEntries_idle busy _
  cases due : s.scanDue with
  | true => rw [State.scanIfDue, due, if_pos rfl, State.scan, idle]
  | false =>
    rw [scanIfDue_of_not_due due]
    cases s
    congr

/-- An outlet that does not wait for its close is left alone by a scan. -/
theorem scanIfDue_outlet {s : State} {k : OutletIx} (un : Unlisted s k) :
    s.scanIfDue.outlets[k] = s.outlets[k] ∧ s.scanIfDue.moves[k] = s.moves[k] :=
  (scanIfDue_scanned s).kept k un

theorem scanIfDue_same (s : State) : s.scanIfDue = { s with
    outlets := s.scanIfDue.outlets, moves := s.scanIfDue.moves, drivers := s.scanIfDue.drivers, queue := s.scanIfDue.queue
    loads := s.scanIfDue.loads, stripGrant := s.scanIfDue.stripGrant, scanDue := s.scanIfDue.scanDue } :=
  (scanIfDue_scanned s).same

/-! ### The end of an event -/

/-- The scan and the records of an event. -/
def State.eventEnd (v old : State) : State := publishRecords old v.scanIfDue

theorem eventEnd_same (v old : State) : v.eventEnd old = { v.scanIfDue with mem := (v.eventEnd old).mem } := rfl

/-- What a scan and the records leave. -/
theorem eventEnd_fields (v old : State) : v.eventEnd old = { v with
    outlets := v.scanIfDue.outlets, moves := v.scanIfDue.moves, drivers := v.scanIfDue.drivers, queue := v.scanIfDue.queue
    loads := v.scanIfDue.loads, stripGrant := v.scanIfDue.stripGrant, scanDue := v.scanIfDue.scanDue
    mem := (v.eventEnd old).mem } := by
  rw [eventEnd_same, scanIfDue_same]

theorem eventEnd_memory (v old : State) : MemStep guardedBytes v.mem (v.eventEnd old).mem := by
  have same := memStep_publishRecords old v.scanIfDue
  rwa [show v.scanIfDue.mem = v.mem by rw [scanIfDue_same]] at same

theorem event_end {s : State} (h : s.resetting = none) (t : Nat) (work : State → State) :
    s.event t work = (work (s.advance t)).eventEnd (s.advance t) := event_running h t work

/-- The records leave the notice log as the work of the event has left it. -/
theorem eventEnd_logEntry {v old : State} {q : Word} {kind : NoticeKind} {subject reason : Nat} {stamp value : Word}
    (h : logEntry v.mem q kind subject reason stamp value) : logEntry (v.eventEnd old).mem q kind subject reason stamp value :=
  logEntry_congr (fun a ha => (eventEnd_memory v old).bytes a (within_eq_false.mpr (by have := within_iff.mp ha; omega))) h

theorem eventEnd_log (v old : State) : (v.eventEnd old).logFull = v.logFull ∧ (v.eventEnd old).writeCount = v.writeCount :=
  have word {a : Nat} (ha : a + 4 ≤ 0x0B00) : readWord (v.eventEnd old).mem a = readWord v.mem a :=
    (eventEnd_memory v old).readWord a fun i hi => within_eq_false.mpr (.inl (by omega))
  logFull_congr (word (by decide)) (word (by decide))

theorem eventEnd_measuring {s v old : State} (h : BlockStep s v) : sameMeasuring s (v.eventEnd old) := by
  rw [eventEnd_fields]
  exact ⟨h.sense, h.phases, h.tb, h.meter, h.meterV, h.pub, h.work, h.choices⟩

theorem eventEnd_inputs {s v old : State} (h : BlockStep s v) : sameInputs s (v.eventEnd old) := by
  rw [eventEnd_fields]
  exact ⟨⟨h.pending, h.resetting, h.mask, h.sdo⟩, h.sense, h.fifo⟩

/-- An outlet that does not wait for its close, at the end of an event. -/
theorem eventEnd_outlet {v : State} {k : OutletIx} (un : Unlisted v k) (old : State) :
    (v.eventEnd old).outlets[k] = v.outlets[k] ∧ (v.eventEnd old).moves[k] = v.moves[k] := scanIfDue_outlet un

theorem eventEnd_idle {v : State} (h : v.queue = [] ∨ v.waitList ≠ [] ∨ ∀ d : DriverNo, v.drivers[d] ≠ .free) (old : State) :
    v.eventEnd old = { v with scanDue := false, mem := (v.eventEnd old).mem } := by
  rw [eventEnd_same, scanIfDue_idle h]

theorem eventEnd_plain {v : State} (h : v.scanDue = false) (old : State) :
    v.eventEnd old = { v with mem := (v.eventEnd old).mem } := by
  rw [eventEnd_same, scanIfDue_of_not_due h]

/-- An event whose work leaves the state alone. -/
theorem eventEnd_id {s : State} (h : s.scanDue = false) : s.eventEnd s = s := by
  rw [State.eventEnd, scanIfDue_of_not_due h]
  exact publishRecords_of_same s s rfl rfl rfl rfl rfl rfl

end Sys2Proof.Machine
end

section
/-! PROOF. The first failure of a movement and the end of its pulse (O24, O22). -/
namespace Sys2Proof.Machine

open Sys2Proof.Safety

/-! ### Assignments -/

theorem freeDriver_lowest {s : State} {d : DriverNo} (free : s.drivers[d] = .free)
    (lowest : ∀ x : DriverNo, x < d → s.drivers[x] ≠ .free) : s.freeDriver = some d :=
  find?_indices (beq_iff_eq.mpr free) fun x hx => beq_eq_false_iff_ne.mpr (lowest x hx)

theorem freeDriver_none_iff {s : State} : s.freeDriver = none ↔ ∀ d : DriverNo, s.drivers[d] ≠ .free :=
  ⟨freeDriver_none, fun busy => List.find?_eq_none.mpr fun d _ free => busy d (beq_iff_eq.mp free)⟩

theorem travelEstimate_congr {o x : Outlet} (close : x.closeEst = o.closeEst) (opn : x.openEst = o.openEst) (dir : Dir) :
    travelEstimate x dir = travelEstimate o dir := by
  cases dir with
  | toClosed => exact close
  | toOpen => exact opn

/-- What an assignment records depends on the phases, the settings, the senses, the clock and the outlet's estimate. -/
theorem assigned_transfer {s s' u u' : State} {d : DriverNo} {k : OutletIx} {dir : Dir} (h : Assigned s u d k dir)
    (phases : s'.phases = s.phases) (work : s'.work = s.work) (sense : s'.sense = s.sense) (now : s'.now = s.now)
    (est : travelEstimate s'.outlets[k] dir = travelEstimate s.outlets[k] dir)
    (driver : u'.drivers[d] = u.drivers[d]) (move : u'.moves[k] = u.moves[k])
    (outlet : u'.outlets[k].unverified = u.outlets[k].unverified) : Assigned s' u' d k dir := by
  obtain ⟨timed, untimed, unverified⟩ := h
  refine ⟨fun t0 pol half live last hh => ?_, fun none => ?_, outlet.trans unverified⟩
  · simp only [phases, work] at live last hh
    simp only [jobFor, work, est, now, driver, move]
    exact timed t0 pol half live last hh
  · simp only [phases, work] at none
    simp only [pulseNow, jobFor, work, est, now, sense, driver, move]
    exact untimed none

theorem assigned_congr {s s' u u' : State} {d : DriverNo} {k : OutletIx} {dir : Dir} (h : Assigned s u d k dir)
    (phases : s'.phases = s.phases) (work : s'.work = s.work) (sense : s'.sense = s.sense) (now : s'.now = s.now)
    (close : s'.outlets[k].closeEst = s.outlets[k].closeEst) (opn : s'.outlets[k].openEst = s.outlets[k].openEst)
    (driver : u'.drivers[d] = u.drivers[d]) (move : u'.moves[k] = u.moves[k])
    (outlet : u'.outlets[k].unverified = u.outlets[k].unverified) : Assigned s' u' d k dir :=
  assigned_transfer h phases work sense now (travelEstimate_congr close opn dir) driver move outlet

theorem needDriver_moveDir (s : State) (k : OutletIx) (dir : Dir) (retry : Bool) :
    moveDir (s.needDriver k dir retry).moves[k] = some dir := by
  cases h : s.freeDriver with
  | some d =>
    obtain ⟨x, m, same, -, -, hm⟩ := assign_begins s d k dir
    rw [needDriver_assigns h, same, upd_same]
    exact hm
  | none =>
    rw [needDriver_waits h, upd_same]
    rfl

/-! ### VERIFY_DEADLINE (R87 to R89) -/

theorem exec_verifyDeadline_end {s : State} (h : s.resetting = none) (t : Nat) (k : OutletIx) : exec (.verifyDeadline t k) s =
    .next (((s.advance t).deadlineReached k).eventEnd (s.advance t)) := congrArg Host.Outcome.next (event_end h t _)

theorem deadlineReached_verifying {s : State} {k : OutletIx} {q : Pulse} (h : s.moves[k] = .verifying q) :
    s.deadlineReached k = if q.deadline ≤ s.now then s.verifyFailed k q else s := by
  simp only [State.deadlineReached, h]

/-- R88: the outlet marked for its second pulse, and the notice. -/
def State.retryNoticed (s : State) (k : OutletIx) (q : Pulse) : State :=
  (s.modOutlet k fun o => { o with retry := true }).notice .relayRetry (numberOf k) q.dir.failure.code
    (BitVec.ofNat 32 q.estimate)

theorem retryNoticed_same (s : State) (k : OutletIx) (q : Pulse) : s.retryNoticed k q = { s with
    outlets := upd s.outlets k fun o => { o with retry := true }
    mem := (s.retryNoticed k q).mem, cause := (s.retryNoticed k q).cause } := notice_same _ _ _ _ _

theorem verifyFailed_first {s : State} {k : OutletIx} {q : Pulse} (usable : s.usable q.phase = true)
    (first : s.outlets[k].retry = false) : s.verifyFailed k q = (s.retryNoticed k q).needDriver k q.dir true := by
  simp only [State.verifyFailed, usable, first, Bool.not_true, Bool.false_eq_true, if_false]
  rfl

theorem failure_code (dir : Dir) : dir.failure.code = if dir = .toClosed then 48 else 49 := by cases dir <;> rfl

/-- Settles O24: the notice, then the lowest free driver or the tail of the wait list. -/
theorem firstFailureRetries : Obligations.FirstFailureRetries := by
  unfold Obligations.FirstFailureRetries
  intro s t k q running due wf move usable first
  rw [exec_verifyDeadline_end running, deadlineReached_verifying (s := s.advance t) move]
  refine ⟨fun reached => ⟨_, rfl, ?_⟩, fun early => ?_⟩
  case refine_2 =>
    rw [if_neg (show ¬q.deadline ≤ (s.advance t).now from not_le.mpr early), eventEnd_id (s := s.advance t) due]
    rfl
  rw [if_pos (show q.deadline ≤ (s.advance t).now from reached), verifyFailed_first (s := s.advance t) usable first]
  have noticed := retryNoticed_same (s.advance t) k q
  have memory : MemStep noticeBytes s.mem ((s.advance t).retryNoticed k q).mem :=
    memStep_notice_noticeBytes ((s.advance t).modOutlet k _) _ _ _ _
  have filed (room : s.logFull = false) : logEntry ((s.advance t).retryNoticed k q).mem s.writeCount .relayRetry (k.val + 1)
      (if q.dir = .toClosed then 48 else 49) (BitVec.ofNat 32 (max s.now t / 1000)) (BitVec.ofNat 32 q.estimate) ∧
      ((s.advance t).retryNoticed k q).writeCount = s.writeCount + 1 := by
    have number : numberOf k < 65536 := (numberOf_outlet_lt k).trans (by decide)
    have code : q.dir.failure.code < 256 := by cases q.dir <;> decide
    have entry := notice_noticed (s := (s.advance t).modOutlet k fun o => { o with retry := true }) wf room .relayRetry
      number code (BitVec.ofNat 32 q.estimate)
    exact ⟨failure_code q.dir ▸ entry.entry, entry.count⟩
  have block : BlockStep (s.advance t) (((s.advance t).retryNoticed k q).needDriver k q.dir true) :=
    .after (needDriver_block _ _ _ _) (.after (notice_block _ _ _ _ _) (modOutlet_block _ _ _ fun _ h => h))
  generalize (s.advance t).retryNoticed k q = n at *
  have kept := needDriver_same n k q.dir true
  have only := needDriver_only n k q.dir true
  have dir := needDriver_moveDir n k q.dir true
  obtain ⟨mark, after⟩ := needDriver_outlet n k q.dir true
  have outlet : n.outlets[k] = { s.outlets[k] with retry := true } := by
    rw [noticed]
    exact upd_same _ _ _
  have others (j : OutletIx) (hj : j ≠ k) : n.outlets[j] = s.outlets[j] := by
    rw [noticed]
    exact upd_other _ _ hj
  rw [outlet] at after
  have records : n.drivers = s.drivers ∧ n.moves = s.moves ∧ n.waitList = s.waitList := by
    rw [noticed]
    exact ⟨rfl, rfl, rfl⟩
  have plain := eventEnd_plain (v := n.needDriver k q.dir true) (by rw [kept, noticed]; exact due) (s.advance t)
  have written := eventEnd_memory (n.needDriver k q.dir true) (s.advance t)
  have log := eventEnd_log (n.needDriver k q.dir true) (s.advance t)
  have mem : (n.needDriver k q.dir true).mem = n.mem := by rw [kept]
  have count : (n.needDriver k q.dir true).writeCount = n.writeCount := by rw [State.writeCount, mem, State.writeCount]
  refine ⟨?_, ?_, ?_, ?_, ?_, fun room => ⟨?_, ?_⟩, fun busy => ?_, fun d free lowest => ?_, fun j hj => ?_, ?_, ?_, ?_, ?_,
    eventEnd_measuring (s := s.advance t) block, eventEnd_inputs (s := s.advance t) block, ?_, ?_, ?_, ?_⟩
  · rw [plain, after]
  · rw [plain, after]
  · rw [plain, after]
  · rw [plain, after]
  · rw [plain, dir]
  · exact eventEnd_logEntry (mem.symm ▸ (filed room).1)
  · rw [log.2, count, (filed room).2]
  · have waits := needDriver_waits (s := n) (freeDriver_none_iff.mpr (records.1.symm ▸ busy)) k q.dir true
    rw [plain, waits]
    refine ⟨upd_same _ _ _, records.1, outlet, ?_⟩
    rw [records.2.2]
  · have assigns := needDriver_assigns (freeDriver_lowest (s := n) (by rw [records.1]; exact free)
      (by rw [records.1]; exact lowest)) k q.dir true
    rw [plain, assigns]
    refine ⟨assigned_congr (assign_assigned n d k q.dir) ?_ ?_ ?_ ?_ ?_ ?_ rfl rfl rfl, ?_, ?_, fun x hx => ?_⟩
    · rw [noticed]; rfl
    · rw [noticed]; rfl
    · rw [noticed]; rfl
    · rw [noticed]; rfl
    · rw [outlet]
    · rw [outlet]
    · rw [assign_outlet, outlet]
    · rw [assign_same, records.2.2]
    · rw [assign_driver_other n k q.dir hx, records.1]
  · rw [plain]
    exact ⟨(only.outlets j hj).trans (others j hj), (only.moves j hj).trans (by rw [records.2.1])⟩
  · rw [plain, kept, noticed]; rfl
  · rw [plain, kept, noticed]; rfl
  · rw [plain, kept, noticed]; rfl
  · rw [plain, kept, noticed]; rfl
  · rw [plain, kept, noticed]; rfl
  · rw [plain, kept, noticed]; rfl
  · rw [plain, kept, noticed]; rfl
  · intro a ha
    obtain ⟨log, guarded⟩ := Bool.or_eq_false_iff.mp ha
    rw [written.bytes a guarded, mem, memory.bytes a log]

/-! ### PULSE_END (R80, R83) -/

theorem exec_pulseEnd_end {s : State} (h : s.resetting = none) (t : Nat) (d : DriverNo) : exec (.pulseEnd t d) s =
    .next (((s.advance t).widthPassed d).eventEnd (s.advance t)) := congrArg Host.Outcome.next (event_end h t _)

theorem widthPassed_driving {s : State} {d : DriverNo} {job : DriverJob} {stop : Nat} (h : s.drivers[d] = .driving job stop) :
    s.widthPassed d = if stop ≤ s.now then s.endPulse d job.outlet else s := by
  simp only [State.widthPassed, h]

theorem offerDriver_same (s : State) (d : DriverNo) : s.offerDriver d = { s with
    drivers := (s.offerDriver d).drivers, moves := (s.offerDriver d).moves, waitList := (s.offerDriver d).waitList
    outlets := (s.offerDriver d).outlets, scanDue := (s.offerDriver d).scanDue } := by
  cases wait : s.waitList with
  | nil => rw [offerDriver_idle d wait]; rfl
  | cons w rest => rw [offerDriver_next d wait, assign_same]; rfl

/-- R83: at the end of a pulse that the sense has not shown, on a usable phase, the movement waits for its deadline. -/
theorem endPulse_unshown {s : State} {d : DriverNo} {k : OutletIx} {q : Pulse} (move : (s.offerDriver d).moves[k] = .driving q)
    (usable : s.usable q.phase = true) (unshown : q.satisfied = .no) :
    s.endPulse d k = (s.offerDriver d).setMove k (.verifying q) := by
  have still : (s.offerDriver d).usable q.phase = true := by
    rw [offerDriver_same]
    exact usable
  simp only [State.endPulse, move, still, unshown, Bool.not_true, Bool.false_eq_true, if_false]

/-- R80: a driver that neither a movement nor a queued close waits for stays free. -/
theorem offerDriver_noneLeft {s : State} (d : DriverNo) (k : OutletIx) (m : Movement) (wait : s.waitList = [])
    (queue : s.queue = []) : ((s.offerDriver d).setMove k m).eventEnd s = { s with
      scanDue := false, drivers := upd s.drivers d fun _ => .free, moves := upd s.moves k fun _ => m } := by
  have idle : (s.offerDriver d).setMove k m = { s with
      scanDue := true, drivers := upd s.drivers d fun _ => .free, moves := upd s.moves k fun _ => m } := by
    rw [offerDriver_idle d wait]
    rfl
  have scanned := scanIfDue_idle (s := { s with
      scanDue := true, drivers := upd s.drivers d fun _ => .free, moves := upd s.moves k fun _ => m }) (.inl queue)
  rw [idle, State.eventEnd, scanned]
  exact publishRecords_of_same _ _ rfl rfl rfl rfl rfl rfl

/-- Settles O22: the driver goes to the head of the wait list, or is free. -/
theorem pulseEndFreesDriver : Obligations.PulseEndFreesDriver := by
  unfold Obligations.PulseEndFreesDriver
  intro s t d job stop q running control driver move
  rw [exec_pulseEnd_end running, widthPassed_driving (s := s.advance t) driver]
  refine ⟨fun reached unshown usable => ⟨_, rfl, ?_⟩, fun due early => ?_⟩
  case refine_2 =>
    rw [if_neg (show ¬stop ≤ (s.advance t).now from not_le.mpr early), eventEnd_id (s := s.advance t) due]
    rfl
  have names : driverOutlet s.drivers[d] = some job.outlet := by rw [driver]; rfl
  have control' : Control (s.advance t) := control.view (advance_view s t)
  obtain ⟨loose, moves, outlet⟩ := offerDriver_loose control' (k := job.outlet) names (dir := q.dir) (by
    rw [State.advance_moves, move]
    rfl)
  have ended := endPulse_unshown (s := s.advance t) (moves.trans move) usable unshown
  have block := endPulse_block (s.advance t) d job.outlet
  have same := offerDriver_same (s.advance t) d
  rw [if_pos (show stop ≤ (s.advance t).now from reached)]
  rw [ended] at block ⊢
  have un : Unlisted (((s.advance t).offerDriver d).setMove job.outlet (.verifying q)) job.outlet := loose.unlisted
  have rests := eventEnd_outlet un (s.advance t)
  have fields := eventEnd_fields (((s.advance t).offerDriver d).setMove job.outlet (.verifying q)) (s.advance t)
  refine ⟨rests.2.trans (upd_same _ _ _), rests.1.trans outlet, eventEnd_measuring (s := s.advance t) block,
    eventEnd_inputs (s := s.advance t) block, ?_, ?_, ?_, ?_, ?_, fun wait queue => ?_, fun w rest wait => ?_⟩
  · rw [fields, State.setMove, same]; rfl
  · rw [fields, State.setMove, same]; rfl
  · rw [fields, State.setMove, same]; rfl
  · rw [fields, State.setMove, same]; rfl
  · rw [fields, State.setMove, same]; rfl
  · rw [offerDriver_noneLeft (s := s.advance t) d job.outlet (.verifying q) wait queue]
    refine ⟨rfl, upd_same _ _ _, ?_, fun x hx => upd_other _ _ hx, fun k hk => upd_other _ _ hk⟩
    simp only [State.coil, upd_same]
  · obtain ⟨-, hw, -⟩ := nextServed_but (s := s.advance t) (rest := rest) control' names wait rfl
    have busy := control.noIdleDriver (wait ▸ List.cons_ne_nil w rest)
    have next := offerDriver_next (s := s.advance t) d wait
    generalize hx : ({ (s.advance t).setDriver d .free with
      waitList := rest, scanDue := (s.advance t).scanDue || rest.isEmpty } : State) = x at next
    have others (j : DriverNo) (hj : j ≠ d) : (x.assign d w.outlet w.dir).drivers[j] = s.drivers[j] := by
      rw [assign_driver_other x w.outlet w.dir hj, ← hx]
      exact upd_other _ _ hj
    have idle := eventEnd_idle (v := (x.assign d w.outlet w.dir).setMove job.outlet (.verifying q)) (.inr (.inr fun j => by
      by_cases hj : j = d
      · have held := assign_driver x d w.outlet w.dir
        intro free
        rw [hj] at free
        rw [show (x.assign d w.outlet w.dir).drivers[d] = .free from free] at held
        cases held
      · exact fun free => busy j ((others j hj).symm.trans free))) (s.advance t)
    have records : x.outlets = s.outlets ∧ x.moves = s.moves ∧ x.waitList = rest ∧ x.queue = s.queue ∧ x.loads = s.loads := by
      rw [← hx]
      exact ⟨rfl, rfl, rfl, rfl, rfl⟩
    obtain ⟨outlets, moves, waits, queue, loads⟩ := records
    rw [next, idle]
    refine ⟨?_, assigned_congr (assign_assigned x d w.outlet w.dir) ?_ ?_ ?_ ?_ ?_ ?_ rfl (upd_other _ _ hw) rfl, ?_, ?_, ?_,
      others, fun k hk hkw => ⟨?_, ?_⟩⟩
    · rw [assign_same]
      exact waits
    · rw [← hx]; rfl
    · rw [← hx]; rfl
    · rw [← hx]; rfl
    · rw [← hx]; rfl
    · rw [outlets]
    · rw [outlets]
    · exact (assign_outlet x d w.outlet w.dir).trans (by rw [outlets])
    · rw [assign_same]
      exact queue
    · rw [assign_same]
      exact loads
    · exact (upd_other _ _ hk).trans ((assign_move_other x d w.dir hkw).trans (by rw [moves]))
    · exact (assign_outlet_other x d w.dir hkw).trans (by rw [outlets])

end Sys2Proof.Machine
end

section
/-! PROOF. The closes that a record asks of its participants, and the end of its rest (O26). -/
namespace Sys2Proof.Machine

open Sys2Proof.Safety

/-! ### Closes for a record -/

/-- A participant that is OFF, rests for record `c`, or opens without a pending request, takes the record's CLOSE without an
answer. -/
def Turns (s : State) (c : RecNo) (k : OutletIx) : Prop :=
  s.outlets[k].state = .off ∨ s.outlets[k].state = .resting ∧ s.outlets[k].cycle = some c ∨
    s.outlets[k].state = .opening ∧ s.outlets[k].pending = none

/-- R56, R58, R61: what the CLOSE makes of it. -/
def State.turn (s : State) (cls : ClassNo) (c : RecNo) (k : OutletIx) : State :=
  if s.outlets[k].state = .opening then s.modOutlet k fun o => { o with pending := some (.cls cls (.cycle c)) }
  else s.enqueue k cls (.cycle c)

def State.turnAll (s : State) (ks : List OutletIx) (cls : ClassNo) (c : RecNo) : State :=
  ks.foldl (fun s k => s.turn cls c k) s

theorem requestClose_turns {s : State} {c : RecNo} {k : OutletIx} (h : Turns s c k) (cls : ClassNo) :
    s.requestClose k cls (.cycle c) = (s.turn cls c k, []) := by
  unfold State.requestClose State.turn
  rcases h with off | ⟨rest, member⟩ | ⟨opening, pending⟩
  · simp only [State.closeByState, off, reduceCtorEq, if_false]
  · have own : s.outlets[k].ownedByMember (.cycle c) = true := ownedByMember_iff.mpr ⟨c, member, rfl⟩
    simp only [State.closeByState, rest, own, reduceCtorEq, if_true, if_false]
  · simp only [State.closeByState, opening, if_true, State.setPending, State.pendingReply, pending]

theorem turn_only (s : State) (cls : ClassNo) (c : RecNo) (k : OutletIx) : Only k s (s.turn cls c k) := by
  unfold State.turn
  split
  · exact modOutlet_only s k _
  · exact enqueue_only s k cls _

theorem turn_same (s : State) (cls : ClassNo) (c : RecNo) (k : OutletIx) : s.turn cls c k = { s with
    queue := (s.turn cls c k).queue, nextArrival := (s.turn cls c k).nextArrival, scanDue := (s.turn cls c k).scanDue
    outlets := (s.turn cls c k).outlets } := by
  unfold State.turn
  split
  · rfl
  · rw [enqueue_eq]

theorem turnAll_same (s : State) (ks : List OutletIx) (cls : ClassNo) (c : RecNo) : s.turnAll ks cls c = { s with
    queue := (s.turnAll ks cls c).queue, nextArrival := (s.turnAll ks cls c).nextArrival
    scanDue := (s.turnAll ks cls c).scanDue, outlets := (s.turnAll ks cls c).outlets } := by
  induction ks generalizing s with
  | nil => rfl
  | cons k ks ih =>
    change (s.turn cls c k).turnAll ks cls c = { s with
      queue := ((s.turn cls c k).turnAll ks cls c).queue, nextArrival := ((s.turn cls c k).turnAll ks cls c).nextArrival
      scanDue := ((s.turn cls c k).turnAll ks cls c).scanDue, outlets := ((s.turn cls c k).turnAll ks cls c).outlets }
    rw [ih, turn_same]

theorem turnAll_other (s : State) {ks : List OutletIx} (cls : ClassNo) (c : RecNo) {j : OutletIx} (h : j ∉ ks) :
    (s.turnAll ks cls c).outlets[j] = s.outlets[j] := by
  induction ks generalizing s with
  | nil => rfl
  | cons k ks ih =>
    obtain ⟨ne, rest⟩ := not_or.mp (mt List.mem_cons.mpr h)
    exact (ih _ rest).trans ((turn_only s cls c k).outlets j ne)

theorem turn_outlet (s : State) (cls : ClassNo) (c : RecNo) (k : OutletIx) : (s.turn cls c k).outlets[k] =
    if s.outlets[k].state = .opening then { s.outlets[k] with pending := some (.cls cls (.cycle c)) }
    else { s.outlets[k] with state := .awaitClose, lastChange := s.partTime, owner := some (.cycle c) } := by
  unfold State.turn
  split
  · exact upd_same _ _ _
  · exact enqueue_outlet s k cls _

theorem turnAll_outlet (s : State) {ks : List OutletIx} (nodup : ks.Nodup) (cls : ClassNo) (c : RecNo) {k : OutletIx}
    (hk : k ∈ ks) : (s.turnAll ks cls c).outlets[k] =
    if s.outlets[k].state = .opening then { s.outlets[k] with pending := some (.cls cls (.cycle c)) }
    else { s.outlets[k] with state := .awaitClose, lastChange := s.partTime, owner := some (.cycle c) } := by
  induction ks generalizing s with
  | nil => cases hk
  | cons j ks ih =>
    obtain ⟨out, nodup⟩ := List.nodup_cons.mp nodup
    change ((s.turn cls c j).turnAll ks cls c).outlets[k] = _
    rcases List.mem_cons.mp hk with rfl | hk
    · rw [turnAll_other _ _ _ out, turn_outlet]
    · have ne : k ≠ j := fun same => out (same ▸ hk)
      have time : (s.turn cls c j).partTime = s.partTime := by rw [turn_same]; rfl
      rw [ih _ nodup hk, (turn_only s cls c j).outlets k ne, time]

theorem turn_queue (s : State) (cls : ClassNo) (c : RecNo) (k : OutletIx) (x : QueueEntry) (hx : x ∈ (s.turn cls c k).queue) :
    x ∈ s.queue ∨ x.outlet = k := by
  unfold State.turn at hx
  split at hx
  · exact .inl hx
  · rcases mem_enqueue.mp hx with rfl | hx
    · exact .inr rfl
    · exact .inl hx

theorem turnAll_queue (s : State) {ks : List OutletIx} (cls : ClassNo) (c : RecNo) (x : QueueEntry)
    (hx : x ∈ (s.turnAll ks cls c).queue) : x ∈ s.queue ∨ x.outlet ∈ ks := by
  induction ks generalizing s with
  | nil => exact .inl hx
  | cons k ks ih =>
    rcases ih _ hx with old | new
    · exact (turn_queue s cls c k x old).imp_right fun (same : x.outlet = k) => List.mem_cons.mpr (.inl same)
    · exact .inr (List.mem_cons_of_mem _ new)

theorem sendCloses_turns {s : State} {ks : List OutletIx} {c : RecNo} (nodup : ks.Nodup) (h : ∀ k ∈ ks, Turns s c k)
    (cls : ClassNo) : s.sendCloses ks cls (.cycle c) = (s.turnAll ks cls c, []) := by
  unfold State.sendCloses
  induction ks generalizing s with
  | nil => rfl
  | cons k ks ih =>
    obtain ⟨out, nodup⟩ := List.nodup_cons.mp nodup
    have first := requestClose_turns (h k List.mem_cons_self) cls
    rw [List.foldl_cons]
    dsimp only
    rw [first]
    refine (ih nodup fun j hj => ?_)
    have same := (turn_only s cls c k).outlets j fun same => out (same ▸ hj)
    unfold Turns
    rw [same]
    exact h j (List.mem_cons_of_mem _ hj)

/-! ### The class of a record's closes (R140) -/

theorem closingClass_urgent {l : List Origin} (h : ∃ e, Origin.order e true ∈ l) : closingClass l = 1 := by
  obtain ⟨e, he⟩ := h
  refine if_pos (List.any_eq_true.mpr ⟨_, he, rfl⟩)

theorem closingClass_order {l : List Origin} (h : ∃ e, Origin.order e false ∈ l) (none : ∀ e, Origin.order e true ∉ l) :
    closingClass l = 2 := by
  obtain ⟨e, he⟩ := h
  refine (if_neg fun urgent => ?_).trans (if_pos (List.any_eq_true.mpr ⟨_, he, rfl⟩))
  obtain ⟨o, ho, hu⟩ := List.any_eq_true.mp urgent
  cases o with
  | watch w => cases hu
  | order e u => exact none e (hu ▸ ho)

theorem closingClass_watches {l : List Origin} (none : ∀ e v, Origin.order e v ∉ l) : closingClass l = 3 := by
  have watch (f : Origin → Bool) (h : ∀ w, f (.watch w) = false) : ¬l.any f = true := fun any => by
    obtain ⟨o, ho, hu⟩ := List.any_eq_true.mp any
    cases o with
    | watch w => rw [h w] at hu; cases hu
    | order e u => exact none e u ho
  exact (if_neg (watch _ fun _ => rfl)).trans (if_neg (watch _ fun _ => rfl))

/-! ### REST_DEADLINE (R139, R140) -/

theorem exec_restDeadline_end {s : State} (h : s.resetting = none) (t : Nat) (c : RecNo) : exec (.restDeadline t c) s =
    .next (((s.advance t).restOver c).eventEnd (s.advance t)) := congrArg Host.Outcome.next (event_end h t _)

/-- R139, R147: the record as it enters CLOSING. -/
def State.recordClosing (s : State) (c : RecNo) : State :=
  s.modCycle c fun r => { r with
    state := .closing, restDeadline := none, cls := some (closingClass s.cycles[c].origins) }

/-- R139, R140: the participants with the record's CLOSE. -/
def State.closingAll (s : State) (c : RecNo) : State :=
  (s.recordClosing c).turnAll s.cycles[c].participants (closingClass s.cycles[c].origins) c

/-- R139, R147: a record whose participants all take its CLOSE without an answer. -/
theorem enterClosing_turns {s : State} {c : RecNo} (nodup : s.cycles[c].participants.Nodup)
    (h : ∀ k ∈ s.cycles[c].participants, Turns s c k) : s.enterClosing c = (s.closingAll c, []) :=
  sendCloses_turns (s := s.recordClosing c) nodup h _

theorem closingAll_same (s : State) (c : RecNo) : s.closingAll c = { s with
    cycles := upd s.cycles c fun r => { r with
      state := .closing, restDeadline := none, cls := some (closingClass s.cycles[c].origins) }
    queue := (s.closingAll c).queue, nextArrival := (s.closingAll c).nextArrival, scanDue := (s.closingAll c).scanDue
    outlets := (s.closingAll c).outlets } := turnAll_same (s.recordClosing c) _ _ c

theorem closingAll_outlet {s : State} {c : RecNo} (nodup : s.cycles[c].participants.Nodup) {k : OutletIx}
    (hk : k ∈ s.cycles[c].participants) (still : s.outlets[k].state ≠ .opening) : (s.closingAll c).outlets[k] =
    { s.outlets[k] with state := .awaitClose, lastChange := s.partTime, owner := some (.cycle c) } :=
  (turnAll_outlet (s.recordClosing c) nodup _ c hk).trans (if_neg still)

theorem settle_nil (s : State) : settle (s, []) = s := rfl

/-- Settles O26: each resting participant joins the close queue for the record, and may be granted its close at once. -/
theorem restDeadlineClosesParticipants : Obligations.RestDeadlineClosesParticipants := by
  unfold Obligations.RestDeadlineClosesParticipants
  intro s t c d running due state deadline nodup members
  have passed : (s.advance t).restOver c = if d ≤ max s.now t then settle ((s.advance t).enterClosing c) else s.advance t := by
    simp only [State.restOver, State.advance_cycles, State.advance_now, state, deadline, Option.any_some, decide_eq_true_eq,
      true_and]
  rw [exec_restDeadline_end running, passed]
  refine ⟨fun reached => ⟨_, closingClass s.cycles[c].origins, rfl, ?_⟩, fun early => ?_⟩
  case refine_2 =>
    rw [if_neg (not_le.mpr early), eventEnd_id (s := s.advance t) due]
    rfl
  have turns (k : OutletIx) (hk : k ∈ s.cycles[c].participants) : Turns (s.advance t) c k := .inr (.inl (members k hk))
  rw [if_pos reached, enterClosing_turns (s := s.advance t) nodup turns, settle_nil]
  have block : BlockStep (s.advance t) ((s.advance t).closingAll c) := by
    have entered := enterClosing_block (s.advance t) c
    rwa [enterClosing_turns (s := s.advance t) nodup turns] at entered
  have same := closingAll_same (s.advance t) c
  have outlet (k : OutletIx) (hk : k ∈ s.cycles[c].participants) := closingAll_outlet (s := s.advance t) nodup hk
    (by rw [State.advance_outlets, (members k hk).1]; exact OutletState.noConfusion)
  have scanned := scanIfDue_scanned ((s.advance t).closingAll c)
  have fields := eventEnd_fields ((s.advance t).closingAll c) (s.advance t)
  have memory := (eventEnd_memory ((s.advance t).closingAll c) (s.advance t)).bytes
  refine ⟨?_, closingClass_urgent, closingClass_order, closingClass_watches, fun x hx => ?_, fun k hk => ⟨?_, ?_⟩, ?_, ?_, ?_,
    eventEnd_measuring (s := s.advance t) block, eventEnd_inputs (s := s.advance t) block, ?_, ?_⟩
  · rw [fields, same]
    exact upd_same _ _ _
  · rw [fields, same]
    exact upd_other _ _ hx
  · rw [fields]
    exact (scanned.state k).imp_left fun kept => kept.trans (by rw [outlet k hk])
  · rw [fields]
    dsimp only
    rw [scanned.outlet k, outlet k hk]
  · rw [fields, same]; rfl
  · rw [fields, same]; rfl
  · rw [fields, same]; rfl
  · rw [fields, same]; rfl
  · have mem : ((s.advance t).closingAll c).mem = s.mem := by rw [same]; rfl
    rwa [mem] at memory

end Sys2Proof.Machine
end

section
/-! PROOF. The CYCLE order by the answer of its admission (O33). -/
namespace Sys2Proof.Machine

open Sys2Proof.Safety

/-! ### The answer of an admission -/

/-- The answer of an admission looks at the outlets and the records alone. -/
theorem admission_answer_congr {s u : State} (outlets : u.outlets = s.outlets) (cycles : u.cycles = s.cycles) (o : Origin)
    (targets : List OutletIx) (rest : Nat) : (u.admission o targets rest).2 = (s.admission o targets rest).2 := by
  have retriggers : u.retriggers targets = s.retriggers targets := by
    funext c
    rw [State.retriggers, State.retriggers, outlets, cycles]
  unfold State.admission State.retrigger
  rw [retriggers, outlets, cycles]
  split
  · dsimp only
    split <;> rfl
  iterate 5
    split
    · rfl
  rfl

/-- A refusal changes nothing. -/
theorem admission_refused {s : State} {o : Origin} {targets : List OutletIx} {rest : Nat} {reason : Reason}
    {detail : Option OutletIx} (h : (s.admission o targets rest).2 = .refused reason detail) :
    s.admission o targets rest = (s, .refused reason detail) := by
  refine Prod.ext ?_ h
  revert h
  unfold State.admission State.retrigger
  split
  · dsimp only
    split
    · exact fun _ => rfl
    · exact fun h => nomatch h
  iterate 5
    split
    · exact fun _ => rfl
  exact fun h => nomatch h

/-- R136: an origin attached to record `c`. -/
def State.attach (s : State) (c : RecNo) (o : Origin) (rest : Nat) : State :=
  s.modCycle c fun r => { r with
    origins := r.origins ++ [o], restTime := rest
    restDeadline := if r.state = .resting then some (s.now + rest * 1000) else r.restDeadline }

theorem admission_attached {s : State} {o : Origin} {targets : List OutletIx} {rest : Nat} {c : RecNo}
    (h : (s.admission o targets rest).2 = .attached c) : s.admission o targets rest = (s.attach c o rest, .attached c) := by
  refine Prod.ext ?_ h
  revert h
  unfold State.admission State.retrigger
  split
  · dsimp only
    split
    · exact fun h => nomatch h
    · intro h
      cases h
      rfl
  iterate 5
    split
    · exact fun h => nomatch h
  exact fun h => nomatch h

/-- R134 row 7: targets that are ON or OFF and concern no record. -/
theorem admission_starts {s : State} (o : Origin) {targets : List OutletIx} (rest : Nat) {c : RecNo}
    (idle : ∀ k ∈ targets, (s.outlets[k].state = .on ∨ s.outlets[k].state = .off) ∧ s.outlets[k].cycle = none ∧
      ∀ r : RecNo, k ∉ s.cycles[r].participants)
    (someOn : ∃ k ∈ targets, s.outlets[k].state = .on) (free : s.cycles[c].state = .free)
    (lowest : ∀ r : RecNo, r < c → s.cycles[r].state ≠ .free) :
    s.admission o targets rest = (s.startRecord c o targets rest, .admitted c) := by
  have ne {k : OutletIx} (hk : k ∈ targets) {st : OutletState} (on : st ≠ .on) (off : st ≠ .off) : s.outlets[k].state ≠ st := by
    rcases (idle k hk).1 with h | h <;> rw [h]
    · exact on.symm
    · exact off.symm
  have h1 : (indices 16).find? (s.retriggers targets) = none := find?_none_of fun r _ => Bool.eq_false_iff.mpr fun h => by
    obtain ⟨-, ⟨k, hk, member⟩, -⟩ := (retriggers_iff s targets r).mp h
    exact (idle k hk).2.2 r member
  have h2 : targets.find? (fun k => s.outlets[k].state == .fault) = none :=
    find?_none_of fun k hk => beq_eq_false_iff_ne.mpr (ne hk OutletState.noConfusion OutletState.noConfusion)
  have h3 : targets.find? (fun k => s.outlets[k].state == .unknown) = none :=
    find?_none_of fun k hk => beq_eq_false_iff_ne.mpr (ne hk OutletState.noConfusion OutletState.noConfusion)
  have h4 : targets.find? (fun k => s.outlets[k].busy) = none := find?_none_of fun k hk => Bool.eq_false_iff.mpr fun busy => by
    rcases (busy_iff _).mp busy with member | await | closing | opening | resting
    · exact member (idle k hk).2.1
    all_goals exact ne hk OutletState.noConfusion OutletState.noConfusion ‹_›
  obtain ⟨k, hk, on⟩ := someOn
  rw [admission_free h1 h2 h3 h4, if_neg fun all => absurd on (bne_iff_ne.mp (List.all_eq_true.mp all k hk)),
    find?_indices (p := fun c => s.cycles[c].state == .free) (beq_iff_eq.mpr free) fun r hr =>
      beq_eq_false_iff_ne.mpr (lowest r hr)]

/-! ### CYCLE (R177) -/

theorem orderRestTime_eq (param : Word) : orderRestTime param =
    if param = 0 then 10000 else max 1000 (min 600000 param.toNat) := by
  have zero : param = 0 ↔ param.toNat = 0 := ⟨fun h => by rw [h]; rfl, fun h => BitVec.eq_of_toNat_eq h⟩
  unfold orderRestTime
  by_cases h : param.toNat = 0
  · rw [if_pos h, if_pos (zero.mpr h)]
  · rw [if_neg h, if_neg (mt zero.mp h)]
    split_ifs <;> omega

theorem exec_cycle_end {s : State} (h : s.resetting = none) (t : Nat) : exec (.cycle t) s =
    .next (((s.advance t).takeMembers .cycle fun e f ms s => s.cycleOrder e f ms).eventEnd (s.advance t)) :=
  congrArg Host.Outcome.next (event_end h t _)

/-- The records leave the slots as the work of the event has left them. -/
theorem eventEnd_slotState (v old : State) (e : SlotNo) : slotState (v.eventEnd old).mem e = slotState v.mem e :=
  slotState_congr fun a ha => (eventEnd_memory v old).bytes a (guardedBytes_slot e ha)

/-- An event that changes no record that a guarded record shows. -/
theorem eventEnd_unchanged {v old : State} (due : v.scanDue = false) (outlets : v.outlets = old.outlets)
    (watches : v.watches = old.watches) (cycles : v.cycles = old.cycles) (loads : v.loads = old.loads) (shed : v.shed = old.shed)
    (closedSeq : v.pub.closedSeq = old.pub.closedSeq) : v.eventEnd old = v := by
  rw [State.eventEnd, scanIfDue_of_not_due due]
  exact publishRecords_of_same _ _ outlets watches cycles loads shed closedSeq

/-- The bytes of a take, its slot and the records. -/
theorem eventEnd_slotBytes {s v old : State} {e : SlotNo} (h : sameBytesOutside (slotBytes e) s.mem v.mem) :
    sameBytesOutside (fun a => slotBytes e a || guardedBytes a) s.mem (v.eventEnd old).mem := fun a ha => by
  obtain ⟨slot, guarded⟩ := Bool.or_eq_false_iff.mp ha
  rw [(eventEnd_memory v old).bytes a guarded, h a slot]

/-- R177: an order whose admission has given it a record. -/
def State.recorded (s : State) (e : SlotNo) (f : SlotFields) (c : RecNo) : State :=
  s.setOrder e (some { fields := f, members := [], record := some c })

theorem admissionAnswer_record {s : State} {e : SlotNo} {f : SlotFields}
    (held : s.orders[e] = some { fields := f, members := [], record := none }) {r : AdmitResult} {c : RecNo}
    (h : r = .admitted c ∨ r = .attached c) : s.admissionAnswer e r = s.recorded e f c := by
  rcases h with rfl | rfl <;> simp only [State.admissionAnswer, held, State.recorded]

/-- Settles O33: by the answer of the admission. -/
theorem cycleOrderAdmitted : Obligations.CycleOrderAdmitted := by
  unfold Obligations.CycleOrderAdmitted
  intro s t e rest ms ⟨running, wf, head, posted, kind⟩ resolved
  have work : (s.advance t).takeMembers .cycle (fun e f ms s => s.cycleOrder e f ms) =
      ((s.advance t).hold e rest).cycleOrder e (slotFields s.mem e) ms :=
    takeMembers_of_head (s := s.advance t) head posted kind resolved _
  rw [exec_cycle_end running, work]
  have held := hold_same (s.advance t) e rest
  have entry := hold_orders_same (s.advance t) e rest
  have others {j : SlotNo} (hj : j ≠ e) := hold_orders_other (s.advance t) rest hj
  have taken := slotState_hold (s := s.advance t) e rest wf
  have bytes := (memStep_hold (s.advance t) e rest).bytes
  have finishing := hold_finishOrder (s := s.advance t) wf e rest
  dsimp only
  simp only [← orderRestTime_eq]
  have answers := admission_answer_congr (s := s) (u := (s.advance t).hold e rest) (by rw [held]; rfl) (by rw [held]; rfl)
    (.order e (slotFields s.mem e).urgent) ms (orderRestTime (slotFields s.mem e).param)
  have records : ((s.advance t).hold e rest).outlets = s.outlets ∧ ((s.advance t).hold e rest).cycles = s.cycles := by
    rw [held]
    exact ⟨rfl, rfl⟩
  rw [State.advance_mem] at entry
  unfold State.cycleOrder
  generalize (s.advance t).hold e rest = v at *
  generalize orderRestTime (slotFields s.mem e).param = time at *
  generalize slotFields s.mem e = f at *
  refine ⟨fun c idle someOn free lowest => ⟨_, rfl, ?_⟩, fun due reason detail refused => ⟨_, rfl, ?_⟩,
    fun due c attached => ⟨_, rfl, ?_⟩⟩
  · have starts := admission_starts (s := v) (.order e f.urgent) (targets := ms) time (c := c)
      (by rw [records.1, records.2]; exact fun k hk => ⟨(idle k hk).1, (idle k hk).2.1, (idle k hk).2.2.2⟩)
      (by rw [records.1]; exact someOn) (by rw [records.2]; exact free) (by rw [records.2]; exact lowest)
    have same := startRecord_same v c (.order e f.urgent) ms time
    rw [starts]
    dsimp only
    rw [admissionAnswer_record (by rw [same]; exact entry) (.inl rfl)]
    have opening {k : OutletIx} (hk : k ∈ ms) (on : s.outlets[k].state = .on) :=
      startRecord_opening (s := v) (c := c) (o := .order e f.urgent) (rest := time) hk (by rw [records.1]; exact on)
    have other {k : OutletIx} (off : s.outlets[k].state = .off) :=
      startRecord_other (s := v) (c := c) (o := .order e f.urgent) (targets := ms) (rest := time) (k := k)
        (.inr (by rw [records.1, off]; exact OutletState.noConfusion))
    have record := startRecord_record v c (.order e f.urgent) ms time
    have elsewhere {x : RecNo} (h : x ≠ c) := startRecord_records v (.order e f.urgent) ms time h
    generalize v.startRecord c (.order e f.urgent) ms time = a at *
    have orders : a.orders = v.orders := by rw [same]
    have fields := eventEnd_fields (a.recorded e f c) (s.advance t)
    have state := eventEnd_slotState (a.recorded e f c) (s.advance t) e
    have written := eventEnd_slotBytes (v := a.recorded e f c) (old := s.advance t) (e := e) (s := s) (by
      change sameBytesOutside _ _ a.mem
      rw [same]
      exact bytes)
    have unqueued {k : OutletIx} (hk : k ∈ ms) : Unlisted (a.recorded e f c) k := fun x hx => (idle k hk).2.2.1 x (by
      change x ∈ a.queue at hx
      rw [same, held] at hx
      exact hx)
    have kept {k : OutletIx} (hk : k ∈ ms) := (eventEnd_outlet (unqueued hk) (s.advance t)).1
    have cycles : ((a.recorded e f c).eventEnd (s.advance t)).cycles = a.cycles := by rw [fields]; rfl
    have mem : (a.recorded e f c).mem = v.mem := by
      change a.mem = v.mem
      rw [same]
    refine ⟨?_, ?_, ?_, ?_, fun k => ?_, ?_, fun r hr => ?_, fun k hk on => ?_, fun k hk off => ?_, fun j hj => ?_, ?_, ?_, ?_, ?_, ?_, written⟩
    · rw [fields, State.recorded, State.setOrder_fifo, same, held]
    · rw [state, mem]
      exact taken
    · rw [fields]
      exact upd_same _ _ _
    · rw [cycles, record, records.1]
    · rw [cycles, record, ← records.1]
      exact mem_onTargets
    · rw [cycles, record]
      exact onTargets_pairwise v ms
    · rw [cycles, elsewhere hr, records.2]
    · obtain ⟨x, hx⟩ := opening hk on
      rw [kept hk]
      change a.outlets[k].state = _ ∧ a.outlets[k].cycle = _ ∧ a.outlets[k].owner = _
      rw [hx]
      exact ⟨rfl, rfl, rfl⟩
    · rw [kept hk]
      change a.outlets[k] = _
      rw [other off, records.1]
    · rw [fields]
      exact (upd_other _ _ hj).trans (by rw [orders]; exact others hj)
    · rw [fields, State.recorded, State.setOrder_shed, same, held]; rfl
    · rw [fields, State.recorded, State.setOrder_watches, same, held]; rfl
    · rw [fields, State.recorded, State.setOrder, same, held]
      exact ⟨rfl, rfl, rfl, rfl, rfl, rfl, rfl, rfl⟩
    · rw [fields, State.recorded, State.setOrder, same, held]
      exact ⟨rfl, rfl, rfl, rfl⟩
    · rw [fields, State.recorded, State.setOrder_cause, same, held]; rfl
  · rw [refused] at answers
    rw [admission_refused answers]
    have done := finishing (.plain .refused (some reason) detail none)
    change TakenAndFinished _ (v.refuse e reason detail none) _ _ _ at done
    have plain : (v.refuse e reason detail none).eventEnd (s.advance t) = v.refuse e reason detail none := by
      apply eventEnd_unchanged <;> rw [done.same]
      exact due
    dsimp only
    change _ = _ ∧ _
    rw [State.admissionAnswer, plain]
    exact ⟨done.same, done.finished, done.others, done.bytes⟩
  · rw [attached] at answers
    rw [admission_attached answers]
    dsimp only
    rw [admissionAnswer_record (by exact entry) (.inr rfl), ← records.2]
    have plain := eventEnd_plain (v := (v.attach c (.order e f.urgent) time).recorded e f c) (by
      change v.scanDue = false
      rw [held]
      exact due) (s.advance t)
    have now : v.now = max s.now t := by rw [held]; rfl
    have written := eventEnd_slotBytes (v := (v.attach c (.order e f.urgent) time).recorded e f c) (old := s.advance t) bytes
    have state := eventEnd_slotState ((v.attach c (.order e f.urgent) time).recorded e f c) (s.advance t) e
    refine ⟨?_, state.trans taken, ?_, fun j hj => ?_, fun r hr => ?_, ?_, written⟩
    · rw [plain, State.recorded, State.attach, held]; rfl
    · rw [plain]
      exact upd_same _ _ _
    · rw [plain]
      exact (upd_other _ _ hj).trans (others hj)
    · rw [plain]
      exact upd_other _ _ hr
    · rw [plain, ← now]
      exact upd_same _ _ _

end Sys2Proof.Machine
end

section
/-! PROOF. The targets of an order are distinct, and CLEAR_FAULT answers them one after another (O35). -/
namespace Sys2Proof.Machine

open Sys2Proof.Safety

/-! ### The members of an order -/

theorem firstRepeat_nodup {seen l : List OutletIx} (h : firstRepeat seen l = none) : l.Nodup ∧ ∀ k ∈ l, k ∉ seen := by
  induction l generalizing seen with
  | nil => exact ⟨List.nodup_nil, fun _ h => nomatch h⟩
  | cons k l ih =>
    rw [firstRepeat] at h
    split at h
    case isTrue => cases h
    case isFalse fresh =>
      obtain ⟨nodup, apart⟩ := ih h
      refine ⟨List.nodup_cons.mpr ⟨fun hk => apart k hk List.mem_cons_self, nodup⟩, fun j hj => ?_⟩
      rcases List.mem_cons.mp hj with rfl | hj
      · exact fresh
      · exact fun old => apart j hj (List.mem_cons_of_mem _ old)

theorem listTargets_ok {l : List (Option OutletIx)} {ms : List OutletIx} (h : listTargets l = .ok ms) :
    ms.Nodup ∧ l = ms.map some := by
  unfold listTargets at h
  split at h
  case isTrue => cases h
  case isFalse legal =>
    split at h
    · cases h
    case h_2 none =>
      cases h
      refine ⟨(firstRepeat_nodup none).1, ?_⟩
      clear none
      induction l with
      | nil => rfl
      | cons x l ih =>
        rw [List.mem_cons, not_or] at legal
        cases x with
        | none => exact absurd rfl legal.1
        | some k => exact congrArg (some k :: ·) (ih legal.2)

/-- R173, R174: the members of a taken order are distinct, and there is one. -/
theorem resolveTargets_ok {work : Settings} {m : Mem} {e : SlotNo} {ms : List OutletIx}
    (h : resolveTargets work (slotFields m e) = .ok ms) : ms.Nodup ∧ ms ≠ [] := by
  have entries : (slotFields m e).list.length = 8 := rfl
  generalize slotFields m e = f at h entries
  unfold resolveTargets at h
  split at h
  · split at h
    · cases h
    case isFalse count =>
      change listTargets ((f.list.take f.count.toNat).map fun b => outletOf b.toNat) = .ok ms at h
      obtain ⟨nodup, all⟩ := listTargets_ok h
      refine ⟨nodup, fun none => ?_⟩
      have length := congrArg List.length all
      rw [none, List.length_map, List.length_take, entries] at length
      change _ = 0 at length
      omega
  · dsimp only at h
    split at h
    · cases h
    case isFalse some =>
      cases h
      exact ⟨(List.nodup_finRange 48).filter _, fun none => some (List.isEmpty_iff.mpr none)⟩
  · cases h

/-! ### Marks that go (R128) -/

/-- R126, R128: a branch's record without the outlets of `F`. -/
def ShedRec.without (r : ShedRec) (F : OutletIx → Prop) [DecidablePred F] : ShedRec :=
  { r with
    list := r.list.filter fun k => ¬F k
    round := r.round.filter fun k => ¬F k
    restoring := r.restoring && !decide ((∃ k ∈ r.round, F k) ∧ ∀ k ∈ r.round, F k)
    restoreCount := if (∃ k ∈ r.round, F k) ∧ ∀ k ∈ r.round, F k then 0 else r.restoreCount }

theorem clearMark_shed (s : State) (k : OutletIx) (b : Branch) : (s.clearMark k).shed[b] =
    { s.shed[b] with list := s.shed[b].list.filter (· != k) }.leaveRound k := tab_at _ b

theorem leaveRound_without (r : ShedRec) (F G : OutletIx → Prop) [DecidablePred F] [DecidablePred G] (k : OutletIx)
    (h : ∀ j, G j ↔ F j ∨ j = k) {x : ShedRec}
    (hx : x = { r.without F with list := (r.without F).list.filter (· != k) }) : x.leaveRound k = r.without G := by
  have lists : (r.without F).list.filter (· != k) = r.list.filter fun j => ¬G j := by
    rw [ShedRec.without, List.filter_filter]
    exact List.filter_congr fun j _ => by
      rw [Bool.eq_iff_iff]
      simp only [Bool.and_eq_true, bne_iff_ne, decide_eq_true_eq, h j, not_or]
      exact and_comm
  have rounds : (r.round.filter fun j => ¬F j).filter (· != k) = r.round.filter fun j => ¬G j := by
    rw [List.filter_filter]
    exact List.filter_congr fun j _ => by
      rw [Bool.eq_iff_iff]
      simp only [Bool.and_eq_true, bne_iff_ne, decide_eq_true_eq, h j, not_or]
      exact and_comm
  have later {j : OutletIx} (hj : F j) : G j := (h j).mpr (.inl hj)
  rw [lists] at hx
  have round : x.round = r.round.filter fun j => ¬F j := by rw [hx]; rfl
  by_cases inRound : k ∈ r.round ∧ ¬F k
  · obtain ⟨member, fresh⟩ := inRound
    have place : k ∈ x.round := round ▸ List.mem_filter.mpr ⟨member, decide_eq_true fresh⟩
    have first : ¬((∃ j ∈ r.round, F j) ∧ ∀ j ∈ r.round, F j) := fun ends => fresh (ends.2 k member)
    by_cases all : ∀ j ∈ r.round, G j
    · have ends : (∃ j ∈ r.round, G j) ∧ ∀ j ∈ r.round, G j := ⟨⟨k, member, (h k).mpr (.inr rfl)⟩, all⟩
      have empty : (r.round.filter fun j => ¬G j) = [] := List.filter_eq_nil_iff.mpr fun j hj => by simp [all j hj]
      rw [leaveRound_last place fun j hj => ?_, hx]
      · simp only [ShedRec.without, if_pos ends, decide_eq_true ends, empty, Bool.not_true, Bool.and_false]
      · obtain ⟨hj, notF⟩ := List.mem_filter.mp (round ▸ hj)
        exact ((h j).mp (all j hj)).resolve_left (of_decide_eq_true notF)
    · have stays : ¬((∃ j ∈ r.round, G j) ∧ ∀ j ∈ r.round, G j) := fun ends => all ends.2
      obtain ⟨j, hj⟩ := not_forall.mp all
      obtain ⟨hj, notG⟩ := Classical.not_imp.mp hj
      rw [leaveRound_more place
        ⟨j, round ▸ List.mem_filter.mpr ⟨hj, decide_eq_true (mt later notG)⟩, fun same => notG ((h j).mpr (.inr same))⟩, round, hx]
      have rest : (r.round.filter fun j => ¬F j).filter (· ≠ k) = r.round.filter fun j => ¬G j := by
        rw [← rounds]
        exact List.filter_congr fun j _ => by rw [bne, Bool.beq_eq_decide_eq, decide_not]
      simp only [ShedRec.without, if_neg stays, decide_eq_false stays, if_neg first, decide_eq_false first, rest]
  · have out : k ∉ x.round := fun hk => by
      obtain ⟨member, fresh⟩ := List.mem_filter.mp (round ▸ hk)
      exact inRound ⟨member, of_decide_eq_true fresh⟩
    have same {j : OutletIx} (hj : j ∈ r.round) : G j ↔ F j := by
      refine (h j).trans (or_iff_left_of_imp fun hk => ?_)
      exact not_not.mp fun fresh => inRound ⟨hk ▸ hj, hk ▸ fresh⟩
    have some : (∃ j ∈ r.round, G j) ↔ ∃ j ∈ r.round, F j := exists_congr fun j => and_congr_right same
    have all : (∀ j ∈ r.round, G j) ↔ ∀ j ∈ r.round, F j := forall₂_congr fun _ => same
    have filtered : (r.round.filter fun j => ¬G j) = r.round.filter fun j => ¬F j :=
      List.filter_congr fun j hj => by simp only [same hj]
    rw [leaveRound_out out, hx]
    simp only [ShedRec.without, some, all, filtered]

/-! ### Notices that stand -/

/-- A notice leaves the entries in other places. -/
theorem notice_keeps {s : State} (wf : MemWf s.mem) {q : Word} (apart : s.writeCount.toNat % 256 ≠ q.toNat % 256)
    {kind kind' : NoticeKind} {subject reason subject' reason' : Nat} (hs : subject < 65536) (hr : reason < 256)
    {value stamp value' : Word} (h : logEntry s.mem q kind' subject' reason' stamp value') :
    logEntry (s.notice kind subject reason value).mem q kind' subject' reason' stamp value' := by
  refine logEntry_congr (fun a ha => ?_) h
  rw [within_iff] at ha
  cases room : s.logFull with
  | true =>
    rw [notice_full room]
    exact readByte_writeWord_other _ _ _ _ (.inr (by simp only [addrMissedKinds]; omega))
  | false =>
    refine (notice_noticed wf room kind hs hr value).bytes a ?_
    rw [Bool.or_eq_false_iff, within_eq_false, within_eq_false]
    omega

/-- The end of an order leaves the entries in other places than the next. -/
theorem finishOrder_keeps {s : State} (wf : MemWf s.mem) {e : SlotNo} {entry : OrderEntry} (held : s.orders[e] = some entry)
    (r : OrderResult) {q : Word} (apart : s.writeCount.toNat % 256 ≠ q.toNat % 256) {kind : NoticeKind} {subject reason : Nat}
    {stamp value : Word} (h : logEntry s.mem q kind subject reason stamp value) :
    logEntry (s.finishOrder e r).mem q kind subject reason stamp value := by
  have shown : logEntry (s.resultShown e r).mem q kind subject reason stamp value := by
    rw [resultShown_mem]
    refine logEntry_congr (fun a ha => (memStep_writeResult_slot _ _ _ _).bytes a (slotBytes_outside e ?_)) h
    rw [within_iff] at ha
    omega
  cases notify : entry.fields.notify with
  | false => rwa [finishOrder_silent held notify]
  | true =>
    rw [finishOrder_notify held notify]
    have wf' : MemWf (s.resultShown e r).mem := by
      rw [resultShown_mem]
      exact (memStep_writeResult_slot _ _ _ _).wf wf
    exact notice_keeps wf' ((resultShown_log s e r).2.symm ▸ apart) (lt_trans e.isLt (by decide)) (outcomeCode_lt _) shown

/-! ### One member (R71) -/

/-- R71, R176: the answer of a CLEAR_FAULT member. -/
def State.clearAnswer (s : State) (k : OutletIx) : MemberOutcome :=
  if s.outlets[k].cycle ≠ none then .inCycle
  else match s.outlets[k].state with
    | .fault => if s.usable (phaseOfBranch s.work.outlets[k].branch) then .ok else .unknownState
    | .unknown => .unknownState
    | .off | .awaitClose | .closing | .on | .opening | .resting => .skipped

/-- R71: the record of an outlet that has been resolved from its sense. -/
def Outlet.resolved (o : Outlet) (level : Bool) (stamp : Word) : Outlet :=
  { o with
    state := if level then .on else .off, faultKind := none, drop := false, weld := false, lastChange := stamp
    shedMark := o.shedMark && !level, peakSeen := o.peakSeen && !level }

/-- R71: the outlet resolved, before the notice. -/
def State.faultResolved (s : State) (k : OutletIx) : State :=
  (if s.sense[k].level then s.arriveOn k else s.enter k .off).modOutlet k fun o =>
    { o with faultKind := none, drop := false, weld := false }

theorem clearFaultMember_cleared {s : State} {k : OutletIx} (h : s.clearAnswer k = .ok) : s.clearFaultMember k =
    ((s.faultResolved k).notice .faultCleared (numberOf k) (optCode FaultKind.code s.outlets[k].faultKind)
      (BitVec.ofNat 32 (if s.sense[k].level then 3 else 0)), .ok) := by
  unfold State.clearAnswer at h
  split at h
  · cases h
  case isFalse out =>
    have free : s.outlets[k].cycle.isSome = false := by
      rw [not_not.mp out]
      rfl
    split at h
    case h_1 state =>
      split at h
      case isTrue usable =>
        have usable' : s.usable (s.phaseOf k) = true := usable
        simp only [State.clearFaultMember, free, state, usable', if_true, Bool.false_eq_true, if_false]
        unfold State.clearFaultAt State.faultResolved
        cases s.sense[k].level <;> rfl
      · cases h
    all_goals cases h

theorem clearFaultMember_other {s : State} {k : OutletIx} (h : s.clearAnswer k ≠ .ok) :
    s.clearFaultMember k = (s, s.clearAnswer k) := by
  unfold State.clearAnswer at h ⊢
  unfold State.clearFaultMember
  by_cases out : s.outlets[k].cycle = none
  · rw [if_neg (not_not.mpr out)] at h ⊢
    have free : s.outlets[k].cycle.isSome = false := by
      rw [out]
      rfl
    dsimp only
    rw [free, if_neg Bool.false_ne_true]
    cases state : s.outlets[k].state with
    | fault =>
      rw [state] at h
      dsimp only at h ⊢
      split at h
      · exact absurd rfl h
      case isFalse unusable =>
        rw [if_neg unusable]
        exact if_neg unusable
    | _ => rfl
  · dsimp only
    rw [if_pos out, if_pos (Option.isSome_iff_ne_none.mpr out)]

theorem faultResolved_same (s : State) (k : OutletIx) : s.faultResolved k = { s with
    outlets := (s.faultResolved k).outlets, shed := (s.faultResolved k).shed } := by
  obtain ⟨outlets, shed, same⟩ : ∃ o r, s.faultResolved k = { s with outlets := o, shed := r } := by
    unfold State.faultResolved
    split
    · simp only [State.arriveOn, State.clearMark, State.enter, State.modOutlet]
      exact ⟨_, _, rfl⟩
    · simp only [State.enter, State.modOutlet]
      exact ⟨_, s.shed, rfl⟩
  rw [same]

theorem faultResolved_outlet (s : State) (k : OutletIx) :
    (s.faultResolved k).outlets[k] = s.outlets[k].resolved s.sense[k].level s.partTime := by
  unfold State.faultResolved
  rw [State.modOutlet, upd_same]
  cases level : s.sense[k].level with
  | true =>
    rw [if_pos rfl, State.arriveOn, clearMark_outlet, State.modOutlet, upd_same, State.enter, State.modOutlet, upd_same]
    simp only [Outlet.resolved, Bool.not_true, Bool.and_false, if_true]
  | false =>
    rw [if_neg Bool.false_ne_true, State.enter, State.modOutlet, upd_same]
    simp only [Outlet.resolved, Bool.not_false, Bool.and_true, Bool.false_eq_true, if_false]

theorem faultResolved_other (s : State) {k j : OutletIx} (h : j ≠ k) : (s.faultResolved k).outlets[j] = s.outlets[j] := by
  unfold State.faultResolved
  refine (upd_other _ _ h).trans ?_
  split
  · exact (arriveOn_only s k).outlets j h
  · exact (enter_only s k .off).outlets j h

theorem faultResolved_shed (s : State) (k : OutletIx) (b : Branch) : (s.faultResolved k).shed[b] =
    if s.sense[k].level = true then { s.shed[b] with list := s.shed[b].list.filter (· != k) }.leaveRound k else s.shed[b] := by
  unfold State.faultResolved
  split
  · exact clearMark_shed _ k b
  · rfl

end Sys2Proof.Machine
end

section
/-! PROOF. The members of a CLEAR_FAULT order, one after another (O35). -/
namespace Sys2Proof.Machine

open Sys2Proof.Safety

/-- The members of `l` that a CLEAR_FAULT order resolves. -/
def State.resolvedOf (b : State) (l : List OutletIx) : List OutletIx := l.filter fun j => b.clearAnswer j = .ok

theorem resolvedOf_append (b : State) (l : List OutletIx) (k : OutletIx) : (b.resolvedOf (l ++ [k])).length =
    (b.resolvedOf l).length + if b.clearAnswer k = .ok then 1 else 0 := by
  rw [State.resolvedOf, List.filter_append, List.length_append]
  congr 1
  by_cases h : b.clearAnswer k = .ok <;> simp [h]

/-- What the members `pre` of a CLEAR_FAULT order have made of state `b`, but for the order. -/
structure ClearedOutlets (b x : State) (pre : List OutletIx) : Prop where
  same : x = { b with outlets := x.outlets, shed := x.shed, orders := x.orders, mem := x.mem, cause := x.cause }
  outlets : ∀ j : OutletIx, x.outlets[j] =
    if j ∈ pre ∧ b.clearAnswer j = .ok then b.outlets[j].resolved b.sense[j].level b.partTime else b.outlets[j]
  shed : ∀ r : Branch, x.shed[r] = b.shed[r].without fun j => j ∈ pre ∧ b.clearAnswer j = .ok ∧ b.sense[j].level = true
  memory : MemStep noticeBytes b.mem x.mem
  quiet : b.resolvedOf pre = [] → x.mem = b.mem
  used : logUsed b.mem + (b.resolvedOf pre).length ≤ 256 → logUsed x.mem = logUsed b.mem + (b.resolvedOf pre).length
  filed : logUsed b.mem + (b.resolvedOf pre).length ≤ 256 ∨ (b.resolvedOf pre).length ≤ 1 ∧ b.logFull = false →
    x.writeCount = b.writeCount + BitVec.ofNat 32 (b.resolvedOf pre).length ∧
    ∀ front k back kind, pre = front ++ k :: back → b.clearAnswer k = .ok → b.outlets[k].faultKind = some kind →
      logEntry x.mem (b.writeCount + BitVec.ofNat 32 (b.resolvedOf front).length) .faultCleared (k.val + 1) kind.code
        b.partTime (if b.sense[k].level then 3 else 0)

theorem ClearedOutlets.refl (b : State) : ClearedOutlets b b [] where
  same := rfl
  outlets j := (if_neg fun h => nomatch h.1).symm
  shed r := by
    have none (j : OutletIx) : ¬(j ∈ ([] : List OutletIx) ∧ b.clearAnswer j = .ok ∧ b.sense[j].level = true) := fun h => nomatch h.1
    simp [ShedRec.without]
  memory := .refl _ _
  quiet _ := rfl
  used _ := rfl
  filed _ := ⟨by simp [State.resolvedOf], fun front k back kind h => by simp at h⟩

/-- A change of the orders alone. -/
theorem ClearedOutlets.setOrder {b x : State} {pre : List OutletIx} (h : ClearedOutlets b x pre) (e : SlotNo)
    (o : Option OrderEntry) : ClearedOutlets b (x.setOrder e o) pre :=
  { h with same := by rw [State.setOrder, h.same] }

theorem ClearedOutlets.fresh {b x : State} {pre : List OutletIx} (h : ClearedOutlets b x pre) {k : OutletIx} (hk : k ∉ pre) :
    x.outlets[k] = b.outlets[k] ∧ x.clearAnswer k = b.clearAnswer k := by
  have outlet : x.outlets[k] = b.outlets[k] := (h.outlets k).trans (if_neg fun m => hk m.1)
  refine ⟨outlet, ?_⟩
  have usable (p : Phase) : x.usable p = b.usable p := by rw [h.same]; rfl
  have work : x.work = b.work := by rw [h.same]
  unfold State.clearAnswer
  rw [outlet, work]
  simp only [usable]

theorem without_congr (r : ShedRec) {F G : OutletIx → Prop} [DecidablePred F] [DecidablePred G] (h : ∀ j, G j ↔ F j) :
    r.without F = r.without G := by
  simp only [ShedRec.without, h]

/-- A place in a longer list is a place in the list, or its last. -/
theorem append_split {α : Type} {pre front back : List α} {k x : α} (h : pre ++ [k] = front ++ x :: back) :
    front = pre ∧ x = k ∨ ∃ more, pre = front ++ x :: more := by
  rcases List.eq_nil_or_concat back with rfl | ⟨more, y, rfl⟩
  · obtain ⟨same, last⟩ := List.append_inj' h rfl
    exact .inl ⟨same.symm, (List.cons.inj last).1.symm⟩
  · refine .inr ⟨more, ?_⟩
    have := h
    rw [List.concat_eq_append, ← List.cons_append, ← List.append_assoc] at this
    exact (List.append_inj' this rfl).1

theorem mem_append_last {j k : OutletIx} {pre : List OutletIx} {p : Prop} (h : j = k → ¬p) :
    j ∈ pre ++ [k] ∧ p ↔ j ∈ pre ∧ p := by
  rw [List.mem_append, List.mem_singleton]
  exact and_congr_left fun hp => or_iff_left fun same => h same hp

/-- A member that stays as it is. -/
theorem ClearedOutlets.kept {b x : State} {pre : List OutletIx} (h : ClearedOutlets b x pre) {k : OutletIx}
    (other : b.clearAnswer k ≠ .ok) : ClearedOutlets b x (pre ++ [k]) := by
  have resolved : b.resolvedOf (pre ++ [k]) = b.resolvedOf pre := by
    rw [State.resolvedOf, List.filter_append, List.filter_singleton, decide_eq_false other]
    exact List.append_nil _
  exact {
    same := h.same
    outlets := fun j => by
      rw [h.outlets j]
      exact if_congr (mem_append_last fun same => same ▸ other).symm rfl rfl
    shed := fun r => by
      rw [h.shed r]
      exact without_congr _ fun j => mem_append_last fun same ok => (same ▸ other) ok.1
    memory := h.memory
    quiet := fun none => h.quiet (resolved ▸ none)
    used := fun room => by
      rw [resolved] at room ⊢
      exact h.used room
    filed := fun room => by
      rw [resolved] at room ⊢
      obtain ⟨count, entries⟩ := h.filed room
      refine ⟨count, fun front j back kind split ok => ?_⟩
      rcases append_split split with ⟨-, rfl⟩ | ⟨more, split⟩
      · exact absurd ok other
      · exact entries front j more kind split ok }

/-- Two of the next 256 notices stand in different places. -/
theorem places_behind (q : Word) {i n : Nat} (h : i < n) (hn : n < 256) :
    (q + BitVec.ofNat 32 n).toNat % 256 ≠ (q + BitVec.ofNat 32 i).toNat % 256 := by
  rw [BitVec.toNat_add, BitVec.toNat_add, BitVec.toNat_ofNat, BitVec.toNat_ofNat]
  omega

/-- A member that is resolved from its sense. -/
theorem ClearedOutlets.resolve {b x : State} {pre : List OutletIx} (wf : MemWf b.mem) (h : ClearedOutlets b x pre) {k : OutletIx}
    (hk : k ∉ pre) (ok : b.clearAnswer k = .ok) (short : (b.resolvedOf pre).length < 48) :
    ClearedOutlets b ((x.faultResolved k).notice .faultCleared (numberOf k)
      (optCode FaultKind.code b.outlets[k].faultKind) (BitVec.ofNat 32 (if b.sense[k].level then 3 else 0))) (pre ++ [k]) := by
  have filed := notice_same (x.faultResolved k) .faultCleared (numberOf k) (optCode FaultKind.code b.outlets[k].faultKind)
    (BitVec.ofNat 32 (if b.sense[k].level then 3 else 0))
  have written := memStep_notice_noticeBytes (x.faultResolved k) .faultCleared (numberOf k)
    (optCode FaultKind.code b.outlets[k].faultKind) (BitVec.ofNat 32 (if b.sense[k].level then 3 else 0))
  have same := faultResolved_same x k
  have sense : x.sense = b.sense := by rw [h.same]
  have now : x.now = b.now := by rw [h.same]
  have time : x.partTime = b.partTime := by rw [State.partTime, now]; rfl
  have outlet := faultResolved_outlet x k
  rw [(h.fresh hk).1, sense, time] at outlet
  have mem : (x.faultResolved k).mem = x.mem := by rw [same]
  have resolved := resolvedOf_append b pre k
  rw [if_pos ok] at resolved
  have wf' : MemWf (x.faultResolved k).mem := mem ▸ h.memory.wf wf
  have number : numberOf k < 65536 := (numberOf_outlet_lt k).trans (by decide)
  have code : optCode FaultKind.code b.outlets[k].faultKind < 256 := 
    optCode_lt (fun kind => by cases kind <;> decide) (by decide) _
  have roomThen (room : logUsed b.mem + (b.resolvedOf (pre ++ [k])).length ≤ 256 ∨
      (b.resolvedOf (pre ++ [k])).length ≤ 1 ∧ b.logFull = false) : (x.faultResolved k).logFull = false := by
    rw [resolved] at room
    rcases room with room | ⟨one, room⟩
    · refine room_of_used ?_
      rw [mem, h.used (by omega)]
      omega
    · have none : b.resolvedOf pre = [] := List.length_eq_zero_iff.mp (by omega)
      rwa [State.logFull, State.writeCount, mem, h.quiet none]
  have here (j : OutletIx) : j ∈ pre ++ [k] ↔ j ∈ pre ∨ j = k := by rw [List.mem_append, List.mem_singleton]
  refine {
    same := by rw [filed, same, h.same]
    outlets := fun j => ?_
    shed := fun r => ?_
    memory := h.memory.trans (mem ▸ written)
    quiet := fun none => ?_
    used := fun room => ?_
    filed := fun room => ?_ }
  · rw [filed]
    dsimp only
    by_cases hj : j = k
    · rw [hj, outlet, if_pos ⟨(here k).mpr (.inr rfl), ok⟩]
    · rw [faultResolved_other x hj, h.outlets j]
      exact if_congr (mem_append_last fun same => absurd same hj).symm rfl rfl
  · rw [filed]
    dsimp only
    rw [faultResolved_shed, sense]
    split
    case isTrue level =>
      refine leaveRound_without b.shed[r] (fun j => j ∈ pre ∧ b.clearAnswer j = .ok ∧ b.sense[j].level = true) _ k (fun j => ?_)
        (by rw [h.shed r])
      rw [here j, or_and_right]
      exact or_congr_right ⟨And.left, fun same => ⟨same, same ▸ ⟨ok, level⟩⟩⟩
    case isFalse level =>
      rw [h.shed r]
      exact without_congr _ fun j => mem_append_last fun same on => level (same ▸ on.2)
  · rw [none] at resolved
    simp at resolved
  · rw [resolved] at room ⊢
    have usedThen := h.used (by omega)
    rw [notice_log wf' (by rw [mem, usedThen]; omega) _ number code, mem, usedThen]
    omega
  · have noticed := notice_noticed wf' (roomThen room) .faultCleared number code
      (BitVec.ofNat 32 (if b.sense[k].level then 3 else 0))
    rw [resolved] at room ⊢
    obtain ⟨count, entries⟩ := h.filed (room.imp (fun h => by omega) (And.imp_left fun h => by omega))
    have before : (x.faultResolved k).writeCount = b.writeCount + BitVec.ofNat 32 (b.resolvedOf pre).length := by
      rw [← count, State.writeCount, mem, State.writeCount]
    have level : BitVec.ofNat 32 (if b.sense[k].level then 3 else 0) = if b.sense[k].level then (3 : Word) else 0 := by
      split <;> rfl
    have place := noticed.entry
    have stamp : (x.faultResolved k).partTime = b.partTime := by rw [← time, same]; rfl
    rw [before, stamp] at place
    refine ⟨?_, fun front j back kind split okj hkind => ?_⟩
    · rw [noticed.count, before, add_assoc, BitVec.ofNat_add]
      rfl
    · rcases append_split split with ⟨rfl, rfl⟩ | ⟨more, split⟩
      · generalize State.notice _ _ _ _ _ = y at place ⊢
        rw [hkind, level] at place
        exact place
      · refine notice_keeps wf' ?_ number code (mem ▸ entries front j more kind split okj hkind)
        have inner : (b.resolvedOf front).length < (b.resolvedOf pre).length := by
          rw [split, State.resolvedOf, State.resolvedOf, List.filter_append, List.length_append, List.filter_cons,
            decide_eq_true okj, if_pos rfl, List.length_cons]
          omega
        rw [before]
        exact places_behind b.writeCount inner (by omega)

/-- R71: a member of the order, and its answer. -/
theorem ClearedOutlets.member {b x : State} {pre : List OutletIx} (wf : MemWf b.mem) (h : ClearedOutlets b x pre) {k : OutletIx}
    (hk : k ∉ pre) (short : (b.resolvedOf pre).length < 48) :
    ClearedOutlets b (x.clearFaultMember k).1 (pre ++ [k]) ∧ (x.clearFaultMember k).2 = b.clearAnswer k ∧
      (x.clearFaultMember k).1.orders = x.orders := by
  obtain ⟨outlet, answer⟩ := h.fresh hk
  by_cases ok : b.clearAnswer k = .ok
  · have sense : x.sense = b.sense := by rw [h.same]
    have resolve := h.resolve wf hk ok short
    rw [clearFaultMember_cleared (answer.trans ok), outlet, sense]
    refine ⟨resolve, ok.symm, ?_⟩
    dsimp only
    rw [notice_same, faultResolved_same]
  · rw [clearFaultMember_other (answer ▸ ok), answer]
    exact ⟨h.kept ok, rfl, rfl⟩

/-! ### The answers of all members (R179) -/

/-- The members of an order of which those of `pre` have been answered. -/
def answeredOf (a : OutletIx → MemberOutcome) (ms pre : List OutletIx) : List (OutletIx × Option MemberOutcome) :=
  ms.map fun j => (j, if j ∈ pre then some (a j) else none)

theorem answered_answeredOf (a : OutletIx → MemberOutcome) (ms : List OutletIx) {pre : List OutletIx} {k : OutletIx}
    (hk : k ∉ pre) : answered (answeredOf a ms pre) k (a k) = answeredOf a ms (pre ++ [k]) := by
  rw [answered, answeredOf, answeredOf, List.map_map]
  refine List.map_congr_left fun j _ => ?_
  by_cases hj : j = k
  · subst hj
    simp [hk]
  · simp [hj]

theorem answeredOf_all (a : OutletIx → MemberOutcome) (ms : List OutletIx) :
    answeredOf a ms ms = ms.map fun j => (j, some (a j)) :=
  List.map_congr_left fun j hj => by rw [if_pos hj]

theorem answeredOf_none (a : OutletIx → MemberOutcome) (ms : List OutletIx) :
    answeredOf a ms [] = ms.map fun j => (j, none) :=
  List.map_congr_left fun j _ => by rw [if_neg List.not_mem_nil]

theorem membersResult_answers (ms : List OutletIx) (a : OutletIx → MemberOutcome) :
    membersResult (ms.map fun j => (j, some (a j))) = resultOf ms a := by
  have done : (ms.map fun j => (j, some (a j))).filter (fun m => m.2 == some .ok) =
      (ms.filter fun j => a j = .ok).map fun j => (j, some (a j)) := by
    rw [List.filter_map]
    exact congrArg _ (List.filter_congr fun j _ => Option.some_beq_some.trans (Bool.beq_eq_decide_eq _ _))
  have bad : (ms.map fun j => (j, some (a j))).find? (fun m => m.2 != some .ok) =
      (ms.filter fun j => a j ≠ .ok).head?.map fun j => (j, some (a j)) := by
    rw [List.find?_map, List.head?_filter]
    congr 2
    funext j
    simp [bne, Bool.beq_eq_decide_eq]
  have firsts (l : List OutletIx) : (l.map fun j => (j, some (a j))).map (·.1) = l := by
    rw [List.map_map]
    exact List.map_id l
  have inFailed (r : MemberOutcome) : r.inFailed = decide (r ≠ .ok ∧ r ≠ .skipped) := by cases r <;> rfl
  unfold membersResult resultOf
  simp only [done, bad, firsts]
  congr 1
  · rw [Option.isNone_map]
    cases h : ms.filter fun j => a j ≠ .ok with
    | nil => simp
    | cons x l =>
      simp only [List.head?_cons, Option.isNone_some, Bool.false_eq_true, if_false, reduceCtorEq, List.isEmpty_iff,
        List.map_eq_nil_iff, List.filter_eq_nil_iff, decide_eq_true_eq]
      by_cases some : ∃ k ∈ ms, a k = .ok
      · rw [if_pos some, if_neg fun none => by obtain ⟨k, hk, ok⟩ := some; exact none k hk ok]
      · rw [if_neg some, if_pos fun k hk ok => some ⟨k, hk, ok⟩]
  · cases ms.filter fun j => a j ≠ .ok <;> rfl
  · cases ms.filter fun j => a j ≠ .ok <;> rfl
  · rw [List.filter_map, firsts]
    exact List.filter_congr fun j _ => by simp [inFailed]
  · rw [List.filter_map, firsts]
    exact List.filter_congr fun j _ => Option.some_beq_some.trans (Bool.beq_eq_decide_eq _ _)

theorem resolvedOf_short (b : State) {pre back : List OutletIx} {k : OutletIx} (nodup : (pre ++ k :: back).Nodup) :
    (b.resolvedOf pre).length < 48 := by
  have all := nodup.length_le_card
  have part : (b.resolvedOf pre).length ≤ pre.length := List.length_filter_le _ _
  rw [List.length_append, List.length_cons, Fintype.card_fin] at all
  omega

/-- R179: an order all of whose members are answered by their steps. `R pre x` says what the steps of the members `pre` have
made of the state apart from the order table. -/
structure MemberSteps (b : State) (e : SlotNo) (ms : List OutletIx) (a : OutletIx → MemberOutcome) (step : State → OutletIx → State)
    (R : List OutletIx → State → Prop) : Prop where
  start : R [] b
  table : ∀ pre x entry, R pre x → R pre (x.setOrder e entry)
  member : ∀ pre k back x, ms = pre ++ k :: back → R pre x →
    ∃ y, R (pre ++ [k]) y ∧ y.orders = x.orders ∧ step x k = y.orderReply e k (a k)

/-- The members before the last. -/
theorem MemberSteps.before {b : State} {e : SlotNo} {f : SlotFields} {ms : List OutletIx} {a : OutletIx → MemberOutcome}
    {step : State → OutletIx → State} {R : List OutletIx → State → Prop} (steps : MemberSteps b e ms a step R) (nodup : ms.Nodup)
    (order : b.orders[e] = some { fields := f, members := answeredOf a ms [], record := none })
    {pre back : List OutletIx} (split : ms = pre ++ back) (more : back ≠ []) :
    R pre (pre.foldl step b) ∧
      (pre.foldl step b).orders[e] = some { fields := f, members := answeredOf a ms pre, record := none } ∧
      ∀ j : SlotNo, j ≠ e → (pre.foldl step b).orders[j] = b.orders[j] := by
  induction pre using List.reverseRecOn generalizing back with
  | nil => exact ⟨steps.start, order, fun _ _ => rfl⟩
  | append_singleton pre k ih =>
    rw [List.append_assoc, List.singleton_append] at split
    obtain ⟨done, held, others⟩ := ih split (List.cons_ne_nil k back)
    obtain ⟨y, next, orders, reply⟩ := steps.member pre k back _ split done
    obtain ⟨-, later, apart⟩ := List.nodup_append.mp (split ▸ nodup)
    have fresh : k ∉ pre := fun hk => apart k hk k List.mem_cons_self rfl
    obtain ⟨j, tail, rfl⟩ := List.exists_cons_of_ne_nil more
    have out : j ∉ pre ++ [k] := fun hj => by
      rcases List.mem_append.mp hj with hj | hj
      · exact apart j hj j (List.mem_cons_of_mem _ List.mem_cons_self) rfl
      · rw [List.mem_singleton] at hj
        exact (List.nodup_cons.mp later).1 (hj ▸ List.mem_cons_self)
    have still : ∃ m ∈ answered (answeredOf a ms pre) k (a k), m.2 = none := by
      rw [answered_answeredOf _ _ fresh]
      refine ⟨(j, none), List.mem_map.mpr ⟨j, ?_, by rw [if_neg out]⟩, rfl⟩
      rw [split]
      exact List.mem_append_right _ (List.mem_cons_of_mem _ List.mem_cons_self)
    rw [List.foldl_append, List.foldl_cons, List.foldl_nil, reply, orderReply_open (orders ▸ held) still,
      answered_answeredOf _ _ fresh]
    exact ⟨steps.table _ _ _ next, setOrder_same _ _ _, fun i hi => by rw [setOrder_other _ _ hi, orders, others i hi]⟩

/-- The whole order: the steps of its members, and the result. -/
theorem MemberSteps.all {b : State} {e : SlotNo} {f : SlotFields} {ms : List OutletIx} {a : OutletIx → MemberOutcome}
    {step : State → OutletIx → State} {R : List OutletIx → State → Prop} (steps : MemberSteps b e ms a step R) (nodup : ms.Nodup)
    (nonempty : ms ≠ []) (order : b.orders[e] = some { fields := f, members := answeredOf a ms [], record := none }) :
    ∃ y : State, R ms y ∧ (∃ entry, y.orders[e] = Option.some entry) ∧ (∀ j : SlotNo, j ≠ e → y.orders[j] = b.orders[j]) ∧
      ms.foldl step b = y.finishOrder e (resultOf ms a) := by
  obtain ⟨pre, k, rfl⟩ : ∃ pre k, ms = pre ++ [k] := by
    rcases List.eq_nil_or_concat ms with none | ⟨pre, k, split⟩
    · exact absurd none nonempty
    · exact ⟨pre, k, split.trans List.concat_eq_append⟩
  obtain ⟨done, held, others⟩ := steps.before nodup order rfl (List.cons_ne_nil k [])
  obtain ⟨y, next, orders, reply⟩ := steps.member pre k [] _ rfl done
  obtain ⟨-, -, apart⟩ := List.nodup_append.mp nodup
  have fresh : k ∉ pre := fun hk => apart k hk k List.mem_cons_self rfl
  have all : ∀ m ∈ answered (answeredOf a (pre ++ [k]) pre) k (a k), m.2 ≠ none := by
    rw [answered_answeredOf _ _ fresh, answeredOf_all]
    intro m hm
    obtain ⟨j, -, rfl⟩ := List.mem_map.mp hm
    exact Option.some_ne_none _
  have last := orderReply_last (s := y) (orders ▸ held) (k := k) (r := a k) all
  rw [answered_answeredOf _ _ fresh, answeredOf_all, membersResult_answers] at last
  rw [List.foldl_append, List.foldl_cons, List.foldl_nil, reply, last]
  exact ⟨_, steps.table _ _ _ next, ⟨_, setOrder_same _ _ _⟩,
    fun i hi => by rw [setOrder_other _ _ hi, orders, others i hi], rfl⟩

/-- R172, R179: the order of slot `e` taken from the head of the FIFO, its members unanswered. -/
def State.enrolled (s : State) (e : SlotNo) (rest : List SlotNo) (ms : List OutletIx) : State :=
  (s.hold e rest).enroll e (slotFields s.mem e) ms

theorem enrolled_mem (s : State) (e : SlotNo) (rest : List SlotNo) (ms : List OutletIx) :
    (s.enrolled e rest ms).mem = (s.hold e rest).mem := by
  rw [State.enrolled, State.enroll, State.setOrder_mem]

theorem enrolled_same (s : State) (e : SlotNo) (rest : List SlotNo) (ms : List OutletIx) : s.enrolled e rest ms = { s with
    fifo := rest, mem := (s.enrolled e rest ms).mem, orders := (s.enrolled e rest ms).orders } := by
  rw [enrolled_mem, State.enrolled, State.enroll]
  have held := hold_same s e rest
  generalize s.hold e rest = v at *
  rw [held, State.setOrder]

theorem enrolled_order (s : State) (e : SlotNo) (rest : List SlotNo) (ms : List OutletIx) : (s.enrolled e rest ms).orders[e] =
    some { fields := slotFields s.mem e, members := ms.map fun k => (k, none), record := none } := by
  rw [State.enrolled, State.enroll, setOrder_same]

theorem enrolled_other (s : State) {e j : SlotNo} (rest : List SlotNo) (ms : List OutletIx) (h : j ≠ e) :
    (s.enrolled e rest ms).orders[j] = s.orders[j] := by
  rw [State.enrolled, State.enroll, setOrder_other _ _ h, hold_orders_other s rest h]

theorem enrolled_memory (s : State) (e : SlotNo) (rest : List SlotNo) (ms : List OutletIx) :
    MemStep (slotBytes e) s.mem (s.enrolled e rest ms).mem := by
  rw [enrolled_mem]
  exact memStep_hold s e rest

theorem enrolled_log (s : State) (e : SlotNo) (rest : List SlotNo) (ms : List OutletIx) :
    (s.enrolled e rest ms).logFull = s.logFull ∧ (s.enrolled e rest ms).writeCount = s.writeCount := by
  have log := hold_log s e rest
  unfold State.logFull State.writeCount at log ⊢
  rw [enrolled_mem]
  exact log

theorem enrolled_taken {s : State} (wf : MemWf s.mem) (e : SlotNo) (rest : List SlotNo) (ms : List OutletIx) :
    slotState (s.enrolled e rest ms).mem e = 2 := by
  rw [enrolled_mem]
  exact slotState_hold e rest wf

/-- The members of a CLEAR_FAULT order, one after another. -/
theorem clearFaultMembers_steps {b : State} (e : SlotNo) {ms : List OutletIx} (wf : MemWf b.mem) (nodup : ms.Nodup) :
    MemberSteps b e ms b.clearAnswer (fun s k => (s.clearFaultMember k).1.orderReply e k (s.clearFaultMember k).2)
      fun pre x => ClearedOutlets b x pre where
  start := .refl b
  table _ _ _ cleared := cleared.setOrder e _
  member pre k back x split cleared := by
    have distinct := split ▸ nodup
    obtain ⟨-, -, apart⟩ := List.nodup_append.mp distinct
    have fresh : k ∉ pre := fun hk => apart k hk k List.mem_cons_self rfl
    obtain ⟨next, answer, orders⟩ := cleared.member wf fresh (resolvedOf_short b distinct)
    exact ⟨_, next, orders, by rw [answer]⟩

theorem exec_clearFault_end {s : State} (h : s.resetting = none) (t : Nat) : exec (.clearFault t) s =
    .next (((s.advance t).takeMembers .clearFault fun e f ms s => s.clearFaultMembers e f ms).eventEnd (s.advance t)) :=
  congrArg Host.Outcome.next (event_end h t _)

theorem without_none (r : ShedRec) {F : OutletIx → Prop} [DecidablePred F] (h : ∀ j, ¬F j) : r.without F = r := by
  simp [ShedRec.without, h]

/-- Settles O35: the members one after another, and the end of the order with the last. -/
theorem clearFaultFollowsSense : Obligations.ClearFaultFollowsSense := by
  unfold Obligations.ClearFaultFollowsSense
  intro s t e rest ms ⟨running, wf, head, posted, kind⟩ due resolved now level answer cleared foundOn
  obtain ⟨nodup, nonempty⟩ := resolveTargets_ok resolved
  have work : (s.advance t).takeMembers .clearFault (fun e f ms s => s.clearFaultMembers e f ms) =
      ((s.advance t).hold e rest).clearFaultMembers e (slotFields s.mem e) ms :=
    takeMembers_of_head (s := s.advance t) head posted kind resolved _
  have start : ((s.advance t).hold e rest).clearFaultMembers e (slotFields s.mem e) ms =
      ms.foldl (fun s k => (s.clearFaultMember k).1.orderReply e k (s.clearFaultMember k).2) ((s.advance t).enrolled e rest ms) := rfl
  have base := enrolled_same (s.advance t) e rest ms
  have order := enrolled_order (s.advance t) e rest ms
  have elsewhere {j : SlotNo} (hj : j ≠ e) := enrolled_other (s.advance t) rest ms hj
  have taken := enrolled_memory (s.advance t) e rest ms
  have count := enrolled_log (s.advance t) e rest ms
  generalize (s.advance t).enrolled e rest ms = b at *
  have answers : answer = b.clearAnswer := by
    rw [base]
    rfl
  clear_value answer
  subst answers
  have order' : b.orders[e] = some { fields := slotFields s.mem e, members := answeredOf b.clearAnswer ms [], record := none } := by
    rw [order, answeredOf_none]
    rfl
  have wf' : MemWf b.mem := taken.wf wf
  obtain ⟨y, done, ⟨entry, held⟩, others, finished⟩ := (clearFaultMembers_steps e wf' nodup).all nodup nonempty order'
  have short : (b.resolvedOf ms).length ≤ ms.length := List.length_filter_le _ _
  have few : ms.length ≤ 48 := nodup.length_le_card.trans (by rw [Fintype.card_fin])
  have ends := finishOrder_same held (resultOf ms b.clearAnswer)
  have result := orderFinished_finishOrder (done.memory.wf wf') held (resultOf ms b.clearAnswer)
  have written := memStep_finishOrder held (resultOf ms b.clearAnswer)
  have kept {q : Word} := finishOrder_keeps (q := q) (done.memory.wf wf') held (resultOf ms b.clearAnswer)
  have elsewhere' {j : SlotNo} (hj : j ≠ e) := finishOrder_orders_other (s := y) hj (resultOf ms b.clearAnswer)
  rw [exec_clearFault_end running, work, start, finished]
  generalize y.finishOrder e (resultOf ms b.clearAnswer) = z at *
  have due' : z.scanDue = false := by
    rw [ends, done.same, base]
    exact due
  have outlets (k : OutletIx) : z.outlets[k] = y.outlets[k] := by rw [ends]
  have start' (k : OutletIx) : b.outlets[k] = s.outlets[k] := by rw [base]; rfl
  have sense' (k : OutletIx) : b.sense[k].level = level k := by rw [base]; rfl
  have bytes : sameBytesOutside (fun a => slotBytes e a || noticeBytes a) s.mem z.mem := fun a ha => by
    obtain ⟨slot, log⟩ := Bool.or_eq_false_iff.mp ha
    rw [written.bytes a ha, done.memory.bytes a log, taken.bytes a slot]
    rfl
  have plain := eventEnd_plain due' (s.advance t)
  have published : orderFinished (z.eventEnd (s.advance t)) e (resultOf ms b.clearAnswer) := by
    rw [State.eventEnd, scanIfDue_of_not_due due']
    exact orderFinished_published result
  have entries {q : Word} {kind : NoticeKind} {subject reason : Nat} {stamp value : Word} :=
    eventEnd_logEntry (v := z) (old := s.advance t) (q := q) (kind := kind) (subject := subject) (reason := reason)
      (stamp := stamp) (value := value)
  have guarded := eventEnd_memory z (s.advance t)
  refine ⟨_, rfl, ?_, published, fun j hj => ?_, fun k hk => ?_, fun k hk => ?_, fun r => ?_,
    fun front k back kind split ok hkind room => ?_, fun none => ?_, fun a ha => ?_⟩
  · generalize z.eventEnd (s.advance t) = u at *
    rw [plain, ends, done.same, base]
    rfl
  · rw [plain]
    exact (elsewhere' hj).trans ((others j hj).trans (elsewhere hj))
  · rw [plain]
    exact (outlets k).trans ((done.outlets k).trans ((if_neg hk).trans (start' k)))
  · rw [plain]
    refine (outlets k).trans ((done.outlets k).trans ((if_pos hk).trans ?_))
    rw [start', sense', State.partTime, base]
    rfl
  · rw [plain]
    have found : y.shed[r] = s.shed[r].without fun j => (j ∈ ms ∧ b.clearAnswer j = .ok) ∧ level j = true := by
      rw [done.shed r, base]
      exact without_congr _ fun j => and_assoc
    have same : z.shed[r] = y.shed[r] := by rw [ends]
    exact same.trans found
  · have used : logUsed b.mem = logUsed s.mem := by
      have word {a : Nat} (ha : a + 4 ≤ 0x0400) : readWord b.mem a = readWord s.mem a :=
        taken.readWord a fun i hi => slotBytes_outside e (.inl (by omega))
      unfold logUsed
      rw [word (by decide), word (by decide)]
    have single (one : ms = [k]) : (b.resolvedOf ms).length ≤ 1 := by
      rw [one] at short ⊢
      exact short
    obtain ⟨last, filed⟩ := done.filed (room.imp (fun h => by omega) fun h => ⟨single h.1, count.1.trans h.2⟩)
    have place := filed front k back kind split ok (start' k ▸ hkind)
    have before : (b.resolvedOf front).length < (b.resolvedOf ms).length := by
      rw [split, State.resolvedOf, State.resolvedOf, List.filter_append, List.length_append, List.filter_cons,
        decide_eq_true ok, if_pos rfl, List.length_cons]
      omega
    have apart := places_behind b.writeCount before (by omega)
    rw [← last] at apart
    have stands := entries (kept apart place)
    have stamp : b.partTime = partOf now := by rw [State.partTime, base]; rfl
    rw [count.2, stamp, sense'] at stands
    exact stands
  · have none' (k : OutletIx) : ¬(k ∈ ms ∧ b.clearAnswer k = .ok) := none k
    have same : z.eventEnd (s.advance t) = z := by
      refine eventEnd_unchanged due' (Vector.ext fun i hi => ?_) ?_ ?_ ?_ (Vector.ext fun i hi => ?_) ?_
      · exact (outlets ⟨i, hi⟩).trans ((done.outlets ⟨i, hi⟩).trans ((if_neg (none' _)).trans (start' _)))
      · rw [ends, done.same, base]
      · rw [ends, done.same, base]
      · rw [ends, done.same, base]
      · have shed := done.shed ⟨i, hi⟩
        rw [without_none _ fun j found => none' j ⟨found.1, found.2.1⟩] at shed
        have same : z.shed[(⟨i, hi⟩ : Branch)] = y.shed[(⟨i, hi⟩ : Branch)] := by rw [ends]
        exact same.trans (shed.trans (by rw [base]; rfl))
      · rw [ends, done.same, base]
    rw [same]
    exact bytes
  · obtain ⟨own, records⟩ := Bool.or_eq_false_iff.mp ha
    rw [guarded.bytes a records, bytes a own]

end Sys2Proof.Machine
end

section
/-! PROOF. The grant that a scan makes when a spacing has elapsed (O19). -/
namespace Sys2Proof.Machine

open Sys2Proof.Safety

/-! ### The conditions of a grant (R108 to R111) -/

theorem spacingElapsed_iff {now ms : Nat} {last : Option Nat} :
    spacingElapsed now last ms = true ↔ ∀ g, last = some g → g + ms * 1000 ≤ now := by
  cases last with
  | none => exact iff_of_true rfl fun g h => nomatch h
  | some g => exact decide_eq_true_iff.trans ⟨fun h x hx => Option.some.inj hx ▸ h, fun h => h g rfl⟩

theorem fits_iff {s : State} {b : Branch} {load : Nat} : s.fits b load = true ↔
    committedLoad s b + load ≤ s.work.branches[b].budget ∨ s.work.branches[b].budget < load ∧ committedLoad s b = 0 := by
  rw [State.fits, Bool.or_eq_true, Bool.and_eq_true, decide_eq_true_iff, decide_eq_true_iff, beq_iff_eq]
  rfl

/-- The entries ahead of an entry. -/
theorem takeWhile_ahead {front back : List QueueEntry} {e : QueueEntry}
    (distinct : ((front ++ e :: back).map (·.arrival)).Nodup) :
    (front ++ e :: back).takeWhile (fun x => x.arrival != e.arrival) = front := by
  rw [List.map_append, List.map_cons] at distinct
  have apart (x : QueueEntry) (hx : x ∈ front) : (x.arrival != e.arrival) = true :=
    bne_iff_ne.mpr ((List.nodup_append.mp distinct).2.2 _ (List.mem_map_of_mem hx) _ List.mem_cons_self)
  rw [List.takeWhile_append_of_pos apart, List.takeWhile_cons_of_neg (by simp), List.append_nil]

theorem firstOfBranch_iff {s : State} {front back : List QueueEntry} {e : QueueEntry} (split : s.queue = front ++ e :: back)
    (distinct : (s.queue.map (·.arrival)).Nodup) :
    s.firstOfBranch e = true ↔ ∀ x ∈ front, s.branchOf x.outlet ≠ s.branchOf e.outlet := by
  rw [split] at distinct
  rw [State.firstOfBranch, split, takeWhile_ahead distinct, List.all_eq_true]
  exact forall₂_congr fun x _ => bne_iff_ne

theorem grantable_iff {s : State} {e : QueueEntry} : s.grantable e = true ↔
    (s.driverAvailable = true ∧ s.firstOfBranch e = true ∧ s.branchSpaced (s.branchOf e.outlet) = true ∧
      s.stripSpaced = true ∧ s.fits (s.branchOf e.outlet) (s.expectedLoad e.outlet) = true) := by
  simp only [State.grantable, Bool.and_eq_true, and_assoc]

theorem scanEntries_append (a b : List QueueEntry) (s : State) :
    scanEntries (a ++ b) s = scanEntries b (scanEntries a s) := by
  induction a generalizing s with
  | nil => rfl
  | cons e a ih => exact ih _

/-- Entries that may not go are passed over. -/
theorem scanEntries_passed {s : State} {es : List QueueEntry} (h : ∀ e ∈ es, s.grantable e = false) : scanEntries es s = s := by
  induction es with
  | nil => rfl
  | cons e es ih =>
    rw [scanEntries, if_neg (Bool.eq_false_iff.mp (h e List.mem_cons_self))]
    exact ih fun x hx => h x (List.mem_cons_of_mem _ hx)

/-! ### What stands after a grant -/

/-- Further grants add reservations and set grant instants anew. -/
structure Reserved (s u : State) : Prop where
  now : u.now = s.now
  reservations : ∀ b : Branch, ∀ r ∈ s.loads[b].reservations, r ∈ u.loads[b].reservations
  lastGrant : ∀ b : Branch, u.loads[b].lastGrant = s.loads[b].lastGrant ∨ u.loads[b].lastGrant = some s.now
  stripGrant : u.stripGrant = s.stripGrant ∨ u.stripGrant = some s.now

theorem Reserved.refl (s : State) : Reserved s s := ⟨rfl, fun _ _ => id, fun _ => .inl rfl, .inl rfl⟩

theorem Reserved.trans {s u v : State} (h : Reserved s u) (g : Reserved u v) : Reserved s v where
  now := g.now.trans h.now
  reservations b r hr := g.reservations b r (h.reservations b r hr)
  lastGrant b := (g.lastGrant b).elim (fun same => same ▸ h.lastGrant b) fun now => .inr (h.now ▸ now)
  stripGrant := g.stripGrant.elim (fun same => same ▸ h.stripGrant) fun now => .inr (h.now ▸ now)

theorem grant_loads (s : State) (e : QueueEntry) : (s.grant e).now = s.now ∧ (s.grant e).stripGrant = some s.now ∧
    (s.grant e).loads = upd s.loads (s.branchOf e.outlet) fun l =>
      { l with reservations := l.reservations ++ [(e.outlet, s.expectedLoad e.outlet)], lastGrant := some s.now } := by
  rw [grant_eq, needDriver_same]
  exact ⟨rfl, rfl, rfl⟩

theorem grant_reserved (s : State) (e : QueueEntry) : Reserved s (s.grant e) := by
  obtain ⟨now, strip, loads⟩ := grant_loads s e
  refine ⟨now, fun b r hr => ?_, fun b => ?_, .inr strip⟩
  · rw [loads, upd_at]
    split
    · exact List.mem_append_left _ hr
    · exact hr
  · rw [loads, upd_at]
    split
    · exact .inr rfl
    · exact .inl rfl

theorem scanEntries_reserved (es : List QueueEntry) (s : State) : Reserved s (scanEntries es s) := by
  induction es generalizing s with
  | nil => exact .refl s
  | cons e es ih =>
    rw [scanEntries]
    split
    · exact (grant_reserved s e).trans (ih _)
    · exact ih s

/-- A scan of other entries leaves the front of the queue. -/
theorem scanEntries_front {front back es : List QueueEntry} {s : State} (split : s.queue = front ++ back)
    (apart : ∀ e ∈ es, ∀ x ∈ front, x.arrival ≠ e.arrival) : ∃ rest, (scanEntries es s).queue = front ++ rest := by
  induction es generalizing s back with
  | nil => exact ⟨back, split⟩
  | cons e es ih =>
    rw [scanEntries]
    have others (x : QueueEntry) (hx : x ∈ es) := apart x (List.mem_cons_of_mem _ hx)
    split
    case isTrue =>
      refine ih (back := back.filter fun x => x.arrival != e.arrival) ?_ others
      rw [grant_queue, split, List.filter_append]
      congr 1
      exact List.filter_eq_self.mpr fun x hx => bne_iff_ne.mpr (apart e List.mem_cons_self x hx)
    case isFalse => exact ih split others

/-- R110: within the global spacing of a grant there is no other. -/
theorem grantable_after_grant {s : State} (spacing : 0 < s.work.strip.globalSpacing) (granted : s.stripGrant = some s.now)
    (e : QueueEntry) : s.grantable e = false := by
  refine Bool.eq_false_iff.mpr fun can => ?_
  have spaced := spacingElapsed_iff.mp (grantable_iff.mp can).2.2.2.1 s.now granted
  omega

/-- R112: what the grant of the first entry that may go leaves. -/
theorem grant_entry {s : State} {front back : List QueueEntry} {e : QueueEntry} {d : DriverNo}
    (split : s.queue = front ++ e :: back) (distinct : (s.queue.map (·.arrival)).Nodup) (free : s.freeDriver = some d) :
    (s.grant e).queue = front ++ back ∧ (s.grant e).waitList = s.waitList ∧ (s.grant e).drivers[d] ≠ .free ∧
      (∀ x : DriverNo, x ≠ d → (s.grant e).drivers[x] = s.drivers[x]) ∧
      (∀ k : OutletIx, k ≠ e.outlet → (s.grant e).outlets[k] = s.outlets[k] ∧ (s.grant e).moves[k] = s.moves[k]) ∧
      (s.grant e).outlets[e.outlet] = { s.outlets[e.outlet] with
        state := .closing, lastChange := s.partTime, retry := false, unverified := none } ∧
      Assigned s (s.grant e) d e.outlet .toClosed := by
  have other (k : OutletIx) (hk : k ≠ e.outlet) : (s.granted e).outlets[k] = s.outlets[k] := upd_other _ _ hk
  have queue : (s.grant e).queue = front ++ back := by
    rw [split, List.map_append, List.map_cons] at distinct
    obtain ⟨-, later, apart⟩ := List.nodup_append.mp distinct
    rw [grant_queue, split, List.filter_append, List.filter_cons_of_neg (by simp)]
    congr 1
    · exact List.filter_eq_self.mpr fun x hx => bne_iff_ne.mpr (apart _ (List.mem_map_of_mem hx) _ List.mem_cons_self)
    · exact List.filter_eq_self.mpr fun x hx =>
        bne_iff_ne.mpr fun same => (List.nodup_cons.mp later).1 (same ▸ List.mem_map_of_mem hx)
  have outlet := granted_outlet s e
  rw [grant_assigns free] at queue ⊢
  refine ⟨queue, by rw [assign_same]; rfl, fun still => ?_, fun x hx => assign_driver_other _ _ _ hx, fun k hk => ⟨?_, ?_⟩, ?_, ?_⟩
  · have named := assign_driver (s.granted e) d e.outlet .toClosed
    rw [still] at named
    cases named
  · rw [assign_outlet_other _ _ _ hk, other k hk]
  · exact assign_move_other (s.granted e) d .toClosed hk
  · rw [assign_outlet, outlet]
  · exact assigned_congr (assign_assigned (s.granted e) d e.outlet .toClosed) rfl rfl rfl rfl (by rw [outlet]) (by rw [outlet]) rfl
      rfl rfl

/-! ### CLOSE_SPACING_ELAPSED -/

theorem exec_spacing_end {s : State} (h : s.resetting = none) (t : Nat) (which : Option Branch) :
    exec (.closeSpacingElapsed t which) s = .next (((s.advance t).spacingScan which).eventEnd (s.advance t)) :=
  congrArg Host.Outcome.next (event_end h t _)

/-- R111: the event that a spacing triggers. -/
def State.scanning (s : State) : State := { s with scanDue := true }

theorem spacingScan_over {s : State} {which : Option Branch} (elapses : s.spacingOver which = true) (some : s.queue ≠ []) :
    (s.spacingScan which) = s.scanning := by
  rw [State.spacingScan, elapses, List.isEmpty_eq_false_iff.mpr some]
  rfl

theorem expectedLoad_eq (s : State) (k : OutletIx) : s.expectedLoad k =
    if s.work.outlets[k].expectedLoad ≠ 0 then s.work.outlets[k].expectedLoad
    else match s.outlets[k].peakOn with
      | some peak => peak
      | none => s.work.strip.defaultExpected := by
  unfold State.expectedLoad
  cases s.outlets[k].peakOn <;> rfl

/-- Settles O19: the entries ahead are passed over, the entry is granted, and what is granted behind it leaves its grant. -/
theorem elapsedSpacingGrants : Obligations.ElapsedSpacingGrants := by
  unfold Obligations.ElapsedSpacingGrants
  intro s t which front back e d running control split free lowest now branch spaced expected fits elapsed strip passed
    spacedE fitsE b load
  have queued : e ∈ s.queue := split ▸ List.mem_append_right _ List.mem_cons_self
  have elapses : (s.advance t).spacingOver which = true := by
    unfold State.spacingOver
    cases which with
    | none => exact Bool.and_eq_true_iff.mpr ⟨Option.isSome_iff_ne_none.mpr elapsed, spacingElapsed_iff.mpr strip⟩
    | some c => exact Bool.and_eq_true_iff.mpr ⟨Option.isSome_iff_ne_none.mpr elapsed.1, spacingElapsed_iff.mpr elapsed.2⟩
  have scans := spacingScan_over elapses (List.ne_nil_of_mem queued)
  have block := spacingScan_block (s.advance t) which
  rw [exec_spacing_end running]
  rw [scans] at block ⊢
  obtain ⟨v, hv⟩ : ∃ v, v = (s.advance t).scanning := ⟨_, rfl⟩
  rw [← hv] at block ⊢
  have splitV : v.queue = front ++ e :: back := by rw [hv]; exact split
  have distinct : (v.queue.map (·.arrival)).Nodup := by rw [hv]; exact control.queueArrivals.1
  have outlets : (v.queue.map (·.outlet)).Nodup := by rw [hv]; exact control.queueOutlets
  have freeV : v.freeDriver = some d := by rw [hv]; exact freeDriver_lowest free lowest
  have waiting : v.waitList = [] := by
    rw [hv]
    exact not_not.mp fun waits => control.noIdleDriver waits d free
  have loadV (x : QueueEntry) : v.expectedLoad x.outlet = expected x := by rw [expectedLoad_eq, hv]; rfl
  have spacedV (c : Branch) : v.branchSpaced c = true ↔ spaced c := by rw [hv]; exact spacingElapsed_iff
  have fitsV (x : QueueEntry) : v.fits (v.branchOf x.outlet) (v.expectedLoad x.outlet) = true ↔ fits x := by
    rw [loadV, hv]
    exact fits_iff
  have branchV (x : QueueEntry) : v.branchOf x.outlet = branch x := by rw [hv]; rfl
  have first (front back : List QueueEntry) (x : QueueEntry) (h : v.queue = front ++ x :: back) :
      v.firstOfBranch x = true ↔ ∀ y ∈ front, branch y ≠ branch x := by
    rw [firstOfBranch_iff h distinct]
    simp only [branchV]
  have ahead : scanEntries front v = v := scanEntries_passed fun x hx => Bool.eq_false_iff.mpr fun can => by
    obtain ⟨-, isFirst, spacedX, -, fitsX⟩ := grantable_iff.mp can
    obtain ⟨-, notSpaced | notFits | ⟨l, y, m, r, place, same⟩⟩ := passed x hx
    · exact notSpaced ((spacedV _).mp (branchV x ▸ spacedX))
    · exact notFits ((fitsV x).mp fitsX)
    · refine (first (l ++ y :: m) (r ++ e :: back) x ?_).mp isFirst y (by simp) same
      rw [splitV, place]
      simp
  have can : v.grantable e = true := grantable_iff.mpr
    ⟨by rw [State.driverAvailable, freeV, waiting]; rfl,
      (first front back e splitV).mpr fun x hx => (passed x hx).1,
      (spacedV _).mpr ((branchV e).symm ▸ spacedE), by rw [hv]; exact spacingElapsed_iff.mpr strip, (fitsV e).mpr fitsE⟩
  have scanned : scanEntries v.queue v = scanEntries back (v.grant e) := by
    rw [splitV, scanEntries_append, ahead, scanEntries, if_pos can]
  obtain ⟨queue, waitList, busy, drivers, others, outlet, assigned⟩ := grant_entry splitV distinct freeV
  obtain ⟨-, stripGrant, loads⟩ := grant_loads v e
  have behind := scanEntries_scanned (fun _ => id) (es := back) (v.grant e)
  have later := scanEntries_reserved back (v.grant e)
  have dueV : v.scanDue = true := by rw [hv]; rfl
  have scan : v.scanIfDue = { scanEntries back (v.grant e) with scanDue := false } := by
    rw [State.scanIfDue, if_pos dueV, State.scan, scanned]
  have apart : ∀ x ∈ back, x.outlet ≠ e.outlet := fun x hx same => by
    rw [splitV, List.map_append, List.map_cons] at outlets
    exact (List.nodup_cons.mp (List.nodup_append.mp outlets).2.1).1 (same ▸ List.mem_map_of_mem hx)
  have frontStays := scanEntries_front queue (es := back) fun y hy x hx => by
    rw [splitV, List.map_append, List.map_cons] at distinct
    exact (List.nodup_append.mp distinct).2.2 _ (List.mem_map_of_mem hx) _ (List.mem_cons_of_mem _ (List.mem_map_of_mem hy))
  have only (spacing : 0 < s.work.strip.globalSpacing) : scanEntries back (v.grant e) = v.grant e := by
    refine scanEntries_passed fun x _ => grantable_after_grant (s := v.grant e) ?_ ?_ x
    · rw [grant_eq, needDriver_same, State.granted, hv]
      exact spacing
    · rw [stripGrant, (grant_loads v e).1]
  have nowV : v.now = now := by rw [hv]; rfl
  have nowG : (v.grant e).now = now := (grant_loads v e).1.trans nowV
  generalize v.grant e = g at *
  generalize scanEntries back g = z at *
  obtain ⟨outletZ, moveZ⟩ := behind.kept e.outlet apart
  have driverZ := behind.drivers d busy
  have loadHere : (e.outlet, load) ∈ g.loads[b].reservations ∧ g.loads[b].lastGrant = some now := by
    rw [loads, branchV e, upd_same, loadV, nowV]
    exact ⟨List.mem_append_right _ (List.mem_singleton_self _), rfl⟩
  have fields := eventEnd_fields v (s.advance t)
  have result : v.eventEnd (s.advance t) = { z with scanDue := false, mem := (v.eventEnd (s.advance t)).mem } := by
    rw [eventEnd_same, scan]
  have memory := eventEnd_memory v (s.advance t)
  have measuring := eventEnd_measuring (old := s.advance t) block
  have inputs := eventEnd_inputs (old := s.advance t) block
  have bytes : v.mem = s.mem := by rw [hv]; rfl
  rw [bytes] at memory
  generalize v.eventEnd (s.advance t) = u at *
  have outletU : u.outlets[e.outlet] = { s.outlets[e.outlet] with
      state := .closing, lastChange := v.partTime, retry := false, unverified := none } := by
    rw [result]
    refine outletZ.trans (outlet.trans ?_)
    rw [hv]
    rfl
  refine ⟨_, rfl, by rw [outletU], by rw [outletU], by rw [outletU], ?_, ?_, ?_, ?_, ?_, ?_, measuring, inputs, ?_, ?_, ?_, ?_,
    ?_, memory.bytes, fun spacing => ?_⟩
  · refine assigned_congr assigned ?_ ?_ ?_ nowV.symm ?_ ?_ ?_ ?_ ?_
    iterate 5 rw [hv]; rfl
    · rw [result]
      exact driverZ
    · rw [result]
      exact moveZ
    · rw [result, outletZ]
  · rw [result]
    exact later.reservations b _ loadHere.1
  · rw [result]
    exact (later.lastGrant b).elim (fun same => same.trans loadHere.2) fun new => new.trans (congrArg _ nowG)
  · rw [result]
    exact later.stripGrant.elim (fun same => same.trans (stripGrant.trans (congrArg _ nowV))) fun new => new.trans (congrArg _ nowG)
  · rw [fields]
    exact waiting
  · rw [result]
    exact frontStays
  iterate 5 · rw [fields, hv]; rfl
  · have same := only spacing
    rw [same] at result
    have loadsU (c : Branch) : u.loads[c] = if c = b then { s.loads[b] with
        reservations := s.loads[b].reservations ++ [(e.outlet, load)], lastGrant := some now } else s.loads[c] := by
      rw [result]
      dsimp only
      rw [loads, branchV e, upd_at, loadV, nowV, hv]
      by_cases here : c = b
      · rw [if_pos here, if_pos here, here]
        rfl
      · rw [if_neg here, if_neg here]
        rfl
    refine ⟨by rw [result]; exact queue, by rw [loadsU, if_pos rfl], ?_, fun c hc => by rw [loadsU, if_neg hc], fun x hx => ?_,
      fun k hk => ?_⟩
    · rw [committedLoad, loadsU, if_pos rfl, committedLoad]
      simp only [List.map_append, List.sum_append, List.map_cons, List.map_nil, List.sum_cons, List.sum_nil]
      omega
    · rw [result]
      refine (drivers x hx).trans ?_
      rw [hv]
      rfl
    · rw [result]
      obtain ⟨o, m⟩ := others k hk
      rw [hv] at o m
      exact ⟨o, m⟩

end Sys2Proof.Machine
end

section
/-! PROOF. What the delivery of one member outcome leaves (R52). -/
namespace Sys2Proof.Machine

open Sys2Proof.Safety

/-! ### The outcome of a record's participant (R137 to R141) -/

/-- What an outcome that starts no request leaves: memberships may end, and the tables of the owners change. -/
structure Told (s u : State) : Prop where
  same : u = { s with
    outlets := u.outlets, shed := u.shed, cycles := u.cycles, watches := u.watches, orders := u.orders, mem := u.mem
    cause := u.cause }
  outlet : ∀ j : OutletIx, u.outlets[j] = { s.outlets[j] with cycle := u.outlets[j].cycle }

theorem Told.refl (s : State) : Told s s := ⟨rfl, fun _ => rfl⟩

theorem Told.trans {s u v : State} (h : Told s u) (g : Told u v) : Told s v where
  same := by rw [g.same, h.same]
  outlet j := by rw [g.outlet j, h.outlet j]

/-- A step that reaches no outlet. -/
theorem Told.of_tables {s u : State} (same : u = { s with
    shed := u.shed, cycles := u.cycles, watches := u.watches, orders := u.orders, mem := u.mem, cause := u.cause }) : Told s u :=
  have outlets : u.outlets = s.outlets := by rw [same]
  ⟨by rw [outlets]; exact same, fun j => by rw [outlets]⟩

theorem modCycle_told (s : State) (c : RecNo) (f : CycleRec → CycleRec) : Told s (s.modCycle c f) := .of_tables rfl

theorem notice_told (s : State) (kind : NoticeKind) (subject reason : Nat) (value : Word) :
    Told s (s.notice kind subject reason value) := .of_tables (by rw [notice_same])

theorem orderReply_parts (s : State) (e : SlotNo) (k : OutletIx) (r : MemberOutcome) : s.orderReply e k r = { s with
    mem := (s.orderReply e k r).mem, cause := (s.orderReply e k r).cause, orders := (s.orderReply e k r).orders } := by
  cases held : s.orders[e] with
  | none =>
    have none : s.orderReply e k r = s := by simp only [State.orderReply, held]
    rw [none]
  | some entry =>
    rw [orderReply_eq held]
    split
    · rw [finishOrder_parts]
      rfl
    · rfl

theorem orderReply_told (s : State) (e : SlotNo) (k : OutletIx) (r : MemberOutcome) : Told s (s.orderReply e k r) :=
  .of_tables (by rw [orderReply_parts])

theorem restoreReply_told (s : State) (b : Branch) (k : OutletIx) (r : MemberOutcome) : Told s (s.restoreReply b k r) :=
  .of_tables rfl

/-- R145: what the end of a record leaves, and the record itself. -/
theorem endRecord_told (s : State) (c : RecNo) : Told s (s.endRecord c) ∧ (s.endRecord c).cycles[c] = CycleRec.free ∧
    (∀ d : RecNo, d ≠ c → (s.endRecord c).cycles[d] = s.cycles[d]) ∧ (s.endRecord c).shed = s.shed ∧
    ∀ j : OutletIx, (s.endRecord c).outlets[j].cycle =
      if j ∈ s.cycles[c].participants then none else s.outlets[j].cycle := by
  rw [endRecord_parts]
  obtain ⟨v, hv⟩ : ∃ v : State, v = { s with outlets := tab fun j =>
      if j ∈ s.cycles[c].participants then { s.outlets[j] with cycle := none } else s.outlets[j] } := ⟨_, rfl⟩
  have outlet (j : OutletIx) : v.outlets[j] =
      if j ∈ s.cycles[c].participants then { s.outlets[j] with cycle := none } else s.outlets[j] := by rw [hv]; exact tab_at _ j
  rw [← hv]
  have told := tellAll_same v c s.cycles[c] s.cycles[c].origins
  generalize v.tellAll c s.cycles[c] s.cycles[c].origins = x at told
  have outlets : x.outlets = v.outlets := by rw [told]
  refine ⟨⟨?_, fun j => ?_⟩, upd_same _ _ _, fun d hd => (upd_other _ _ hd).trans (by rw [told, hv]), ?_, fun j => ?_⟩
  · rw [State.modCycle, told, hv]
  · rw [State.modCycle_outlets, outlets, outlet j]
    split <;> rfl
  · rw [State.modCycle, told, hv]
  · rw [State.modCycle_outlets, outlets, outlet j]
    split <;> rfl

/-- R141: a record all of whose participants are settled ends; another one stays. -/
theorem settled_iff (r : CycleRec) : r.settled = true ↔ allSettled r := by
  rw [CycleRec.settled, List.all_eq_true]
  refine forall₂_congr fun j _ => ?_
  simp only [Bool.or_eq_true, decide_eq_true_eq, or_assoc]

theorem testEnd_becomes {s : State} {c : RecNo} {r : CycleRec} (record : s.cycles[c] = r)
    (state : r.state = .closing ∨ r.state = .restoring) : recordBecomes (s.testEnd c) c r := by
  subst record
  unfold State.testEnd
  refine ⟨fun all => ?_, fun more => ?_⟩
  · obtain ⟨-, free, -, -, cycle⟩ := endRecord_told s c
    rw [if_pos ⟨state, (settled_iff _).mpr all⟩]
    exact ⟨free, fun j hj => (cycle j).trans (if_pos hj)⟩
  · rw [if_neg fun h => more ((settled_iff _).mp h.2)]

theorem testEnd_told (s : State) (c : RecNo) : Told s (s.testEnd c) ∧ (s.testEnd c).shed = s.shed ∧
    ∀ d : RecNo, d ≠ c → (s.testEnd c).cycles[d] = s.cycles[d] := by
  unfold State.testEnd
  dsimp only
  split
  · obtain ⟨told, -, others, shed, -⟩ := endRecord_told s c
    exact ⟨told, shed, others⟩
  · exact ⟨.refl s, rfl, fun _ _ => rfl⟩

theorem testResting_told (s : State) (c : RecNo) : Told s (s.testResting c) ∧ (s.testResting c).shed = s.shed := by
  unfold State.testResting
  split
  · exact ⟨modCycle_told s c _, rfl⟩
  · exact ⟨.refl s, rfl⟩

theorem recordBecomes_congr {u v : State} {c : RecNo} {r : CycleRec} (h : recordBecomes u c r) (cycles : v.cycles[c] = u.cycles[c])
    (cycle : ∀ j : OutletIx, v.outlets[j].cycle = u.outlets[j].cycle) : recordBecomes v c r :=
  ⟨fun all => ⟨cycles.trans (h.1 all).1, fun j hj => (cycle j).trans ((h.1 all).2 j hj)⟩, fun more => cycles.trans (h.2 more)⟩

theorem fail_eq (r : CycleRec) (k : OutletIx) : r.fail k = withFailed r k := by
  unfold CycleRec.fail withFailed
  split
  · rfl
  · cases r.faultOutlet <;> rfl

theorem withFailed_state (r : CycleRec) (k : OutletIx) : (withFailed r k).state = r.state := by
  unfold withFailed
  split <;> rfl

/-! ### A member outcome at its record -/

theorem cycleReply_stranger {s : State} {c : RecNo} {k : OutletIx} (h : k ∉ s.cycles[c].participants) (d : Dir) (r : MemberOutcome) :
    s.cycleReply c k d r = (s, []) := if_pos h

/-- R141: PATIENCE and FAULTED at a record on its way back. -/
theorem cycleReply_failed {s : State} {c : RecNo} {k : OutletIx} (h : k ∈ s.cycles[c].participants)
    (state : s.cycles[c].state = .closing ∨ s.cycles[c].state = .restoring) {r : MemberOutcome}
    (bad : r = .patience ∨ r = .faulted) (d : Dir) :
    s.cycleReply c k d r = ((s.modCycle c fun r => r.fail k).testEnd c, []) := by
  rcases state with state | state <;> rcases bad with rfl | rfl <;>
    simp only [State.cycleReply, h, not_true_eq_false, if_false, state]

/-- R141: OK of a close at a record on its way back. -/
theorem cycleReply_closed {s : State} {c : RecNo} {k : OutletIx} (h : k ∈ s.cycles[c].participants)
    (state : s.cycles[c].state = .closing ∨ s.cycles[c].state = .restoring) : s.cycleReply c k .toClosed .ok =
      ((s.modCycle c fun r => { r with closed := r.closed ++ [k] }).testEnd c, []) := by
  rcases state with state | state <;> simp only [State.cycleReply, h, not_true_eq_false, if_false, state]

/-- R137, R138: OK of an open at a record that opens. -/
theorem cycleReply_opened {s : State} {c : RecNo} {k : OutletIx} (h : k ∈ s.cycles[c].participants)
    (state : s.cycles[c].state = .opening) (d : Dir) : s.cycleReply c k d .ok = (s.testResting c, []) := by
  simp only [State.cycleReply, h, not_true_eq_false, if_false, state]

/-- An outcome other than FAULTED asks for nothing. -/
theorem cycleReply_told {s : State} (c : RecNo) (k : OutletIx) (d : Dir) {r : MemberOutcome} (quiet : r ≠ .faulted) :
    Told s (s.cycleReply c k d r).1 ∧ (s.cycleReply c k d r).2 = [] ∧ (s.cycleReply c k d r).1.shed = s.shed := by
  have same : Told s s ∧ ([] : List Reply) = [] ∧ s.shed = s.shed := ⟨.refl s, rfl, rfl⟩
  have ended (f : CycleRec → CycleRec) : Told s ((s.modCycle c f).testEnd c) ∧ ([] : List Reply) = [] ∧
      ((s.modCycle c f).testEnd c).shed = s.shed := by
    obtain ⟨told, shed, -⟩ := testEnd_told (s.modCycle c f) c
    exact ⟨(modCycle_told s c f).trans told, rfl, shed⟩
  by_cases h : k ∈ s.cycles[c].participants
  · unfold State.cycleReply
    rw [if_neg fun out => out h]
    cases s.cycles[c].state with
    | free =>
      cases r <;> exact same
    | opening =>
      cases r with
      | faulted => exact absurd rfl quiet
      | ok =>
        exact ⟨(testResting_told s c).1, rfl, (testResting_told s c).2⟩
      | skipped | superseded | patience | inCycle | unknownState => exact same
    | resting =>
      cases r with
      | faulted => exact absurd rfl quiet
      | ok | skipped | superseded | patience | inCycle | unknownState => exact same
    | closing =>
      cases r with
      | faulted => exact absurd rfl quiet
      | ok =>
        cases d with
        | toClosed => exact ended _
        | toOpen => exact same
      | patience => exact ended _
      | skipped => exact ⟨modCycle_told s c _, rfl, rfl⟩
      | superseded | inCycle | unknownState => exact same
    | restoring =>
      cases r with
      | faulted => exact absurd rfl quiet
      | ok =>
        cases d with
        | toClosed => exact ended _
        | toOpen => exact same
      | patience => exact ended _
      | skipped | superseded | inCycle | unknownState => exact same
  · rw [cycleReply_stranger h]
    exact same

/-! ### Delivery to one owner (R52) -/

/-- The outcome `r` of a request on outlet `k`, delivered to its owner. -/
def State.tell (s : State) (w : Owner) (k : OutletIx) (d : Dir) (r : MemberOutcome) : State :=
  deliver 18 [{ owner := w, outlet := k, dir := d, outcome := r }] s

theorem tell_eq (s : State) (w : Owner) (k : OutletIx) (d : Dir) (r : MemberOutcome) :
    s.tell w k d r = deliverOne 17 s { owner := w, outlet := k, dir := d, outcome := r } := by
  rw [State.tell, deliver_succ, List.foldl_cons, List.foldl_nil]

theorem tell_order (s : State) (e : SlotNo) (k : OutletIx) (d : Dir) (r : MemberOutcome) :
    s.tell (.order e) k d r = s.orderReply e k r := by rw [tell_eq, deliverOne]

theorem tell_shed (s : State) (b : Branch) (k : OutletIx) (d : Dir) (r : MemberOutcome) : s.tell (.shed b) k d r = s := by
  rw [tell_eq, deliverOne]

theorem tell_restore (s : State) (b : Branch) (k : OutletIx) (d : Dir) (r : MemberOutcome) :
    s.tell (.restore b) k d r = s.restoreReply b k r := by rw [tell_eq, deliverOne]

theorem tell_cycle {s u : State} {c : RecNo} {k : OutletIx} {d : Dir} {r : MemberOutcome} (h : s.cycleReply c k d r = (u, [])) :
    s.tell (.cycle c) k d r = u := by
  rw [tell_eq, deliverOne]
  dsimp only
  rw [h, deliver_nil]

theorem settle_one {a : State × List Reply} {w : Owner} {k : OutletIx} {d : Dir} {r : MemberOutcome}
    (h : a.2 = [{ owner := w, outlet := k, dir := d, outcome := r }]) : settle a = a.1.tell w k d r := by
  rw [settle, h, State.tell]

/-- What an outcome other than FAULTED leaves, by its owner. -/
theorem tell_told (s : State) (w : Owner) (k : OutletIx) (d : Dir) {r : MemberOutcome} (quiet : r ≠ .faulted) :
    Told s (s.tell w k d r) := by
  cases w with
  | order e => exact tell_order s e k d r ▸ orderReply_told s e k r
  | shed b => exact tell_shed s b k d r ▸ .refl s
  | restore b => exact tell_restore s b k d r ▸ restoreReply_told s b k r
  | cycle c =>
    obtain ⟨told, none, -⟩ := cycleReply_told (s := s) c k d quiet
    rw [tell_cycle (Prod.ext rfl none)]
    exact told

/-- Only a record's outcome reaches outlets, records, watches and the orders that did not own the request. -/
theorem tell_beyond (s : State) {w : Owner} (plain : ∀ c, w ≠ .cycle c) (k : OutletIx) (d : Dir) (r : MemberOutcome) :
    (s.tell w k d r).outlets = s.outlets ∧ (s.tell w k d r).cycles = s.cycles ∧ (s.tell w k d r).watches = s.watches ∧
      ∀ e, w ≠ .order e → OrderKept e s (s.tell w k d r) := by
  cases w with
  | order e =>
    have same := orderReply_parts s e k r
    rw [tell_order]
    refine ⟨?_, ?_, ?_, fun j hj => orderReply_orderKept (fun h => hj (by rw [h])) s k r⟩
    iterate 3 rw [same]
  | shed b =>
    rw [tell_shed]
    exact ⟨rfl, rfl, rfl, fun e _ => .refl e s⟩
  | restore b =>
    rw [tell_restore]
    exact ⟨rfl, rfl, rfl, fun e _ => .of_same rfl rfl rfl rfl⟩
  | cycle c => exact absurd rfl (plain c)

/-- R126: only a restore close's outcome reaches the shed monitor. -/
theorem tell_monitor (s : State) {w : Owner} (plain : ∀ b, w ≠ .restore b) (k : OutletIx) (d : Dir) {r : MemberOutcome}
    (quiet : r ≠ .faulted) : (s.tell w k d r).shed = s.shed := by
  cases w with
  | order e => rw [tell_order, orderReply_parts]
  | shed b => rw [tell_shed]
  | restore b => exact absurd rfl (plain b)
  | cycle c =>
    obtain ⟨-, none, shed⟩ := cycleReply_told (s := s) c k d quiet
    rw [tell_cycle (Prod.ext rfl none)]
    exact shed

theorem tell_answered {s : State} (wf : MemWf s.mem) (e : SlotNo) (k : OutletIx) (d : Dir) (r : MemberOutcome) :
    orderAnswered s (s.tell (.order e) k d r) e k r := by
  rw [tell_order]
  exact orderReply_answered wf e k r

/-- R141: a participant's PATIENCE or FAULTED at a record on its way back. -/
theorem tell_failed {s : State} {c : RecNo} {k : OutletIx} (h : k ∈ s.cycles[c].participants)
    (state : s.cycles[c].state = .closing ∨ s.cycles[c].state = .restoring) {r : MemberOutcome}
    (bad : r = .patience ∨ r = .faulted) (d : Dir) :
    recordBecomes (s.tell (.cycle c) k d r) c (withFailed s.cycles[c] k) := by
  rw [tell_cycle (cycleReply_failed h state bad d)]
  refine testEnd_becomes ((upd_same _ _ _).trans (fail_eq _ _)) ?_
  rw [withFailed_state]
  exact state

/-- An outlet leaves its restore round with any outcome but OK, and stays in the list. -/
theorem tell_restored (s : State) (b : Branch) (k : OutletIx) (d : Dir) {r : MemberOutcome} (bad : r ≠ .ok) :
    k ∉ (s.tell (.restore b) k d r).shed[b].round ∧ (s.tell (.restore b) k d r).shed[b].list = s.shed[b].list := by
  rw [tell_restore, restoreReply_at, leaveRound_list, if_neg bad]
  refine ⟨?_, rfl⟩
  unfold ShedRec.leaveRound
  dsimp only
  split_ifs with member last
  · exact List.not_mem_nil
  · exact fun h => by simpa using (List.mem_filter.mp h).2
  · exact member

end Sys2Proof.Machine
end

section
/-! PROOF. An entry of the close queue that has waited too long (O20). -/
namespace Sys2Proof.Machine

open Sys2Proof.Safety

theorem eventEnd_orderKept (e : SlotNo) (v old : State) : OrderKept e v (v.eventEnd old) := by
  have fields := eventEnd_fields v old
  have orders : (v.eventEnd old).orders = v.orders := by rw [fields]
  have cause : (v.eventEnd old).cause = v.cause := by rw [fields]
  refine ⟨by rw [orders], fun a ha => (eventEnd_memory v old).bytes a (guardedBytes_slot e ha), by rw [fields], by rw [cause]; exact id⟩

/-- The bytes of an event's work and of the records that it rewrites. -/
theorem eventEnd_bytes {s v old : State} (h : BlockStep s v) :
    sameBytesOutside (fun a => blockBytes a || guardedBytes a) s.mem (v.eventEnd old).mem := fun a ha => by
  obtain ⟨block, guarded⟩ := Bool.or_eq_false_iff.mp ha
  rw [(eventEnd_memory v old).bytes a guarded, h.bytes a block]

/-- An outlet's membership is not the scan's. -/
theorem eventEnd_cycle (v old : State) (j : OutletIx) : (v.eventEnd old).outlets[j].cycle = v.outlets[j].cycle := by
  have kept := (scanIfDue_scanned v).outlet j
  have same : (v.eventEnd old).outlets[j] = v.scanIfDue.outlets[j] := rfl
  rw [same, kept]

theorem eventEnd_becomes {v : State} {c : RecNo} {r : CycleRec} (h : recordBecomes v c r) (old : State) :
    recordBecomes (v.eventEnd old) c r :=
  recordBecomes_congr h (by rw [eventEnd_fields]) (eventEnd_cycle v old)

/-- An entry is only ever taken out of the queue by a scan. -/
theorem eventEnd_unlisted {v : State} {k : OutletIx} (un : Unlisted v k) (old : State) : Unlisted (v.eventEnd old) k :=
  fun x hx => un x ((scanIfDue_scanned v).queue.subset hx)

theorem unqueued_same (s : State) (k : OutletIx) : s.unqueued k = { s with
    queue := s.queue.filter (·.outlet != k), scanDue := (s.unqueued k).scanDue, outlets := (s.unqueued k).outlets } := by
  rw [← dequeue_queue s k]
  unfold State.unqueued
  rw [dequeue_same]
  rfl

theorem unqueued_unlisted (s : State) (k : OutletIx) : Unlisted (s.unqueued k) k := by
  rw [unqueued_same]
  exact fun x hx => by simpa using (List.mem_filter.mp hx).2

/-- The entry of an outlet, in a queue with one entry for each. -/
theorem find?_entry {q : List QueueEntry} (distinct : (q.map (·.outlet)).Nodup) {e : QueueEntry} (he : e ∈ q) :
    q.find? (fun x => x.outlet == e.outlet) = some e := by
  obtain ⟨x, found⟩ : ∃ x, q.find? (fun x => x.outlet == e.outlet) = some x :=
    Option.isSome_iff_exists.mp (List.find?_isSome.mpr ⟨e, he, beq_iff_eq.mpr rfl⟩)
  have same := beq_iff_eq.mp (List.find?_some (p := fun x : QueueEntry => x.outlet == e.outlet) found)
  rw [found, List.inj_on_of_nodup_map distinct (List.mem_of_find?_eq_some found) he same]

/-- A notice that leaves room in the log has been appended. -/
theorem notice_latest {s : State} (wf : MemWf s.mem) (kind : NoticeKind) {subject reason : Nat} (hs : subject < 65536)
    (hr : reason < 256) (value : Word) (room : (s.notice kind subject reason value).logFull = false) :
    logEntry (s.notice kind subject reason value).mem ((s.notice kind subject reason value).writeCount - 1) kind subject reason
      s.partTime value := by
  cases before : s.logFull with
  | false =>
    obtain ⟨-, count, entry, -⟩ := notice_noticed wf before kind hs hr value
    rwa [count, add_sub_cancel_right]
  | true =>
    have full : (s.notice kind subject reason value).logFull = s.logFull := by
      rw [notice_full before]
      refine (logFull_congr ?_ ?_).1 <;> exact readWord_writeWord_other _ _ _ _ (by decide)
    rw [full, before] at room
    cases room

theorem exec_queuePatience_end {s : State} (h : s.resetting = none) (t : Nat) (k : OutletIx) :
    exec (.queuePatience t k) s = .next (((s.advance t).patienceAt k).eventEnd (s.advance t)) :=
  congrArg Host.Outcome.next (event_end h t _)

/-- R113: the entry removed and its owner told, before the notice. -/
def State.expired (s : State) (e : QueueEntry) : State := (s.unqueued e.outlet).tell e.owner e.outlet .toClosed .patience

theorem expired_eq {s : State} {e : QueueEntry} (owner : s.outlets[e.outlet].owner = some e.owner)
    (state : s.outlets[e.outlet].state = .awaitClose) : settle (s.leaveQueue e.outlet .patience) = s.expired e := by
  have reply : s.ownerReply e.outlet .patience =
      [{ owner := e.owner, outlet := e.outlet, dir := .toClosed, outcome := .patience }] := by
    rw [State.ownerReply, owner, state]
    rfl
  rw [settle_one (a := s.leaveQueue e.outlet .patience) reply]
  rfl

/-- Settles O20: the entry goes, its owner is told, the notice is filed, and a scan may follow. -/
theorem patienceRemovesEntry : Obligations.PatienceRemovesEntry := by
  unfold Obligations.PatienceRemovesEntry
  rintro s t k e running control wf queued rfl
  have found := find?_entry control.queueOutlets queued
  have relay := control.relay e.outlet
  have at_ : (s.advance t).patienceAt e.outlet =
      if (s.advance t).patienceOver e then (s.advance t).expire e else s.advance t := by
    have look : (s.advance t).queue.find? (fun x => x.outlet == e.outlet) = some e := found
    simp only [State.patienceAt, look]
  have block := expire_block (s.advance t) e
  rw [exec_queuePatience_end running, at_]
  refine ⟨fun reached => ?_, fun due early => ?_⟩
  · have passed : (s.advance t).patienceOver e = true := decide_eq_true reached
    rw [if_pos passed]
    have expired := expired_eq (s := s.advance t) (relay.queueOwner e queued rfl) (relay.queued.mp ⟨e, queued, rfl⟩)
    have settled : BlockStep (s.advance t) (settle ((s.advance t).leaveQueue e.outlet .patience)) :=
      settle_block (leaveQueue_block _ _ _)
    rw [expired] at settled
    rw [State.expire, expired] at block ⊢
    have unlisted := unqueued_unlisted (s.advance t) e.outlet
    have outlet := unqueued_outlet (s.advance t) e.outlet
    have same := unqueued_same (s.advance t) e.outlet
    have told : Told ((s.advance t).unqueued e.outlet) ((s.advance t).expired e) :=
      tell_told _ e.owner e.outlet .toClosed MemberOutcome.noConfusion
    have wfX : MemWf ((s.advance t).unqueued e.outlet).mem := by rw [same]; exact wf
    have wfY : MemWf ((s.advance t).expired e).mem := settled.wf wf
    have toOrder (o : SlotNo) (h : e.owner = .order o) :
        orderAnswered (s.advance t) ((s.advance t).expired e) o e.outlet .patience := by
      have kept : OrderKept o (s.advance t) ((s.advance t).unqueued e.outlet) := .of_same (by rw [same]) (by rw [same]) (by rw [same])
        (by rw [same])
      rw [State.expired, h]
      exact kept.before (tell_answered wfX o e.outlet .toClosed .patience)
    have toRound (b : Branch) (h : e.owner = .restore b) : e.outlet ∉ ((s.advance t).expired e).shed[b].round ∧
        ((s.advance t).expired e).shed[b].list = s.shed[b].list := by
      have gone := tell_restored ((s.advance t).unqueued e.outlet) b e.outlet .toClosed (r := .patience) MemberOutcome.noConfusion
      rw [State.expired, h]
      rw [same] at gone ⊢
      exact gone
    have toRecord (c : RecNo) (h : e.owner = .cycle c) (part : e.outlet ∈ s.cycles[c].participants)
        (state : s.cycles[c].state = .closing ∨ s.cycles[c].state = .restoring) :
        recordBecomes ((s.advance t).expired e) c (withFailed s.cycles[c] e.outlet) := by
      have cycles : ((s.advance t).unqueued e.outlet).cycles = s.cycles := by rw [same]; rfl
      have failed := tell_failed (s := (s.advance t).unqueued e.outlet) (c := c) (k := e.outlet) (by rw [cycles]; exact part)
        (by rw [cycles]; exact state) (r := .patience) (.inl rfl) .toClosed
      rw [cycles] at failed
      rw [State.expired, h]
      exact failed
    generalize (s.advance t).expired e = y at *
    have noted := notice_same y .queuePatience (numberOf e.outlet) e.cls.val e.stamp
    have latest := notice_latest wfY .queuePatience (subject := numberOf e.outlet) (reason := e.cls.val)
      ((numberOf_outlet_lt _).trans (by decide)) (lt_trans e.cls.isLt (by decide)) e.stamp
    have orders (o : SlotNo) := notice_orderKept o y .queuePatience (numberOf e.outlet) e.cls.val e.stamp
    generalize y.notice .queuePatience (numberOf e.outlet) e.cls.val e.stamp = z at *
    have listed : Unlisted z e.outlet := by
      rw [noted, told.same]
      exact unlisted
    have atEnd := (eventEnd_outlet listed (s.advance t)).1
    have record : z.outlets[e.outlet] = { ((s.advance t).unqueued e.outlet).outlets[e.outlet] with
        cycle := y.outlets[e.outlet].cycle } := by
      rw [noted]
      exact told.outlet e.outlet
    rw [outlet] at record
    rw [record] at atEnd
    have fields := eventEnd_fields z (s.advance t)
    refine ⟨_, rfl, eventEnd_unlisted listed _, by rw [atEnd], by rw [atEnd], by rw [atEnd]; rfl, by rw [atEnd]; rfl, fun o h => ?_,
      fun b h => ?_, fun c h part state => ?_, fun room => ?_, eventEnd_measuring (s := s.advance t) block,
      eventEnd_inputs (s := s.advance t) block, eventEnd_bytes (s := s.advance t) block⟩
    · exact OrderKept.answered (toOrder o h) ((orders o).trans (eventEnd_orderKept o z _))
    · rw [fields, noted]
      exact toRound b h
    · refine eventEnd_becomes (recordBecomes_congr (toRecord c h part state) (by rw [noted]) fun j => by rw [noted]) _
    · obtain ⟨full, count⟩ := eventEnd_log z (s.advance t)
      rw [full] at room
      rw [count]
      have entry := eventEnd_logEntry (old := s.advance t) (latest room)
      have time : y.partTime = BitVec.ofNat 32 (max s.now t / 1000) := by
        rw [State.partTime, told.same, same]
        rfl
      rw [time] at entry
      exact entry
  · have waits : ¬(s.advance t).patienceOver e = true := fun passed => absurd (of_decide_eq_true passed) (not_le.mpr early)
    rw [if_neg waits, eventEnd_id (s := s.advance t) due]
    rfl

end Sys2Proof.Machine
end

section
/-! PROOF. What every delivery leaves (R52): the entries of the notice log, and an outlet in FAULT. -/
namespace Sys2Proof.Machine

open Sys2Proof.Safety

/-! ### The notice log (11.5) -/

/-- The words of the log from the count of notices to the read mark, and its entries. -/
def logBytes (a : Nat) : Bool := within 0x14 8 a || within 0x2D00 0x1000 a

/-- The log of `m'` holds the notices of `m` behind the read mark and perhaps later ones, and has not overflowed. -/
structure LogStands (m m' : Mem) : Prop where
  wf : MemWf m'
  mark : readWord m' addrReadMark = readWord m addrReadMark
  more : logUsed m ≤ logUsed m'
  room : logUsed m' ≤ 256
  entry : ∀ (q : Word) (kind : NoticeKind) (subject reason : Nat) (stamp value : Word),
    (q - readWord m addrReadMark).toNat < logUsed m → logEntry m q kind subject reason stamp value →
      logEntry m' q kind subject reason stamp value

/-- From a log within its bounds, the notices stand. -/
def LogGrows (s u : State) : Prop := MemWf s.mem → logUsed s.mem ≤ 256 → LogStands s.mem u.mem

theorem LogGrows.refl (s : State) : LogGrows s s := fun wf room => ⟨wf, rfl, le_refl _, room, fun _ _ _ _ _ _ _ => id⟩

theorem LogGrows.trans {s u v : State} (h : LogGrows s u) (g : LogGrows u v) : LogGrows s v := fun wf room => by
  have first := h wf room
  have second := g first.wf first.room
  exact ⟨second.wf, second.mark.trans first.mark, first.more.trans second.more, second.room,
    fun q kind subject reason stamp value hq entry => second.entry q kind subject reason stamp value
      (first.mark ▸ lt_of_lt_of_le hq first.more) (first.entry q kind subject reason stamp value hq entry)⟩

theorem LogGrows.of_mem {s u : State} (mem : u.mem = s.mem) : LogGrows s u := fun wf room => mem ▸ LogGrows.refl s wf room

theorem LogGrows.foldl {α : Type} {f : State → α → State} (h : ∀ s x, LogGrows s (f s x)) (l : List α) (s : State) :
    LogGrows s (l.foldl f s) := by
  induction l generalizing s with
  | nil => exact .refl s
  | cons x l ih => exact (h s x).trans (ih _)

/-- A change of other bytes. -/
theorem LogGrows.of_step {s u : State} {P : Nat → Bool} (h : MemStep P s.mem u.mem)
    (apart : ∀ a, logBytes a = true → P a = false) : LogGrows s u := fun wf room => by
  have low {a : Nat} (ha : 0x14 ≤ a ∧ a + 4 ≤ 0x1C) : readWord u.mem a = readWord s.mem a := h.readWord a fun i hi => apart _ (by
    rw [logBytes, Bool.or_eq_true, within_iff]
    omega)
  have used : logUsed u.mem = logUsed s.mem := by
    unfold logUsed
    rw [low (by decide), low (by decide)]
  refine ⟨h.wf wf, low (by decide), used.ge, used.le.trans room, fun q kind subject reason stamp value _ entry => ?_⟩
  refine logEntry_congr (fun a ha => h.bytes a (apart a ?_)) entry
  rw [within_iff] at ha
  rw [logBytes, Bool.or_eq_true, within_iff, within_iff]
  omega

/-- The next notice stands behind those of a log with room. -/
theorem logUsed_count (m : Mem) : readWord m addrReadMark + BitVec.ofNat 32 (logUsed m) = readWord m addrWriteCount := by
  rw [logUsed, BitVec.ofNat_toNat, BitVec.setWidth_eq, add_sub_cancel]

theorem notice_grows (s : State) (kind : NoticeKind) {subject reason : Nat} (hs : subject < 65536) (hr : reason < 256)
    (value : Word) : LogGrows s (s.notice kind subject reason value) := fun wf room => by
  cases full : s.logFull with
  | true =>
    rw [notice_full full]
    have step : MemStep (within addrMissedKinds 4) s.mem
        (writeWord s.mem addrMissedKinds (readWord s.mem addrMissedKinds ||| BitVec.ofNat 32 (2 ^ kind.code))) := memStep_writeWord _ _ _
    refine LogGrows.of_step (u := { s with mem := _ }) step (fun a ha => within_eq_false.mpr ?_) wf room
    rw [logBytes, Bool.or_eq_true, within_iff, within_iff] at ha
    simp only [addrMissedKinds]
    omega
  | false =>
    have used : logUsed s.mem < 256 := by
      by_contra many
      have same : logUsed s.mem = 256 := by omega
      rw [Bool.eq_false_iff] at full
      exact full ((logFull_iff s).mpr ⟨same.ge, same.trans_lt (by decide)⟩)
    have grown := notice_log wf used kind hs hr value
    have noticed := notice_noticed wf full kind hs hr value
    refine ⟨(notice_block s kind subject reason value).wf wf, ?_, by omega, by omega,
      fun q kind' subject' reason' stamp value' hq entry => notice_keeps wf ?_ hs hr entry⟩
    · refine (memStep_notice_noticeBytes s kind subject reason value).readWord _ fun i hi => ?_
      rw [noticeBytes, Bool.or_eq_false_iff, within_eq_false, within_eq_false]
      simp only [addrReadMark, addrWriteCount]
      omega
    · have apart := places_behind (readWord s.mem addrReadMark) hq used
      rwa [logUsed_count, BitVec.ofNat_toNat, BitVec.setWidth_eq, add_sub_cancel] at apart

/-- The entry that a notice has filed is behind the read mark. -/
theorem notice_used {s : State} (wf : MemWf s.mem) (used : logUsed s.mem < 256) (kind : NoticeKind) {subject reason : Nat}
    (hs : subject < 65536) (hr : reason < 256) (value : Word) :
    (s.writeCount - readWord (s.notice kind subject reason value).mem addrReadMark).toNat <
      logUsed (s.notice kind subject reason value).mem := by
  rw [(notice_grows s kind hs hr value wf used.le).mark, notice_log wf used kind hs hr value]
  exact Nat.lt_succ_self _

theorem finishOrder_grows (s : State) (e : SlotNo) (r : OrderResult) : LogGrows s (s.finishOrder e r) := by
  cases held : s.orders[e] with
  | none =>
    rw [finishOrder_none held]
    exact .refl s
  | some entry =>
    have shown : LogGrows s (s.resultShown e r) := by
      have step := memStep_writeResult_slot s.mem e r s.partTime
      rw [← resultShown_mem s e r] at step
      refine .of_step step fun a ha => slotBytes_outside e ?_
      rw [logBytes, Bool.or_eq_true, within_iff, within_iff] at ha
      omega
    cases notify : entry.fields.notify with
    | false => exact finishOrder_silent held notify r ▸ shown
    | true =>
      rw [finishOrder_notify held notify]
      exact shown.trans (notice_grows _ _ (lt_trans e.isLt (by decide)) (outcomeCode_lt _) _)

theorem orderReply_grows (s : State) (e : SlotNo) (k : OutletIx) (r : MemberOutcome) : LogGrows s (s.orderReply e k r) := by
  cases held : s.orders[e] with
  | none =>
    have none : s.orderReply e k r = s := by simp only [State.orderReply, held]
    rw [none]
    exact .refl s
  | some entry =>
    rw [orderReply_eq held]
    split
    · exact LogGrows.trans (.of_mem rfl) (finishOrder_grows (s.setOrder e _) e _)
    · exact .of_mem rfl

theorem tellOrigin_grows (s : State) (c : RecNo) (r : CycleRec) (o : Origin) : LogGrows s (s.tellOrigin c r o) := by
  cases o with
  | order e v => exact finishOrder_grows s e _
  | watch w =>
    rw [State.tellOrigin]
    by_cases bad : r.outcome = .partly ∨ r.outcome = .abandoned
    · rw [watchOutcome_gaveUp bad]
      exact LogGrows.trans (.of_mem rfl)
        (notice_grows (s.modWatch w _) _ (lt_trans w.isLt (by decide)) (outcomeCode_lt _) _)
    · refine .of_mem ?_
      cases h : r.outcome with
      | partly | abandoned => exact absurd (by simp [h]) bad
      | _ => rfl

theorem endRecord_grows (s : State) (c : RecNo) : LogGrows s (s.endRecord c) := by
  rw [endRecord_parts]
  generalize (tab fun j => if j ∈ s.cycles[c].participants then { s.outlets[j] with cycle := none } else s.outlets[j]) = outlets
  have told : LogGrows { s with outlets := outlets }
      (State.tellAll { s with outlets := outlets } c s.cycles[c] s.cycles[c].origins) :=
    .foldl (fun s o => tellOrigin_grows s c _ o) _ _
  exact LogGrows.trans (.of_mem rfl) (told.trans (.of_mem rfl))

theorem testEnd_grows (s : State) (c : RecNo) : LogGrows s (s.testEnd c) := by
  unfold State.testEnd
  dsimp only
  split
  · exact endRecord_grows s c
  · exact .refl s

/-! ### Closes of one record -/

/-- A CLOSE for a record concerns its outlet alone, and writes nothing. -/
theorem closeByState_only (s : State) (k : OutletIx) (cls : ClassNo) (w : Owner) :
    Only k s (s.closeByState k cls w).1 ∧ (s.closeByState k cls w).1.mem = s.mem := by
  unfold State.closeByState
  cases s.outlets[k].state with
  | off => exact ⟨enqueue_only s k cls w, by rw [enqueue_eq]⟩
  | awaitClose => exact ⟨(modOutlet_only s k _).trans (reown_only _ k w), rfl⟩
  | closing => exact ⟨(modOutlet_only s k _).trans (modOutlet_only _ k _), rfl⟩
  | opening => exact ⟨modOutlet_only s k _, rfl⟩
  | resting =>
    dsimp only
    split
    · exact ⟨enqueue_only s k cls w, by rw [enqueue_eq]⟩
    · exact ⟨.refl k s, rfl⟩
  | on | fault | unknown => exact ⟨.refl k s, rfl⟩

/-- What leaves outlet `k` aside: its record but its membership, its movement, its reservations, and no entry of it. -/
structure Aside (k : OutletIx) (s u : State) : Prop where
  outlet : u.outlets[k] = { s.outlets[k] with cycle := u.outlets[k].cycle }
  move : u.moves[k] = s.moves[k]
  loads : ∀ (b : Branch) (r : OutletIx × Nat), r.1 = k → (r ∈ u.loads[b].reservations ↔ r ∈ s.loads[b].reservations)
  queue : Unlisted s k → Unlisted u k

theorem Aside.refl (k : OutletIx) (s : State) : Aside k s s := ⟨rfl, rfl, fun _ _ _ => .rfl, id⟩

theorem Aside.trans {k : OutletIx} {s u v : State} (h : Aside k s u) (g : Aside k u v) : Aside k s v where
  outlet := by rw [g.outlet, h.outlet]
  move := g.move.trans h.move
  loads b r hr := (g.loads b r hr).trans (h.loads b r hr)
  queue := g.queue ∘ h.queue

theorem Told.aside {s u : State} (h : Told s u) (k : OutletIx) : Aside k s u where
  outlet := h.outlet k
  move := by rw [h.same]
  loads b r _ := by rw [h.same]
  queue un := by
    unfold Unlisted
    rw [h.same]
    exact un

theorem Only.aside {j k : OutletIx} {s u : State} (h : Only j s u) (ne : k ≠ j) : Aside k s u where
  outlet := by rw [h.outlets k ne]
  move := h.moves k ne
  loads b r hr := h.loads b r (hr ▸ ne)
  queue un e he hk := un e ((h.queue e (hk ▸ ne)).mp he) hk

theorem sendCloses_aside {s : State} {ks : List OutletIx} {k : OutletIx} (out : k ∉ ks) (cls : ClassNo) (c : RecNo) :
    Aside k s (s.sendCloses ks cls (.cycle c)).1 ∧ (s.sendCloses ks cls (.cycle c)).1.mem = s.mem := by
  unfold State.sendCloses
  generalize ([] : List Reply) = rs
  induction ks generalizing s rs with
  | nil => exact ⟨.refl k s, rfl⟩
  | cons j ks ih =>
    obtain ⟨ne, out⟩ := not_or.mp (mt List.mem_cons.mpr out)
    obtain ⟨only, mem⟩ := closeByState_only s j cls (.cycle c)
    obtain ⟨rest, memRest⟩ := ih (s := (s.closeByState j cls (.cycle c)).1) out (rs ++ (s.closeByState j cls (.cycle c)).2)
    exact ⟨(only.aside ne).trans rest, memRest.trans mem⟩

/-! ### A delivery beside an outlet in FAULT -/

/-- R142: an abandonment leaves an outlet in FAULT, and its notices. -/
theorem abandon_aside {s : State} {k : OutletIx} (fault : s.outlets[k].state = .fault) (c : RecNo) (j : OutletIx) :
    Aside k s (s.abandon c j).1 ∧ LogGrows s (s.abandon c j).1 := by
  unfold State.abandon
  dsimp only
  have noted : Told s ((s.modCycle c fun r => r.fail j).notice .cycleAbandoned c.val
      (optCode FaultKind.code s.outlets[j].faultKind) (BitVec.ofNat 32 (numberOf j))) :=
    (modCycle_told s c _).trans (notice_told _ _ _ _ _)
  have grows : LogGrows s ((s.modCycle c fun r => r.fail j).notice .cycleAbandoned c.val
      (optCode FaultKind.code s.outlets[j].faultKind) (BitVec.ofNat 32 (numberOf j))) :=
    LogGrows.trans (.of_mem rfl) (notice_grows (s.modCycle c fun r => r.fail j) _ (lt_trans c.isLt (by decide))
      (optCode_lt (fun kind => by cases kind <;> decide) (by decide) _) _)
  generalize (s.modCycle c fun r => r.fail j).notice .cycleAbandoned c.val _ _ = v at *
  have still : v.outlets[k].state = .fault := by rw [noted.outlet k]; exact fault
  have out : k ∉ v.cycles[c].participants.filter fun k => v.outlets[k].state != .fault := fun h =>
    bne_iff_ne.mp (List.mem_filter.mp h).2 still
  have sent := sendCloses_aside (s := v.modCycle c fun r => { r with state := .restoring, restDeadline := none, cls := some 0 })
    out 0 c
  unfold State.enterRestoring
  dsimp only
  obtain ⟨aside, mem⟩ := sent
  generalize ((v.modCycle c fun r => { r with state := .restoring, restDeadline := none, cls := some 0 }).sendCloses _ 0 (.cycle c)).1 =
    x at *
  exact ⟨(noted.aside k).trans (((modCycle_told v c _).aside k).trans (aside.trans ((testEnd_told x c).1.aside k))),
    grows.trans (LogGrows.trans (.of_mem mem) (testEnd_grows x c))⟩

/-- What an outcome does at its record. -/
theorem cycleReply_cases (s : State) (c : RecNo) (k : OutletIx) (d : Dir) (r : MemberOutcome) :
    (s.cycleReply c k d r).1 = s ∨ (s.cycleReply c k d r).1 = s.testResting c ∨
      (s.cycleReply c k d r).1 = (s.abandon c k).1 ∨ ∃ f : CycleRec → CycleRec,
        (s.cycleReply c k d r).1 = (s.modCycle c f).testEnd c ∨ (s.cycleReply c k d r).1 = s.modCycle c f := by
  unfold State.cycleReply
  split
  · exact .inl rfl
  · split
    · exact .inr (.inl rfl)
    · exact .inr (.inr (.inl rfl))
    · exact .inr (.inr (.inl rfl))
    · cases d with
      | toClosed => exact .inr (.inr (.inr ⟨_, .inl rfl⟩))
      | toOpen => exact .inl rfl
    · cases d with
      | toClosed => exact .inr (.inr (.inr ⟨_, .inl rfl⟩))
      | toOpen => exact .inl rfl
    iterate 4 · exact .inr (.inr (.inr ⟨_, .inl rfl⟩))
    · exact .inr (.inr (.inr ⟨_, .inr rfl⟩))
    · exact .inl rfl

theorem cycleReply_aside {s : State} {k : OutletIx} (fault : s.outlets[k].state = .fault) (c : RecNo) (j : OutletIx) (d : Dir)
    (r : MemberOutcome) : Aside k s (s.cycleReply c j d r).1 ∧ LogGrows s (s.cycleReply c j d r).1 := by
  rcases cycleReply_cases s c j d r with same | rests | abandons | ⟨f, ends | changes⟩
  · rw [same]
    exact ⟨.refl k s, .refl s⟩
  · rw [rests]
    refine ⟨(testResting_told s c).1.aside k, .of_mem ?_⟩
    unfold State.testResting
    split <;> rfl
  · rw [abandons]
    exact abandon_aside fault c j
  · rw [ends]
    exact ⟨((modCycle_told s c f).aside k).trans ((testEnd_told _ c).1.aside k),
      LogGrows.trans (.of_mem rfl) (testEnd_grows (s.modCycle c f) c)⟩
  · rw [changes]
    exact ⟨(modCycle_told s c f).aside k, .of_mem rfl⟩

theorem deliverOne_aside {fuel : Nat} (later : ∀ {s : State} {k : OutletIx} (rs : List Reply), s.outlets[k].state = .fault →
    Aside k s (deliver fuel rs s) ∧ LogGrows s (deliver fuel rs s)) {s : State} {k : OutletIx}
    (fault : s.outlets[k].state = .fault) (r : Reply) : Aside k s (deliverOne fuel s r) ∧ LogGrows s (deliverOne fuel s r) := by
  unfold deliverOne
  cases r.owner with
  | order e => exact ⟨(orderReply_told s e _ _).aside k, orderReply_grows s e _ _⟩
  | shed b => exact ⟨.refl k s, .refl s⟩
  | restore b => exact ⟨(restoreReply_told s b _ _).aside k, .of_mem rfl⟩
  | cycle c =>
    obtain ⟨aside, grows⟩ := cycleReply_aside fault c r.outlet r.dir r.outcome
    obtain ⟨rest, growsRest⟩ := later (s.cycleReply c r.outlet r.dir r.outcome).2 (by rw [aside.outlet]; exact fault)
    exact ⟨aside.trans rest, grows.trans growsRest⟩

/-- R52: whatever is delivered, an outlet in FAULT and the notices filed before stand. -/
theorem deliver_aside (fuel : Nat) (rs : List Reply) {s : State} {k : OutletIx} (fault : s.outlets[k].state = .fault) :
    Aside k s (deliver fuel rs s) ∧ LogGrows s (deliver fuel rs s) := by
  induction fuel generalizing rs s k with
  | zero => exact ⟨.refl k s, .refl s⟩
  | succ fuel ih =>
    rw [deliver_succ]
    induction rs generalizing s with
    | nil => exact ⟨.refl k s, .refl s⟩
    | cons r rs rest =>
      obtain ⟨first, grows⟩ := deliverOne_aside (fun {s k} rs => ih rs (s := s) (k := k)) fault r
      obtain ⟨later, growsLater⟩ := rest (s := deliverOne fuel s r) (by rw [first.outlet]; exact fault)
      exact ⟨first.trans later, grows.trans growsLater⟩

theorem eventEnd_grows (v old : State) : LogGrows v (v.eventEnd old) :=
  .of_step (eventEnd_memory v old) fun a ha => within_eq_false.mpr (by
    rw [logBytes, Bool.or_eq_true, within_iff, within_iff] at ha
    omega)

end Sys2Proof.Machine
end

section
/-! PROOF. The second failure of a movement (O25). -/
namespace Sys2Proof.Machine

open Sys2Proof.Safety

/-! ### FAULTED at its owners (R68, R126, R141, R142) -/

/-- An outcome reaches neither outlets nor records where its owner is no record that counts the outlet. -/
theorem tell_outside (s : State) {w : Owner} {k : OutletIx} (out : ∀ c, w = .cycle c → k ∉ s.cycles[c].participants) (d : Dir)
    (r : MemberOutcome) : (s.tell w k d r = { s with
      shed := (s.tell w k d r).shed, orders := (s.tell w k d r).orders, mem := (s.tell w k d r).mem
      cause := (s.tell w k d r).cause }) ∧
    (∀ e, w ≠ .order e → OrderKept e s (s.tell w k d r)) ∧ ((∀ b, w ≠ .restore b) → (s.tell w k d r).shed = s.shed) := by
  cases w with
  | order e =>
    have same := orderReply_parts s e k r
    rw [tell_order]
    exact ⟨by rw [same], fun j hj => orderReply_orderKept (fun h => hj (by rw [h])) s k r, fun _ => by rw [same]⟩
  | shed b =>
    rw [tell_shed]
    exact ⟨rfl, fun e _ => .refl e s, fun _ => rfl⟩
  | restore b =>
    rw [tell_restore]
    exact ⟨rfl, fun e _ => .of_same rfl rfl rfl rfl, fun h => absurd rfl (h b)⟩
  | cycle c =>
    rw [tell_cycle (cycleReply_stranger (out c rfl) d r)]
    exact ⟨rfl, fun e _ => .refl e s, fun _ => rfl⟩

theorem orderReply_none {s : State} {e : SlotNo} (h : s.orders[e] = none) (k : OutletIx) (r : MemberOutcome) :
    s.orderReply e k r = s := by
  simp only [State.orderReply, h]

theorem answered_twice (ms : List (OutletIx × Option MemberOutcome)) (k : OutletIx) (r x : MemberOutcome) :
    answered (answered ms k r) k x = answered ms k r := by
  rw [answered, answered, List.map_map]
  refine List.map_congr_left fun m _ => ?_
  rw [Function.comp_apply]
  by_cases h : m.1 = k ∧ m.2 = none
  · rw [if_pos h, if_neg fun h => nomatch h.2]
  · rw [if_neg h, if_neg h]

/-- R179: a second answer of the member changes nothing. -/
theorem orderReply_again (s : State) (e : SlotNo) (k : OutletIx) (r x : MemberOutcome) :
    (s.orderReply e k r).orderReply e k x = s.orderReply e k r := by
  cases held : s.orders[e] with
  | none =>
    rw [orderReply_none held, orderReply_none held]
  | some entry =>
    by_cases still : ∃ m ∈ answered entry.members k r, m.2 = none
    · have twice := answered_twice entry.members k r x
      have held' := setOrder_same s e (some { entry with members := answered entry.members k r })
      rw [orderReply_open held still, orderReply_open held' (by rw [twice]; exact still), twice, State.setOrder, State.setOrder]
      dsimp only
      rw [upd_comp]
    · have all : ∀ m ∈ answered entry.members k r, m.2 ≠ none := fun m hm none => still ⟨m, hm, none⟩
      have done := orderReply_last held all
      have free : (s.orderReply e k r).orders[e] = none := by
        rw [done, finishOrder_same (setOrder_same s e _)]
        exact upd_same _ _ _
      exact orderReply_none free k x

/-- R141: a record that has counted the outlet failed takes no second FAULTED. -/
theorem tell_again {s : State} {c : RecNo} {r : CycleRec} {k : OutletIx} (record : recordBecomes s c r) (failed : k ∈ r.failed)
    (state : r.state = .closing ∨ r.state = .restoring) (d : Dir) : s.tell (.cycle c) k d .faulted = s := by
  by_cases all : allSettled r
  · refine tell_cycle (cycleReply_stranger ?_ d _)
    rw [(record.1 all).1]
    exact List.not_mem_nil
  · have here := record.2 all
    by_cases part : k ∈ s.cycles[c].participants
    · rw [tell_cycle (cycleReply_failed part (here ▸ state) (.inr rfl) d)]
      have same : s.modCycle c (fun r => r.fail k) = s := by
        have kept : upd s.cycles c (fun r => r.fail k) = s.cycles := vector_ext _ _ fun j => by
          rw [upd_at]
          split
          case isTrue h =>
            rw [h, here]
            exact if_pos failed
          case isFalse => rfl
        rw [State.modCycle, kept]
      rw [same, State.testEnd, here, if_neg fun h => all ((settled_iff r).mp h.2)]
    · exact tell_cycle (cycleReply_stranger part d _)

theorem withFailed_member (r : CycleRec) (k : OutletIx) : k ∈ (withFailed r k).failed := by
  unfold withFailed
  split
  case isTrue h => exact h
  case isFalse => exact List.mem_append_right _ (List.mem_singleton_self k)

/-! ### The outlet in FAULT (R68, R89) -/

/-- R89: the movement over and the notice filed. -/
def State.failureNoticed (s : State) (k : OutletIx) (q : Pulse) : State :=
  (s.setMove k .none).notice .relayFault (numberOf k) q.dir.failure.code (BitVec.ofNat 32 q.estimate)

theorem failureNoticed_same (s : State) (k : OutletIx) (q : Pulse) : s.failureNoticed k q = { s with
    moves := upd s.moves k fun _ => .none, mem := (s.failureNoticed k q).mem, cause := (s.failureNoticed k q).cause } :=
  notice_same _ _ _ _ _

theorem verifyFailed_second {s : State} {k : OutletIx} {q : Pulse} (usable : s.usable q.phase = true)
    (second : s.outlets[k].retry = true) :
    s.verifyFailed k q = settle ((s.failureNoticed k q).enterFault k q.dir.failure) := by
  simp only [State.verifyFailed, usable, second, Bool.not_true, Bool.false_eq_true, if_false, if_true]
  rfl

theorem enterFault_same (s : State) (k : OutletIx) (kind : FaultKind) : (s.enterFault k kind).1 = { s with
    outlets := (s.enterFault k kind).1.outlets, queue := (s.enterFault k kind).1.queue, loads := (s.enterFault k kind).1.loads
    waitList := (s.enterFault k kind).1.waitList, moves := (s.enterFault k kind).1.moves
    scanDue := (s.enterFault k kind).1.scanDue } := by
  rw [enterFault_fst, withdrawWaiting_same, release_same, dequeue_same]
  rfl

theorem enterFault_move {s : State} {k : OutletIx} (none : s.moves[k] = .none) (kind : FaultKind) :
    (s.enterFault k kind).1.moves[k] = .none := by
  have kept : (((s.faulted k kind).dequeue k).release k).moves = s.moves := by
    rw [release_same, dequeue_same]
    rfl
  rw [enterFault_fst, State.withdrawWaiting]
  simp only [kept, none]

theorem enterFault_clear (s : State) (k : OutletIx) (kind : FaultKind) :
    Unreserved (s.enterFault k kind).1 k ∧ Unlisted (s.enterFault k kind).1 k := by
  constructor
  · rw [enterFault_fst, withdrawWaiting_same]
    exact release_unreserved _ k
  · rw [enterFault_fst, withdrawWaiting_same, release_same]
    exact dequeue_unlisted _ k

/-- The outcome FAULTED of a request that was carried out. -/
def faultReply (s : State) (k : OutletIx) (w : Owner) : Reply :=
  { owner := w, outlet := k, dir := s.outlets[k].state.dir, outcome := .faulted }

theorem ownerReply_faulted {s : State} {k : OutletIx} {w : Owner} (owner : s.outlets[k].owner = some w) :
    s.ownerReply k .faulted = [faultReply s k w] := by
  rw [State.ownerReply, owner, faultReply]

theorem enterFault_replies {s : State} {k : OutletIx} {w : Owner} (owner : s.outlets[k].owner = some w)
    (out : s.outlets[k].cycle = none) (kind : FaultKind) :
    (s.enterFault k kind).2 = faultReply s k w :: s.pendingReply k .faulted := by
  unfold State.enterFault
  dsimp only
  rw [out, ownerReply_faulted owner]
  exact List.append_nil _

theorem enterFault_replies_member {s : State} {k : OutletIx} {w : Owner} {c : RecNo} (owner : s.outlets[k].owner = some w)
    (member : s.outlets[k].cycle = some c) (kind : FaultKind) :
    (s.enterFault k kind).2 = faultReply s k w :: (s.pendingReply k .faulted ++ [faultReply s k (.cycle c)]) := by
  unfold State.enterFault
  dsimp only
  rw [member, ownerReply_faulted owner]
  exact List.append_assoc _ _ _

/-- The outcomes one after another, as their owners receive them. -/
theorem settle_foldl (a : State × List Reply) : settle a = a.2.foldl (fun s r => s.tell r.owner r.outlet r.dir r.outcome) a.1 := by
  have step : deliverOne 17 = fun s r => s.tell r.owner r.outlet r.dir r.outcome :=
    funext fun s => funext fun r => (tell_eq s r.owner r.outlet r.dir r.outcome).symm
  rw [settle, deliver_succ, step]

/-! ### An abandoned record (R142) -/

/-- R142: the record with its failed participant, and the notice. -/
def State.abandonNoticed (s : State) (c : RecNo) (k : OutletIx) : State :=
  (s.modCycle c fun r => r.fail k).notice .cycleAbandoned c.val (optCode FaultKind.code s.outlets[k].faultKind)
    (BitVec.ofNat 32 (numberOf k))

theorem abandonNoticed_same (s : State) (c : RecNo) (k : OutletIx) : s.abandonNoticed c k = { s with
    cycles := upd s.cycles c fun r => r.fail k, mem := (s.abandonNoticed c k).mem, cause := (s.abandonNoticed c k).cause } :=
  notice_same _ _ _ _ _

/-- R142, R147: the record as it enters RESTORING. -/
def State.recordRestoring (s : State) (c : RecNo) : State :=
  s.modCycle c fun r => { r with state := .restoring, restDeadline := none, cls := some 0 }

theorem cycleReply_abandons {s : State} {c : RecNo} {k : OutletIx} (h : k ∈ s.cycles[c].participants)
    (state : s.cycles[c].state = .opening ∨ s.cycles[c].state = .resting) (d : Dir) :
    s.cycleReply c k d .faulted = s.abandon c k := by
  rcases state with state | state <;> simp only [State.cycleReply, h, not_true_eq_false, if_false, state]

/-- R142: every other participant takes the CLOSE of class 0 without an answer. -/
theorem tell_abandons {s : State} {c : RecNo} {k : OutletIx} (h : k ∈ s.cycles[c].participants)
    (state : s.cycles[c].state = .opening ∨ s.cycles[c].state = .resting) (fault : s.outlets[k].state = .fault)
    (nodup : s.cycles[c].participants.Nodup) (member : ∀ j ∈ s.cycles[c].participants, s.outlets[j].cycle = some c)
    (others : ∀ j ∈ s.cycles[c].participants, j ≠ k →
      s.outlets[j].pending = none ∧ (s.outlets[j].state = .opening ∨ s.outlets[j].state = .resting)) (d : Dir) :
    s.tell (.cycle c) k d .faulted = (((s.abandonNoticed c k).recordRestoring c).turnAll
      (s.cycles[c].participants.filter fun j => s.outlets[j].state != .fault) 0 c).testEnd c := by
  obtain ⟨v, hv⟩ : ∃ v, v = s.abandonNoticed c k := ⟨_, rfl⟩
  have same : v = { s with cycles := upd s.cycles c fun r => r.fail k, mem := v.mem, cause := v.cause } :=
    hv ▸ abandonNoticed_same s c k
  have outlets : v.outlets = s.outlets := by rw [same]
  have participants : v.cycles[c].participants = s.cycles[c].participants := by
    rw [same]
    dsimp only
    rw [upd_same]
    unfold CycleRec.fail
    split <;> rfl
  have turns (j : OutletIx) (hj : j ∈ s.cycles[c].participants.filter fun j => s.outlets[j].state != .fault) :
      Turns (v.recordRestoring c) c j := by
    obtain ⟨part, runs⟩ := List.mem_filter.mp hj
    have ne : j ≠ k := fun eq => bne_iff_ne.mp runs (eq ▸ fault)
    obtain ⟨pending, opening | resting⟩ := others j part ne
    · exact .inr (.inr (by rw [State.recordRestoring, State.modCycle_outlets, outlets]; exact ⟨opening, pending⟩))
    · exact .inr (.inl (by rw [State.recordRestoring, State.modCycle_outlets, outlets]; exact ⟨resting, member j part⟩))
  have sent := sendCloses_turns (s := v.recordRestoring c) (nodup.filter _) turns 0
  have abandons : s.abandon c k = (((v.recordRestoring c).turnAll
      (s.cycles[c].participants.filter fun j => s.outlets[j].state != .fault) 0 c).testEnd c, []) := by
    unfold State.abandon State.enterRestoring
    have enters : (v.modCycle c fun r => { r with state := .restoring, restDeadline := none, cls := some 0 }).sendCloses
        (v.cycles[c].participants.filter fun j => v.outlets[j].state != .fault) 0 (.cycle c) =
        ((v.recordRestoring c).turnAll (s.cycles[c].participants.filter fun j => s.outlets[j].state != .fault) 0 c, []) := by
      rw [participants, outlets]
      exact sent
    rw [hv] at enters ⊢
    dsimp only
    unfold State.abandonNoticed at enters ⊢
    rw [enters]
  rw [← hv]
  exact tell_cycle ((cycleReply_abandons h state d).trans abandons)

/-- R142: the abandoned record, its participants, and the notices. -/
theorem abandoned {s : State} {c : RecNo} {k : OutletIx}
    (nodup : s.cycles[c].participants.Nodup) {f : State} (hf : f = (((s.abandonNoticed c k).recordRestoring c).turnAll
      (s.cycles[c].participants.filter fun j => s.outlets[j].state != .fault) 0 c).testEnd c) :
    recordBecomes f c { withFailed s.cycles[c] k with state := .restoring, restDeadline := none, cls := some 0 } ∧
      LogGrows (s.abandonNoticed c k) f ∧ ∀ j ∈ s.cycles[c].participants, j ≠ k →
        (s.outlets[j].state = .resting → f.outlets[j].state = .awaitClose ∧ f.outlets[j].owner = some (.cycle c)) ∧
        (s.outlets[j].state = .opening → f.outlets[j].state = .opening ∧ f.outlets[j].pending = some (.cls 0 (.cycle c))) := by
  obtain ⟨v, hv⟩ : ∃ v, v = s.abandonNoticed c k := ⟨_, rfl⟩
  have same : v = { s with cycles := upd s.cycles c fun r => r.fail k, mem := v.mem, cause := v.cause } :=
    hv ▸ abandonNoticed_same s c k
  rw [← hv] at hf ⊢
  have outlet (j : OutletIx) : (v.recordRestoring c).outlets[j] = s.outlets[j] := by
    rw [State.recordRestoring, State.modCycle_outlets, same]
  have turned := turnAll_same (v.recordRestoring c) (s.cycles[c].participants.filter fun j => s.outlets[j].state != .fault) 0 c
  have each {j : OutletIx} (hj : j ∈ s.cycles[c].participants.filter fun j => s.outlets[j].state != .fault) :=
    turnAll_outlet (v.recordRestoring c) (nodup.filter _) 0 c hj
  have record : ((v.recordRestoring c).turnAll (s.cycles[c].participants.filter fun j => s.outlets[j].state != .fault) 0 c).cycles[c] =
      { withFailed s.cycles[c] k with state := .restoring, restDeadline := none, cls := some 0 } := by
    rw [turned, State.recordRestoring, State.modCycle]
    dsimp only
    rw [upd_same, same]
    dsimp only
    rw [upd_same, fail_eq]
  have ended := testEnd_told ((v.recordRestoring c).turnAll
    (s.cycles[c].participants.filter fun j => s.outlets[j].state != .fault) 0 c) c
  refine ⟨hf ▸ testEnd_becomes record (.inr rfl), ?_, fun j part ne => ?_⟩
  · rw [hf]
    exact LogGrows.trans (.of_mem (by rw [turned]; rfl)) (testEnd_grows _ c)
  · have inAll (runs : s.outlets[j].state ≠ .fault) : j ∈ s.cycles[c].participants.filter fun j => s.outlets[j].state != .fault :=
      List.mem_filter.mpr ⟨part, bne_iff_ne.mpr runs⟩
    rw [hf, ended.1.outlet j]
    dsimp only
    refine ⟨fun resting => ?_, fun opening => ?_⟩
    · rw [each (inAll (by rw [resting]; exact OutletState.noConfusion)), outlet j, resting, if_neg OutletState.noConfusion]
      exact ⟨rfl, rfl⟩
    · rw [each (inAll (by rw [opening]; exact OutletState.noConfusion)), outlet j, opening, if_pos rfl]
      exact ⟨opening, rfl⟩

/-! ### An outlet of no record (R68, R126) -/

theorem tell_block (s : State) (w : Owner) (k : OutletIx) (d : Dir) (r : MemberOutcome) : BlockStep s (s.tell w k d r) :=
  deliver_block 18 _ s

/-- An outlet that has left its round stays out of it. -/
theorem tell_round (s : State) (w : Owner) {k : OutletIx} (out : ∀ c, w = .cycle c → k ∉ s.cycles[c].participants) (d : Dir)
    {r : MemberOutcome} (bad : r ≠ .ok) {b : Branch} (gone : k ∉ s.shed[b].round) :
    k ∉ (s.tell w k d r).shed[b].round ∧ (s.tell w k d r).shed[b].list = s.shed[b].list := by
  by_cases own : w = .restore b
  · rw [own]
    exact tell_restored s b k d bad
  · have same : (s.tell w k d r).shed[b] = s.shed[b] := by
      cases w with
      | restore b' =>
        rw [tell_restore, State.restoreReply]
        exact modShed_other s _ fun h => own (by rw [h])
      | _ => rw [(tell_outside s out d r).2.2 fun _ => Owner.noConfusion]
    rw [same]
    exact ⟨gone, rfl⟩

/-- What the owners `w` of the request carried out and `p` of the pending one make of FAULTED, for an outlet of no record. -/
structure ToldOutside (x y : State) (k : OutletIx) (w : Owner) (p : Option Owner) : Prop where
  same : y = { x with shed := y.shed, orders := y.orders, mem := y.mem, cause := y.cause }
  owner : ∀ e, w = .order e → orderAnswered x y e k .faulted
  pending : ∀ e, p = some (.order e) → orderAnswered x y e k .faulted
  round : ∀ b, w = .restore b → k ∉ y.shed[b].round ∧ y.shed[b].list = x.shed[b].list
  monitor : ∀ b, w = .shed b → p = none → y.shed = x.shed

theorem toldOutside_owner {x : State} (wf : MemWf x.mem) {k : OutletIx} (out : ∀ c : RecNo, k ∉ x.cycles[c].participants) (w : Owner)
    (d : Dir) : ToldOutside x (x.tell w k d .faulted) k w none where
  same := (tell_outside x (fun c _ => out c) d _).1
  owner e h := h ▸ tell_answered wf e k d _
  pending e h := nomatch h
  round b h := h ▸ tell_restored x b k d MemberOutcome.noConfusion
  monitor b h _ := by rw [h, tell_shed]

theorem toldOutside_both {x : State} (wf : MemWf x.mem) {k : OutletIx} (out : ∀ c : RecNo, k ∉ x.cycles[c].participants) (w v : Owner)
    (d d' : Dir) : ToldOutside x ((x.tell w k d .faulted).tell v k d' .faulted) k w (some v) := by
  have first := toldOutside_owner wf out w d
  have kept := (tell_outside x (w := w) (fun c _ => out c) d .faulted).2.1
  have wfY := (tell_block x w k d .faulted).wf wf
  have outY (c : RecNo) : k ∉ (x.tell w k d .faulted).cycles[c].participants := by
    rw [first.same]
    exact out c
  have second := tell_outside (x.tell w k d .faulted) (w := v) (fun c _ => outY c) d' .faulted
  refine ⟨?_, fun e h => ?_, fun e h => ?_, fun b h => ?_, fun b h none => nomatch none⟩
  · rw [second.1, first.same]
  · by_cases same : v = .order e
    · have again : (x.tell w k d .faulted).tell v k d' .faulted = x.tell w k d .faulted := by
        rw [h, same, tell_order, tell_order, orderReply_again]
      rw [again]
      exact first.owner e h
    · exact (second.2.1 e same).answered (first.owner e h)
  · have own : v = .order e := Option.some.inj h
    by_cases same : w = .order e
    · have again : (x.tell w k d .faulted).tell v k d' .faulted = x.tell w k d .faulted := by
        rw [own, same, tell_order, tell_order, orderReply_again]
      rw [again]
      exact first.owner e same
    · rw [own]
      exact (kept e same).before (tell_answered wfY e k d' _)
  · obtain ⟨gone, list⟩ := first.round b h
    obtain ⟨still, list'⟩ := tell_round (x.tell w k d .faulted) v (fun c _ => outY c) d' (r := .faulted) MemberOutcome.noConfusion gone
    exact ⟨still, list'.trans list⟩

end Sys2Proof.Machine
end

section
/-! PROOF. The second failure of a movement: what it leaves of the outlet, its owners and their records (O25). -/
namespace Sys2Proof.Machine

open Sys2Proof.Safety

/-- R68, R89: outlet `k` of `s` has entered FAULT in `x`, and the notice is filed. -/
structure FaultEntered (s x : State) (k : OutletIx) (q : Pulse) : Prop where
  same : x = { s with
    outlets := x.outlets, queue := x.queue, loads := x.loads, waitList := x.waitList, moves := x.moves, scanDue := x.scanDue
    mem := x.mem, cause := x.cause }
  outlet : x.outlets[k] = { s.outlets[k] with
    state := .fault, lastChange := s.partTime, faultKind := some q.dir.failure, unverified := none, wholeFrame := false
    owner := none, pending := none }
  others : ∀ j : OutletIx, j ≠ k → x.outlets[j] = s.outlets[j]
  move : x.moves[k] = .none
  unreserved : Unreserved x k
  unlisted : Unlisted x k
  order : ∀ e, OrderKept e s x
  wf : MemWf x.mem
  filed : logUsed s.mem < 256 → logUsed x.mem = logUsed s.mem + 1 ∧ x.writeCount = s.writeCount + 1 ∧
    (s.writeCount - readWord x.mem addrReadMark).toNat < logUsed x.mem ∧
    logEntry x.mem s.writeCount .relayFault (numberOf k) q.dir.failure.code s.partTime (BitVec.ofNat 32 q.estimate)

theorem enterFault_entered {s : State} (wf : MemWf s.mem) (k : OutletIx) (q : Pulse) :
    FaultEntered s ((s.failureNoticed k q).enterFault k q.dir.failure).1 k q := by
  have noticed := failureNoticed_same s k q
  have number : numberOf k < 65536 := (numberOf_outlet_lt k).trans (by decide)
  have small : q.dir.failure.code < 256 := by cases q.dir <;> decide
  have wfN : MemWf (s.failureNoticed k q).mem := (notice_block (s.setMove k .none) _ _ _ _).wf wf
  have orders (e : SlotNo) : OrderKept e s (s.failureNoticed k q) :=
    OrderKept.noticed (s := s) (u := s.setMove k .none) (.of_same rfl rfl rfl rfl) _ _ _ _
  have filed (room : logUsed s.mem < 256) : logUsed (s.failureNoticed k q).mem = logUsed s.mem + 1 ∧
      (s.failureNoticed k q).writeCount = s.writeCount + 1 ∧
      (s.writeCount - readWord (s.failureNoticed k q).mem addrReadMark).toNat < logUsed (s.failureNoticed k q).mem ∧
      logEntry (s.failureNoticed k q).mem s.writeCount .relayFault (numberOf k) q.dir.failure.code s.partTime
        (BitVec.ofNat 32 q.estimate) := by
    have here := notice_noticed (s := s.setMove k .none) wf (room_of_used room) .relayFault number small (BitVec.ofNat 32 q.estimate)
    exact ⟨notice_log (s := s.setMove k .none) wf room _ number small _, here.count,
      notice_used (s := s.setMove k .none) wf room _ number small _, here.entry⟩
  have move : (s.failureNoticed k q).moves[k] = .none := by
    rw [noticed]
    exact upd_same _ _ _
  have outlets : (s.failureNoticed k q).outlets = s.outlets := by rw [noticed]
  have time : (s.failureNoticed k q).partTime = s.partTime := by rw [noticed]; rfl
  generalize s.failureNoticed k q = n at *
  have entered := enterFault_same n k q.dir.failure
  obtain ⟨unreserved, unlisted⟩ := enterFault_clear n k q.dir.failure
  have atK := enterFault_outlets n k q.dir.failure
  have mem : (n.enterFault k q.dir.failure).1.mem = n.mem := by rw [entered]
  refine ⟨by rw [entered, noticed], ?_, fun j hj => ?_, enterFault_move move _, unreserved, unlisted, fun e => (orders e).trans ?_,
    by rwa [mem], fun room => ?_⟩
  · rw [atK, faulted_outlet, outlets, time]
  · rw [(enterFault_only n k q.dir.failure).outlets j hj, outlets]
  · exact .of_same (by rw [entered]) mem (by rw [entered]) (by rw [entered])
  · rw [State.writeCount, mem]
    exact filed room

theorem secondFailure_owner {s : State} (control : Control s) {k : OutletIx} {q : Pulse} (move : s.moves[k] = .verifying q) :
    ∃ w, s.outlets[k].owner = some w := by
  have moving := (loose_of_verifying control move).state
  refine Option.ne_none_iff_exists'.mp ((control.relay k).requests.owned.mpr ?_)
  cases dir : q.dir with
  | toClosed => exact .inr (.inl (movingDir_closing.mp (dir ▸ moving)))
  | toOpen => exact .inr (.inr (movingDir_opening.mp (dir ▸ moving)))

/-- The owner of a pending request. -/
def Outlet.pendingOwner (o : Outlet) : Option Owner := o.pending.map PendingReq.owner

/-- R68: FAULTED for an outlet of no record. -/
theorem failMovement_outside {s : State} (control : Control s) (wf : MemWf s.mem) {k : OutletIx} {q : Pulse} {w : Owner}
    (owner : s.outlets[k].owner = some w) (out : s.outlets[k].cycle = none) :
    ToldOutside ((s.failureNoticed k q).enterFault k q.dir.failure).1 (settle ((s.failureNoticed k q).enterFault k q.dir.failure))
      k w s.outlets[k].pendingOwner := by
  have entered := enterFault_entered wf k q
  have outlets : (s.failureNoticed k q).outlets = s.outlets := by rw [failureNoticed_same]
  have stranger (c : RecNo) : k ∉ ((s.failureNoticed k q).enterFault k q.dir.failure).1.cycles[c].participants := by
    rw [entered.same]
    exact fun part => by
      have member := ((control.member k).member c).mpr part
      rw [out] at member
      cases member
  rw [settle_foldl, enterFault_replies (by rw [outlets]; exact owner) (by rw [outlets]; exact out)]
  unfold Outlet.pendingOwner
  cases pending : s.outlets[k].pending with
  | none =>
    have replies : (s.failureNoticed k q).pendingReply k .faulted = [] := by
      rw [State.pendingReply, outlets, pending]
    rw [replies]
    exact toldOutside_owner entered.wf stranger w _
  | some p =>
    have replies : (s.failureNoticed k q).pendingReply k .faulted =
        [{ owner := p.owner, outlet := k, dir := p.dir, outcome := .faulted }] := by
      rw [State.pendingReply, outlets, pending]
    rw [replies]
    exact toldOutside_both entered.wf stranger w p.owner _ _

/-- R141, R142: FAULTED for a participant counts once. -/
theorem failMovement_member {s : State} (control : Control s) {k : OutletIx} {q : Pulse} {c : RecNo} {r : CycleRec} {f : State}
    (owned : s.outlets[k].owner ≠ none) (member : s.outlets[k].cycle = some c)
    (first : ((s.failureNoticed k q).enterFault k q.dir.failure).1.tell (.cycle c) k s.outlets[k].state.dir .faulted = f)
    (record : recordBecomes f c r) (failed : k ∈ r.failed) (state : r.state = .closing ∨ r.state = .restoring) :
    settle ((s.failureNoticed k q).enterFault k q.dir.failure) = f := by
  have outlets : (s.failureNoticed k q).outlets = s.outlets := by rw [failureNoticed_same]
  obtain ⟨w, owner⟩ := Option.ne_none_iff_exists'.mp owned
  have own : w = .cycle c := (control.member k).owner c member w owner
  have again (d : Dir) := tell_again record failed state d
  rw [settle_foldl, enterFault_replies_member (w := .cycle c) (c := c) (by rw [outlets, owner, own]) (by rw [outlets]; exact member),
    List.foldl_cons, List.foldl_append, List.foldl_cons, List.foldl_nil, faultReply, outlets]
  dsimp only
  rw [first]
  cases pending : s.outlets[k].pending with
  | none =>
    have replies : (s.failureNoticed k q).pendingReply k .faulted = [] := by
      rw [State.pendingReply, outlets, pending]
    rw [replies]
    exact again _
  | some p =>
    have replies : (s.failureNoticed k q).pendingReply k .faulted =
        [{ owner := .cycle c, outlet := k, dir := p.dir, outcome := .faulted }] := by
      rw [State.pendingReply, outlets, pending, ← (control.member k).pending c member p pending]
    rw [replies, List.foldl_cons, List.foldl_nil]
    dsimp only
    rw [again, again]

/-- R142: the notice of an abandonment. -/
theorem abandonNoticed_filed {s : State} (wf : MemWf s.mem) (room : logUsed s.mem < 256) (c : RecNo) (k : OutletIx) :
    MemWf (s.abandonNoticed c k).mem ∧ logUsed (s.abandonNoticed c k).mem ≤ 256 ∧
      (s.writeCount - readWord (s.abandonNoticed c k).mem addrReadMark).toNat < logUsed (s.abandonNoticed c k).mem ∧
      logEntry (s.abandonNoticed c k).mem s.writeCount .cycleAbandoned c.val (optCode FaultKind.code s.outlets[k].faultKind)
        s.partTime (BitVec.ofNat 32 (numberOf k)) := by
  have subject : c.val < 65536 := lt_trans c.isLt (by decide)
  have code : optCode FaultKind.code s.outlets[k].faultKind < 256 :=
    optCode_lt (fun kind => by cases kind <;> decide) (by decide) _
  have used := notice_log (s := s.modCycle c fun r => r.fail k) wf room .cycleAbandoned subject code (BitVec.ofNat 32 (numberOf k))
  refine ⟨(notice_block (s.modCycle c _) _ _ _ _).wf wf, used.trans_le room, ?_, ?_⟩
  · exact notice_used (s := s.modCycle c fun r => r.fail k) wf room _ subject code _
  · exact (notice_noticed (s := s.modCycle c fun r => r.fail k) wf (room_of_used room) _ subject code _).entry

/-- Settles O25: the notice, FAULT, what the owners are told, and for an abandoned record the closes of its participants. -/
theorem secondFailureFaults : Obligations.SecondFailureFaults := by
  unfold Obligations.SecondFailureFaults
  intro s t k q running control wf move reached usable second stamp reason
  have control' : Control (s.advance t) := control.view (advance_view s t)
  have settled : Control ((s.advance t).verifyFailed k q) := verifyFailed_control control' move
  have block := verifyFailed_block (s.advance t) k q
  have passed : q.deadline ≤ (s.advance t).now := reached
  obtain ⟨w, owner⟩ := secondFailure_owner control move
  have entered := enterFault_entered (s := s.advance t) wf k q
  have outside := failMovement_outside (s := s.advance t) control' wf (q := q) owner
  have member {c : RecNo} {r : CycleRec} {f : State} := failMovement_member (s := s.advance t) control' (k := k) (q := q) (c := c)
    (r := r) (f := f) (by rw [State.advance_outlets, owner]; exact Option.some_ne_none w)
  rw [exec_verifyDeadline_end running, deadlineReached_verifying (s := s.advance t) move, if_pos passed]
  rw [verifyFailed_second (s := s.advance t) usable second] at settled block ⊢
  have fault : (((s.advance t).failureNoticed k q).enterFault k q.dir.failure).1.outlets[k].state = .fault := by rw [entered.outlet]
  have aside := deliver_aside 18 ((((s.advance t).failureNoticed k q).enterFault k q.dir.failure).2) fault
  change Aside k _ (settle _) ∧ LogGrows _ (settle _) at aside
  obtain ⟨aside, grows⟩ := aside
  generalize settle (((s.advance t).failureNoticed k q).enterFault k q.dir.failure) = y at *
  generalize (((s.advance t).failureNoticed k q).enterFault k q.dir.failure).1 = x at *
  obtain ⟨atEnd, moveEnd⟩ := eventEnd_outlet (aside.queue entered.unlisted) (s.advance t)
  have scanned := scanIfDue_scanned y
  have fields := eventEnd_fields y (s.advance t)
  have orders (e : SlotNo) := eventEnd_orderKept e y (s.advance t)
  have ends := eventEnd_grows y (s.advance t)
  have becomes {c : RecNo} {r : CycleRec} (h : recordBecomes y c r) := eventEnd_becomes h (s.advance t)
  have outlet : y.outlets[k] = _ := aside.outlet
  rw [entered.outlet] at outlet
  rw [outlet] at atEnd
  have measuring := eventEnd_measuring (s := s.advance t) (old := s.advance t) block
  have inputs := eventEnd_inputs (s := s.advance t) (old := s.advance t) block
  have bytes := eventEnd_bytes (s := s.advance t) (old := s.advance t) block
  have stampEq : (s.advance t).partTime = stamp := rfl
  have filed (room : logUsed s.mem < 256) := by
    have here := entered.filed room
    have stands := grows entered.wf (by rw [here.1]; exact room)
    exact And.intro here (And.intro stands (ends stands.wf stands.room))
  refine ⟨_, rfl, moveEnd.trans (aside.move.trans entered.move), by rw [atEnd], ?_, by rw [atEnd], by rw [atEnd],
    by rw [atEnd]; exact second, by rw [atEnd], by rw [atEnd], by rw [atEnd]; rfl, fun b r hr same => ?_, fun room => ?_, fun out => ?_,
    fun c mem => ⟨fun back => ?_, fun before closed failed withdrawn others => ?_⟩, measuring, inputs, bytes⟩
  · rw [atEnd]
    cases q.dir <;> rfl
  · rw [fields] at hr
    rcases scanned.loads b r hr with old | ⟨e, he, eq⟩
    · exact entered.unreserved b r ((aside.loads b r same).mp old) same
    · exact aside.queue entered.unlisted e he (eq.trans same)
  · obtain ⟨⟨-, -, place, entry⟩, stands, endStands⟩ := filed room
    have kept := endStands.entry _ _ _ _ _ _ (stands.mark.symm ▸ lt_of_lt_of_le place stands.more)
      (stands.entry _ _ _ _ _ _ place entry)
    rw [failure_code, stampEq] at kept
    exact kept
  · have told := outside out
    have before (e : SlotNo) {r : MemberOutcome} (h : orderAnswered x y e k r) : orderAnswered s (y.eventEnd (s.advance t)) e k r :=
      (orders e).answered ((entered.order e).before h)
    refine ⟨?_, ?_, fun e own => ?_, fun e own => ?_, fun b own => ?_, fun ⟨b, own⟩ none => ?_⟩
    · rw [fields, told.same, entered.same]
      rfl
    · rw [fields, told.same, entered.same]
      rfl
    · exact before e (told.owner e (Option.some.inj (owner.symm.trans own)))
    · refine before e (told.pending e ?_)
      rw [State.advance_outlets, Outlet.pendingOwner]
      rcases own with opn | ⟨cl, cls⟩
      · rw [opn]
        rfl
      · rw [cls]
        rfl
    · have round := told.round b (Option.some.inj (owner.symm.trans own))
      rw [fields]
      rw [entered.same] at round
      exact round
    · rw [fields]
      refine (told.monitor b (Option.some.inj (owner.symm.trans own)) ?_).trans (by rw [entered.same]; rfl)
      rw [State.advance_outlets, Outlet.pendingOwner, none]
      rfl
  · have cycles : x.cycles = s.cycles := by rw [entered.same]; rfl
    have part : k ∈ x.cycles[c].participants := by rw [cycles]; exact ((control.member k).member c).mp mem
    have failed := tell_failed part (by rw [cycles]; exact back) (.inr rfl) s.outlets[k].state.dir
    rw [cycles] at failed
    have last := member mem rfl failed (withFailed_member _ _) (by rw [withFailed_state]; exact back)
    exact becomes (last ▸ failed)
  · have cycles : x.cycles = s.cycles := by rw [entered.same]; rfl
    have part : k ∈ x.cycles[c].participants := by rw [cycles]; exact ((control.member k).member c).mp mem
    have nodup : x.cycles[c].participants.Nodup := by rw [cycles]; exact control.participants c
    have memberOf (j : OutletIx) (hj : j ∈ x.cycles[c].participants) : x.outlets[j].cycle = some c := by
      rw [cycles] at hj
      have here := ((control.member j).member c).mpr hj
      by_cases ne : j = k
      · rw [ne, entered.outlet]
        exact mem
      · rw [entered.others j ne]
        exact here
    have rest (j : OutletIx) (hj : j ∈ x.cycles[c].participants) (ne : j ≠ k) : x.outlets[j].pending = none ∧
        (x.outlets[j].state = .opening ∨ x.outlets[j].state = .resting) := by
      rw [cycles] at hj
      rw [entered.others j ne]
      exact others j hj ne
    have first := tell_abandons part (by rw [cycles]; exact before) fault nodup memberOf rest s.outlets[k].state.dir
    obtain ⟨record, log, participants⟩ := abandoned (s := x) (c := c) (k := k) nodup rfl
    have last := member mem first record (withFailed_member _ _) (.inr rfl)
    rw [← last] at record log participants
    rw [cycles] at record participants
    refine ⟨becomes record, fun j hj ne => ?_, fun room => ?_⟩
    · obtain ⟨resting, opening⟩ := participants j hj ne
      rw [entered.others j ne] at resting opening
      refine ⟨fun rests => ?_, fun opens => ?_⟩
      · obtain ⟨state, own⟩ := resting rests
        rw [fields]
        refine ⟨?_, (scanned.state j).symm.imp_right fun same => same.trans state⟩
        dsimp only
        rw [scanned.outlet j]
        exact own
      · obtain ⟨state, own⟩ := opening opens
        have unlisted := (settled.relay j).toListed.unlisted (by rw [state]; exact OutletState.noConfusion)
        rw [(eventEnd_outlet unlisted (s.advance t)).1]
        exact ⟨state, own⟩
    · have here := entered.filed (Nat.lt_of_succ_lt room)
      have usedX : logUsed x.mem < 256 := by rw [here.1]; exact room
      have nowX : x.now = (s.advance t).now := by rw [entered.same]
      have noticed := abandonNoticed_filed entered.wf usedX c k
      have stands := log noticed.1 noticed.2.1
      have endStands := ends stands.wf stands.room
      have kept := endStands.entry _ _ _ _ _ _ (stands.mark.symm ▸ lt_of_lt_of_le noticed.2.2.1 stands.more)
        (stands.entry _ _ _ _ _ _ noticed.2.2.1 noticed.2.2.2)
      have timeX : x.partTime = stamp := by rw [State.partTime, nowX]; rfl
      rw [here.2.1, entered.outlet, timeX] at kept
      dsimp only [optCode, Option.elim] at kept
      rw [failure_code] at kept
      exact kept

end Sys2Proof.Machine
end

section
/-! PROOF. The parts of a completed movement: the estimate, the owner's OK, a pending request (R65 to R67, R86). -/
namespace Sys2Proof.Machine

open Sys2Proof.Safety

/-! ### A scan behind it -/

theorem grant_stamped (s : State) (e : QueueEntry) (k : OutletIx) : (s.grant e).outlets[k] = s.outlets[k] ∨
    (s.grant e).outlets[k].lastChange = s.partTime ∧ (s.grant e).outlets[k].retry = false := by
  by_cases same : k = e.outlet
  · subst same
    obtain ⟨v, kept⟩ := needDriver_outlet (s.granted e) e.outlet .toClosed false
    rw [grant_eq, kept, granted_outlet]
    exact .inr ⟨rfl, rfl⟩
  · rw [grant_eq, (needDriver_only (s.granted e) e.outlet .toClosed false).outlets k same]
    exact .inl (upd_other _ _ same)

/-- R112: an outlet that a scan changes has been granted in this event. -/
theorem scanEntries_stamped (es : List QueueEntry) (s : State) (k : OutletIx) : (scanEntries es s).outlets[k] = s.outlets[k] ∨
    (scanEntries es s).outlets[k].lastChange = s.partTime ∧ (scanEntries es s).outlets[k].retry = false := by
  induction es generalizing s with
  | nil => exact .inl rfl
  | cons e es ih =>
    rw [scanEntries]
    split
    · have time : (s.grant e).partTime = s.partTime := by rw [State.partTime, (grant_loads s e).1, State.partTime]
      rcases ih (s.grant e) with same | granted
      · rw [same]
        exact grant_stamped s e k
      · exact .inr (time ▸ granted)
    · exact ih s

theorem eventEnd_stamped (v old : State) (k : OutletIx) : (v.eventEnd old).outlets[k] = v.outlets[k] ∨
    (v.eventEnd old).outlets[k].lastChange = v.partTime ∧ (v.eventEnd old).outlets[k].retry = false := by
  have same : (v.eventEnd old).outlets[k] = v.scanIfDue.outlets[k] := rfl
  rw [same]
  unfold State.scanIfDue
  split
  · exact scanEntries_stamped v.queue v k
  · exact .inl rfl

theorem eventEnd_unreserved {v : State} {k : OutletIx} (un : Unreserved v k) (listed : Unlisted v k) (old : State) :
    Unreserved (v.eventEnd old) k := fun b r hr => by
  rw [eventEnd_fields] at hr
  rcases (scanIfDue_scanned v).loads b r hr with old | ⟨e, he, same⟩
  · exact un b r old
  · exact fun hk => listed e he (same.trans hk)

/-! ### The end of the movement, and the estimate (R85, R86) -/

/-- The movement has ended, and the estimate has learned unless the verification was skipped. -/
def State.finished (s : State) (k : OutletIx) (q : Pulse) (unverified : Bool) : State :=
  if unverified then s.endMovement k else (s.endMovement k).learn k q.dir q.satisfied

theorem reportVerified_eq (s : State) (k : OutletIx) (q : Pulse) :
    s.reportVerified k q = (s.finished k q false).complete k q.dir false := rfl

theorem reportUnverified_eq (s : State) (k : OutletIx) (q : Pulse) :
    s.reportUnverified k q = (s.finished k q true).complete k q.dir true := rfl

theorem learned_eq (old us : Nat) : learned old us = estimateAfter old (.measured us) := by
  rw [learned, clampNat_fst (by decide), estimateAfter]

theorem finished_same (s : State) (k : OutletIx) (q : Pulse) (unverified : Bool) : s.finished k q unverified = { s with
    moves := upd s.moves k fun _ => .none, outlets := (s.finished k q unverified).outlets } := by
  unfold State.finished
  split
  · rfl
  · cases q.satisfied with
    | measured us => cases q.dir <;> rfl
    | no | atStart => rfl

theorem finished_outlet (s : State) (k : OutletIx) (q : Pulse) (unverified : Bool) :
    (s.finished k q unverified).outlets[k] = { s.outlets[k] with
      retry := false
      closeEst := if q.dir = .toClosed ∧ unverified = false then estimateAfter s.outlets[k].closeEst q.satisfied
        else s.outlets[k].closeEst
      openEst := if q.dir = .toOpen ∧ unverified = false then estimateAfter s.outlets[k].openEst q.satisfied
        else s.outlets[k].openEst } := by
  have ended : (s.endMovement k).outlets[k] = { s.outlets[k] with retry := false } := upd_same _ _ _
  cases unverified with
  | true =>
    rw [State.finished, if_pos rfl, ended, if_neg (fun h => nomatch h.2), if_neg (fun h => nomatch h.2)]
  | false =>
    rw [State.finished, if_neg Bool.false_ne_true]
    cases sat : q.satisfied with
    | measured us =>
      cases dir : q.dir with
      | toClosed =>
        rw [if_pos ⟨rfl, rfl⟩, if_neg (fun h => nomatch h.1), State.learn, State.modOutlet, upd_same, ended, learned_eq]
      | toOpen =>
        rw [if_neg (fun h => nomatch h.1), if_pos ⟨rfl, rfl⟩, State.learn, State.modOutlet, upd_same, ended, learned_eq]
    | no | atStart =>
      rw [State.learn, ended, estimateAfter, estimateAfter, ite_self, ite_self]

theorem finished_other (s : State) {k j : OutletIx} (h : j ≠ k) (q : Pulse) (unverified : Bool) :
    (s.finished k q unverified).outlets[j] = s.outlets[j] := by
  have ended : (s.endMovement k).outlets[j] = s.outlets[j] := upd_other _ _ h
  unfold State.finished
  split
  · exact ended
  · cases q.satisfied with
    | measured us => cases q.dir <;> exact (upd_other _ _ h).trans ended
    | no | atStart => exact ended

/-! ### The owner's OK (R52, R65, R66, R126, R137 to R141) -/

theorem ownerTold_tell {s : State} {k : OutletIx} {w : Owner} (owner : s.outlets[k].owner = some w) (v : State) :
    v.ownerTold s k = v.tell w k s.outlets[k].state.dir .ok := by
  rw [State.ownerTold, State.ownerReply, owner, State.tell]

/-- R126: OK takes the outlet from list and round; one that stands in neither leaves the record as it is. -/
theorem tell_unlisted {s : State} {k : OutletIx} (list : ∀ b : Branch, k ∉ s.shed[b].list)
    (round : ∀ b : Branch, k ∉ s.shed[b].round) (w : Owner) (d : Dir) (b : Branch) : (s.tell w k d .ok).shed[b] = s.shed[b] := by
  by_cases own : w = .restore b
  · rw [own, tell_restore, restoreReply_at, if_pos rfl]
    have filtered : s.shed[b].list.filter (· ≠ k) = s.shed[b].list :=
      List.filter_eq_self.mpr fun j hj => decide_eq_true fun same => list b (same ▸ hj)
    rw [filtered]
    exact leaveRound_out (round b)
  · cases w with
    | restore b' =>
      rw [tell_restore, State.restoreReply]
      exact modShed_other s _ fun h => own (by rw [h])
    | _ => rw [tell_monitor s (fun _ => Owner.noConfusion) k d MemberOutcome.noConfusion]

/-- R141: OK of a close at a record on its way back. -/
theorem tell_closed {s : State} {c : RecNo} {k : OutletIx} (h : k ∈ s.cycles[c].participants)
    (state : s.cycles[c].state = .closing ∨ s.cycles[c].state = .restoring) :
    recordBecomes (s.tell (.cycle c) k .toClosed .ok) c { s.cycles[c] with closed := s.cycles[c].closed ++ [k] } := by
  rw [tell_cycle (cycleReply_closed h state)]
  exact testEnd_becomes (upd_same _ _ _) state

/-- R137, R138: OK of an open at a record that opens. -/
theorem tell_opened {s : State} {c : RecNo} {k : OutletIx} (h : k ∈ s.cycles[c].participants)
    (state : s.cycles[c].state = .opening) (d : Dir) :
    ((∀ j ∈ s.cycles[c].participants, s.outlets[j].state = .resting) → (s.tell (.cycle c) k d .ok).cycles[c] =
      { s.cycles[c] with state := .resting, restDeadline := some (s.now + s.cycles[c].restTime * 1000) }) ∧
    ((∃ j ∈ s.cycles[c].participants, s.outlets[j].state ≠ .resting) → (s.tell (.cycle c) k d .ok).cycles[c] = s.cycles[c]) := by
  have all : (s.cycles[c].participants.all fun k => s.outlets[k].state == .resting) = true ↔
      ∀ j ∈ s.cycles[c].participants, s.outlets[j].state = .resting := by
    rw [List.all_eq_true]
    exact forall₂_congr fun _ _ => beq_iff_eq
  rw [tell_cycle (cycleReply_opened h state d), State.testResting]
  refine ⟨fun rest => ?_, fun ⟨j, hj, moves⟩ => ?_⟩
  · rw [if_pos (all.mpr rest)]
    exact upd_same _ _ _
  · rw [if_neg fun rest => moves (all.mp rest j hj)]

/-- R126: what leaving the round makes of it. -/
theorem leaveRound_fields (r : ShedRec) (k : OutletIx) : (r.leaveRound k).round = r.round.filter (· ≠ k) ∧
    (r.leaveRound k).restoring = (r.restoring && !(k ∈ r.round && (r.leaveRound k).round = [])) := by
  by_cases member : k ∈ r.round
  · by_cases more : ∃ j ∈ r.round, j ≠ k
    · obtain ⟨j, hj, ne⟩ := more
      have some : r.round.filter (· ≠ k) ≠ [] := List.ne_nil_of_mem (List.mem_filter.mpr ⟨hj, decide_eq_true ne⟩)
      rw [leaveRound_more member ⟨j, hj, ne⟩]
      refine ⟨rfl, ?_⟩
      simp only [some, decide_false, Bool.and_false, Bool.not_false, Bool.and_true]
    · have only (j : OutletIx) (hj : j ∈ r.round) : j = k := not_not.mp fun ne => more ⟨j, hj, ne⟩
      rw [leaveRound_last member only]
      refine ⟨(List.filter_eq_nil_iff.mpr fun j hj => ?_).symm, ?_⟩
      · rw [only j hj]
        simp
      · simp [member]
  · rw [leaveRound_out member]
    have kept : r.round.filter (· ≠ k) = r.round := List.filter_eq_self.mpr fun j hj =>
      decide_eq_true (p := j ≠ k) fun same => member (same ▸ hj)
    exact ⟨kept.symm, by simp [member]⟩

/-- R128: an outlet without its mark stands in no list and no round. -/
theorem clearMark_lists (s : State) (k : OutletIx) (b : Branch) :
    (s.clearMark k).shed[b].list = s.shed[b].list.filter (· ≠ k) ∧
    (s.clearMark k).shed[b].round = s.shed[b].round.filter (· ≠ k) ∧
    (s.clearMark k).shed[b].restoring =
      (s.shed[b].restoring && !(k ∈ s.shed[b].round && (s.clearMark k).shed[b].round = [])) := by
  have filter : s.shed[b].list.filter (· != k) = s.shed[b].list.filter (· ≠ k) := List.filter_congr fun j _ => by
    rw [bne, Bool.beq_eq_decide_eq, decide_not]
  obtain ⟨round, restoring⟩ := leaveRound_fields { s.shed[b] with list := s.shed[b].list.filter (· != k) } k
  rw [clearMark_shed, leaveRound_list, filter]
  rw [filter] at round restoring
  exact ⟨rfl, round, restoring⟩

/-- R128: the marks that an outlet loses as it reaches ON. -/
theorem arrived_shed (s : State) (k : OutletIx) (unverified : Bool) (b : Branch) :
    (s.arrived k unverified).shed[b].list = s.shed[b].list.filter (· ≠ k) ∧
    (s.arrived k unverified).shed[b].round = s.shed[b].round.filter (· ≠ k) ∧
    (s.arrived k unverified).shed[b].restoring =
      (s.shed[b].restoring && !(k ∈ s.shed[b].round && (s.arrived k unverified).shed[b].round = [])) := clearMark_lists _ k b

/-! ### The pending OPEN (R65, R77, R103) -/

/-- R77: an open request that needs a driver has begun, and a scan behind it leaves it so. -/
theorem needDriver_begun {s s' : State} {k : OutletIx} (dir : Dir) (retry : Bool) (unlisted : Unlisted s k)
    (phases : s'.phases = s.phases) (work : s'.work = s.work) (sense : s'.sense = s.sense) (now : s'.now = s.now)
    (est : travelEstimate s'.outlets[k] dir = travelEstimate s.outlets[k] dir) (old : State) :
    Begun s' ((s.needDriver k dir retry).eventEnd old) k dir retry := by
  have same := needDriver_same s k dir retry
  have un : Unlisted (s.needDriver k dir retry) k := by
    rw [same]
    exact unlisted
  obtain ⟨outlet, move⟩ := eventEnd_outlet un old
  have scanned := scanIfDue_scanned (s.needDriver k dir retry)
  cases h : s.freeDriver with
  | some d =>
    have named := assign_driver s d k dir
    have assigned := assign_assigned s d k dir
    rw [needDriver_assigns h] at outlet move scanned ⊢
    have busy : (s.assign d k dir).drivers[d] ≠ .free := fun free => by
      rw [free] at named
      cases named
    exact .inl ⟨d, assigned_transfer assigned phases work sense now est (scanned.drivers d busy) move (by rw [outlet])⟩
  | none =>
    rw [needDriver_waits h] at move ⊢
    refine .inr ⟨move.trans (upd_same _ _ _), ?_⟩
    rw [eventEnd_fields]
    exact List.mem_append_right _ (List.mem_singleton_self _)

end Sys2Proof.Machine
end

section
/-! PROOF. A completed movement (O23). -/
namespace Sys2Proof.Machine

open Sys2Proof.Safety

/-- What the start of a pending request and the end of an event leave. -/
structure Carried (t u : State) : Prop where
  cycles : u.cycles = t.cycles
  watches : u.watches = t.watches
  shed : u.shed = t.shed
  phases : u.phases = t.phases
  work : u.work = t.work
  sense : u.sense = t.sense
  now : u.now = t.now
  order : ∀ e, OrderKept e t u
  cycle : ∀ j : OutletIx, u.outlets[j].cycle = t.outlets[j].cycle

theorem Carried.refl (t : State) : Carried t t := ⟨rfl, rfl, rfl, rfl, rfl, rfl, rfl, fun e => .refl e t, fun _ => rfl⟩

theorem Carried.trans {t u v : State} (h : Carried t u) (g : Carried u v) : Carried t v where
  cycles := g.cycles.trans h.cycles
  watches := g.watches.trans h.watches
  shed := g.shed.trans h.shed
  phases := g.phases.trans h.phases
  work := g.work.trans h.work
  sense := g.sense.trans h.sense
  now := g.now.trans h.now
  order e := (h.order e).trans (g.order e)
  cycle j := (g.cycle j).trans (h.cycle j)

theorem carried_eventEnd (v old : State) : Carried v (v.eventEnd old) := by
  have fields := eventEnd_fields v old
  refine ⟨?_, ?_, ?_, ?_, ?_, ?_, ?_, fun e => eventEnd_orderKept e v old, eventEnd_cycle v old⟩
  all_goals rw [fields]

/-- A step at one outlet that keeps its membership. -/
theorem Carried.of_only {k : OutletIx} {t u : State} (only : Only k t u) (cycle : u.outlets[k].cycle = t.outlets[k].cycle)
    (same : u = { t with
      outlets := u.outlets, moves := u.moves, drivers := u.drivers, waitList := u.waitList, loads := u.loads, queue := u.queue
      nextArrival := u.nextArrival, scanDue := u.scanDue }) : Carried t u := by
  refine ⟨?_, ?_, ?_, ?_, ?_, ?_, ?_, fun e => .of_same ?_ ?_ ?_ ?_, fun j => ?_⟩
  iterate 11 rw [same]
  by_cases hj : j = k
  · rw [hj, cycle]
  · rw [only.outlets j hj]

/-- The state `v` in which the result of a movement of outlet `k` is reported is, in what its owner has, the state `s`. -/
structure Starts (s v : State) (k : OutletIx) : Prop where
  outlet : v.outlets[k] = s.outlets[k]
  states : ∀ j : OutletIx, v.outlets[j].state = s.outlets[j].state
  cycles : v.cycles = s.cycles
  watches : v.watches = s.watches
  shed : v.shed = s.shed
  orders : v.orders = s.orders
  mem : v.mem = s.mem
  phases : v.phases = s.phases
  work : v.work = s.work

theorem orderAnswered_congr {s p t : State} {e : SlotNo} {k : OutletIx} {r : MemberOutcome} (orders : p.orders = s.orders)
    (mem : p.mem = s.mem) (h : orderAnswered p t e k r) : orderAnswered s t e k r := by
  unfold orderAnswered at h ⊢
  rwa [orders, mem] at h

/-- R52, R179: what the owner's OK makes of the orders, and of records that it does not reach. -/
theorem okTold {s p u : State} {k : OutletIx} {w : Owner} {d : Dir} (wf : MemWf s.mem) (owner : s.outlets[k].owner = some w)
    (orders : p.orders = s.orders) (mem : p.mem = s.mem) (cycles : p.cycles = s.cycles) (watches : p.watches = s.watches)
    (carried : Carried (p.tell w k d .ok) u) :
    (∀ e, s.outlets[k].owner = some (.order e) → orderAnswered s u e k .ok) ∧
    ((∀ c, s.outlets[k].owner ≠ some (.cycle c)) → u.cycles = s.cycles ∧ u.watches = s.watches ∧
      ∀ e : SlotNo, s.outlets[k].owner ≠ some (.order e) → u.orders[e] = s.orders[e]) := by
  refine ⟨fun e own => ?_, fun plain => ?_⟩
  · have same : w = .order e := Option.some.inj (owner.symm.trans own)
    rw [same] at carried
    exact (carried.order e).answered (orderAnswered_congr orders mem (tell_answered (mem ▸ wf) e k d .ok))
  · obtain ⟨-, cycles', watches', others⟩ := tell_beyond p (w := w) (fun c same => plain c (by rw [owner, same])) k d .ok
    refine ⟨?_, ?_, fun e ne => ?_⟩
    · rw [carried.cycles, cycles', cycles]
    · rw [carried.watches, watches', watches]
    · rw [(carried.order e).entry, (others e fun same => ne (by rw [owner, same])).entry, orders]

/-- R65: an outlet that has closed, with its owner told. -/
theorem close_told {s v : State} {k : OutletIx} {q : Pulse} {w : Owner} (starts : Starts s v k) (loose : Loose v k .toClosed)
    (owner : s.outlets[k].owner = some w) (unverified : Bool) :
    ((v.finished k q unverified).arrived k unverified).ownerTold (v.finished k q unverified) k =
      ((v.finished k q unverified).arrived k unverified).tell w k .toClosed .ok := by
  have outlet := finished_outlet v k q unverified
  have state : v.outlets[k].state = .closing := movingDir_closing.mp loose.state
  rw [ownerTold_tell (w := w) (by rw [outlet, starts.outlet]; exact owner), outlet, state]
  rfl

/-- What a completed close leaves to the shed monitor, the records and the orders. -/
structure ClosedFor (s u : State) (k : OutletIx) : Prop where
  marks : ∀ b : Branch, u.shed[b].list = s.shed[b].list.filter (· ≠ k) ∧ u.shed[b].round = s.shed[b].round.filter (· ≠ k) ∧
    u.shed[b].restoring = (s.shed[b].restoring && !(k ∈ s.shed[b].round && u.shed[b].round = []))
  toOrder : ∀ e, s.outlets[k].owner = some (.order e) → orderAnswered s u e k .ok
  toRecord : ∀ c : RecNo, s.outlets[k].owner = some (.cycle c) → k ∈ s.cycles[c].participants →
    (s.cycles[c].state = .closing ∨ s.cycles[c].state = .restoring) →
      recordBecomes u c { s.cycles[c] with closed := s.cycles[c].closed ++ [k] }
  others : (∀ c, s.outlets[k].owner ≠ some (.cycle c)) → u.cycles = s.cycles ∧ u.watches = s.watches ∧
    ∀ e : SlotNo, s.outlets[k].owner ≠ some (.order e) → u.orders[e] = s.orders[e]

theorem closedFor {s v u : State} {k : OutletIx} {q : Pulse} {w : Owner} (wf : MemWf s.mem) (starts : Starts s v k)
    (owner : s.outlets[k].owner = some w) (unverified : Bool)
    (carried : Carried (((v.finished k q unverified).arrived k unverified).tell w k .toClosed .ok) u) : ClosedFor s u k := by
  have finished := finished_same v k q unverified
  have arrived := arrived_same (v.finished k q unverified) k unverified
  have marks (b : Branch) := arrived_shed (v.finished k q unverified) k unverified b
  have shed : (v.finished k q unverified).shed = s.shed := by rw [finished]; exact starts.shed
  simp only [shed] at marks
  generalize (v.finished k q unverified).arrived k unverified = p at *
  have orders : p.orders = s.orders := by rw [arrived, finished]; exact starts.orders
  have mem : p.mem = s.mem := by rw [arrived, finished]; exact starts.mem
  have cycles : p.cycles = s.cycles := by rw [arrived, finished]; exact starts.cycles
  have watches : p.watches = s.watches := by rw [arrived, finished]; exact starts.watches
  obtain ⟨toOrder, others⟩ := okTold wf owner orders mem cycles watches carried
  refine ⟨fun b => ?_, toOrder, fun c own part state => ?_, others⟩
  · have same : u.shed[b] = p.shed[b] := by
      rw [carried.shed]
      refine tell_unlisted (fun b => ?_) (fun b => ?_) w .toClosed b
      · rw [(marks b).1]
        exact fun h => by simpa using (List.mem_filter.mp h).2
      · rw [(marks b).2.1]
        exact fun h => by simpa using (List.mem_filter.mp h).2
    rw [same]
    exact marks b
  · have same : w = .cycle c := Option.some.inj (owner.symm.trans own)
    have closed := tell_closed (s := p) (c := c) (k := k) (by rw [cycles]; exact part) (by rw [cycles]; exact state)
    rw [cycles, ← same] at closed
    exact recordBecomes_congr closed (by rw [carried.cycles]) carried.cycle

/-- The outlet that has closed, with its owner told. -/
structure ClosedOutlet (s v t : State) (k : OutletIx) (q : Pulse) (unverified : Bool) : Prop where
  outlet : t.outlets[k] = { s.outlets[k] with
    state := .on, lastChange := v.partTime, peakSeen := false, shedMark := false, owner := none, retry := false
    unverified := if unverified then some .toClosed else s.outlets[k].unverified
    closeEst := if q.dir = .toClosed ∧ unverified = false then estimateAfter s.outlets[k].closeEst q.satisfied
      else s.outlets[k].closeEst
    openEst := if q.dir = .toOpen ∧ unverified = false then estimateAfter s.outlets[k].openEst q.satisfied
      else s.outlets[k].openEst
    cycle := t.outlets[k].cycle }
  move : t.moves[k] = .none
  now : t.now = v.now
  inputs : t.phases = v.phases ∧ t.work = v.work ∧ t.sense = v.sense
  unlisted : Unlisted t k

theorem closedOutlet {s v : State} {k : OutletIx} (q : Pulse) (w : Owner) (starts : Starts s v k) (unlisted : Unlisted v k)
    (unverified : Bool) :
    ClosedOutlet s v (((v.finished k q unverified).arrived k unverified).tell w k .toClosed .ok) k q unverified := by
  have atFinished := finished_outlet v k q unverified
  have finished := finished_same v k q unverified
  have outlet := arrived_outlet (v.finished k q unverified) k unverified
  have arrived := arrived_same (v.finished k q unverified) k unverified
  have time : (v.finished k q unverified).partTime = v.partTime := by rw [finished]; rfl
  rw [atFinished, starts.outlet, time] at outlet
  have told : Told ((v.finished k q unverified).arrived k unverified)
      (((v.finished k q unverified).arrived k unverified).tell w k .toClosed .ok) := tell_told _ w k _ MemberOutcome.noConfusion
  have record := told.outlet k
  rw [outlet] at record
  refine ⟨record, ?_, ?_, ?_, ?_⟩
  · rw [told.same, arrived, finished]
    exact upd_same _ _ _
  · rw [told.same, arrived, finished]
  · rw [told.same, arrived, finished]
    exact ⟨rfl, rfl, rfl⟩
  · rw [told.same, arrived, finished]
    exact unlisted

/-- R65: a close that completes without a pending OPEN. -/
theorem close_completed {s v : State} {k : OutletIx} {q : Pulse} {w : Owner} (wf : MemWf s.mem) (starts : Starts s v k)
    (loose : Loose v k .toClosed) (dir : q.dir = .toClosed) (owner : s.outlets[k].owner = some w)
    (clear : s.outlets[k].unverified = none) (unverified : Bool) (pending : s.outlets[k].pending = none) (old : State) :
    Completed s (((v.finished k q unverified).completeClose k unverified).eventEnd old) k q unverified := by
  have whole : s.outlets[k].wholeFrame = false :=
    starts.outlet ▸ loose.requests.wholeFrame_false (movingDir_on loose.state)
  rw [completeClose_plain unverified (by rw [finished_outlet, starts.outlet]; exact pending), close_told starts loose owner]
  have closed := closedOutlet q w starts loose.unlisted unverified
  have carried := carried_eventEnd (((v.finished k q unverified).arrived k unverified).tell w k .toClosed .ok) old
  have shared := closedFor wf starts owner unverified carried
  generalize ((v.finished k q unverified).arrived k unverified).tell w k .toClosed .ok = x at *
  obtain ⟨atEnd, moveEnd⟩ := eventEnd_outlet closed.unlisted old
  rw [closed.outlet] at atEnd
  have now : (x.eventEnd old).now = v.now := carried.now.trans closed.now
  generalize x.eventEnd old = u at *
  have ne {P : Prop} (h : q.dir = .toOpen) : P := by
    rw [dir] at h
    cases h
  exact {
    retry := by rw [atEnd]
    closeEst := by rw [atEnd]
    openEst := by rw [atEnd]
    lastChange := by rw [atEnd, now]; rfl
    pendingDone := by rw [atEnd]; exact pending
    closes := fun _ _ => by
      rw [atEnd]
      exact ⟨rfl, rfl, moveEnd.trans closed.move, rfl, whole, by rw [clear]⟩
    closesThenOpens := fun _ w' some => by rw [pending] at some; cases some
    unmarks := fun _ => ⟨by rw [atEnd], shared.marks⟩
    opens := ne
    opensThenCloses := ne
    toOrder := shared.toOrder
    toMonitor := ne
    toRecordClosed := fun _ => shared.toRecord
    toRecordOpened := ne
    others := shared.others }

/-- R65: a close that completes with an OPEN pending. -/
theorem close_completed_opens {s v : State} {k : OutletIx} {q : Pulse} {w w' : Owner} (wf : MemWf s.mem) (starts : Starts s v k)
    (loose : Loose v k .toClosed) (dir : q.dir = .toClosed) (owner : s.outlets[k].owner = some w) (unverified : Bool)
    (pending : s.outlets[k].pending = some (.opn w')) (old : State) :
    Completed s (((v.finished k q unverified).completeClose k unverified).eventEnd old) k q unverified := by
  rw [completeClose_opens unverified (by rw [finished_outlet, starts.outlet]; exact pending), close_told starts loose owner]
  have closed := closedOutlet q w starts loose.unlisted unverified
  obtain ⟨x, hx⟩ : ∃ x, x = ((v.finished k q unverified).arrived k unverified).tell w k .toClosed .ok := ⟨_, rfl⟩
  have told {u : State} (carried : Carried x u) := closedFor wf starts owner unverified (hx ▸ carried)
  rw [← hx] at closed ⊢
  obtain ⟨y, hy⟩ : ∃ y, y = x.modOutlet k fun o => { o with pending := none } := ⟨_, rfl⟩
  rw [← hy]
  have atY : y.outlets[k] = { x.outlets[k] with pending := none } := by rw [hy]; exact upd_same _ _ _
  obtain ⟨mark, outlet⟩ := enterOpening_outlet y k w'
  have same := enterOpening_same y k w'
  have carriedY : Carried x (y.enterOpening k w') :=
    .of_only ((hy ▸ modOutlet_only x k _).trans (enterOpening_only y k w')) (by rw [outlet, atY]) (by rw [same, hy]; rfl)
  have carried := carriedY.trans (carried_eventEnd (y.enterOpening k w') old)
  have shared := told carried
  have unlistedY : Unlisted y k := by rw [hy]; exact closed.unlisted
  have unlisted : Unlisted (y.enterOpening k w') k := by
    rw [same]
    exact unlistedY
  have unreserved : Unreserved ((y.enterOpening k w').eventEnd old) k := by
    refine eventEnd_unreserved ?_ unlisted old
    rw [enterOpening_eq, needDriver_same]
    exact release_unreserved _ k
  obtain ⟨atEnd, moveEnd⟩ := eventEnd_outlet unlisted old
  have move : moveDir (y.enterOpening k w').moves[k] = some .toOpen := needDriver_moveDir _ k .toOpen false
  have time : y.partTime = v.partTime := by rw [hy, State.partTime, State.modOutlet, closed.now]; rfl
  rw [outlet, atY, closed.outlet, time] at atEnd
  have now : ((y.enterOpening k w').eventEnd old).now = v.now := carried.now.trans closed.now
  have begun : Begun { s with now := ((y.enterOpening k w').eventEnd old).now, sense := ((y.enterOpening k w').eventEnd old).sense }
      ((y.enterOpening k w').eventEnd old) k .toOpen false := by
    have asked := openAsked_same y k w'
    have record := openAsked_outlet y k w'
    refine needDriver_begun (s := y.openAsked k w') .toOpen false ?_ ?_ ?_ ?_ ?_ ?_ old
    · rw [asked]
      exact unlistedY
    · rw [asked, hy]
      exact (closed.inputs.1.trans starts.phases).symm
    · rw [asked, hy]
      exact (closed.inputs.2.1.trans starts.work).symm
    · rw [asked]
      exact carried.sense.trans (by rw [hy]; rfl)
    · rw [asked]
      exact carried.now.trans (by rw [hy]; rfl)
    · rw [record, atY, closed.outlet, dir]
      rfl
  generalize (y.enterOpening k w').eventEnd old = u at *
  have ne {P : Prop} (h : q.dir = .toOpen) : P := by
    rw [dir] at h
    cases h
  exact {
    retry := by rw [atEnd]
    closeEst := by rw [atEnd]
    openEst := by rw [atEnd]
    lastChange := by rw [atEnd, now]; rfl
    pendingDone := by rw [atEnd]
    closes := fun _ none => by rw [pending] at none; cases none
    closesThenOpens := fun _ w'' some => by
      rw [pending] at some
      cases some
      exact ⟨by rw [atEnd], by rw [atEnd], by rw [moveEnd]; exact move, begun, unreserved⟩
    unmarks := fun _ => ⟨by rw [atEnd], shared.marks⟩
    opens := ne
    opensThenCloses := ne
    toOrder := shared.toOrder
    toMonitor := ne
    toRecordClosed := fun _ => shared.toRecord
    toRecordOpened := ne
    others := shared.others }

/-! ### An open (R66) -/

theorem open_told {s v : State} {k : OutletIx} {q : Pulse} {w : Owner} (starts : Starts s v k) (loose : Loose v k .toOpen)
    (owner : s.outlets[k].owner = some w) (unverified : Bool) (st : OutletState) :
    ((v.finished k q unverified).opened k st unverified).ownerTold (v.finished k q unverified) k =
      ((v.finished k q unverified).opened k st unverified).tell w k .toOpen .ok := by
  have outlet := finished_outlet v k q unverified
  have state : v.outlets[k].state = .opening := movingDir_opening.mp loose.state
  rw [ownerTold_tell (w := w) (by rw [outlet, starts.outlet]; exact owner), outlet, state]
  rfl

/-- The outlet that has opened into `st`, with its owner told. -/
structure OpenedOutlet (s v t : State) (k : OutletIx) (q : Pulse) (st : OutletState) (unverified : Bool) : Prop where
  outlet : t.outlets[k] = { s.outlets[k] with
    state := st, lastChange := v.partTime, owner := none, pending := none, retry := false
    unverified := if unverified then some .toOpen else s.outlets[k].unverified
    closeEst := if q.dir = .toClosed ∧ unverified = false then estimateAfter s.outlets[k].closeEst q.satisfied
      else s.outlets[k].closeEst
    openEst := if q.dir = .toOpen ∧ unverified = false then estimateAfter s.outlets[k].openEst q.satisfied
      else s.outlets[k].openEst
    cycle := t.outlets[k].cycle }
  move : t.moves[k] = .none
  now : t.now = v.now
  unlisted : Unlisted t k

theorem openedOutlet {s v : State} {k : OutletIx} (q : Pulse) (w : Owner) (st : OutletState) (starts : Starts s v k)
    (unlisted : Unlisted v k) (unverified : Bool) :
    OpenedOutlet s v (((v.finished k q unverified).opened k st unverified).tell w k .toOpen .ok) k q st unverified := by
  have atFinished := finished_outlet v k q unverified
  have finished := finished_same v k q unverified
  have outlet := opened_outlet (v.finished k q unverified) k st unverified
  have opened := opened_same (v.finished k q unverified) k st unverified
  have time : (v.finished k q unverified).partTime = v.partTime := by rw [finished]; rfl
  rw [atFinished, starts.outlet, time] at outlet
  have told : Told ((v.finished k q unverified).opened k st unverified)
      (((v.finished k q unverified).opened k st unverified).tell w k .toOpen .ok) := tell_told _ w k _ MemberOutcome.noConfusion
  have record := told.outlet k
  rw [outlet] at record
  refine ⟨record, ?_, ?_, ?_⟩
  · rw [told.same, opened, finished]
    exact upd_same _ _ _
  · rw [told.same, opened, finished]
  · rw [told.same, opened, finished]
    exact unlisted

/-- What a completed open leaves to the shed monitor, the records and the orders. -/
structure OpenedFor (s u : State) (k : OutletIx) : Prop where
  toOrder : ∀ e, s.outlets[k].owner = some (.order e) → orderAnswered s u e k .ok
  toMonitor : (∀ b, s.outlets[k].owner ≠ some (.restore b)) → u.shed = s.shed
  others : (∀ c, s.outlets[k].owner ≠ some (.cycle c)) → u.cycles = s.cycles ∧ u.watches = s.watches ∧
    ∀ e : SlotNo, s.outlets[k].owner ≠ some (.order e) → u.orders[e] = s.orders[e]

theorem openedFor {s v u : State} {k : OutletIx} {q : Pulse} {w : Owner} (st : OutletState) (wf : MemWf s.mem)
    (starts : Starts s v k) (owner : s.outlets[k].owner = some w) (unverified : Bool)
    (carried : Carried (((v.finished k q unverified).opened k st unverified).tell w k .toOpen .ok) u) : OpenedFor s u k := by
  have finished := finished_same v k q unverified
  have opened := opened_same (v.finished k q unverified) k st unverified
  generalize (v.finished k q unverified).opened k st unverified = p at *
  obtain ⟨toOrder, others⟩ := okTold (p := p) wf owner (by rw [opened, finished]; exact starts.orders)
    (by rw [opened, finished]; exact starts.mem) (by rw [opened, finished]; exact starts.cycles)
    (by rw [opened, finished]; exact starts.watches) carried
  refine ⟨toOrder, fun plain => ?_, others⟩
  rw [carried.shed, tell_monitor p (fun b same => plain b (by rw [owner, same])) k .toOpen MemberOutcome.noConfusion, opened, finished]
  exact starts.shed

/-- R66: the state that an opened outlet enters. -/
theorem openedState_eq {s m : State} {k : OutletIx} (cycle : m.outlets[k].cycle = s.outlets[k].cycle)
    (owner : m.outlets[k].owner = s.outlets[k].owner) (cycles : m.cycles = s.cycles) : m.openedState k =
      if ∃ c : RecNo, s.outlets[k].cycle = some c ∧ s.outlets[k].owner = some (.cycle c) ∧
        (s.cycles[c].state = .opening ∨ s.cycles[c].state = .resting) then .resting else .off := by
  unfold State.openedState
  rw [cycle, owner, cycles]
  cases member : s.outlets[k].cycle with
  | none => rw [if_neg fun ⟨c, hc, _⟩ => nomatch hc]
  | some c => exact if_congr ⟨fun h => ⟨c, rfl, h.1, h.2⟩, fun ⟨d, hd, h⟩ => Option.some.inj hd ▸ h⟩ rfl rfl

/-- R137, R138: an outlet that opens for its record. -/
theorem openedFor_record {s v u : State} {k : OutletIx} {q : Pulse} {c : RecNo} (control : Control s) (starts : Starts s v k)
    (unverified : Bool) (part : k ∈ s.cycles[c].participants) (owner : s.outlets[k].owner = some (.cycle c))
    (state : s.cycles[c].state = .opening) (carried : Carried (((v.finished k q unverified).opened k
      ((v.finished k q unverified).openedState k) unverified).tell (.cycle c) k .toOpen .ok) u) :
    ((∀ j ∈ s.cycles[c].participants, j ≠ k → s.outlets[j].state = .resting) → u.cycles[c] = { s.cycles[c] with
        state := .resting, restDeadline := some (u.now + s.cycles[c].restTime * 1000) }) ∧
      ((∃ j ∈ s.cycles[c].participants, j ≠ k ∧ s.outlets[j].state ≠ .resting) → u.cycles[c] = s.cycles[c]) := by
  have finished := finished_same v k q unverified
  have atFinished := finished_outlet v k q unverified
  rw [starts.outlet] at atFinished
  have rests : (v.finished k q unverified).openedState k = .resting := by
    rw [openedState_eq (s := s) (by rw [atFinished]) (by rw [atFinished]) (by rw [finished]; exact starts.cycles)]
    exact if_pos ⟨c, ((control.member k).member c).mpr part, owner, .inl state⟩
  have outlet := opened_outlet (v.finished k q unverified) k ((v.finished k q unverified).openedState k) unverified
  have only := opened_only (v.finished k q unverified) k ((v.finished k q unverified).openedState k) unverified
  have opened := opened_same (v.finished k q unverified) k ((v.finished k q unverified).openedState k) unverified
  rw [rests] at outlet only opened carried
  generalize (v.finished k q unverified).opened k .resting unverified = p at *
  have states (j : OutletIx) (hj : j ≠ k) : p.outlets[j].state = s.outlets[j].state := by
    rw [only.outlets j hj, finished_other v hj]
    exact starts.states j
  have cycles : p.cycles = s.cycles := by rw [opened, finished]; exact starts.cycles
  have now : u.now = p.now := by rw [carried.now, (tell_told p _ k _ MemberOutcome.noConfusion).same]
  obtain ⟨all, more⟩ := tell_opened (s := p) (c := c) (k := k) (by rw [cycles]; exact part) (by rw [cycles]; exact state) .toOpen
  rw [cycles] at all more
  refine ⟨fun rest => ?_, fun ⟨j, hj, ne, moves⟩ => ?_⟩
  · rw [carried.cycles, now]
    refine all fun j hj => ?_
    by_cases ne : j = k
    · rw [ne, outlet]
    · rw [states j ne]
      exact rest j hj ne
  · rw [carried.cycles]
    exact more ⟨j, hj, by rw [states j ne]; exact moves⟩

/-- R66: an open that completes without a pending CLOSE. -/
theorem open_completed {s v : State} {k : OutletIx} {q : Pulse} {w : Owner} (control : Control s) (wf : MemWf s.mem)
    (starts : Starts s v k) (loose : Loose v k .toOpen) (dir : q.dir = .toOpen) (owner : s.outlets[k].owner = some w)
    (clear : s.outlets[k].unverified = none) (unverified : Bool) (pending : s.outlets[k].pending = none) (old : State) :
    Completed s (((v.finished k q unverified).completeOpen k unverified).eventEnd old) k q unverified := by
  have atFinished := finished_outlet v k q unverified
  rw [starts.outlet] at atFinished
  have state := openedState_eq (s := s) (m := v.finished k q unverified) (k := k) (by rw [atFinished]) (by rw [atFinished])
    (by rw [finished_same]; exact starts.cycles)
  rw [completeOpen_plain unverified (by rw [atFinished]; exact pending), open_told starts loose owner]
  have opened := openedOutlet q w ((v.finished k q unverified).openedState k) starts loose.unlisted unverified
  have carried := carried_eventEnd (((v.finished k q unverified).opened k ((v.finished k q unverified).openedState k)
    unverified).tell w k .toOpen .ok) old
  have shared := openedFor _ wf starts owner unverified carried
  obtain ⟨x, hx⟩ : ∃ x, x = ((v.finished k q unverified).opened k ((v.finished k q unverified).openedState k)
    unverified).tell w k .toOpen .ok := ⟨_, rfl⟩
  have toRecord {u : State} (carriedU : Carried x u) (c : RecNo) (own : w = .cycle c) (part : k ∈ s.cycles[c].participants)
      (opens : s.cycles[c].state = .opening) :=
    openedFor_record control starts (q := q) (u := u) unverified part (own ▸ owner) opens (own ▸ hx ▸ carriedU)
  rw [← hx] at opened carried shared ⊢
  obtain ⟨atEnd, moveEnd⟩ := eventEnd_outlet opened.unlisted old
  rw [opened.outlet, state] at atEnd
  have now : (x.eventEnd old).now = v.now := carried.now.trans opened.now
  generalize x.eventEnd old = u at *
  have ne {P : Prop} (h : q.dir = .toClosed) : P := by
    rw [dir] at h
    cases h
  exact {
    retry := by rw [atEnd]
    closeEst := by rw [atEnd]
    openEst := by rw [atEnd]
    lastChange := by rw [atEnd, now]; rfl
    pendingDone := by rw [atEnd]
    closes := ne
    closesThenOpens := ne
    unmarks := ne
    opens := fun _ _ => by
      rw [atEnd]
      exact ⟨rfl, moveEnd.trans opened.move, by rw [clear], rfl⟩
    opensThenCloses := fun _ cl w' some => by rw [pending] at some; cases some
    toOrder := shared.toOrder
    toMonitor := fun _ => shared.toMonitor
    toRecordClosed := ne
    toRecordOpened := fun _ _ c own part opens => toRecord carried c (Option.some.inj (owner.symm.trans own)) part opens
    others := shared.others }

/-- R66: an open that completes with a CLOSE pending. -/
theorem open_completed_closes {s v : State} {k : OutletIx} {q : Pulse} {w w' : Owner} {cl : ClassNo} (wf : MemWf s.mem)
    (starts : Starts s v k) (loose : Loose v k .toOpen) (dir : q.dir = .toOpen) (owner : s.outlets[k].owner = some w)
    (unverified : Bool) (pending : s.outlets[k].pending = some (.cls cl w')) (old : State) :
    Completed s (((v.finished k q unverified).completeOpen k unverified).eventEnd old) k q unverified := by
  rw [completeOpen_closes unverified (by rw [finished_outlet, starts.outlet]; exact pending), open_told starts loose owner]
  have opened := openedOutlet q w .off starts loose.unlisted unverified
  obtain ⟨x, hx⟩ : ∃ x, x = ((v.finished k q unverified).opened k .off unverified).tell w k .toOpen .ok := ⟨_, rfl⟩
  have told {u : State} (carried : Carried x u) := openedFor .off wf starts owner unverified (hx ▸ carried)
  rw [← hx] at opened ⊢
  have outlet := enqueue_outlet x k cl w'
  have same := enqueue_eq x k cl w'
  have carriedX : Carried x (x.enqueue k cl w') := .of_only (enqueue_only x k cl w') (by rw [outlet]) (by rw [same])
  have carried := carriedX.trans (carried_eventEnd (x.enqueue k cl w') old)
  have shared := told carried
  have time : x.partTime = v.partTime := by rw [State.partTime, opened.now]; rfl
  have timeQ : (x.enqueue k cl w').partTime = v.partTime := by rw [← time, same]; rfl
  rw [opened.outlet, time] at outlet
  have arrivals : ∀ e ∈ x.queue, e.arrival < x.nextArrival := by
    rw [hx, (tell_told _ w k _ MemberOutcome.noConfusion).same, opened_same, finished_same]
    exact loose.but.tables.queueArrivals.2
  have entry : x.newEntry k cl w' ∈ ((x.enqueue k cl w').eventEnd old).queue ∨
      ((x.enqueue k cl w').eventEnd old).outlets[k].state = .closing := by
    rcases (scanIfDue_scanned (x.enqueue k cl w')).entries _ (mem_enqueue.mpr (.inl rfl)) with stays | ⟨e, he, arrival, closing⟩
    · exact .inl stays
    · rcases mem_enqueue.mp he with same | old
      · rw [same] at closing
        exact .inr closing
      · exact absurd arrival (Nat.ne_of_lt (arrivals e old))
  have now : ((x.enqueue k cl w').eventEnd old).now = v.now := carried.now.trans opened.now
  have record : ((x.enqueue k cl w').eventEnd old).outlets[k] = { (x.enqueue k cl w').outlets[k] with
      state := ((x.enqueue k cl w').eventEnd old).outlets[k].state
      lastChange := ((x.enqueue k cl w').eventEnd old).outlets[k].lastChange
      retry := ((x.enqueue k cl w').eventEnd old).outlets[k].retry
      unverified := ((x.enqueue k cl w').eventEnd old).outlets[k].unverified } :=
    (scanIfDue_scanned (x.enqueue k cl w')).outlet k
  have states : ((x.enqueue k cl w').eventEnd old).outlets[k].state = (x.enqueue k cl w').outlets[k].state ∨
    ((x.enqueue k cl w').eventEnd old).outlets[k].state = .closing := (scanIfDue_scanned (x.enqueue k cl w')).state k
  have stamped : ((x.enqueue k cl w').eventEnd old).outlets[k].lastChange = v.partTime ∧
      ((x.enqueue k cl w').eventEnd old).outlets[k].retry = false := by
    rcases eventEnd_stamped (x.enqueue k cl w') old k with same | ⟨stamp, retry⟩
    · rw [same, outlet]
      exact ⟨rfl, rfl⟩
    · exact ⟨stamp.trans timeQ, retry⟩
  have instant : (x.newEntry k cl w').instant = v.now := opened.now
  rw [outlet] at record states
  generalize (x.enqueue k cl w').eventEnd old = u at *
  have ne {P : Prop} (h : q.dir = .toClosed) : P := by
    rw [dir] at h
    cases h
  exact {
    retry := stamped.2
    closeEst := by rw [record]
    openEst := by rw [record]
    lastChange := by rw [stamped.1, now]; rfl
    pendingDone := by rw [record]
    closes := ne
    closesThenOpens := ne
    unmarks := ne
    opens := fun _ none => by rw [pending] at none; cases none
    opensThenCloses := fun _ cl' w'' some => by
      rw [pending] at some
      cases some
      refine ⟨by rw [record], ?_⟩
      rcases states with awaits | closing
      · refine entry.elim (fun stays => .inr ⟨awaits, _, stays, rfl, rfl, rfl, instant.trans now.symm⟩) .inl
      · exact .inl closing
    toOrder := shared.toOrder
    toMonitor := fun _ => shared.toMonitor
    toRecordClosed := ne
    toRecordOpened := fun _ none => by rw [pending] at none; cases none
    others := shared.others }

/-- R65 to R67: a movement of outlet `k` whose result is reported in `v`. -/
theorem completed {s v : State} {k : OutletIx} {q : Pulse} (control : Control s) (wf : MemWf s.mem) (starts : Starts s v k)
    (loose : Loose v k q.dir) (started : moveStarted s.moves[k] = true) (unverified : Bool) (old : State) :
    Completed s (((v.finished k q unverified).complete k q.dir unverified).eventEnd old) k q unverified := by
  have clear := (control.relay k).unverified started
  have requests : Requests s.outlets[k] := (control.relay k).requests
  have state := loose.state
  rw [starts.outlet] at state
  cases dir : q.dir with
  | toClosed =>
    rw [dir] at loose state
    have closing := movingDir_closing.mp state
    obtain ⟨w, owner⟩ := Option.ne_none_iff_exists'.mp (requests.owned.mpr (.inr (.inl closing)))
    rcases requests.pending_closing closing with pending | ⟨w', pending⟩
    · exact close_completed wf starts loose dir owner clear unverified pending old
    · exact close_completed_opens wf starts loose dir owner unverified pending old
  | toOpen =>
    rw [dir] at loose state
    have opening := movingDir_opening.mp state
    obtain ⟨w, owner⟩ := Option.ne_none_iff_exists'.mp (requests.owned.mpr (.inr (.inr opening)))
    rcases requests.pending_opening opening with pending | ⟨cl, w', pending⟩
    · exact open_completed control wf starts loose dir owner clear unverified pending old
    · exact open_completed_closes wf starts loose dir owner unverified pending old

/-! ### The three commands -/

theorem offerDriver_states (s : State) (d : DriverNo) (j : OutletIx) : (s.offerDriver d).outlets[j].state = s.outlets[j].state := by
  cases wait : s.waitList with
  | nil => rw [offerDriver_idle d wait]; rfl
  | cons w rest =>
    rw [offerDriver_next d wait]
    by_cases hj : j = w.outlet
    · rw [hj, assign_outlet]
      rfl
    · rw [assign_outlet_other _ d w.dir hj]
      rfl

theorem starts_offerDriver {s : State} {d : DriverNo} {k : OutletIx} (outlet : (s.offerDriver d).outlets[k] = s.outlets[k]) :
    Starts s (s.offerDriver d) k := by
  refine ⟨outlet, offerDriver_states s d, ?_, ?_, ?_, ?_, ?_, ?_, ?_⟩
  all_goals rw [offerDriver_same]

/-- R83, R85, R87: the end of a pulse that completes the movement. -/
theorem endPulse_completes {s : State} {d : DriverNo} {k : OutletIx} {q : Pulse} (move : (s.offerDriver d).moves[k] = .driving q)
    (shown : s.usable q.phase = true → q.satisfied ≠ .no) : s.endPulse d k =
      ((s.offerDriver d).finished k q (!s.usable q.phase)).complete k q.dir (!s.usable q.phase) := by
  have still : (s.offerDriver d).usable q.phase = s.usable q.phase := by rw [offerDriver_same]; rfl
  cases usable : s.usable q.phase with
  | false =>
    simp only [State.endPulse, move, still, usable, Bool.not_false, if_true]
    rfl
  | true =>
    have satisfied := shown usable
    cases result : q.satisfied with
    | no => exact absurd result satisfied
    | atStart | measured _ =>
      simp only [State.endPulse, move, still, usable, result, Bool.not_true, Bool.false_eq_true, if_false]
      rfl

theorem exec_senseChange_end {s : State} (h : s.resetting = none) (t : Nat) (k : OutletIx) : exec (.senseChange t k) s =
    .next (((s.advance t).acceptSense k).eventEnd (s.advance t)) := congrArg Host.Outcome.next (event_end h t _)

/-- R84, R85: a report that satisfies a verification. -/
theorem senseReport_satisfied {s : State} {k : OutletIx} {q : Pulse} {level : Bool} {r : Nat} (move : s.moves[k] = .verifying q)
    (unsatisfied : q.satisfied = .no) (level' : level = (q.dir == .toClosed)) (after : q.start ≤ r) (inside : r ≤ q.windowEnd) :
    s.senseReport k level r = s.reportVerified k { q with satisfied := .measured (r - q.start) } := by
  have hit : q.report level r = { q with satisfied := .measured (r - q.start) } := by
    rw [report_eq, if_pos ⟨unsatisfied, level', after, inside⟩]
  simp only [State.senseReport, move, hit, reduceCtorEq, if_false]

/-- Settles O23: the end of the pulse, the deadline, the report; then by direction and pending request. -/
theorem movementCompletes : Obligations.MovementCompletes := by
  unfold Obligations.MovementCompletes
  intro s t k q running control wf
  have control' : Control (s.advance t) := control.view (advance_view s t)
  refine ⟨fun d job stop driver drives move reached shown => ?_, fun move reached unusable => ?_,
    fun r run move unsatisfied differs held level after inside => ?_⟩
  · subst drives
    obtain ⟨loose, moves, outlet⟩ := offerDriver_loose (s := s.advance t) control' (d := d) (k := job.outlet) (dir := q.dir)
      (by rw [State.advance_drivers, driver]; rfl) (by rw [State.advance_moves, move]; rfl)
    have block := endPulse_block (s.advance t) d job.outlet
    have starts := starts_offerDriver (s := s.advance t) outlet
    rw [exec_pulseEnd_end running, widthPassed_driving (s := s.advance t) driver,
      if_pos (show stop ≤ (s.advance t).now from reached)]
    have ends := endPulse_completes (s := s.advance t) (moves.trans move) shown
    rw [ends] at block ⊢
    generalize (s.advance t).offerDriver d = v at *
    have done := completed (s := s) (v := v) (q := q) control wf
      ⟨starts.outlet, starts.states, starts.cycles, starts.watches, starts.shed, starts.orders, starts.mem, starts.phases,
        starts.work⟩ loose (by rw [move]; rfl) (!s.usable q.phase) (s.advance t)
    exact ⟨_, rfl, done, by rw [eventEnd_fields]; exact block.now, eventEnd_measuring (s := s.advance t) block,
      eventEnd_inputs (s := s.advance t) block⟩
  · have loose := loose_of_verifying control' move
    have block := verifyFailed_block (s.advance t) k q
    have ends : (s.advance t).verifyFailed k q = ((s.advance t).finished k q true).complete k q.dir true := by
      rw [State.verifyFailed, if_pos (by rw [show (s.advance t).usable q.phase = false from unusable]; rfl)]
      rfl
    rw [exec_verifyDeadline_end running, deadlineReached_verifying (s := s.advance t) move,
      if_pos (show q.deadline ≤ (s.advance t).now from reached)]
    rw [ends] at block ⊢
    have done := completed (s := s) (v := s.advance t) control wf ⟨rfl, fun _ => rfl, rfl, rfl, rfl, rfl, rfl, rfl, rfl⟩ loose
      (by rw [move]; rfl) true (s.advance t)
    exact ⟨_, rfl, done, by rw [eventEnd_fields]; exact block.now, eventEnd_measuring (s := s.advance t) block,
      eventEnd_inputs (s := s.advance t) block⟩
  · have since : (s.advance t).sense[k].since = r := since_eq run
    have seen : Control ((s.advance t).debounced k) := control'.view (.of_tables rfl rfl rfl rfl rfl rfl rfl rfl)
    have loose := loose_of_verifying (s := (s.advance t).debounced k) seen move
    have ends := (acceptSense_settled (s := s.advance t) differs (by rw [since]; exact held)).trans
      (senseReport_satisfied (s := (s.advance t).debounced k) (q := q) (r := (s.advance t).sense[k].since) move unsatisfied level
        (by rw [since]; exact after) (by rw [since]; exact inside))
    have block := reportVerified_block ((s.advance t).debounced k) k
      { q with satisfied := .measured ((s.advance t).sense[k].since - q.start) }
    rw [exec_senseChange_end running, ends]
    rw [since, reportVerified_eq] at block ⊢
    have done := completed (s := s) (v := (s.advance t).debounced k) (q := { q with satisfied := .measured (r - q.start) }) control
      wf ⟨rfl, fun _ => rfl, rfl, rfl, rfl, rfl, rfl, rfl, rfl⟩ loose (by rw [move]; rfl) false (s.advance t)
    have inputs := eventEnd_inputs (s := (s.advance t).debounced k) (old := s.advance t) block
    refine ⟨_, rfl, done, by rw [eventEnd_fields]; exact block.now, ?_, inputs.1, inputs.2.2⟩
    rw [inputs.2.1]
    exact upd_same _ _ _

end Sys2Proof.Machine
end

section
/-! PROOF. An order's request on a single outlet that moves nothing (R53 to R58, R60 to R62). -/
namespace Sys2Proof.Machine

open Sys2Proof.Safety

/-! ### SUPERSEDED at the owners that a request replaces (R53, R54) -/

/-- A member that has been answered keeps its answer. -/
theorem orderAnswered_again {x y : State} {e : SlotNo} {k : OutletIx} {r : MemberOutcome} (h : orderAnswered x y e k r)
    (r' : MemberOutcome) : orderAnswered x (y.orderReply e k r') e k r := fun entry held => by
  obtain ⟨more, last⟩ := h entry held
  refine ⟨fun still => ?_, fun all => ?_⟩
  · obtain ⟨held', bytes⟩ := more still
    have twice := answered_twice entry.members k r r'
    rw [orderReply_open (entry := { entry with members := answered entry.members k r }) held' (by rw [twice]; exact still)]
    refine ⟨(setOrder_same y e _).trans ?_, bytes⟩
    dsimp only
    rw [twice]
  · have done := last all
    rw [orderReply_none done.1]
    exact done

/-- What SUPERSEDED leaves at the owners `dropped`, for an outlet of no record and no round. -/
structure Superseded (x y : State) (k : OutletIx) (dropped : Owner → Prop) : Prop where
  same : y = { x with orders := y.orders, mem := y.mem, cause := y.cause }
  told : ∀ e, dropped (.order e) → orderAnswered x y e k .superseded
  kept : ∀ e, ¬dropped (.order e) → OrderKept e x y
  block : BlockStep x y

/-- R126: an outlet that stands in no round leaves none. -/
theorem tell_superseded {x : State} {k : OutletIx} (out : ∀ c : RecNo, k ∉ x.cycles[c].participants)
    (round : ∀ b : Branch, k ∉ x.shed[b].round) (w : Owner) (d : Dir) : x.tell w k d .superseded =
      { x with orders := (x.tell w k d .superseded).orders, mem := (x.tell w k d .superseded).mem
               cause := (x.tell w k d .superseded).cause } := by
  have shed : (x.tell w k d .superseded).shed = x.shed := vector_ext _ _ fun b => by
    by_cases own : w = .restore b
    · rw [own, tell_restore, restoreReply_at, if_neg MemberOutcome.noConfusion]
      exact leaveRound_out (round b)
    · cases w with
      | restore b' =>
        rw [tell_restore, State.restoreReply]
        exact modShed_other x _ fun h => own (by rw [h])
      | _ => rw [(tell_outside x (fun c _ => out c) d _).2.2 fun _ => Owner.noConfusion]
  have same := (tell_outside x (w := w) (fun c _ => out c) d .superseded).1
  rw [shed] at same
  exact same

theorem tell_keepsAnswer {x z : State} {e : SlotNo} {k : OutletIx} {r : MemberOutcome} (h : orderAnswered x z e k r)
    (out : ∀ c : RecNo, k ∉ z.cycles[c].participants) (w : Owner) (d : Dir) (r' : MemberOutcome) :
    orderAnswered x (z.tell w k d r') e k r := by
  by_cases own : w = .order e
  · rw [own, tell_order]
    exact orderAnswered_again h r'
  · exact ((tell_outside z (fun c _ => out c) d r').2.1 e own).answered h

/-- R53, R54: the owners of `rs` one after another. -/
theorem superseded_all {k : OutletIx} {rs : List Reply} (all : ∀ r ∈ rs, r.outlet = k ∧ r.outcome = .superseded) {x : State}
    (wf : MemWf x.mem) (out : ∀ c : RecNo, k ∉ x.cycles[c].participants) (round : ∀ b : Branch, k ∉ x.shed[b].round) :
    Superseded x (rs.foldl (fun s r => s.tell r.owner r.outlet r.dir r.outcome) x) k fun w => ∃ r ∈ rs, r.owner = w := by
  induction rs generalizing x with
  | nil => exact ⟨rfl, fun e ⟨_, h, _⟩ => (nomatch h), fun e _ => .refl e x, .refl x⟩
  | cons a rs ih =>
    obtain ⟨⟨outlet, outcome⟩, rest⟩ := List.forall_mem_cons.mp all
    rw [List.foldl_cons, outlet, outcome]
    have first := tell_superseded out round a.owner a.dir
    have block := tell_block x a.owner k a.dir .superseded
    have kept := (tell_outside x (w := a.owner) (fun c _ => out c) a.dir .superseded).2.1
    have own (e : SlotNo) (h : a.owner = .order e) := h ▸ tell_answered wf e k a.dir .superseded
    generalize x.tell a.owner k a.dir .superseded = z at *
    have outZ (c : RecNo) : k ∉ z.cycles[c].participants := by
      rw [first]
      exact out c
    have last := ih rest (block.wf wf) outZ fun b => by
      rw [first]
      exact round b
    refine ⟨by rw [last.same, first], fun e ⟨r, hr, he⟩ => ?_, fun e no => ?_, block.trans last.block⟩
    · by_cases here : a.owner = .order e
      · refine (List.foldlRecOn (motive := fun v => orderAnswered x v e k .superseded ∧
          ∀ c : RecNo, k ∉ v.cycles[c].participants) rs _ ⟨own e here, outZ⟩ fun v ⟨answered, outV⟩ r hr => ?_).1
        obtain ⟨outlet, outcome⟩ := rest r hr
        rw [outlet, outcome]
        refine ⟨tell_keepsAnswer answered outV _ _ _, ?_⟩
        rw [(tell_outside v (fun c _ => outV c) r.dir .superseded).1]
        exact outV
      · rcases List.mem_cons.mp hr with rfl | hr
        · exact absurd he here
        · exact (kept e here).before (last.told e ⟨r, hr, he⟩)
    · exact (kept e fun h => no ⟨a, List.mem_cons_self, h⟩).trans
        (last.kept e fun ⟨r, hr, he⟩ => no ⟨r, List.mem_cons_of_mem _ hr, he⟩)

theorem ownerReply_superseded (s : State) (k : OutletIx) {r : Reply} (h : r ∈ s.ownerReply k .superseded) :
    r.outlet = k ∧ r.outcome = .superseded := by
  unfold State.ownerReply at h
  split at h
  · cases h
  · rw [List.mem_singleton.mp h]
    exact ⟨rfl, rfl⟩

theorem ownerReply_owner (s : State) (k : OutletIx) (r : MemberOutcome) (w : Owner) :
    (∃ x ∈ s.ownerReply k r, x.owner = w) ↔ ownedBy s.outlets[k] w := by
  unfold State.ownerReply ownedBy
  cases s.outlets[k].owner with
  | none => exact ⟨fun ⟨_, h, _⟩ => (nomatch h), fun h => nomatch h⟩
  | some v => simp

theorem pendingReply_superseded (s : State) (k : OutletIx) {r : Reply} (h : r ∈ s.pendingReply k .superseded) :
    r.outlet = k ∧ r.outcome = .superseded := by
  unfold State.pendingReply at h
  split at h
  · cases h
  · rw [List.mem_singleton.mp h]
    exact ⟨rfl, rfl⟩

theorem pendingReply_owner (s : State) (k : OutletIx) (r : MemberOutcome) (w : Owner) :
    (∃ x ∈ s.pendingReply k r, x.owner = w) ↔ pendingOf s.outlets[k] w := by
  unfold State.pendingReply pendingOf
  cases s.outlets[k].pending with
  | none => exact ⟨fun ⟨_, h, _⟩ => (nomatch h), fun ⟨_, h, _⟩ => nomatch h⟩
  | some v => simp

/-! ### The take of the order, and the outlet that it asks -/

theorem enrolled_block (s : State) (e : SlotNo) (rest : List SlotNo) (ms : List OutletIx) :
    MemStep blockBytes s.mem (s.enrolled e rest ms).mem := by
  rw [enrolled_mem, hold_mem]
  exact memStep_writeTaken _ _ _

theorem enrolled_orderKept (s : State) {e j : SlotNo} (rest : List SlotNo) (ms : List OutletIx) (h : j ≠ e) :
    OrderKept j s (s.enrolled e rest ms) := by
  have same := enrolled_same s e rest ms
  refine ⟨enrolled_other s rest ms h, fun a ha => (enrolled_memory s e rest ms).bytes a (slotBytes_other h ha), ?_, ?_⟩
  · rw [same]
  · rw [same]
    exact id

/-- An outlet that a request has asked, before its owners are told. -/
structure Asked (s p : State) (k : OutletIx) (o : Outlet) (queue : List QueueEntry) : Prop where
  same : p = { s with outlets := p.outlets, shed := p.shed, queue := queue }
  outlet : p.outlets[k] = o
  others : ∀ j : OutletIx, j ≠ k → p.outlets[j] = s.outlets[j]
  unmarked : ∀ b : Branch, p.shed[b].list = s.shed[b].list.filter (· ≠ k) ∧ p.shed[b].round = s.shed[b].round.filter (· ≠ k)

theorem Asked.round {s p : State} {k : OutletIx} {o : Outlet} {queue : List QueueEntry} (asked : Asked s p k o queue) (b : Branch) :
    k ∉ p.shed[b].round := by
  rw [(asked.unmarked b).2]
  exact fun h => by simpa using (List.mem_filter.mp h).2

/-- R55: the mark goes. -/
theorem clearMark_asked (s : State) (k : OutletIx) :
    Asked s (s.clearMark k) k { s.outlets[k] with shedMark := false } s.queue :=
  ⟨rfl, clearMark_outlet s k, fun _ hj => (clearMark_only s k).outlets _ hj, fun b => by
    obtain ⟨list, round, -⟩ := clearMark_lists s k b
    exact ⟨list, round⟩⟩

theorem Asked.modOutlet {s p : State} {k : OutletIx} {o : Outlet} {queue : List QueueEntry} (asked : Asked s p k o queue)
    (f : Outlet → Outlet) : Asked s (p.modOutlet k f) k (f o) queue :=
  ⟨congrArg (fun v : State => v.modOutlet k f) asked.same, by rw [← asked.outlet]; exact upd_same _ _ _,
    fun j hj => (upd_other _ _ hj).trans (asked.others j hj), asked.unmarked⟩

theorem Asked.reown {s p : State} {k : OutletIx} {o : Outlet} {queue : List QueueEntry} (asked : Asked s p k o queue)
    (w : Owner) : Asked s (p.reown k w) k o (queue.map fun x => if x.outlet = k then { x with owner := w } else x) := by
  refine ⟨?_, asked.outlet, asked.others, asked.unmarked⟩
  rw [State.reown, asked.same]
  simp only [beq_iff_eq]

/-- The order of slot `e` taken from the head of the FIFO, with outlet `k` its one member. -/
structure Enrolled (s b : State) (e : SlotNo) (rest : List SlotNo) (k : OutletIx) : Prop where
  same : b = { s with fifo := rest, mem := b.mem, orders := b.orders }
  order : b.orders[e] = some { fields := slotFields s.mem e, members := [(k, none)], record := none }
  others : ∀ j, j ≠ e → OrderKept j s b
  memory : MemStep blockBytes s.mem b.mem
  taken : MemWf s.mem → slotState b.mem e = 2

theorem enrolled_enrolled (s : State) (e : SlotNo) (rest : List SlotNo) (k : OutletIx) :
    Enrolled s (s.enrolled e rest [k]) e rest k :=
  ⟨enrolled_same s e rest [k], enrolled_order s e rest [k], fun _ hj => enrolled_orderKept s rest [k] hj, enrolled_block s e rest [k],
    fun wf => enrolled_taken wf e rest [k]⟩

/-- R53, R54, R57, R58: the request waits for an outcome, and the owners in `dropped` have been told. -/
theorem requested_waits {s b p : State} {e : SlotNo} {rest : List SlotNo} {k : OutletIx} {o : Outlet} {queue : List QueueEntry}
    (wf : MemWf s.mem) (due : s.scanDue = false) (enrolled : Enrolled s b e rest k) (asked : Asked b p k o queue)
    (out : ∀ c : RecNo, k ∉ s.cycles[c].participants) {rs : List Reply}
    (all : ∀ r ∈ rs, r.outlet = k ∧ r.outcome = .superseded) {dropped : Owner → Prop}
    (owners : ∀ w, (∃ r ∈ rs, r.owner = w) ↔ dropped w) (mine : ¬dropped (.order e)) (old : State) :
    Safety.Requested s ((rs.foldl (fun s r => s.tell r.owner r.outlet r.dir r.outcome) p).eventEnd old) s.now e rest k none o queue
      dropped := by
  have mem : p.mem = b.mem := by rw [asked.same]
  have orders : p.orders = b.orders := by rw [asked.same]
  have told := superseded_all all (x := p) (by rw [mem]; exact enrolled.memory.wf wf)
    (fun c => by rw [asked.same, enrolled.same]; exact out c) asked.round
  generalize rs.foldl (fun s r => s.tell r.owner r.outlet r.dir r.outcome) p = y at *
  have due' : y.scanDue = false := by
    rw [told.same, asked.same, enrolled.same]
    exact due
  have plain := eventEnd_plain due' old
  have keeps (j : SlotNo) := eventEnd_orderKept j y old
  have bytes := eventEnd_bytes (old := old) told.block
  have before (j : SlotNo) : OrderKept j b p := .of_same orders mem (by rw [asked.same]) (by rw [asked.same])
  have own : OrderKept e b (y.eventEnd old) := ((before e).trans (told.kept e fun h => mine ((owners _).mp h))).trans (keeps e)
  generalize y.eventEnd old = u at *
  refine ⟨?_, ?_, fun j hj => ?_, fun b => ?_, ⟨?_, ?_⟩, fun x hx => ?_, fun j hj no => ?_, fun a ha => ?_⟩
  · rw [plain, told.same, asked.same, enrolled.same]
  · rw [plain, told.same]
    exact asked.outlet
  · rw [plain, told.same]
    refine (asked.others j hj).trans ?_
    rw [enrolled.same]
  · rw [plain, told.same]
    have lists := asked.unmarked b
    rw [enrolled.same] at lists
    exact lists
  · rw [slotState_congr own.slot]
    exact enrolled.taken wf
  · exact own.entry.trans enrolled.order
  · have ne : x ≠ e := fun same => mine (same ▸ hx)
    exact (((enrolled.others x ne).trans (before x)).before (told.told x ((owners _).mpr hx)) |> (keeps x).answered)
  · exact ((((enrolled.others j hj).trans (before j)).trans (told.kept j fun h => no ((owners _).mp h))).trans (keeps j)).entry
  · rw [bytes a ha, mem]
    exact enrolled.memory.bytes a (Bool.or_eq_false_iff.mp ha).1

/-- R55, R56, R61, R62: the request is answered at once, and the order with it. -/
theorem requested_answered {s b p : State} {e : SlotNo} {rest : List SlotNo} {k : OutletIx} {o : Outlet}
    (wf : MemWf s.mem) (due : s.scanDue = false) (enrolled : Enrolled s b e rest k) (asked : Asked b p k o s.queue) (d : Dir)
    (r : MemberOutcome) (old : State) :
    Safety.Requested s ((p.tell (.order e) k d r).eventEnd old) s.now e rest k (some r) o s.queue fun _ => False := by
  have mem : p.mem = b.mem := by rw [asked.same]
  have orders : p.orders = b.orders := by rw [asked.same]
  have wf' : MemWf p.mem := by rw [mem]; exact enrolled.memory.wf wf
  have answered := orderReply_answered wf' e k r
  have others (j : SlotNo) (hj : j ≠ e) := orderReply_orderKept hj p k r
  have parts := orderReply_parts p e k r
  have block := orderReply_block p e k r
  rw [tell_order]
  generalize p.orderReply e k r = y at *
  have due' : y.scanDue = false := by
    rw [parts, asked.same, enrolled.same]
    exact due
  have plain := eventEnd_plain due' old
  have keeps (j : SlotNo) := eventEnd_orderKept j y old
  have bytes := eventEnd_bytes (old := old) block
  have before (j : SlotNo) : OrderKept j b p := .of_same orders mem (by rw [asked.same]) (by rw [asked.same])
  have held : p.orders[e] = some { fields := slotFields s.mem e, members := [(k, none)], record := none } := by
    rw [orders]
    exact enrolled.order
  have finished : orderFinished y e (loneResult k r) := by
    have last := (answered _ held).2 (by simp [Safety.answered])
    have answers : Safety.answered [(k, none)] k r = [k].map fun j => (j, some r) := by simp [Safety.answered]
    rwa [answers, membersResult_answers] at last
  generalize y.eventEnd old = u at *
  refine ⟨?_, ?_, fun j hj => ?_, fun b => ?_, (keeps e).finished finished, fun x => False.elim, fun j hj _ => ?_, fun a ha => ?_⟩
  · rw [plain, parts, asked.same, enrolled.same]
  · rw [plain, parts]
    exact asked.outlet
  · rw [plain, parts]
    refine (asked.others j hj).trans ?_
    rw [enrolled.same]
  · rw [plain, parts]
    have lists := asked.unmarked b
    rw [enrolled.same] at lists
    exact lists
  · exact ((((enrolled.others j hj).trans (before j)).trans (others j hj)).trans (keeps j)).entry
  · rw [bytes a ha, mem]
    exact enrolled.memory.bytes a (Bool.or_eq_false_iff.mp ha).1

end Sys2Proof.Machine
end

section
/-! PROOF. SWITCH_ON and SWITCH_OFF over a single outlet whose request moves nothing (O31, O32). -/
namespace Sys2Proof.Machine

open Sys2Proof.Safety

/-! ### The requests of an order by state (R55 to R58, R60 to R62) -/

theorem clearMark_fields (s : State) (k : OutletIx) : (s.clearMark k).outlets[k].cycle = s.outlets[k].cycle ∧
    (s.clearMark k).outlets[k].state = s.outlets[k].state ∧ (s.clearMark k).outlets[k].owner = s.outlets[k].owner ∧
    (s.clearMark k).outlets[k].pending = s.outlets[k].pending := by
  rw [clearMark_outlet]
  exact ⟨rfl, rfl, rfl, rfl⟩

theorem notOwned_of_free {o : Outlet} (out : o.cycle = none) (w : Owner) : o.ownedByMember w = false := by
  rw [Outlet.ownedByMember, out]

theorem requestClose_answer {s : State} {k : OutletIx} {r : MemberOutcome} (h : closeAnswer s.outlets[k] = some r) (cls : ClassNo)
    (e : SlotNo) : s.requestClose k cls (.order e) = (s.clearMark k, at1 (.order e) k .toClosed r) := by
  obtain ⟨-, state, -, -⟩ := clearMark_fields s k
  cases cycle : s.outlets[k].cycle with
  | some c =>
    rw [closeAnswer, if_pos (by rw [cycle]; exact Option.some_ne_none c)] at h
    simp only [State.requestClose, cycle, Option.isSome_some, if_true, ← Option.some.inj h]
  | none =>
    have free := notOwned_of_free (o := (s.clearMark k).outlets[k]) ((clearMark_fields s k).1.trans cycle) (.order e)
    rw [closeAnswer, if_neg (fun out => out cycle)] at h
    cases hs : s.outlets[k].state <;> rw [hs] at h state <;> cases h <;>
      simp only [State.requestClose, cycle, Option.isSome_none, Bool.false_eq_true, if_false, State.closeByState, state, free]

theorem requestOpen_answer {s : State} {k : OutletIx} {r : MemberOutcome} (h : openAnswer s.outlets[k] = some r)
    (e : SlotNo) : s.requestOpen k (.order e) = (s.clearMark k, at1 (.order e) k .toOpen r) := by
  obtain ⟨-, state, -, -⟩ := clearMark_fields s k
  cases cycle : s.outlets[k].cycle with
  | some c =>
    rw [openAnswer, if_pos (by rw [cycle]; exact Option.some_ne_none c)] at h
    simp only [State.requestOpen, cycle, Option.isSome_some, if_true, ← Option.some.inj h]
  | none =>
    have free := notOwned_of_free (o := (s.clearMark k).outlets[k]) ((clearMark_fields s k).1.trans cycle) (.order e)
    rw [openAnswer, if_neg (fun out => out cycle)] at h
    cases hs : s.outlets[k].state <;> rw [hs] at h state <;> cases h <;>
      simp only [State.requestOpen, cycle, Option.isSome_none, Bool.false_eq_true, if_false, State.openByState, state, free]

/-- An order that asks an outlet of no cycle. -/
structure Asks (s : State) (k : OutletIx) (e : SlotNo) (st : OutletState) : Prop where
  out : s.outlets[k].cycle = none
  state : s.outlets[k].state = st
  owner : s.outlets[k].owner ≠ some (.order e)

theorem Asks.replaceOwner {s : State} {k : OutletIx} {e : SlotNo} {st : OutletState} (h : Asks s k e st) :
    (s.clearMark k).replaceOwner k (.order e) = ((s.clearMark k).modOutlet k fun o => { o with owner := some (.order e) },
      (s.clearMark k).ownerReply k .superseded) := by
  rw [State.replaceOwner, (clearMark_fields s k).2.2.1, if_neg]
  exact fun same => h.owner (eq_of_beq same)

/-- R57, R107. -/
theorem requestClose_awaiting {s : State} {k : OutletIx} {e : SlotNo} (h : Asks s k e .awaitClose) (cls : ClassNo) :
    s.requestClose k cls (.order e) = (((s.clearMark k).modOutlet k fun o => { o with owner := some (.order e) }).reown k (.order e),
      (s.clearMark k).ownerReply k .superseded) := by
  simp only [State.requestClose, h.out, Option.isSome_none, Bool.false_eq_true, if_false, State.closeByState,
    (clearMark_fields s k).2.1, h.state, h.replaceOwner]

/-- The owner replaced and the pending request dropped (R53, R54). -/
theorem retaken {s : State} {k : OutletIx} {e : SlotNo} {st : OutletState} (h : Asks s k e st) :
    (let r := (s.clearMark k).replaceOwner k (.order e)
     let q := r.1.setPending k none
     (q.1, r.2 ++ q.2)) =
    ((s.clearMark k).modOutlet k fun o => { o with owner := some (.order e), pending := none },
      (s.clearMark k).ownerReply k .superseded ++ (s.clearMark k).pendingReply k .superseded) := by
  have pending : ((s.clearMark k).modOutlet k fun o => { o with owner := some (.order e) }).pendingReply k .superseded =
      (s.clearMark k).pendingReply k .superseded := by
    rw [State.pendingReply, State.modOutlet, upd_same]
    rfl
  dsimp only
  rw [h.replaceOwner, State.setPending]
  dsimp only
  rw [pending]
  simp only [State.modOutlet, upd_comp]

/-- R53, R54, R58. -/
theorem requestClose_closing {s : State} {k : OutletIx} {e : SlotNo} (h : Asks s k e .closing) (cls : ClassNo) :
    s.requestClose k cls (.order e) =
      ((s.clearMark k).modOutlet k fun o => { o with owner := some (.order e), pending := none },
        (s.clearMark k).ownerReply k .superseded ++ (s.clearMark k).pendingReply k .superseded) := by
  rw [← retaken h]
  simp only [State.requestClose, h.out, Option.isSome_none, Bool.false_eq_true, if_false, State.closeByState,
    (clearMark_fields s k).2.1, h.state]

theorem requestOpen_opening {s : State} {k : OutletIx} {e : SlotNo} (h : Asks s k e .opening) : s.requestOpen k (.order e) =
      ((s.clearMark k).modOutlet k fun o => { o with owner := some (.order e), pending := none },
        (s.clearMark k).ownerReply k .superseded ++ (s.clearMark k).pendingReply k .superseded) := by
  rw [← retaken h]
  simp only [State.requestOpen, h.out, Option.isSome_none, Bool.false_eq_true, if_false, State.openByState,
    (clearMark_fields s k).2.1, h.state]

/-- R54, R60. -/
theorem requestClose_opening {s : State} {k : OutletIx} {e : SlotNo} (h : Asks s k e .opening) (cls : ClassNo) :
    s.requestClose k cls (.order e) = ((s.clearMark k).modOutlet k fun o => { o with pending := some (.cls cls (.order e)) },
      (s.clearMark k).pendingReply k .superseded) := by
  simp only [State.requestClose, h.out, Option.isSome_none, Bool.false_eq_true, if_false, State.closeByState,
    (clearMark_fields s k).2.1, h.state, State.setPending]

theorem requestOpen_closing {s : State} {k : OutletIx} {e : SlotNo} (h : Asks s k e .closing) : s.requestOpen k (.order e) =
    ((s.clearMark k).modOutlet k fun o => { o with pending := some (.opn (.order e)) },
      (s.clearMark k).pendingReply k .superseded) := by
  simp only [State.requestOpen, h.out, Option.isSome_none, Bool.false_eq_true, if_false, State.openByState,
    (clearMark_fields s k).2.1, h.state, State.setPending]

/-! ### The two commands over their members -/

theorem exec_switchOn_end {s : State} {t : Nat} {e : SlotNo} {rest : List SlotNo} {ms : List OutletIx}
    (taken : Taken s e rest .switchOn) (resolved : resolveTargets s.work (slotFields s.mem e) = .ok ms) :
    exec (.switchOn t) s = .next ((ms.foldl (fun v k => settle (v.requestClose k (slotFields s.mem e).closeClass
      (.order e))) ((s.advance t).enrolled e rest ms)).eventEnd (s.advance t)) := by
  obtain ⟨running, -, head, posted, kind⟩ := taken
  have work : (s.advance t).takeMembers .switchOn (fun e f ms s => s.switchOnMembers e f ms) =
      ((s.advance t).hold e rest).switchOnMembers e (slotFields s.mem e) ms :=
    takeMembers_of_head (s := s.advance t) head posted kind resolved _
  exact (congrArg Host.Outcome.next (event_end running t _)).trans (by rw [work]; rfl)

theorem exec_switchOff_end {s : State} {t : Nat} {e : SlotNo} {rest : List SlotNo} {ms : List OutletIx}
    (taken : Taken s e rest .switchOff) (resolved : resolveTargets s.work (slotFields s.mem e) = .ok ms) :
    exec (.switchOff t) s = .next ((ms.foldl (fun v k => settle (v.requestOpen k (.order e)))
      ((s.advance t).enrolled e rest ms)).eventEnd (s.advance t)) := by
  obtain ⟨running, -, head, posted, kind⟩ := taken
  have work : (s.advance t).takeMembers .switchOff (fun e f ms s => s.switchOffMembers e f ms) =
      ((s.advance t).hold e rest).switchOffMembers e (slotFields s.mem e) ms :=
    takeMembers_of_head (s := s.advance t) head posted kind resolved _
  exact (congrArg Host.Outcome.next (event_end running t _)).trans (by rw [work]; rfl)

/-- An outlet of no record is no record's participant. -/
theorem control_stranger {s : State} (control : Control s) {k : OutletIx} (out : s.outlets[k].cycle = none) (c : RecNo) :
    k ∉ s.cycles[c].participants := fun part => by
  have member := ((control.member k).member c).mpr part
  rw [out] at member
  cases member

/-! ### A single outlet (R175) -/

section
variable {s : State} {t : Nat} {e : SlotNo} {rest : List SlotNo} {k : OutletIx}

/-- What an order over the single outlet `k` needs for its request. -/
structure Lone (s : State) (e : SlotNo) (k : OutletIx) : Prop where
  control : Control s
  due : s.scanDue = false
  memory : MemWf s.mem
  owner : ∀ w, s.outlets[k].owner = some w → w ≠ .order e
  pending : ∀ q, s.outlets[k].pending = some q → q.owner ≠ .order e

theorem Lone.notOwned (h : Lone s e k) : ¬ownedBy s.outlets[k] (.order e) := fun own => h.owner _ own rfl

theorem Lone.notPending (h : Lone s e k) : ¬pendingOf s.outlets[k] (.order e) := fun ⟨q, held, own⟩ => h.pending q held own

theorem Lone.asks (h : Lone s e k) (out : s.outlets[k].cycle = none) {st : OutletState} (state : s.outlets[k].state = st)
    {b : State} (enrolled : Enrolled (s.advance t) b e rest k) : Asks b k e st := by
  have outlets : b.outlets[k] = s.outlets[k] := by
    rw [enrolled.same]
    rfl
  exact ⟨by rw [outlets]; exact out, by rw [outlets]; exact state, by rw [outlets]; exact fun own => h.owner _ own rfl⟩

theorem requested_advance {u : State} {now : Nat} {r : Option MemberOutcome} {o : Outlet} {queue : List QueueEntry}
    {dropped : Owner → Prop} (h : Safety.Requested (s.advance t) u now e rest k r o queue dropped) :
    Safety.Requested s u now e rest k r o queue dropped :=
  ⟨h.frame, h.outlet, h.others, h.unmarked, h.answer, h.toDropped, h.orders, h.memory⟩

/-- The request has told the owners in `rs`, and waits. -/
theorem Lone.waits (h : Lone s e k) (out : s.outlets[k].cycle = none) {b p : State} (enrolled : Enrolled (s.advance t) b e rest k)
    {o : Outlet} {queue : List QueueEntry} (asked : Asked b p k o queue) {rs : List Reply}
    (all : ∀ r ∈ rs, r.outlet = k ∧ r.outcome = .superseded) {dropped : Owner → Prop}
    (owners : ∀ w, (∃ r ∈ rs, r.owner = w) ↔ dropped w) (mine : ¬dropped (.order e)) :
    Safety.Requested s ((settle (p, rs)).eventEnd (s.advance t)) (max s.now t) e rest k none o queue dropped := by
  rw [settle_foldl]
  exact requested_advance (requested_waits (s := s.advance t) h.memory h.due enrolled asked (control_stranger h.control out) all owners mine
    (s.advance t))

/-- The request is answered at once. -/
theorem Lone.answers (h : Lone s e k) {b : State} (enrolled : Enrolled (s.advance t) b e rest k) (d : Dir) (r : MemberOutcome) :
    Safety.Requested s ((settle (b.clearMark k, at1 (.order e) k d r)).eventEnd (s.advance t)) (max s.now t) e rest k (some r)
      { s.outlets[k] with shedMark := false } s.queue fun _ => False := by
  have asked := clearMark_asked b k
  have same : b.outlets[k] = s.outlets[k] ∧ b.queue = s.queue := by
    rw [enrolled.same]
    exact ⟨rfl, rfl⟩
  rw [same.1, same.2] at asked
  rw [settle_foldl]
  exact requested_advance (requested_answered (s := s.advance t) h.memory h.due enrolled asked d r (s.advance t))

/-- The owner has been replaced, and a pending request dropped. -/
theorem Lone.retakes (h : Lone s e k) (out : s.outlets[k].cycle = none) {b : State} (enrolled : Enrolled (s.advance t) b e rest k) :
    Safety.Requested s ((settle ((b.clearMark k).modOutlet k fun o => { o with owner := some (.order e), pending := none },
        (b.clearMark k).ownerReply k .superseded ++ (b.clearMark k).pendingReply k .superseded)).eventEnd (s.advance t))
      (max s.now t) e rest k none { s.outlets[k] with shedMark := false, owner := some (.order e), pending := none } s.queue
      fun w => ownedBy s.outlets[k] w ∨ pendingOf s.outlets[k] w := by
  have same : b.outlets[k] = s.outlets[k] ∧ b.queue = s.queue := by
    rw [enrolled.same]
    exact ⟨rfl, rfl⟩
  have asked := (clearMark_asked b k).modOutlet fun o => { o with owner := some (.order e), pending := none }
  rw [same.1, same.2] at asked
  refine h.waits out enrolled asked (fun r hr => ?_) (fun w => ?_) fun own => own.elim h.notOwned h.notPending
  · exact (List.mem_append.mp hr).elim (ownerReply_superseded _ k) (pendingReply_superseded _ k)
  · have owner := ownerReply_owner (b.clearMark k) k .superseded w
    have pending := pendingReply_owner (b.clearMark k) k .superseded w
    rw [clearMark_outlet, same.1] at owner pending
    simp only [List.mem_append, or_and_right, exists_or]
    exact or_congr owner pending

/-- The pending request has been replaced. -/
theorem Lone.pends (h : Lone s e k) (out : s.outlets[k].cycle = none) {b : State} (enrolled : Enrolled (s.advance t) b e rest k)
    (q : PendingReq) :
    Safety.Requested s ((settle ((b.clearMark k).modOutlet k fun o => { o with pending := some q },
        (b.clearMark k).pendingReply k .superseded)).eventEnd (s.advance t))
      (max s.now t) e rest k none { s.outlets[k] with shedMark := false, pending := some q } s.queue (pendingOf s.outlets[k]) := by
  have same : b.outlets[k] = s.outlets[k] ∧ b.queue = s.queue := by
    rw [enrolled.same]
    exact ⟨rfl, rfl⟩
  have asked := (clearMark_asked b k).modOutlet fun o => { o with pending := some q }
  rw [same.1, same.2] at asked
  refine h.waits out enrolled asked (fun r hr => pendingReply_superseded _ k hr) (fun w => ?_) h.notPending
  have pending := pendingReply_owner (b.clearMark k) k .superseded w
  rwa [clearMark_outlet, same.1] at pending

/-- R57, R107: the close that waits is the order's, and so is its entry. -/
theorem Lone.reowns (h : Lone s e k) (out : s.outlets[k].cycle = none) {b : State} (enrolled : Enrolled (s.advance t) b e rest k) :
    Safety.Requested s ((settle (((b.clearMark k).modOutlet k fun o => { o with owner := some (.order e) }).reown k (.order e),
        (b.clearMark k).ownerReply k .superseded)).eventEnd (s.advance t))
      (max s.now t) e rest k none { s.outlets[k] with shedMark := false, owner := some (.order e) }
      (s.queue.map fun x => if x.outlet = k then { x with owner := .order e } else x) (ownedBy s.outlets[k]) := by
  have same : b.outlets[k] = s.outlets[k] ∧ b.queue = s.queue := by
    rw [enrolled.same]
    exact ⟨rfl, rfl⟩
  have asked := ((clearMark_asked b k).modOutlet fun o => { o with owner := some (.order e) }).reown (.order e)
  rw [same.1, same.2] at asked
  refine h.waits out enrolled asked (fun r hr => ownerReply_superseded _ k hr) (fun w => ?_) h.notOwned
  have owner := ownerReply_owner (b.clearMark k) k .superseded w
  rwa [clearMark_outlet, same.1] at owner

/-- Every state of the outlet at a SWITCH_ON order, but OFF. -/
theorem Lone.closes (h : Lone s e k) {b : State} (enrolled : Enrolled (s.advance t) b e rest k) (cls : ClassNo) :
    let u := (settle (b.requestClose k cls (.order e))).eventEnd (s.advance t)
    let asked := fun (r : Option MemberOutcome) (o : Outlet) (queue : List QueueEntry) (dropped : Owner → Prop) =>
      Safety.Requested s u (max s.now t) e rest k r o queue dropped
    let clear := { s.outlets[k] with shedMark := false }
    (∀ r, closeAnswer s.outlets[k] = some r → asked (some r) clear s.queue fun _ => False) ∧
    (s.outlets[k].cycle = none → s.outlets[k].state = .awaitClose → asked none { clear with owner := some (.order e) }
      (s.queue.map fun x => if x.outlet = k then { x with owner := .order e } else x) (ownedBy s.outlets[k])) ∧
    (s.outlets[k].cycle = none → s.outlets[k].state = .closing → asked none
      { clear with owner := some (.order e), pending := none } s.queue
      fun w => ownedBy s.outlets[k] w ∨ pendingOf s.outlets[k] w) ∧
    (s.outlets[k].cycle = none → s.outlets[k].state = .opening → asked none
      { clear with pending := some (.cls cls (.order e)) } s.queue (pendingOf s.outlets[k])) := by
  intro u asked clear
  have outlets : b.outlets[k] = s.outlets[k] := by
    rw [enrolled.same]
    rfl
  refine ⟨fun r answer => ?_, fun out state => ?_, fun out state => ?_, fun out state => ?_⟩
  · have request := requestClose_answer (s := b) (by rw [outlets]; exact answer) cls e
    have done := h.answers (t := t) enrolled .toClosed r
    rw [← request] at done
    exact done
  · have done := h.reowns (t := t) out enrolled
    rw [← requestClose_awaiting (h.asks out state enrolled) cls] at done
    exact done
  · have done := h.retakes (t := t) out enrolled
    rw [← requestClose_closing (h.asks out state enrolled) cls] at done
    exact done
  · have done := h.pends (t := t) out enrolled (.cls cls (.order e))
    rw [← requestClose_opening (h.asks out state enrolled) cls] at done
    exact done

/-- Every state of the outlet at a SWITCH_OFF order, but ON and AWAIT_CLOSE. -/
theorem Lone.opens (h : Lone s e k) {b : State} (enrolled : Enrolled (s.advance t) b e rest k) :
    let u := (settle (b.requestOpen k (.order e))).eventEnd (s.advance t)
    let asked := fun (r : Option MemberOutcome) (o : Outlet) (dropped : Owner → Prop) =>
      Safety.Requested s u (max s.now t) e rest k r o s.queue dropped
    let clear := { s.outlets[k] with shedMark := false }
    (∀ r, openAnswer s.outlets[k] = some r → asked (some r) clear fun _ => False) ∧
    (s.outlets[k].cycle = none → s.outlets[k].state = .closing →
      asked none { clear with pending := some (.opn (.order e)) } (pendingOf s.outlets[k])) ∧
    (s.outlets[k].cycle = none → s.outlets[k].state = .opening →
      asked none { clear with owner := some (.order e), pending := none }
        fun w => ownedBy s.outlets[k] w ∨ pendingOf s.outlets[k] w) := by
  intro u asked clear
  have outlets : b.outlets[k] = s.outlets[k] := by
    rw [enrolled.same]
    rfl
  refine ⟨fun r answer => ?_, fun out state => ?_, fun out state => ?_⟩
  · have request := requestOpen_answer (s := b) (by rw [outlets]; exact answer) e
    have done := h.answers (t := t) enrolled .toOpen r
    rw [← request] at done
    exact done
  · have done := h.pends (t := t) out enrolled (.opn (.order e))
    rw [← requestOpen_closing (h.asks out state enrolled)] at done
    exact done
  · have done := h.retakes (t := t) out enrolled
    rw [← requestOpen_opening (h.asks out state enrolled)] at done
    exact done

end

end Sys2Proof.Machine
end

section
/-! PROOF. SWITCH_ON over members that are all OFF or all ON (O31). -/
namespace Sys2Proof.Machine

open Sys2Proof.Safety

/-! ### The grants of a scan (R108, R112, R79) -/

/-- An outlet that a scan has changed is CLOSING with a driver that was FREE. -/
structure Granted (s u : State) (k : OutletIx) : Prop where
  state : u.outlets[k].state = .closing
  assigned : ∃ d : DriverNo, s.drivers[d] = .free ∧ Assigned s u d k .toClosed

theorem scanEntries_granted {es : List QueueEntry} (nodup : (es.map (·.outlet)).Nodup) (s : State) (k : OutletIx) :
    (scanEntries es s).outlets[k] = s.outlets[k] ∨ Granted s (scanEntries es s) k := by
  induction es generalizing s with
  | nil => exact .inl rfl
  | cons e es ih =>
    obtain ⟨fresh, nodup⟩ := List.nodup_cons.mp nodup
    rw [scanEntries]
    split
    case isFalse => exact ih nodup s
    case isTrue can =>
      obtain ⟨⟨d, free⟩, -⟩ := grantable_driver can
      have later := scanEntries_scanned (fun _ => id) (s.grant e) (es := es)
      have rest := ih nodup (s.grant e)
      rw [grant_assigns free] at later rest ⊢
      have assigned := assign_assigned (s.granted e) d e.outlet .toClosed
      have named := assign_driver (s.granted e) d e.outlet .toClosed
      have outlet := assign_outlet (s.granted e) d e.outlet .toClosed
      have other {j : OutletIx} (hj : j ≠ e.outlet) := assign_outlet_other (s.granted e) d .toClosed hj
      have drivers {x : DriverNo} (hx : x ≠ d) := assign_driver_other (s.granted e) e.outlet .toClosed hx
      have same := assign_same (s.granted e) d e.outlet .toClosed
      rw [granted_outlet] at outlet
      generalize (s.granted e).assign d e.outlet .toClosed = v at *
      have busy : v.drivers[d] ≠ .free := fun idle => by
        rw [idle] at named
        cases named
      by_cases hk : k = e.outlet
      · subst hk
        have kept := later.kept e.outlet fun x hx hk => fresh (List.mem_map.mpr ⟨x, hx, hk⟩)
        refine .inr ⟨by rw [kept.1, outlet], d, freeDriver_some free, ?_⟩
        refine assigned_transfer assigned rfl rfl rfl rfl ?_ (later.drivers d busy) kept.2 (by rw [kept.1])
        rw [granted_outlet]
        rfl
      · have before : v.outlets[k] = s.outlets[k] := (other hk).trans (upd_other _ _ hk)
        refine rest.imp (fun h => h.trans before) fun ⟨state, x, idle, h⟩ => ⟨state, x, ?_, ?_⟩
        · have ne : x ≠ d := fun hx => busy (hx ▸ idle)
          rw [drivers ne] at idle
          exact idle
        · refine assigned_transfer h ?_ ?_ ?_ ?_ (by rw [before]) rfl rfl rfl
          all_goals rw [same]; rfl

theorem eventEnd_granted {v : State} (nodup : (v.queue.map (·.outlet)).Nodup) (old : State) (k : OutletIx) :
    (v.eventEnd old).outlets[k] = v.outlets[k] ∨ Granted v (v.eventEnd old) k := by
  have same : (v.eventEnd old).outlets[k] = v.scanIfDue.outlets[k] := rfl
  rw [same]
  unfold State.scanIfDue
  split
  case isFalse => exact .inl rfl
  case isTrue due =>
    refine (scanEntries_granted nodup v k).imp id fun ⟨state, d, idle, h⟩ => ?_
    have scanned : v.scanIfDue = v.scan := if_pos due
    have outlets : (v.eventEnd old).outlets[k] = (scanEntries v.queue v).outlets[k] := same.trans (by rw [scanned]; rfl)
    refine ⟨by rw [outlets]; exact state, d, idle, assigned_transfer h rfl rfl rfl rfl rfl ?_ ?_ (by rw [outlets])⟩
    · have drivers : (v.eventEnd old).drivers = v.scanIfDue.drivers := rfl
      rw [drivers, scanned]
      rfl
    · have moves : (v.eventEnd old).moves = v.scanIfDue.moves := rfl
      rw [moves, scanned]
      rfl

/-! ### OFF outlets join the close queue (R56, R175) -/

/-- The mark cleared and the close queued (R55, R56). -/
def State.unmarkQueued (s : State) (k : OutletIx) (cls : ClassNo) (w : Owner) : State := (s.clearMark k).enqueue k cls w

theorem settle_silent (s : State) : settle (s, []) = s := deliver_nil _ _

theorem requestClose_off {s : State} {k : OutletIx} (out : s.outlets[k].cycle = none) (off : s.outlets[k].state = .off)
    (cls : ClassNo) (e : SlotNo) : settle (s.requestClose k cls (.order e)) = s.unmarkQueued k cls (.order e) := by
  have request : s.requestClose k cls (.order e) = (s.unmarkQueued k cls (.order e), []) := by
    simp only [State.requestClose, out, Option.isSome_none, Bool.false_eq_true, if_false, State.closeByState,
      (clearMark_fields s k).2.1, off, State.unmarkQueued]
  rw [request, settle_silent]

/-- The outlets of `ks` have joined the queue of `b` with class `cls` for `w`. -/
structure Queued (b x : State) (cls : ClassNo) (w : Owner) (ks : List OutletIx) : Prop where
  same : x = { b with
    outlets := x.outlets, shed := x.shed, queue := x.queue, nextArrival := x.nextArrival, scanDue := x.scanDue }
  outlet : ∀ k ∈ ks, x.outlets[k] =
    { b.outlets[k] with shedMark := false, state := .awaitClose, lastChange := b.partTime, owner := some w }
  others : ∀ k, k ∉ ks → x.outlets[k] = b.outlets[k]
  entry : ∀ k ∈ ks, ∃ e ∈ x.queue, e.outlet = k ∧ e.owner = w ∧ e.cls = cls ∧ e.instant = b.now ∧ e.stamp = b.partTime
  queue : ∀ e ∈ x.queue, e ∈ b.queue ∨ e.outlet ∈ ks
  tables : Tables x

theorem Queued.refl {b : State} (tables : Tables b) (cls : ClassNo) (w : Owner) : Queued b b cls w [] :=
  ⟨rfl, fun _ h => (nomatch h), fun _ _ => rfl, fun _ h => (nomatch h), fun _ => .inl, tables⟩

theorem Queued.next {b x : State} {cls : ClassNo} {w : Owner} {ks : List OutletIx} (h : Queued b x cls w ks) {k : OutletIx}
    (fresh : k ∉ ks) (un : Unlisted b k) : Queued b (x.unmarkQueued k cls w) cls w (ks ++ [k]) := by
  have time : x.partTime = b.partTime := by rw [h.same]; rfl
  have now : x.now = b.now := by rw [h.same]
  have clear := clearMark_only x k
  have only := enqueue_only (x.clearMark k) k cls w
  have outlet := enqueue_outlet (x.clearMark k) k cls w
  rw [clearMark_outlet, h.others k fresh, show (x.clearMark k).partTime = b.partTime from time] at outlet
  have unlisted : Unlisted (x.clearMark k) k := fun e he => (h.queue e he).elim (un e) fun mem same => fresh (same ▸ mem)
  have before : Tables (x.clearMark k) := h.tables.congr rfl rfl rfl rfl
  have tables := enqueue_tables before unlisted cls w
  have other {j : OutletIx} (hj : j ≠ k) : (x.unmarkQueued k cls w).outlets[j] = x.outlets[j] :=
    (only.outlets j hj).trans (clear.outlets j hj)
  refine ⟨?_, fun j hj => ?_, fun j hj => ?_, fun j hj => ?_, fun e he => ?_, tables⟩
  · rw [State.unmarkQueued, enqueue_eq, State.clearMark, h.same]
    rfl
  · by_cases same : j = k
    · rw [same]
      exact outlet
    · rw [other same]
      exact h.outlet j ((List.mem_append.mp hj).resolve_right fun last => same (List.mem_singleton.mp last))
  · obtain ⟨out, ne⟩ := not_or.mp (mt List.mem_append.mpr hj)
    rw [other fun same => ne (List.mem_singleton.mpr same)]
    exact h.others j out
  · rcases List.mem_append.mp hj with old | new
    · obtain ⟨e, he, entry⟩ := h.entry j old
      exact ⟨e, mem_enqueue.mpr (.inr he), entry⟩
    · rw [List.mem_singleton.mp new]
      exact ⟨_, mem_enqueue.mpr (.inl rfl), rfl, rfl, rfl, now, time⟩
  · rcases mem_enqueue.mp he with rfl | old
    · exact .inr (List.mem_append_right _ (List.mem_singleton_self k))
    · exact (h.queue e old).imp_right (List.mem_append_left _)

theorem queued_all {b : State} {e : SlotNo} {cls : ClassNo} {ms : List OutletIx} (tables : Tables b) (nodup : ms.Nodup)
    (off : ∀ k ∈ ms, b.outlets[k].state = .off ∧ b.outlets[k].cycle = none ∧ Unlisted b k) :
    Queued b (ms.foldl (fun v k => settle (v.requestClose k cls (.order e))) b) cls (.order e) ms := by
  induction ms using List.reverseRecOn with
  | nil => exact .refl tables cls _
  | append_singleton pre k ih =>
    obtain ⟨first, -, apart⟩ := List.nodup_append.mp nodup
    have fresh : k ∉ pre := fun hk => apart k hk k (List.mem_singleton_self k) rfl
    have queued := ih first fun j hj => off j (List.mem_append_left _ hj)
    obtain ⟨state, out, un⟩ := off k (List.mem_append_right _ (List.mem_singleton_self k))
    rw [List.foldl_append, List.foldl_cons, List.foldl_nil]
    generalize pre.foldl (fun v k => settle (v.requestClose k cls (.order e))) b = x at *
    rw [requestClose_off (by rw [queued.others k fresh]; exact out) (by rw [queued.others k fresh]; exact state)]
    exact queued.next fresh un

/-! ### ON outlets are answered at once (R56, R175) -/

/-- The outlets of `ks` have lost their marks. -/
structure Unmarked (b x : State) (ks : List OutletIx) : Prop where
  same : x = { b with outlets := x.outlets, shed := x.shed, orders := x.orders }
  outlet : ∀ k ∈ ks, x.outlets[k] = { b.outlets[k] with shedMark := false }
  others : ∀ k, k ∉ ks → x.outlets[k] = b.outlets[k]

theorem Unmarked.next {b x : State} {ks : List OutletIx} (h : Unmarked b x ks) {k : OutletIx} (fresh : k ∉ ks) :
    Unmarked b (x.clearMark k) (ks ++ [k]) := by
  have only := clearMark_only x k
  refine ⟨?_, fun j hj => ?_, fun j hj => ?_⟩
  · rw [State.clearMark, h.same]
    rfl
  · by_cases same : j = k
    · rw [same, clearMark_outlet, h.others k fresh]
    · rw [only.outlets j same]
      exact h.outlet j ((List.mem_append.mp hj).resolve_right fun last => same (List.mem_singleton.mp last))
  · obtain ⟨out, ne⟩ := not_or.mp (mt List.mem_append.mpr hj)
    rw [only.outlets j fun same => ne (List.mem_singleton.mpr same)]
    exact h.others j out

/-- The members of a SWITCH_ON order over ON outlets, one after another. -/
theorem switchOnMembers_steps {b : State} (e : SlotNo) (cls : ClassNo) {ms : List OutletIx} (nodup : ms.Nodup)
    (on : ∀ k ∈ ms, b.outlets[k].state = .on ∧ b.outlets[k].cycle = none) :
    MemberSteps b e ms (fun _ => .ok) (fun v k => settle (v.requestClose k cls (.order e))) fun pre x => Unmarked b x pre where
  start := ⟨rfl, fun _ h => (nomatch h), fun _ _ => rfl⟩
  table _ x entry h := ⟨by rw [State.setOrder, h.same], h.outlet, h.others⟩
  member pre k back x split h := by
    obtain ⟨-, -, apart⟩ := List.nodup_append.mp (split ▸ nodup)
    have fresh : k ∉ pre := fun hk => apart k hk k List.mem_cons_self rfl
    obtain ⟨state, out⟩ := on k (split ▸ List.mem_append_right _ List.mem_cons_self)
    have answer : closeAnswer x.outlets[k] = some .ok := by
      rw [h.others k fresh, closeAnswer, if_neg (fun some => some out), state]
    refine ⟨x.clearMark k, h.next fresh, rfl, ?_⟩
    rw [requestClose_answer answer, settle_one rfl, tell_order]

/-! ### The obligation -/

theorem closeClass_eq (f : SlotFields) : f.closeClass = if f.urgent then 1 else 2 := rfl

/-- Settles O31: OFF members join the queue and a scan grants some of them; ON members are answered one after another; a single
outlet by its state. -/
theorem switchOnMembers : Obligations.SwitchOnMembers := by
  unfold Obligations.SwitchOnMembers
  intro s t e rest ms taken resolved
  obtain ⟨nodup, nonempty⟩ := resolveTargets_ok resolved
  have ends := exec_switchOn_end (t := t) taken resolved
  have base := enrolled_same (s.advance t) e rest ms
  have order := enrolled_order (s.advance t) e rest ms
  have elsewhere {j : SlotNo} (hj : j ≠ e) := enrolled_other (s.advance t) rest ms hj
  have held := enrolled_memory (s.advance t) e rest ms
  have reads := enrolled_taken (s := s.advance t) taken.memory e rest ms
  refine ⟨fun control off => ?_, fun due on => ?_, fun control due k one owner pending => ?_⟩
  · rw [ends]
    generalize (s.advance t).enrolled e rest ms = b at *
    have start (k : OutletIx) : b.outlets[k] = s.outlets[k] := by rw [base]; rfl
    have unlisted (k : OutletIx) (hk : k ∈ ms) : Unlisted b k := by
      rw [base]
      exact (control.relay k).toListed.unlisted (by rw [(off k hk).1]; exact OutletState.noConfusion)
    have tables : Tables b := by
      rw [base]
      exact control.tables.congr rfl rfl rfl rfl
    have queued := queued_all (e := e) (cls := (slotFields s.mem e).closeClass) tables nodup fun k hk =>
      ⟨by rw [start]; exact (off k hk).1, by rw [start]; exact (off k hk).2, unlisted k hk⟩
    have block : BlockStep b (ms.foldl (fun v k => settle (v.requestClose k (slotFields s.mem e).closeClass (.order e))) b) :=
      BlockStep.foldl (fun v k => settle_block (requestClose_block v k _ _)) ms b
    generalize ms.foldl (fun v k => settle (v.requestClose k (slotFields s.mem e).closeClass (.order e))) b = x at *
    have fields := eventEnd_fields x (s.advance t)
    have measuring := eventEnd_measuring (old := s.advance t) block
    have inputs := eventEnd_inputs (old := s.advance t) block
    have granted := eventEnd_granted queued.tables.queueOutlets (s.advance t)
    have scanned := scanIfDue_scanned x
    have outlet (k : OutletIx) : (x.eventEnd (s.advance t)).outlets[k] = x.scanIfDue.outlets[k] := rfl
    have queue : (x.eventEnd (s.advance t)).queue = x.scanIfDue.queue := rfl
    have memory := eventEnd_slotBytes (old := s.advance t) (e := e) (s := s) (v := x) (by rw [queued.same]; exact held.bytes)
    refine ⟨_, rfl, ?_, ?_, ?_, fun k hk => ⟨?_, ?_, ?_⟩, fun j hj => ?_, ?_, ?_, ?_, ?_, ?_, memory⟩
    · rw [fields, queued.same, base]
    · rw [eventEnd_slotState, queued.same]
      exact reads
    · rw [fields, queued.same]
      exact order
    · rw [outlet, scanned.outlet k, queued.outlet k hk]
    · rw [outlet, scanned.outlet k, queued.outlet k hk]
    · have awaits : x.outlets[k].state = .awaitClose := by rw [queued.outlet k hk]
      rcases granted k with same | ⟨closing, d, idle, assigned⟩
      · refine .inr ⟨by rw [same]; exact awaits, ?_⟩
        obtain ⟨entry, mem, hout, hw, hcls, hinstant, hstamp⟩ := queued.entry k hk
        refine ⟨entry, ?_, hout, hw, hcls.trans (closeClass_eq _), hinstant.trans (by rw [base]; rfl), hstamp.trans (by rw [base]; rfl)⟩
        rw [queue]
        refine (scanned.entries entry mem).resolve_right fun ⟨e', he', arrival, closing⟩ => ?_
        have same' : e' = entry := List.inj_on_of_nodup_map queued.tables.queueArrivals.1 he' mem arrival
        subst hout
        rw [same', ← outlet, same, awaits] at closing
        cases closing
      · refine .inl ⟨closing, d, ?_, ?_⟩
        · rw [queued.same, base] at idle
          exact idle
        · refine assigned_transfer assigned ?_ ?_ ?_ ?_ ?_ rfl rfl rfl
          · rw [queued.same, base]; rfl
          · rw [queued.same, base]; rfl
          · rw [queued.same, base]; rfl
          · rw [queued.same, base]; rfl
          · rw [queued.outlet k hk, start]
            rfl
    · rw [fields, queued.same]
      exact elsewhere hj
    · rw [fields, queued.same, base]; rfl
    · rw [fields, queued.same, base]; rfl
    · unfold sameMeasuring at measuring ⊢
      rw [base] at measuring
      exact measuring
    · have port := inputs.1
      unfold samePort at port ⊢
      rw [base] at port
      exact port
    · rw [fields, queued.same, base]; rfl
  · rw [ends]
    have wf : MemWf (s.advance t).mem := taken.memory
    generalize (s.advance t).enrolled e rest ms = b at *
    have start (k : OutletIx) : b.outlets[k] = s.outlets[k] := by rw [base]; rfl
    have order' : b.orders[e] = some { fields := slotFields s.mem e, members := answeredOf (fun _ => .ok) ms [], record := none } := by
      rw [order, answeredOf_none]
      rfl
    obtain ⟨y, unmarked, ⟨entry, own⟩, others, finished⟩ := (switchOnMembers_steps (b := b) e (slotFields s.mem e).closeClass nodup
      fun k hk => by rw [start]; exact on k hk).all nodup nonempty order'
    have wfY : MemWf y.mem := by
      rw [unmarked.same]
      exact held.wf wf
    have last := finishOrder_same own (resultOf ms fun _ => .ok)
    have result := orderFinished_finishOrder wfY own (resultOf ms fun _ => .ok)
    have written := memStep_finishOrder own (resultOf ms fun _ => .ok)
    have elsewhere' {j : SlotNo} (hj : j ≠ e) := finishOrder_orders_other (s := y) hj (resultOf ms fun _ => .ok)
    rw [finished]
    generalize y.finishOrder e (resultOf ms fun _ => .ok) = z at *
    have due' : z.scanDue = false := by
      rw [last, unmarked.same, base]
      exact due
    have plain := eventEnd_plain due' (s.advance t)
    have done := (eventEnd_orderKept e z (s.advance t)).finished result
    have guarded := eventEnd_memory z (s.advance t)
    generalize z.eventEnd (s.advance t) = u at *
    have good : (resultOf ms fun _ => .ok) = { outcome := .done, reason := none, detail := none, record := none, doneSet := ms
                                               failedSet := [], skippedSet := [] } := by simp [resultOf]
    rw [good] at done
    obtain ⟨free, ⟨state, word, maps, -⟩, raised⟩ := done
    have code : BitVec.ofNat 32 (OrderOutcome.done.code + 256 * optCode Reason.code none + 65536 * optCode (numberOf (n := 48)) none +
        2 ^ 24 * 255) = 0xFF000001#32 := by decide
    have map := maps 0 ms rfl
    rw [Fin.val_zero, Nat.mul_zero, Nat.add_zero, Nat.add_zero] at map
    have outlets (k : OutletIx) : u.outlets[k] = y.outlets[k] := by rw [plain, last]
    refine ⟨u, rfl, ?_, state, free, fun j hj => ?_, word.trans code, map.1, map.2, raised, fun k hk => ?_,
      fun k hk => ?_, fun a ha => ?_⟩
    · rw [plain, last, unmarked.same, base]
      rfl
    · rw [plain]
      exact (elsewhere' hj).trans ((others j hj).trans (elsewhere hj))
    · rw [outlets, unmarked.outlet k hk, start]
    · rw [outlets, unmarked.others k hk, start]
    · obtain ⟨out, guard⟩ := Bool.or_eq_false_iff.mp ha
      obtain ⟨slot, log⟩ := Bool.or_eq_false_iff.mp out
      rw [guarded.bytes a guard, written.bytes a out, unmarked.same, held.bytes a slot]
      rfl
  · subst one
    intro o clear mine asked
    have lone : Lone s e k := ⟨control, due, taken.memory, owner, pending⟩
    have requests := lone.closes (t := t) (enrolled_enrolled (s.advance t) e rest k) (slotFields s.mem e).closeClass
    obtain ⟨answer, awaiting, closing, opening⟩ := requests
    exact ⟨fun r h => ⟨_, ends, answer r h⟩, fun out state => ⟨_, ends, awaiting out state⟩,
      fun out state => ⟨_, ends, closing out state⟩, fun out state => ⟨_, ends, opening out state⟩⟩

end Sys2Proof.Machine
end

section
/-! PROOF. SWITCH_OFF over members that are all ON (O32). -/
namespace Sys2Proof.Machine

open Sys2Proof.Safety

/-- R82: a driver that has been assigned aims or drives. -/
theorem assigned_busy {s u : State} {d : DriverNo} {k : OutletIx} {dir : Dir} (h : Assigned s u d k dir) :
    u.drivers[d] ≠ .free := by
  by_cases live : s.phases[phaseOfBranch s.work.outlets[k].branch].live = true
  · cases last : s.phases[phaseOfBranch s.work.outlets[k].branch].last with
    | none =>
      rw [(h.untimed fun _ => .inl last).1]
      exact Driver.noConfusion
    | some crossing =>
      cases half : s.phases[phaseOfBranch s.work.outlets[k].branch].half with
      | none =>
        rw [(h.untimed fun _ => .inr half).1]
        exact Driver.noConfusion
      | some hp =>
        rw [(h.timed crossing.1 crossing.2 hp live last half).1]
        exact Driver.noConfusion
  · rw [(h.untimed fun on => absurd on live).1]
    exact Driver.noConfusion

/-- The mark cleared and the open begun (R55, R59). -/
def State.unmarkOpened (s : State) (k : OutletIx) (w : Owner) : State := (s.clearMark k).enterOpening k w

theorem requestOpen_on {s : State} {k : OutletIx} (out : s.outlets[k].cycle = none) (on : s.outlets[k].state = .on) (e : SlotNo) :
    settle (s.requestOpen k (.order e)) = s.unmarkOpened k (.order e) := by
  have request : s.requestOpen k (.order e) = (s.unmarkOpened k (.order e), []) := by
    simp only [State.requestOpen, out, Option.isSome_none, Bool.false_eq_true, if_false, State.openByState,
      (clearMark_fields s k).2.1, on, State.unmarkOpened]
  rw [request, settle_silent]

/-- The wait-list entry of an open request (R77). -/
def openWait (k : OutletIx) : WaitEntry := { outlet := k, dir := .toOpen, retry := false }

/-- R77: an open request waits, or has been given a driver that was FREE. -/
def OpenBegun (b x : State) (k : OutletIx) : Prop :=
  x.moves[k] = .waiting .toOpen ∧ openWait k ∈ x.waitList ∨ ∃ d : DriverNo, b.drivers[d] = .free ∧ Assigned b x d k .toOpen

/-- The outlets of `ks` have begun to open for `w`, one after another. -/
structure Opening (b x : State) (w : Owner) (ks : List OutletIx) : Prop where
  same : x = { b with
    outlets := x.outlets, shed := x.shed, loads := x.loads, scanDue := x.scanDue, moves := x.moves, drivers := x.drivers
    waitList := x.waitList }
  outlet : ∀ k ∈ ks, x.outlets[k] = { b.outlets[k] with
    shedMark := false, state := .opening, lastChange := b.partTime, owner := some w, wholeFrame := false, retry := false
    unverified := x.outlets[k].unverified }
  others : ∀ k, k ∉ ks → x.outlets[k] = b.outlets[k]
  begun : ∀ k ∈ ks, OpenBegun b x k
  unreserved : ∀ k ∈ ks, Unreserved x k
  waits : ∃ more, x.waitList = b.waitList ++ more
  drivers : ∀ d : DriverNo, b.drivers[d] ≠ .free → x.drivers[d] = b.drivers[d]
  full : (∀ d : DriverNo, b.drivers[d] ≠ .free) →
    x.waitList = b.waitList ++ ks.map openWait ∧ ∀ k ∈ ks, x.moves[k] = .waiting .toOpen
  start : ks = [] → x.drivers = b.drivers
  first : ∀ k more, ks = k :: more → ∀ d, b.freeDriver = some d → Assigned b x d k .toOpen

theorem Opening.refl (b : State) (w : Owner) : Opening b b w [] where
  same := rfl
  outlet _ h := nomatch h
  others _ _ := rfl
  begun _ h := nomatch h
  unreserved _ h := nomatch h
  waits := ⟨[], (List.append_nil _).symm⟩
  drivers _ _ := rfl
  full _ := ⟨(List.append_nil _).symm, fun _ h => nomatch h⟩
  start _ := rfl
  first _ _ h := nomatch h

/-- What one more open request adds. -/
structure OpensOne (x y : State) (k : OutletIx) (w : Owner) : Prop where
  only : Only k x y
  same : y = { x with
    outlets := y.outlets, shed := y.shed, loads := y.loads, scanDue := y.scanDue, moves := y.moves, drivers := y.drivers
    waitList := y.waitList }
  outlet : y.outlets[k] = { x.outlets[k] with
    shedMark := false, state := .opening, lastChange := x.partTime, owner := some w, wholeFrame := false, retry := false
    unverified := y.outlets[k].unverified }
  unreserved : Unreserved y k
  assigns : ∀ d, x.freeDriver = some d → Assigned x y d k .toOpen ∧ y.waitList = x.waitList ∧
    ∀ i : DriverNo, i ≠ d → y.drivers[i] = x.drivers[i]
  waits : x.freeDriver = none → y.moves[k] = .waiting .toOpen ∧ y.waitList = x.waitList ++ [openWait k] ∧ y.drivers = x.drivers

theorem unmarkOpened_opens (x : State) (k : OutletIx) (w : Owner) : OpensOne x (x.unmarkOpened k w) k w := by
  have only : Only k x (x.unmarkOpened k w) := (clearMark_only x k).trans (enterOpening_only _ k w)
  have asked := openAsked_same (x.clearMark k) k w
  have record := openAsked_outlet (x.clearMark k) k w
  have unreserved : Unreserved ((x.clearMark k).openAsked k w) k := release_unreserved _ k
  have eq : x.unmarkOpened k w = ((x.clearMark k).openAsked k w).needDriver k .toOpen false := enterOpening_eq _ k w
  rw [clearMark_outlet] at record
  generalize (x.clearMark k).openAsked k w = y at *
  have same := needDriver_same y k .toOpen false
  obtain ⟨v, outlet⟩ := needDriver_outlet y k .toOpen false
  have free : y.freeDriver = x.freeDriver := by rw [asked]; rfl
  rw [eq] at only ⊢
  refine ⟨only, by rw [same, asked]; rfl, ?_, by rw [Unreserved, same]; exact unreserved, fun d h => ?_, fun h => ?_⟩
  · rw [outlet, record]
    rfl
  · rw [needDriver_assigns (free.trans h)]
    refine ⟨assigned_transfer (assign_assigned y d k .toOpen) ?_ ?_ ?_ ?_ ?_ rfl rfl rfl, ?_, fun i hi => ?_⟩
    · rw [asked]; rfl
    · rw [asked]; rfl
    · rw [asked]; rfl
    · rw [asked]; rfl
    · rw [record]
      rfl
    · rw [assign_same, asked]
      rfl
    · rw [assign_driver_other y k .toOpen hi, asked]
      rfl
  · rw [needDriver_waits (free.trans h)]
    refine ⟨upd_same _ _ _, ?_, ?_⟩
    · rw [asked]
      rfl
    · rw [asked]
      rfl

theorem Opening.next {b x y : State} {w : Owner} {ks : List OutletIx} (h : Opening b x w ks) {k : OutletIx} (fresh : k ∉ ks)
    (one : OpensOne x y k w) : Opening b y w (ks ++ [k]) := by
  have time : x.partTime = b.partTime := by rw [h.same]; rfl
  have records : x.phases = b.phases ∧ x.work = b.work ∧ x.sense = b.sense ∧ x.now = b.now := by
    rw [h.same]
    exact ⟨rfl, rfl, rfl, rfl⟩
  obtain ⟨phases, work, sense, now⟩ := records
  have earlier {j : OutletIx} (hj : j ∈ ks) : j ≠ k := fun same => fresh (same ▸ hj)
  have old {j : OutletIx} (hj : j ∈ ks ++ [k]) (ne : j ≠ k) : j ∈ ks :=
    (List.mem_append.mp hj).resolve_right fun last => ne (List.mem_singleton.mp last)
  have kept {d : DriverNo} (busy : x.drivers[d] ≠ .free) : y.drivers[d] = x.drivers[d] := by
    cases free : x.freeDriver with
    | some i => exact (one.assigns i free).2.2 d fun same => busy (same ▸ freeDriver_some free)
    | none => rw [(one.waits free).2.2]
  have stays {d : DriverNo} {j : OutletIx} (hj : j ∈ ks) (a : Assigned b x d j .toOpen) : Assigned b y d j .toOpen :=
    assigned_transfer a rfl rfl rfl rfl rfl (kept (assigned_busy a)) (one.only.moves j (earlier hj))
      (by rw [one.only.outlets j (earlier hj)])
  have fromX {d : DriverNo} (a : Assigned x y d k .toOpen) : Assigned b y d k .toOpen :=
    assigned_transfer a phases.symm work.symm sense.symm now.symm (by rw [h.others k fresh]) rfl rfl rfl
  have longer : ∃ more, y.waitList = x.waitList ++ more := by
    cases free : x.freeDriver with
    | some i => exact ⟨[], (one.assigns i free).2.1.trans (List.append_nil _).symm⟩
    | none => exact ⟨_, (one.waits free).2.1⟩
  refine {
    same := by rw [one.same, h.same]
    outlet := fun j hj => ?_
    others := fun j hj => ?_
    begun := fun j hj => ?_
    unreserved := fun j hj => ?_
    waits := ?_
    drivers := fun d busy => ?_
    full := fun busy => ?_
    start := fun none => absurd none (List.append_ne_nil_of_right_ne_nil _ (List.cons_ne_nil _ _))
    first := fun j more split d free => ?_ }
  · by_cases ne : j = k
    · rw [ne, one.outlet, h.others k fresh, time]
    · rw [one.only.outlets j ne]
      exact h.outlet j (old hj ne)
  · obtain ⟨out, ne⟩ := not_or.mp (mt List.mem_append.mpr hj)
    rw [one.only.outlets j fun same => ne (List.mem_singleton.mpr same)]
    exact h.others j out
  · by_cases ne : j = k
    · subst ne
      cases free : x.freeDriver with
      | some d =>
        refine .inr ⟨d, ?_, fromX (one.assigns d free).1⟩
        by_contra busy
        exact busy ((h.drivers d busy).symm.trans (freeDriver_some free))
      | none =>
        obtain ⟨move, wait, -⟩ := one.waits free
        exact .inl ⟨move, wait ▸ List.mem_append_right _ (List.mem_singleton_self _)⟩
    · have mem := old hj ne
      obtain ⟨more, wait⟩ := longer
      refine (h.begun j mem).imp (fun ⟨move, entry⟩ => ⟨(one.only.moves j ne).trans move, ?_⟩) fun ⟨d, free, a⟩ =>
        ⟨d, free, stays mem a⟩
      rw [wait]
      exact List.mem_append_left _ entry
  · by_cases ne : j = k
    · exact ne ▸ one.unreserved
    · intro r x hx same
      exact h.unreserved j (old hj ne) r x ((one.only.loads r x (same ▸ ne)).mp hx) same
  · obtain ⟨front, wait⟩ := h.waits
    obtain ⟨more, wait'⟩ := longer
    exact ⟨front ++ more, by rw [wait', wait, List.append_assoc]⟩
  · have still := h.drivers d busy
    exact (kept (still.symm ▸ busy)).trans still
  · obtain ⟨wait, moves⟩ := h.full busy
    obtain ⟨move, wait', -⟩ := one.waits (freeDriver_none_iff.mpr fun d => (h.drivers d (busy d)).symm ▸ busy d)
    refine ⟨by rw [wait', wait, List.map_append, List.append_assoc, List.map_singleton], fun j hj => ?_⟩
    by_cases ne : j = k
    · rw [ne]
      exact move
    · exact (one.only.moves j ne).trans (moves j (old hj ne))
  · cases ks with
    | nil =>
      rw [List.nil_append, List.cons.injEq] at split
      obtain ⟨rfl, -⟩ := split
      have drivers := h.start rfl
      refine fromX (one.assigns d ?_).1
      unfold State.freeDriver at free ⊢
      rw [drivers]
      exact free
    | cons a ks =>
      rw [List.cons_append, List.cons.injEq] at split
      obtain ⟨rfl, -⟩ := split
      exact stays List.mem_cons_self (h.first a ks rfl d free)

theorem opening_all {b : State} {e : SlotNo} {ms : List OutletIx} (nodup : ms.Nodup)
    (on : ∀ k ∈ ms, b.outlets[k].state = .on ∧ b.outlets[k].cycle = none) :
    Opening b (ms.foldl (fun v k => settle (v.requestOpen k (.order e))) b) (.order e) ms := by
  induction ms using List.reverseRecOn with
  | nil => exact .refl b _
  | append_singleton pre k ih =>
    obtain ⟨first, -, apart⟩ := List.nodup_append.mp nodup
    have fresh : k ∉ pre := fun hk => apart k hk k (List.mem_singleton_self k) rfl
    have opening := ih first fun j hj => on j (List.mem_append_left _ hj)
    obtain ⟨state, out⟩ := on k (List.mem_append_right _ (List.mem_singleton_self k))
    rw [List.foldl_append, List.foldl_cons, List.foldl_nil]
    generalize pre.foldl (fun v k => settle (v.requestOpen k (.order e))) b = x at *
    rw [requestOpen_on (by rw [opening.others k fresh]; exact out) (by rw [opening.others k fresh]; exact state)]
    exact opening.next fresh (unmarkOpened_opens x k _)

end Sys2Proof.Machine
end

section
/-! PROOF. SWITCH_OFF over an outlet whose close waits, and the obligation (O32). -/
namespace Sys2Proof.Machine

open Sys2Proof.Safety

/-- R57, R106: the close that waits leaves the queue, its owner receives SUPERSEDED and the order OK. -/
theorem requestOpen_awaiting {s : State} {k : OutletIx} {e : SlotNo} (h : Asks s k e .awaitClose) : s.requestOpen k (.order e) =
    ((s.clearMark k).unqueued k, (s.clearMark k).ownerReply k .superseded ++ at1 (.order e) k .toOpen .ok) := by
  simp only [State.requestOpen, h.out, Option.isSome_none, Bool.false_eq_true, if_false, State.openByState,
    (clearMark_fields s k).2.1, h.state, State.unqueued]

/-- What has become of the outlet, the queue and the owners before the event ends. -/
structure Withdrawn (b y : State) (e : SlotNo) (k : OutletIx) : Prop where
  same : y = { b with
    outlets := y.outlets, queue := y.queue, scanDue := y.scanDue, shed := y.shed, orders := y.orders, mem := y.mem
    cause := y.cause }
  outlet : y.outlets[k] = { b.outlets[k] with shedMark := false, state := .off, lastChange := b.partTime, owner := none }
  others : ∀ j : OutletIx, j ≠ k → y.outlets[j] = b.outlets[j]
  queue : y.queue = b.queue.filter (·.outlet != k)
  unmarked : ∀ r : Branch, y.shed[r].list = b.shed[r].list.filter (· ≠ k) ∧ y.shed[r].round = b.shed[r].round.filter (· ≠ k)
  finished : orderFinished y e (loneResult k .ok)
  told : ∀ x, b.outlets[k].owner = some (.order x) → orderAnswered b y x k .superseded
  kept : ∀ x, x ≠ e → b.outlets[k].owner ≠ some (.order x) → OrderKept x b y
  block : BlockStep b y

theorem withdrawn {b : State} {e : SlotNo} {k : OutletIx} {f : SlotFields} (wf : MemWf b.mem) (asks : Asks b k e .awaitClose)
    (out : ∀ c : RecNo, k ∉ b.cycles[c].participants)
    (order : b.orders[e] = some { fields := f, members := [(k, none)], record := none }) :
    Withdrawn b (settle (b.requestOpen k (.order e))) e k := by
  have block : BlockStep b (settle (b.requestOpen k (.order e))) := settle_block (requestOpen_block b k _)
  have request := requestOpen_awaiting asks
  have lists := clearMark_lists b k
  have owner := (clearMark_fields b k).2.2.1
  have outlet := unqueued_outlet (b.clearMark k) k
  have same := unqueued_same (b.clearMark k) k
  have only := (clearMark_only b k).trans (unqueued_only (b.clearMark k) k)
  rw [request] at block ⊢
  rw [clearMark_outlet] at outlet
  generalize hp : (b.clearMark k).unqueued k = p at *
  have replies := ownerReply_owner (b.clearMark k) k .superseded
  have mem : p.mem = b.mem := by rw [same]; rfl
  have told := superseded_all (rs := (b.clearMark k).ownerReply k .superseded) (x := p) (fun r hr => ownerReply_superseded _ k hr)
    (by rw [mem]; exact wf) (fun c => by rw [same]; exact out c) (fun r => by
      rw [same]
      refine fun hk => ?_
      have hk : k ∈ (b.clearMark k).shed[r].round := hk
      rw [(lists r).2.1] at hk
      simpa using (List.mem_filter.mp hk).2)
  have before (x : SlotNo) : OrderKept x b p := .of_same (by rw [same]; rfl) mem (by rw [same]; rfl) (by rw [same]; rfl)
  rw [settle_foldl, List.foldl_append] at block ⊢
  have dropped (x : SlotNo) : (∃ r ∈ (b.clearMark k).ownerReply k .superseded, r.owner = .order x) ↔
      b.outlets[k].owner = some (.order x) := by
    rw [replies, ownedBy, owner]
  generalize ((b.clearMark k).ownerReply k .superseded).foldl (fun s r => s.tell r.owner r.outlet r.dir r.outcome) p = z at *
  have mine : OrderKept e b z := (before e).trans (told.kept e fun h => asks.owner ((dropped e).mp h))
  have held : z.orders[e] = some { fields := f, members := [(k, none)], record := none } := mine.entry.trans order
  have last : ([{ owner := .order e, outlet := k, dir := .toOpen, outcome := .ok }] : List Reply).foldl
      (fun s r => s.tell r.owner r.outlet r.dir r.outcome) z = z.orderReply e k .ok := tell_order z e k .toOpen .ok
  have parts := orderReply_parts z e k .ok
  have answer := orderReply_answered (told.block.wf (by rw [mem]; exact wf)) e k .ok
  have elsewhere {x : SlotNo} (hx : x ≠ e) := orderReply_orderKept hx z k .ok
  rw [at1, last] at block ⊢
  generalize z.orderReply e k .ok = y at *
  have outlets : y.outlets = p.outlets := by rw [parts, told.same]
  have shed : y.shed = (b.clearMark k).shed := by rw [parts, told.same, same]
  have answers : answered [(k, none)] k .ok = [k].map fun j => (j, some MemberOutcome.ok) := by simp [answered]
  refine ⟨?_, ?_, fun j hj => ?_, ?_, fun r => ?_, ?_, fun x hx => ?_, fun x hx no => ?_, block⟩
  · rw [parts, told.same, same]
    rfl
  · rw [outlets]
    exact outlet
  · rw [outlets]
    exact only.outlets j hj
  · rw [parts, told.same, same]
    rfl
  · rw [shed]
    exact ⟨(lists r).1, (lists r).2.1⟩
  · have finished := (answer _ held).2 (by simp [answered])
    rwa [answers, membersResult_answers] at finished
  · have ne : x ≠ e := fun same => asks.owner (same ▸ hx)
    exact (elsewhere ne).answered ((before x).before (told.told x ((dropped x).mpr hx)))
  · exact ((before x).trans (told.kept x fun h => no ((dropped x).mp h))).trans (elsewhere hx)

/-- Settles O32: ON members open one after another; a single outlet by its state. -/
theorem switchOffOpensMembers : Obligations.SwitchOffOpensMembers := by
  unfold Obligations.SwitchOffOpensMembers
  intro s t e rest ms taken resolved
  obtain ⟨nodup, nonempty⟩ := resolveTargets_ok resolved
  have ends := exec_switchOff_end (t := t) taken resolved
  have base := enrolled_same (s.advance t) e rest ms
  have order := enrolled_order (s.advance t) e rest ms
  have elsewhere {j : SlotNo} (hj : j ≠ e) := enrolled_other (s.advance t) rest ms hj
  have held := enrolled_memory (s.advance t) e rest ms
  have reads := enrolled_taken (s := s.advance t) taken.memory e rest ms
  refine ⟨fun on => ?_, fun control due k one owner pending => ?_⟩
  · rw [ends]
    generalize (s.advance t).enrolled e rest ms = b at *
    have start (k : OutletIx) : b.outlets[k] = s.outlets[k] := by rw [base]; rfl
    have opening := opening_all (b := b) (e := e) nodup fun k hk =>
      ⟨by rw [start]; exact (on k hk).1, by rw [start]; exact (on k hk).2.1⟩
    have block : BlockStep b (ms.foldl (fun v k => settle (v.requestOpen k (.order e))) b) :=
      BlockStep.foldl (fun v k => settle_block (requestOpen_block v k _)) ms b
    generalize ms.foldl (fun v k => settle (v.requestOpen k (.order e))) b = x at *
    have queue : x.queue = s.queue := by rw [opening.same, base]; rfl
    have un (k : OutletIx) (hk : k ∈ ms) : Unlisted x k := by
      rw [Unlisted, queue]
      exact (on k hk).2.2
    have last (k : OutletIx) (hk : k ∈ ms) := eventEnd_outlet (un k hk) (s.advance t)
    have drivers {d : DriverNo} (busy : x.drivers[d] ≠ .free) : (x.eventEnd (s.advance t)).drivers[d] = x.drivers[d] :=
      (scanIfDue_scanned x).drivers d busy
    have idle (d : DriverNo) : b.drivers[d] = s.drivers[d] := by rw [base]; rfl
    have fields := eventEnd_fields x (s.advance t)
    have waitList : (x.eventEnd (s.advance t)).waitList = x.waitList := by rw [fields]
    have start' : b.waitList = s.waitList := by rw [base]; rfl
    have fromB {d : DriverNo} {k : OutletIx} (hk : k ∈ ms) (a : Assigned b x d k .toOpen) :
        Assigned { s with now := max s.now t } (x.eventEnd (s.advance t)) d k .toOpen := by
      refine assigned_transfer a ?_ ?_ ?_ ?_ ?_ (drivers (assigned_busy a)) (last k hk).2 (by rw [(last k hk).1])
      · rw [base]; rfl
      · rw [base]; rfl
      · rw [base]; rfl
      · rw [base]; rfl
      · rw [start]
    have measuring := eventEnd_measuring (old := s.advance t) block
    have inputs := eventEnd_inputs (old := s.advance t) block
    have memory := eventEnd_slotBytes (old := s.advance t) (e := e) (s := s) (v := x) (by rw [opening.same]; exact held.bytes)
    refine ⟨_, rfl, ?_, ?_, ?_, fun k hk => ⟨?_, ?_, ?_, ?_, ?_, ?_, ?_, ?_⟩, fun k more split => ⟨fun d free lowest => ?_, fun busy => ?_⟩,
      ?_, fun j hj => ?_, ?_, ?_, ?_, ?_, ?_, memory⟩
    · rw [fields, opening.same, base]
    · rw [eventEnd_slotState, opening.same]
      exact reads
    · rw [fields, opening.same]
      exact order
    · rw [(last k hk).1, opening.outlet k hk]
    · rw [(last k hk).1, opening.outlet k hk]
    · rw [(last k hk).1, opening.outlet k hk]
    · rw [(last k hk).1, opening.outlet k hk]
    · rw [(last k hk).1, opening.outlet k hk]
    · rw [(last k hk).1, opening.outlet k hk, base]
      rfl
    · rw [(last k hk).2, waitList]
      exact (opening.begun k hk).imp id fun ⟨d, free, a⟩ => ⟨d, (idle d).symm.trans free, fromB hk a⟩
    · exact eventEnd_unreserved (opening.unreserved k hk) (un k hk) _
    · exact fromB (split ▸ List.mem_cons_self) (opening.first k more split d (freeDriver_lowest (by rw [idle]; exact free)
        fun i hi => by rw [idle]; exact lowest i hi))
    · obtain ⟨waits, moves⟩ := opening.full fun d => by
        rw [idle]
        exact busy d
      have mem : k ∈ ms := split ▸ List.mem_cons_self
      rw [(last k mem).2, waitList, waits, start']
      exact ⟨moves k mem, rfl⟩
    · rw [waitList, ← start']
      exact opening.waits
    · rw [fields, opening.same]
      exact elsewhere hj
    · rw [fields, opening.same, base]; rfl
    · rw [fields, opening.same, base]; rfl
    · unfold sameMeasuring at measuring ⊢
      rw [base] at measuring
      exact measuring
    · have port := inputs.1
      unfold samePort at port ⊢
      rw [base] at port
      exact port
    · rw [fields, opening.same, base]; rfl
  · subst one
    intro o clear mine asked
    have lone : Lone s e k := ⟨control, due, taken.memory, owner, pending⟩
    have enrolled := enrolled_enrolled (s.advance t) e rest k
    obtain ⟨answer, closing, opening⟩ := lone.opens (t := t) enrolled
    refine ⟨fun r h => ⟨_, ends, answer r h⟩, fun out state => ⟨_, ends, closing out state⟩,
      fun out state => ⟨_, ends, opening out state⟩, fun out state => ⟨_, ends, ?_⟩⟩
    have asks := lone.asks (t := t) out state enrolled
    generalize (s.advance t).enrolled e rest [k] = b at *
    have stranger (c : RecNo) : k ∉ b.cycles[c].participants := by
      rw [base]
      exact control_stranger control out c
    have done := withdrawn (enrolled.memory.wf taken.memory) asks stranger enrolled.order
    have record : b.outlets[k] = s.outlets[k] := by rw [base]; rfl
    rw [List.foldl_cons, List.foldl_nil]
    generalize settle (b.requestOpen k (.order e)) = y at *
    have queue : y.queue = s.queue.filter (·.outlet != k) := by
      rw [done.queue, base]
      rfl
    have un : Unlisted y k := by
      rw [Unlisted, queue]
      exact fun x hx => by simpa using (List.mem_filter.mp hx).2
    have distinct : (y.queue.map (·.outlet)).Nodup := by
      rw [queue]
      exact control.queueOutlets.sublist (List.filter_sublist.map _)
    have granted := eventEnd_granted distinct (s.advance t)
    have scanned := scanIfDue_scanned y
    have outlet (j : OutletIx) : (y.eventEnd (s.advance t)).outlets[j] = y.scanIfDue.outlets[j] := rfl
    have queueEnd : (y.eventEnd (s.advance t)).queue = y.scanIfDue.queue := rfl
    have start (j : OutletIx) (hj : j ≠ k) : y.outlets[j] = s.outlets[j] := by
      rw [done.others j hj, base]
      rfl
    have fields := eventEnd_fields y (s.advance t)
    have kept (j : SlotNo) := eventEnd_orderKept j y (s.advance t)
    have measuring := eventEnd_measuring (old := s.advance t) done.block
    have inputs := eventEnd_inputs (old := s.advance t) done.block
    have bytes := eventEnd_bytes (old := s.advance t) done.block
    refine ⟨?_, ?_, (kept e).finished done.finished, fun x hx => ?_, fun j hj no => ?_, fun x hx => ?_, fun j hj => ?_, fun r => ?_,
      ?_, ?_, ?_, ?_, fun a ha => ?_⟩
    · rw [fields, done.same, base]
    · rw [(eventEnd_outlet un (s.advance t)).1, done.outlet, record, base]
      rfl
    · have ne : x ≠ e := fun same => owner _ hx (same ▸ rfl)
      exact (kept x).answered ((enrolled.others x ne).before (done.told x (by rw [record]; exact hx)))
    · exact (((enrolled.others j hj).trans (done.kept j hj (by rw [record]; exact no))).trans (kept j)).entry
    · rw [queueEnd] at hx
      have mem := scanned.queue.subset hx
      rw [queue] at mem
      exact ⟨(List.mem_filter.mp mem).1, by simpa using (List.mem_filter.mp mem).2⟩
    · by_cases awaits : s.outlets[j].state = .awaitClose
      · exact (granted j).imp (fun same => same.trans (start j hj)) fun granted =>
          ⟨awaits, granted.state, by rw [outlet, scanned.outlet j, start j hj]⟩
      · have away : Unlisted y j := by
          rw [Unlisted, queue]
          exact fun x hx => (control.relay j).toListed.unlisted awaits x (List.mem_filter.mp hx).1
        exact .inl ((eventEnd_outlet away (s.advance t)).1.trans (start j hj))
    · rw [fields]
      have lists := done.unmarked r
      rw [base] at lists
      exact lists
    · rw [fields, done.same, base]; rfl
    · rw [fields, done.same, base]; rfl
    · unfold sameMeasuring at measuring ⊢
      rw [base] at measuring
      exact measuring
    · have port := inputs.1
      unfold samePort at port ⊢
      rw [base] at port
      exact port
    · rw [bytes a ha]
      exact enrolled.memory.bytes a (Bool.or_eq_false_iff.mp ha).1

end Sys2Proof.Machine
end

section
/-! PROOF. CANCEL_CYCLE (O34). -/
namespace Sys2Proof.Machine

open Sys2Proof.Safety

/-! ### The order table at the end of a record (R145) -/

theorem endRecord_orderKept {s : State} {c : RecNo} {e : SlotNo} (h : ∀ v, Origin.order e v ∉ s.cycles[c].origins) :
    OrderKept e s (s.endRecord c) := by
  rw [endRecord_parts]
  obtain ⟨x, hx⟩ : ∃ x : State, x = { s with outlets := tab fun j =>
      if j ∈ s.cycles[c].participants then { s.outlets[j] with cycle := none } else s.outlets[j] } := ⟨_, rfl⟩
  rw [← hx]
  have start : OrderKept e s x := .of_same (by rw [hx]) (by rw [hx]) (by rw [hx]) (by rw [hx])
  have told := tellAll_orderKept h x c s.cycles[c]
  exact (start.trans told).trans (.of_same (u := (x.tellAll c s.cycles[c] s.cycles[c].origins).modCycle c fun _ => CycleRec.free) rfl
    rfl rfl rfl)

theorem testEnd_orderKept {s : State} {c : RecNo} {e : SlotNo} (h : ∀ v, Origin.order e v ∉ s.cycles[c].origins) :
    OrderKept e s (s.testEnd c) := by
  unfold State.testEnd
  dsimp only
  split
  · exact endRecord_orderKept h
  · exact .refl e s

theorem testEnd_tells {s : State} (wf : MemWf s.mem) {c : RecNo} {e : SlotNo} {v : Bool} (h : Origin.order e v ∈ s.cycles[c].origins)
    (held : s.orders[e] ≠ none) (state : s.cycles[c].state = .closing ∨ s.cycles[c].state = .restoring)
    (all : allSettled s.cycles[c]) : orderFinished (s.testEnd c) e (s.cycles[c].result c) := by
  unfold State.testEnd
  dsimp only
  rw [if_pos ⟨state, (settled_iff _).mpr all⟩, endRecord_parts]
  obtain ⟨x, hx⟩ : ∃ x : State, x = { s with outlets := tab fun j =>
      if j ∈ s.cycles[c].participants then { s.outlets[j] with cycle := none } else s.outlets[j] } := ⟨_, rfl⟩
  rw [← hx]
  have told := tellAll_tells (s := x) (by rw [hx]; exact wf) h (by rw [hx]; exact held) c s.cycles[c]
  exact (OrderKept.of_same (u := (x.tellAll c s.cycles[c] s.cycles[c].origins).modCycle c fun _ => CycleRec.free) rfl rfl rfl
    rfl).finished told

/-! ### The closes that a cancel withdraws (R148) -/

/-- The participant's close still waits for the record. -/
abbrev WaitsFor (s : State) (c : RecNo) (k : OutletIx) : Prop :=
  s.outlets[k].state = .awaitClose ∧ s.outlets[k].owner = some (.cycle c)

/-- The closes of the participants `ks` of record `c` that waited have been withdrawn. -/
structure ClosesWithdrawn (s x : State) (c : RecNo) (ks : List OutletIx) : Prop where
  same : x = { s with outlets := x.outlets, queue := x.queue, scanDue := x.scanDue, cycles := x.cycles }
  record : x.cycles[c] = { s.cycles[c] with
    withdrawn := s.cycles[c].withdrawn ++
      ks.filter fun k => WaitsFor s c k }
  cycles : ∀ d : RecNo, d ≠ c → x.cycles[d] = s.cycles[d]
  outlet : ∀ k ∈ ks, WaitsFor s c k →
    x.outlets[k] = { s.outlets[k] with state := .off, lastChange := s.partTime, owner := none } ∧ Unlisted x k
  others : ∀ k, k ∉ ks ∨ ¬WaitsFor s c k → x.outlets[k] = s.outlets[k]
  queue : ∀ q ∈ x.queue, q ∈ s.queue

theorem ClosesWithdrawn.refl (s : State) (c : RecNo) : ClosesWithdrawn s s c [] where
  same := rfl
  record := by rw [List.filter_nil, List.append_nil]
  cycles _ _ := rfl
  outlet _ h := nomatch h
  others _ _ := rfl
  queue _ := id

/-- R64, R148: one close withdrawn. -/
theorem leaveQueue_skipped {x : State} {c : RecNo} {k : OutletIx} (waits : WaitsFor x c k) (part : k ∈ x.cycles[c].participants)
    (closing : x.cycles[c].state = .closing) : settle (x.leaveQueue k .skipped) =
      (x.unqueued k).modCycle c fun r => { r with withdrawn := r.withdrawn ++ [k] } := by
  obtain ⟨state, owner⟩ := waits
  have reply : x.ownerReply k .skipped = [{ owner := .cycle c, outlet := k, dir := .toClosed, outcome := .skipped }] := by
    rw [State.ownerReply, owner, state]
    rfl
  have same := unqueued_same x k
  rw [leaveQueue_eq, settle_one reply]
  generalize x.unqueued k = y at *
  have cycles : y.cycles = x.cycles := by rw [same]
  refine tell_cycle ?_
  simp only [State.cycleReply, cycles, part, closing, not_true_eq_false, if_false]

theorem ClosesWithdrawn.next {s x : State} {c : RecNo} {ks : List OutletIx} (h : ClosesWithdrawn s x c ks) {k : OutletIx}
    (fresh : k ∉ ks) (part : k ∈ s.cycles[c].participants) (closing : s.cycles[c].state = .closing) :
    ClosesWithdrawn s (if x.outlets[k].state == .awaitClose && x.outlets[k].owner == some (.cycle c) then
      settle (x.leaveQueue k .skipped) else x) c (ks ++ [k]) := by
  have here := h.others k (.inl fresh)
  have test : (x.outlets[k].state == .awaitClose && x.outlets[k].owner == some (.cycle c)) = true ↔ WaitsFor s c k := by
    rw [here, Bool.and_eq_true, beq_iff_eq, beq_iff_eq, WaitsFor]
  have old {j : OutletIx} (hj : j ∈ ks ++ [k]) (ne : j ≠ k) : j ∈ ks :=
    (List.mem_append.mp hj).resolve_right fun last => ne (List.mem_singleton.mp last)
  by_cases waits : WaitsFor s c k
  · rw [if_pos (test.mpr waits), leaveQueue_skipped (by rw [WaitsFor, here]; exact waits) (by rw [h.record]; exact part)
      (by rw [h.record]; exact closing)]
    have same := unqueued_same x k
    have outlet := unqueued_outlet x k
    have only := unqueued_only x k
    have un := unqueued_unlisted x k
    have time : x.partTime = s.partTime := by rw [h.same]; rfl
    generalize x.unqueued k = y at *
    have queue {q : QueueEntry} (hq : q ∈ y.queue) : q ∈ x.queue := by
      rw [same] at hq
      exact (List.mem_filter.mp hq).1
    refine ⟨by rw [State.modCycle, same, h.same], ?_, fun d hd => ?_, fun j hj wj => ?_, fun j hj => ?_, fun q hq => ?_⟩
    · refine (upd_same _ _ _).trans ?_
      rw [show y.cycles = x.cycles by rw [same], h.record, List.filter_append, List.filter_cons, decide_eq_true waits, if_pos rfl,
        List.filter_nil]
      dsimp only
      rw [List.append_assoc]
    · refine (upd_other _ _ hd).trans ?_
      rw [show y.cycles = x.cycles by rw [same]]
      exact h.cycles d hd
    · by_cases ne : j = k
      · subst ne
        exact ⟨outlet.trans (by rw [here, time]), un⟩
      · obtain ⟨record, away⟩ := h.outlet j (old hj ne) wj
        exact ⟨(only.outlets j ne).trans record, fun q hq => away q (queue hq)⟩
    · have ne : j ≠ k := fun same => hj.elim (fun out => out (same ▸ List.mem_append_right _ (List.mem_singleton_self _)))
        fun no => no (same ▸ waits)
      exact (only.outlets j ne).trans (h.others j (hj.imp_left fun out mem => out (List.mem_append_left _ mem)))
    · exact h.queue q (queue hq)
  · rw [if_neg (mt test.mp waits)]
    refine ⟨h.same, ?_, h.cycles, fun j hj wj => ?_, fun j hj => ?_, h.queue⟩
    · rw [h.record, List.filter_append, List.filter_cons, if_neg fun yes => waits (of_decide_eq_true yes), List.filter_nil,
        List.append_nil]
    · exact h.outlet j (old hj fun same => waits (same ▸ wj)) wj
    · exact h.others j (hj.imp_left fun out mem => out (List.mem_append_left _ mem))

theorem withdrawCloses_withdrawn {s : State} {c : RecNo} (nodup : s.cycles[c].participants.Nodup)
    (closing : s.cycles[c].state = .closing) : ClosesWithdrawn s (s.withdrawCloses c) c s.cycles[c].participants := by
  have front (ks : List OutletIx) (nodup : ks.Nodup) (part : ∀ k ∈ ks, k ∈ s.cycles[c].participants) :
      ClosesWithdrawn s (ks.foldl (fun x k => if x.outlets[k].state == .awaitClose && x.outlets[k].owner == some (.cycle c) then
        settle (x.leaveQueue k .skipped) else x) s) c ks := by
    induction ks using List.reverseRecOn with
    | nil => exact .refl s c
    | append_singleton pre k ih =>
      obtain ⟨first, -, apart⟩ := List.nodup_append.mp nodup
      rw [List.foldl_append, List.foldl_cons, List.foldl_nil]
      exact (ih first fun j hj => part j (List.mem_append_left _ hj)).next
        (fun hk => apart k hk k (List.mem_singleton_self k) rfl) (part k (List.mem_append_right _ (List.mem_singleton_self k))) closing
  exact front _ nodup fun _ => id

/-! ### The cancelled record by its state (R146 to R148) -/

/-- R140: the class that a record's origins give. -/
theorem closingClass_eq (l : List Origin) : closingClass l =
    if ∃ x, Origin.order x true ∈ l then 1 else if ∃ x, Origin.order x false ∈ l then 2 else 3 := by
  by_cases urgent : ∃ x, Origin.order x true ∈ l
  · rw [if_pos urgent, closingClass_urgent urgent]
  · rw [if_neg urgent]
    push Not at urgent
    by_cases order : ∃ x, Origin.order x false ∈ l
    · rw [if_pos order, closingClass_order order urgent]
    · rw [if_neg order]
      push Not at order
      exact closingClass_watches fun e v => by
        cases v with
        | true => exact urgent e
        | false => exact order e

/-- R147: the participants of a record that opens, with its CLOSE of class 0. -/
def State.restoringAll (s : State) (c : RecNo) : State :=
  (s.recordRestoring c).turnAll s.cycles[c].participants 0 c

theorem enterRestoring_turns {s : State} {c : RecNo} (nodup : s.cycles[c].participants.Nodup)
    (turns : ∀ k ∈ s.cycles[c].participants, Turns s c k) (running : ∀ k ∈ s.cycles[c].participants, s.outlets[k].state ≠ .fault) :
    s.enterRestoring c = (s.restoringAll c, []) := by
  have all : s.cycles[c].participants.filter (fun k => s.outlets[k].state != .fault) = s.cycles[c].participants :=
    List.filter_eq_self.mpr fun k hk => bne_iff_ne.mpr (running k hk)
  unfold State.enterRestoring
  dsimp only
  rw [all]
  exact sendCloses_turns (s := s.recordRestoring c) nodup turns 0

theorem restoringAll_same (s : State) (c : RecNo) : s.restoringAll c = { s with
    cycles := upd s.cycles c fun r => { r with state := .restoring, restDeadline := none, cls := some 0 }
    queue := (s.restoringAll c).queue, nextArrival := (s.restoringAll c).nextArrival, scanDue := (s.restoringAll c).scanDue
    outlets := (s.restoringAll c).outlets } := turnAll_same (s.recordRestoring c) _ _ c

theorem turn_keeps (s : State) (cls : ClassNo) (c : RecNo) (k : OutletIx) {x : QueueEntry} (h : x ∈ s.queue) :
    x ∈ (s.turn cls c k).queue := by
  unfold State.turn
  split
  · exact h
  · exact mem_enqueue.mpr (.inr h)

theorem turnAll_keeps (s : State) (ks : List OutletIx) (cls : ClassNo) (c : RecNo) {x : QueueEntry} (h : x ∈ s.queue) :
    x ∈ (s.turnAll ks cls c).queue := by
  induction ks generalizing s with
  | nil => exact h
  | cons k ks ih => exact ih _ (turn_keeps s cls c k h)

/-- The entry of a participant that joins the queue. -/
theorem turnAll_entry (s : State) {ks : List OutletIx} (nodup : ks.Nodup) (cls : ClassNo) (c : RecNo) {k : OutletIx} (hk : k ∈ ks)
    (still : s.outlets[k].state ≠ .opening) : ∃ x ∈ (s.turnAll ks cls c).queue, x.outlet = k ∧ x.cls = cls := by
  induction ks generalizing s with
  | nil => cases hk
  | cons j ks ih =>
    obtain ⟨out, nodup⟩ := List.nodup_cons.mp nodup
    rcases List.mem_cons.mp hk with rfl | hk
    · refine ⟨s.newEntry k cls (.cycle c), turnAll_keeps (s.turn cls c k) ks cls c ?_, rfl, rfl⟩
      rw [State.turn, if_neg still]
      exact mem_enqueue.mpr (.inl rfl)
    · refine ih (s.turn cls c j) nodup hk ?_
      rw [(turn_only s cls c j).outlets k fun same => out (same ▸ hk)]
      exact still

/-! ### The order of the cancel (R173, R178) -/

/-- The order has finished after what the cancel did; what it changed stays until a scan. -/
structure CancelEnds (v u : State) (e : SlotNo) (r : OrderResult) : Prop where
  finished : orderFinished u e r
  cycles : u.cycles = v.cycles
  watches : u.watches = v.watches
  cycle : ∀ j : OutletIx, u.outlets[j].cycle = v.outlets[j].cycle
  others : ∀ j : SlotNo, j ≠ e → OrderKept j v u
  scanned : ∀ j : OutletIx, u.outlets[j].owner = v.outlets[j].owner ∧ u.outlets[j].pending = v.outlets[j].pending ∧
    (u.outlets[j].state = v.outlets[j].state ∨ u.outlets[j].state = .closing)
  unlisted : ∀ j : OutletIx, Unlisted v j → u.outlets[j] = v.outlets[j]
  queue : ∀ x ∈ u.queue, x ∈ v.queue
  entries : ∀ x ∈ v.queue, x ∈ u.queue ∨ ∃ y ∈ v.queue, y.arrival = x.arrival ∧ u.outlets[y.outlet].state = .closing

theorem cancelEnds {v : State} (wf : MemWf v.mem) {e : SlotNo} {entry : OrderEntry} (held : v.orders[e] = some entry)
    (r : OrderResult) (old : State) : CancelEnds v ((v.finishOrder e r).eventEnd old) e r := by
  have result := orderFinished_finishOrder wf held r
  have parts := finishOrder_parts v e r
  have others {j : SlotNo} (hj : j ≠ e) := finishOrder_orderKept hj v r
  generalize v.finishOrder e r = z at *
  have fields := eventEnd_fields z old
  have scanned := scanIfDue_scanned z
  have outlet (j : OutletIx) : (z.eventEnd old).outlets[j] = z.scanIfDue.outlets[j] := rfl
  have queue : z.queue = v.queue := by rw [parts]
  have queueEnd : (z.eventEnd old).queue = z.scanIfDue.queue := rfl
  have start (j : OutletIx) : z.outlets[j] = v.outlets[j] := by rw [parts]
  refine ⟨(eventEnd_orderKept e z old).finished result, ?_, ?_, fun j => ?_, fun j hj => (others hj).trans (eventEnd_orderKept j z old),
    fun j => ⟨?_, ?_, ?_⟩, fun j un => ?_, fun x hx => ?_, fun x hx => ?_⟩
  · rw [fields, parts]
  · rw [fields, parts]
  · rw [eventEnd_cycle, start]
  · rw [outlet, scanned.outlet j, start]
  · rw [outlet, scanned.outlet j, start]
  · rw [outlet, ← start]
    exact scanned.state j
  · rw [← start]
    exact (eventEnd_outlet (by rw [Unlisted, queue]; exact un) old).1
  · rw [queueEnd] at hx
    exact queue ▸ scanned.queue.subset hx
  · rw [queueEnd, ← queue]
    exact scanned.entries x (queue ▸ hx)

theorem cancelOrder_accepted {s v : State} {c : RecNo} {param : Word} (e : SlotNo) (names : param.toNat = c.val)
    (h : s.cancel c = (v, none)) : s.cancelOrder e param = v.finishOrder e (.plain .done none none (some c)) := by
  have bound : param.toNat < 16 := names ▸ c.isLt
  have same : (⟨param.toNat, bound⟩ : RecNo) = c := Fin.ext names
  unfold State.cancelOrder
  rw [dif_pos bound]
  simp only [same, h]

theorem cancelOrder_refused {s v : State} {c : RecNo} {param : Word} {reason : Reason} (e : SlotNo) (names : param.toNat = c.val)
    (h : s.cancel c = (v, some reason)) : s.cancelOrder e param = v.refuse e reason none (some c) := by
  have bound : param.toNat < 16 := names ▸ c.isLt
  have same : (⟨param.toNat, bound⟩ : RecNo) = c := Fin.ext names
  unfold State.cancelOrder
  rw [dif_pos bound]
  simp only [same, h]

theorem cancelOrder_noRecord {s : State} {param : Word} (e : SlotNo) (none : 16 ≤ param.toNat) :
    s.cancelOrder e param = s.refuse e .noCycle Option.none Option.none := by
  unfold State.cancelOrder
  rw [dif_neg (not_lt.mpr none)]

theorem hold_measuring (s : State) (e : SlotNo) (rest : List SlotNo) : sameMeasuring s (s.hold e rest) ∧ samePort s (s.hold e rest) := by
  rw [hold_same]
  exact ⟨⟨rfl, rfl, rfl, rfl, rfl, rfl, rfl, rfl⟩, rfl, rfl, rfl, rfl⟩

theorem sameMeasuring_trans {s v u : State} (h : sameMeasuring s v) (g : sameMeasuring v u) : sameMeasuring s u := by
  obtain ⟨sense, phases, tb, meter, meterV, pub, work, choices⟩ := h
  obtain ⟨sense', phases', tb', meter', meterV', pub', work', choices'⟩ := g
  exact ⟨sense'.trans sense, phases'.trans phases, tb'.trans tb, meter'.trans meter, meterV'.trans meterV, pub'.trans pub,
    work'.trans work, choices'.trans choices⟩

theorem samePort_trans {s v u : State} (h : samePort s v) (g : samePort v u) : samePort s u := by
  obtain ⟨pending, resetting, mask, sdo⟩ := h
  obtain ⟨pending', resetting', mask', sdo'⟩ := g
  exact ⟨pending'.trans pending, resetting'.trans resetting, mask'.trans mask, sdo'.trans sdo⟩

theorem hold_orderKept (s : State) {e j : SlotNo} (rest : List SlotNo) (h : j ≠ e) : OrderKept j s (s.hold e rest) := by
  have same := hold_same s e rest
  refine ⟨hold_orders_other s rest h, fun a ha => (memStep_hold s e rest).bytes a (slotBytes_other h ha), ?_, ?_⟩
  · rw [same]
  · rw [same]
    exact id

theorem exec_cancelCycle_end {s : State} {t : Nat} {e : SlotNo} {rest : List SlotNo} (taken : Taken s e rest .cancelCycle) :
    exec (.cancelCycle t) s =
      .next ((((s.advance t).hold e rest).cancelOrder e (slotFields s.mem e).param).eventEnd (s.advance t)) := by
  obtain ⟨running, -, head, posted, kind⟩ := taken
  have work : (s.advance t).take1 (some .cancelCycle) (fun e f s => s.cancelOrder e f.param) =
      ((s.advance t).hold e rest).cancelOrder e (slotFields s.mem e).param :=
    take1_of_head (s := s.advance t) head posted kind _
  exact (congrArg Host.Outcome.next (event_end running t _)).trans (by rw [work])

end Sys2Proof.Machine
end

section
/-! PROOF. The obligation about CANCEL_CYCLE (O34). -/
namespace Sys2Proof.Machine

open Sys2Proof.Safety

/-- R147: a record that rests closes now. -/
theorem cancel_rests {b : State} {c : RecNo} (resting : b.cycles[c].state = .resting) (fresh : b.cycles[c].cancelled = false)
    (nodup : b.cycles[c].participants.Nodup)
    (members : ∀ k ∈ b.cycles[c].participants, b.outlets[k].state = .resting ∧ b.outlets[k].cycle = some c) :
    b.cancel c = ((b.cancelMarked c).closingAll c, none) := by
  have record : (b.cancelMarked c).cycles[c] = { b.cycles[c] with cancelled := true } := upd_same _ _ _
  rw [cancel_resting resting fresh, enterClosing_turns (s := b.cancelMarked c) (by rw [record]; exact nodup) fun k hk => ?_, settle_nil]
  rw [record] at hk
  exact .inr (.inl (members k hk))

/-- R147: a record that opens turns back. -/
theorem cancel_opens {b : State} {c : RecNo} (opening : b.cycles[c].state = .opening) (fresh : b.cycles[c].cancelled = false)
    (nodup : b.cycles[c].participants.Nodup) (members : ∀ k ∈ b.cycles[c].participants, b.outlets[k].cycle = some c ∧
      b.outlets[k].pending = none ∧ (b.outlets[k].state = .opening ∨ b.outlets[k].state = .resting)) :
    b.cancel c = (((b.cancelMarked c).restoringAll c).testEnd c, none) := by
  have record : (b.cancelMarked c).cycles[c] = { b.cycles[c] with cancelled := true } := upd_same _ _ _
  rw [cancel_opening opening fresh, enterRestoring_turns (s := b.cancelMarked c) (by rw [record]; exact nodup) (fun k hk => ?_)
    fun k hk => ?_, settle_nil]
  · rw [record] at hk
    obtain ⟨member, pending, state⟩ := members k hk
    exact state.elim (fun h => .inr (.inr ⟨h, pending⟩)) fun h => .inr (.inl ⟨h, member⟩)
  · rw [record] at hk
    obtain ⟨-, -, state⟩ := members k hk
    have same : (b.cancelMarked c).outlets[k] = b.outlets[k] := rfl
    rw [same]
    rcases state with h | h <;> rw [h] <;> exact OutletState.noConfusion

/-- Settles O34: the refusals, then what the cancel makes of the record, and the order finished behind it. -/
theorem cancelByState : Obligations.CancelByState := by
  unfold Obligations.CancelByState
  intro s t e rest taken control stranger p turnedAway accepted
  have ends := exec_cancelCycle_end (t := t) taken
  have same := hold_same (s.advance t) e rest
  have held := hold_orders_same (s.advance t) e rest
  obtain ⟨measuringB, portB⟩ := hold_measuring (s.advance t) e rest
  have elsewhere {j : SlotNo} (hj : j ≠ e) : OrderKept j (s.advance t) ((s.advance t).hold e rest) := hold_orderKept (s.advance t) rest hj
  have taken' : MemStep blockBytes s.mem ((s.advance t).hold e rest).mem := by
    rw [hold_mem]
    exact memStep_writeTaken _ _ _
  rw [ends]
  generalize (s.advance t).hold e rest = b at *
  have wf : MemWf b.mem := taken'.wf taken.memory
  have control' : Control b := control.view (.of_tables (by rw [same]; rfl) (by rw [same]; rfl) (by rw [same]; rfl)
    (by rw [same]; rfl) (by rw [same]; rfl) (by rw [same]; rfl) (by rw [same]; rfl) (by rw [same]; rfl))
  have block := cancelOrder_block e (slotFields s.mem e).param b
  have measuring := eventEnd_measuring (old := s.advance t) block
  have inputs := eventEnd_inputs (old := s.advance t) block
  have bytes := eventEnd_bytes (old := s.advance t) block
  have cycles : b.cycles = s.cycles := by rw [same]; rfl
  have watches : b.watches = s.watches := by rw [same]; rfl
  have outlets : b.outlets = s.outlets := by rw [same]; rfl
  have refused {reason : Reason} {n : Option RecNo}
      (h : b.cancelOrder e (slotFields s.mem e).param = b.refuse e reason none n) :
      turnedAway ((b.cancelOrder e (slotFields s.mem e).param).eventEnd (s.advance t)) reason n := by
    have done := cancelEnds wf held (.plain .refused (some reason) none n) (s.advance t)
    rw [h]
    exact ⟨done.finished, done.cycles.trans cycles, done.watches.trans watches,
      fun j hj => ((elsewhere hj).trans (done.others j hj)).entry⟩
  have acceptedBy {v : State} {c : RecNo} (cancels : b.cancel c = (v, none)) (names : p = c.val) (kept : OrderKept e b v)
      (apart : ∀ x : RecNo, x ≠ c → v.cycles[x] = b.cycles[x]) :
      CancelEnds v ((b.cancelOrder e (slotFields s.mem e).param).eventEnd (s.advance t)) e (.plain .done none none (some c)) ∧
        accepted ((b.cancelOrder e (slotFields s.mem e).param).eventEnd (s.advance t)) c := by
    have wfV : MemWf v.mem := by
      have step := cancel_block b c
      rw [cancels] at step
      exact step.wf wf
    have done := cancelEnds wfV (kept.entry.trans held) (.plain .done none none (some c)) (s.advance t)
    rw [cancelOrder_accepted e names cancels]
    refine ⟨done, done.finished, fun x hx => ?_⟩
    rw [done.cycles, apart x hx, cycles]
  refine ⟨_, rfl, ?_, ?_, ?_, fun a ha => ?_, fun large => ?_, fun c names => ⟨fun free => ?_, fun busy => ?_,
    fun resting fresh members => ?_, fun opening fresh members => ?_, fun closing fresh => ?_⟩⟩
  · rw [inputs.2.2, same]
  · exact sameMeasuring_trans measuringB measuring
  · exact samePort_trans portB inputs.1
  · rw [bytes a ha]
    exact taken'.bytes a (Bool.or_eq_false_iff.mp ha).1
  · exact refused (cancelOrder_noRecord e large)
  · have state : b.cycles[c].state = .free := by rw [cycles]; exact free
    refine refused ?_
    rw [cancelOrder_refused e names (cancel_refused (.inl state)), if_pos state]
  · have state : b.cycles[c].state = .restoring ∨ b.cycles[c].state = .closing ∧ b.cycles[c].cancelled = true := by
      rw [cycles]; exact busy
    have run : b.cycles[c].state ≠ .free := by
      rcases state with h | h
      · rw [h]; exact CycleState.noConfusion
      · rw [h.1]; exact CycleState.noConfusion
    refine refused ?_
    rw [cancelOrder_refused e names (cancel_refused (.inr (state.imp id And.right))), if_neg run]
  · have member (k : OutletIx) (hk : k ∈ b.cycles[c].participants) : b.outlets[k].state = .resting ∧ b.outlets[k].cycle = some c := by
      refine ⟨?_, ((control'.member k).member c).mpr hk⟩
      rw [outlets]
      exact members k (by rw [← cycles]; exact hk)
    have nodup := control'.participants c
    have cancels := cancel_rests (by rw [cycles]; exact resting) (by rw [cycles]; exact fresh) nodup member
    have ends := closingAll_same (b.cancelMarked c) c
    have record : (b.cancelMarked c).cycles[c] = { s.cycles[c] with cancelled := true } := by
      rw [← cycles]
      exact upd_same _ _ _
    have other {x : RecNo} (hx : x ≠ c) : (b.cancelMarked c).cycles[x] = b.cycles[x] := upd_other _ _ hx
    have kept : OrderKept e b (b.cancelMarked c) := .of_same rfl rfl rfl rfl
    have outlet {k : OutletIx} (hk : k ∈ b.cycles[c].participants) := closingAll_outlet (s := b.cancelMarked c) (c := c) (k := k)
      (by rw [record, ← cycles]; exact nodup) (by rw [record, ← cycles]; exact hk) (by
        rw [show (b.cancelMarked c).outlets[k] = b.outlets[k] from rfl, (member k hk).1]
        exact OutletState.noConfusion)
    generalize (b.cancelMarked c).closingAll c = v at *
    obtain ⟨done, here⟩ := acceptedBy cancels names (kept.trans (.of_same (by rw [ends]) (by rw [ends]) (by rw [ends]) (by rw [ends])))
      fun x hx => by rw [ends]; exact (upd_other _ _ hx).trans (other hx)
    refine ⟨here, ?_, fun k hk => ?_⟩
    · rw [done.cycles, ends]
      refine (upd_same _ _ _).trans ?_
      rw [record, closingClass_eq]
    · have found := outlet (by rw [cycles]; exact hk)
      obtain ⟨owner, -, state⟩ := done.scanned k
      rw [found] at owner state
      exact ⟨state, owner⟩
  · have member (k : OutletIx) (hk : k ∈ b.cycles[c].participants) : b.outlets[k].cycle = some c ∧ b.outlets[k].pending = none ∧
        (b.outlets[k].state = .opening ∨ b.outlets[k].state = .resting) := by
      refine ⟨((control'.member k).member c).mpr hk, ?_⟩
      rw [outlets]
      exact members k (by rw [← cycles]; exact hk)
    have nodup := control'.participants c
    have cancels := cancel_opens (by rw [cycles]; exact opening) (by rw [cycles]; exact fresh) nodup member
    have settled : Control (((b.cancelMarked c).restoringAll c).testEnd c) := by
      have after := cancel_control control' c
      rwa [cancels] at after
    have ends := restoringAll_same (b.cancelMarked c) c
    have record : (b.cancelMarked c).cycles[c] = { s.cycles[c] with cancelled := true } := by
      rw [← cycles]
      exact upd_same _ _ _
    have other {x : RecNo} (hx : x ≠ c) : (b.cancelMarked c).cycles[x] = b.cycles[x] := upd_other _ _ hx
    have start (k : OutletIx) : (b.cancelMarked c).outlets[k] = s.outlets[k] := by rw [← outlets]; rfl
    have kept : OrderKept e b (b.cancelMarked c) := .of_same rfl rfl rfl rfl
    have distinct : (b.cancelMarked c).cycles[c].participants.Nodup := by rw [record, ← cycles]; exact nodup
    have outlet {k : OutletIx} (hk : k ∈ s.cycles[c].participants) :=
      turnAll_outlet ((b.cancelMarked c).recordRestoring c) distinct 0 c (k := k) (by rw [record]; exact hk)
    have entry {k : OutletIx} (hk : k ∈ s.cycles[c].participants) :=
      turnAll_entry ((b.cancelMarked c).recordRestoring c) distinct 0 c (k := k) (by rw [record]; exact hk)
    change ∀ {k : OutletIx}, _ → ((b.cancelMarked c).restoringAll c).outlets[k] = _ at outlet
    change ∀ {k : OutletIx}, _ → (b.cancelMarked c).outlets[k].state ≠ _ → ∃ x ∈ ((b.cancelMarked c).restoringAll c).queue, _ at entry
    have same' (k : OutletIx) : ((b.cancelMarked c).recordRestoring c).outlets[k] = s.outlets[k] := start k
    generalize (b.cancelMarked c).restoringAll c = x at *
    have recordX : x.cycles[c] = { s.cycles[c] with state := .restoring, restDeadline := none, cls := some 0, cancelled := true } := by
      rw [ends]
      refine (upd_same _ _ _).trans ?_
      rw [record]
    have becomes := testEnd_becomes recordX (.inr rfl)
    obtain ⟨told, -, apart⟩ := testEnd_told x c
    have keptX : OrderKept e b x := kept.trans (.of_same (by rw [ends]) (by rw [ends]) (by rw [ends]) (by rw [ends]))
    have keptV := keptX.trans (testEnd_orderKept (s := x) (c := c) fun v => by rw [recordX]; exact stranger c v)
    generalize x.testEnd c = v at *
    obtain ⟨done, here⟩ := acceptedBy cancels names keptV fun y hy => by
      rw [apart y hy, ends]
      exact (upd_other _ _ hy).trans (other hy)
    have queue : v.queue = x.queue := by rw [told.same]
    refine ⟨here, recordBecomes_congr becomes (by rw [done.cycles]) done.cycle, fun k hk => ⟨fun state => ?_, fun state => ?_⟩⟩
    · obtain ⟨-, pending, states⟩ := done.scanned k
      have found := told.outlet k
      rw [outlet hk, same', state, if_pos rfl] at found
      have un : Unlisted v k := (settled.relay k).toListed.unlisted (by rw [found, state]; exact OutletState.noConfusion)
      rw [done.unlisted k un, found]
      exact ⟨state, rfl⟩
    · have found := told.outlet k
      rw [outlet hk, same', state, if_neg OutletState.noConfusion] at found
      obtain ⟨owner, -, states⟩ := done.scanned k
      rw [found] at owner states
      refine ⟨owner, states.symm.imp id fun awaits => ⟨awaits, ?_⟩⟩
      obtain ⟨y, hy, hk', hcls⟩ := entry hk (by rw [start, state]; exact OutletState.noConfusion)
      refine ⟨y, ?_, hk', hcls⟩
      refine (done.entries y (queue ▸ hy)).resolve_right fun ⟨z, hz, arrival, closing⟩ => ?_
      have eq : z = y := List.inj_on_of_nodup_map settled.queueArrivals.1 hz (queue ▸ hy) arrival
      subst hk'
      rw [eq, awaits] at closing
      cases closing
  · intro waits after
    have nodup := control'.participants c
    have cancels := cancel_closing (s := b) (c := c) (by rw [cycles]; exact closing) (by rw [cycles]; exact fresh)
    have record : (b.cancelMarked c).cycles[c] = { s.cycles[c] with cancelled := true } := by
      rw [← cycles]
      exact upd_same _ _ _
    have other {x : RecNo} (hx : x ≠ c) : (b.cancelMarked c).cycles[x] = b.cycles[x] := upd_other _ _ hx
    have start (k : OutletIx) : (b.cancelMarked c).outlets[k] = s.outlets[k] := by rw [← outlets]; rfl
    have waitsIff (k : OutletIx) : WaitsFor (b.cancelMarked c) c k ↔ waits k := by rw [WaitsFor, start]
    have queueB : (b.cancelMarked c).queue = s.queue := by rw [State.cancelMarked, State.modCycle, same]; rfl
    have kept (j : SlotNo) : OrderKept j b (b.cancelMarked c) := .of_same rfl rfl rfl rfl
    have withdrawn := withdrawCloses_withdrawn (s := b.cancelMarked c) (c := c) (by rw [record, ← cycles]; exact nodup)
      (by rw [record]; exact closing)
    generalize (b.cancelMarked c).withdrawCloses c = x at *
    have keptX (j : SlotNo) : OrderKept j b x := (kept j).trans
      (.of_same (by rw [withdrawn.same]) (by rw [withdrawn.same]) (by rw [withdrawn.same]) (by rw [withdrawn.same]))
    have recordX : x.cycles[c] = after := by
      rw [withdrawn.record, record]
      have filters : s.cycles[c].participants.filter (fun k => WaitsFor (b.cancelMarked c) c k) =
          s.cycles[c].participants.filter (fun k => waits k) := List.filter_congr fun k _ => decide_eq_decide.mpr (waitsIff k)
      dsimp only
      rw [filters]
    have state : after.state = .closing := closing
    have becomes := testEnd_becomes recordX (.inl state)
    obtain ⟨told, -, apart⟩ := testEnd_told x c
    have keptV := (keptX e).trans (testEnd_orderKept (s := x) (c := c) fun v => by rw [recordX]; exact stranger c v)
    have wfX : MemWf x.mem := by
      rw [withdrawn.same]
      exact wf
    have tells {o : SlotNo} {v : Bool} := testEnd_tells (e := o) (v := v) wfX (c := c)
    rw [recordX] at tells
    generalize x.testEnd c = v at *
    obtain ⟨done, here⟩ := acceptedBy cancels names keptV fun y hy => by rw [apart y hy, withdrawn.cycles y hy, other hy]
    have queue : v.queue = x.queue := by rw [told.same]
    refine ⟨here, recordBecomes_congr becomes (by rw [done.cycles]) done.cycle, fun k hk wk => ?_, fun k hk no awake => ?_,
      fun all o v mem held => ?_⟩
    · obtain ⟨found, un⟩ := withdrawn.outlet k (by rw [record]; exact hk) ((waitsIff k).mpr wk)
      have away : Unlisted v k := by
        rw [Unlisted, queue]
        exact un
      rw [done.unlisted k away, told.outlet k, found]
      exact ⟨rfl, rfl, fun y hy => away y (done.queue y hy)⟩
    · have away : Unlisted v k := fun y hy => by
        rw [queue] at hy
        exact (control.relay k).toListed.unlisted awake y (queueB ▸ withdrawn.queue y hy)
      rw [done.unlisted k away, told.outlet k, withdrawn.others k (.inr fun wk => no ((waitsIff k).mp wk)), start]
      exact ⟨rfl, rfl⟩
    · have ne : o ≠ e := fun same => stranger c v (same ▸ mem)
      have finished := tells (o := o) (v := v) mem (((elsewhere ne).trans (keptX o)).entry ▸ held) (.inl state) all
      exact (done.others o ne).finished finished

end Sys2Proof.Machine
end

section
/-! PROOF. The frame that a close hands over, and the sample taken at that instant (R1, R8, R19). -/
namespace Sys2Proof.Machine

open Sys2Proof.Safety

/-! ### The windows of the frame that closes -/

/-- The state with the windows and the count of the closing frame: a sample of this instant has left them. -/
def State.frameAtClose (s : State) : State :=
  match s.sampleNow with
  | none => s
  | some l => s.giveBack l

/-- The sample of this instant, if there is one, is counted in the frame that has opened. -/
def State.ownCounted (s : State) (own : Option LastSample) : State :=
  match own with
  | none => s
  | some l => s.countSample l.codes

theorem closeFrame_eq (s : State) (short : Bool) (cycleCount : Nat) (state : TimebaseState) (note : Option NoticeKind) :
    s.closeFrame short cycleCount state note =
      (s.frameAtClose.closeCounted short cycleCount state note).ownCounted s.sampleNow := by
  unfold State.closeFrame State.withOwnSample State.frameAtClose State.ownCounted
  cases s.sampleNow <;> rfl

theorem frameAtClose_same (s : State) : s.frameAtClose =
    { s with meter := s.frameAtClose.meter, meterV := s.frameAtClose.meterV, tb := s.frameAtClose.tb } := by
  unfold State.frameAtClose
  cases s.sampleNow <;> rfl

theorem frameAtClose_tb (s : State) : s.frameAtClose.tb =
    { s.tb with sampleCount := samplesAtClose s s.now, lastSample := s.frameAtClose.tb.lastSample } := by
  have same : nextFramesSample s s.now = s.sampleNow := rfl
  unfold State.frameAtClose samplesAtClose
  rw [same]
  cases s.sampleNow <;> rfl

theorem frameAtClose_meter (s : State) (k : OutletIx) : s.frameAtClose.meter[k] = { s.meter[k] with
    sii := (windowAtClose s s.now k).sii, svi := (windowAtClose s s.now k).svi, clip := (windowAtClose s s.now k).clip } := by
  have same : nextFramesSample s s.now = s.sampleNow := rfl
  unfold State.frameAtClose windowAtClose
  rw [same]
  cases s.sampleNow with
  | none => rfl
  | some l => exact tab_at _ k

theorem frameAtClose_meterV (s : State) (p : Phase) : s.frameAtClose.meterV[p] = phaseAtClose s s.now p := by
  have same : nextFramesSample s s.now = s.sampleNow := rfl
  unfold State.frameAtClose phaseAtClose
  rw [same]
  cases s.sampleNow <;> rfl

/-! ### The first sample of the frame that opens -/

theorem ownCounted_same (s : State) (own : Option LastSample) : s.ownCounted own =
    { s with meter := (s.ownCounted own).meter, meterV := (s.ownCounted own).meterV, tb := (s.ownCounted own).tb } := by
  cases own <;> rfl

/-- R8: the open sample is counted since the open. -/
theorem ownCounted_tb {s : State} (opened : s.tb.openTaken = false) (begun : s.tb.cycleTaken = 0) (own : Option LastSample) :
    (s.ownCounted own).tb = { s.tb with
      openTaken := own.isSome, cycleTaken := if own = none then 0 else 1, lastSample := (s.ownCounted own).tb.lastSample } := by
  cases own with
  | none =>
    simp only [State.ownCounted, Option.isSome_none, if_true]
    rw [← opened, ← begun]
  | some l =>
    simp only [State.ownCounted, State.countSample, Timebase.counted, opened, begun, Option.isSome_some, Bool.false_eq_true, if_false,
      reduceCtorEq]

/-- A sample moves the sums and the clip mark of a meter alone. -/
theorem ownCounted_meter (s : State) (own : Option LastSample) (k : OutletIx) : (s.ownCounted own).meter[k] = { s.meter[k] with
    sii := (s.ownCounted own).meter[k].sii, svi := (s.ownCounted own).meter[k].svi
    clip := (s.ownCounted own).meter[k].clip } := by
  cases own with
  | none => rfl
  | some l =>
    show (s.accumulate l.codes).meter[k] = { s.meter[k] with
      sii := (s.accumulate l.codes).meter[k].sii, svi := (s.accumulate l.codes).meter[k].svi
      clip := (s.accumulate l.codes).meter[k].clip }
    rw [accumulate_meter]

/-! ### The whole root (R22) -/

theorem rootBits_root (k : Nat) : ∀ n < 4 ^ k, rootBits k n * rootBits k n ≤ n ∧ n < (rootBits k n + 1) * (rootBits k n + 1) := by
  induction k with
  | zero =>
    intro n hn
    have zero : n = 0 := by simpa using hn
    rw [zero]
    exact ⟨le_refl _, Nat.zero_lt_one⟩
  | succ k ih =>
    intro n hn
    obtain ⟨low, high⟩ := ih (n / 4) (by rw [pow_succ] at hn; omega)
    rw [rootBits]
    generalize rootBits k (n / 4) = r at low high
    split_ifs with bit
    · refine ⟨bit, ?_⟩
      have : n < 4 * ((r + 1) * (r + 1)) := by omega
      nlinarith
    · refine ⟨?_, not_le.mp bit⟩
      have : 4 * (r * r) ≤ n := by omega
      nlinarith

theorem isqrt_root {n : Nat} (h : n < 2 ^ 64) : isqrt n * isqrt n ≤ n ∧ n < (isqrt n + 1) * (isqrt n + 1) :=
  rootBits_root 32 n (lt_of_lt_of_le h (by decide))

end Sys2Proof.Machine
end

section
/-! PROOF. A settings take at a close reads what the command found (R189): notices lie outside the settings regions. -/
namespace Sys2Proof.Machine

open Sys2Proof.Safety

/-! ### The settings regions -/

/-- The settings regions of exchange memory read alike. -/
def sameSettings (m m' : Mem) : Prop := ∀ a, 0x0100 ≤ a → a < 0x0B00 → readByte m' a = readByte m a

section
variable {m m' : Mem} (same : sameSettings m m')
include same

theorem byteAt_settings {a : Nat} (low : 0x0100 ≤ a) (high : a < 0x0B00) : byteAt m' a = byteAt m a := by
  rw [byteAt, byteAt, same a low high]

theorem readHalf_settings {a : Nat} (low : 0x0100 ≤ a) (high : a + 1 < 0x0B00) : readHalf m' a = readHalf m a := by
  rw [readHalf, readHalf, same a low (by omega), same (a + 1) (by omega) high]

theorem readWord_settings {a : Nat} (low : 0x0100 ≤ a) (high : a + 3 < 0x0B00) : readWord m' a = readWord m a := by
  rw [readWord, readWord, same a low (by omega), same (a + 1) (by omega) (by omega), same (a + 2) (by omega) (by omega),
    same (a + 3) (by omega) high]

theorem takeOutlet_settings (k : OutletIx) : takeOutlet m' k = takeOutlet m k := by
  have hk := k.isLt
  have tag : readByte m' (outletSettingsAddr k + 2) = readByte m (outletSettingsAddr k + 2) :=
    same _ (by simp only [outletSettingsAddr]; omega) (by simp only [outletSettingsAddr]; omega)
  simp (disch := simp only [outletSettingsAddr]; omega) only [takeOutlet, halfAt, signedHalfAt, byteAt_settings same,
    readHalf_settings same, tag]

theorem takeBranch_settings (b : Branch) : takeBranch m' b = takeBranch m b := by
  have hb := b.isLt
  simp (disch := simp only [branchSettingsAddr]; omega) only [takeBranch, halfAt, byteAt_settings same, readHalf_settings same]

theorem takePhase_settings (p : Phase) : takePhase m' p = takePhase m p := by
  have hp := p.isLt
  simp (disch := simp only [phaseSettingsAddr]; omega) only [takePhase, halfAt, signedHalfAt, readHalf_settings same]

theorem takeStrip_settings : takeStrip m' = takeStrip m := by
  simp (disch := decide) only [takeStrip, stripSettingsAddr, halfAt, byteAt_settings same, readHalf_settings same,
    readWord_settings same]

theorem takeWatch_settings (w : WatchNo) : takeWatch m' w = takeWatch m w := by
  have hw := w.isLt
  have members : ((List.range 8).map fun i => byteAt m' (watchSettingsAddr w + 4 + i)) =
      (List.range 8).map fun i => byteAt m (watchSettingsAddr w + 4 + i) :=
    List.map_congr_left fun i hi => by
      have := List.mem_range.mp hi
      exact byteAt_settings same (by simp only [watchSettingsAddr]; omega) (by simp only [watchSettingsAddr]; omega)
  unfold takeWatch
  dsimp only
  rw [members]
  simp (disch := simp only [watchSettingsAddr]; omega) only [halfAt, byteAt_settings same, readHalf_settings same,
    readWord_settings same]

theorem takenSettings_settings : takenSettings m' = takenSettings m := by
  simp only [takenSettings, takeOutlet_settings same, takeBranch_settings same, takePhase_settings same,
    takeStrip_settings same, takeWatch_settings same]

theorem settingsStatus_settings (takes : Nat) : settingsStatus m' takes = settingsStatus m takes := by
  simp only [settingsStatus, takeBranch_settings same, takePhase_settings same, takeStrip_settings same]

end

theorem sameSettings_of_notices {m m' : Mem} (h : sameBytesOutside noticeBytes m m') : sameSettings m m' :=
  fun a low high => h a (by
    rw [noticeBytes, Bool.or_eq_false_iff, within_eq_false, within_eq_false]
    simp only [addrWriteCount]
    omega)

/-! ### The take of a close -/

/-- Notices alone have reached the memory, and neither the settings in force nor the records with a CLAMPED flag have
changed. -/
structure SettingsKept (s a : State) : Prop where
  work : a.work = s.work
  outlets : a.outlets = s.outlets
  watches : a.watches = s.watches
  mem : MemStep noticeBytes s.mem a.mem

theorem SettingsKept.word {s a : State} (h : SettingsKept s a) {addr : Nat} (ha : addr + 3 < addrWriteCount ∨ 0x20 ≤ addr ∧ addr + 3 < 0x2D00) :
    readWord a.mem addr = readWord s.mem addr :=
  h.mem.readWord addr fun i hi => by
    rw [noticeBytes, Bool.or_eq_false_iff, within_eq_false, within_eq_false]
    simp only [addrWriteCount] at ha ⊢
    omega

/-- What a take reads is what it would have read before the notices. -/
theorem take_settingsKept {s a : State} (h : SettingsKept s a) : a.takeIfAllowed.work = s.takeIfAllowed.work ∧
    a.takeIfAllowed.outlets = s.takeIfAllowed.outlets ∧ a.takeIfAllowed.watches = s.takeIfAllowed.watches := by
  have same := sameSettings_of_notices h.mem.bytes
  have hold : readWord a.mem addrHold = readWord s.mem addrHold := h.word (by decide)
  unfold State.takeIfAllowed
  rw [hold]
  split
  · rw [take_same a, take_same s]
    refine ⟨takenSettings_settings same, ?_, ?_⟩
    · simp only [State.loadSettings, h.outlets, takeOutlet_settings same]
    · simp only [State.loadSettings, h.watches, takeWatch_settings same]
  · exact ⟨h.work, h.outlets, h.watches⟩

/-- The settings status word is the take's. -/
theorem take_status {s a : State} (wf : MemWf s.mem) (h : SettingsKept s a) :
    readWord a.takeIfAllowed.mem addrSettingsStatus = readWord s.takeIfAllowed.mem addrSettingsStatus := by
  have same := sameSettings_of_notices h.mem.bytes
  have hold : readWord a.mem addrHold = readWord s.mem addrHold := h.word (by decide)
  have status : readWord a.mem addrSettingsStatus = readWord s.mem addrSettingsStatus := h.word (by decide)
  unfold State.takeIfAllowed
  rw [hold]
  split
  · refine (readWord_take a (h.mem.wf wf)).trans (Eq.trans ?_ (readWord_take s wf).symm)
    rw [settingsStatus_settings same, nextTakeCount, nextTakeCount, status]
  · exact status

theorem takeIfAllowed_work (s : State) :
    s.takeIfAllowed.work = if readWord s.mem 0x10 = 0 then takenSettings s.mem else s.work := by
  have addr : addrHold = 0x10 := rfl
  unfold State.takeIfAllowed
  rw [addr]
  split
  · rw [take_same]
  · rfl

/-- A close is numbered, and files its notice, before the take. -/
theorem beginClose_settingsKept (s : State) (note : Option NoticeKind) : SettingsKept s (s.beginClose note) := by
  have h := (beginClose_step s note).same
  refine ⟨by rw [h], by rw [h], by rw [h], ?_⟩
  cases note with
  | none => exact .refl _ _
  | some n => exact memStep_notice_noticeBytes s.numberFrame _ _ _ _

theorem SettingsKept.trans {s a b : State} (h : SettingsKept s a) (g : SettingsKept a b) : SettingsKept s b :=
  ⟨g.work.trans h.work, g.outlets.trans h.outlets, g.watches.trans h.watches, h.mem.trans g.mem⟩

/-- The settings, the CLAMPED flags and the settings status with which the next frame opens. -/
theorem openedAfter_settings {s a : State} (h : SettingsKept s a) (state : TimebaseState) (note : Option NoticeKind) :
    (a.openedAfter state note).work = s.takeIfAllowed.work ∧ (a.openedAfter state note).outlets = s.takeIfAllowed.outlets ∧
      (a.openedAfter state note).watches = s.takeIfAllowed.watches :=
  take_settingsKept (h.trans (beginClose_settingsKept a note))

theorem openedAfter_status {s a : State} (wf : MemWf s.mem) (h : SettingsKept s a) (state : TimebaseState)
    (note : Option NoticeKind) :
    readWord (a.openedAfter state note).mem addrSettingsStatus = readWord s.takeIfAllowed.mem addrSettingsStatus :=
  take_status wf (h.trans (beginClose_settingsKept a note))

end Sys2Proof.Machine
end

section
/-! PROOF. A close of a frame as a whole (R8): what is handed over, what the next frame opens with, and what the end of the
event leaves of it. -/
namespace Sys2Proof.Machine

open Sys2Proof.Safety

/-! ### The close of the windows as they stand -/

/-- The state of a close once its free choice is counted (log entry 6). -/
def State.chosen (s : State) : State := { s with choices := s.choices + 1 }

theorem beforeWork_block (s : State) (state : TimebaseState) (note : Option NoticeKind) :
    BlockStep ((s.openedAfter state note).latched (nextSequence s.pub.closedSeq)) (s.beforeWork state note) :=
  .after (answerClears_block _ _) (latchCopy_block _ _)

theorem beforeWork_fields (s : State) (state : TimebaseState) (note : Option NoticeKind) :
    (s.beforeWork state note).work = (s.openedAfter state note).work ∧
      (s.beforeWork state note).phases = (s.openedAfter state note).phases ∧
      (s.beforeWork state note).pub = ((s.openedAfter state note).latched (nextSequence s.pub.closedSeq)).pub ∧
      (s.beforeWork state note).pub.waiting = s.pub.waiting := by
  have block := beforeWork_block s state note
  have latched := latched_same (s.openedAfter state note) (nextSequence s.pub.closedSeq)
  refine ⟨block.work.trans (by rw [latched]), block.phases.trans (by rw [latched]), block.pub, ?_⟩
  rw [block.pub, latched, (openedAfter_same s state note).1]

/-- A close ends in a scan where one is due. -/
theorem closeFrameIn_scanDue (s : State) (order : CloseOrder) (short : Bool) (cycleCount : Nat) (state : TimebaseState)
    (note : Option NoticeKind) : (s.closeFrameIn order short cycleCount state note).scanDue = false :=
  scanIfDue_scanDue _

/-- The frame that a close hands over, the settings of the next, and the work that the blocks have done, together. -/
structure ClosedWhole (s u : State) (state : TimebaseState) (note : Option NoticeKind) (short : Bool) (cycleCount : Nat)
    (f : FrameResult) : Prop where
  step : CloseStep s.chosen u state short cycleCount f (s.chosen.openedAfter state note).work
  done : WorkDone s.work f (s.chosen.beforeWork state note) u
  scanDue : u.scanDue = false
  phases : u.phases = (s.chosen.openedAfter state note).phases
  pub : u.pub = { (s.chosen.beforeWork state note).pub with waiting := s.pub.waiting ++ [f] }

theorem closeCounted_whole (s : State) (short : Bool) (cycleCount : Nat) (state : TimebaseState) (note : Option NoticeKind) :
    ∃ f, ClosedWhole s (s.closeCounted short cycleCount state note) state note short cycleCount f := by
  obtain ⟨f, w, step⟩ := closeCounted_step s short cycleCount state note
  have scanDue := closeFrameIn_scanDue s.chosen (Config.closeOrder s.choices) short cycleCount state note
  obtain ⟨r, g, closed, block, done⟩ := closeFrameIn_workDone s.chosen (Config.closeOrder s.choices) short cycleCount state note
  obtain ⟨work, phases, -, waiting⟩ := beforeWork_fields s.chosen state note
  have named : s.closeCounted short cycleCount state note =
    s.chosen.closeFrameIn (Config.closeOrder s.choices) short cycleCount state note := rfl
  rw [named] at step ⊢
  rw [closed] at step scanDue done ⊢
  have queued : r.pub.waiting = s.pub.waiting := by
    rw [block.pub]
    exact waiting
  have same : f = g := by
    have frames := step.waiting.symm.trans (congrArg (· ++ [g]) queued)
    exact List.singleton_injective (List.append_cancel_left frames)
  have settings : w = (s.chosen.openedAfter state note).work := step.work.symm.trans (block.work.trans work)
  subst same settings
  refine ⟨f, step, done, scanDue, block.phases.trans phases, ?_⟩
  show { r.pub with waiting := r.pub.waiting ++ [f] } = _
  rw [queued, block.pub]

/-! ### The close with the sample of its instant -/

/-- What a close of the frame in progress hands over and opens; `own` is the sample of its instant (R1). -/
structure FrameClosed (s u : State) (state : TimebaseState) (short : Bool) (cycleCount : Nat) (f : FrameResult) : Prop where
  inputs : sameInputs s u
  now : u.now = s.now
  tb : u.tb = { s.tb with
    state := state, openInstant := s.now, frameState := state, cycles := 0, cycleSetting := u.work.strip.frameCycles
    sampleCount := 1, openTaken := (nextFramesSample s s.now).isSome, cycleStart := s.now
    cycleP := s.phases[(0 : Phase)].cyclePeriod.getD 0
    cycleTaken := if nextFramesSample s s.now = none then 0 else 1, lastSample := u.tb.lastSample }
  phases : ∀ p : Phase, u.phases[p] = { s.phases[p] with present := f.phases[p].present }
  meter : ∀ k : OutletIx, u.meter[k] = { MeterOutlet.opened u.work.outlets[k].branch
      (s.frameAtClose.frameOutlet (s.now - s.tb.openInstant) k).2.1
      (s.frameAtClose.frameOutlet (s.now - s.tb.openInstant) k).2.2 with
    sii := u.meter[k].sii, svi := u.meter[k].svi, clip := u.meter[k].clip }
  empty : nextFramesSample s s.now = none → (∀ p : Phase, u.meterV[p] = { svv := 0, clip := false }) ∧
    ∀ k : OutletIx, u.meter[k].sii = 0 ∧ u.meter[k].svi = 0 ∧ u.meter[k].clip = false
  own : ∀ l, nextFramesSample s s.now = some l →
    (∀ p : Phase, u.meterV[p] =
      { svv := (correctedCode l.codes.voltage[p] u.work.phases[p].voltageOffset *
          correctedCode l.codes.voltage[p] u.work.phases[p].voltageOffset).toNat
        clip := l.codes.voltage[p] == 0x8000#16 || l.codes.voltage[p] == 0x7FFF#16 }) ∧
    ∀ k : OutletIx,
      u.meter[k].sii = (correctedCode l.codes.current[k] u.work.outlets[k].currentOffset *
        correctedCode l.codes.current[k] u.work.outlets[k].currentOffset).toNat ∧
      u.meter[k].svi = correctedCode l.codes.voltage[phaseOfBranch u.work.outlets[k].branch]
        u.work.phases[phaseOfBranch u.work.outlets[k].branch].voltageOffset *
          correctedCode l.codes.current[k] u.work.outlets[k].currentOffset ∧
      u.meter[k].clip = (l.codes.current[k] == 0x8000#16 || l.codes.current[k] == 0x7FFF#16)
  waiting : u.pub.waiting = s.pub.waiting ++ [f]
  closedSeq : u.pub.closedSeq = nextSequence s.pub.closedSeq
  sequence : f.sequence = nextSequence s.pub.closedSeq
  length : f.tUs = s.now - s.tb.openInstant
  samples : f.n = samplesAtClose s s.now
  frequency : f.frequency = frequencyOf cycleCount f.tUs
  frameState : f.frameState = s.tb.frameState
  short : f.short = short
  phase : ∀ p : Phase, f.phases[p] =
    { vrms := rmsVoltage (rootMean (phaseAtClose s s.now p).svv (samplesAtClose s s.now)) s.work.phases[p].voltageGain
      present := s.work.strip.presentLevel ≤
        rmsVoltage (rootMean (phaseAtClose s s.now p).svv (samplesAtClose s s.now)) s.work.phases[p].voltageGain
      live := s.phases[p].live, clipped := (phaseAtClose s s.now p).clip }
  outlet : ∀ k : OutletIx, f.outlets[k] = { (s.frameAtClose.frameOutlet (s.now - s.tb.openInstant) k).1 with
    unverified := f.outlets[k].unverified }

theorem frameVrms_atClose (s : State) (p : Phase) : s.frameAtClose.frameVrms p =
    rmsVoltage (rootMean (phaseAtClose s s.now p).svv (samplesAtClose s s.now)) s.work.phases[p].voltageGain := by
  have work : s.frameAtClose.work = s.work := by rw [frameAtClose_same]
  rw [State.frameVrms, frameAtClose_meterV, frameAtClose_tb, work]

/-- What one sample makes of windows that have just opened. -/
theorem accumulate_opened {s : State} {x : SampleSet} (p : Phase) (empty : s.meterV[p] = MeterPhase.opened) :
    (s.accumulate x).meterV[p] =
      { svv := (correctedCode x.voltage[p] s.work.phases[p].voltageOffset *
          correctedCode x.voltage[p] s.work.phases[p].voltageOffset).toNat
        clip := x.voltage[p] == 0x8000#16 || x.voltage[p] == 0x7FFF#16 } := by
  rw [accumulate_meterV, empty]
  simp only [MeterPhase.opened, Nat.zero_add, Bool.false_or]

theorem FrameClosed.of_whole {s : State} {short : Bool} {cycleCount : Nat} {state : TimebaseState} {note : Option NoticeKind}
    {u : State} {f : FrameResult} (h : ClosedWhole s.frameAtClose u state note short cycleCount f) :
    FrameClosed s (u.ownCounted s.sampleNow) state short cycleCount f := by
  have step := h.step
  have base := frameAtClose_same s
  have baseTb := frameAtClose_tb s
  have own := ownCounted_same u s.sampleNow
  have opened : u.tb.openTaken = false := by rw [step.tb]
  have begun : u.tb.cycleTaken = 0 := by rw [step.tb]
  have phases : s.frameAtClose.phases = s.phases := by rw [base]
  have pub : s.frameAtClose.pub = s.pub := by rw [base]
  have now : s.frameAtClose.now = s.now := by rw [base]
  have openInstant : s.frameAtClose.tb.openInstant = s.tb.openInstant := by rw [baseTb]
  have pending : s.frameAtClose.tb.lockPending = s.tb.lockPending := by rw [baseTb]
  have work : (u.ownCounted s.sampleNow).work = u.work := by rw [own]
  have settings : s.frameAtClose.work = s.work := by rw [base]
  have same : nextFramesSample s s.now = s.sampleNow := rfl
  have meter (k : OutletIx) : u.meter[k] = MeterOutlet.opened u.work.outlets[k].branch
      (s.frameAtClose.frameOutlet (s.now - s.tb.openInstant) k).2.1
      (s.frameAtClose.frameOutlet (s.now - s.tb.openInstant) k).2.2 := by
    rw [step.meter k, ← step.work, ← now, ← openInstant]
    rfl
  have meterV (p : Phase) : u.meterV[p] = MeterPhase.opened := by
    rw [step.meterV, Fin.getElem_fin, Vector.getElem_replicate]
  exact
    { inputs := by
        rw [own]
        refine ⟨⟨step.pending.trans ?_, step.resetting.trans ?_, step.mask.trans ?_, step.sdo.trans ?_⟩,
          step.sense.trans ?_, step.fifo.trans ?_⟩ <;> (simp only [State.chosen]; rw [base])
      now := by
        rw [own]
        exact step.now.trans now
      tb := by
        rw [ownCounted_tb opened begun, work, same]
        rw [step.tb, ← step.work]
        simp only [State.chosen, phases, now, pending]
      phases := fun p => by
        rw [own]
        exact (step.phases p).trans (by simp only [State.chosen, phases])
      meter := fun k => by
        rw [ownCounted_meter, work, meter k]
      empty := fun none => by
        rw [same] at none
        rw [none]
        exact ⟨meterV, fun k => by simp only [State.ownCounted, meter k, MeterOutlet.opened, and_self]⟩
      own := fun l some => by
        rw [same] at some
        rw [some]
        refine ⟨fun p => accumulate_opened p (meterV p), fun k => ?_⟩
        show (u.accumulate l.codes).meter[k].sii = _ ∧ (u.accumulate l.codes).meter[k].svi = _ ∧
          (u.accumulate l.codes).meter[k].clip = _
        rw [accumulate_meter]
        simp only [meter k, MeterOutlet.opened, Nat.zero_add, Bool.false_or, Int.zero_add]
        exact ⟨rfl, rfl, trivial⟩
      waiting := by
        rw [own]
        exact step.waiting.trans (by simp only [State.chosen, pub])
      closedSeq := by
        rw [own]
        exact step.closedSeq.trans (by simp only [State.chosen, pub])
      sequence := step.sequence.trans (by simp only [State.chosen, pub])
      length := step.length.trans (by simp only [State.chosen, now, openInstant])
      samples := step.samples.trans (by simp only [State.chosen]; rw [baseTb])
      frequency := step.frequency
      frameState := step.frameState.trans (by simp only [State.chosen]; rw [baseTb])
      short := step.short
      phase := fun p => by
        refine (step.phase p).trans ?_
        have vrms : s.frameAtClose.chosen.frameVrms p = s.frameAtClose.frameVrms p := rfl
        simp only [State.framePresent, vrms, frameVrms_atClose]
        simp only [State.chosen, phases, settings, frameAtClose_meterV]
      outlet := fun k => by
        obtain ⟨v, shown⟩ := step.outlet k
        rw [shown, ← now, ← openInstant]
        rfl }

/-- The end of the event leaves the close as it is. -/
theorem FrameClosed.eventEnd {s u : State} {state : TimebaseState} {short : Bool} {cycleCount : Nat} {f : FrameResult}
    (h : FrameClosed s u state short cycleCount f) (old : State) : FrameClosed s (u.eventEnd old) state short cycleCount f := by
  rw [eventEnd_fields]
  exact ⟨h.inputs, h.now, h.tb, h.phases, h.meter, h.empty, h.own, h.waiting, h.closedSeq, h.sequence, h.length, h.samples,
    h.frequency, h.frameState, h.short, h.phase, h.outlet⟩

end Sys2Proof.Machine
end

section
/-! PROOF. Accepted crossings and the commands that close a frame (R5 to R12). -/
namespace Sys2Proof.Machine

open Sys2Proof.Safety

/-! ### The screen and the record of a crossing (R5, R6) -/

theorem accepts_iff (x : PhaseStatus) (now : Nat) (pol : Polarity) : x.accepts now pol = true ↔ accepted x now pol := by
  unfold PhaseStatus.accepts accepted
  cases x.last with
  | none => exact iff_of_true rfl fun t0 p0 h => nomatch h
  | some last =>
    obtain ⟨t, q⟩ := last
    simp only [Bool.and_eq_true, bne_iff_ne, decide_eq_true_eq, Option.some.injEq, Prod.mk.injEq]
    exact ⟨fun h t0 p0 e => e.1 ▸ e.2 ▸ h, fun h => h t q ⟨rfl, rfl⟩⟩

theorem nextRun_eq (x : PhaseStatus) (now : Nat) : x.nextRun now = runAfter x now := rfl

theorem accept_live {x : PhaseStatus} (h : x.live = true) (now : Nat) (pol : Polarity) : x.accept now pol =
    { x.record now pol with deadline := (x.record now pol).deadlineFrom now } := if_pos h

theorem accept_becomesLive {x : PhaseStatus} {now : Nat} (h : becomesLive x now) (pol : Polarity) : x.accept now pol =
    { x.record now pol with run := 16, live := true, deadline := (x.record now pol).deadlineFrom now } := by
  unfold PhaseStatus.accept
  dsimp only
  rw [if_neg (Bool.eq_false_iff.mp h.1), if_pos ((nextRun_eq x now).trans h.2)]

theorem accept_dead {x : PhaseStatus} {now : Nat} (dead : x.live = false) (h : ¬becomesLive x now) (pol : Polarity) :
    x.accept now pol = { x.record now pol with run := runAfter x now } := by
  unfold PhaseStatus.accept
  dsimp only
  rw [if_neg (Bool.eq_false_iff.mp dead), if_neg fun run => h ⟨dead, (nextRun_eq x now).symm.trans run⟩]
  rfl

/-- What every accepted crossing records, whatever becomes of the run. -/
theorem accept_record (x : PhaseStatus) (now : Nat) (pol : Polarity) : x.accept now pol = { x.record now pol with
    run := (x.accept now pol).run, live := (x.accept now pol).live, deadline := (x.accept now pol).deadline } := by
  unfold PhaseStatus.accept
  dsimp only
  split_ifs <;> rfl

theorem accept_live_iff (x : PhaseStatus) (now : Nat) (pol : Polarity) :
    (x.accept now pol).live = (x.live || decide (runAfter x now = 16)) := by
  by_cases live : x.live = true
  · rw [accept_live live, live]
    exact live
  · rw [Bool.not_eq_true] at live
    rw [live, Bool.false_or]
    by_cases h : runAfter x now = 16
    · rw [accept_becomesLive ⟨live, h⟩, decide_eq_true h]
    · rw [accept_dead live fun b => h b.2, decide_eq_false h]
      exact live

/-! ### What an accepted crossing leaves beside its phase -/

/-- The crossing recorded on its phase. -/
def State.phaseRecorded (s : State) (p : Phase) (pol : Polarity) : State :=
  { s with phases := upd s.phases p fun x => x.accept s.now pol }

theorem phaseRecorded_at (s : State) (p : Phase) (pol : Polarity) : (s.phaseRecorded p pol).phases[p] = s.phases[p].accept s.now pol :=
  upd_same _ _ _

theorem phaseRecorded_other (s : State) {p q : Phase} (h : q ≠ p) (pol : Polarity) : (s.phaseRecorded p pol).phases[q] = s.phases[q] :=
  upd_other _ _ h

/-- The crossing recorded, with PHASE_LIVE and the lock that it makes pending. -/
def State.crossed (s : State) (p : Phase) (pol : Polarity) : State :=
  if !s.phases[p].live && (s.phaseRecorded p pol).phases[p].live then (s.phaseRecorded p pol).phaseLive p else s.phaseRecorded p pol

theorem crossing_accepted {s : State} {p : Phase} {pol : Polarity} (h : accepted s.phases[p] s.now pol) :
    s.crossing p pol = if p = 0 ∧ pol = .rising then (s.crossed p pol).risingL1 else s.crossed p pol :=
  if_pos ((accepts_iff _ _ _).mpr h)

theorem crossing_refused {s : State} {p : Phase} {pol : Polarity} (h : ¬accepted s.phases[p] s.now pol) :
    s.crossing p pol = s := if_neg fun g => h ((accepts_iff _ _ _).mp g)

theorem becomesLive_iff (s : State) (p : Phase) (pol : Polarity) :
    (!s.phases[p].live && (s.phaseRecorded p pol).phases[p].live) = true ↔ becomesLive s.phases[p] s.now := by
  rw [phaseRecorded_at, accept_live_iff, Bool.and_eq_true, Bool.not_eq_true']
  refine and_congr_right fun dead => ?_
  rw [dead, Bool.false_or, decide_eq_true_eq]

theorem crossed_quiet {s : State} {p : Phase} (h : ¬becomesLive s.phases[p] s.now) (pol : Polarity) :
    s.crossed p pol = s.phaseRecorded p pol := if_neg fun g => h ((becomesLive_iff s p pol).mp g)

theorem crossed_live {s : State} {p : Phase} (h : becomesLive s.phases[p] s.now) (pol : Polarity) :
    s.crossed p pol = (s.phaseRecorded p pol).phaseLive p := if_pos ((becomesLive_iff s p pol).mpr h)

/-- R6: the notice of a phase that becomes LIVE. -/
def State.liveNotice (s : State) (p : Phase) : State :=
  s.notice .phaseLive (numberOf p) 0 (BitVec.ofNat 32 (s.phases[p].half.getD 0))

theorem liveNotice_same (s : State) (p : Phase) :
    s.liveNotice p = { s with mem := (s.liveNotice p).mem, cause := (s.liveNotice p).cause } := notice_same _ _ _ _ _

theorem phaseLive_eq (s : State) (p : Phase) : s.phaseLive p = { s with
    tb := if p = 0 ∧ s.tb.state = .freeRun then { s.tb with lockPending := true } else s.tb
    mem := (s.liveNotice p).mem, cause := (s.liveNotice p).cause } := by
  have same := liveNotice_same s p
  have tb : (s.liveNotice p).tb = s.tb := by rw [same]
  unfold State.phaseLive
  dsimp only
  rw [← State.liveNotice, tb]
  split_ifs
  · rw [same]
  · rw [same]

/-- R12: a crossing of L1 that makes it live in FREE_RUN makes a lock pending. -/
theorem crossed_tb (s : State) (p : Phase) (pol : Polarity) : (s.crossed p pol).tb =
    if p = 0 ∧ becomesLive s.phases[p] s.now ∧ s.tb.state = .freeRun then { s.tb with lockPending := true } else s.tb := by
  by_cases h : becomesLive s.phases[p] s.now
  · rw [crossed_live h, phaseLive_eq]
    exact (if_congr (and_congr_right fun _ => and_iff_right h) rfl rfl).symm
  · rw [crossed_quiet h, if_neg fun g => h g.2.1]
    rfl

theorem crossed_same (s : State) (p : Phase) (pol : Polarity) : s.crossed p pol = { s with
    phases := (s.phaseRecorded p pol).phases, tb := (s.crossed p pol).tb, mem := (s.crossed p pol).mem
    cause := (s.crossed p pol).cause } := by
  by_cases h : becomesLive s.phases[p] s.now
  · rw [crossed_live h, phaseLive_eq]
    rfl
  · rw [crossed_quiet h]
    rfl

theorem crossed_memory (s : State) (p : Phase) (pol : Polarity) : MemStep noticeBytes s.mem (s.crossed p pol).mem := by
  by_cases h : becomesLive s.phases[p] s.now
  · rw [crossed_live h, phaseLive_eq]
    exact memStep_notice_noticeBytes (s.phaseRecorded p pol) _ _ _ _
  · rw [crossed_quiet h]
    exact .refl _ _

theorem crossed_takesLock (s : State) (pol : Polarity) : (s.crossed 0 pol).tb.lockPending = true ↔ takesLock s s.now := by
  rw [crossed_tb]
  unfold takesLock
  split_ifs with h
  · exact iff_of_true rfl (.inr ⟨h.2.1, h.2.2⟩)
  · exact ⟨.inl, fun g => g.resolve_right fun g => h ⟨rfl, g⟩⟩

theorem crossed_tb_lock (s : State) (p : Phase) (pol : Polarity) :
    (s.crossed p pol).tb = { s.tb with lockPending := (s.crossed p pol).tb.lockPending } := by
  rw [crossed_tb]
  split_ifs <;> rfl

/-! ### The commands that close a frame (R8) -/

/-- The state at which a command begins a close: its crossing recorded, or its phase dead, with the notices of that. -/
structure Closing (s a : State) (now : Nat) : Prop where
  same : a = { s with
    now := now, phases := a.phases, tb := { s.tb with lockPending := a.tb.lockPending }, mem := a.mem, cause := a.cause }
  mem : MemStep noticeBytes s.mem a.mem

theorem advance_closing (s : State) (t : Nat) : Closing s (s.advance t) (max s.now t) := ⟨rfl, .refl _ _⟩

theorem crossed_closing (s : State) (t : Nat) (p : Phase) (pol : Polarity) :
    Closing s ((s.advance t).crossed p pol) (max s.now t) := by
  refine ⟨?_, crossed_memory (s.advance t) p pol⟩
  have tb := crossed_tb_lock (s.advance t) p pol
  generalize lock : ((s.advance t).crossed p pol).tb.lockPending = l at tb ⊢
  rw [crossed_same, tb]
  rfl

/-- R12: the lock is taken. -/
def State.unlocking (s : State) : State := { s with tb := { s.tb with lockPending := false } }

theorem Closing.unlocking {s a : State} {now : Nat} (h : Closing s a now) : Closing s a.unlocking now := by
  refine ⟨?_, h.mem⟩
  have same := h.same
  have tb : a.tb = { s.tb with lockPending := a.tb.lockPending } := by rw [same]
  unfold State.unlocking
  rw [same]

/-- R7: the phase is dead, with the notice of that. -/
def State.died (s : State) (p : Phase) : State :=
  { s with phases := upd s.phases p PhaseStatus.die }.notice .phaseDead (numberOf p) 0
    (BitVec.ofNat 32 (s.phases[p].half.getD 0))

theorem died_same (s : State) (p : Phase) : s.died p = { s with
    phases := upd s.phases p PhaseStatus.die, mem := (s.died p).mem, cause := (s.died p).cause } := by
  rw [State.died, notice_same]

theorem died_closing (s : State) (t : Nat) (p : Phase) : Closing s ((s.advance t).died p) (max s.now t) := by
  refine ⟨?_, memStep_notice_noticeBytes { s.advance t with phases := upd s.phases p PhaseStatus.die } _ _ _ _⟩
  rw [died_same]
  rfl

theorem expired_iff (x : PhaseStatus) (now : Nat) :
    x.expired now = true ↔ x.live = true ∧ ∃ d ≤ now, x.deadline = some d := by
  unfold PhaseStatus.expired
  cases x.deadline with
  | none => simp
  | some d => simp

theorem exec_frameClose_end {s : State} (running : s.resetting = none) (t : Nat) :
    exec (.frameClose t) s = .next ((s.advance t).closeIfRun.eventEnd (s.advance t)) :=
  congrArg Host.Outcome.next (event_end running t _)

theorem exec_zeroCrossing_end {s : State} (running : s.resetting = none) (t : Nat) (p : Phase) (pol : Polarity) :
    exec (.zeroCrossing t p pol) s = .next (((s.advance t).crossing p pol).eventEnd (s.advance t)) :=
  congrArg Host.Outcome.next (event_end running t _)

theorem exec_phaseDead_end {s : State} (running : s.resetting = none) (t : Nat) (p : Phase) :
    exec (.phaseDead t p) s = .next (((s.advance t).phaseDies p).eventEnd (s.advance t)) :=
  congrArg Host.Outcome.next (event_end running t _)

theorem closeIfRun_closes {s : State} (h : s.tb.frameState = .freeRun ∧ s.tb.openInstant + 1000000 ≤ s.now) :
    s.closeIfRun = s.closeFrame false 0 .freeRun none := if_pos h

theorem phaseDies_due {s : State} {p : Phase} (live : s.phases[p].live = true) (due : ∃ d ≤ s.now, s.phases[p].deadline = some d) :
    s.phaseDies p = if p = 0 then (s.died p).l1Dead else s.died p := if_pos ((expired_iff _ _).mpr ⟨live, due⟩)

theorem l1Dead_locked {s : State} (h : s.tb.state = .locked) :
    s.l1Dead = s.closeFrame true 0 .freeRun (Option.some .timebaseFree) := by
  rw [State.l1Dead, h]

/-- R12: a lock taken after the open instant closes the frame. -/
theorem risingL1_lock {s : State} (pending : s.tb.lockPending = true) (apart : s.now ≠ s.tb.openInstant) :
    s.risingL1 = s.unlocking.closeFrame (decide (s.now < s.tb.openInstant + 1000000)) 0 .locked (Option.some NoticeKind.timebaseLocked) := by
  rw [State.risingL1, if_pos pending, State.takeLock, if_neg apart]
  rfl

/-- R10: the last cycle of a LOCKED frame closes it. -/
theorem risingL1_last {s : State} (pending : s.tb.lockPending = false) (locked : s.tb.frameState = .locked)
    (after : s.tb.openInstant < s.now) (last : s.tb.cycles + 1 = s.tb.cycleSetting) :
    s.risingL1 = s.closeFrame false s.tb.cycleSetting .locked none := by
  rw [State.risingL1, if_neg (Bool.eq_false_iff.mp pending), locked]
  dsimp only
  rw [if_pos after, State.endL1Cycle]
  dsimp only
  rw [if_pos last, last]

/-- R8: every command that closes a frame does so once, from a state in which its own work is recorded. -/
theorem command_closes {s : State} {now : Nat} {i : Instr} (running : s.resetting = none) (closing : closesFrame s now i) :
    ∃ (a : State) (short : Bool) (cycleCount : Nat) (state : TimebaseState) (note : Option NoticeKind) (t : Nat),
      exec i s = .next ((a.closeFrame short cycleCount state note).eventEnd (s.advance t)) ∧ Closing s a now := by
  cases i with
  | frameClose t =>
    obtain ⟨rfl, due⟩ := closing
    refine ⟨s.advance t, false, 0, .freeRun, none, t, ?_, advance_closing s t⟩
    rw [exec_frameClose_end running, closeIfRun_closes due]
  | phaseDead t p =>
    obtain ⟨rfl, rfl, live, due, locked⟩ := closing
    refine ⟨(s.advance t).died 0, true, 0, .freeRun, Option.some .timebaseFree, t, ?_, died_closing s t 0⟩
    have state : ((s.advance t).died 0).tb.state = .locked := by
      rw [died_same]
      exact locked
    rw [exec_phaseDead_end running, phaseDies_due (s := s.advance t) live due, if_pos rfl, l1Dead_locked state]
  | zeroCrossing t p pol =>
    obtain ⟨rfl, rfl, rfl, screened, after, reason⟩ := closing
    have crossed := crossed_closing s t 0 .rising
    have at_crossing : ((s.advance t).crossing 0 .rising) = ((s.advance t).crossed 0 .rising).risingL1 :=
      (crossing_accepted (s := s.advance t) screened).trans (if_pos ⟨rfl, rfl⟩)
    have now : ((s.advance t).crossed 0 .rising).now = max s.now t := by rw [crossed.same]
    have tb : ((s.advance t).crossed 0 .rising).tb =
      { s.tb with lockPending := ((s.advance t).crossed 0 .rising).tb.lockPending } := by rw [crossed.same]
    rw [exec_zeroCrossing_end running, at_crossing]
    have lock := crossed_takesLock (s.advance t) .rising
    cases pending : ((s.advance t).crossed 0 .rising).tb.lockPending with
    | true =>
      refine ⟨((s.advance t).crossed 0 .rising).unlocking, decide (((s.advance t).crossed 0 .rising).now <
        ((s.advance t).crossed 0 .rising).tb.openInstant + 1000000), 0, .locked, Option.some .timebaseLocked, t, ?_, crossed.unlocking⟩
      rw [risingL1_lock pending (by rw [now, tb]; exact Nat.ne_of_gt after)]
    | false =>
      have unlocked : ¬takesLock s (max s.now t) := fun g => by
        rw [lock.mpr g] at pending
        cases pending
      obtain ⟨locked, last⟩ := reason.resolve_left unlocked
      refine ⟨_, false, ((s.advance t).crossed 0 .rising).tb.cycleSetting, .locked, none, t, ?_, crossed⟩
      rw [risingL1_last pending (by rw [tb]; exact locked) (by rw [now, tb]; exact after) (by rw [tb]; exact last)]
  | _ => exact closing.elim

end Sys2Proof.Machine
end

section
/-! PROOF. What every close does to meters, settings and windows (R20, R31 to R34, R189), and the first sample of the frame
that opens (R1). -/
namespace Sys2Proof.Machine

open Sys2Proof.Safety

/-! ### The closing frame is that of the state before the command -/

section
variable {s a : State} {now : Nat} (h : Closing s a now)
include h

theorem Closing.now_eq : a.now = now := by rw [h.same]

theorem Closing.sample : nextFramesSample a a.now = nextFramesSample s now := by
  rw [h.now_eq, nextFramesSample, h.same]
  rfl

theorem Closing.samples : samplesAtClose a a.now = samplesAtClose s now := by
  have count : a.tb.sampleCount = s.tb.sampleCount := by rw [h.same]
  rw [samplesAtClose, samplesAtClose, h.sample, count]

theorem Closing.window (k : OutletIx) : windowAtClose a a.now k = windowAtClose s now k := by
  have meter : a.meter = s.meter := by rw [h.same]
  rw [windowAtClose, windowAtClose, h.sample, meter]

theorem Closing.phase (p : Phase) : phaseAtClose a a.now p = phaseAtClose s now p := by
  have meterV : a.meterV = s.meterV := by rw [h.same]
  rw [phaseAtClose, phaseAtClose, h.sample, meterV]

theorem Closing.settings : SettingsKept s a.frameAtClose.chosen := by
  have base := frameAtClose_same a
  have outlets : a.frameAtClose.outlets = a.outlets := by rw [base]
  have watches : a.frameAtClose.watches = a.watches := by rw [base]
  have work : a.frameAtClose.work = a.work := by rw [base]
  have mem : a.frameAtClose.mem = a.mem := by rw [base]
  refine ⟨work.trans ?_, outlets.trans ?_, watches.trans ?_, ?_⟩
  · rw [h.same]
  · rw [h.same]
  · rw [h.same]
  · exact mem ▸ h.mem

end

/-! ### A command's close as a whole -/

/-- The command answers `u`, and `f` is the frame that it closes: from `a`, by the close that leaves `c`. -/
structure CommandClosed (s : State) (now : Nat) (a c u : State) (state : TimebaseState) (note : Option NoticeKind)
    (short : Bool) (cycleCount : Nat) (f : FrameResult) : Prop where
  closing : Closing s a now
  whole : ClosedWhole a.frameAtClose c state note short cycleCount f
  after : ∃ old, u = (c.ownCounted a.sampleNow).eventEnd old

theorem closeFrame_closed {s a : State} {now : Nat} (closing : Closing s a now) (short : Bool) (cycleCount : Nat)
    (state : TimebaseState) (note : Option NoticeKind) (old : State) : ∃ c f,
    CommandClosed s now a c ((a.closeFrame short cycleCount state note).eventEnd old) state note short cycleCount f := by
  obtain ⟨f, whole⟩ := closeCounted_whole a.frameAtClose short cycleCount state note
  exact ⟨_, f, closing, whole, old, by rw [closeFrame_eq]⟩

theorem command_closed {s : State} {now : Nat} {i : Instr} (running : s.resetting = none) (closing : closesFrame s now i) :
    ∃ a c u state note short cycleCount f, exec i s = .next u ∧ CommandClosed s now a c u state note short cycleCount f := by
  obtain ⟨a, short, cycleCount, state, note, t, run, begun⟩ := command_closes running closing
  obtain ⟨c, f, closed⟩ := closeFrame_closed begun short cycleCount state note (s.advance t)
  exact ⟨a, c, _, state, note, short, cycleCount, f, run, closed⟩

section
variable {s a c u : State} {now : Nat} {state : TimebaseState} {note : Option NoticeKind} {short : Bool} {cycleCount : Nat}
  {f : FrameResult} (h : CommandClosed s now a c u state note short cycleCount f)
include h

theorem CommandClosed.frame : FrameClosed a u state short cycleCount f := by
  obtain ⟨old, rfl⟩ := h.after
  exact (FrameClosed.of_whole h.whole).eventEnd old

/-- The close has made its last scan: the end of the event writes records alone. -/
theorem CommandClosed.last : u = { c with
    meter := u.meter, meterV := u.meterV, tb := u.tb, mem := u.mem } ∧ MemStep guardedBytes c.mem u.mem := by
  obtain ⟨old, rfl⟩ := h.after
  have own := ownCounted_same c a.sampleNow
  have mem : (c.ownCounted a.sampleNow).mem = c.mem := by rw [own]
  have due : (c.ownCounted a.sampleNow).scanDue = false := by
    rw [own]
    exact h.whole.scanDue
  refine ⟨?_, mem ▸ eventEnd_memory _ old⟩
  rw [eventEnd_plain due]
  generalize c.ownCounted a.sampleNow = v at own ⊢
  generalize (v.eventEnd old).mem = m
  rw [own]

/-- R189: the settings in force after the close. -/
theorem CommandClosed.work : u.work = s.takeIfAllowed.work := by
  rw [h.last.1]
  exact h.whole.step.work.trans (openedAfter_settings h.closing.settings state note).1

theorem CommandClosed.waiting : u.pub.waiting = s.pub.waiting ++ [f] :=
  h.frame.waiting.trans (by rw [h.closing.same])

/-- R36: the measured loads are those of the closed frame's branch records. -/
theorem CommandClosed.measured (b : Branch) : u.loads[b].measured = f.branches[b].measured := by
  obtain ⟨-, x, loads, -, control, -, -, branches⟩ := h.whole.done
  have same : u.loads = c.loads := by rw [h.last.1]
  rw [same, branches b, control.2.2.2.2.1]

end

/-! ### The energy of a frame (R31 to R33) -/

/-- The energy and the residue that an outlet's counter takes from a frame, and what its record shows of them. -/
theorem meterOutlet_energy (m : MeterOutlet) (gv gi creep n tUs vrms : Nat) (present : Bool) :
    let r := meterOutlet m gv gi creep n tUs vrms present
    let inc := if 0 < r.1.p then r.1.p.toNat * tUs / 1000 else 0
    let e0 := if m.clearReq then 0 else m.energy
    let r0 := if m.clearReq then 0 else m.residue
    r.2.1 = min (2 ^ 48 - 1) (e0 + (r0 + inc) / 1000000) ∧ r.2.2 = (r0 + inc) % 1000000 ∧ r.1.energy = r.2.1 ∧
      r.1.saturated = decide (r.2.1 = 2 ^ 48 - 1) := by
  cases clear : m.clearReq <;>
    simp only [meterOutlet, clear, addEnergy, energyIncrement, energyLimit, Bool.false_eq_true, if_false, if_true] <;>
    exact ⟨trivial, trivial, trivial, rfl⟩

/-- Settles O15: the meter's part of a close, from what the close as a whole leaves. -/
theorem closeUpdatesEnergy : Obligations.CloseUpdatesEnergy := by
  unfold Obligations.CloseUpdatesEnergy
  intro s now i running closing
  obtain ⟨a, c, u, state, note, short, cycleCount, f, run, h⟩ := command_closed running closing
  have frame := h.frame
  have openInstant : a.tb.openInstant = s.tb.openInstant := by rw [h.closing.same]
  have length : f.tUs = now - s.tb.openInstant := by rw [frame.length, h.closing.now_eq, openInstant]
  refine ⟨u, f, run, h.waiting, ?_, length, ?_, ?_, ?_, fun p => ?_, h.measured, fun k => ?_, fun none => ?_⟩
  · rw [frame.tb]
    exact h.closing.now_eq
  · rw [frame.samples, h.closing.samples]
  · rw [h.work, takeIfAllowed_work]
  · rw [frame.tb]
  · rw [frame.phases]
  · have meter := frame.meter k
    have outlet := frame.outlet k
    rw [← frame.length] at meter outlet
    have found := frameAtClose_meter a k
    have before : a.meter = s.meter := by rw [h.closing.same]
    have clearReq : a.frameAtClose.meter[k].clearReq = s.meter[k].clearReq := by rw [found, before]
    have energy : a.frameAtClose.meter[k].energy = s.meter[k].energy := by rw [found, before]
    have residue : a.frameAtClose.meter[k].residue = s.meter[k].residue := by rw [found, before]
    obtain ⟨counted, rest, shown, full⟩ := meterOutlet_energy a.frameAtClose.meter[k]
      a.frameAtClose.work.phases[a.frameAtClose.meter[k].pairing].voltageGain a.frameAtClose.work.outlets[k].currentGain
      a.frameAtClose.work.strip.creepLevel a.frameAtClose.tb.sampleCount f.tUs
      (a.frameAtClose.frameVrms a.frameAtClose.meter[k].pairing) (a.frameAtClose.framePresent a.frameAtClose.meter[k].pairing)
    rw [clearReq, energy, residue] at counted
    rw [clearReq, residue] at rest
    have power : f.outlets[k].p = (a.frameAtClose.frameOutlet f.tUs k).1.p := by rw [outlet]
    have total : u.meter[k].energy = (a.frameAtClose.frameOutlet f.tUs k).2.1 := by rw [meter]; rfl
    refine ⟨?_, ?_, ?_, ?_, ?_, ?_⟩
    · rw [total, power]
      exact counted
    · rw [power, meter]
      exact rest
    · rw [total, outlet]
      exact shown
    · rw [total, outlet]
      exact full
    · rw [meter]
      rfl
    · rw [meter]
      rfl
  · have own : nextFramesSample a a.now = Option.none := h.closing.sample.trans none
    refine ⟨?_, frame.empty own⟩
    rw [frame.tb, own]
    rfl

/-- Settles O8: the sample of a close leaves the frame that closes, and opens the next. -/
theorem sampleAtCloseOpensNext : Obligations.SampleAtCloseOpensNext := by
  unfold Obligations.SampleAtCloseOpensNext
  intro s now i l running closing latest taken
  obtain ⟨a, c, u, state, note, short, cycleCount, f, run, h⟩ := command_closed running closing
  have frame := h.frame
  have own : nextFramesSample s now = some l := by
    simp only [nextFramesSample, latest, Option.filter, taken, beq_self_eq_true, if_true]
  have owned := h.closing.sample.trans own
  obtain ⟨phases, outlets⟩ := frame.own l owned
  refine ⟨u, f, run, h.waiting, ?_, fun p => ?_, fun k => ?_, ?_, ?_, ?_, ?_, phases, fun k => ?_⟩
  · rw [frame.samples, h.closing.samples, samplesAtClose, own]
  · rw [frame.phase, h.closing.phase, phaseAtClose, own]
  · have window := h.closing.window k
    have found := frameAtClose_meter a k
    rw [window, windowAtClose, own] at found
    rw [frame.outlet]
    show a.frameAtClose.meter[k].clip = _
    rw [found]
  · rw [frame.tb]
    exact h.closing.now_eq
  · rw [frame.tb]
  · rw [frame.tb, owned]
    rfl
  · rw [frame.tb, owned]
    rfl
  · obtain ⟨current, power, clip⟩ := outlets k
    refine ⟨current, ?_, power, clip⟩
    rw [frame.meter]
    rfl

/-- R9: before its time, or in a LOCKED frame, FRAME_CLOSE does nothing. -/
theorem closeIfRun_waits {s : State} (h : s.tb.frameState = .locked ∨ s.now < s.tb.openInstant + 1000000) : s.closeIfRun = s := by
  refine if_neg fun ⟨free, due⟩ => ?_
  rcases h with locked | early
  · rw [locked] at free
    cases free
  · exact absurd due (Nat.not_le.mpr early)

/-- Settles O14: the normal close of a FREE_RUN frame. -/
theorem freeRunFrameCloses : Obligations.FreeRunFrameCloses := by
  unfold Obligations.FreeRunFrameCloses
  intro s t running
  refine ⟨fun due => ?_, fun quiet early => ?_⟩
  · obtain ⟨c, f, h⟩ := closeFrame_closed (advance_closing s t) false 0 .freeRun none (s.advance t)
    have frame := h.frame
    generalize result : ((s.advance t).closeFrame false 0 .freeRun none).eventEnd (s.advance t) = u at h frame
    refine ⟨u, f, ?_, h.waiting, frame.sequence, frame.closedSeq.trans frame.sequence.symm, frame.length, ?_, frame.short,
      frame.frequency, frame.frameState.trans due.1, ?_, ?_, ?_, ?_, ?_, ?_, ?_, frame.inputs, frame.phases⟩
    · rw [exec_frameClose_end running, closeIfRun_closes due, result]
    · exact frame.samples.trans h.closing.samples
    all_goals rw [frame.tb] <;> rfl
  · rw [exec_frameClose_end running, closeIfRun_waits (s := s.advance t) early, eventEnd_id (s := s.advance t) quiet]
    rfl

end Sys2Proof.Machine
end

section
/-! PROOF. Crossings that close no frame, and the cycles of a LOCKED frame (R3, R5, R6, R10). -/
namespace Sys2Proof.Machine

open Sys2Proof.Safety

/-! ### The record of a crossing in its fields (R5, R6) -/

theorem record_half (x : PhaseStatus) (now : Nat) (pol : Polarity) :
    (∀ t0 p0, x.last = some (t0, p0) → (x.record now pol).half = some (max 7700 (min 11100 (now - t0)))) ∧
      (x.last = none → (x.record now pol).half = x.half) := by
  refine ⟨fun t0 p0 last => ?_, fun last => ?_⟩
  · simp only [PhaseStatus.record, last, halfMin, halfMax, clampNat_fst (show 7700 ≤ 11100 by decide)]
  · simp only [PhaseStatus.record, last]

theorem record_rising (x : PhaseStatus) (now : Nat) : (x.record now .rising).lastRising = some now ∧
    (∀ r, x.lastRising = some r → (x.record now .rising).cyclePeriod = some (now - r)) ∧
    (x.lastRising = none → (x.record now .rising).cyclePeriod = x.cyclePeriod) := by
  refine ⟨rfl, fun r last => ?_, fun last => ?_⟩ <;> simp only [PhaseStatus.record, last]

theorem accept_run (x : PhaseStatus) (now : Nat) (pol : Polarity) :
    (x.live = true → (x.accept now pol).live = true ∧ (x.accept now pol).run = x.run) ∧
      (x.live = false → (x.accept now pol).run = runAfter x now ∧
        (x.accept now pol).live = decide (runAfter x now = 16)) := by
  refine ⟨fun live => ?_, fun dead => ⟨?_, ?_⟩⟩
  · rw [accept_live live]
    exact ⟨live, rfl⟩
  · by_cases h : becomesLive x now
    · rw [accept_becomesLive h]
      exact h.2.symm
    · rw [accept_dead dead h]
  · rw [accept_live_iff, dead, Bool.false_or]

theorem accept_deadline (x : PhaseStatus) (now : Nat) (pol : Polarity) :
    ((x.accept now pol).live = true → ∀ h, (x.accept now pol).half = some h →
      (x.accept now pol).deadline = some (now + 3 * h)) ∧
      ((x.accept now pol).live = false → (x.accept now pol).deadline = x.deadline) := by
  have from_half (h : Nat) (half : (x.record now pol).half = some h) : (x.record now pol).deadlineFrom now = some (now + 3 * h) := by
    rw [PhaseStatus.deadlineFrom, half]
    rfl
  by_cases live : x.live = true
  · rw [accept_live live]
    exact ⟨fun _ => from_half, fun dead => absurd (live.symm.trans dead) (by decide)⟩
  · rw [Bool.not_eq_true] at live
    by_cases becomes : becomesLive x now
    · rw [accept_becomesLive becomes]
      exact ⟨fun _ => from_half, fun dead => nomatch dead⟩
    · rw [accept_dead live becomes]
      exact ⟨fun now_live => absurd (live.symm.trans now_live) (by decide), fun _ => rfl⟩

/-! ### What a rising crossing of L1 leaves of the phases -/

/-- Every close is the close of one frame. -/
theorem closeFrame_frame (s : State) (short : Bool) (cycleCount : Nat) (state : TimebaseState) (note : Option NoticeKind) :
    ∃ f, FrameClosed s (s.closeFrame short cycleCount state note) state short cycleCount f := by
  obtain ⟨f, whole⟩ := closeCounted_whole s.frameAtClose short cycleCount state note
  exact ⟨f, closeFrame_eq s short cycleCount state note ▸ FrameClosed.of_whole whole⟩

/-- Of the phases, `u` changes PRESENT alone. -/
def phasesKept (s u : State) : Prop := ∀ q : Phase, u.phases[q] = { s.phases[q] with present := u.phases[q].present }

theorem phasesKept_of_same {s u : State} (h : u.phases = s.phases) : phasesKept s u := fun q => by rw [h]

theorem closeFrame_phases (s : State) (short : Bool) (cycleCount : Nat) (state : TimebaseState) (note : Option NoticeKind) :
    phasesKept s (s.closeFrame short cycleCount state note) := fun q => by
  obtain ⟨f, closed⟩ := closeFrame_frame s short cycleCount state note
  rw [closed.phases q]

theorem lockAtOpen_same (s : State) : s.lockAtOpen = { s with
    tb := s.lockAtOpen.tb, mem := s.lockAtOpen.mem, cause := s.lockAtOpen.cause } := by
  unfold State.lockAtOpen
  rw [notice_same]

/-- The next L1 cycle of a LOCKED frame begins. -/
def State.nextCycle (s : State) : State :=
  { s with tb := { s.tb with
      cycles := s.tb.cycles + 1, cycleStart := s.now, cycleP := s.phases[(0 : Phase)].cyclePeriod.getD 0, cycleTaken := 0 } }

/-- R10, R3: a cycle that is not the last of its frame. -/
theorem risingL1_cycle {s : State} (pending : s.tb.lockPending = false) (locked : s.tb.frameState = .locked)
    (after : s.tb.openInstant < s.now) (more : s.tb.cycles + 1 ≠ s.tb.cycleSetting) :
    s.risingL1 = s.frameAtClose.nextCycle.ownCounted s.sampleNow := by
  have cycles : s.frameAtClose.tb.cycles = s.tb.cycles := by rw [frameAtClose_tb]
  rw [State.risingL1, if_neg (Bool.eq_false_iff.mp pending), locked]
  dsimp only
  rw [if_pos after, State.endL1Cycle]
  dsimp only
  rw [if_neg more, State.nextCycle, cycles]
  unfold State.withOwnSample State.ownCounted State.frameAtClose
  cases s.sampleNow <;> rfl

theorem cycle_same (s : State) : s.frameAtClose.nextCycle.ownCounted s.sampleNow = { s with
    meter := (s.frameAtClose.nextCycle.ownCounted s.sampleNow).meter
    meterV := (s.frameAtClose.nextCycle.ownCounted s.sampleNow).meterV
    tb := (s.frameAtClose.nextCycle.ownCounted s.sampleNow).tb } := by
  have own := ownCounted_same s.frameAtClose.nextCycle s.sampleNow
  generalize s.frameAtClose.nextCycle.ownCounted s.sampleNow = v at own ⊢
  rw [own, State.nextCycle, frameAtClose_same]

theorem risingL1_waits {s : State} (pending : s.tb.lockPending = false)
    (h : s.tb.frameState = .freeRun ∨ ¬s.tb.openInstant < s.now) : s.risingL1 = s := by
  rw [State.risingL1, if_neg (Bool.eq_false_iff.mp pending)]
  cases state : s.tb.frameState with
  | freeRun => rfl
  | locked => exact if_neg (h.resolve_left fun free => nomatch state.symm.trans free)

theorem risingL1_atOpen {s : State} (pending : s.tb.lockPending = true) (opened : s.now = s.tb.openInstant) :
    s.risingL1 = s.lockAtOpen := by
  rw [State.risingL1, if_pos pending, State.takeLock, if_pos opened]

theorem risingL1_phases (s : State) : phasesKept s s.risingL1 := by
  cases pending : s.tb.lockPending with
  | true =>
    by_cases opened : s.now = s.tb.openInstant
    · rw [risingL1_atOpen pending opened]
      exact phasesKept_of_same (by rw [lockAtOpen_same])
    · rw [risingL1_lock pending opened]
      exact closeFrame_phases s.unlocking _ _ _ _
  | false =>
    by_cases h : s.tb.frameState = .freeRun ∨ ¬s.tb.openInstant < s.now
    · rw [risingL1_waits pending h]
      exact phasesKept_of_same rfl
    · obtain ⟨free, after⟩ := not_or.mp h
      have locked : s.tb.frameState = .locked := by
        cases state : s.tb.frameState with
        | freeRun => exact absurd state free
        | locked => rfl
      by_cases last : s.tb.cycles + 1 = s.tb.cycleSetting
      · rw [risingL1_last pending locked (not_not.mp after) last]
        exact closeFrame_phases s _ _ _ _
      · rw [risingL1_cycle pending locked (not_not.mp after) last]
        exact phasesKept_of_same (by rw [cycle_same])

theorem crossing_phases {s : State} {p : Phase} {pol : Polarity} (h : accepted s.phases[p] s.now pol) :
    phasesKept (s.phaseRecorded p pol) (s.crossing p pol) := by
  have recorded : (s.crossed p pol).phases = (s.phaseRecorded p pol).phases := by rw [crossed_same]
  rw [crossing_accepted h]
  split_ifs
  · intro q
    have kept := risingL1_phases (s.crossed p pol) q
    rwa [recorded] at kept
  · exact phasesKept_of_same recorded

theorem phasesKept.eventEnd {s v : State} (h : phasesKept s v) (old : State) : phasesKept s (v.eventEnd old) := by
  rw [eventEnd_fields]
  exact h

/-! ### O10 -/

theorem accept_present (x : PhaseStatus) (now : Nat) (pol : Polarity) : (x.accept now pol).present = x.present := by
  rw [accept_record]
  rfl

/-- The notice of a phase that has become LIVE. -/
theorem crossed_filed {s : State} {p : Phase} (wf : MemWf s.mem) (room : s.logFull = false)
    (h : becomesLive s.phases[p] s.now) (pol : Polarity) :
    logEntry (s.crossed p pol).mem s.writeCount .phaseLive (p.val + 1) 0 s.partTime
      (BitVec.ofNat 32 ((s.phaseRecorded p pol).phases[p].half.getD 0)) ∧
    (s.crossed p pol).writeCount = s.writeCount + 1 ∧ (s.crossed p pol).cause = s.cause ||| 2#32 := by
  have number : numberOf p < 65536 := by
    have := p.isLt
    simp only [numberOf]
    omega
  have filed := notice_noticed (s := s.phaseRecorded p pol) wf room .phaseLive number (show 0 < 256 by decide)
    (BitVec.ofNat 32 ((s.phaseRecorded p pol).phases[p].half.getD 0))
  rw [crossed_live h, phaseLive_eq]
  refine ⟨filed.entry, filed.count, ?_⟩
  have same := filed.same
  have cause := congrArg State.cause same
  exact cause

/-- Settles O10: the screen, the record, and the crossings that nothing else follows. -/
theorem crossingScreenAndRecord : Obligations.CrossingScreenAndRecord := by
  unfold Obligations.CrossingScreenAndRecord
  intro s t p pol running
  rw [exec_zeroCrossing_end running]
  refine ⟨fun due refused => ?_, fun screened => ⟨_, rfl, ?_⟩⟩
  · rw [crossing_refused (s := s.advance t) refused, eventEnd_id (s := s.advance t) due]
    rfl
  have kept := (crossing_phases (s := s.advance t) screened).eventEnd (s.advance t)
  have last : ¬(p = 0 ∧ pol = .rising ∧ (takesLock s (max s.now t) ∨ s.tb.frameState = .locked)) →
      (s.advance t).crossing p pol = (s.advance t).crossed p pol := fun plain => by
    rw [crossing_accepted (s := s.advance t) screened]
    refine ite_eq_right_iff.mpr fun ⟨l1, rising⟩ => ?_
    subst l1 rising
    obtain ⟨unlocked, free⟩ := not_or.mp fun h => plain ⟨rfl, rfl, h⟩
    refine risingL1_waits (Bool.eq_false_iff.mpr fun h => unlocked ((crossed_takesLock (s.advance t) .rising).mp h)) (.inl ?_)
    rw [crossed_tb_lock]
    cases state : s.tb.frameState with
    | freeRun => exact state
    | locked => exact absurd state free
  have own := kept p
  rw [phaseRecorded_at] at own
  generalize result : ((s.advance t).crossing p pol).eventEnd (s.advance t) = u at own kept ⊢
  have fields : u.phases[p] = { s.phases[p].accept (max s.now t) pol with present := u.phases[p].present } := own
  have record := accept_record s.phases[p] (max s.now t) pol
  have half := record_half s.phases[p] (max s.now t) pol
  have run := accept_run s.phases[p] (max s.now t) pol
  have deadline := accept_deadline s.phases[p] (max s.now t) pol
  refine ⟨fun q other => ?_, ?_, ?_, ?_, ?_, ?_, ?_, ?_, ?_, ?_, fun due plain => ?_⟩
  · have at_q := kept q
    rwa [phaseRecorded_other _ other] at at_q
  · rw [fields, record]
    rfl
  · rw [fields, record]
    exact half.1
  · rw [fields, record]
    exact half.2
  · rintro rfl
    rw [fields, record]
    exact record_rising _ _
  · rintro rfl
    rw [fields, record]
    exact ⟨rfl, rfl⟩
  · rw [fields]
    exact run.1
  · rw [fields]
    exact run.2
  · rw [fields]
    exact deadline.1
  · rw [fields]
    exact deadline.2
  · have crossed := last plain
    have same := crossed_same (s.advance t) p pol
    have unchanged : u = (s.advance t).crossed p pol := by
      rw [← result, crossed]
      apply eventEnd_unchanged <;> rw [same]
      exact due
    rw [← unchanged] at same
    have tb := crossed_tb (s.advance t) p pol
    rw [← unchanged] at tb
    refine ⟨?_, ?_, fun q => ?_, fun quiet => ?_, fun becomes => ⟨?_, fun wf room => ?_⟩⟩
    · rw [same]
      rfl
    · rw [tb]
      refine if_congr (and_congr_right fun _ => ?_) rfl rfl
      rw [fields]
      show becomesLive s.phases[p] (max s.now t) ∧ s.tb.state = .freeRun ↔
        s.phases[p].live = false ∧ (s.phases[p].accept (max s.now t) pol).live = true ∧ s.tb.state = .freeRun
      rw [accept_live_iff, and_assoc]
      refine and_congr_right fun dead => ?_
      rw [dead, Bool.false_or, decide_eq_true_eq]
    · rw [same]
      by_cases other : q = p
      · subst other
        show ((s.advance t).phaseRecorded q pol).phases[q].present = _
        rw [phaseRecorded_at]
        exact accept_present _ _ _
      · show ((s.advance t).phaseRecorded p pol).phases[q].present = _
        rw [phaseRecorded_other _ other]
        rfl
    · rw [unchanged, crossed_quiet (s := s.advance t) quiet]
      exact ⟨rfl, rfl⟩
    · rw [unchanged]
      exact (crossed_memory (s.advance t) p pol).bytes
    · have filed := crossed_filed (s := s.advance t) wf room becomes pol
      rw [← unchanged] at filed
      have value : u.phases[p].half = ((s.advance t).phaseRecorded p pol).phases[p].half := by
        rw [phaseRecorded_at, fields]
        rfl
      rw [value]
      exact filed

end Sys2Proof.Machine
end

section
/-! PROOF. The rising crossings of L1 in a LOCKED frame (R10, R3): a cycle more, or the last one. -/
namespace Sys2Proof.Machine

open Sys2Proof.Safety

/-- A live L1 makes no lock pending. -/
theorem crossed_running {s : State} (live : s.phases[(0 : Phase)].live = true) (pol : Polarity) :
    s.crossed 0 pol = s.phaseRecorded 0 pol :=
  crossed_quiet (fun h => absurd (h.1.symm.trans live) (by decide)) pol

/-- R5: the period of the cycle that ends at a rising crossing. -/
theorem phaseRecorded_period {s : State} {r : Nat} (last : s.phases[(0 : Phase)].lastRising = some r) :
    (s.phaseRecorded 0 .rising).phases[(0 : Phase)].cyclePeriod = some (s.now - r) := by
  rw [phaseRecorded_at, accept_record]
  exact (record_rising _ _).2.1 r last

/-- The count and the marks with which the next cycle begins. -/
theorem cycle_tb (s : State) : (s.frameAtClose.nextCycle.ownCounted s.sampleNow).tb = { s.tb with
    cycles := s.tb.cycles + 1, cycleStart := s.now, cycleP := s.phases[(0 : Phase)].cyclePeriod.getD 0
    cycleTaken := if nextFramesSample s s.now = none then 0 else 1
    sampleCount := (s.frameAtClose.nextCycle.ownCounted s.sampleNow).tb.sampleCount
    openTaken := (s.frameAtClose.nextCycle.ownCounted s.sampleNow).tb.openTaken
    lastSample := (s.frameAtClose.nextCycle.ownCounted s.sampleNow).tb.lastSample } := by
  have same : nextFramesSample s s.now = s.sampleNow := rfl
  rw [same]
  unfold State.frameAtClose State.ownCounted State.nextCycle
  cases s.sampleNow <;> rfl

theorem cycle_count (s : State) : (s.frameAtClose.nextCycle.ownCounted s.sampleNow).tb.sampleCount =
    (match nextFramesSample s s.now with
    | none => s.tb.sampleCount
    | some l => if s.tb.openTaken then l.count + 1 else l.count) := by
  have same : nextFramesSample s s.now = s.sampleNow := rfl
  rw [same]
  unfold State.frameAtClose State.ownCounted State.nextCycle
  cases s.sampleNow <;> rfl

/-- Without a sample of this instant, the windows are those of the frame so far. -/
theorem cycle_windows {s : State} (h : nextFramesSample s s.now = none) :
    s.frameAtClose.nextCycle.ownCounted s.sampleNow = s.nextCycle := by
  have none : s.sampleNow = Option.none := h
  unfold State.frameAtClose State.ownCounted
  rw [none]

/-- R3: the sample of this instant is added to what it found. -/
theorem cycle_owned {s : State} {l : LastSample} (h : nextFramesSample s s.now = some l) :
    (∀ p : Phase, (s.frameAtClose.nextCycle.ownCounted s.sampleNow).meterV[p] =
      { svv := l.windowsV[p].svv + (correctedCode l.codes.voltage[p] s.work.phases[p].voltageOffset *
          correctedCode l.codes.voltage[p] s.work.phases[p].voltageOffset).toNat
        clip := l.windowsV[p].clip || l.codes.voltage[p] == 0x8000#16 || l.codes.voltage[p] == 0x7FFF#16 }) ∧
    ∀ k : OutletIx, (s.frameAtClose.nextCycle.ownCounted s.sampleNow).meter[k] = { s.meter[k] with
      sii := l.windows[k].sii + (correctedCode l.codes.current[k] s.work.outlets[k].currentOffset *
        correctedCode l.codes.current[k] s.work.outlets[k].currentOffset).toNat
      svi := l.windows[k].svi +
        correctedCode l.codes.voltage[s.meter[k].pairing] s.work.phases[s.meter[k].pairing].voltageOffset *
          correctedCode l.codes.current[k] s.work.outlets[k].currentOffset
      clip := l.windows[k].clip || l.codes.current[k] == 0x8000#16 || l.codes.current[k] == 0x7FFF#16 } := by
  have some : s.sampleNow = Option.some l := h
  have found : s.frameAtClose.nextCycle.ownCounted s.sampleNow = (s.giveBack l).nextCycle.countSample l.codes := by
    unfold State.frameAtClose State.ownCounted
    rw [some]
  rw [found]
  refine ⟨fun p => accumulate_meterV (s.giveBack l).nextCycle l.codes p, fun k => ?_⟩
  have given : (s.giveBack l).nextCycle.meter[k] =
    { s.meter[k] with sii := l.windows[k].sii, svi := l.windows[k].svi, clip := l.windows[k].clip } := tab_at _ k
  refine (accumulate_meter (s.giveBack l).nextCycle l.codes k).trans ?_
  simp only [given]
  rfl

/-- Settles O12: a rising crossing of live L1 in a LOCKED frame. -/
theorem l1CrossingCountsCycles : Obligations.L1CrossingCountsCycles := by
  unfold Obligations.L1CrossingCountsCycles
  intro s t r running live screened rising locked pending after
  have crossed := crossed_closing s t 0 .rising
  have recorded := crossed_running (s := s.advance t) live .rising
  have period := phaseRecorded_period (s := s.advance t) rising
  rw [← recorded] at period
  have tb : ((s.advance t).crossed 0 .rising).tb = s.tb := by rw [recorded]; rfl
  have crosses : (s.advance t).crossing 0 .rising = ((s.advance t).crossed 0 .rising).risingL1 :=
    (crossing_accepted (s := s.advance t) screened).trans (if_pos ⟨rfl, rfl⟩)
  have plain : ((s.advance t).crossed 0 .rising) = { s.advance t with phases := ((s.advance t).crossed 0 .rising).phases } := by
    rw [recorded]
    rfl
  rw [exec_zeroCrossing_end running, crosses]
  generalize (s.advance t).crossed 0 .rising = a at crossed period tb plain ⊢
  have now := crossed.now_eq
  have waits : a.tb.lockPending = false := by rw [tb]; exact pending
  have inLock : a.tb.frameState = .locked := by rw [tb]; exact locked
  have later : a.tb.openInstant < a.now := by rw [tb, now]; exact after
  by_cases last : s.tb.cycles + 1 = s.tb.cycleSetting
  · rw [risingL1_last waits inLock later (by rw [tb]; exact last)]
    obtain ⟨c, f, h⟩ := closeFrame_closed crossed false a.tb.cycleSetting .locked none (s.advance t)
    have frame := h.frame
    generalize (a.closeFrame false a.tb.cycleSetting .locked none).eventEnd (s.advance t) = u at h frame ⊢
    have own := crossed.sample
    have pub : a.pub = s.pub := by rw [crossed.same]
    refine ⟨u, rfl, ?_, ?_, ?_, ?_, ?_, fun _ other => absurd last other, fun _ => ⟨?_, ?_, ?_, ?_, ?_, f, h.waiting, ?_, ?_, ?_,
      frame.short, ?_, ?_⟩⟩
    · rw [frame.tb]
    · rw [frame.tb]
      exact now
    · rw [frame.tb]
      show a.phases[(0 : Phase)].cyclePeriod.getD 0 = _
      rw [period]
      rfl
    · rw [frame.tb, own]
    · have inputs := frame.inputs
      rw [plain] at inputs
      exact inputs
    · rw [frame.tb]
    · rw [frame.tb]
    · rw [frame.tb]
      exact now
    · rw [frame.tb]
    · rw [frame.tb]
    · rw [frame.sequence, pub]
    · rw [frame.length, now, tb]
    · rw [frame.samples, crossed.samples]
    · rw [frame.frameState]
      exact inLock
    · rw [frame.frequency, tb]
      rfl
  · rw [risingL1_cycle waits inLock later (by rw [tb]; exact last)]
    have same := cycle_same a
    have cycle := cycle_tb a
    have count := cycle_count a
    have empty := cycle_windows (s := a)
    have owned := fun l => cycle_owned (s := a) (l := l)
    rw [tb, now] at cycle
    rw [now] at count empty owned
    have own : nextFramesSample a (max s.now t) = nextFramesSample s (max s.now t) := by
      have sample := crossed.sample
      rwa [now] at sample
    generalize found : a.frameAtClose.nextCycle.ownCounted a.sampleNow = v at same cycle count empty owned ⊢
    refine ⟨_, rfl, ?_, ?_, ?_, ?_, ?_, fun due _ => ?_, fun first => absurd first last⟩
    · rw [eventEnd_fields]
      exact (congrArg Timebase.frameState cycle).trans locked
    · rw [eventEnd_fields]
      exact congrArg Timebase.cycleStart cycle
    · rw [eventEnd_fields]
      refine (congrArg Timebase.cycleP cycle).trans ?_
      show a.phases[(0 : Phase)].cyclePeriod.getD 0 = _
      rw [period]
      rfl
    · rw [eventEnd_fields]
      refine (congrArg Timebase.cycleTaken cycle).trans ?_
      rw [own]
    · rw [eventEnd_fields, same, plain]
      exact ⟨⟨rfl, rfl, rfl, rfl⟩, rfl, rfl⟩
    · have unchanged : v.eventEnd (s.advance t) = v := by
        apply eventEnd_unchanged <;> rw [same, plain]
        exact due
      rw [unchanged]
      have meter : a.meter = s.meter := by rw [plain]; rfl
      have meterV : a.meterV = s.meterV := by rw [plain]; rfl
      refine ⟨congrArg Timebase.cycles cycle, ?_, ?_, ?_, ?_, ?_, fun none => ?_,
        fun l some => ⟨?_, ?_⟩⟩
      · rw [cycle]
      · rw [same, plain]
        rfl
      · rw [same, plain]
        exact ⟨rfl, rfl, rfl, rfl, rfl, rfl, rfl, rfl, rfl, rfl, rfl, rfl⟩
      · rw [same, plain]
        rfl
      · rw [same, plain]
        rfl
      · rw [own, none] at count
        refine ⟨count.trans (by rw [tb]), ?_⟩
        rw [empty (own.trans none)]
        exact ⟨meter, meterV⟩
      · rw [own, some] at count
        rw [count, tb]
      · have sums := owned l (own.trans some)
        generalize a.phases = phases at plain
        subst plain
        exact sums

end Sys2Proof.Machine
end

section
/-! PROOF. The blocks' work at a close, as notices, answers and finishes between steps that reach neither memory nor orders
(R115, R119, R154): it leaves the notices filed before, the orders that have finished, and the measured loads. -/
namespace Sys2Proof.Machine

open Sys2Proof.Safety

/-! ### Steps that reach neither memory nor orders -/

/-- The outlets, the relay driver, the queue and the records of the blocks have changed at most. -/
structure Quiet (s u : State) : Prop where
  now : u.now = s.now
  mem : u.mem = s.mem
  cause : u.cause = s.cause
  orders : u.orders = s.orders
  measured : ∀ b : Branch, u.loads[b].measured = s.loads[b].measured

theorem Quiet.refl (s : State) : Quiet s s := ⟨rfl, rfl, rfl, rfl, fun _ => rfl⟩

theorem Quiet.trans {s u v : State} (h : Quiet s u) (g : Quiet u v) : Quiet s v :=
  ⟨g.now.trans h.now, g.mem.trans h.mem, g.cause.trans h.cause, g.orders.trans h.orders,
    fun b => (g.measured b).trans (h.measured b)⟩

theorem Quiet.foldlPair {α : Type} {β : Type} {f : State × β → α → State × β} (h : ∀ a x, Quiet a.1 (f a x).1) (l : List α)
    (a : State × β) : Quiet a.1 (l.foldl f a).1 := by
  induction l generalizing a with
  | nil => exact .refl a.1
  | cons x l ih => exact (h a x).trans (ih (f a x))

theorem modOutlet_quiet (s : State) (k : OutletIx) (f : Outlet → Outlet) : Quiet s (s.modOutlet k f) :=
  ⟨rfl, rfl, rfl, rfl, fun _ => rfl⟩

theorem modShed_quiet (s : State) (b : Branch) (f : ShedRec → ShedRec) : Quiet s (s.modShed b f) :=
  ⟨rfl, rfl, rfl, rfl, fun _ => rfl⟩

theorem modCycle_quiet (s : State) (c : RecNo) (f : CycleRec → CycleRec) : Quiet s (s.modCycle c f) :=
  ⟨rfl, rfl, rfl, rfl, fun _ => rfl⟩

theorem modWatch_quiet (s : State) (w : WatchNo) (f : WatchRec → WatchRec) : Quiet s (s.modWatch w f) :=
  ⟨rfl, rfl, rfl, rfl, fun _ => rfl⟩

theorem needDriver_quiet (s : State) (k : OutletIx) (dir : Dir) (retry : Bool) : Quiet s (s.needDriver k dir retry) := by
  rw [needDriver_same]
  exact ⟨rfl, rfl, rfl, rfl, fun _ => rfl⟩

theorem release_quiet (s : State) (k : OutletIx) : Quiet s (s.release k) := by
  refine ⟨by rw [release_same], by rw [release_same], by rw [release_same], by rw [release_same], fun b => ?_⟩
  unfold State.release
  split
  · simp
  · rfl

theorem enqueue_quiet (s : State) (k : OutletIx) (cls : ClassNo) (w : Owner) : Quiet s (s.enqueue k cls w) := by
  rw [enqueue_eq]
  exact ⟨rfl, rfl, rfl, rfl, fun _ => rfl⟩

theorem dequeue_quiet (s : State) (k : OutletIx) : Quiet s (s.dequeue k) := by
  rw [dequeue_same]
  exact ⟨rfl, rfl, rfl, rfl, fun _ => rfl⟩

theorem clearMark_quiet (s : State) (k : OutletIx) : Quiet s (s.clearMark k) := ⟨rfl, rfl, rfl, rfl, fun _ => rfl⟩

theorem arriveOn_quiet (s : State) (k : OutletIx) : Quiet s (s.arriveOn k) := ⟨rfl, rfl, rfl, rfl, fun _ => rfl⟩

theorem enterOpening_quiet (s : State) (k : OutletIx) (w : Owner) : Quiet s (s.enterOpening k w) :=
  ((modOutlet_quiet s k _).trans (modOutlet_quiet _ k _)).trans ((release_quiet _ k).trans
    ((modOutlet_quiet _ k _).trans (needDriver_quiet _ k _ _)))

theorem withdrawWaiting_quiet (s : State) (k : OutletIx) : Quiet s (s.withdrawWaiting k) := by
  rw [withdrawWaiting_same]
  exact ⟨rfl, rfl, rfl, rfl, fun _ => rfl⟩

theorem enterFault_quiet (s : State) (k : OutletIx) (kind : FaultKind) : Quiet s (s.enterFault k kind).1 :=
  ((modOutlet_quiet s k _).trans (modOutlet_quiet _ k _)).trans ((dequeue_quiet _ k).trans
    ((release_quiet _ k).trans (withdrawWaiting_quiet _ k)))

theorem leaveQueue_quiet (s : State) (k : OutletIx) (r : MemberOutcome) : Quiet s (s.leaveQueue k r).1 :=
  (dequeue_quiet s k).trans ((modOutlet_quiet _ k _).trans (modOutlet_quiet _ k _))

theorem closeByState_quiet (s : State) (k : OutletIx) (cls : ClassNo) (w : Owner) : Quiet s (s.closeByState k cls w).1 := by
  unfold State.closeByState
  cases s.outlets[k].state with
  | off => exact enqueue_quiet s k cls w
  | awaitClose => exact ⟨rfl, rfl, rfl, rfl, fun _ => rfl⟩
  | closing => exact ⟨rfl, rfl, rfl, rfl, fun _ => rfl⟩
  | opening => exact ⟨rfl, rfl, rfl, rfl, fun _ => rfl⟩
  | resting =>
    dsimp only
    split
    · exact enqueue_quiet s k cls w
    · exact .refl s
  | on | fault | unknown => exact .refl s

theorem openByState_quiet (s : State) (k : OutletIx) (w : Owner) : Quiet s (s.openByState k w).1 := by
  unfold State.openByState
  cases s.outlets[k].state with
  | awaitClose => exact (dequeue_quiet s k).trans ((modOutlet_quiet _ k _).trans (modOutlet_quiet _ k _))
  | on => exact enterOpening_quiet s k w
  | closing => exact ⟨rfl, rfl, rfl, rfl, fun _ => rfl⟩
  | opening => exact ⟨rfl, rfl, rfl, rfl, fun _ => rfl⟩
  | resting =>
    dsimp only
    split <;> exact .refl s
  | off | fault | unknown => exact .refl s

theorem requestClose_quiet (s : State) (k : OutletIx) (cls : ClassNo) (w : Owner) : Quiet s (s.requestClose k cls w).1 := by
  unfold State.requestClose
  split
  · dsimp only
    split
    · exact clearMark_quiet s k
    · exact (clearMark_quiet s k).trans (closeByState_quiet _ k cls _)
  all_goals exact closeByState_quiet s k cls _

theorem requestOpen_quiet (s : State) (k : OutletIx) (w : Owner) : Quiet s (s.requestOpen k w).1 := by
  unfold State.requestOpen
  split
  · dsimp only
    split
    · exact clearMark_quiet s k
    · exact (clearMark_quiet s k).trans (openByState_quiet _ k _)
  all_goals exact openByState_quiet s k _

theorem sendCloses_quiet (s : State) (ks : List OutletIx) (cls : ClassNo) (w : Owner) : Quiet s (s.sendCloses ks cls w).1 :=
  Quiet.foldlPair (f := fun a k => ((a.1.requestClose k cls w).1, a.2 ++ (a.1.requestClose k cls w).2))
    (fun a k => requestClose_quiet a.1 k cls w) ks (s, [])

theorem sendOpens_quiet (s : State) (ks : List OutletIx) (w : Owner) : Quiet s (s.sendOpens ks w).1 :=
  Quiet.foldlPair (f := fun a k => ((a.1.requestOpen k w).1, a.2 ++ (a.1.requestOpen k w).2))
    (fun a k => requestOpen_quiet a.1 k w) ks (s, [])

theorem scan_quiet (s : State) : Quiet s s.scan := by
  have scanned := scan_scanned s
  have same := scanned.same
  exact ⟨by rw [same], by rw [same], by rw [same], by rw [same], scanned.measured⟩

theorem scanIfDue_quiet (s : State) : Quiet s s.scanIfDue := by
  unfold State.scanIfDue
  split
  · exact scan_quiet s
  · exact .refl s

/-! ### The work of the blocks -/

/-- Quiet steps, notices, and answers and finishes of orders. -/
inductive Worked : State → State → Prop
  | quiet {s u : State} : Quiet s u → Worked s u
  | notice (s : State) (kind : NoticeKind) (subject reason : Nat) (value : Word) : Worked s (s.notice kind subject reason value)
  | finish (s : State) (e : SlotNo) (r : OrderResult) : Worked s (s.finishOrder e r)
  | reply (s : State) (e : SlotNo) (k : OutletIx) (r : MemberOutcome) : Worked s (s.orderReply e k r)
  | trans {s u v : State} : Worked s u → Worked u v → Worked s v

theorem Worked.refl (s : State) : Worked s s := .quiet (.refl s)

theorem Worked.foldl {α : Type} {f : State → α → State} (h : ∀ s x, Worked s (f s x)) (l : List α) (s : State) :
    Worked s (l.foldl f s) := by
  induction l generalizing s with
  | nil => exact .refl s
  | cons x l ih => exact (h s x).trans (ih (f s x))

theorem Worked.foldlPair {α β : Type} {f : State × β → α → State × β} (h : ∀ a x, Worked a.1 (f a x).1) (l : List α)
    (a : State × β) : Worked a.1 (l.foldl f a).1 := by
  induction l generalizing a with
  | nil => exact .refl a.1
  | cons x l ih => exact (h a x).trans (ih (f a x))

theorem Worked.ite {p : Prop} [Decidable p] {s u v : State} (h : Worked s u) (g : Worked s v) : Worked s (if p then u else v) := by
  split
  · exact h
  · exact g

/-! ### Records of cycles, and answers -/

theorem watchOutcome_worked (s : State) (w : WatchNo) (r : OrderOutcome) : Worked s (s.watchOutcome w r) := by
  cases r with
  | done | canceled => exact .quiet (modWatch_quiet s w _)
  | partly | abandoned => exact (Worked.quiet (modWatch_quiet s w _)).trans (.notice _ _ _ _ _)
  | failed | merged | aborted | refused => exact .refl s

theorem tellOrigin_worked (s : State) (c : RecNo) (r : CycleRec) (o : Origin) : Worked s (s.tellOrigin c r o) := by
  cases o with
  | order e v => exact .finish s e _
  | watch w => exact watchOutcome_worked s w _

theorem endRecord_worked (s : State) (c : RecNo) : Worked s (s.endRecord c) :=
  (Worked.foldl (fun s k => .quiet (modOutlet_quiet s k _)) _ s).trans
    ((Worked.foldl (fun s o => tellOrigin_worked s c _ o) _ _).trans (.quiet (modCycle_quiet _ c _)))

theorem testEnd_worked (s : State) (c : RecNo) : Worked s (s.testEnd c) := by
  unfold State.testEnd
  exact (endRecord_worked s c).ite (.refl s)

theorem abandon_worked (s : State) (c : RecNo) (k : OutletIx) : Worked s (s.abandon c k).1 :=
  (Worked.quiet (modCycle_quiet s c _)).trans ((Worked.notice _ _ _ _ _).trans
    ((Worked.quiet ((modCycle_quiet _ c _).trans (sendCloses_quiet _ _ _ _))).trans (testEnd_worked _ c)))

theorem testResting_quiet (s : State) (c : RecNo) : Quiet s (s.testResting c) := by
  unfold State.testResting
  split
  · exact modCycle_quiet s c _
  · exact .refl s

theorem cycleReply_worked (s : State) (c : RecNo) (k : OutletIx) (d : Dir) (r : MemberOutcome) :
    Worked s (s.cycleReply c k d r).1 := by
  rcases cycleReply_cases s c k d r with same | rests | abandons | ⟨f, ends | changes⟩
  · rw [same]
    exact .refl s
  · rw [rests]
    exact .quiet (testResting_quiet s c)
  · rw [abandons]
    exact abandon_worked s c k
  · rw [ends]
    exact (Worked.quiet (modCycle_quiet s c f)).trans (testEnd_worked _ c)
  · rw [changes]
    exact .quiet (modCycle_quiet s c f)

theorem deliver_worked (fuel : Nat) (rs : List Reply) (s : State) : Worked s (deliver fuel rs s) := by
  induction fuel generalizing rs s with
  | zero => exact .refl s
  | succ fuel ih =>
    rw [deliver_succ]
    refine Worked.foldl (fun s r => ?_) rs s
    unfold deliverOne
    cases r.owner with
    | order e => exact .reply s e _ _
    | shed b => exact .refl s
    | restore b => exact .quiet (modShed_quiet s b _)
    | cycle c => exact (cycleReply_worked s c _ _ _).trans (ih _ _)

theorem settle_worked {s : State} {a : State × List Reply} (h : Worked s a.1) : Worked s (settle a) :=
  h.trans (deliver_worked 18 a.2 a.1)

theorem startRecord_worked (s : State) (c : RecNo) (o : Origin) (targets : List OutletIx) (rest : Nat) :
    Worked s (s.startRecord c o targets rest) := by
  rw [startRecord_eq]
  have joined : Quiet s (s.recordJoined c o targets rest) := ⟨rfl, rfl, rfl, rfl, fun _ => rfl⟩
  exact settle_worked (.quiet (joined.trans (sendOpens_quiet _ _ _)))

theorem retrigger_worked (s : State) (c : RecNo) (o : Origin) (targets : List OutletIx) (rest : Nat) :
    Worked s (s.retrigger c o targets rest).1 := by
  unfold State.retrigger
  dsimp only
  split
  · exact .refl s
  · exact .quiet (modCycle_quiet s c _)

theorem admission_worked (s : State) (o : Origin) (targets : List OutletIx) (rest : Nat) :
    Worked s (s.admission o targets rest).1 := by
  unfold State.admission
  split
  · exact retrigger_worked s _ _ _ _
  · split
    · exact .refl s
    · split
      · exact .refl s
      · split
        · exact .refl s
        · split
          · exact .refl s
          · split
            · exact .refl s
            · exact startRecord_worked s _ _ _ _

/-! ### Outlet controller and close scheduler (section 4.7, R115) -/

theorem faultAtClose_worked (s : State) (k : OutletIx) (kind : FaultKind) (seq : Word) : Worked s (s.faultAtClose k kind seq) :=
  (settle_worked (.quiet (enterFault_quiet s k kind))).trans (.notice _ _ _ _ _)

theorem discover_worked (s : State) (k : OutletIx) : Worked s (s.discover k) := by
  unfold State.discover
  dsimp only
  split
  · exact .quiet ((arriveOn_quiet s k).trans (modOutlet_quiet _ k _))
  · exact .quiet ((modOutlet_quiet s k _).trans (modOutlet_quiet _ k _))

theorem resolveUnverified_worked (s : State) (k : OutletIx) (seq : Word) : Worked s (s.resolveUnverified k seq) := by
  unfold State.resolveUnverified
  split
  · exact .refl s
  · exact (Worked.quiet (modOutlet_quiet s k _)).ite (faultAtClose_worked s k _ seq)

theorem supervise_worked (s : State) (k : OutletIx) (usable leaks : Bool) (seq : Word) :
    Worked s (s.supervise k usable leaks seq) := by
  have changes (f : Outlet → Outlet) : Worked s (s.modOutlet k f) := .quiet (modOutlet_quiet s k f)
  have faults (f : Outlet → Outlet) (kind : FaultKind) : Worked s ((s.modOutlet k f).faultAtClose k kind seq) :=
    (changes f).trans (faultAtClose_worked _ k kind seq)
  unfold State.supervise
  dsimp only
  split
  · exact (changes _).ite ((faults _ _).ite (changes _))
  · exact (changes _).ite ((faults _ _).ite (changes _))
  · exact changes _

theorem outletWork_worked (s : State) (closed : Settings) (res : Vector OutletResult 48) (seq : Word) (k : OutletIx) :
    Worked s (s.outletWork closed res seq k) := by
  unfold State.outletWork
  dsimp only
  have found (p : Prop) [Decidable p] : Worked s (if p then s.discover k else s) := (discover_worked s k).ite (.refl s)
  have resolved (v : State) (p : Prop) [Decidable p] : Worked v (if p then v.resolveUnverified k seq else v) :=
    (resolveUnverified_worked v k seq).ite (.refl v)
  exact (found _).trans ((resolved _ _).trans ((supervise_worked _ k _ _ seq).trans (.quiet (modOutlet_quiet _ k _))))

theorem outletsWork_worked (s : State) (closed : Settings) (res : Vector OutletResult 48) (seq : Word) :
    Worked s (s.outletsWork closed res seq).1 :=
  Worked.foldlPair (fun a k => outletWork_worked a.1 closed res seq k) _ (s, [])

theorem expire_worked (s : State) (e : QueueEntry) : Worked s (s.expire e) :=
  (settle_worked (.quiet (leaveQueue_quiet s e.outlet _))).trans (.notice _ _ _ _ _)

theorem patienceChange_worked (s : State) (closed : Settings) : Worked s (s.patienceChange closed) := by
  unfold State.patienceChange
  exact (Worked.refl s).ite (.foldl (fun s e => (expire_worked s e).ite (.refl s)) _ s)

/-- R36, R99: the scheduler's work takes the measured loads of the closed frame. -/
theorem schedulerWork_worked (s : State) (closed : Settings) (res : Vector OutletResult 48) (whole : List OutletIx) :
    Worked { s with loads := tab fun b => { s.loads[b] with measured := branchSum closed res b } }
      (s.schedulerWork closed res whole) :=
  (Worked.foldl (fun s k => .quiet (release_quiet s k)) whole _).trans (patienceChange_worked _ closed)

/-! ### Shed monitor (R119 to R126) -/

theorem shedOne_worked (s : State) (closed : Settings) (b : Branch) : Worked s (s.shedOne closed b) := by
  unfold State.shedOne
  split
  · exact .refl s
  · exact (settle_worked (.quiet (requestOpen_quiet s _ _))).trans
      ((Worked.quiet ((modOutlet_quiet _ _ _).trans (modShed_quiet _ b _))).trans (.notice _ _ _ _ _))

theorem startRound_worked (s : State) (b : Branch) (ks : List OutletIx) : Worked s (s.startRound b ks) :=
  (Worked.quiet (modShed_quiet s b _)).trans ((Worked.notice _ _ _ _ _).trans
    (settle_worked (.quiet (sendCloses_quiet _ _ _ _))))

theorem shedEnabledBranch_worked (s : State) (closed : Settings) (b : Branch) : Worked s (s.shedEnabledBranch closed b) := by
  have entered (v : State) (p : Prop) [Decidable p] (kind : NoticeKind) (subject reason : Nat) (value : Word) :
      Worked v (if p then v.notice kind subject reason value else v) := (Worked.notice v kind subject reason value).ite (.refl v)
  have sheds (v : State) (p : Prop) [Decidable p] : Worked v (if p then v.shedOne closed b else v) :=
    (shedOne_worked v closed b).ite (.refl v)
  have starts (v : State) (p : Prop) [Decidable p] (ks : List OutletIx) : Worked v (if p then v.startRound b ks else v) :=
    (startRound_worked v b ks).ite (.refl v)
  unfold State.shedEnabledBranch
  dsimp only
  exact (Worked.quiet (modShed_quiet s b _)).trans ((entered _ _ _ _ _ _).trans ((sheds _ _).trans
    ((Worked.quiet (modShed_quiet _ b _)).trans (starts _ _ _))))

theorem shedBranch_worked (s : State) (closed : Settings) (b : Branch) : Worked s (s.shedBranch closed b) := by
  unfold State.shedBranch
  exact ((Worked.quiet (modShed_quiet s b _)).trans (shedEnabledBranch_worked _ closed b)).ite (.quiet (modShed_quiet s b _))

/-! ### Watches (R154 to R163) -/

theorem takeWatchAt_quiet (s : State) (closed : Settings) (w : WatchNo) : Quiet s (s.takeWatchAt closed w) := by
  unfold State.takeWatchAt
  dsimp only
  split
  · split
    · exact (modCycle_quiet s _ _).trans (modWatch_quiet _ w _)
    · exact modWatch_quiet s w _
  · split <;> exact modWatch_quiet s w _

theorem watchTake_worked (s : State) (closed : Settings) : Worked s (s.watchTake closed) :=
  .foldl (fun s w => .quiet (takeWatchAt_quiet s closed w)) _ s

theorem requestCycle_worked (s : State) (w : WatchNo) : Worked s (s.requestCycle w).1 := by
  unfold State.requestCycle
  dsimp only
  split <;> exact (admission_worked s _ _ _).trans (.quiet (modWatch_quiet _ w _))

theorem noticeCycle_worked (s : State) (w : WatchNo) (r : AdmitResult) : Worked s (s.noticeCycle w r) := by
  cases r with
  | admitted c | attached c => exact .notice s _ _ _ _
  | refused reason detail => exact .refl s

theorem giveUp_worked (s : State) (w : WatchNo) : Worked s (s.giveUp w) :=
  (Worked.quiet (modWatch_quiet s w _)).trans (.notice _ _ _ _ _)

theorem expireWatch_worked (s : State) (w : WatchNo) : Worked s (s.expireWatch w) := by
  unfold State.expireWatch
  dsimp only
  split
  · exact (Worked.quiet (modWatch_quiet s w _)).trans (.notice _ _ _ _ _)
  · exact ((Worked.notice s _ _ _ _).trans (giveUp_worked _ w)).ite
      ((requestCycle_worked s w).trans ((Worked.notice _ _ _ _ _).trans (noticeCycle_worked _ w _)))

theorem retryWatch_worked (s : State) (w : WatchNo) : Worked s (s.retryWatch w) := by
  unfold State.retryWatch
  dsimp only
  split
  · exact .quiet (modWatch_quiet s w _)
  · exact (giveUp_worked s w).ite ((requestCycle_worked s w).trans (noticeCycle_worked _ w _))

theorem watchingFrame_worked (s : State) (w : WatchNo) (sum : Nat) (seq : Word) : Worked s (s.watchingFrame w sum seq) := by
  have changes (f : WatchRec → WatchRec) : Worked s (s.modWatch w f) := .quiet (modWatch_quiet s w f)
  unfold State.watchingFrame
  dsimp only
  split
  · exact changes _
  · exact ((changes _).trans (expireWatch_worked _ w)).ite (changes _)

theorem waitingFrame_worked (s : State) (seen : Vector OutletState 48) (w : WatchNo) (sum : Nat) (seq : Word) :
    Worked s (s.waitingFrame seen w sum seq) := by
  unfold State.waitingFrame
  dsimp only
  generalize (if anyOn seen s.work.watches[w].members then _ else _ : WatchRec × Option Evidence) = e
  split
  · exact (Worked.quiet (modWatch_quiet s w _)).trans (.notice _ _ _ _ _)
  · exact ((Worked.quiet (modWatch_quiet s w _)).trans (retryWatch_worked _ w)).ite (.quiet (modWatch_quiet s w _))

theorem examineWatch_worked (s : State) (seen : Vector OutletState 48) (res : Vector OutletResult 48) (seq : Word)
    (w : WatchNo) : Worked s (s.examineWatch seen res seq w) := by
  unfold State.examineWatch
  dsimp only
  split
  · exact .refl s
  · exact .refl s
  · exact (Worked.quiet (modWatch_quiet s w _)).ite (.refl s)
  · exact (watchingFrame_worked s w _ seq).ite (.refl s)
  all_goals exact waitingFrame_worked s seen w _ seq

/-! ### The close -/

/-- R119, R154: the last work, in whatever order. -/
theorem lastWork_worked {closed : Settings} {seen : Vector OutletState 48} {res : Vector OutletResult 48} {seq : Word}
    {bs : List Branch} {ws : List WatchNo} {handed : Option (Vector Nat 6)} {s u : State} {loads : Vector Nat 6}
    (h : LastWork closed seen res seq bs ws handed s u loads) : Worked s u := by
  induction h with
  | done s loads => exact .refl s
  | scan bs ws s u loads h ih => exact (Worked.quiet (scan_quiet s)).trans ih
  | shed b bs ws handed s u loads h ih => exact (shedBranch_worked s closed b).trans ih
  | watch bs w ws handed s u loads h ih => exact (examineWatch_worked s seen res seq w).trans ih

theorem answerClears_worked (s : State) (cleared : OutletIx → Bool) : Worked s (s.answerClears cleared) := by
  refine Worked.foldl (fun s e => ?_) _ s
  split
  · exact .refl s
  · exact (Worked.foldl (fun s (m : OutletIx × Option MemberOutcome) => (Worked.reply s e m.1 .ok).ite (.refl s)) _ s).ite (.refl s)

theorem finishOrders_worked (es : List SlotNo) (r : OrderResult) (s : State) :
    Worked s (es.foldl (fun s e => s.finishOrder e r) s) := .foldl (fun s e => .finish s e r) es s

/-! ### What the work leaves -/

/-- What of subject and reason the log does not hold, a notice does not depend on. -/
theorem notice_masked (s : State) (kind : NoticeKind) (subject reason : Nat) (value : Word) :
    s.notice kind subject reason value = s.notice kind (subject % 65536) (reason % 256) value := by
  have masked (seq : Word) (stamp : Word) : writeNotice s.mem seq kind subject reason stamp value =
      writeNotice s.mem seq kind (subject % 65536) (reason % 256) stamp value := by
    have low : fld (reason % 256) 8 8 = fld reason 8 8 := by simp only [fld, Nat.mod_mod, Nat.reducePow]
    have high : fld (subject % 65536) 16 16 = fld subject 16 16 := by simp only [fld, Nat.mod_mod, Nat.reducePow]
    simp only [writeNotice, low, high]
  unfold State.notice
  rw [masked]

theorem notice_logGrows (s : State) (kind : NoticeKind) (subject reason : Nat) (value : Word) :
    LogGrows s (s.notice kind subject reason value) := by
  rw [notice_masked]
  exact notice_grows s kind (Nat.mod_lt _ (by decide)) (Nat.mod_lt _ (by decide)) value

/-- R191: the notices filed before the work stand. -/
theorem Worked.grows {s u : State} (h : Worked s u) : LogGrows s u := by
  induction h with
  | quiet q => exact .of_mem q.mem
  | notice s kind subject reason value => exact notice_logGrows s kind subject reason value
  | finish s e r => exact finishOrder_grows s e r
  | reply s e k r => exact orderReply_grows s e k r
  | trans _ _ ih ih' => exact ih.trans ih'

/-- R180: an order that has finished is done with. -/
theorem Worked.orderKept {s u : State} (h : Worked s u) {e : SlotNo} (free : s.orders[e] = none) : OrderKept e s u := by
  induction h with
  | quiet q => exact .of_same q.orders q.mem q.now q.cause
  | notice s kind subject reason value => exact notice_orderKept e s kind subject reason value
  | finish s j r =>
    by_cases same : e = j
    · rw [finishOrder_none (same ▸ free)]
      exact .refl e s
    · exact finishOrder_orderKept same s r
  | reply s j k r =>
    by_cases same : e = j
    · rw [orderReply_none (same ▸ free)]
      exact .refl e s
    · exact orderReply_orderKept same s k r
  | trans _ _ ih ih' =>
    have first := ih free
    exact first.trans (ih' (first.entry.trans free))

theorem notice_loads (s : State) (kind : NoticeKind) (subject reason : Nat) (value : Word) :
    (s.notice kind subject reason value).loads = s.loads := by rw [notice_same]

theorem finishOrder_loads (s : State) (e : SlotNo) (r : OrderResult) : (s.finishOrder e r).loads = s.loads := by
  rw [finishOrder_parts]

theorem orderReply_loads (s : State) (e : SlotNo) (k : OutletIx) (r : MemberOutcome) : (s.orderReply e k r).loads = s.loads := by
  cases held : s.orders[e] with
  | none => rw [orderReply_none held]
  | some entry =>
    rw [orderReply_eq held]
    split
    · exact finishOrder_loads _ e _
    · rfl

/-- R99: no work but the scheduler's own changes the measured loads. -/
theorem Worked.measured {s u : State} (h : Worked s u) (b : Branch) : u.loads[b].measured = s.loads[b].measured := by
  induction h with
  | quiet q => exact q.measured b
  | notice s kind subject reason value => rw [notice_loads]
  | finish s e r => rw [finishOrder_loads]
  | reply s e k r => rw [orderReply_loads]
  | trans _ _ ih ih' => exact ih'.trans ih

end Sys2Proof.Machine
end

section
/-! PROOF. What a close leaves of notices and finished orders; the values of the closed frame (R22 to R30). -/
namespace Sys2Proof.Machine

open Sys2Proof.Safety

/-! ### What a close leaves behind it -/

/-- The notices filed before stand, and the orders that have finished are as they were. -/
structure Passes (s u : State) : Prop where
  grows : LogGrows s u
  orders : ∀ e : SlotNo, s.orders[e] = none → OrderKept e s u

theorem Passes.trans {s u v : State} (h : Passes s u) (g : Passes u v) : Passes s v where
  grows := h.grows.trans g.grows
  orders e free := (h.orders e free).trans (g.orders e ((h.orders e free).entry.trans free))

theorem Worked.passes {s u : State} (h : Worked s u) : Passes s u := ⟨h.grows, fun _ => h.orderKept⟩

theorem Passes.of_same {s u : State} (orders : u.orders = s.orders) (mem : u.mem = s.mem) (now : u.now = s.now)
    (cause : u.cause = s.cause) : Passes s u := ⟨.of_mem mem, fun _ _ => .of_same orders mem now cause⟩

theorem latchCopy_worked (s : State) (seq : Word) : Worked (s.latched seq) (s.latchCopy seq) := by
  unfold State.latchCopy State.latched
  split
  · dsimp only
    split
    · exact .refl _
    · exact (Worked.finish _ _ _).trans (finishOrders_worked _ _ _)
  · exact .refl _

theorem beforeWork_worked (s : State) (state : TimebaseState) (note : Option NoticeKind) :
    Worked ((s.openedAfter state note).latched (nextSequence s.pub.closedSeq)) (s.beforeWork state note) :=
  (latchCopy_worked _ _).trans (answerClears_worked _ _)

theorem closeWork_worked (s : State) (order : CloseOrder) (closed : Settings) (seen : Vector OutletState 48)
    (res : Vector OutletResult 48) (seq : Word) (skip : List WatchNo) :
    Worked s (s.closeWork order closed seen res seq skip).1 :=
  (lastWork_worked (closeTurns_lastWork closed seen res seq order _ _ none s)).trans (.quiet (scanIfDue_quiet _))

/-- The blocks' work of a close (R115, R119, R154). -/
theorem workAtClose_passes (v : State) (order : CloseOrder) (closed : Settings) (res : Vector OutletResult 48) (seq : Word) :
    Passes v (v.workAtClose order closed res seq).1 := by
  unfold State.workAtClose
  dsimp only
  have outlets := (outletsWork_worked v closed res seq).passes
  generalize v.outletsWork closed res seq = a at outlets ⊢
  have scheduled := (schedulerWork_worked a.1 closed res a.2).passes
  generalize a.1.schedulerWork closed res a.2 = v1 at scheduled ⊢
  have taken : Passes v1 (v1.shedTake closed) := .of_same rfl rfl rfl rfl
  have measured : Passes a.1 { a.1 with loads := tab fun b => { a.1.loads[b] with measured := branchSum closed res b } } :=
    .of_same rfl rfl rfl rfl
  exact outlets.trans (measured.trans (scheduled.trans (taken.trans ((watchTake_worked _ closed).passes.trans
    (closeWork_worked _ _ _ _ _ _ _).passes))))

theorem closeFrameIn_passes (s : State) (order : CloseOrder) (short : Bool) (cycleCount : Nat) (state : TimebaseState)
    (note : Option NoticeKind) : Passes (s.beforeWork state note) (s.closeFrameIn order short cycleCount state note) :=
  (workAtClose_passes (s.beforeWork state note) order s.work
    (tab fun k => (s.frameOutlet (s.now - s.tb.openInstant) k).1) (nextSequence s.pub.closedSeq)).trans
      (.of_same rfl rfl rfl rfl)

theorem closeCounted_passes (s : State) (short : Bool) (cycleCount : Nat) (state : TimebaseState) (note : Option NoticeKind) :
    Passes (s.chosen.beforeWork state note) (s.closeCounted short cycleCount state note) :=
  closeFrameIn_passes s.chosen (Config.closeOrder s.choices) short cycleCount state note

/-! ### The notices of a close -/

theorem takeIfAllowed_grows (s : State) : LogGrows s s.takeIfAllowed := by
  have loaded : LogGrows s s.loadSettings := by
    refine .of_step (memStep_writeWord s.mem 0x28 _) fun a ha => within_eq_false.mpr ?_
    rw [logBytes, Bool.or_eq_true, within_iff, within_iff] at ha
    omega
  unfold State.takeIfAllowed State.take
  split
  · split
    · exact loaded
    · exact loaded.trans (notice_logGrows _ _ _ _ _)
  · exact .refl s

/-- What the latch copy writes lies outside the log. -/
def latchBytes (a : Nat) : Bool := within addrLatchState 4 a || within 0x2B00 0x188 a

theorem memStep_latched_bytes (s : State) (seq : Word) : MemStep latchBytes s.mem (s.latched seq).mem := by
  unfold State.latched
  split
  · refine (MemStep.mono (memStep_writeWords _ _ _) fun a ha => ?_).trans
      ((memStep_writeWord _ _ _).mono fun a ha => by simp [latchBytes, ha])
    have length : 4 * ([seq.toNat, s.partTime.toNat] ++
        ((s.meter.toList.map MeterOutlet.energy).map fun e => [e % 2 ^ 32, e / 2 ^ 32]).flatten).length = 0x188 := by
      simp only [List.length_append, length_counters, List.length_map, Vector.length_toList, List.length_cons,
        List.length_nil]
    rw [length] at ha
    simp [latchBytes, ha]
  · exact .refl _ _

theorem latched_grows (s : State) (seq : Word) : LogGrows s (s.latched seq) := by
  refine .of_step (memStep_latched_bytes s seq) fun a ha => ?_
  rw [logBytes, Bool.or_eq_true, within_iff, within_iff] at ha
  rw [latchBytes, Bool.or_eq_false_iff, within_eq_false, within_eq_false]
  simp only [addrLatchState]
  omega

theorem openedAfter_grows (s : State) (state : TimebaseState) (note : Option NoticeKind) :
    LogGrows (s.beginClose note) (s.openedAfter state note) :=
  (takeIfAllowed_grows (s.beginClose note)).trans (.of_mem rfl)

/-- R191: what a close files stands behind its first notice. -/
theorem closeFrame_grows (s : State) (short : Bool) (cycleCount : Nat) (state : TimebaseState) (note : Option NoticeKind) :
    LogGrows (s.frameAtClose.chosen.beginClose note) (s.closeFrame short cycleCount state note) := by
  rw [closeFrame_eq]
  have own : (((s.frameAtClose).closeCounted short cycleCount state note).ownCounted s.sampleNow).mem =
      ((s.frameAtClose).closeCounted short cycleCount state note).mem := by rw [ownCounted_same]
  exact (openedAfter_grows _ _ _).trans ((latched_grows _ _).trans ((beforeWork_worked _ _ _).grows.trans
    ((closeCounted_passes _ _ _ _ _).grows.trans (.of_mem own))))

/-- A notice stands in what grows from it. -/
theorem notice_stands {s v u : State} (wf : MemWf s.mem) (used : logUsed s.mem < 256) (kind : NoticeKind) {subject reason : Nat}
    (hs : subject < 65536) (hr : reason < 256) (value : Word) (mem : v.mem = s.mem) (now : v.now = s.now)
    (grows : LogGrows (v.notice kind subject reason value) u) :
    logEntry u.mem s.writeCount kind subject reason s.partTime value := by
  have filed := notice_filed wf (room_of_used used) mem now kind hs hr value
  have wf' : MemWf v.mem := mem ▸ wf
  have used' : logUsed v.mem < 256 := mem ▸ used
  have count : v.writeCount = s.writeCount := by rw [State.writeCount, State.writeCount, mem]
  have room := notice_log wf' used' kind hs hr value
  have place := notice_used wf' used' kind hs hr value
  have stands := grows ((notice_block v _ _ _ _).wf wf') (by omega)
  exact stands.entry _ _ _ _ _ _ (count ▸ place) filed

/-- Two notices, the second behind the first, stand in what grows from them. -/
theorem notices_stand {s v u : State} (wf : MemWf s.mem) (used : logUsed s.mem + 2 ≤ 256) (k1 k2 : NoticeKind) {s1 r1 s2 r2 : Nat}
    (hs1 : s1 < 65536) (hr1 : r1 < 256) (hs2 : s2 < 65536) (hr2 : r2 < 256) (v1 v2 : Word)
    (mem : v.mem = (s.notice k1 s1 r1 v1).mem) (now : v.now = s.now) (grows : LogGrows (v.notice k2 s2 r2 v2) u) :
    logEntry u.mem s.writeCount k1 s1 r1 s.partTime v1 ∧ logEntry u.mem (s.writeCount + 1) k2 s2 r2 s.partTime v2 := by
  have first := notice_noticed wf (room_of_used (by omega)) k1 hs1 hr1 v1
  have usedThen := notice_log wf (by omega) k1 hs1 hr1 v1
  have wf' : MemWf v.mem := mem ▸ (notice_block s _ _ _ _).wf wf
  rw [← mem] at usedThen
  have count : v.writeCount = s.writeCount + 1 := by rw [State.writeCount, mem]; exact first.count
  have time : v.partTime = s.partTime := by rw [State.partTime, now]; rfl
  have second := notice_stands wf' (by omega) k2 hs2 hr2 v2 rfl rfl grows
  rw [count, time] at second
  have later : LogGrows (s.notice k1 s1 r1 v1) u := (LogGrows.of_mem mem).trans ((notice_grows v k2 hs2 hr2 v2).trans grows)
  exact ⟨notice_stands wf (by omega) k1 hs1 hr1 v1 rfl rfl later, second⟩

/-! ### The measured loads of a closed frame (R36) -/

/-- The records of the branches show the currents of the outlets assigned to them. -/
theorem workDone_measured {closed : Settings} {f : FrameResult} {v u : State} (h : WorkDone closed f v u) (b : Branch) :
    f.branches[b].measured =
      (((indices 48).filter fun k => closed.outlets[k].branch = b).map fun k => f.outlets[k].irms).sum := by
  obtain ⟨-, x, loads, last, -, -, -, branches⟩ := h
  have taken (y : State) : Worked y (y.shedTake closed) := .quiet ⟨rfl, rfl, rfl, rfl, fun _ => rfl⟩
  have scanned : Worked x (if x.scanDue then x.scan else x) := (Worked.quiet (scan_quiet x)).ite (.refl x)
  have worked := (schedulerWork_worked (v.outletsWork closed (tab fun k => { f.outlets[k] with unverified := false }) f.sequence).1
    closed (tab fun k => { f.outlets[k] with unverified := false })
    (v.outletsWork closed (tab fun k => { f.outlets[k] with unverified := false }) f.sequence).2).trans
      ((taken _).trans ((watchTake_worked _ closed).trans ((lastWork_worked last).trans scanned)))
  rw [branches b]
  refine (worked.measured b).trans ?_
  rw [tab_at]
  show branchSum closed (tab fun k => { f.outlets[k] with unverified := false }) b = _
  unfold branchSum
  simp only [tab_at, beq_eq_decide]

/-! ### O16 -/

theorem mean_lt {sum n : Nat} (h : sum < 2 ^ 48) : sum / n < 2 ^ 64 :=
  lt_of_le_of_lt (Nat.div_le_self _ _) (h.trans (by decide))

/-- R22 to R30, for one outlet: below the creep level nothing is shown. -/
theorem meterOutlet_values (m : MeterOutlet) (gv gi creep n tUs vrms : Nat) (present : Bool) :
    let r := (meterOutlet m gv gi creep n tUs vrms present).1
    let irms := roundHalfUp (rootMean m.sii n * gi) 32768
    (irms < creep → r.creep = true ∧ r.irms = 0 ∧ r.p = 0 ∧ r.va = 0 ∧ r.pf = 0 ∧ r.reverse = false) ∧
    (creep ≤ irms → r.creep = false ∧ r.irms = irms ∧ r.p = roundHalfAway (m.svi * gv * gi) (n * 2 ^ 30 * 80) ∧
      r.va = roundHalfUp (vrms * irms) 1000 ∧
      r.pf = (if r.va = 0 then 0 else max (-1000) (min 1000 (roundHalfAway (1000 * r.p) r.va))) ∧
      r.reverse = decide (r.p < 0)) ∧
    r.clipped = m.clip ∧ r.phaseAbsent = !present := by
  have named : rmsCurrent (rootMean m.sii n) gi = roundHalfUp (rootMean m.sii n * gi) 32768 := rfl
  refine ⟨fun below => ?_, fun above => ?_, rfl, rfl⟩
  · simp only [meterOutlet, named, decide_eq_true below, if_true, lt_self_iff_false, decide_false, and_self]
  · have notBelow := Nat.not_lt.mpr above
    simp only [meterOutlet, named, decide_eq_false notBelow, Bool.false_eq_true, if_false]
    refine ⟨trivial, trivial, rfl, rfl, ?_, trivial⟩
    unfold powerFactor
    split
    · rfl
    · exact clampInt_fst (by decide) _

/-- Settles O16: the frame that every close hands over, by the formulas of the meter. -/
theorem frameValuesFromSums : Obligations.FrameValuesFromSums := by
  unfold Obligations.FrameValuesFromSums
  intro s now i running closing _ current voltage
  obtain ⟨a, c, u, state, note, short, cycleCount, f, run, h⟩ := command_closed running closing
  have frame := h.frame
  have work : a.work = s.work := by rw [h.closing.same]
  have phase (p : Phase) := frame.phase p
  simp only [h.closing.samples, h.closing.phase, work] at phase
  have vrms (p : Phase) : f.phases[p].vrms = a.frameAtClose.frameVrms p := by
    rw [frameVrms_atClose, h.closing.samples, h.closing.phase, work, phase p]
  have present (p : Phase) : f.phases[p].present = a.frameAtClose.framePresent p := by
    have strip : a.frameAtClose.work.strip = s.work.strip := by rw [frameAtClose_same]; exact congrArg Settings.strip work
    rw [State.framePresent, ← vrms p, strip, phase p]
  refine ⟨u, f, run, h.waiting, fun p => ?_, fun b => ?_, fun k => ?_⟩
  · obtain ⟨low, high⟩ := isqrt_root (mean_lt (n := samplesAtClose s now) (voltage p))
    refine ⟨_, low, high, ?_, ?_, ?_, ?_⟩
    · rw [phase p]
      rfl
    · rw [phase p]
    · rw [phase p, frame.phases p]
    · rw [phase p]
  · have settings : a.frameAtClose.work = s.work := by rw [frameAtClose_same]; exact work
    have measured := workDone_measured h.whole.done b
    rwa [settings] at measured
  · obtain ⟨low, high⟩ := isqrt_root (mean_lt (n := samplesAtClose s now) (current k))
    refine ⟨_, low, high, ?_⟩
    have found := frameAtClose_meter a k
    have meter : a.meter = s.meter := by rw [h.closing.same]
    rw [h.closing.window, meter] at found
    have count : a.frameAtClose.tb.sampleCount = samplesAtClose s now := by
      rw [frameAtClose_tb]
      exact h.closing.samples
    have settings : a.frameAtClose.work = s.work := by rw [frameAtClose_same]; exact work
    have pairing : a.frameAtClose.meter[k].pairing = s.meter[k].pairing := by rw [found]
    have values := meterOutlet_values a.frameAtClose.meter[k]
      a.frameAtClose.work.phases[a.frameAtClose.meter[k].pairing].voltageGain a.frameAtClose.work.outlets[k].currentGain
      a.frameAtClose.work.strip.creepLevel a.frameAtClose.tb.sampleCount (a.now - a.tb.openInstant)
      (a.frameAtClose.frameVrms a.frameAtClose.meter[k].pairing) (a.frameAtClose.framePresent a.frameAtClose.meter[k].pairing)
    have result : (meterOutlet a.frameAtClose.meter[k]
      a.frameAtClose.work.phases[a.frameAtClose.meter[k].pairing].voltageGain a.frameAtClose.work.outlets[k].currentGain
      a.frameAtClose.work.strip.creepLevel a.frameAtClose.tb.sampleCount (a.now - a.tb.openInstant)
      (a.frameAtClose.frameVrms a.frameAtClose.meter[k].pairing)
      (a.frameAtClose.framePresent a.frameAtClose.meter[k].pairing)).1 =
        (a.frameAtClose.frameOutlet (a.now - a.tb.openInstant) k).1 := rfl
    rw [result] at values
    simp only [← vrms, ← present, settings, count, found] at values
    rw [frame.outlet k]
    exact values

end Sys2Proof.Machine
end

section
/-! PROOF. The loss and the gain of lock, with their notices in order (R7, R11, R12). -/
namespace Sys2Proof.Machine

open Sys2Proof.Safety

theorem numberOf_phase (p : Phase) : numberOf p = p.val + 1 ∧ p.val + 1 < 65536 := by
  have := p.isLt
  exact ⟨rfl, by omega⟩

/-- The timebase notice of a close carries the closed frame's number, and stands with those before it. -/
theorem closeNotice_grows {s a : State} {now : Nat} (closing : Closing s a now) (short : Bool) (cycleCount : Nat)
    (state : TimebaseState) (n : NoticeKind) (old : State) : ∃ v : State, v.mem = a.mem ∧ v.now = a.now ∧
      LogGrows (v.notice n 1 0 (nextSequence s.pub.closedSeq))
        ((a.closeFrame short cycleCount state (some n)).eventEnd old) := by
  have pub : a.frameAtClose.chosen.pub.closedSeq = s.pub.closedSeq := by
    have base : a.frameAtClose.pub = a.pub := by rw [frameAtClose_same]
    show a.frameAtClose.pub.closedSeq = s.pub.closedSeq
    rw [base, closing.same]
  have grows := (closeFrame_grows a short cycleCount state (some n)).trans (eventEnd_grows _ old)
  refine ⟨a.frameAtClose.chosen.numberFrame, ?_, ?_, ?_⟩
  · show a.frameAtClose.mem = a.mem
    rw [frameAtClose_same]
  · show a.frameAtClose.now = a.now
    rw [frameAtClose_same]
  · have filed : a.frameAtClose.chosen.beginClose (some n) =
      a.frameAtClose.chosen.numberFrame.notice n 1 0 (nextSequence a.frameAtClose.chosen.pub.closedSeq) := rfl
    rw [filed, pub] at grows
    exact grows

/-! ### O11 -/

theorem died_phase (s : State) (p : Phase) : (s.died p).phases[p] = s.phases[p].die ∧
    ∀ q : Phase, q ≠ p → (s.died p).phases[q] = s.phases[q] := by
  rw [died_same]
  exact ⟨upd_same _ _ _, fun q other => upd_other _ _ other⟩

theorem l1Dead_freeRun {s : State} (h : s.tb.state = .freeRun) :
    s.l1Dead = { s with tb := { s.tb with lockPending := false } } := by
  rw [State.l1Dead, h]

theorem phaseDies_early {s : State} {p : Phase} {d : Nat} (deadline : s.phases[p].deadline = some d) (early : s.now < d) :
    s.phaseDies p = s := by
  refine if_neg fun h => ?_
  obtain ⟨-, e, reached, same⟩ := (expired_iff _ _).mp h
  rw [deadline, Option.some.injEq] at same
  omega

/-- A death that closes no frame. -/
theorem phaseDies_plain {s : State} {p : Phase} (live : s.phases[p].live = true)
    (due : ∃ d ≤ s.now, s.phases[p].deadline = some d) (free : p = 0 → s.tb.state = .freeRun) :
    s.phaseDies p = { s.died p with tb := if p = 0 then { s.tb with lockPending := false } else s.tb } := by
  have tb : (s.died p).tb = s.tb := by rw [died_same]
  rw [phaseDies_due live due]
  split_ifs with l1
  · rw [l1Dead_freeRun (by rw [tb]; exact free l1), tb]
  · rw [← tb]

/-- Settles O11: a phase that dies, and the loss of lock. -/
theorem phaseDiesAtDeadline : Obligations.PhaseDiesAtDeadline := by
  unfold Obligations.PhaseDiesAtDeadline
  intro s t p d running wf live deadline
  obtain ⟨number, small⟩ := numberOf_phase p
  have phases := died_phase (s.advance t) p
  refine ⟨fun due free quiet => ?_, fun due l1 locked => ?_, fun quiet early => ?_⟩
  · have plain := phaseDies_plain (s := s.advance t) live ⟨d, due, deadline⟩ free
    have same := died_same (s.advance t) p
    have filed := notice_noticed (s := { s.advance t with phases := upd s.phases p PhaseStatus.die }) wf
    have bytes := memStep_notice_noticeBytes { s.advance t with phases := upd s.phases p PhaseStatus.die } .phaseDead (numberOf p) 0
      (BitVec.ofNat 32 (s.phases[p].half.getD 0))
    have unchanged : ((s.advance t).phaseDies p).eventEnd (s.advance t) = (s.advance t).phaseDies p := by
      rw [plain]
      apply eventEnd_unchanged <;> rw [same]
      exact quiet
    rw [exec_phaseDead_end running, unchanged, plain]
    refine ⟨_, rfl, ?_, phases.1, phases.2, rfl, bytes.bytes, fun room => ?_⟩
    · rw [same]
      rfl
    · have noticed := filed room .phaseDead (number ▸ small) (show 0 < 256 by decide) (BitVec.ofNat 32 (s.phases[p].half.getD 0))
      exact ⟨noticed.entry, noticed.count, congrArg State.cause noticed.same⟩
  · subst l1
    have closing := died_closing s t 0
    have state : ((s.advance t).died 0).tb.state = .locked := by
      rw [died_same]
      exact locked
    have dies : (s.advance t).phaseDies 0 = ((s.advance t).died 0).closeFrame true 0 .freeRun (some .timebaseFree) := by
      rw [phaseDies_due (s := s.advance t) live ⟨d, due, deadline⟩, if_pos rfl, l1Dead_locked state]
    obtain ⟨c, f, h⟩ := closeFrame_closed closing true 0 .freeRun (some .timebaseFree) (s.advance t)
    obtain ⟨v, mem, now, grows⟩ := closeNotice_grows closing true 0 .freeRun .timebaseFree (s.advance t)
    have frame := h.frame
    rw [exec_phaseDead_end running, dies]
    generalize (((s.advance t).died 0).closeFrame true 0 .freeRun (some .timebaseFree)).eventEnd (s.advance t) = u at h frame grows ⊢
    have tb : ((s.advance t).died 0).tb = s.tb := by rw [died_same]; rfl
    have pub : ((s.advance t).died 0).pub = s.pub := by rw [died_same]; rfl
    have at0 := frame.phases 0
    rw [phases.1] at at0
    have inputs := frame.inputs
    rw [died_same] at inputs
    refine ⟨u, f, rfl, h.waiting, ?_, ?_, ?_, ?_, ?_, frame.short, frame.frequency, ?_, ?_, ?_, ?_, ?_, ?_, ?_, ?_, ?_, ?_, ?_,
      inputs, fun used => ?_⟩
    · rw [frame.sequence, pub]
    · rw [frame.closedSeq, frame.sequence]
    · rw [frame.length, closing.now_eq, tb]
    · rw [frame.samples, closing.samples]
    · rw [frame.frameState, tb]
    · rw [frame.tb]
    · rw [frame.tb]
    · rw [frame.tb]
      exact closing.now_eq
    · rw [frame.tb]
    · rw [frame.tb]
    · rw [frame.tb]
    · rw [at0]
      rfl
    · rw [at0]
      rfl
    · rw [at0]
      rfl
    · rw [at0]
      rfl
    · rw [at0]
      rfl
    · have sequence : f.sequence = nextSequence s.pub.closedSeq := by rw [frame.sequence, pub]
      rw [sequence]
      exact notices_stand (s := { s.advance t with phases := upd s.phases 0 PhaseStatus.die }) wf used .phaseDead .timebaseFree
        (by decide) (by decide) (by decide) (by decide) _ _ mem (now.trans closing.now_eq) grows
  · rw [exec_phaseDead_end running, phaseDies_early (s := s.advance t) deadline early, eventEnd_id (s := s.advance t) quiet]
    rfl

/-! ### O13 -/

/-- The notice of a lock stands behind the PHASE_LIVE of its crossing. -/
theorem lock_filed {s v u : State} {value : Word} (wf : MemWf s.mem) (used : logUsed s.mem + 2 ≤ 256)
    (mem : v.mem = (s.crossed 0 .rising).mem) (now : v.now = s.now) (grows : LogGrows (v.notice .timebaseLocked 1 0 value) u) :
    logEntry u.mem (if becomesLive s.phases[(0 : Phase)] s.now then s.writeCount + 1 else s.writeCount) .timebaseLocked 1 0
      s.partTime value ∧
    (becomesLive s.phases[(0 : Phase)] s.now → logEntry u.mem s.writeCount .phaseLive 1 0 s.partTime
      (BitVec.ofNat 32 ((s.phaseRecorded 0 .rising).phases[(0 : Phase)].half.getD 0))) := by
  by_cases live : becomesLive s.phases[(0 : Phase)] s.now
  · rw [if_pos live]
    rw [crossed_live live, phaseLive_eq] at mem
    obtain ⟨first, second⟩ := notices_stand (s := s.phaseRecorded 0 .rising) wf used .phaseLive .timebaseLocked (by decide)
      (by decide) (by decide) (by decide) _ _ mem now grows
    exact ⟨second, fun _ => first⟩
  · rw [if_neg live]
    rw [crossed_quiet live] at mem
    exact ⟨notice_stands wf (by omega) .timebaseLocked (by decide) (by decide) _ mem now grows, fun h => absurd h live⟩

/-- The frame just opened turns LOCKED (R9). -/
def State.openLocked (s : State) : State :=
  { s with tb := { s.tb with
      state := .locked, frameState := .locked, lockPending := false, cycleStart := s.now
      cycleP := s.phases[(0 : Phase)].cyclePeriod.getD 0, cycleTaken := if s.tb.openTaken then 1 else 0 } }

theorem lockAtOpen_eq (s : State) : s.lockAtOpen = s.openLocked.notice .timebaseLocked 1 0 s.pub.closedSeq := rfl

theorem lockAtOpen_tb (s : State) : s.lockAtOpen.tb = s.openLocked.tb := by
  rw [lockAtOpen_eq, notice_same]

/-- The event of a lock at the open instant, in its fields. -/
theorem lockAtOpen_end {s a : State} {now r : Nat} (closing : Closing s a now)
    (period : a.phases[(0 : Phase)].cyclePeriod = some (now - r)) (old : State) :
    (a.lockAtOpen.eventEnd old).tb = { s.tb with
      state := .locked, frameState := .locked, lockPending := false, cycleStart := now, cycleP := now - r
      cycleTaken := if s.tb.openTaken then 1 else 0 } ∧
    (a.lockAtOpen.eventEnd old).pub = s.pub ∧ (a.lockAtOpen.eventEnd old).phases = a.phases ∧
    sameInputs s (a.lockAtOpen.eventEnd old) := by
  have same := lockAtOpen_same a
  have tb : a.tb = { s.tb with lockPending := a.tb.lockPending } := by
    have same := congrArg State.tb closing.same
    exact same
  rw [eventEnd_fields]
  refine ⟨(lockAtOpen_tb a).trans ?_, ?_, ?_, ?_⟩
  · simp only [State.openLocked, closing.now_eq, period, Option.getD_some]
    rw [tb]
  · show a.lockAtOpen.pub = s.pub
    rw [same, closing.same]
  · show a.lockAtOpen.phases = a.phases
    rw [same]
  · show sameInputs s a.lockAtOpen
    rw [same, closing.same]
    exact ⟨⟨rfl, rfl, rfl, rfl⟩, rfl, rfl⟩

/-- With no scan due, the lock at the open instant changes the timebase alone, and files its notice. -/
theorem lockAtOpen_plain {s a : State} {t : Nat} (closing : Closing s a (max s.now t)) (quiet : s.scanDue = false) :
    a.lockAtOpen.eventEnd (s.advance t) = { s with
      now := max s.now t, phases := a.phases, tb := a.lockAtOpen.tb, mem := a.lockAtOpen.mem, cause := a.lockAtOpen.cause } ∧
    sameBytesOutside noticeBytes a.mem a.lockAtOpen.mem := by
  have same := lockAtOpen_same a
  have bytes := (memStep_notice_noticeBytes a.openLocked .timebaseLocked 1 0 a.pub.closedSeq).bytes
  rw [← lockAtOpen_eq] at bytes
  refine ⟨?_, bytes⟩
  generalize a.lockAtOpen = x at same ⊢
  have plain : x = { s with now := max s.now t, phases := a.phases, tb := x.tb, mem := x.mem, cause := x.cause } := by
    rw [same, closing.same]
  have unchanged : x.eventEnd (s.advance t) = x :=
    eventEnd_unchanged ((congrArg State.scanDue plain :).trans quiet) (congrArg State.outlets plain :)
      (congrArg State.watches plain :) (congrArg State.cycles plain :) (congrArg State.loads plain :)
      (congrArg State.shed plain :) (congrArg (fun y => y.pub.closedSeq) plain :)
  exact unchanged.trans plain

/-- Settles O13: the lock gained at a rising crossing of L1. -/
theorem lockTakenAtRisingCrossing : Obligations.LockTakenAtRisingCrossing := by
  unfold Obligations.LockTakenAtRisingCrossing
  intro s t r running wf
  dsimp only
  intro screened rising takes
  have crossed := crossed_closing s t 0 .rising
  have pending := (crossed_takesLock (s.advance t) .rising).mpr takes
  have memory := (crossed_memory (s.advance t) 0 .rising).bytes
  have period := phaseRecorded_period (s := s.advance t) rising
  have recorded : ((s.advance t).crossed 0 .rising).phases = ((s.advance t).phaseRecorded 0 .rising).phases := by rw [crossed_same]
  have crosses : (s.advance t).crossing 0 .rising = ((s.advance t).crossed 0 .rising).risingL1 :=
    (crossing_accepted (s := s.advance t) screened).trans (if_pos ⟨rfl, rfl⟩)
  have filed {v u : State} {value : Word} (used : logUsed s.mem + 2 ≤ 256) := lock_filed (s := s.advance t) (v := v) (u := u)
    (value := value) wf used
  rw [exec_zeroCrossing_end running, crosses]
  rw [← recorded] at period filed
  generalize (s.advance t).crossed 0 .rising = a at *
  have now := crossed.now_eq
  have tb : a.tb = { s.tb with lockPending := a.tb.lockPending } := by
    have same := congrArg State.tb crossed.same
    exact same
  have openInstant : a.tb.openInstant = s.tb.openInstant := by rw [tb]
  by_cases opened : s.tb.openInstant = max s.now t
  · have atOpen : a.now = a.tb.openInstant := by rw [now, openInstant, opened]
    rw [risingL1_atOpen pending atOpen]
    have locked : a.lockAtOpen = a.openLocked.notice .timebaseLocked 1 0 s.pub.closedSeq := by
      rw [lockAtOpen_eq, show a.pub = s.pub by rw [crossed.same]]
    have grows := eventEnd_grows a.lockAtOpen (s.advance t)
    have plain := lockAtOpen_plain crossed
    obtain ⟨endTb, endPub, endPhases, inputs⟩ := lockAtOpen_end crossed period (s.advance t)
    generalize a.lockAtOpen.eventEnd (s.advance t) = u at grows plain endTb endPub endPhases inputs ⊢
    rw [locked] at grows
    refine ⟨u, rfl, ?_, ?_, ?_, ?_, ?_, ?_, inputs, fun used => ?_, fun after => absurd opened (Nat.ne_of_lt after),
      fun _ quiet => ?_⟩
    · rw [endTb]
    · rw [endTb]
    · rw [endTb]
    · rw [endTb]
    · rw [endTb]
    · rw [endTb]
      exact opened
    · rw [endPub, endPhases]
      exact filed used (v := a.openLocked) rfl now grows
    · obtain ⟨same, bytes⟩ := plain quiet
      refine ⟨?_, endTb, fun b hb => ?_⟩
      · rw [same]
      · rw [same]
        exact (bytes b hb).trans (memory b hb)
  · have apart : a.now ≠ a.tb.openInstant := by rw [now, openInstant]; exact fun h => opened h.symm
    have closing := crossed.unlocking
    rw [risingL1_lock pending apart]
    obtain ⟨c, f, h⟩ := closeFrame_closed closing (decide (a.now < a.tb.openInstant + 1000000)) 0 .locked (some .timebaseLocked)
      (s.advance t)
    obtain ⟨v, mem, vnow, grows⟩ := closeNotice_grows closing (decide (a.now < a.tb.openInstant + 1000000)) 0 .locked
      .timebaseLocked (s.advance t)
    have frame := h.frame
    generalize (a.unlocking.closeFrame (decide (a.now < a.tb.openInstant + 1000000)) 0 .locked (some .timebaseLocked)).eventEnd
      (s.advance t) = u at h frame grows ⊢
    have pub : a.unlocking.pub = s.pub := by rw [closing.same]
    have half : u.phases[(0 : Phase)].half = a.phases[(0 : Phase)].half := by rw [frame.phases]; rfl
    have inputs := frame.inputs
    rw [closing.same] at inputs
    have sequence : f.sequence = nextSequence s.pub.closedSeq := by rw [frame.sequence, pub]
    have closedSeq : u.pub.closedSeq = nextSequence s.pub.closedSeq := by rw [frame.closedSeq, pub]
    have unlocked : a.unlocking.tb.openInstant = s.tb.openInstant := openInstant
    refine ⟨u, rfl, ?_, ?_, ?_, ?_, ?_, ?_, inputs, fun used => ?_, fun _ => ⟨?_, ?_, ?_, f, h.waiting, sequence, ?_, ?_, ?_, ?_,
      frame.frequency, ?_⟩, fun at_open => absurd at_open opened⟩
    · rw [frame.tb]
    · rw [frame.tb]
    · rw [frame.tb]
      rfl
    · rw [frame.tb]
      exact now
    · rw [frame.tb]
      show a.phases[(0 : Phase)].cyclePeriod.getD 0 = _
      rw [period]
      rfl
    · rw [frame.tb]
      exact now
    · rw [closedSeq, half]
      exact filed used mem (vnow.trans now) grows
    · rw [frame.tb]
    · rw [frame.tb]
    · rw [frame.tb]
    · rw [closedSeq, sequence]
    · rw [frame.length, closing.now_eq, unlocked]
    · rw [frame.samples, closing.samples]
    · rw [frame.short, now, openInstant]
    · rw [frame.frameState]
      show a.tb.frameState = _
      rw [tb]

end Sys2Proof.Machine
end

section
/-! PROOF. The energy latch copy at a close, and the answers to the counters cleared (R34, R47). -/
namespace Sys2Proof.Machine

open Sys2Proof.Safety

/-! ### The latch area (R47) -/

/-- The energy counters of an outlet in the latch area, as words. -/
def counterWords (e : Nat) : List Nat := [e % 2 ^ 32, e / 2 ^ 32]

theorem writeLatch_word {m : Mem} (wf : MemWf m) (seq stamp : Word) (v : Vector MeterOutlet 48) {i w : Nat}
    (h : ([seq.toNat, stamp.toNat] ++ (v.toList.map fun x => counterWords x.energy).flatten)[i]? = some w) :
    readWord (writeLatch m seq stamp (v.toList.map (·.energy))) (0x2B00 + 4 * i) = BitVec.ofNat 32 w := by
  obtain ⟨hi, rfl⟩ := List.getElem?_eq_some_iff.mp h
  have same : (v.toList.map (·.energy)).map (fun e => [e % 2 ^ 32, e / 2 ^ 32]) = v.toList.map fun x => counterWords x.energy := by
    rw [List.map_map]
    rfl
  rw [writeLatch, same]
  exact readWord_writeWords m 0x2B00 _ i hi wf

/-- The latch area holds the closed frame's number, the part time and the counters. -/
structure LatchShows (m : Mem) (seq stamp : Word) (v : Vector MeterOutlet 48) : Prop where
  state : readWord m 0x20 = 2
  sequence : readWord m 0x2B00 = seq
  stamp : readWord m 0x2B04 = stamp
  counters : ∀ k : OutletIx, readWord m (0x2B08 + 8 * k.val) = BitVec.ofNat 32 (v[k].energy % 2 ^ 32) ∧
    readWord m (0x2B0C + 8 * k.val) = BitVec.ofNat 32 (v[k].energy / 2 ^ 32)

theorem latched_shows {s : State} (wf : MemWf s.mem) (pending : s.pub.latch = .pending) (seq : Word) :
    LatchShows (s.latched seq).mem seq s.partTime s.meter := by
  have length (x : MeterOutlet) : (counterWords x.energy).length = 2 := rfl
  have words := fun i w => writeLatch_word wf seq s.partTime s.meter (i := i) (w := w)
  have wf' : MemWf (writeLatch s.mem seq s.partTime (s.meter.toList.map (·.energy))) := memWf_writeWords _ _ wf
  have mem : (s.latched seq).mem = writeWord (writeLatch s.mem seq s.partTime (s.meter.toList.map (·.energy))) addrLatchState 2 := by
    rw [State.latched, if_pos pending]
  have word (a : Nat) (ha : 0x2B00 ≤ a) : readWord (s.latched seq).mem a =
      readWord (writeLatch s.mem seq s.partTime (s.meter.toList.map (·.energy))) a := by
    rw [mem]
    exact readWord_writeWord_other _ _ _ _ (.inr (by simp only [addrLatchState]; omega))
  have counter (k : OutletIx) {j : Nat} (hj : j < 2) : ([seq.toNat, s.partTime.toNat] ++
      (s.meter.toList.map fun x => counterWords x.energy).flatten)[2 + (2 * k.val + j)]? = (counterWords s.meter[k].energy)[j]? := by
    rw [List.getElem?_append_right (Nat.le_add_right 2 _)]
    simp only [List.length_cons, List.length_nil, Nat.zero_add, Nat.reduceAdd, Nat.add_sub_cancel_left]
    exact getElem?_vectorChunks length s.meter k hj
  refine ⟨?_, ?_, ?_, fun k => ⟨?_, ?_⟩⟩
  · rw [mem]
    exact readWord_writeWord_same _ _ _ wf'
  · rw [word _ (le_refl _)]
    exact (words 0 seq.toNat rfl).trans (by rw [BitVec.ofNat_toNat, BitVec.setWidth_eq])
  · rw [word _ (by decide)]
    exact (words 1 s.partTime.toNat rfl).trans (by rw [BitVec.ofNat_toNat, BitVec.setWidth_eq])
  · rw [word _ (by omega), show 0x2B08 + 8 * k.val = 0x2B00 + 4 * (2 + (2 * k.val + 0)) by omega]
    exact words _ _ (counter k (by decide))
  · rw [word _ (by omega), show 0x2B0C + 8 * k.val = 0x2B00 + 4 * (2 + (2 * k.val + 1)) by omega]
    exact words _ _ (counter k (by decide))

/-- The words of the latch lie apart from what the rest of a close writes. -/
theorem LatchShows.congr {m m' : Mem} {seq stamp : Word} {v : Vector MeterOutlet 48} (h : LatchShows m seq stamp v)
    (same : ∀ a, latchBytes a = true → readByte m' a = readByte m a) : LatchShows m' seq stamp v := by
  have word (a : Nat) (ha : a = 0x20 ∨ 0x2B00 ≤ a ∧ a + 4 ≤ 0x2C88) : readWord m' a = readWord m a :=
    readWord_congr a fun i hi => same _ (by
      rw [latchBytes, Bool.or_eq_true, within_iff, within_iff]
      simp only [addrLatchState]
      omega)
  refine ⟨(word _ (.inl rfl)).trans h.state, (word _ (by decide)).trans h.sequence, (word _ (by decide)).trans h.stamp, fun k => ?_⟩
  have hk := k.isLt
  obtain ⟨low, high⟩ := h.counters k
  exact ⟨(word _ (by omega)).trans low, (word _ (by omega)).trans high⟩

/-! ### What a close writes after the latch copy -/

/-- After the latch copy, the work of a close writes notices and results of orders alone. -/
theorem closeCounted_memory (s : State) (short : Bool) (cycleCount : Nat) (state : TimebaseState) (note : Option NoticeKind) :
    MemStep blockBytes ((s.chosen.openedAfter state note).latched (nextSequence s.pub.closedSeq)).mem
      (s.closeCounted short cycleCount state note).mem := by
  obtain ⟨s7, f, block, closed, -⟩ :=
    closeFrameIn_eq s.chosen (Config.closeOrder s.choices) short cycleCount state note
  have mem : (s.closeCounted short cycleCount state note).mem = s7.mem := (congrArg State.mem closed :)
  rw [mem]
  exact ⟨block.wf, block.bytes⟩

theorem blockBytes_latch {a : Nat} (h : latchBytes a = true) : blockBytes a = false := by
  rw [latchBytes, Bool.or_eq_true, within_iff, within_iff] at h
  simp only [addrLatchState] at h
  rw [blockBytes, Bool.or_eq_false_iff, noticeBytes, Bool.or_eq_false_iff, within_eq_false, within_eq_false, slotPartBytes, slotArea]
  simp only [addrWriteCount, Bool.and_eq_false_iff, decide_eq_false_iff_not]
  omega

theorem guardedBytes_latch {a : Nat} (h : latchBytes a = true) : guardedBytes a = false := by
  rw [latchBytes, Bool.or_eq_true, within_iff, within_iff] at h
  simp only [addrLatchState] at h
  exact within_eq_false.mpr (by omega)

/-- A take leaves the latch area. -/
theorem openedAfter_latch {s a : State} (h : SettingsKept s a) (state : TimebaseState) (note : Option NoticeKind) {b : Nat}
    (hb : latchBytes b = true) : readByte (a.openedAfter state note).mem b = readByte s.mem b := by
  have begun := (h.trans (beginClose_settingsKept a note)).mem.bytes b
  have taken : MemStep (fun a => within 0x28 4 a || noticeBytes a) (a.beginClose note).mem
      (a.beginClose note).takeIfAllowed.mem := by
    unfold State.takeIfAllowed
    split
    · exact memStep_take _
    · exact .refl _ _
  have opened : (a.openedAfter state note).mem = (a.beginClose note).takeIfAllowed.mem := rfl
  have notice := (Bool.or_eq_false_iff.mp (blockBytes_latch hb)).1
  rw [latchBytes, Bool.or_eq_true, within_iff, within_iff] at hb
  simp only [addrLatchState] at hb
  have apart : within 0x28 4 b = false := within_eq_false.mpr (by omega)
  rw [opened, taken.bytes b (by rw [apart, notice]; rfl)]
  exact begun notice

/-! ### The orders that a close finishes -/

/-- The orders of a list finish alike. -/
theorem finishOrders_finished {s : State} (wf : MemWf s.mem) {es : List SlotNo} {x : SlotNo} (hx : x ∈ es)
    (held : s.orders[x] ≠ none) (r : OrderResult) : orderFinished (es.foldl (fun s e => s.finishOrder e r) s) x r := by
  induction es generalizing s with
  | nil => cases hx
  | cons e es ih =>
    rw [List.foldl_cons]
    by_cases same : x = e
    · subst same
      obtain ⟨entry, order⟩ := Option.ne_none_iff_exists'.mp held
      have finished := orderFinished_finishOrder wf order r
      exact ((finishOrders_worked es r _).orderKept finished.1).finished finished
    · have kept := finishOrder_orderKept same s r
      refine ih ((finishOrder_block s e r).wf wf) ((List.mem_cons.mp hx).resolve_left same) ?_
      rw [kept.entry]
      exact held

/-- R47: the requester of a latch finishes DONE, the others that waited MERGED. -/
theorem latchCopy_finished {s : State} {seq : Word} (wf : MemWf (s.latched seq).mem) (pending : s.pub.latch = .pending) {e : SlotNo}
    {more : List SlotNo} (list : s.pub.latchList = e :: more) (nodup : s.pub.latchList.Nodup) :
    (s.orders[e] ≠ none → orderFinished (s.latchCopy seq) e (.plain .done none none none)) ∧
      ∀ x ∈ more, s.orders[x] ≠ none → orderFinished (s.latchCopy seq) x (.plain .merged none none none) := by
  have orders : (s.latched seq).orders = s.orders := by rw [latched_same]
  have copied : s.latchCopy seq = more.foldl (fun s e => s.finishOrder e (.plain .merged none none none))
      ((s.latched seq).finishOrder e (.plain .done none none none)) := by
    unfold State.latchCopy State.latched
    rw [if_pos pending, if_pos pending, list]
    rfl
  rw [list] at nodup
  obtain ⟨fresh, -⟩ := List.nodup_cons.mp nodup
  rw [copied, ← orders]
  refine ⟨fun held => ?_, fun x hx held => ?_⟩
  · obtain ⟨entry, order⟩ := Option.ne_none_iff_exists'.mp held
    have finished := orderFinished_finishOrder wf order (.plain .done none none none)
    exact ((finishOrders_worked more _ _).orderKept finished.1).finished finished
  · have other : x ≠ e := fun same => fresh (same ▸ hx)
    refine finishOrders_finished ((finishOrder_block _ e _).wf wf) hx ?_ _
    rw [finishOrder_orders_other other]
    exact held

/-- The latch copy leaves the orders that do not wait for it. -/
theorem latchCopy_orderKept (s : State) (seq : Word) {e : SlotNo} (h : e ∉ s.pub.latchList) :
    OrderKept e (s.latched seq) (s.latchCopy seq) := by
  unfold State.latchCopy State.latched
  split
  · dsimp only
    split
    · exact .refl e _
    · rename_i x more list
      obtain ⟨other, rest⟩ := not_or.mp (mt List.mem_cons.mpr (list ▸ h))
      exact (finishOrder_orderKept other _ _).trans
        (.foldl (fun v y hy => finishOrder_orderKept (fun same => rest (by rw [same]; exact hy)) v _) _)
  · exact .refl e s

/-! ### The members of a CLEAR_ENERGY order (R34, R176) -/

/-- The result of an order all of whose members are answered OK. -/
theorem membersResult_ok {ms : List (OutletIx × Option MemberOutcome)} (h : ∀ m ∈ ms, m.2 = some .ok) :
    membersResult ms = { OrderResult.plain .done none none none with doneSet := ms.map (·.1) } := by
  have named : ms = (ms.map (·.1)).map fun j => (j, some MemberOutcome.ok) := by
    rw [List.map_map]
    exact (List.map_id ms).symm.trans (List.map_congr_left fun m hm => Prod.ext rfl (h m hm))
  have result := membersResult_answers (ms.map (·.1)) fun _ => .ok
  rw [← named] at result
  rw [result]
  simp only [resultOf, ne_eq, not_true_eq_false, decide_false, List.filter_false, decide_true, List.filter_true, if_true, List.head?_nil,
    Option.map_none, false_and, reduceCtorEq]
  rfl

/-- The members still open, once those of `ks` are told OK, are none. -/
theorem answered_open {ms : List (OutletIx × Option MemberOutcome)} {k : OutletIx} {m : OutletIx × Option MemberOutcome}
    (h : m ∈ answered ms k .ok) : m = (k, some .ok) ∨ m ∈ ms ∧ ¬(m.1 = k ∧ m.2 = none) := by
  obtain ⟨x, hx, same⟩ := List.mem_map.mp h
  split at same
  · exact .inl same.symm
  · rename_i other
    exact .inr ⟨same ▸ hx, same ▸ other⟩

theorem answered_outlets (ms : List (OutletIx × Option MemberOutcome)) (k : OutletIx) (r : MemberOutcome) :
    (answered ms k r).map (·.1) = ms.map (·.1) := by
  rw [answered, List.map_map]
  refine List.map_congr_left fun m _ => ?_
  rw [Function.comp_apply]
  split
  · rename_i same
    exact same.1.symm
  · rfl

/-- R179: an order whose open members are all told OK finishes with all of them. -/
theorem orderReplies_finished {s : State} (wf : MemWf s.mem) {e : SlotNo} {entry : OrderEntry} (held : s.orders[e] = some entry)
    {ks : List OutletIx} (good : ∀ m ∈ entry.members, m.2 = some .ok ∨ m.2 = none ∧ m.1 ∈ ks)
    (waits : ∃ m ∈ entry.members, m.2 = none) : orderFinished (ks.foldl (fun s k => s.orderReply e k .ok) s) e
      { OrderResult.plain .done none none none with doneSet := entry.members.map (·.1) } := by
  induction ks generalizing s entry with
  | nil =>
    obtain ⟨m, hm, none⟩ := waits
    rcases good m hm with ok | ⟨-, inside⟩
    · rw [none] at ok
      cases ok
    · cases inside
  | cons k ks ih =>
    rw [List.foldl_cons]
    have later : ∀ m ∈ answered entry.members k .ok, m.2 = some .ok ∨ m.2 = none ∧ m.1 ∈ ks := fun m hm => by
      rcases answered_open hm with rfl | ⟨old, other⟩
      · exact .inl rfl
      · refine (good m old).imp id fun ⟨isOpen, inside⟩ => ⟨isOpen, ?_⟩
        exact (List.mem_cons.mp inside).resolve_left fun same => other ⟨same, isOpen⟩
    by_cases still : ∃ m ∈ answered entry.members k .ok, m.2 = none
    · rw [orderReply_open held still, ← answered_outlets entry.members k .ok]
      exact ih (s := s.setOrder e (some { entry with members := answered entry.members k .ok })) wf (setOrder_same s e _) later still
    · have all : ∀ m ∈ answered entry.members k .ok, m.2 ≠ none := fun m hm none => still ⟨m, hm, none⟩
      have finished := orderFinished_finishOrder (s := s.setOrder e (some { entry with members := answered entry.members k .ok })) wf
        (setOrder_same s e _) (membersResult (answered entry.members k .ok))
      rw [← orderReply_last held all, membersResult_ok (fun m hm => (later m hm).resolve_right fun h => all m hm h.1),
        answered_outlets] at finished
      have rest : Worked (s.orderReply e k .ok) (ks.foldl (fun s k => s.orderReply e k .ok) (s.orderReply e k .ok)) :=
        .foldl (fun s k => .reply s e k .ok) ks _
      exact (rest.orderKept finished.1).finished finished

theorem Worked.wf {s u : State} (h : Worked s u) (wf : MemWf s.mem) : MemWf u.mem := by
  induction h with
  | quiet q => exact q.mem ▸ wf
  | notice s kind subject reason value => exact (notice_block s kind subject reason value).wf wf
  | finish s e r => exact (finishOrder_block s e r).wf wf
  | reply s e k r => exact (orderReply_block s e k r).wf wf
  | trans _ _ ih ih' => exact ih' (ih wf)

/-- One order's turn in the answers to the cleared counters. -/
def State.answerClear (cleared : OutletIx → Bool) (s : State) (e : SlotNo) : State :=
  match s.orders[e] with
  | none => s
  | some entry =>
    if orderKindOf entry.fields.kind = some .clearEnergy then
      entry.members.foldl (fun s m => if cleared m.1 then s.orderReply e m.1 .ok else s) s
    else s

theorem answerClears_eq (s : State) (cleared : OutletIx → Bool) :
    s.answerClears cleared = (indices 32).foldl (State.answerClear cleared) s := rfl

theorem answerClear_worked (cleared : OutletIx → Bool) (s : State) (e : SlotNo) : Worked s (State.answerClear cleared s e) := by
  unfold State.answerClear
  split
  · exact .refl s
  · exact (Worked.foldl (fun s (m : OutletIx × Option MemberOutcome) => (Worked.reply s e m.1 .ok).ite (.refl s)) _ s).ite (.refl s)

theorem answerClear_orderKept (cleared : OutletIx → Bool) (s : State) {e j : SlotNo} (h : j ≠ e) :
    OrderKept j s (State.answerClear cleared s e) := by
  unfold State.answerClear
  split
  · exact .refl j s
  · split
    · refine .foldl (fun v m _ => ?_) s
      split
      · exact orderReply_orderKept h v m.1 .ok
      · exact .refl j v
    · exact .refl j s

/-- An order that is no CLEAR_ENERGY order is not answered. -/
theorem answerClear_other {cleared : OutletIx → Bool} {s : State} {e : SlotNo} {entry : OrderEntry} (held : s.orders[e] = some entry)
    (other : orderKindOf entry.fields.kind ≠ some .clearEnergy) : State.answerClear cleared s e = s := by
  simp only [State.answerClear, held, other, if_false]

theorem answerClear_all {cleared : OutletIx → Bool} {s : State} {e : SlotNo} {entry : OrderEntry} (held : s.orders[e] = some entry)
    (kind : orderKindOf entry.fields.kind = some .clearEnergy) (all : ∀ m ∈ entry.members, cleared m.1 = true) :
    State.answerClear cleared s e = (entry.members.map (·.1)).foldl (fun s k => s.orderReply e k .ok) s := by
  simp only [State.answerClear, held, kind, if_true]
  rw [List.foldl_map]
  exact List.foldl_ext _ _ s fun v m hm => if_pos (all m hm)

/-- R34, R176: a CLEAR_ENERGY order all of whose members are cleared finishes with all of them. -/
theorem answerClears_finished {s : State} (wf : MemWf s.mem) {cleared : OutletIx → Bool} {e : SlotNo} {entry : OrderEntry}
    (held : s.orders[e] = some entry) (kind : orderKindOf entry.fields.kind = some .clearEnergy) (some_member : entry.members ≠ [])
    (all : ∀ m ∈ entry.members, m.2 = none ∧ cleared m.1 = true) : orderFinished (s.answerClears cleared) e
      { OrderResult.plain .done none none none with doneSet := entry.members.map (·.1) } := by
  rw [answerClears_eq]
  have inside : e ∈ indices 32 := List.mem_finRange e
  generalize indices 32 = es at inside ⊢
  induction es generalizing s with
  | nil => cases inside
  | cons j es ih =>
    rw [List.foldl_cons]
    by_cases same : e = j
    · subst same
      obtain ⟨m, hm⟩ := List.exists_mem_of_ne_nil _ some_member
      have finished := orderReplies_finished wf held (ks := entry.members.map (·.1))
        (fun m hm => .inr ⟨(all m hm).1, List.mem_map_of_mem hm⟩) ⟨m, hm, (all m hm).1⟩
      rw [← answerClear_all held kind fun m hm => (all m hm).2] at finished
      have rest : Worked (State.answerClear cleared s e) (es.foldl (State.answerClear cleared) (State.answerClear cleared s e)) :=
        .foldl (answerClear_worked cleared) es _
      exact (rest.orderKept finished.1).finished finished
    · have kept := answerClear_orderKept cleared s same
      exact ih ((answerClear_worked cleared s j).wf wf) (kept.entry.trans held) ((List.mem_cons.mp inside).resolve_left same)

end Sys2Proof.Machine
end

section
/-! PROOF. The latch and the cleared counters at every close (R34, R47, R176). -/
namespace Sys2Proof.Machine

open Sys2Proof.Safety

/-- The state that opens the next frame, before the latch copy, keeps the orders, the publisher's latch and the clock. -/
theorem openedAfter_fields (s : State) (state : TimebaseState) (note : Option NoticeKind) :
    (s.openedAfter state note).now = s.now ∧ (s.openedAfter state note).orders = s.orders ∧
      (s.openedAfter state note).pub.latch = s.pub.latch ∧ (s.openedAfter state note).pub.latchList = s.pub.latchList := by
  have same := (openedAfter_same s state note).1
  exact ⟨(congrArg State.now same :), (congrArg State.orders same :), (congrArg (fun y => y.pub.latch) same :),
    (congrArg (fun y => y.pub.latchList) same :)⟩

theorem latched_pub (s : State) (seq : Word) :
    (s.pub.latch = .pending → (s.latched seq).pub.latch = .full ∧ (s.latched seq).pub.latchList = []) ∧
      (s.pub.latch ≠ .pending → s.latched seq = s) := by
  refine ⟨fun pending => ?_, fun other => if_neg other⟩
  rw [State.latched, if_pos pending]
  exact ⟨rfl, rfl⟩

section
variable {s a c u : State} {now : Nat} {state : TimebaseState} {note : Option NoticeKind} {short : Bool} {cycleCount : Nat}
  {f : FrameResult} (h : CommandClosed s now a c u state note short cycleCount f)
include h

/-- The fields with which the next frame opens, as the command found them. -/
theorem CommandClosed.opened : (a.frameAtClose.chosen.openedAfter state note).now = now ∧
    (a.frameAtClose.chosen.openedAfter state note).orders = s.orders ∧
    (a.frameAtClose.chosen.openedAfter state note).pub.latch = s.pub.latch ∧
    (a.frameAtClose.chosen.openedAfter state note).pub.latchList = s.pub.latchList := by
  obtain ⟨time, orders, latch, list⟩ := openedAfter_fields a.frameAtClose.chosen state note
  have base := frameAtClose_same a
  have same := h.closing.same
  have atClose : a.frameAtClose.chosen.now = now ∧ a.frameAtClose.chosen.orders = s.orders ∧
      a.frameAtClose.chosen.pub = s.pub := by
    refine ⟨((congrArg State.now base :)).trans h.closing.now_eq, ((congrArg State.orders base :)).trans (congrArg State.orders same :),
      ((congrArg State.pub base :)).trans (congrArg State.pub same :)⟩
  exact ⟨time.trans atClose.1, orders.trans atClose.2.1, latch.trans (congrArg Publisher.latch atClose.2.2),
    list.trans (congrArg Publisher.latchList atClose.2.2)⟩

theorem CommandClosed.openedWf (wf : MemWf s.mem) : MemWf (a.frameAtClose.chosen.openedAfter state note).mem :=
  (openedAfter_same a.frameAtClose.chosen state note).2.2.2.2.1.wf (h.closing.settings.mem.wf wf)

/-- The publisher's latch after the close. -/
theorem CommandClosed.latch :
    u.pub.latch = ((a.frameAtClose.chosen.openedAfter state note).latched (nextSequence s.pub.closedSeq)).pub.latch ∧
    u.pub.latchList = ((a.frameAtClose.chosen.openedAfter state note).latched (nextSequence s.pub.closedSeq)).pub.latchList := by
  have pub : u.pub = c.pub := (congrArg State.pub h.last.1 :)
  have seq : a.frameAtClose.chosen.pub.closedSeq = s.pub.closedSeq := by
    have base : a.frameAtClose.pub = a.pub := by rw [frameAtClose_same]
    show a.frameAtClose.pub.closedSeq = _
    rw [base, h.closing.same]
  have before := (beforeWork_fields a.frameAtClose.chosen state note).2.2.1
  rw [seq] at before
  rw [pub, h.whole.pub, before]
  exact ⟨rfl, rfl⟩

/-- The bytes of the latch after the close. -/
theorem CommandClosed.latchMemory (counted : c = a.frameAtClose.closeCounted short cycleCount state note) {b : Nat}
    (hb : latchBytes b = true) : readByte u.mem b =
      readByte ((a.frameAtClose.chosen.openedAfter state note).latched (nextSequence s.pub.closedSeq)).mem b := by
  have seq : a.frameAtClose.pub.closedSeq = s.pub.closedSeq := by
    have base : a.frameAtClose.pub = a.pub := by rw [frameAtClose_same]
    rw [base, h.closing.same]
  have memory := closeCounted_memory a.frameAtClose short cycleCount state note
  rw [← counted, seq] at memory
  rw [h.last.2.bytes b (guardedBytes_latch hb), memory.bytes b (blockBytes_latch hb)]

/-- An order that has finished before the blocks' work is done with. -/
theorem CommandClosed.finished (counted : c = a.frameAtClose.closeCounted short cycleCount state note) {e : SlotNo} {r : OrderResult}
    (done : orderFinished (a.frameAtClose.chosen.beforeWork state note) e r) : orderFinished u e r := by
  have passes := closeCounted_passes a.frameAtClose short cycleCount state note
  rw [← counted] at passes
  obtain ⟨old, rfl⟩ := h.after
  have own := ownCounted_same c a.sampleNow
  have counts : OrderKept e c (c.ownCounted a.sampleNow) := .of_same (congrArg State.orders own :) (congrArg State.mem own :)
    (congrArg State.now own :) (congrArg State.cause own :)
  exact ((passes.orders e done.1).trans (counts.trans (eventEnd_orderKept e _ old))).finished done

/-- The counters that the latch takes are those of the closed frame. -/
theorem CommandClosed.counters (k : OutletIx) :
    (a.frameAtClose.chosen.openedAfter state note).meter[k].energy = f.outlets[k].energy := by
  have frame := h.frame
  have openInstant : a.frameAtClose.tb.openInstant = a.tb.openInstant := by rw [frameAtClose_tb]
  have time : a.frameAtClose.now = a.now := by rw [frameAtClose_same]
  rw [frame.outlet k, openedAfter_meter, ← time, ← openInstant]
  rfl

end

/-- Every command that closes a frame, with the close that it makes. -/
theorem command_counted {s : State} {now : Nat} {i : Instr} (running : s.resetting = none) (closing : closesFrame s now i) :
    ∃ a c u state note short cycleCount f, exec i s = .next u ∧ CommandClosed s now a c u state note short cycleCount f ∧
      c = a.frameAtClose.closeCounted short cycleCount state note := by
  obtain ⟨a, short, cycleCount, state, note, t, run, begun⟩ := command_closes running closing
  obtain ⟨f, whole⟩ := closeCounted_whole a.frameAtClose short cycleCount state note
  exact ⟨a, _, _, state, note, short, cycleCount, f, run, ⟨begun, whole, s.advance t, by rw [closeFrame_eq]⟩, rfl⟩

/-- Settles O52: the latch copy and the answers precede the blocks' work, which leaves them. -/
theorem latchCopyAtClose : Obligations.LatchCopyAtClose := by
  unfold Obligations.LatchCopyAtClose
  intro s now i running wf closing
  obtain ⟨a, c, u, state, note, short, cycleCount, f, run, h, counted⟩ := command_counted running closing
  have frame := h.frame
  have pub : a.pub = s.pub := by rw [h.closing.same]
  have sequence : f.sequence = nextSequence s.pub.closedSeq := by rw [frame.sequence, pub]
  have seq : a.frameAtClose.chosen.pub.closedSeq = s.pub.closedSeq := by
    have base : a.frameAtClose.pub = a.pub := by rw [frameAtClose_same]
    show a.frameAtClose.pub.closedSeq = _
    rw [base, pub]
  obtain ⟨time, orders, latch, list⟩ := h.opened
  have openedWf := h.openedWf wf
  have latchEnd := h.latch
  have memory := fun b => h.latchMemory counted (b := b)
  have finished := fun e r => h.finished counted (e := e) (r := r)
  have counters := h.counters
  have kept := fun b => openedAfter_latch h.closing.settings state note (b := b)
  have before : a.frameAtClose.chosen.beforeWork state note = ((a.frameAtClose.chosen.openedAfter state note).latchCopy
      (nextSequence s.pub.closedSeq)).answerClears fun k => a.frameAtClose.chosen.meter[k].clearReq := by
    rw [← seq]
    rfl
  have cleared (k : OutletIx) : a.frameAtClose.chosen.meter[k].clearReq = s.meter[k].clearReq := by
    have meter : a.meter = s.meter := by rw [h.closing.same]
    show a.frameAtClose.meter[k].clearReq = _
    rw [frameAtClose_meter, meter]
  simp only [cleared] at before
  rw [before] at finished
  generalize a.frameAtClose.chosen.openedAfter state note = o at *
  have latchedWf := (memStep_latched o (nextSequence s.pub.closedSeq)).wf openedWf
  refine ⟨u, f, run, h.waiting, fun pending nodup => ?_, fun other => ?_, fun e entry held kind member out all => ?_⟩
  · have waits := latch.trans pending
    obtain ⟨full, empty⟩ := (latched_pub o (nextSequence s.pub.closedSeq)).1 waits
    have shows := (latched_shows openedWf waits (nextSequence s.pub.closedSeq)).congr memory
    refine ⟨latchEnd.1.trans full, latchEnd.2.trans empty, shows.state, shows.sequence.trans sequence.symm, ?_, fun k => ?_,
      fun e more split => ?_⟩
    · rw [shows.stamp, State.partTime, time]
      rfl
    · rw [← counters k]
      exact shows.counters k
    · obtain ⟨first, rest⟩ := latchCopy_finished latchedWf waits (list.trans split) (by rw [list]; exact nodup)
      rw [orders] at first rest
      have answers := answerClears_worked (o.latchCopy (nextSequence s.pub.closedSeq)) fun k => s.meter[k].clearReq
      exact ⟨fun held => finished e _ ((answers.orderKept (first held).1).finished (first held)),
        fun x hx held => finished x _ ((answers.orderKept (rest x hx held).1).finished (rest x hx held))⟩
  · have same := (latched_pub o (nextSequence s.pub.closedSeq)).2 (by rw [latch]; exact other)
    rw [same] at latchEnd memory
    refine ⟨latchEnd.1.trans latch, latchEnd.2.trans list, fun b hb => ?_⟩
    have bytes : latchBytes b = true := by
      rw [latchBytes, Bool.or_eq_true]
      exact hb
    exact (memory b bytes).trans (kept b bytes)
  · have copied := latchCopy_orderKept o (nextSequence s.pub.closedSeq) (e := e) (by rw [list]; exact out)
    have order : (o.latched (nextSequence s.pub.closedSeq)).orders[e] = some entry := by
      rw [latched_same]
      show o.orders[e] = _
      rw [orders]
      exact held
    have copyWf := (latchCopy_worked o (nextSequence s.pub.closedSeq)).wf latchedWf
    exact finished e _ (answerClears_finished copyWf (copied.entry.trans order) kind member all)

end Sys2Proof.Machine
end

section
/-! PROOF. The state in which the blocks begin their work at a close, and the work that is done from it (R115, R189). -/
namespace Sys2Proof.Machine

open Sys2Proof.Safety

/-! ### Answers and finishes -/

/-- Orders have been answered and have finished; nothing else has changed. -/
def AnswersOnly (s u : State) : Prop := u = { s with mem := u.mem, cause := u.cause, orders := u.orders }

theorem AnswersOnly.refl (s : State) : AnswersOnly s s := rfl

theorem AnswersOnly.trans {s u v : State} (h : AnswersOnly s u) (g : AnswersOnly u v) : AnswersOnly s v := by
  unfold AnswersOnly at h g ⊢
  rw [g, h]

theorem AnswersOnly.foldl {α : Type} {f : State → α → State} (h : ∀ s x, AnswersOnly s (f s x)) (l : List α) (s : State) :
    AnswersOnly s (l.foldl f s) := by
  induction l generalizing s with
  | nil => exact .refl s
  | cons x l ih => exact (h s x).trans (ih (f s x))

theorem finishOrder_answers (s : State) (e : SlotNo) (r : OrderResult) : AnswersOnly s (s.finishOrder e r) :=
  finishOrder_parts s e r

theorem orderReply_answers (s : State) (e : SlotNo) (k : OutletIx) (r : MemberOutcome) : AnswersOnly s (s.orderReply e k r) :=
  orderReply_parts s e k r

theorem latchCopy_answers (s : State) (seq : Word) : AnswersOnly (s.latched seq) (s.latchCopy seq) := by
  unfold State.latchCopy State.latched
  split
  · dsimp only
    split
    · exact .refl _
    · exact (finishOrder_answers _ _ _).trans (.foldl (fun v e => finishOrder_answers v e _) _ _)
  · exact .refl _

theorem answerClear_answers (cleared : OutletIx → Bool) (s : State) (e : SlotNo) : AnswersOnly s (State.answerClear cleared s e) := by
  unfold State.answerClear
  split
  · exact .refl s
  · split
    · refine .foldl (fun v m => ?_) _ s
      split
      · exact orderReply_answers v e _ .ok
      · exact .refl v
    · exact .refl s

theorem answerClears_answers (s : State) (cleared : OutletIx → Bool) : AnswersOnly s (s.answerClears cleared) :=
  answerClears_eq s cleared ▸ .foldl (answerClear_answers cleared) _ s

/-- An order that no counter concerns is left alone. -/
theorem answerClears_orderKept {s : State} (cleared : OutletIx → Bool) {e : SlotNo} {entry : OrderEntry}
    (held : s.orders[e] = some entry) (other : orderKindOf entry.fields.kind ≠ some .clearEnergy) :
    OrderKept e s (s.answerClears cleared) := by
  rw [answerClears_eq]
  generalize indices 32 = es
  induction es generalizing s with
  | nil => exact .refl e s
  | cons j es ih =>
    rw [List.foldl_cons]
    have first : OrderKept e s (State.answerClear cleared s j) := by
      by_cases same : e = j
      · subst same
        rw [answerClear_other held other]
        exact .refl e s
      · exact answerClear_orderKept cleared s same
    exact first.trans (ih (first.entry.trans held))

/-! ### The state of the opening -/

theorem noticeBytes_close {a : Nat} (h : noticeBytes a = true) : closeBytes a = true := by
  simp only [closeBytes, blockBytes, h, Bool.true_or]

/-- What the opening of a frame, the answers and the finishes may have changed, at the instant `now`. -/
def OpenedFields (s v : State) (now : Nat) : Prop :=
  v = { s with
    now := now, work := v.work, outlets := v.outlets, watches := v.watches, phases := v.phases, tb := v.tb
    meter := v.meter, meterV := v.meterV, pub := v.pub, choices := v.choices, mem := v.mem, cause := v.cause
    orders := v.orders }

theorem OpenedFields.of_closing {s a : State} {now : Nat} (h : Closing s a now) : OpenedFields s a now := by
  have same := h.same
  unfold OpenedFields
  generalize { s.tb with lockPending := a.tb.lockPending } = tb at same
  rw [same]

theorem OpenedFields.counted {s a b : State} {now : Nat} (h : OpenedFields s a now)
    (g : b = { a with meter := b.meter, meterV := b.meterV, tb := b.tb }) : OpenedFields s b now := by
  unfold OpenedFields at h ⊢
  rw [g, h]

theorem OpenedFields.chosen {s a : State} {now : Nat} (h : OpenedFields s a now) : OpenedFields s a.chosen now := by
  unfold OpenedFields at h ⊢
  unfold State.chosen
  rw [h]

theorem OpenedFields.opened {s a : State} {now : Nat} (h : OpenedFields s a now) (state : TimebaseState)
    (note : Option NoticeKind) : OpenedFields s (a.openedAfter state note) now := by
  have same := (openedAfter_same a state note).1
  generalize a.openedAfter state note = b at same ⊢
  unfold OpenedFields at h ⊢
  rw [same, h]

theorem OpenedFields.latched {s a : State} {now : Nat} (h : OpenedFields s a now) (seq : Word) :
    OpenedFields s (a.latched seq) now := by
  have same := latched_same a seq
  generalize a.latched seq = b at same ⊢
  unfold OpenedFields at h ⊢
  rw [same, h]

theorem OpenedFields.answers {s a b : State} {now : Nat} (h : OpenedFields s a now) (g : AnswersOnly a b) :
    OpenedFields s b now := by
  unfold OpenedFields AnswersOnly at *
  rw [g, h]

theorem beforeWork_answers (s : State) (state : TimebaseState) (note : Option NoticeKind) :
    AnswersOnly ((s.openedAfter state note).latched (nextSequence s.pub.closedSeq)) (s.beforeWork state note) :=
  (latchCopy_answers _ _).trans (answerClears_answers _ _)

theorem beforeWork_taken (s : State) (state : TimebaseState) (note : Option NoticeKind) :
    (s.beforeWork state note).work = (s.openedAfter state note).work ∧
      (s.beforeWork state note).outlets = (s.openedAfter state note).outlets ∧
      (s.beforeWork state note).watches = (s.openedAfter state note).watches := by
  have answers := beforeWork_answers s state note
  have latched := latched_same (s.openedAfter state note) (nextSequence s.pub.closedSeq)
  unfold AnswersOnly at answers
  rw [answers, latched]
  exact ⟨rfl, rfl, rfl⟩

/-- Outside the latch's list and the cleared counters, the orders are as the opening has found them. -/
theorem beforeWork_orders {s : State} (state : TimebaseState) (note : Option NoticeKind) {e : SlotNo} {entry : OrderEntry}
    (held : s.orders[e] = some entry) (out : e ∉ s.pub.latchList) (other : orderKindOf entry.fields.kind ≠ some .clearEnergy) :
    (s.beforeWork state note).orders[e] = some entry := by
  obtain ⟨-, orders, -, list⟩ := openedAfter_fields s state note
  have latched : ((s.openedAfter state note).latched (nextSequence s.pub.closedSeq)).orders = s.orders := by
    rw [latched_same]
    exact orders
  have copied := (latchCopy_orderKept (s.openedAfter state note) (nextSequence s.pub.closedSeq) (list.symm ▸ out)).entry.trans
    ((congrArg (fun o : Vector (Option OrderEntry) 32 => o[e]) latched).trans held)
  exact (answerClears_orderKept _ copied other).entry.trans copied

/-- The opening writes the bytes of a close. -/
theorem beforeWork_memory (s : State) (state : TimebaseState) (note : Option NoticeKind) :
    MemStep closeBytes s.mem (s.beforeWork state note).mem := by
  have opened := (openedAfter_same s state note).2.2.2.2.1
  have latched := memStep_latched (s.openedAfter state note) (nextSequence s.pub.closedSeq)
  exact opened.trans (latched.trans (blockStep_memStep (beforeWork_block s state note)))

section
variable {s a c u : State} {now : Nat} {state : TimebaseState} {note : Option NoticeKind} {short : Bool} {cycleCount : Nat}
  {f : FrameResult} (h : CommandClosed s now a c u state note short cycleCount f)
include h

/-- R8, R189, R47, R34: the state in which the blocks begin their work. -/
theorem CommandClosed.begins : Opened s (a.frameAtClose.chosen.beforeWork state note) now where
  same := by
    have fields := (((((OpenedFields.of_closing h.closing).counted (frameAtClose_same a)).chosen.opened state note).latched
      (nextSequence a.frameAtClose.chosen.pub.closedSeq)).answers (beforeWork_answers _ state note))
    obtain ⟨work, outlets, watches⟩ := openedAfter_settings h.closing.settings state note
    have taken := beforeWork_taken a.frameAtClose.chosen state note
    generalize a.frameAtClose.chosen.beforeWork state note = v at fields taken ⊢
    rw [← work, ← outlets, ← watches, ← taken.1, ← taken.2.1, ← taken.2.2]
    exact fields
  orders e entry held out other := by
    obtain ⟨orders, list⟩ : a.frameAtClose.chosen.orders = s.orders ∧ a.frameAtClose.chosen.pub = s.pub := by
      have frame := frameAtClose_same a
      generalize a.frameAtClose = b at frame ⊢
      rw [State.chosen, frame, h.closing.same]
      exact ⟨rfl, rfl⟩
    refine beforeWork_orders state note ?_ (list.symm ▸ out) other
    rw [orders]
    exact held
  memory := ((h.closing.settings.mem.mono fun _ => noticeBytes_close).trans
    (beforeWork_memory a.frameAtClose.chosen state note)).bytes

/-- The blocks' work is done, and the end of the event writes records alone. -/
theorem CommandClosed.done : WorkDone s.work f (a.frameAtClose.chosen.beforeWork state note) u := by
  have work : a.frameAtClose.work = s.work := by
    have base : a.frameAtClose.work = a.work := by rw [frameAtClose_same]
    rw [base, h.closing.same]
  obtain ⟨unverified, x, loads, last, control, cause, mem, branches⟩ := h.whole.done
  rw [work] at unverified last
  obtain ⟨same, records⟩ := h.last
  refine ⟨unverified, x, loads, last, ?_, ?_, fun b hb => (records.bytes b hb).trans (mem b hb), branches⟩
  · rw [same]
    exact control
  · rw [same]
    exact cause

/-- R190: the settings status word is the take's. -/
theorem CommandClosed.status (wf : MemWf s.mem) (counted : c = a.frameAtClose.closeCounted short cycleCount state note) :
    readWord u.mem 0x28 = readWord s.takeIfAllowed.mem 0x28 := by
  have taken := openedAfter_status wf h.closing.settings state note
  have latched := memStep_latched_bytes (a.frameAtClose.chosen.openedAfter state note) (nextSequence a.frameAtClose.pub.closedSeq)
  have memory := closeCounted_memory a.frameAtClose short cycleCount state note
  rw [← counted] at memory
  have outside {b : Nat} (hb : 0x28 ≤ b ∧ b < 0x2C) : latchBytes b = false ∧ blockBytes b = false ∧ guardedBytes b = false := by
    refine ⟨?_, ?_, within_eq_false.mpr (by omega)⟩
    · rw [latchBytes, Bool.or_eq_false_iff, within_eq_false, within_eq_false]
      simp only [addrLatchState]
      omega
    · rw [blockBytes, Bool.or_eq_false_iff, noticeBytes, Bool.or_eq_false_iff, within_eq_false, within_eq_false, slotPartBytes,
        slotArea]
      simp only [addrWriteCount, Bool.and_eq_false_iff, decide_eq_false_iff_not]
      omega
  refine ((h.last.2.readWord 0x28 fun i hi => (outside (by omega)).2.2).trans
    ((memory.readWord 0x28 fun i hi => (outside (by omega)).2.1).trans
      ((latched.readWord 0x28 fun i hi => (outside (by omega)).1).trans taken)))

end

/-- Every close does its work from the state of the opening. -/
theorem close_works {s : State} {now : Nat} {i : Instr} (running : s.resetting = none) (wf : MemWf s.mem) (closing : closesFrame s now i) :
    ∃ u f v, exec i s = .next u ∧ u.pub.waiting = s.pub.waiting ++ [f] ∧ Opened s v now ∧ v.phases = u.phases ∧
      u.work = v.work ∧ WorkDone s.work f v u ∧ readWord u.mem 0x28 = readWord s.takeIfAllowed.mem 0x28 := by
  obtain ⟨a, c, u, state, note, short, cycleCount, f, run, h, counted⟩ := command_counted running closing
  obtain ⟨work, phases, -, -⟩ := beforeWork_fields a.frameAtClose.chosen state note
  refine ⟨u, f, a.frameAtClose.chosen.beforeWork state note, run, h.waiting, h.begins, ?_, ?_, h.done, h.status wf counted⟩
  · have same : u.phases = c.phases := (congrArg State.phases h.last.1 :)
    rw [same, h.whole.phases, phases]
  · rw [h.work, work]
    exact (openedAfter_settings h.closing.settings state note).1.symm

end Sys2Proof.Machine
end

section
/-! PROOF. The outlet controller's turns of a close over all outlets (section 4.7, R72, R102). -/
namespace Sys2Proof.Machine

open Sys2Proof.Safety

/-! ### An outlet at the others' turns -/

/-- What no turn of another outlet changes of outlet `k`: its whole-frame marker, and whether it is in FAULT. -/
structure Marks (k : OutletIx) (s u : State) : Prop where
  whole : u.outlets[k].wholeFrame = s.outlets[k].wholeFrame
  fault : u.outlets[k].state = .fault ↔ s.outlets[k].state = .fault

theorem Marks.refl (k : OutletIx) (s : State) : Marks k s s := ⟨rfl, .rfl⟩

theorem Marks.trans {k : OutletIx} {s u v : State} (h : Marks k s u) (g : Marks k u v) : Marks k s v :=
  ⟨g.whole.trans h.whole, g.fault.trans h.fault⟩

theorem Marks.foldl {α : Type} {k : OutletIx} {f : State → α → State} (h : ∀ s x, Marks k s (f s x)) (l : List α) (s : State) :
    Marks k s (l.foldl f s) := by
  induction l generalizing s with
  | nil => exact .refl k s
  | cons x l ih => exact (h s x).trans (ih (f s x))

theorem Marks.of_outlet {k : OutletIx} {s u : State} (same : u.outlets[k] = s.outlets[k]) : Marks k s u := by
  exact ⟨by rw [same], by rw [same]⟩

theorem Only.marks {j k : OutletIx} {s u : State} (h : Only j s u) (ne : k ≠ j) : Marks k s u := .of_outlet (h.outlets k ne)

theorem Told.marks {s u : State} (h : Told s u) (k : OutletIx) : Marks k s u := by
  have outlet := h.outlet k
  exact ⟨by rw [outlet], by rw [outlet]⟩

/-- A close request leaves the marker, and ends no FAULT and brings none. -/
theorem closeByState_marks (s : State) (k j : OutletIx) (cls : ClassNo) (w : Owner) : Marks k s (s.closeByState j cls w).1 := by
  by_cases ne : k = j
  · subst ne
    have queued (state : s.outlets[k].state ≠ .fault) : Marks k s (s.enqueue k cls w) := by
      have outlet : (s.enqueue k cls w).outlets[k] =
          { s.outlets[k] with state := .awaitClose, lastChange := s.partTime, owner := some w } := by
        rw [enqueue_eq]
        exact upd_same _ _ _
      exact ⟨by rw [outlet], by rw [outlet]; exact iff_of_false OutletState.noConfusion state⟩
    have owned (o : Option Owner) : Marks k s (s.modOutlet k fun x => { x with owner := o }) := by
      have outlet : (s.modOutlet k fun x => { x with owner := o }).outlets[k] = { s.outlets[k] with owner := o } := upd_same _ _ _
      exact ⟨by rw [outlet], by rw [outlet]⟩
    have pends (v : State) (p : Option PendingReq) : Marks k v (v.modOutlet k fun x => { x with pending := p }) := by
      have outlet : (v.modOutlet k fun x => { x with pending := p }).outlets[k] = { v.outlets[k] with pending := p } := upd_same _ _ _
      exact ⟨by rw [outlet], by rw [outlet]⟩
    unfold State.closeByState
    cases state : s.outlets[k].state with
    | off => exact queued (by rw [state]; exact OutletState.noConfusion)
    | awaitClose => exact (owned _).trans (.of_outlet rfl)
    | closing => exact (owned _).trans (pends _ _)
    | opening => exact pends s _
    | resting =>
      dsimp only
      split
      · exact queued (by rw [state]; exact OutletState.noConfusion)
      · exact .refl k s
    | on | fault | unknown => exact .refl k s
  · exact (closeByState_only s j cls w).1.marks ne

theorem sendCloses_marks (k : OutletIx) (s : State) (ks : List OutletIx) (cls : ClassNo) (c : RecNo) :
    Marks k s (s.sendCloses ks cls (.cycle c)).1 := by
  unfold State.sendCloses
  generalize ([] : List Reply) = rs
  induction ks generalizing s rs with
  | nil => exact .refl k s
  | cons j ks ih =>
    have rest := ih (s := (s.closeByState j cls (.cycle c)).1) (rs ++ (s.closeByState j cls (.cycle c)).2)
    exact (closeByState_marks s k j cls (.cycle c)).trans rest

theorem abandon_marks (k : OutletIx) (s : State) (c : RecNo) (j : OutletIx) : Marks k s (s.abandon c j).1 := by
  unfold State.abandon State.enterRestoring
  dsimp only
  have noted := (modCycle_told s c fun r => r.fail j).trans (notice_told _ .cycleAbandoned c.val
    (optCode FaultKind.code s.outlets[j].faultKind) (BitVec.ofNat 32 (numberOf j)))
  exact ((noted.trans (modCycle_told _ c _)).marks k).trans ((sendCloses_marks k _ _ 0 c).trans ((testEnd_told _ c).1.marks k))

theorem cycleReply_marks (k : OutletIx) (s : State) (c : RecNo) (j : OutletIx) (d : Dir) (r : MemberOutcome) :
    Marks k s (s.cycleReply c j d r).1 := by
  rcases cycleReply_cases s c j d r with same | rests | abandons | ⟨f, ends | changes⟩
  · rw [same]
    exact .refl k s
  · rw [rests]
    exact (testResting_told s c).1.marks k
  · rw [abandons]
    exact abandon_marks k s c j
  · rw [ends]
    exact ((modCycle_told s c f).trans (testEnd_told _ c).1).marks k
  · rw [changes]
    exact (modCycle_told s c f).marks k

theorem deliverOne_marks {fuel : Nat} {k : OutletIx} (later : ∀ (s : State) (rs : List Reply), Marks k s (deliver fuel rs s))
    (s : State) (r : Reply) : Marks k s (deliverOne fuel s r) := by
  unfold deliverOne
  cases r.owner with
  | order e => exact (orderReply_told s e _ _).marks k
  | shed b => exact .refl k s
  | restore b => exact (restoreReply_told s b _ _).marks k
  | cycle c => exact (cycleReply_marks k s c r.outlet r.dir r.outcome).trans (later _ _)

theorem deliver_marks (fuel : Nat) (k : OutletIx) (rs : List Reply) (s : State) : Marks k s (deliver fuel rs s) := by
  induction fuel generalizing rs s with
  | zero => exact .refl k s
  | succ fuel ih =>
    rw [deliver_succ]
    exact .foldl (deliverOne_marks fun s rs => ih rs s) rs s

/-! ### One turn -/

theorem faultAtClose_marks {k j : OutletIx} (ne : k ≠ j) (s : State) (kind : FaultKind) (seq : Word) :
    Marks k s (s.faultAtClose j kind seq) :=
  ((enterFault_only s j kind).marks ne).trans ((deliver_marks 18 k _ _).trans ((notice_told _ _ _ _ _).marks k))

theorem resolveUnverified_marks {k j : OutletIx} (ne : k ≠ j) (s : State) (seq : Word) : Marks k s (s.resolveUnverified j seq) := by
  unfold State.resolveUnverified
  split
  · exact .refl k s
  · split
    · exact (modOutlet_only s j _).marks ne
    · exact faultAtClose_marks ne s _ seq

theorem supervise_marks {k j : OutletIx} (ne : k ≠ j) (s : State) (usable leaks : Bool) (seq : Word) :
    Marks k s (s.supervise j usable leaks seq) := by
  have changed (f : Outlet → Outlet) := (modOutlet_only s j f).marks ne
  unfold State.supervise
  dsimp only
  split
  · split
    · exact changed _
    · split
      · exact (changed _).trans (faultAtClose_marks ne _ _ seq)
      · exact changed _
  · split
    · exact changed _
    · split
      · exact (changed _).trans (faultAtClose_marks ne _ _ seq)
      · exact changed _
  · exact changed _

theorem discover_only (s : State) (k : OutletIx) : Only k s (s.discover k) := by
  unfold State.discover
  dsimp only
  split
  · exact (arriveOn_only s k).trans (modOutlet_only _ k _)
  · exact (enter_only s k _).trans (modOutlet_only _ k _)

theorem outletWork_marks {k j : OutletIx} (ne : k ≠ j) (s : State) (closed : Settings) (res : Vector OutletResult 48) (seq : Word) :
    Marks k s (s.outletWork closed res seq j) := by
  unfold State.outletWork
  dsimp only
  have found : Marks k s (if s.outlets[j].state = .unknown ∧ s.usable (phaseOfBranch closed.outlets[j].branch) = true then
      s.discover j else s) := by
    split
    · exact (discover_only s j).marks ne
    · exact .refl k s
  refine found.trans ?_
  generalize (if s.outlets[j].state = .unknown ∧ s.usable (phaseOfBranch closed.outlets[j].branch) = true then
    s.discover j else s) = s1
  have resolved : Marks k s1 (if s1.usable (phaseOfBranch closed.outlets[j].branch) = true then s1.resolveUnverified j seq else s1) := by
    split
    · exact resolveUnverified_marks ne s1 seq
    · exact .refl k s1
  exact resolved.trans ((supervise_marks ne _ _ _ seq).trans ((modOutlet_only _ j _).marks ne))

/-! ### All turns -/

section
variable (closed : Settings) (res : Vector OutletResult 48) (seq : Word)

/-- One turn, with the outlets whose closed frame was a whole ON frame. -/
def State.outletTurn (a : State × List OutletIx) (k : OutletIx) : State × List OutletIx :=
  (a.1.outletWork closed res seq k,
    if a.1.outlets[k].wholeFrame && (a.1.outletWork closed res seq k).outlets[k].state != .fault then a.2 ++ [k] else a.2)

theorem outletTurns_fst (l : List OutletIx) (a : State × List OutletIx) :
    (l.foldl (State.outletTurn closed res seq) a).1 = l.foldl (fun x k => x.outletWork closed res seq k) a.1 := by
  induction l generalizing a with
  | nil => rfl
  | cons k l ih => exact ih _

/-- An outlet without a turn left is listed or not, and keeps its marks. -/
theorem outletTurns_out {k : OutletIx} {l : List OutletIx} (out : k ∉ l) (a : State × List OutletIx) :
    Marks k a.1 (l.foldl (State.outletTurn closed res seq) a).1 ∧
      (k ∈ (l.foldl (State.outletTurn closed res seq) a).2 ↔ k ∈ a.2) := by
  induction l generalizing a with
  | nil => exact ⟨.refl k a.1, .rfl⟩
  | cons j l ih =>
    obtain ⟨ne, out⟩ := not_or.mp (mt List.mem_cons.mpr out)
    obtain ⟨marks, listed⟩ := ih out (State.outletTurn closed res seq a j)
    refine ⟨(outletWork_marks ne a.1 closed res seq).trans marks, listed.trans ?_⟩
    unfold State.outletTurn
    dsimp only
    split
    · rw [List.mem_append, List.mem_singleton]
      exact or_iff_left ne
    · exact .rfl

/-- R72: an outlet is listed at its turn, by the marker that the turn has found and the state that it leaves. -/
theorem outletTurns_mem {k : OutletIx} {l : List OutletIx} (member : k ∈ l) (nodup : l.Nodup) {a : State × List OutletIx}
    (unlisted : k ∉ a.2) : k ∈ (l.foldl (State.outletTurn closed res seq) a).2 ↔
      a.1.outlets[k].wholeFrame = true ∧ (l.foldl (State.outletTurn closed res seq) a).1.outlets[k].state ≠ .fault := by
  induction l generalizing a with
  | nil => cases member
  | cons j l ih =>
    obtain ⟨out, nodup⟩ := List.nodup_cons.mp nodup
    rw [List.foldl_cons]
    by_cases here : k = j
    · subst here
      obtain ⟨marks, listed⟩ := outletTurns_out closed res seq out (State.outletTurn closed res seq a k)
      rw [listed, Ne, marks.fault]
      unfold State.outletTurn
      dsimp only
      cases a.1.outlets[k].wholeFrame <;> cases (a.1.outletWork closed res seq k).outlets[k].state <;> simp [unlisted]
    · have later := (List.mem_cons.mp member).resolve_left here
      have marks := outletWork_marks here a.1 closed res seq
      rw [ih later nodup, ← marks.whole]
      · rfl
      · unfold State.outletTurn
        dsimp only
        split
        · rw [List.mem_append, List.mem_singleton]
          exact not_or.mpr ⟨unlisted, here⟩
        · exact unlisted

end

theorem outletsWork_eq (s : State) (closed : Settings) (res : Vector OutletResult 48) (seq : Word) :
    s.outletsWork closed res seq = (indices 48).foldl (State.outletTurn closed res seq) (s, []) := rfl

/-- Section 4.7: the turns of the outlets, in ascending number. -/
theorem outletsWork_fst (s : State) (closed : Settings) (res : Vector OutletResult 48) (seq : Word) :
    (s.outletsWork closed res seq).1 = (indices 48).foldl (fun x k => x.outletWork closed res seq k) s := by
  rw [outletsWork_eq]
  exact outletTurns_fst closed res seq _ _

/-- R72, R102: the outlets handed to the close scheduler. -/
theorem outletsWork_whole (s : State) (closed : Settings) (res : Vector OutletResult 48) (seq : Word) (k : OutletIx) :
    k ∈ (s.outletsWork closed res seq).2 ↔
      s.outlets[k].wholeFrame = true ∧ (s.outletsWork closed res seq).1.outlets[k].state ≠ .fault := by
  rw [outletsWork_eq]
  exact outletTurns_mem closed res seq (List.mem_finRange k) (List.nodup_finRange 48) (List.not_mem_nil)

end Sys2Proof.Machine
end

section
/-! PROOF. A fault that a close finds (R68, R69, R93, R94). -/
namespace Sys2Proof.Machine

open Sys2Proof.Safety

/-! ### FAULTED at the owners of an outlet of no record -/

/-- The owners of `rs` one after another. -/
theorem faulted_all {k : OutletIx} {rs : List Reply} (all : ∀ r ∈ rs, r.outlet = k ∧ r.outcome = .faulted) {x : State}
    (wf : MemWf x.mem) (out : ∀ c : RecNo, k ∉ x.cycles[c].participants) {y : State}
    (hy : y = rs.foldl (fun s r => s.tell r.owner r.outlet r.dir r.outcome) x) :
    y = { x with shed := y.shed, orders := y.orders, mem := y.mem, cause := y.cause } ∧
      ∀ e, (∃ r ∈ rs, r.owner = .order e) → orderAnswered x y e k .faulted := by
  induction rs generalizing x with
  | nil =>
    subst hy
    exact ⟨rfl, fun e ⟨_, h, _⟩ => nomatch h⟩
  | cons a rs ih =>
    obtain ⟨⟨outlet, outcome⟩, rest⟩ := List.forall_mem_cons.mp all
    rw [List.foldl_cons, outlet, outcome] at hy
    have first := (tell_outside x (w := a.owner) (fun c _ => out c) a.dir .faulted).1
    have kept := (tell_outside x (w := a.owner) (fun c _ => out c) a.dir .faulted).2.1
    have wfZ := (tell_block x a.owner k a.dir .faulted).wf wf
    have own (e : SlotNo) (h : a.owner = .order e) := h ▸ tell_answered wf e k a.dir .faulted
    generalize x.tell a.owner k a.dir .faulted = z at *
    have outZ (c : RecNo) : k ∉ z.cycles[c].participants := by
      rw [first]
      exact out c
    obtain ⟨same, told⟩ := ih rest wfZ outZ hy
    refine ⟨by rw [same, first], fun e ⟨r, hr, he⟩ => ?_⟩
    by_cases here : a.owner = .order e
    · rw [hy]
      refine (List.foldlRecOn (motive := fun v => orderAnswered x v e k .faulted ∧
        ∀ c : RecNo, k ∉ v.cycles[c].participants) rs _ ⟨own e here, outZ⟩ fun v ⟨answered, outV⟩ r hr => ?_).1
      obtain ⟨outlet, outcome⟩ := rest r hr
      rw [outlet, outcome]
      refine ⟨tell_keepsAnswer answered outV _ _ _, ?_⟩
      rw [(tell_outside v (fun c _ => outV c) r.dir .faulted).1]
      exact outV
    · rcases List.mem_cons.mp hr with rfl | hr
      · exact absurd he here
      · exact (kept e here).before (told e ⟨r, hr, he⟩)

/-- Every outcome of an entry into FAULT is FAULTED of its outlet. -/
theorem enterFault_outcomes (s : State) (k : OutletIx) (kind : FaultKind) :
    ∀ r ∈ (s.enterFault k kind).2, r.outlet = k ∧ r.outcome = .faulted := by
  have single {r a : Reply} (h : r ∈ [a]) (ha : a.outlet = k ∧ a.outcome = .faulted) : r.outlet = k ∧ r.outcome = .faulted :=
    (List.mem_singleton.mp h).symm ▸ ha
  intro r hr
  unfold State.enterFault at hr
  dsimp only at hr
  rcases List.mem_append.mp hr with hr | hr
  · rcases List.mem_append.mp hr with hr | hr
    · unfold State.ownerReply at hr
      split at hr
      · cases hr
      · exact single hr ⟨rfl, rfl⟩
    · unfold State.pendingReply at hr
      split at hr
      · cases hr
      · exact single hr ⟨rfl, rfl⟩
  · split at hr
    · cases hr
    · exact single hr ⟨rfl, rfl⟩

theorem enterFault_owner {s : State} {k : OutletIx} {w : Owner} (owner : s.outlets[k].owner = some w) (kind : FaultKind) :
    ∃ r ∈ (s.enterFault k kind).2, r.owner = w := by
  refine ⟨faultReply s k w, ?_, rfl⟩
  unfold State.enterFault
  dsimp only
  rw [ownerReply_faulted owner, List.append_assoc]
  exact List.mem_append_left _ (List.mem_singleton_self _)

/-! ### The fault -/

/-- What a fault found at a close leaves, for the outlet as it stood before. -/
structure FaultFound (s u : State) (k : OutletIx) (kind : FaultKind) (seq : Word) : Prop where
  outlet : u.outlets[k] = { s.outlets[k] with
    state := .fault, lastChange := s.partTime, faultKind := some kind, unverified := none, wholeFrame := false, owner := none
    pending := none, cycle := u.outlets[k].cycle }
  unlisted : Unlisted u k
  unreserved : Unreserved u k
  filed : u.logFull = false → logEntry u.mem (u.writeCount - 1) .relayFault (k.val + 1) kind.code s.partTime seq
  alone : (∀ c : RecNo, k ∉ s.cycles[c].participants) → u.cycles = s.cycles ∧
    (∀ j : OutletIx, j ≠ k → u.outlets[j] = s.outlets[j]) ∧
    ∀ e, s.outlets[k].owner = some (.order e) → orderAnswered s u e k .faulted

theorem enterFault_outlet (s : State) (k : OutletIx) (kind : FaultKind) : (s.enterFault k kind).1.outlets[k] =
    { s.outlets[k] with
      state := .fault, lastChange := s.partTime, faultKind := some kind, unverified := none, wholeFrame := false, owner := none
      pending := none } :=
  (congrArg (·[k]) (enterFault_outlets s k kind)).trans (faulted_outlet s k kind)

/-- A fault of an outlet of no record reaches no other outlet and no record, and tells the order that owned it. -/
theorem settleFault_alone {s : State} {k : OutletIx} (wf : MemWf s.mem) (kind : FaultKind)
    (out : ∀ c : RecNo, k ∉ s.cycles[c].participants) {z : State} (hz : z = settle (s.enterFault k kind)) :
    z.cycles = s.cycles ∧ (∀ j : OutletIx, j ≠ k → z.outlets[j] = s.outlets[j]) ∧
      ∀ e, s.outlets[k].owner = some (.order e) → orderAnswered s z e k .faulted := by
  have same := enterFault_same s k kind
  have only := enterFault_only s k kind
  have outcomes := enterFault_outcomes s k kind
  have owner {w : Owner} (h : s.outlets[k].owner = some w) := enterFault_owner h kind
  rw [settle_foldl] at hz
  generalize (s.enterFault k kind).1 = y at *
  have wfY : MemWf y.mem := by rw [same]; exact wf
  obtain ⟨told, answered⟩ := faulted_all outcomes wfY (fun c => by rw [same]; exact out c) hz
  refine ⟨by rw [told, same], fun j hj => ?_, fun e h => ?_⟩
  · rw [told]
    exact only.outlets j hj
  · have kept : OrderKept e s y := .of_same (by rw [same]) (by rw [same]) (by rw [same]) (by rw [same])
    exact kept.before (answered e (owner h))

theorem faultKind_code_lt (kind : FaultKind) : kind.code < 256 := by
  cases kind <;> decide

theorem faultAtClose_found {s : State} (wf : MemWf s.mem) (k : OutletIx) (kind : FaultKind) (seq : Word) :
    FaultFound s (s.faultAtClose k kind seq) k kind seq := by
  unfold State.faultAtClose
  have entered := enterFault_outlet s k kind
  obtain ⟨unreserved, unlisted⟩ := enterFault_clear s k kind
  have aside := (deliver_aside 18 (s.enterFault k kind).2 (s := (s.enterFault k kind).1) (k := k) (by rw [entered])).1
  have block : BlockStep s (settle (s.enterFault k kind)) := settle_block (enterFault_block _ _ _)
  have alone := settleFault_alone wf kind (k := k) (z := settle (s.enterFault k kind))
  have settled : settle (s.enterFault k kind) = deliver 18 (s.enterFault k kind).2 (s.enterFault k kind).1 := rfl
  rw [← settled] at aside
  generalize settle (s.enterFault k kind) = z at *
  have time : z.partTime = s.partTime := by rw [State.partTime, block.now]; rfl
  have latest := notice_latest (block.wf wf) .relayFault (subject := numberOf k) (reason := kind.code)
    ((numberOf_outlet_lt k).trans (by decide)) (faultKind_code_lt kind) seq
  have keeps (e : SlotNo) := notice_orderKept e z .relayFault (numberOf k) kind.code seq
  have noted := notice_same z .relayFault (numberOf k) kind.code seq
  generalize z.notice .relayFault (numberOf k) kind.code seq = u at *
  have outlets : u.outlets = z.outlets := by rw [noted]
  have cycles : u.cycles = z.cycles := by rw [noted]
  refine ⟨?_, ?_, ?_, fun room => ?_, fun out => ?_⟩
  · rw [outlets, aside.outlet, entered]
  · have listed := aside.queue unlisted
    unfold Unlisted
    rw [noted]
    exact listed
  · intro b r hr same
    rw [noted] at hr
    exact unreserved b r ((aside.loads b r same).mp hr) same
  · exact time ▸ latest room
  · obtain ⟨records, others, answered⟩ := alone out rfl
    refine ⟨cycles.trans records, fun j hj => ?_, fun e h => (keeps e).answered (answered e h)⟩
    rw [outlets]
    exact others j hj

/-! ### What a close shows of a fault -/

/-- The fault `kind` of outlet `k` that the outlet controller has found at a close of frame `seq`. -/
def FaultShown (s u : State) (k : OutletIx) (kind : FaultKind) (seq : Word) : Prop :=
  u.outlets[k].state = .fault ∧ u.outlets[k].faultKind = some kind ∧ u.outlets[k].owner = none ∧
  u.outlets[k].pending = none ∧ u.outlets[k].unverified = none ∧ u.outlets[k].drop = false ∧ u.outlets[k].weld = false ∧
  u.outlets[k].shedMark = s.outlets[k].shedMark ∧ u.outlets[k].lastChange = s.partTime ∧
  (∀ e ∈ u.queue, e.outlet ≠ k) ∧ (∀ b : Branch, ∀ r ∈ u.loads[b].reservations, r.1 ≠ k) ∧
  (u.logFull = false → logEntry u.mem (u.writeCount - 1) .relayFault (k.val + 1) kind.code s.partTime seq) ∧
  ((∀ c : RecNo, k ∉ s.cycles[c].participants) → u.cycles = s.cycles ∧
    (∀ j : OutletIx, j ≠ k → u.outlets[j] = s.outlets[j]) ∧
    ∀ e, s.outlets[k].owner = some (.order e) → orderAnswered s u e k .faulted)

/-- The supervision's counts, and the frame's marks, of an outlet in FAULT. -/
def Outlet.tidied (o : Outlet) (whole : Bool) (peak : Option Nat) (seen : Bool) : Outlet :=
  { o with drop := false, weld := false, wholeFrame := whole, peakOn := peak, peakSeen := seen }

/-- A fault found behind a change `f` of the outlet's counts, and followed by its marks, is shown. -/
theorem FaultFound.shown {s w u : State} {k : OutletIx} {kind : FaultKind} {seq : Word} {f : Outlet → Outlet}
    (found : FaultFound (s.modOutlet k f) w k kind seq)
    (keeps : (f s.outlets[k]).shedMark = s.outlets[k].shedMark ∧ (f s.outlets[k]).owner = s.outlets[k].owner)
    {whole : Bool} {peak : Option Nat} {seen : Bool} {g : Outlet → Outlet} (after : u = w.modOutlet k g)
    (tidied : g w.outlets[k] = w.outlets[k].tidied whole peak seen) : FaultShown s u k kind seq := by
  subst after
  have before : (s.modOutlet k f).outlets[k] = f s.outlets[k] := upd_same _ _ _
  have own : (w.modOutlet k g).outlets[k] = w.outlets[k].tidied whole peak seen := (upd_same _ _ _).trans tidied
  have outlet := found.outlet
  rw [before] at outlet
  unfold FaultShown
  rw [own]
  unfold Outlet.tidied
  dsimp only
  refine ⟨by rw [outlet], by rw [outlet], by rw [outlet], by rw [outlet], by rw [outlet], rfl, rfl, ?_, by rw [outlet]; rfl,
    found.unlisted, found.unreserved, found.filed, fun out => ?_⟩
  · rw [outlet]
    exact keeps.1
  · obtain ⟨cycles, others, answered⟩ := found.alone out
    refine ⟨cycles, fun j hj => (upd_other _ _ hj).trans ((others j hj).trans (upd_other _ _ hj)), fun e h => ?_⟩
    exact answered e (by rw [before, keeps.2]; exact h)

end Sys2Proof.Machine
end

section
/-! PROOF. The outlet controller's turn of one outlet at a close (R69, R70, R72, R73, R92 to R94). -/
namespace Sys2Proof.Machine

open Sys2Proof.Safety

/-! ### Turns that fault nothing -/

/-- Outlet `k` has changed, and its places in shed lists and rounds. -/
def Calm (k : OutletIx) (s u : State) : Prop :=
  u = { s with outlets := u.outlets, shed := u.shed } ∧ ∀ j : OutletIx, j ≠ k → u.outlets[j] = s.outlets[j]

theorem Calm.refl (k : OutletIx) (s : State) : Calm k s s := ⟨rfl, fun _ _ => rfl⟩

theorem Calm.trans {k : OutletIx} {s u v : State} (h : Calm k s u) (g : Calm k u v) : Calm k s v :=
  ⟨by rw [g.1, h.1], fun j hj => (g.2 j hj).trans (h.2 j hj)⟩

theorem modOutlet_calm (s : State) (k : OutletIx) (f : Outlet → Outlet) : Calm k s (s.modOutlet k f) :=
  ⟨rfl, fun _ hj => upd_other _ _ hj⟩

theorem modOutlet_outlet (s : State) (k : OutletIx) (f : Outlet → Outlet) : (s.modOutlet k f).outlets[k] = f s.outlets[k] :=
  upd_same _ _ _

theorem modOutlet_twice (s : State) (k : OutletIx) (f g : Outlet → Outlet) :
    (s.modOutlet k f).modOutlet k g = s.modOutlet k fun o => g (f o) := by
  simp only [State.modOutlet]
  rw [upd_comp]

/-! ### Discovery (R70) -/

/-- R70: an UNKNOWN outlet as its sense shows it. -/
def Outlet.discovered (o : Outlet) (sense : Bool) (stamp : Word) : Outlet :=
  { o with
    state := if sense then .on else .off, lastChange := stamp, peakSeen := o.peakSeen && !sense
    shedMark := o.shedMark && !sense, unverified := none, faultKind := none, owner := none, pending := none }

theorem discover_calm (s : State) (k : OutletIx) : Calm k s (s.discover k) := by
  have marked (v : State) : Calm k v (v.clearMark k) := ⟨rfl, fun j hj => (clearMark_only v k).outlets j hj⟩
  unfold State.discover
  dsimp only
  split
  · exact ((modOutlet_calm s k _).trans ((modOutlet_calm _ k _).trans (marked _))).trans (modOutlet_calm _ k _)
  · exact (modOutlet_calm s k _).trans (modOutlet_calm _ k _)

theorem discover_outlet (s : State) (k : OutletIx) :
    (s.discover k).outlets[k] = s.outlets[k].discovered s.sense[k].level s.partTime := by
  unfold State.discover Outlet.discovered
  dsimp only
  rw [modOutlet_outlet]
  cases s.sense[k].level with
  | true =>
    have arrived : (s.arriveOn k).outlets[k] =
        { s.outlets[k] with state := .on, lastChange := s.partTime, peakSeen := false, shedMark := false } := by
      rw [State.arriveOn, clearMark_outlet, modOutlet_outlet, State.enter, modOutlet_outlet]
    simp [arrived]
  | false =>
    have entered : (s.enter k .off).outlets[k] = { s.outlets[k] with state := .off, lastChange := s.partTime } :=
      modOutlet_outlet s k _
    simp [entered]

/-! ### Supervision (R92 to R94) -/

/-- R92: the counts of contradicting frames. -/
def Outlet.supervised (o : Outlet) (drop weld : Bool) : Outlet := { o with drop := drop, weld := weld }

section
variable {s : State} {k : OutletIx} (leaks : Bool) (seq : Word)

theorem supervise_on (state : s.outlets[k].state = .on) : s.supervise k true leaks seq =
    if s.sense[k].level then s.modOutlet k (·.supervised false false)
    else if s.outlets[k].drop then (s.modOutlet k (·.supervised false false)).faultAtClose k .dropped seq
    else s.modOutlet k (·.supervised true false) := by
  simp only [State.supervise, state]
  rfl

theorem supervise_off (state : s.outlets[k].state = .off) : s.supervise k true leaks seq =
    if !(s.sense[k].level || leaks) then s.modOutlet k (·.supervised false false)
    else if s.outlets[k].weld then (s.modOutlet k (·.supervised false false)).faultAtClose k .welded seq
    else s.modOutlet k (·.supervised false true) := by
  simp only [State.supervise, state]
  rfl

theorem supervise_idle {usable : Bool} (idle : usable = false ∨ s.outlets[k].state ≠ .on ∧ s.outlets[k].state ≠ .off) :
    s.supervise k usable leaks seq = s.modOutlet k (·.supervised false false) := by
  unfold State.supervise
  dsimp only
  split
  case h_1 on => exact absurd on (idle.resolve_left Bool.noConfusion).1
  case h_2 off => exact absurd off (idle.resolve_left Bool.noConfusion).2
  case h_3 => rfl

end

/-- R92 to R94, R72, R73: the supervision, and the marks for the frame that opens. -/
def State.judged (s : State) (k : OutletIx) (usable leaks : Bool) (irms : Nat) (seq : Word) : State :=
  (s.supervise k usable leaks seq).modOutlet k fun o => o.endFrame irms

/-- The turn, by the state of the outlet at its resolution and its supervision. -/
theorem outletWork_eq (s : State) (closed : Settings) (res : Vector OutletResult 48) (seq : Word) (k : OutletIx) :
    ∃ s1 s2, s.outletWork closed res seq k = s2.judged k (s.usable (phaseOfBranch closed.outlets[k].branch))
        (closed.strip.leakLevel ≤ res[k].irms) res[k].irms seq ∧
      s1 = (if s.outlets[k].state = .unknown ∧ s.usable (phaseOfBranch closed.outlets[k].branch) = true then s.discover k else s) ∧
      s2 = if s.usable (phaseOfBranch closed.outlets[k].branch) = true then s1.resolveUnverified k seq else s1 := by
  obtain ⟨s1, h1⟩ : ∃ s1, s1 = if s.outlets[k].state = .unknown ∧ s.usable (phaseOfBranch closed.outlets[k].branch) = true
      then s.discover k else s := ⟨_, rfl⟩
  have phases1 : s1.phases = s.phases := by
    rw [h1]
    split
    · exact (discover_block s k).phases
    · rfl
  have usable1 (p : Phase) : s1.usable p = s.usable p := by rw [State.usable, phases1]; rfl
  obtain ⟨s2, h2⟩ : ∃ s2, s2 = if s.usable (phaseOfBranch closed.outlets[k].branch) = true then s1.resolveUnverified k seq else s1 :=
    ⟨_, rfl⟩
  have phases2 : s2.phases = s.phases := by
    rw [h2]
    split
    · exact (resolveUnverified_block s1 k seq).phases.trans phases1
    · exact phases1
  have usable2 (p : Phase) : s2.usable p = s.usable p := by rw [State.usable, phases2]; rfl
  refine ⟨s1, s2, ?_, h1, h2⟩
  unfold State.outletWork State.judged
  dsimp only
  rw [← h1, usable1, ← h2, usable2]

/-- A supervision that finds no fault. -/
theorem judged_calm {s : State} {k : OutletIx} {usable leaks drop weld : Bool} {irms : Nat} {seq : Word}
    (h : s.supervise k usable leaks seq = s.modOutlet k (·.supervised drop weld)) :
    Calm k s (s.judged k usable leaks irms seq) ∧
      (s.judged k usable leaks irms seq).outlets[k] = (s.outlets[k].supervised drop weld).endFrame irms := by
  unfold State.judged
  rw [h, modOutlet_twice]
  exact ⟨modOutlet_calm s k _, modOutlet_outlet s k _⟩

/-- The frame's marks of an outlet without counts. -/
theorem endFrame_tidied {o : Outlet} (drop : o.drop = false) (weld : o.weld = false) (irms : Nat) : o.endFrame irms =
    o.tidied (o.endFrame irms).wholeFrame (o.endFrame irms).peakOn (o.endFrame irms).peakSeen := by
  cases o
  dsimp only at drop weld
  subst drop weld
  rfl

/-- R93, R94: a supervision that finds a fault. -/
theorem judged_faults {s : State} (wf : MemWf s.mem) {k : OutletIx} {usable leaks : Bool} {irms : Nat} {seq : Word} {kind : FaultKind}
    (h : s.supervise k usable leaks seq = (s.modOutlet k (·.supervised false false)).faultAtClose k kind seq) :
    FaultShown s (s.judged k usable leaks irms seq) k kind seq := by
  have found := faultAtClose_found (s := s.modOutlet k (·.supervised false false)) wf k kind seq
  have outlet := found.outlet
  rw [modOutlet_outlet] at outlet
  unfold State.judged
  rw [h]
  exact found.shown ⟨rfl, rfl⟩ rfl (endFrame_tidied (by rw [outlet]; rfl) (by rw [outlet]; rfl) irms)

/-- R69: a fault that the resolution of a mark has found. -/
theorem resolved_faults {s : State} (wf : MemWf s.mem) (k : OutletIx) {usable leaks : Bool} {irms : Nat} {seq : Word} (kind : FaultKind) :
    FaultShown s ((s.faultAtClose k kind seq).judged k usable leaks irms seq) k kind seq := by
  have found := faultAtClose_found wf k kind seq
  have state : (s.faultAtClose k kind seq).outlets[k].state = .fault := by rw [found.outlet]
  have rests := supervise_idle (s := s.faultAtClose k kind seq) (k := k) leaks seq (usable := usable) (.inr (by
    rw [state]
    exact ⟨OutletState.noConfusion, OutletState.noConfusion⟩))
  have same : s.modOutlet k (fun o => o) = s := modOutlet_id rfl
  unfold State.judged
  rw [rests, modOutlet_twice]
  generalize s.faultAtClose k kind seq = w at *
  rw [← same] at found
  exact found.shown (f := fun o => o) (whole := _) (peak := _) (seen := _) ⟨rfl, rfl⟩ rfl rfl

end Sys2Proof.Machine
end

section
/-! PROOF. What the outlet controller's turn makes of one outlet, by its state and its mark (R69, R70, R72, R73, R92 to R94). -/
namespace Sys2Proof.Machine

open Sys2Proof.Safety

section
variable {s : State} {closed : Settings} {res : Vector OutletResult 48} {seq : Word} {k : OutletIx} {p : Phase}
  (hp : p = phaseOfBranch closed.outlets[k].branch)
include hp

/-- The turn of an outlet that discovery passes over. -/
theorem outletWork_known (known : s.outlets[k].state ≠ .unknown ∨ s.usable p = false) : s.outletWork closed res seq k =
    (if s.usable p = true then s.resolveUnverified k seq else s).judged k (s.usable p) (closed.strip.leakLevel ≤ res[k].irms)
      res[k].irms seq := by
  obtain ⟨s1, s2, work, h1, h2⟩ := outletWork_eq s closed res seq k
  rw [← hp] at work h1 h2
  have passed : ¬(s.outlets[k].state = .unknown ∧ s.usable p = true) := fun ⟨unknown, usable⟩ =>
    known.elim (fun h => h unknown) fun h => by rw [h] at usable; cases usable
  rw [if_neg passed] at h1
  rw [work, h2, h1]

/-- The turn of an outlet that discovery and resolution pass over. -/
theorem outletWork_plain (known : s.outlets[k].state ≠ .unknown ∨ s.usable p = false)
    (clear : s.outlets[k].unverified = none ∨ s.usable p = false) : s.outletWork closed res seq k =
    s.judged k (s.usable p) (closed.strip.leakLevel ≤ res[k].irms) res[k].irms seq := by
  rw [outletWork_known hp known]
  cases usable : s.usable p with
  | false => rfl
  | true =>
    have none := clear.resolve_right (by rw [usable]; exact Bool.noConfusion)
    have same : s.resolveUnverified k seq = s := by simp only [State.resolveUnverified, none]
    rw [if_pos rfl, same]

/-- R70: the turn of an UNKNOWN outlet on a usable phase. -/
theorem outletWork_discovers (state : s.outlets[k].state = .unknown) (usable : s.usable p = true) :
    s.outletWork closed res seq k = (s.discover k).judged k true (closed.strip.leakLevel ≤ res[k].irms) res[k].irms seq := by
  obtain ⟨s1, s2, work, h1, h2⟩ := outletWork_eq s closed res seq k
  rw [← hp] at work h1 h2
  rw [if_pos ⟨state, usable⟩] at h1
  have none : s1.outlets[k].unverified = none := by rw [h1, discover_outlet]; rfl
  have same : s1.resolveUnverified k seq = s1 := by simp only [State.resolveUnverified, none]
  rw [if_pos usable, same, h1] at h2
  rw [work, h2, usable]

/-- R70: an UNKNOWN outlet is found where its sense shows it. -/
theorem outletWork_found (state : s.outlets[k].state = .unknown) (weld : s.outlets[k].weld = false) (usable : s.usable p = true) :
    Calm k s (s.outletWork closed res seq k) ∧ ∃ d w, (s.outletWork closed res seq k).outlets[k] =
      ((s.outlets[k].discovered s.sense[k].level s.partTime).supervised d w).endFrame res[k].irms := by
  rw [outletWork_discovers hp state usable]
  have outlet := discover_outlet s k
  have calm := discover_calm s k
  have sense : (s.discover k).sense = s.sense := (discover_block s k).sense
  generalize s.discover k = v at *
  have judged {leaks : Bool} {d w : Bool} (h : v.supervise k true leaks seq = v.modOutlet k (·.supervised d w)) :
      Calm k s (v.judged k true leaks res[k].irms seq) ∧ ∃ d w, (v.judged k true leaks res[k].irms seq).outlets[k] =
        ((s.outlets[k].discovered s.sense[k].level s.partTime).supervised d w).endFrame res[k].irms := by
    obtain ⟨own, record⟩ := judged_calm h (irms := res[k].irms)
    rw [outlet] at record
    exact ⟨calm.trans own, d, w, record⟩
  rcases Bool.eq_false_or_eq_true s.sense[k].level with level | level
  · have on : v.outlets[k].state = .on := by rw [outlet, level]; rfl
    refine judged (d := false) (w := false) ?_
    rw [supervise_on _ _ on, sense, level]
    rfl
  · have off : v.outlets[k].state = .off := by rw [outlet, level]; rfl
    have count : v.outlets[k].weld = false := by rw [outlet]; exact weld
    cases leaks : decide (closed.strip.leakLevel ≤ res[k].irms) with
    | true =>
      refine judged (d := false) (w := true) ?_
      rw [supervise_off _ _ off, sense, level, count]
      rfl
    | false =>
      refine judged (d := false) (w := false) ?_
      rw [supervise_off _ _ off, sense, level]
      rfl

/-- R70: without a usable phase an UNKNOWN outlet stays as it is. -/
theorem outletWork_waits (state : s.outlets[k].state = .unknown) (drop : s.outlets[k].drop = false)
    (weld : s.outlets[k].weld = false) (whole : s.outlets[k].wholeFrame = false) (usable : s.usable p = false) :
    s.outletWork closed res seq k = { s with outlets := (s.outletWork closed res seq k).outlets } ∧
      (s.outletWork closed res seq k).outlets[k] = s.outlets[k] := by
  rw [outletWork_plain hp (.inr usable) (.inr usable), usable]
  unfold State.judged
  rw [supervise_idle _ _ (.inl rfl), modOutlet_twice]
  refine ⟨rfl, (modOutlet_outlet s k _).trans ?_⟩
  generalize s.outlets[k] = o at *
  cases o
  dsimp only at state drop weld whole
  subst state drop weld whole
  simp [Outlet.endFrame, Outlet.supervised]

/-- R92 to R94: the supervision of an outlet that is known and carries no mark to resolve. -/
theorem outletWork_supervised (wf : MemWf s.mem) (clear : s.outlets[k].unverified = none ∨ s.usable p = false) {u : State}
    (hu : u = s.outletWork closed res seq k) :
    (s.usable p = true → s.outlets[k].state = .on →
      (s.sense[k].level = true → u.outlets[k].state = .on ∧ u.outlets[k].drop = false ∧ u.outlets[k].weld = false ∧ Calm k s u) ∧
      (s.sense[k].level = false → s.outlets[k].drop = false →
        u.outlets[k].state = .on ∧ u.outlets[k].drop = true ∧ u.outlets[k].weld = false ∧ Calm k s u) ∧
      (s.sense[k].level = false → s.outlets[k].drop = true → FaultShown s u k .dropped seq)) ∧
    (s.usable p = true → s.outlets[k].state = .off →
      (¬(s.sense[k].level = true ∨ closed.strip.leakLevel ≤ res[k].irms) →
        u.outlets[k].state = .off ∧ u.outlets[k].drop = false ∧ u.outlets[k].weld = false ∧ Calm k s u) ∧
      (s.sense[k].level = true ∨ closed.strip.leakLevel ≤ res[k].irms → s.outlets[k].weld = false →
        u.outlets[k].state = .off ∧ u.outlets[k].drop = false ∧ u.outlets[k].weld = true ∧ Calm k s u) ∧
      (s.sense[k].level = true ∨ closed.strip.leakLevel ≤ res[k].irms → s.outlets[k].weld = true → FaultShown s u k .welded seq)) ∧
    (s.usable p = false ∨ s.outlets[k].state ≠ .on ∧ s.outlets[k].state ≠ .off ∧ s.outlets[k].state ≠ .unknown →
      u.outlets[k].state = s.outlets[k].state ∧ u.outlets[k].drop = false ∧ u.outlets[k].weld = false ∧ Calm k s u) := by
  have calm {usable leaks d w : Bool} (same : u = s.judged k usable leaks res[k].irms seq)
      (h : s.supervise k usable leaks seq = s.modOutlet k (·.supervised d w)) :
      u.outlets[k].state = s.outlets[k].state ∧ u.outlets[k].drop = d ∧ u.outlets[k].weld = w ∧ Calm k s u := by
    obtain ⟨own, record⟩ := judged_calm h (irms := res[k].irms)
    rw [← same] at own record
    rw [record]
    exact ⟨rfl, rfl, rfl, own⟩
  refine ⟨fun usable on => ?_, fun usable off => ?_, fun idle => ?_⟩
  · rw [outletWork_plain hp (.inl (by rw [on]; exact OutletState.noConfusion)) clear, usable] at hu
    have step := supervise_on (decide (closed.strip.leakLevel ≤ res[k].irms)) seq on
    refine ⟨fun closed => ?_, fun opened drop => ?_, fun opened drop => ?_⟩
    · rw [if_pos closed] at step
      exact on ▸ calm hu step
    · rw [if_neg (by rw [opened]; exact Bool.noConfusion), if_neg (by rw [drop]; exact Bool.noConfusion)] at step
      exact on ▸ calm hu step
    · rw [if_neg (by rw [opened]; exact Bool.noConfusion), if_pos drop] at step
      exact hu ▸ judged_faults wf step
  · rw [outletWork_plain hp (.inl (by rw [off]; exact OutletState.noConfusion)) clear, usable] at hu
    have step := supervise_off (decide (closed.strip.leakLevel ≤ res[k].irms)) seq off
    have passes : (!(s.sense[k].level || decide (closed.strip.leakLevel ≤ res[k].irms))) = true ↔
        ¬(s.sense[k].level = true ∨ closed.strip.leakLevel ≤ res[k].irms) := by simp
    refine ⟨fun none => ?_, fun flows weld => ?_, fun flows weld => ?_⟩
    · rw [if_pos (passes.mpr none)] at step
      exact off ▸ calm hu step
    · rw [if_neg fun h => passes.mp h flows, if_neg (by rw [weld]; exact Bool.noConfusion)] at step
      exact off ▸ calm hu step
    · rw [if_neg fun h => passes.mp h flows, if_pos weld] at step
      exact hu ▸ judged_faults wf step
  · have known : s.outlets[k].state ≠ .unknown ∨ s.usable p = false := idle.symm.imp_left fun h => h.2.2
    rw [outletWork_plain hp known clear] at hu
    exact calm hu (supervise_idle _ seq (idle.imp_right fun h => ⟨h.1, h.2.1⟩))

/-- R69: a mark stays on an unusable phase. -/
theorem outletWork_unusable (usable : s.usable p = false) : Calm k s (s.outletWork closed res seq k) ∧
    (s.outletWork closed res seq k).outlets[k] = (s.outlets[k].supervised false false).endFrame res[k].irms := by
  rw [outletWork_plain hp (.inr usable) (.inr usable)]
  exact judged_calm (supervise_idle _ _ (.inl usable))

/-- R69: a mark with which the sense agrees is cleared. -/
theorem outletWork_agrees (wf : MemWf s.mem) {d : Dir} (mark : s.outlets[k].unverified = some d)
    (known : s.outlets[k].state ≠ .unknown) (usable : s.usable p = true) (agrees : s.sense[k].level = d.level) {u : State}
    (hu : u = s.outletWork closed res seq k) : u.outlets[k].unverified = none ∧
      (s.outlets[k].state ≠ .on → s.outlets[k].state ≠ .off → u.outlets[k].state = s.outlets[k].state ∧ Calm k s u) := by
  obtain ⟨v, hv⟩ : ∃ v, v = s.modOutlet k fun o => { o with unverified := none } := ⟨_, rfl⟩
  have resolved : s.resolveUnverified k seq = v := by
    rw [hv]
    simp only [State.resolveUnverified, mark, agrees, if_true]
  have outlet : v.outlets[k] = { s.outlets[k] with unverified := none } := by rw [hv]; exact modOutlet_outlet s k _
  have none : v.outlets[k].unverified = none := by rw [outlet]
  have calm : Calm k s v := hv ▸ modOutlet_calm s k _
  have wfV : MemWf v.mem := by rw [hv]; exact wf
  rw [outletWork_known hp (.inl known), usable, if_pos rfl, resolved] at hu
  have marked {d w : Bool} (h : v.supervise k true (closed.strip.leakLevel ≤ res[k].irms) seq = v.modOutlet k (·.supervised d w)) :
      u.outlets[k].unverified = Option.none ∧ u.outlets[k].state = s.outlets[k].state ∧ Calm k s u := by
    obtain ⟨own, record⟩ := judged_calm h (irms := res[k].irms)
    rw [← hu] at own record
    rw [record]
    exact ⟨none, by rw [outlet]; rfl, calm.trans own⟩
  have faults {kind : FaultKind} (h : v.supervise k true (closed.strip.leakLevel ≤ res[k].irms) seq =
      (v.modOutlet k (·.supervised false false)).faultAtClose k kind seq) : u.outlets[k].unverified = Option.none := by
    obtain ⟨-, -, -, -, cleared, -⟩ := judged_faults wfV h (irms := res[k].irms)
    rw [hu]
    exact cleared
  refine ⟨?_, fun notOn notOff => ?_⟩
  · by_cases on : v.outlets[k].state = .on
    · have step := supervise_on (decide (closed.strip.leakLevel ≤ res[k].irms)) seq on
      split_ifs at step
      · exact (marked step).1
      · exact faults step
      · exact (marked step).1
    · by_cases off : v.outlets[k].state = .off
      · have step := supervise_off (decide (closed.strip.leakLevel ≤ res[k].irms)) seq off
        split_ifs at step
        · exact (marked step).1
        · exact faults step
        · exact (marked step).1
      · exact (marked (supervise_idle _ _ (.inr ⟨on, off⟩))).1
  · exact (marked (supervise_idle _ _ (.inr (by rw [outlet]; exact ⟨notOn, notOff⟩)))).2

/-- R69: a mark that the sense contradicts leads to FAULT. -/
theorem outletWork_contradicts (wf : MemWf s.mem) {d : Dir} (mark : s.outlets[k].unverified = some d)
    (known : s.outlets[k].state ≠ .unknown) (usable : s.usable p = true) (differs : s.sense[k].level ≠ d.level) :
    FaultShown s (s.outletWork closed res seq k) k d.failure seq := by
  have resolved : s.resolveUnverified k seq = s.faultAtClose k d.failure seq := by
    simp only [State.resolveUnverified, mark, differs, if_false]
  rw [outletWork_known hp (.inl known), if_pos usable, resolved]
  exact resolved_faults wf k _

end

/-- R69, R70: the turn of an outlet by its state and its mark. -/
theorem outletWork_turn (s : State) (closed : Settings) (res : Vector OutletResult 48) (seq : Word) (k : OutletIx) (wf : MemWf s.mem) :
    let u := s.outletWork closed res seq k
    let o := s.outlets[k]
    let x := u.outlets[k]
    let usable := s.usable (phaseOfBranch closed.outlets[k].branch)
    let sense := s.sense[k].level
    (o.state = .unknown → o.drop = false → o.weld = false → o.wholeFrame = false →
      (usable = true → Calm k s u ∧ x.state = (if sense then .on else .off) ∧ x.lastChange = s.partTime ∧
        x.unverified = none ∧ x.faultKind = none ∧ x.owner = none ∧ x.pending = none ∧
        x.shedMark = (o.shedMark && !sense)) ∧
      (usable = false → u = { s with outlets := u.outlets } ∧ x = o)) ∧
    ∀ d, o.unverified = some d → o.state ≠ .unknown →
      (usable = false → x.unverified = some d ∧ x.state = o.state ∧ Calm k s u) ∧
      (usable = true → sense = (d == .toClosed) → x.unverified = none ∧
        (o.state ≠ .on → o.state ≠ .off → x.state = o.state ∧ Calm k s u)) ∧
      (usable = true → sense ≠ (d == .toClosed) →
        FaultShown s u k (if d = .toClosed then .failToClose else .failToOpen) seq) := by
  dsimp only
  refine ⟨fun state drop weld whole => ⟨fun usable => ?_, fun usable => ?_⟩, fun d mark known => ?_⟩
  · obtain ⟨calm, d, w, record⟩ := outletWork_found (res := res) (seq := seq) rfl state weld usable
    rw [record]
    exact ⟨calm, rfl, rfl, rfl, rfl, rfl, rfl, rfl⟩
  · exact outletWork_waits rfl state drop weld whole usable
  · have level : d.level = (d == .toClosed) := by cases d <;> rfl
    have failure : d.failure = if d = .toClosed then .failToClose else .failToOpen := by cases d <;> rfl
    refine ⟨fun usable => ?_, fun usable agrees => ?_, fun usable differs => ?_⟩
    · obtain ⟨calm, record⟩ := outletWork_unusable (res := res) (seq := seq) rfl usable
      rw [record]
      exact ⟨mark, rfl, calm⟩
    · exact outletWork_agrees rfl wf mark known usable (agrees.trans level.symm) rfl
    · rw [← failure]
      exact outletWork_contradicts rfl wf mark known usable (level ▸ differs)

/-! ### The marks of a frame (R72, R73) -/

/-- What resolution and supervision leave of the frame's marks. -/
structure Peaks (o x : Outlet) : Prop where
  peakOn : x.peakOn = o.peakOn
  whole : o.wholeFrame = false → x.wholeFrame = false
  on : x.state = .on → o.state = .on ∧ x.wholeFrame = o.wholeFrame ∧ x.peakSeen = o.peakSeen

theorem Peaks.refl (o : Outlet) : Peaks o o := ⟨rfl, id, fun h => ⟨h, rfl, rfl⟩⟩

theorem Peaks.trans {o x y : Outlet} (h : Peaks o x) (g : Peaks x y) : Peaks o y where
  peakOn := g.peakOn.trans h.peakOn
  whole := g.whole ∘ h.whole
  on state := by
    obtain ⟨mid, whole, seen⟩ := g.on state
    obtain ⟨first, whole', seen'⟩ := h.on mid
    exact ⟨first, whole.trans whole', seen.trans seen'⟩

theorem modOutlet_peaks (s : State) (k : OutletIx) {f : Outlet → Outlet} (h : ∀ o, Peaks o (f o)) :
    Peaks s.outlets[k] (s.modOutlet k f).outlets[k] := by
  rw [modOutlet_outlet]
  exact h _

theorem faultAtClose_peaks {s : State} (wf : MemWf s.mem) (k : OutletIx) (kind : FaultKind) (seq : Word) :
    Peaks s.outlets[k] (s.faultAtClose k kind seq).outlets[k] := by
  rw [(faultAtClose_found wf k kind seq).outlet]
  exact ⟨rfl, fun _ => rfl, fun h => nomatch h⟩

theorem supervised_peaks (d w : Bool) (o : Outlet) : Peaks o (o.supervised d w) := ⟨rfl, id, fun h => ⟨h, rfl, rfl⟩⟩

theorem supervise_peaks {s : State} (wf : MemWf s.mem) (k : OutletIx) (usable leaks : Bool) (seq : Word) :
    Peaks s.outlets[k] (s.supervise k usable leaks seq).outlets[k] := by
  have marked (d w : Bool) := modOutlet_peaks s k (supervised_peaks d w)
  have faults (kind : FaultKind) := (marked false false).trans (faultAtClose_peaks (s := s.modOutlet k (·.supervised false false)) wf k kind seq)
  by_cases idle : usable = false ∨ s.outlets[k].state ≠ .on ∧ s.outlets[k].state ≠ .off
  · rw [supervise_idle leaks seq idle]
    exact marked _ _
  · obtain ⟨usable', works⟩ := not_or.mp idle
    rw [Bool.not_eq_false] at usable'
    subst usable'
    by_cases on : s.outlets[k].state = .on
    · rw [supervise_on leaks seq on]
      split_ifs
      · exact marked _ _
      · exact faults _
      · exact marked _ _
    · have off : s.outlets[k].state = .off := by
        by_contra off
        exact works ⟨on, off⟩
      rw [supervise_off leaks seq off]
      split_ifs
      · exact marked _ _
      · exact faults _
      · exact marked _ _

theorem resolveUnverified_peaks {s : State} (wf : MemWf s.mem) (k : OutletIx) (seq : Word) :
    Peaks s.outlets[k] (s.resolveUnverified k seq).outlets[k] := by
  unfold State.resolveUnverified
  split
  · exact .refl _
  · split
    · exact modOutlet_peaks s k fun o => ⟨rfl, id, fun h => ⟨h, rfl, rfl⟩⟩
    · exact faultAtClose_peaks wf k _ seq

/-- The turn ends with the frame's marks, of an outlet as discovery and supervision have left it. -/
theorem outletWork_ends {s : State} (wf : MemWf s.mem) (closed : Settings) (res : Vector OutletResult 48) (seq : Word) (k : OutletIx) :
    ∃ x y : Outlet, (s.outletWork closed res seq k).outlets[k] = y.endFrame res[k].irms ∧ Peaks x y ∧
      x.peakOn = s.outlets[k].peakOn ∧ x.wholeFrame = s.outlets[k].wholeFrame ∧ (s.outlets[k].state = .on → x = s.outlets[k]) := by
  obtain ⟨s1, s2, work, h1, h2⟩ := outletWork_eq s closed res seq k
  have found : s1.mem = s.mem ∧ s1.outlets[k].peakOn = s.outlets[k].peakOn ∧ s1.outlets[k].wholeFrame = s.outlets[k].wholeFrame ∧
      (s.outlets[k].state = .on → s1.outlets[k] = s.outlets[k]) := by
    rw [h1]
    split
    case isTrue unknown =>
      refine ⟨by rw [(discover_calm s k).1], ?_, ?_, fun on => ?_⟩
      · rw [discover_outlet]
        rfl
      · rw [discover_outlet]
        rfl
      · rw [unknown.1] at on
        cases on
    case isFalse => exact ⟨rfl, rfl, rfl, fun _ => rfl⟩
  obtain ⟨mem, peak, whole, on⟩ := found
  have wf1 : MemWf s1.mem := by rw [mem]; exact wf
  have resolved : MemWf s2.mem ∧ Peaks s1.outlets[k] s2.outlets[k] := by
    rw [h2]
    split
    · exact ⟨(resolveUnverified_block s1 k seq).wf wf1, resolveUnverified_peaks wf1 k seq⟩
    · exact ⟨wf1, .refl _⟩
  rw [work]
  exact ⟨s1.outlets[k], _, modOutlet_outlet _ k _, resolved.2.trans (supervise_peaks resolved.1 k _ _ seq), peak, whole, on⟩

/-- R72, R73: the marker for the frame that opens, and the peak of a whole ON frame. -/
theorem outletWork_frame {s : State} (wf : MemWf s.mem) (closed : Settings) (res : Vector OutletResult 48) (seq : Word) (k : OutletIx) :
    let o := s.outlets[k]
    let x := (s.outletWork closed res seq k).outlets[k]
    (x.wholeFrame = true ↔ x.state = .on) ∧
      (o.state = .on → o.wholeFrame = true → x.state = .on → x.peakSeen = true ∧
        x.peakOn = some (if o.peakSeen then max (o.peakOn.getD 0) res[k].irms else res[k].irms)) ∧
      (o.wholeFrame = false → x.peakOn = o.peakOn) := by
  obtain ⟨x, y, ends, peaks, peak, whole, same⟩ := outletWork_ends wf closed res seq k
  dsimp only
  rw [ends]
  refine ⟨beq_iff_eq, fun on marked still => ?_, fun unmarked => ?_⟩
  · obtain ⟨-, mark, seen⟩ := peaks.on still
    have value := peaks.peakOn
    rw [same on] at mark seen value
    have mark' := mark.trans marked
    unfold Outlet.endFrame
    dsimp only
    rw [mark', seen, value, if_pos rfl, Bool.or_true]
    exact ⟨rfl, rfl⟩
  · have mark := peaks.whole (whole.trans unmarked)
    unfold Outlet.endFrame
    dsimp only
    rw [mark, if_neg Bool.false_ne_true, peaks.peakOn, peak]

end Sys2Proof.Machine
end

section
/-! PROOF. Entries that leave the close queue, one after another, because they have waited too long (R64, R113, R114). -/
namespace Sys2Proof.Machine

open Sys2Proof.Safety

/-! ### Orders that finish -/

/-- Orders have finished at most. -/
def Finishes (s u : State) : Prop := ∀ e : SlotNo, u.orders[e] = none ∨ u.orders[e] = s.orders[e]

theorem Finishes.of_same {s u : State} (h : u.orders = s.orders) : Finishes s u := fun e => .inr (by rw [h])

theorem Finishes.trans {s u v : State} (h : Finishes s u) (g : Finishes u v) : Finishes s v := fun e =>
  (g e).elim .inl fun same => (h e).imp same.trans same.trans

theorem Finishes.foldl {α : Type} {f : State → α → State} (h : ∀ s x, Finishes s (f s x)) (l : List α) (s : State) :
    Finishes s (l.foldl f s) := by
  induction l generalizing s with
  | nil => exact .of_same rfl
  | cons x l ih => exact (h s x).trans (ih (f s x))

theorem finishOrder_finishes (s : State) (e : SlotNo) (r : OrderResult) : Finishes s (s.finishOrder e r) := fun j => by
  by_cases h : j = e
  · subst h
    cases held : s.orders[j] with
    | none => exact .inl (by rw [finishOrder_none held, held])
    | some entry => exact .inl (by rw [finishOrder_same held]; exact upd_same _ _ _)
  · exact .inr (finishOrder_orderKept h s r).entry

theorem tellOrigin_finishes (s : State) (c : RecNo) (r : CycleRec) (o : Origin) : Finishes s (s.tellOrigin c r o) := by
  cases o with
  | order e v => exact finishOrder_finishes s e _
  | watch w =>
    rw [State.tellOrigin]
    cases r.outcome with
    | partly | abandoned =>
      refine .of_same ?_
      rw [State.watchOutcome, notice_same]
      rfl
    | done | canceled | failed | merged | aborted | refused => exact .of_same rfl

theorem testEnd_finishes (s : State) (c : RecNo) : Finishes s (s.testEnd c) := by
  unfold State.testEnd
  dsimp only
  split
  · rw [endRecord_parts]
    generalize (tab fun j => if j ∈ s.cycles[c].participants then { s.outlets[j] with cycle := none } else s.outlets[j]) = outlets
    have told : Finishes { s with outlets := outlets }
        (State.tellAll { s with outlets := outlets } c s.cycles[c] s.cycles[c].origins) :=
      .foldl (fun s o => tellOrigin_finishes s c _ o) _ _
    exact Finishes.trans (.of_same rfl) (told.trans (.of_same rfl))
  · exact .of_same rfl

/-- An outcome at a record finishes its origins at most. -/
theorem cycleReply_finishes (s : State) (c : RecNo) (k : OutletIx) (d : Dir) {r : MemberOutcome} (quiet : r ≠ .faulted) :
    Finishes s (s.cycleReply c k d r).1 := by
  have ended (f : CycleRec → CycleRec) : Finishes s ((s.modCycle c f).testEnd c) := testEnd_finishes (s.modCycle c f) c
  unfold State.cycleReply
  split
  · exact .of_same rfl
  · split
    · exact .of_same (testResting_quiet s c).orders
    · exact absurd rfl quiet
    · exact absurd rfl quiet
    · split
      · exact ended _
      · exact .of_same rfl
    · split
      · exact ended _
      · exact .of_same rfl
    · exact absurd rfl quiet
    · exact absurd rfl quiet
    · exact ended _
    · exact ended _
    · exact .of_same rfl
    · exact .of_same rfl

/-! ### The answers of an order's members -/

/-- The order of slot `e`, where one is held, has the member `m`. -/
def HoldsMember (s : State) (e : SlotNo) (m : OutletIx × Option MemberOutcome) : Prop :=
  s.orders[e] = none ∨ ∃ y, s.orders[e] = some y ∧ m ∈ y.members

theorem Finishes.holdsMember {s u : State} (h : Finishes s u) {e : SlotNo} {m : OutletIx × Option MemberOutcome}
    (holds : HoldsMember s e m) : HoldsMember u e m := by
  rcases h e with none | same
  · exact .inl none
  · unfold HoldsMember
    rw [same]
    exact holds

theorem mem_answered {ms : List (OutletIx × Option MemberOutcome)} {m : OutletIx × Option MemberOutcome} (h : m ∈ ms) {k : OutletIx}
    (other : m.1 ≠ k ∨ m.2 ≠ none) (r : MemberOutcome) : m ∈ answered ms k r :=
  List.mem_map.mpr ⟨m, h, if_neg fun ⟨same, open_⟩ => other.elim (fun ne => ne same) fun ne => ne open_⟩

theorem mem_answered_own {ms : List (OutletIx × Option MemberOutcome)} {k : OutletIx} (h : (k, none) ∈ ms) (r : MemberOutcome) :
    (k, some r) ∈ answered ms k r :=
  List.mem_map.mpr ⟨(k, none), h, if_pos ⟨rfl, rfl⟩⟩

/-- An answer of outlet `k` at its order: the entry, if it is still held, has the answered members. -/
theorem orderReply_members {s : State} {e : SlotNo} {k : OutletIx} {r : MemberOutcome} {m m' : OutletIx × Option MemberOutcome}
    (holds : HoldsMember s e m) (becomes : ∀ ms : List (OutletIx × Option MemberOutcome), m ∈ ms → m' ∈ answered ms k r) :
    HoldsMember (s.orderReply e k r) e m' := by
  rcases holds with none | ⟨entry, held, member⟩
  · rw [orderReply_none none]
    exact .inl none
  · rw [orderReply_eq held]
    have set : HoldsMember (s.setOrder e (some { entry with members := answered entry.members k r })) e m' :=
      .inr ⟨_, setOrder_same s e _, becomes _ member⟩
    split
    · exact (finishOrder_finishes _ e _).holdsMember set
    · exact set

/-- A member that is another outlet or has its answer stays as it is. -/
theorem tell_holdsMember {s : State} {e : SlotNo} {m : OutletIx × Option MemberOutcome} (holds : HoldsMember s e m) {k : OutletIx}
    (other : m.1 ≠ k ∨ m.2 ≠ none) (w : Owner) (d : Dir) {r : MemberOutcome} (quiet : r ≠ .faulted) :
    HoldsMember (s.tell w k d r) e m := by
  cases w with
  | order j =>
    rw [tell_order]
    by_cases h : e = j
    · subst h
      exact orderReply_members holds fun ms hm => mem_answered hm other r
    · unfold HoldsMember
      rw [(orderReply_orderKept h s k r).entry]
      exact holds
  | shed b =>
    rw [tell_shed]
    exact holds
  | restore b =>
    rw [tell_restore]
    exact holds
  | cycle c =>
    rw [tell_cycle (Prod.ext rfl (cycleReply_told c k d quiet).2.1)]
    exact (cycleReply_finishes s c k d quiet).holdsMember holds

/-! ### One entry (R64, R113) -/

/-- The waiting entry `e` is that of its outlet. -/
structure Waits (s : State) (e : QueueEntry) : Prop where
  queued : e ∈ s.queue
  owner : s.outlets[e.outlet].owner = some e.owner
  state : s.outlets[e.outlet].state = .awaitClose

/-- What the removal of the entries `l` leaves, with PATIENCE for their owners. -/
structure Removed (s u : State) (l : List QueueEntry) : Prop where
  same : u = { s with
    outlets := u.outlets, queue := u.queue, scanDue := u.scanDue, shed := u.shed, cycles := u.cycles, watches := u.watches
    orders := u.orders, mem := u.mem, cause := u.cause }
  queue : u.queue = s.queue.filter fun x => x.outlet ∉ l.map (·.outlet)
  gone : ∀ x ∈ l, u.outlets[x.outlet] = { s.outlets[x.outlet] with
    state := .off, owner := none, lastChange := s.partTime, cycle := u.outlets[x.outlet].cycle }
  stays : ∀ k : OutletIx, k ∉ l.map (·.outlet) → u.outlets[k] = { s.outlets[k] with cycle := u.outlets[k].cycle }
  holds : ∀ e m, (m.1 ∉ l.map (·.outlet) ∨ m.2 ≠ none) → HoldsMember s e m → HoldsMember u e m
  answers : ∀ x ∈ l, ∀ e, x.owner = .order e → HoldsMember s e (x.outlet, none) → HoldsMember u e (x.outlet, some .patience)

theorem Removed.refl (s : State) : Removed s s [] where
  same := rfl
  queue := (List.filter_eq_self.mpr fun _ _ => decide_eq_true List.not_mem_nil).symm
  gone _ h := nomatch h
  stays _ _ := rfl
  holds _ _ _ := id
  answers _ h := nomatch h

theorem expire_eq {s : State} {e : QueueEntry} (waits : Waits s e) :
    s.expire e = (s.expired e).notice .queuePatience (numberOf e.outlet) e.cls.val e.stamp := by
  rw [State.expire, expired_eq waits.owner waits.state]

theorem expire_removed {s : State} {e : QueueEntry} (waits : Waits s e) : Removed s (s.expire e) [e] := by
  rw [expire_eq waits]
  have same := unqueued_same s e.outlet
  have only := unqueued_only s e.outlet
  have outlet := unqueued_outlet s e.outlet
  have told : Told (s.unqueued e.outlet) (s.expired e) := tell_told _ e.owner e.outlet .toClosed MemberOutcome.noConfusion
  have holds {j : SlotNo} {m : OutletIx × Option MemberOutcome} (h : HoldsMember (s.unqueued e.outlet) j m)
      (other : m.1 ≠ e.outlet ∨ m.2 ≠ none) : HoldsMember (s.expired e) j m :=
    tell_holdsMember h other e.owner .toClosed MemberOutcome.noConfusion
  have answers (j : SlotNo) (h : e.owner = .order j) (own : HoldsMember (s.unqueued e.outlet) j (e.outlet, none)) :
      HoldsMember (s.expired e) j (e.outlet, some .patience) := by
    rw [State.expired, h, tell_order]
    exact orderReply_members own fun ms hm => mem_answered_own hm _
  have orders : (s.unqueued e.outlet).orders = s.orders := by rw [same]
  have before {j : SlotNo} {m : OutletIx × Option MemberOutcome} (h : HoldsMember s j m) : HoldsMember (s.unqueued e.outlet) j m := by
    unfold HoldsMember
    rw [orders]
    exact h
  generalize s.unqueued e.outlet = x at *
  generalize s.expired e = y at *
  have noted := notice_same y .queuePatience (numberOf e.outlet) e.cls.val e.stamp
  generalize y.notice .queuePatience (numberOf e.outlet) e.cls.val e.stamp = u at *
  have outlets : u.outlets = y.outlets := by rw [noted]
  have after {j : SlotNo} {m : OutletIx × Option MemberOutcome} (h : HoldsMember y j m) : HoldsMember u j m := by
    unfold HoldsMember
    rw [noted]
    exact h
  have single {k : OutletIx} : k ∉ [e].map (·.outlet) ↔ k ≠ e.outlet := by rw [List.map_singleton, List.mem_singleton]
  refine ⟨by rw [noted, told.same, same], ?_, fun z hz => ?_, fun k hk => ?_, fun j m other h => ?_, fun z hz j h own => ?_⟩
  · rw [noted, told.same, same]
    refine List.filter_congr fun z _ => ?_
    rw [bne, Bool.beq_eq_decide_eq, ← decide_not, decide_eq_decide]
    exact single.symm
  · rw [List.mem_singleton.mp hz, outlets, told.outlet, outlet]
  · rw [outlets, told.outlet, only.outlets k (single.mp hk)]
  · exact after (holds (before h) (other.imp_left single.mp))
  · rw [List.mem_singleton.mp hz] at h own ⊢
    exact after (answers j h (before own))

/-! ### One after another (R114) -/

theorem Removed.cons {s u v : State} {e : QueueEntry} {l : List QueueEntry} (first : Removed s u [e]) (rest : Removed u v l)
    (apart : e.outlet ∉ l.map (·.outlet)) : Removed s v (e :: l) := by
  have time : u.partTime = s.partTime := by rw [first.same]; rfl
  have split {k : OutletIx} : k ∉ (e :: l).map (·.outlet) ↔ k ∉ [e].map (·.outlet) ∧ k ∉ l.map (·.outlet) := by
    rw [List.map_cons, List.mem_cons, not_or, List.map_singleton, List.mem_singleton]
  have here {x : QueueEntry} (hx : x ∈ l) : x.outlet ∉ [e].map (·.outlet) := by
    rw [List.map_singleton, List.mem_singleton]
    exact fun same => apart (same ▸ List.mem_map_of_mem hx)
  refine ⟨by rw [rest.same, first.same], ?_, fun x hx => ?_, fun k hk => ?_, fun j m other h => ?_, fun x hx j owner own => ?_⟩
  · rw [rest.queue, first.queue, List.filter_filter]
    refine List.filter_congr fun x _ => ?_
    rw [← Bool.decide_and, decide_eq_decide, split, and_comm]
  · rcases List.mem_cons.mp hx with rfl | hx
    · rw [rest.stays _ apart, first.gone x (List.mem_singleton_self x)]
    · rw [rest.gone x hx, first.stays _ (here hx), time]
  · obtain ⟨one, more⟩ := split.mp hk
    rw [rest.stays k more, first.stays k one]
  · refine rest.holds j m (other.imp_left fun h => (split.mp h).2) (first.holds j m (other.imp_left fun h => (split.mp h).1) h)
  · rcases List.mem_cons.mp hx with rfl | hx
    · exact rest.holds j _ (.inr (Option.some_ne_none _)) (first.answers x (List.mem_singleton_self x) j owner own)
    · exact rest.answers x hx j owner (first.holds j _ (.inl (here hx)) own)

/-- The other entries wait as before. -/
theorem Removed.waits {s u : State} {e x : QueueEntry} (removed : Removed s u [e]) (h : Waits s x) (apart : x.outlet ≠ e.outlet) :
    Waits u x := by
  have out : x.outlet ∉ [e].map (·.outlet) := by rwa [List.map_singleton, List.mem_singleton]
  have outlet := removed.stays x.outlet out
  exact ⟨removed.queue ▸ List.mem_filter.mpr ⟨h.queued, decide_eq_true out⟩, by rw [outlet]; exact h.owner, by rw [outlet]; exact h.state⟩

theorem expire_all {s : State} {l : List QueueEntry} (waits : ∀ x ∈ l, Waits s x) (distinct : (l.map (·.outlet)).Nodup) :
    Removed s (l.foldl State.expire s) l := by
  induction l generalizing s with
  | nil => exact .refl s
  | cons e l ih =>
    obtain ⟨first, rest⟩ := List.forall_mem_cons.mp waits
    obtain ⟨apart, distinct⟩ := List.nodup_cons.mp distinct
    have removed := expire_removed first
    refine removed.cons (ih (fun x hx => removed.waits (rest x hx) fun same => apart ?_) distinct) apart
    exact List.mem_map.mpr ⟨x, hx, same⟩

/-- One entry at a taken change of the patience. -/
def State.patienceTurn (s : State) (e : QueueEntry) : State :=
  if s.queue.any (·.arrival == e.arrival) && s.patienceOver e then s.expire e else s

/-- The entries of the queue that have waited too long are removed, and no other. -/
theorem patienceTurns_eq {s : State} {l : List QueueEntry} (waits : ∀ x ∈ l, Waits s x) (distinct : (l.map (·.outlet)).Nodup) :
    l.foldl State.patienceTurn s = (l.filter fun x => s.patienceOver x).foldl State.expire s := by
  induction l generalizing s with
  | nil => rfl
  | cons e l ih =>
    obtain ⟨first, rest⟩ := List.forall_mem_cons.mp waits
    obtain ⟨apart, distinct⟩ := List.nodup_cons.mp distinct
    have present : s.queue.any (·.arrival == e.arrival) = true := List.any_eq_true.mpr ⟨e, first.queued, beq_self_eq_true _⟩
    rw [List.foldl_cons, State.patienceTurn, present, Bool.true_and]
    cases passed : s.patienceOver e with
    | true =>
      have removed := expire_removed first
      have clock : (s.expire e).now = s.now := by rw [removed.same]
      have work : (s.expire e).work = s.work := by rw [removed.same]
      have same (x : QueueEntry) : (s.expire e).patienceOver x = s.patienceOver x := by
        rw [State.patienceOver, clock, work]
        rfl
      have later := ih (s := s.expire e) (fun x hx => removed.waits (rest x hx) fun same => apart (List.mem_map.mpr ⟨x, hx, same⟩)) distinct
      simp only [same] at later
      rw [if_pos rfl, later, List.filter_cons_of_pos passed, List.foldl_cons]
    | false =>
      rw [if_neg Bool.false_ne_true, ih rest distinct, List.filter_cons_of_neg (by rw [passed]; exact Bool.false_ne_true)]

end Sys2Proof.Machine
end

section
/-! PROOF. The close scheduler's work at a close (R72, R99, R102, R114, R115), and the close as a whole. -/
namespace Sys2Proof.Machine

open Sys2Proof.Safety

/-! ### Loads (R72, R99, R102) -/

theorem release_load (s : State) (k : OutletIx) (b : Branch) :
    (s.release k).loads[b] = { s.loads[b] with reservations := s.loads[b].reservations.filter (·.1 != k) } := by
  have kept := release_reservations s k b
  unfold State.release at kept ⊢
  split
  case isTrue => exact tab_at _ b
  case isFalse none =>
    rw [if_neg none] at kept
    rw [← kept]

/-- R102: the reservations of the outlets `ks` end. -/
theorem releases_loads (ks : List OutletIx) (s : State) :
    (ks.foldl State.release s = { s with
      loads := (ks.foldl State.release s).loads, scanDue := (ks.foldl State.release s).scanDue }) ∧
    ∀ b : Branch, (ks.foldl State.release s).loads[b] =
      { s.loads[b] with reservations := s.loads[b].reservations.filter fun r => r.1 ∉ ks } := by
  induction ks generalizing s with
  | nil => exact ⟨rfl, fun b => by simp⟩
  | cons k ks ih =>
    rw [List.foldl_cons]
    obtain ⟨same, loads⟩ := ih (s.release k)
    refine ⟨by rw [same, release_same], fun b => ?_⟩
    rw [loads b, release_load]
    dsimp only
    rw [List.filter_filter]
    congr 1
    refine List.filter_congr fun r _ => ?_
    rw [bne, Bool.beq_eq_decide_eq, ← decide_not, ← Bool.decide_and, decide_eq_decide, List.mem_cons, not_or, and_comm]

/-- R99, R102: the loads that the scheduler takes up. -/
def State.loadsTaken (s : State) (closed : Settings) (res : Vector OutletResult 48) (whole : List OutletIx) : State :=
  whole.foldl State.release { s with loads := tab fun b => { s.loads[b] with measured := branchSum closed res b } }

theorem loadsTaken_same (s : State) (closed : Settings) (res : Vector OutletResult 48) (whole : List OutletIx) :
    s.loadsTaken closed res whole = { s with
      loads := (s.loadsTaken closed res whole).loads, scanDue := (s.loadsTaken closed res whole).scanDue } := by
  have same := (releases_loads whole { s with loads := tab fun b => { s.loads[b] with measured := branchSum closed res b } }).1
  unfold State.loadsTaken
  rw [same]

theorem loadsTaken_load (s : State) (closed : Settings) (res : Vector OutletResult 48) (whole : List OutletIx) (b : Branch) :
    (s.loadsTaken closed res whole).loads[b] = { s.loads[b] with
      measured := (((indices 48).filter fun k => closed.outlets[k].branch = b).map fun k => res[k].irms).sum
      reservations := s.loads[b].reservations.filter fun r => r.1 ∉ whole } := by
  have load := (releases_loads whole { s with loads := tab fun b => { s.loads[b] with measured := branchSum closed res b } }).2 b
  have measured : branchSum closed res b =
      (((indices 48).filter fun k => closed.outlets[k].branch = b).map fun k => res[k].irms).sum := by
    unfold branchSum
    simp only [Bool.beq_eq_decide_eq]
  unfold State.loadsTaken
  rw [load]
  dsimp only
  rw [tab_at, measured]

/-! ### One entry that has waited too long (R64, R113) -/

theorem expire_answered {s : State} (wf : MemWf s.mem) {x : QueueEntry} (waits : Waits s x) {e : SlotNo} (owner : x.owner = .order e) :
    orderAnswered s (s.expire x) e x.outlet .patience := by
  rw [expire_eq waits]
  refine OrderKept.answered ?_ (notice_orderKept e _ _ _ _ _)
  have same := unqueued_same s x.outlet
  rw [State.expired, owner]
  generalize s.unqueued x.outlet = v at same ⊢
  have kept : OrderKept e s v := .of_same (by rw [same]) (by rw [same]) (by rw [same]) (by rw [same])
  exact kept.before (tell_answered (by rw [same]; exact wf) e x.outlet .toClosed .patience)

theorem expire_filed {s : State} (wf : MemWf s.mem) (room : s.logFull = false) {x : QueueEntry} (waits : Waits s x)
    (noOrder : ∀ e, x.owner ≠ .order e) (noCycle : ∀ c, x.owner ≠ .cycle c) :
    logEntry (s.expire x).mem s.writeCount .queuePatience (x.outlet.val + 1) x.cls.val s.partTime x.stamp := by
  rw [expire_eq waits]
  have same := unqueued_same s x.outlet
  have told : (s.expired x).mem = (s.unqueued x.outlet).mem ∧ (s.expired x).now = (s.unqueued x.outlet).now := by
    unfold State.expired
    cases owner : x.owner with
    | order e => exact absurd owner (noOrder e)
    | cycle c => exact absurd owner (noCycle c)
    | shed b => exact ⟨by rw [tell_shed], by rw [tell_shed]⟩
    | restore b => exact ⟨by rw [tell_restore]; rfl, by rw [tell_restore]; rfl⟩
  generalize s.unqueued x.outlet = v at *
  generalize s.expired x = y at *
  have mem : y.mem = s.mem := told.1.trans (by rw [same])
  have clock : y.now = s.now := told.2.trans (by rw [same])
  have filed := (notice_noticed (s := y) (by rw [mem]; exact wf) (by rw [State.logFull, State.writeCount, mem]; exact room)
    .queuePatience (subject := numberOf x.outlet) (reason := x.cls.val) ((numberOf_outlet_lt _).trans (by decide))
    (lt_trans x.cls.isLt (by decide)) x.stamp).entry
  rw [State.writeCount, mem, State.partTime, clock] at filed
  exact filed

/-! ### A taken change of the patience (R114) -/

section
variable {s : State} (closed : Settings) (res : Vector OutletResult 48) (whole : List OutletIx)

theorem schedulerWork_unchanged (same : closed.strip.queuePatience = s.work.strip.queuePatience) :
    s.schedulerWork closed res whole = s.loadsTaken closed res whole := by
  have work : (s.loadsTaken closed res whole).work = s.work := by rw [loadsTaken_same]
  have def_ : s.schedulerWork closed res whole = (s.loadsTaken closed res whole).patienceChange closed := rfl
  rw [def_, State.patienceChange, work, if_pos same]

theorem schedulerWork_changed (control : Control s) (changed : closed.strip.queuePatience ≠ s.work.strip.queuePatience) :
    (∀ x ∈ s.queue, Waits (s.loadsTaken closed res whole) x) ∧
    s.schedulerWork closed res whole =
      (s.queue.filter fun x => s.patienceOver x).foldl State.expire (s.loadsTaken closed res whole) := by
  have same := loadsTaken_same s closed res whole
  have def_ : s.schedulerWork closed res whole = (s.loadsTaken closed res whole).patienceChange closed := rfl
  rw [def_]
  generalize s.loadsTaken closed res whole = v at *
  have queue : v.queue = s.queue := by rw [same]
  have work : v.work = s.work := by rw [same]
  have waits (x : QueueEntry) (hx : x ∈ s.queue) : Waits v x := by
    refine ⟨queue ▸ hx, ?_, ?_⟩
    · rw [same]
      exact control.queueOwners x hx
    · rw [same]
      exact (control.queued x.outlet).mp (List.mem_map_of_mem hx)
  have turns := patienceTurns_eq waits control.queueOutlets
  have passed (x : QueueEntry) : v.patienceOver x = s.patienceOver x := by
    rw [same]
    rfl
  simp only [passed] at turns
  have folded : v.queue.foldl (fun s e => if s.queue.any (·.arrival == e.arrival) && s.patienceOver e then s.expire e else s) v =
      s.queue.foldl State.patienceTurn v := by
    rw [queue]
    rfl
  refine ⟨waits, ?_⟩
  rw [State.patienceChange, work, if_neg changed, folded, turns]

end

/-- R114: the entries that have waited longer than the new patience are removed, with their owners told. -/
theorem schedulerWork_removed {s : State} (control : Control s) (closed : Settings) (res : Vector OutletResult 48)
    (whole : List OutletIx) (changed : closed.strip.queuePatience ≠ s.work.strip.queuePatience) :
    Removed (s.loadsTaken closed res whole) (s.schedulerWork closed res whole) (s.queue.filter fun x => s.patienceOver x) := by
  obtain ⟨waits, work⟩ := schedulerWork_changed closed res whole control changed
  rw [work]
  exact expire_all (fun x hx => waits x (List.mem_filter.mp hx).1) (control.queueOutlets.sublist (List.filter_sublist.map _))

/-- The outlets of the overdue entries, in a queue with one entry for each. -/
theorem overdue_mem {s : State} (control : Control s) {x : QueueEntry} (hx : x ∈ s.queue) :
    x.outlet ∈ (s.queue.filter fun x => s.patienceOver x).map (·.outlet) ↔ s.patienceOver x = true := by
  refine ⟨fun h => ?_, fun h => List.mem_map_of_mem (List.mem_filter.mpr ⟨hx, h⟩)⟩
  obtain ⟨y, hy, same⟩ := List.mem_map.mp h
  obtain ⟨queued, passed⟩ := List.mem_filter.mp hy
  exact List.inj_on_of_nodup_map control.queueOutlets queued hx same ▸ passed

/-- R114: the only entry that has waited too long, with its answer or its notice. -/
theorem schedulerWork_single {s : State} (control : Control s) (wf : MemWf s.mem) (closed : Settings) (res : Vector OutletResult 48)
    (whole : List OutletIx) (changed : closed.strip.queuePatience ≠ s.work.strip.queuePatience) {x : QueueEntry} (hx : x ∈ s.queue)
    (only : ∀ y ∈ s.queue, s.patienceOver y = true → y = x) (passed : s.patienceOver x = true) (room : s.logFull = false)
    {u : State} (hu : u = s.schedulerWork closed res whole) :
    (∀ e, x.owner = .order e → orderAnswered s u e x.outlet .patience) ∧
    ((∀ e, x.owner ≠ .order e) → (∀ c, x.owner ≠ .cycle c) →
      logEntry u.mem s.writeCount .queuePatience (x.outlet.val + 1) x.cls.val s.partTime x.stamp) := by
  obtain ⟨waits, work⟩ := schedulerWork_changed closed res whole control changed
  have single : (s.queue.filter fun x => s.patienceOver x) = [x] := by
    have all (y : QueueEntry) (hy : y ∈ s.queue) : s.patienceOver y = (y == x) := by
      by_cases h : y = x
      · rw [h, passed, beq_self_eq_true]
      · rw [beq_eq_false_iff_ne.mpr h]
        exact Bool.eq_false_iff.mpr fun over_ => h (only y hy over_)
    have distinct : s.queue.Nodup := control.queueOutlets.of_map _
    rw [List.filter_congr all]
    exact (List.filter_beq x).trans (by rw [List.count_eq_one_of_mem distinct hx]; rfl)
  rw [single, List.foldl_cons, List.foldl_nil] at work
  have own := waits x hx
  have same := loadsTaken_same s closed res whole
  rw [hu, work]
  generalize s.loadsTaken closed res whole = v at *
  have wfV : MemWf v.mem := by rw [same]; exact wf
  refine ⟨fun e owner => ?_, fun noOrder noCycle => ?_⟩
  · have kept : OrderKept e s v := .of_same (by rw [same]) (by rw [same]) (by rw [same]) (by rw [same])
    exact kept.before (expire_answered wfV own owner)
  · have filed := expire_filed wfV (by rw [same]; exact room) own noOrder noCycle
    have count : v.writeCount = s.writeCount := by rw [same]; rfl
    have time : v.partTime = s.partTime := by rw [same]; rfl
    rw [count, time] at filed
    exact filed

end Sys2Proof.Machine
end

section
/-! PROOF. The work of a close as a whole (O48). -/
namespace Sys2Proof.Machine

open Sys2Proof.Safety

theorem patienceOver_iff (s : State) (x : QueueEntry) :
    s.patienceOver x = true ↔ x.instant + s.work.strip.queuePatience * 1000000 ≤ s.now := decide_eq_true_iff

/-- R72, R99, R102, R114, R115: the loads, and what a taken change of the patience leaves. -/
theorem schedulerWork_parts {s : State} (control : Control s) (wf : MemWf s.mem) (closed : Settings) (res : Vector OutletResult 48)
    (whole : List OutletIx) :
    let u := s.schedulerWork closed res whole
    let expired := fun (x : QueueEntry) => x.instant + s.work.strip.queuePatience * 1000000 ≤ s.now
    let removed := fun (k : OutletIx) => ∃ x ∈ s.queue, x.outlet = k ∧ expired x
    (∀ b : Branch, u.loads[b] = { s.loads[b] with
      measured := (((indices 48).filter fun k => closed.outlets[k].branch = b).map fun k => res[k].irms).sum
      reservations := s.loads[b].reservations.filter fun r => r.1 ∉ whole }) ∧
    (closed.strip.queuePatience = s.work.strip.queuePatience → u = { s with loads := u.loads, scanDue := u.scanDue }) ∧
    (closed.strip.queuePatience ≠ s.work.strip.queuePatience →
      u.queue = s.queue.filter (fun x => ¬expired x) ∧
      (∀ k : OutletIx, removed k → u.outlets[k] = { s.outlets[k] with
        state := .off, owner := none, lastChange := s.partTime, cycle := u.outlets[k].cycle }) ∧
      (∀ k : OutletIx, ¬removed k → u.outlets[k] = { s.outlets[k] with cycle := u.outlets[k].cycle }) ∧
      (∀ x ∈ s.queue, expired x → ∀ e, x.owner = .order e → ∀ entry, s.orders[e] = some entry →
        (x.outlet, none) ∈ entry.members →
        u.orders[e] = none ∨ ∃ y, u.orders[e] = some y ∧ (x.outlet, some .patience) ∈ y.members) ∧
      (∀ x ∈ s.queue, (∀ y ∈ s.queue, expired y → y = x) → expired x → s.logFull = false →
        (∀ e, x.owner = .order e → orderAnswered s u e x.outlet .patience) ∧
        ((∀ e, x.owner ≠ .order e) → (∀ c, x.owner ≠ .cycle c) →
          logEntry u.mem s.writeCount .queuePatience (x.outlet.val + 1) x.cls.val s.partTime x.stamp)) ∧
      u.drivers = s.drivers ∧ u.moves = s.moves ∧ u.waitList = s.waitList ∧ sameMeasuring s u ∧ sameInputs s u ∧
      sameBytesOutside blockBytes s.mem u.mem) := by
  intro u expired removed
  have load := loadsTaken_load s closed res whole
  have same := loadsTaken_same s closed res whole
  by_cases changed : closed.strip.queuePatience = s.work.strip.queuePatience
  · have work : u = s.loadsTaken closed res whole := schedulerWork_unchanged closed res whole changed
    refine ⟨fun b => ?_, fun _ => ?_, fun h => absurd changed h⟩
    · rw [work]
      exact load b
    · rw [work]
      exact same
  · have gone := schedulerWork_removed control closed res whole changed
    have block : BlockStep s u := schedulerWork_block s closed res whole
    have single {x : QueueEntry} (hx : x ∈ s.queue) (only : ∀ y ∈ s.queue, expired y → y = x) (passed : expired x)
        (room : s.logFull = false) := schedulerWork_single control wf closed res whole changed hx
      (fun y hy passed => only y hy ((patienceOver_iff s y).mp passed)) ((patienceOver_iff s x).mpr passed) room (u := u) rfl
    have member (x : QueueEntry) (hx : x ∈ s.queue) := (overdue_mem control hx).trans (patienceOver_iff s x)
    have removed_iff (k : OutletIx) : removed k ↔ k ∈ (s.queue.filter fun x => s.patienceOver x).map (·.outlet) := by
      rw [List.mem_map]
      refine exists_congr fun x => ?_
      rw [List.mem_filter, patienceOver_iff, and_assoc, and_comm (a := x.outlet = k)]
    have hu : s.schedulerWork closed res whole = u := rfl
    rw [hu] at gone
    clear_value u
    generalize s.loadsTaken closed res whole = v at *
    have time : v.partTime = s.partTime := by rw [same]; rfl
    have outlets : v.outlets = s.outlets := by rw [same]
    refine ⟨fun b => ?_, fun h => absurd h changed, fun _ => ⟨?_, fun k hk => ?_, fun k hk => ?_,
      fun x hx passed e owner entry held open_ => ?_, fun x hx only passed room => single hx only passed room, ?_, ?_, ?_,
      ⟨block.sense, block.phases, block.tb, block.meter, block.meterV, block.pub, block.work, block.choices⟩,
      ⟨⟨block.pending, block.resetting, block.mask, block.sdo⟩, block.sense, block.fifo⟩, block.bytes⟩⟩
    · rw [gone.same]
      exact load b
    · rw [gone.queue, same]
      exact List.filter_congr fun x hx => decide_eq_decide.mpr (not_congr (member x hx))
    · obtain ⟨x, hx, rfl⟩ := List.mem_map.mp ((removed_iff k).mp hk)
      rw [← time, ← outlets]
      exact gone.gone x hx
    · rw [← outlets]
      exact gone.stays k fun h => hk ((removed_iff k).mpr h)
    · refine gone.answers x (List.mem_filter.mpr ⟨hx, (patienceOver_iff s x).mpr passed⟩) e owner (.inr ⟨entry, ?_, open_⟩)
      rw [same]
      exact held
    · rw [gone.same, same]
    · rw [gone.same, same]
    · rw [gone.same, same]

/-- Settles O48: the opening, the outlet controller over all outlets and outlet by outlet, the close scheduler, and the rest of
the work in the order of `WorkDone`. -/
theorem outletWorkAtClose : Obligations.OutletWorkAtClose := by
  unfold Obligations.OutletWorkAtClose
  refine ⟨fun s now i running wf closing => close_works running wf closing, outletsWork_fst, outletsWork_whole,
    fun s closed res whole control wf => schedulerWork_parts control wf closed res whole, fun s closed res seq k wf => ?_⟩
  obtain ⟨unknown, marked⟩ := outletWork_turn s closed res seq k wf
  obtain ⟨frame, peak, kept⟩ := outletWork_frame wf closed res seq k
  exact ⟨unknown, marked, fun clear => outletWork_supervised rfl wf clear rfl, frame, peak, kept⟩

end Sys2Proof.Machine
end
